-- ==== Sys2Proof/Word.lean ====
section
/-! DEFINITION. The word types of the machine: 64-bit registers, bytes, 512-byte vector registers and
1,024-bit masks (R8, R34, R62, R123). -/

namespace Sys2Proof

/-- A 64-bit register or state register. -/
abbrev Word := BitVec 64

/-- A byte of memory. -/
abbrev Byte := BitVec 8

/-- A vector register: 512 bytes, byte 0 in bits [7:0] (R8, R34). -/
abbrev Vec := BitVec 4096

/-- A mask register: bit i governs element i (R34). -/
abbrev Mask := BitVec 1024

/-- A sparse table: pairs of key and entry, keys rising. -/
abbrev Sparse (α : Type) := List (Nat × α)

end Sys2Proof
end

