-- ==== Sys2Proof/Config.lean ====
section
/-! DEFINITION. What the manual leaves to the implementation or to chance: constants with no body. Nothing in
Lean can evaluate them, so a theorem holds for every value of them. -/

namespace Sys2Proof.Config

/-- Which of the agents and events that can move next moves (DESIGN CHOICE, log entry 4), at a tick. -/
opaque choose : Nat → Nat

/-- Cycles beyond one that pass at a core between two issues of its (R141 CNT8, CNT9; DESIGN CHOICE, log entry 7), at a tick. -/
opaque idleCycles : Nat → Nat

/-- The package serial number (R380; DESIGN CHOICE, log entry 8). -/
opaque serial : BitVec 128

/-- The SM2 signature of the package identity key over bytes: key and nonce stay in the root monitor (R379, R380; DESIGN CHOICE, log entry
8). -/
opaque sm2Sign : List Byte → BitVec 512

/-- The Swifel public key, x ‖ y, of a key index, whose SM3 is fused (R379; DESIGN CHOICE, log entry 8). -/
opaque swifelKey : Nat → BitVec 512

/-- The fused minimum security version of a kind of image (R379; DESIGN CHOICE, log entry 8). -/
opaque minVersion : Nat → Nat

/-- The Reed–Solomon parity of a flit's bytes 0 to 87: R393 names neither the field's polynomial nor the code's generator (DESIGN CHOICE, log
entry 8). -/
opaque rsParity : List Byte → BitVec 64

/-- The tag of a control flit: key, header and body bytes 0 to 63; R401 names neither its initial value nor what it covers (DESIGN CHOICE, log
entry 8). -/
opaque controlTag : BitVec 128 → BitVec 32 → BitVec 512 → BitVec 128

/-- The key that start-up gives a fibre: fibre, receive direction (R381 step 8; DESIGN CHOICE, log entry 8). -/
opaque linkKey : Nat → Bool → BitVec 128

/-- The body of a packet whose layout the manual does not give, by packet number (R404; DESIGN CHOICE, log entry 8). -/
opaque packetBody : Nat → List Byte

/-- The donor's bytes of an area or of a result that a spare copies from another package (R422, R423; log
entry 10), by the tick of the request and the byte's number. -/
opaque donorByte : Nat → Nat → Byte

/-- Byte 9 of an event record of type 0x04, where the manual gives no code (R356; DESIGN CHOICE, log entry 14): 0 an HBM sector, 1 a
directory entry, 2 a poisoned byte read by the host. -/
opaque errorKind : Nat → Byte

/-- The bytes of a saved image, at most 1 MiB, in the layout that only the overseer firmware reads (R331; DESIGN CHOICE, log entry 9): by
the tick of the save and the core. -/
opaque imageBytes : Nat → Nat → List Byte

end Sys2Proof.Config
end

