-- ==== Sys2Proof/Syntax.lean ====
section
/-! DEFINITION. The steps of the D40: one constructor of `Instr` per row of the opcode table. The fields of a
word are kept as the bit fields of spec/03_encoding.md. The 95 rows that name a hardware event or an outside
input have no word and no fields here: what such an event brings with it lies in the state's queue of events
(Machine/Event.lean). Strand and hart words stand first, then the pattern words of R273, then the events. -/

namespace Sys2Proof

/-- Every row of the opcode table, in its order. -/
inductive Instr where
  | addR (w : BitVec 2) (b : BitVec 5) (a : BitVec 5) (d : BitVec 5)
  | subR (w : BitVec 2) (b : BitVec 5) (a : BitVec 5) (d : BitVec 5)
  | andR (b : BitVec 5) (a : BitVec 5) (d : BitVec 5)
  | orR (b : BitVec 5) (a : BitVec 5) (d : BitVec 5)
  | xorR (b : BitVec 5) (a : BitVec 5) (d : BitVec 5)
  | shl (w : BitVec 2) (b : BitVec 5) (a : BitVec 5) (d : BitVec 5)
  | shr (w : BitVec 2) (b : BitVec 5) (a : BitVec 5) (d : BitVec 5)
  | sar (w : BitVec 2) (b : BitVec 5) (a : BitVec 5) (d : BitVec 5)
  | min (w : BitVec 2) (b : BitVec 5) (a : BitVec 5) (d : BitVec 5)
  | max (w : BitVec 2) (b : BitVec 5) (a : BitVec 5) (d : BitVec 5)
  | minn (w : BitVec 2) (b : BitVec 5) (a : BitVec 5) (d : BitVec 5)
  | maxn (w : BitVec 2) (b : BitVec 5) (a : BitVec 5) (d : BitVec 5)
  | cmp (c : BitVec 4) (b : BitVec 5) (a : BitVec 5) (d : BitVec 5)
  | sel (b : BitVec 5) (a : BitVec 5) (d : BitVec 5)
  | clz (a : BitVec 5) (d : BitVec 5)
  | ctz (a : BitVec 5) (d : BitVec 5)
  | popc (a : BitVec 5) (d : BitVec 5)
  | mul (b : BitVec 5) (a : BitVec 5) (d : BitVec 5)
  | mulh (b : BitVec 5) (a : BitVec 5) (d : BitVec 5)
  | mulhn (b : BitVec 5) (a : BitVec 5) (d : BitVec 5)
  | addImm (i : BitVec 14) (a : BitVec 5) (d : BitVec 5)
  | andImm (i : BitVec 14) (a : BitVec 5) (d : BitVec 5)
  | orImm (i : BitVec 14) (a : BitVec 5) (d : BitVec 5)
  | xorImm (i : BitVec 14) (a : BitVec 5) (d : BitVec 5)
  | shlImm (w : BitVec 2) (n : BitVec 8) (a : BitVec 5) (d : BitVec 5)
  | shrImm (w : BitVec 2) (n : BitVec 8) (a : BitVec 5) (d : BitVec 5)
  | sarImm (w : BitVec 2) (n : BitVec 8) (a : BitVec 5) (d : BitVec 5)
  | movi (i : BitVec 19) (d : BitVec 5)
  | movh (i : BitVec 19) (d : BitVec 5)
  | div (la : BitVec 4) (b : BitVec 5) (a : BitVec 5) (d : BitVec 5)
  | divn (la : BitVec 4) (b : BitVec 5) (a : BitVec 5) (d : BitVec 5)
  | rem (la : BitVec 4) (b : BitVec 5) (a : BitVec 5) (d : BitVec 5)
  | remn (la : BitVec 4) (b : BitVec 5) (a : BitVec 5) (d : BitVec 5)
  | amesh (b : BitVec 5) (a : BitVec 5) (d : BitVec 5)
  | apost (b : BitVec 5) (a : BitVec 5) (d : BitVec 5)
  | awalk (x : BitVec 7) (k : BitVec 5) (a : BitVec 5)
  | beq (s : BitVec 14) (b : BitVec 5) (a : BitVec 5)
  | bne (s : BitVec 14) (b : BitVec 5) (a : BitVec 5)
  | blt (s : BitVec 14) (b : BitVec 5) (a : BitVec 5)
  | bge (s : BitVec 14) (b : BitVec 5) (a : BitVec 5)
  | bltn (s : BitVec 14) (b : BitVec 5) (a : BitVec 5)
  | bgen (s : BitVec 14) (b : BitVec 5) (a : BitVec 5)
  | rep (s : BitVec 14) (a : BitVec 5)
  | jmp (s : BitVec 19) (d : BitVec 5)
  | call (s : BitVec 19)
  | jr (a : BitVec 5) (d : BitVec 5)
  | callr (a : BitVec 5)
  | ret
  | eret
  | yield
  | exit
  | trap (t : BitVec 12)
  | ldB (i : BitVec 14) (a : BitVec 5) (d : BitVec 5)
  | ldH (i : BitVec 14) (a : BitVec 5) (d : BitVec 5)
  | ldW (i : BitVec 14) (a : BitVec 5) (d : BitVec 5)
  | ldD (i : BitVec 14) (a : BitVec 5) (d : BitVec 5)
  | ldnB (i : BitVec 14) (a : BitVec 5) (d : BitVec 5)
  | ldnH (i : BitVec 14) (a : BitVec 5) (d : BitVec 5)
  | ldnW (i : BitVec 14) (a : BitVec 5) (d : BitVec 5)
  | stB (i : BitVec 14) (a : BitVec 5) (d : BitVec 5)
  | stH (i : BitVec 14) (a : BitVec 5) (d : BitVec 5)
  | stW (i : BitVec 14) (a : BitVec 5) (d : BitVec 5)
  | stD (i : BitVec 14) (a : BitVec 5) (d : BitVec 5)
  | ldstrLoad (p : BitVec 1) (z : BitVec 3) (la : BitVec 4) (b : BitVec 5) (a : BitVec 5) (d : BitVec 5)
  | ldstrStore (p : BitVec 1) (z : BitVec 2) (la : BitVec 4) (b : BitVec 5) (a : BitVec 5) (d : BitVec 5)
  | ldAcqW (s : BitVec 3) (b : BitVec 5) (a : BitVec 5) (d : BitVec 5)
  | ldAcqD (s : BitVec 3) (b : BitVec 5) (a : BitVec 5) (d : BitVec 5)
  | stRelW (s : BitVec 3) (b : BitVec 5) (a : BitVec 5) (d : BitVec 5)
  | stRelD (s : BitVec 3) (b : BitVec 5) (a : BitVec 5) (d : BitVec 5)
  | ldSc (b : BitVec 5) (a : BitVec 5) (d : BitVec 5)
  | stSc (b : BitVec 5) (a : BitVec 5) (d : BitVec 5)
  | ldroW (b : BitVec 5) (a : BitVec 5) (d : BitVec 5)
  | ldroD (b : BitVec 5) (a : BitVec 5) (d : BitVec 5)
  | ldf (b : BitVec 5) (a : BitVec 5) (d : BitVec 5)
  | pre (b : BitVec 5) (a : BitVec 5)
  | bmov (b : BitVec 5) (a : BitVec 5) (d : BitVec 5)
  | amoAdd (w : BitVec 1) (s : BitVec 3) (b : BitVec 5) (a : BitVec 5) (d : BitVec 5)
  | amoMin (w : BitVec 1) (s : BitVec 3) (b : BitVec 5) (a : BitVec 5) (d : BitVec 5)
  | amoMax (w : BitVec 1) (s : BitVec 3) (b : BitVec 5) (a : BitVec 5) (d : BitVec 5)
  | amoMinn (w : BitVec 1) (s : BitVec 3) (b : BitVec 5) (a : BitVec 5) (d : BitVec 5)
  | amoMaxn (w : BitVec 1) (s : BitVec 3) (b : BitVec 5) (a : BitVec 5) (d : BitVec 5)
  | amoAnd (w : BitVec 1) (s : BitVec 3) (b : BitVec 5) (a : BitVec 5) (d : BitVec 5)
  | amoOr (w : BitVec 1) (s : BitVec 3) (b : BitVec 5) (a : BitVec 5) (d : BitVec 5)
  | amoXor (w : BitVec 1) (s : BitVec 3) (b : BitVec 5) (a : BitVec 5) (d : BitVec 5)
  | amoSwp (w : BitVec 1) (s : BitVec 3) (b : BitVec 5) (a : BitVec 5) (d : BitVec 5)
  | amoCas (w : BitVec 1) (s : BitVec 3) (b : BitVec 5) (a : BitVec 5) (d : BitVec 5)
  | amoFadd (w : BitVec 1) (s : BitVec 3) (b : BitVec 5) (a : BitVec 5) (d : BitVec 5)
  | fence (s : BitVec 3)
  | barT
  | barG
  | rflush (b : BitVec 5) (a : BitVec 5)
  | rinv (b : BitVec 5) (a : BitVec 5)
  | waitf (b : BitVec 5) (a : BitVec 5)
  | srd (b : BitVec 5) (d : BitVec 5)
  | swr (b : BitVec 5) (a : BitVec 5)
  | swrImm (i : BitVec 14) (d : BitVec 5)
  | rfork (b : BitVec 5) (a : BitVec 5) (d : BitVec 5)
  | join (a : BitVec 5)
  | mig (a : BitVec 5)
  | amsg (b : BitVec 5) (a : BitVec 5) (d : BitVec 5)
  | hmsg (b : BitVec 5) (a : BitVec 5)
  | task (a : BitVec 5) (d : BitVec 5)
  | dec (b : BitVec 5) (a : BitVec 5)
  | pair (a : BitVec 5) (d : BitVec 5)
  | unpair (d : BitVec 5)
  | gstat (a : BitVec 5)
  | halt
  | vadd (m : BitVec 1) (r : BitVec 2) (b : BitVec 5) (a : BitVec 5) (d : BitVec 5)
  | vsub (m : BitVec 1) (r : BitVec 2) (b : BitVec 5) (a : BitVec 5) (d : BitVec 5)
  | vmul (m : BitVec 1) (r : BitVec 2) (b : BitVec 5) (a : BitVec 5) (d : BitVec 5)
  | vmin (m : BitVec 1) (r : BitVec 2) (b : BitVec 5) (a : BitVec 5) (d : BitVec 5)
  | vmax (m : BitVec 1) (r : BitVec 2) (b : BitVec 5) (a : BitVec 5) (d : BitVec 5)
  | vand (m : BitVec 1) (r : BitVec 2) (b : BitVec 5) (a : BitVec 5) (d : BitVec 5)
  | vor (m : BitVec 1) (r : BitVec 2) (b : BitVec 5) (a : BitVec 5) (d : BitVec 5)
  | vxor (m : BitVec 1) (r : BitVec 2) (b : BitVec 5) (a : BitVec 5) (d : BitVec 5)
  | vshl (m : BitVec 1) (r : BitVec 2) (b : BitVec 5) (a : BitVec 5) (d : BitVec 5)
  | vshr (m : BitVec 1) (r : BitVec 2) (b : BitVec 5) (a : BitVec 5) (d : BitVec 5)
  | vsar (m : BitVec 1) (r : BitVec 2) (b : BitVec 5) (a : BitVec 5) (d : BitVec 5)
  | vmov (m : BitVec 1) (r : BitVec 2) (b : BitVec 5) (a : BitVec 5) (d : BitVec 5)
  | vneg (m : BitVec 1) (r : BitVec 2) (b : BitVec 5) (a : BitVec 5) (d : BitVec 5)
  | vabs (m : BitVec 1) (r : BitVec 2) (b : BitVec 5) (a : BitVec 5) (d : BitVec 5)
  | vrsub (m : BitVec 1) (r : BitVec 2) (b : BitVec 5) (a : BitVec 5) (d : BitVec 5)
  | vxchg (m : BitVec 1) (r : BitVec 2) (b : BitVec 5) (a : BitVec 5) (d : BitVec 5)
  | vdiv (m : BitVec 1) (r : BitVec 2) (b : BitVec 5) (a : BitVec 5) (d : BitVec 5)
  | vsqrt (m : BitVec 1) (r : BitVec 2) (b : BitVec 5) (a : BitVec 5) (d : BitVec 5)
  | vmulh (m : BitVec 1) (r : BitVec 2) (b : BitVec 5) (a : BitVec 5) (d : BitVec 5)
  | vadds (m : BitVec 1) (r : BitVec 2) (b : BitVec 5) (a : BitVec 5) (d : BitVec 5)
  | vsubs (m : BitVec 1) (r : BitVec 2) (b : BitVec 5) (a : BitVec 5) (d : BitVec 5)
  | vabd (m : BitVec 1) (r : BitVec 2) (b : BitVec 5) (a : BitVec 5) (d : BitVec 5)
  | vnot (m : BitVec 1) (r : BitVec 2) (b : BitVec 5) (a : BitVec 5) (d : BitVec 5)
  | vaddLForm (m : BitVec 1) (s : BitVec 5) (d : BitVec 5)
  | vsubLForm (m : BitVec 1) (s : BitVec 5) (d : BitVec 5)
  | vmulLForm (m : BitVec 1) (s : BitVec 5) (d : BitVec 5)
  | vminLForm (m : BitVec 1) (s : BitVec 5) (d : BitVec 5)
  | vmaxLForm (m : BitVec 1) (s : BitVec 5) (d : BitVec 5)
  | vandLForm (m : BitVec 1) (s : BitVec 5) (d : BitVec 5)
  | vorLForm (m : BitVec 1) (s : BitVec 5) (d : BitVec 5)
  | vxorLForm (m : BitVec 1) (s : BitVec 5) (d : BitVec 5)
  | vshlLForm (m : BitVec 1) (s : BitVec 5) (d : BitVec 5)
  | vshrLForm (m : BitVec 1) (s : BitVec 5) (d : BitVec 5)
  | vsarLForm (m : BitVec 1) (s : BitVec 5) (d : BitVec 5)
  | vmovLForm (m : BitVec 1) (s : BitVec 5) (d : BitVec 5)
  | vnegLForm (m : BitVec 1) (s : BitVec 5) (d : BitVec 5)
  | vabsLForm (m : BitVec 1) (s : BitVec 5) (d : BitVec 5)
  | vrsubLForm (m : BitVec 1) (s : BitVec 5) (d : BitVec 5)
  | vxchgLForm (m : BitVec 1) (s : BitVec 5) (d : BitVec 5)
  | vfma (m : BitVec 1) (r : BitVec 2) (b : BitVec 5) (a : BitVec 5) (d : BitVec 5)
  | vfms (m : BitVec 1) (r : BitVec 2) (b : BitVec 5) (a : BitVec 5) (d : BitVec 5)
  | vfnma (m : BitVec 1) (r : BitVec 2) (b : BitVec 5) (a : BitVec 5) (d : BitVec 5)
  | vfnms (m : BitVec 1) (r : BitVec 2) (b : BitVec 5) (a : BitVec 5) (d : BitVec 5)
  | vwadd (m : BitVec 1) (r : BitVec 2) (b : BitVec 5) (a : BitVec 5) (d : BitVec 5)
  | vwsub (m : BitVec 1) (r : BitVec 2) (b : BitVec 5) (a : BitVec 5) (d : BitVec 5)
  | vwmul (m : BitVec 1) (r : BitVec 2) (b : BitVec 5) (a : BitVec 5) (d : BitVec 5)
  | vwmac (m : BitVec 1) (r : BitVec 2) (b : BitVec 5) (a : BitVec 5) (d : BitVec 5)
  | vqmac (m : BitVec 1) (r : BitVec 2) (b : BitVec 5) (a : BitVec 5) (d : BitVec 5)
  | vnshr (m : BitVec 1) (r : BitVec 2) (b : BitVec 5) (a : BitVec 5) (d : BitVec 5)
  | vcvt (m : BitVec 1) (x : BitVec 1) (r : BitVec 2) (t : BitVec 5) (a : BitVec 5) (d : BitVec 5)
  | vcvtw (m : BitVec 1) (x : BitVec 1) (r : BitVec 2) (t : BitVec 5) (a : BitVec 5) (d : BitVec 5)
  | vcvtn (m : BitVec 1) (x : BitVec 1) (r : BitVec 2) (t : BitVec 5) (a : BitVec 5) (d : BitVec 5)
  | vcmpEq (m : BitVec 1) (b : BitVec 5) (a : BitVec 5) (d : BitVec 5)
  | vcmpNe (m : BitVec 1) (b : BitVec 5) (a : BitVec 5) (d : BitVec 5)
  | vcmpLt (m : BitVec 1) (b : BitVec 5) (a : BitVec 5) (d : BitVec 5)
  | vcmpLe (m : BitVec 1) (b : BitVec 5) (a : BitVec 5) (d : BitVec 5)
  | vcmpGt (m : BitVec 1) (b : BitVec 5) (a : BitVec 5) (d : BitVec 5)
  | vcmpGe (m : BitVec 1) (b : BitVec 5) (a : BitVec 5) (d : BitVec 5)
  | vcmpLtn (m : BitVec 1) (b : BitVec 5) (a : BitVec 5) (d : BitVec 5)
  | vcmpGen (m : BitVec 1) (b : BitVec 5) (a : BitVec 5) (d : BitVec 5)
  | mand (b : BitVec 5) (a : BitVec 5) (d : BitVec 5)
  | mor (b : BitVec 5) (a : BitVec 5) (d : BitVec 5)
  | mxor (b : BitVec 5) (a : BitVec 5) (d : BitVec 5)
  | mnot (a : BitVec 5) (d : BitVec 5)
  | mpop (a : BitVec 5) (d : BitVec 5)
  | mfirst (a : BitVec 5) (d : BitVec 5)
  | mfill (a : BitVec 5) (d : BitVec 5)
  | vsel (b : BitVec 5) (a : BitVec 5) (d : BitVec 5)
  | vrsum (m : BitVec 1) (r : BitVec 2) (a : BitVec 5) (d : BitVec 5)
  | vrmax (m : BitVec 1) (r : BitVec 2) (a : BitVec 5) (d : BitVec 5)
  | vrmin (m : BitVec 1) (r : BitVec 2) (a : BitVec 5) (d : BitVec 5)
  | vrand (m : BitVec 1) (r : BitVec 2) (a : BitVec 5) (d : BitVec 5)
  | vror (m : BitVec 1) (r : BitVec 2) (a : BitVec 5) (d : BitVec 5)
  | vrxor (m : BitVec 1) (r : BitVec 2) (a : BitVec 5) (d : BitVec 5)
  | vperm (m : BitVec 1) (b : BitVec 5) (a : BitVec 5) (d : BitVec 5)
  | vslup (m : BitVec 1) (b : BitVec 5) (a : BitVec 5) (d : BitVec 5)
  | vsldn (m : BitVec 1) (b : BitVec 5) (a : BitVec 5) (d : BitVec 5)
  | vbcast (m : BitVec 1) (a : BitVec 5) (d : BitVec 5)
  | vext (m : BitVec 1) (b : BitVec 5) (a : BitVec 5) (d : BitVec 5)
  | vins (m : BitVec 1) (b : BitVec 5) (a : BitVec 5) (d : BitVec 5)
  | vzip (m : BitVec 1) (b : BitVec 5) (a : BitVec 5) (d : BitVec 5)
  | vunzip (m : BitVec 1) (b : BitVec 5) (a : BitVec 5) (d : BitVec 5)
  | vcomp (m : BitVec 1) (a : BitVec 5) (d : BitVec 5)
  | qnt (r : BitVec 2) (la : BitVec 4) (t : BitVec 5) (a : BitVec 5) (d : BitVec 5)
  | dqnt (r : BitVec 2) (la : BitVec 4) (t : BitVec 5) (a : BitVec 5) (d : BitVec 5)
  | vld (m : BitVec 1) (la : BitVec 4) (b : BitVec 5) (a : BitVec 5) (d : BitVec 5)
  | vst (m : BitVec 1) (la : BitVec 4) (b : BitVec 5) (a : BitVec 5) (d : BitVec 5)
  | vlds (m : BitVec 1) (la : BitVec 4) (b : BitVec 5) (a : BitVec 5) (d : BitVec 5)
  | vsts (m : BitVec 1) (la : BitVec 4) (b : BitVec 5) (a : BitVec 5) (d : BitVec 5)
  | vldx (m : BitVec 1) (la : BitVec 4) (b : BitVec 5) (a : BitVec 5) (d : BitVec 5)
  | vstx (m : BitVec 1) (la : BitVec 4) (b : BitVec 5) (a : BitVec 5) (d : BitVec 5)
  | vldf (m : BitVec 1) (la : BitVec 4) (b : BitVec 5) (a : BitVec 5) (d : BitVec 5)
  | vstf (m : BitVec 1) (la : BitVec 4) (b : BitVec 5) (a : BitVec 5) (d : BitVec 5)
  | vldPost (m : BitVec 1) (la : BitVec 4) (a : BitVec 5) (d : BitVec 5)
  | vstPost (m : BitVec 1) (la : BitVec 4) (a : BitVec 5) (d : BitVec 5)
  | vldfPost (m : BitVec 1) (la : BitVec 4) (b : BitVec 5) (a : BitVec 5) (d : BitVec 5)
  | vstfPost (m : BitVec 1) (la : BitVec 4) (b : BitVec 5) (a : BitVec 5) (d : BitVec 5)
  | sbind (a : BitVec 5) (d : BitVec 5)
  | qbind (b : BitVec 5) (d : BitVec 5)
  | unbind (d : BitVec 5)
  | qctl (a : BitVec 5) (d : BitVec 5)
  | hset (a : BitVec 5) (d : BitVec 5)
  | cpy (h : BitVec 2) (t : BitVec 4) (b : BitVec 5) (a : BitVec 5) (d : BitVec 5)
  | cpyG (h : BitVec 2) (t : BitVec 4) (b : BitVec 5)
  | cpyS (h : BitVec 2) (t : BitVec 4) (b : BitVec 5)
  | cwaitAny (a : BitVec 5) (d : BitVec 5)
  | cwaitAll (a : BitVec 5)
  | cfind (a : BitVec 5) (d : BitVec 5)
  | evk (b : BitVec 5) (a : BitVec 5)
  | kick (b : BitVec 5) (a : BitVec 5) (d : BitVec 5)
  | mwld (o : BitVec 6)
  | mtile (o : BitVec 6) (d : BitVec 5)
  | mdrain (o : BitVec 6) (d : BitVec 5)
  | mset (o : BitVec 6) (a : BitVec 5)
  | mwait
  | mred (a : BitVec 5)
  | mresume
  | mlay (o : BitVec 6) (a : BitVec 5)
  | mclr (d : BitVec 5)
  | mstat (d : BitVec 5)
  | pload (b : BitVec 5) (a : BitVec 5)
  | pbind (b : BitVec 5) (a : BitVec 5)
  | pbindT (b : BitVec 5) (a : BitVec 5)
  | pstat (b : BitVec 5) (d : BitVec 5)
  | vreg (a : BitVec 5) (d : BitVec 5)
  | vdrop (a : BitVec 5)
  | vsync (a : BitVec 5)
  | vstat (b : BitVec 5) (a : BitVec 5) (d : BitVec 5)
  | vpol (b : BitVec 5) (a : BitVec 5) (d : BitVec 5)
  | stRep (b : BitVec 5) (a : BitVec 5) (d : BitVec 5)
  | reconf (a : BitVec 5) (d : BitVec 5)
  | cgjoin (a : BitVec 5) (d : BitVec 5)
  | cgleave (a : BitVec 5)
  | coll (b : BitVec 5) (a : BitVec 5) (d : BitVec 5)
  | clogr (b : BitVec 5) (a : BitVec 5) (d : BitVec 5)
  | ctake
  | cstart (a : BitVec 5)
  | kldi (i : BitVec 8) (d : BitVec 4)
  | kaddi (i : BitVec 8) (a : BitVec 4) (d : BitVec 4)
  | kadd (b : BitVec 4) (a : BitVec 4) (d : BitVec 4)
  | ksub (b : BitVec 4) (a : BitVec 4) (d : BitVec 4)
  | kmul (b : BitVec 4) (a : BitVec 4) (d : BitVec 4)
  | kdiv (b : BitVec 4) (a : BitVec 4) (d : BitVec 4)
  | kmod (b : BitVec 4) (a : BitVec 4) (d : BitVec 4)
  | kmin (b : BitVec 4) (a : BitVec 4) (d : BitVec 4)
  | kmax (b : BitVec 4) (a : BitVec 4) (d : BitVec 4)
  | kshr (i : BitVec 5) (a : BitVec 4) (d : BitVec 4)
  | khash (b : BitVec 4) (a : BitVec 4) (d : BitVec 4)
  | kldp (i : BitVec 3) (d : BitVec 4)
  | kemit (b : BitVec 4) (a : BitVec 4)
  | kblt (b : BitVec 4) (i : BitVec 8) (a : BitVec 4)
  | kloop (i : BitVec 8) (a : BitVec 4)
  | kend
  | pairComparison
  | migrationMessageArrival
  | migrationResend
  | arrivalContextGrant
  | activeMessageArrival
  | amsgReply
  | decArrival
  | taskSlotStart
  | meshPortWordArrival
  | queueElementArrival
  | streamElementFetch
  | streamElementWrite
  | copyCompletion
  | copyStop
  | hartRestart
  | matrixCommandTake
  | matrixCommandComplete
  | matrixResumableStop
  | preemption
  | preemptionSaveComplete
  | restore
  | retryResend
  | heldStrandRelease
  | heldStrandEnd
  | l1Fill
  | ownershipGrant
  | forwardedRead
  | forwardedOwnership
  | recallRange
  | recordDeletion
  | l1UncorrectableError
  | directoryError
  | recallTimeout
  | translationWalk
  | leaseExpiry
  | patrolScrub
  | announcementWindowClose
  | announcementDelivery
  | phaseStep
  | impressionPass
  | blockRecomputation
  | bar2Write
  | bar2Read
  | hostWindowRequest
  | backInvalidation
  | launchRingEntry
  | eventRingWrite
  | winbaseWrite
  | eqbaseWrite
  | eqsizeWrite
  | eqheadWrite
  | lqbaseWrite
  | lqsizeWrite
  | lqtailWrite
  | lqtenWrite
  | attnWrite
  | managementRegisterWrite
  | bindRecordCommit
  | bindRecordEmpty
  | boundsRecordWrite
  | startUp
  | flitReceive
  | frameReceive
  | acknowledgement
  | acknowledgementDue
  | replayRequest
  | replayTimeout
  | restripe
  | hello
  | quiesce
  | wavelengthThreshold
  | wavelengthTrained
  | lossOfLight
  | lightReturn
  | keyLoad
  | downListWrite
  | remoteRequest
  | remoteResponse
  | copyWritePacket
  | copyWriteResponse
  | reconfDrainComplete
  | switchStatus
  | switchStatusTimeout
  | reconfTrainingComplete
  | reconfTimeout
  | groupActive
  | joinTimeout
  | collectiveContribution
  | memberTimeout
  | collectiveCompletion
  | uncorrectableCoreError
  | hbmUncorrectableError
  | cxlCacheResponse
  | fibrePinWrite
  | wavelengthThresholdWrite
  deriving DecidableEq, Repr

end Sys2Proof
end

