-- ==== Sys2Proof/WellFormed.lean ====
section
/-! DEFINITION. Which instruction words are encodings (R46, R60): the class of every register field, the
sub-fields' ranges, and the type codes that a word admits. An event row has no word, so it is never well formed
as a word. -/

namespace Sys2Proof

/-- Scalar source: 0 to 29 (R46). -/
def scalarSource (f : BitVec 5) : Bool := decide (f.toNat ≤ 29)
/-- Scalar destination: 0 to 28 (R46). -/
def scalarDest (f : BitVec 5) : Bool := decide (f.toNat ≤ 28)
/-- Scalar destination other than a port: 0 to 23 and 28 (R91, R112, R145, R226). -/
def scalarDestNoPort (f : BitVec 5) : Bool := decide (f.toNat ≤ 23) || decide (f.toNat = 28)
/-- Address base: a0 to a7 (R46). -/
def addressBase (f : BitVec 5) : Bool := decide (16 ≤ f.toNat) && decide (f.toNat ≤ 23)
/-- Mask register (R46). -/
def maskReg (f : BitVec 5) : Bool := decide (f.toNat ≤ 7)
/-- Accumulator name (R46). -/
def accumulator (f : BitVec 5) : Bool := decide (f.toNat ≤ 3)
/-- State register number of R49. -/
def stateRegister (f : BitVec 5) : Bool := decide (f.toNat ≤ 11) || decide (16 ≤ f.toNat)
/-- State register that SWR may write: not CTAG, not MQW (R46, R121). -/
def writableRegister (f : BitVec 5) : Bool := stateRegister f && f != 7#5 && f != 11#5
/-- g0 to g15 and a0 to a7 (R89, R96). -/
def windowOrAddress (f : BitVec 5) : Bool := decide (f.toNat ≤ 23)
/-- g0 to g15 (R110). -/
def windowReg (f : BitVec 5) : Bool := decide (f.toNat ≤ 15)

/-- Lane types of R14. -/
def laneCode (t : BitVec 5) : Bool :=
  decide (t.toNat ≤ 4) || (decide (8 ≤ t.toNat) && decide (t.toNat ≤ 12)) ||
    (decide (16 ≤ t.toNat) && decide (t.toNat ≤ 19))
/-- E4M3 and E5M2 (R14). -/
def smallFloatCode (t : BitVec 5) : Bool := decide (t.toNat = 20) || decide (t.toNat = 21)
/-- P2 to P8 (R14). -/
def planeCode (t : BitVec 5) : Bool := decide (24 ≤ t.toNat) && decide (t.toNat ≤ 30)

/-- The register classes and sub-field ranges that a word must meet; a word that fails raises the
illegal-instruction trap with DETAIL 0x00 (R60). -/
def fieldsOk : Instr → Bool
  | .addR _ b a d => scalarSource b && scalarSource a && scalarDest d
  | .subR _ b a d => scalarSource b && scalarSource a && scalarDest d
  | .andR b a d => scalarSource b && scalarSource a && scalarDest d
  | .orR b a d => scalarSource b && scalarSource a && scalarDest d
  | .xorR b a d => scalarSource b && scalarSource a && scalarDest d
  | .shl _ b a d => scalarSource b && scalarSource a && scalarDest d
  | .shr _ b a d => scalarSource b && scalarSource a && scalarDest d
  | .sar _ b a d => scalarSource b && scalarSource a && scalarDest d
  | .min _ b a d => scalarSource b && scalarSource a && scalarDest d
  | .max _ b a d => scalarSource b && scalarSource a && scalarDest d
  | .minn _ b a d => scalarSource b && scalarSource a && scalarDest d
  | .maxn _ b a d => scalarSource b && scalarSource a && scalarDest d
  | .cmp c b a d => scalarSource b && scalarSource a && scalarDest d && decide (c.toNat ≤ 5)
  | .sel b a d => scalarSource b && scalarSource a && windowOrAddress d
  | .clz a d => scalarSource a && scalarDest d
  | .ctz a d => scalarSource a && scalarDest d
  | .popc a d => scalarSource a && scalarDest d
  | .mul b a d => scalarSource b && scalarSource a && scalarDest d
  | .mulh b a d => scalarSource b && scalarSource a && scalarDest d
  | .mulhn b a d => scalarSource b && scalarSource a && scalarDest d
  | .addImm _ a d => scalarSource a && scalarDest d
  | .andImm _ a d => scalarSource a && scalarDest d
  | .orImm _ a d => scalarSource a && scalarDest d
  | .xorImm _ a d => scalarSource a && scalarDest d
  | .shlImm _ _ a d => scalarSource a && scalarDest d
  | .shrImm _ _ a d => scalarSource a && scalarDest d
  | .sarImm _ _ a d => scalarSource a && scalarDest d
  | .movi _ d => scalarDestNoPort d
  | .movh _ d => scalarDestNoPort d
  | .div _ b a d => scalarSource b && scalarSource a && scalarDest d
  | .divn _ b a d => scalarSource b && scalarSource a && scalarDest d
  | .rem _ b a d => scalarSource b && scalarSource a && scalarDest d
  | .remn _ b a d => scalarSource b && scalarSource a && scalarDest d
  | .amesh b a d => scalarSource b && scalarSource a && scalarDest d
  | .apost b a d => scalarSource b && scalarSource a && scalarDest d
  | .awalk x k a => addressBase a && decide (x.toNat ≠ 0) && decide (3 ≤ k.toNat) && decide (k.toNat ≤ 19)
  | .beq _ b a => scalarSource a && scalarSource b
  | .bne _ b a => scalarSource a && scalarSource b
  | .blt _ b a => scalarSource a && scalarSource b
  | .bge _ b a => scalarSource a && scalarSource b
  | .bltn _ b a => scalarSource a && scalarSource b
  | .bgen _ b a => scalarSource a && scalarSource b
  | .rep _ a => windowOrAddress a
  | .jmp _ d => scalarDest d
  | .call _ => true
  | .jr a d => scalarSource a && scalarDest d
  | .callr a => scalarSource a
  | .ret => true
  | .eret => true
  | .yield => true
  | .exit => true
  | .trap _ => true
  | .ldB _ a d => addressBase a && scalarDest d
  | .ldH _ a d => addressBase a && scalarDest d
  | .ldW _ a d => addressBase a && scalarDest d
  | .ldD _ a d => addressBase a && scalarDest d
  | .ldnB _ a d => addressBase a && scalarDest d
  | .ldnH _ a d => addressBase a && scalarDest d
  | .ldnW _ a d => addressBase a && scalarDest d
  | .stB _ a d => addressBase a && scalarSource d
  | .stH _ a d => addressBase a && scalarSource d
  | .stW _ a d => addressBase a && scalarSource d
  | .stD _ a d => addressBase a && scalarSource d
  | .ldstrLoad p z _ b a d => scalarSource b && addressBase a && scalarDest d && decide (z.toNat ≤ 6) && (p == 0#1 || b == 28#5)
  | .ldstrStore p _ _ b a d => scalarSource b && addressBase a && scalarSource d && (p == 0#1 || b == 28#5)
  | .ldAcqW s b a d => scalarSource b && addressBase a && scalarDest d && decide (s.toNat ≤ 5)
  | .ldAcqD s b a d => scalarSource b && addressBase a && scalarDest d && decide (s.toNat ≤ 5)
  | .stRelW s b a d => scalarSource b && addressBase a && scalarSource d && decide (s.toNat ≤ 5)
  | .stRelD s b a d => scalarSource b && addressBase a && scalarSource d && decide (s.toNat ≤ 5)
  | .ldSc b a d => scalarSource b && addressBase a && scalarDest d
  | .stSc b a d => scalarSource b && addressBase a && scalarSource d
  | .ldroW b a d => scalarSource b && addressBase a && scalarDest d
  | .ldroD b a d => scalarSource b && addressBase a && scalarDest d
  | .ldf b a d => scalarSource b && addressBase a && scalarDest d
  | .pre b a => scalarSource b && addressBase a
  | .bmov b a d => windowReg b && windowReg a && windowReg d && (b != a) && (b != d) && (a != d)
  | .amoAdd _ s b a d => scalarSource b && addressBase a && scalarDestNoPort d && decide (s.toNat ≤ 6)
  | .amoMin _ s b a d => scalarSource b && addressBase a && scalarDestNoPort d && decide (s.toNat ≤ 6)
  | .amoMax _ s b a d => scalarSource b && addressBase a && scalarDestNoPort d && decide (s.toNat ≤ 6)
  | .amoMinn _ s b a d => scalarSource b && addressBase a && scalarDestNoPort d && decide (s.toNat ≤ 6)
  | .amoMaxn _ s b a d => scalarSource b && addressBase a && scalarDestNoPort d && decide (s.toNat ≤ 6)
  | .amoAnd _ s b a d => scalarSource b && addressBase a && scalarDestNoPort d && decide (s.toNat ≤ 6)
  | .amoOr _ s b a d => scalarSource b && addressBase a && scalarDestNoPort d && decide (s.toNat ≤ 6)
  | .amoXor _ s b a d => scalarSource b && addressBase a && scalarDestNoPort d && decide (s.toNat ≤ 6)
  | .amoSwp _ s b a d => scalarSource b && addressBase a && scalarDestNoPort d && decide (s.toNat ≤ 6)
  | .amoCas _ s b a d => scalarSource b && addressBase a && scalarDestNoPort d && decide (s.toNat ≤ 6)
  | .amoFadd _ s b a d => scalarSource b && addressBase a && scalarDestNoPort d && decide (s.toNat ≤ 6)
  | .fence s => decide (s.toNat ≤ 5)
  | .barT => true
  | .barG => true
  | .rflush b a => scalarSource b && addressBase a
  | .rinv b a => scalarSource b && addressBase a
  | .waitf b a => scalarSource b && addressBase a
  | .srd b d => stateRegister b && scalarDest d
  | .swr b a => writableRegister b && scalarSource a
  | .swrImm _ d => writableRegister d
  | .rfork b a d => scalarSource b && addressBase a && scalarDestNoPort d
  | .join a => addressBase a
  | .mig a => scalarSource a
  | .amsg b a d => scalarSource b && addressBase a && scalarDestNoPort d
  | .hmsg b a => scalarSource b && scalarSource a
  | .task a d => addressBase a && scalarDestNoPort d
  | .dec b a => scalarSource b && scalarSource a
  | .pair a d => scalarSource a && scalarDestNoPort d
  | .unpair d => scalarDestNoPort d
  | .gstat a => addressBase a
  | .halt => true
  | .vadd _ _ _ _ _ => true
  | .vsub _ _ _ _ _ => true
  | .vmul _ _ _ _ _ => true
  | .vmin _ r _ _ _ => (r == 0#2)
  | .vmax _ r _ _ _ => (r == 0#2)
  | .vand _ r _ _ _ => (r == 0#2)
  | .vor _ r _ _ _ => (r == 0#2)
  | .vxor _ r _ _ _ => (r == 0#2)
  | .vshl _ r _ _ _ => (r == 0#2)
  | .vshr _ r _ _ _ => (r == 0#2)
  | .vsar _ r _ _ _ => (r == 0#2)
  | .vmov _ r _ a d => (a == d) && (r == 0#2)
  | .vneg _ r _ a d => (a == d) && (r == 0#2)
  | .vabs _ r _ a d => (a == d) && (r == 0#2)
  | .vrsub _ _ _ _ _ => true
  | .vxchg _ r _ a d => (a == d) && (r == 0#2)
  | .vdiv _ _ _ _ _ => true
  | .vsqrt _ _ _ a d => (a == d)
  | .vmulh _ r _ _ _ => (r == 0#2)
  | .vadds _ r _ _ _ => (r == 0#2)
  | .vsubs _ r _ _ _ => (r == 0#2)
  | .vabd _ _ _ _ _ => true
  | .vnot _ r _ a d => (a == d) && (r == 0#2)
  | .vaddLForm m s d => !(m == 0#1 && s == 0#5 && d == 0#5)
  | .vsubLForm _ _ _ => true
  | .vmulLForm _ _ _ => true
  | .vminLForm _ _ _ => true
  | .vmaxLForm _ _ _ => true
  | .vandLForm _ _ _ => true
  | .vorLForm _ _ _ => true
  | .vxorLForm _ _ _ => true
  | .vshlLForm _ _ _ => true
  | .vshrLForm _ _ _ => true
  | .vsarLForm _ _ _ => true
  | .vmovLForm _ _ _ => true
  | .vnegLForm _ _ _ => true
  | .vabsLForm _ _ _ => true
  | .vrsubLForm _ _ _ => true
  | .vxchgLForm _ _ _ => true
  | .vfma _ _ _ _ _ => true
  | .vfms _ _ _ _ _ => true
  | .vfnma _ _ _ _ _ => true
  | .vfnms _ _ _ _ _ => true
  | .vwadd _ _ _ _ _ => true
  | .vwsub _ _ _ _ _ => true
  | .vwmul _ _ _ _ _ => true
  | .vwmac _ _ _ _ _ => true
  | .vqmac _ _ _ _ _ => true
  | .vnshr _ _ _ _ _ => true
  | .vcvt _ _ _ _ _ _ => true
  | .vcvtw _ _ _ _ _ _ => true
  | .vcvtn _ _ _ _ _ _ => true
  | .vcmpEq _ _ _ d => maskReg d
  | .vcmpNe _ _ _ d => maskReg d
  | .vcmpLt _ _ _ d => maskReg d
  | .vcmpLe _ _ _ d => maskReg d
  | .vcmpGt _ _ _ d => maskReg d
  | .vcmpGe _ _ _ d => maskReg d
  | .vcmpLtn _ _ _ d => maskReg d
  | .vcmpGen _ _ _ d => maskReg d
  | .mand b a d => maskReg b && maskReg a && maskReg d
  | .mor b a d => maskReg b && maskReg a && maskReg d
  | .mxor b a d => maskReg b && maskReg a && maskReg d
  | .mnot a d => maskReg a && maskReg d
  | .mpop a d => maskReg a && scalarDest d
  | .mfirst a d => maskReg a && scalarDest d
  | .mfill a d => scalarSource a && maskReg d
  | .vsel _ _ _ => true
  | .vrsum _ _ _ d => scalarDest d
  | .vrmax _ r _ d => scalarDest d && (r == 0#2)
  | .vrmin _ r _ d => scalarDest d && (r == 0#2)
  | .vrand _ r _ d => scalarDest d && (r == 0#2)
  | .vror _ r _ d => scalarDest d && (r == 0#2)
  | .vrxor _ r _ d => scalarDest d && (r == 0#2)
  | .vperm _ _ _ _ => true
  | .vslup _ b _ _ => scalarSource b
  | .vsldn _ b _ _ => scalarSource b
  | .vbcast _ a _ => scalarSource a
  | .vext _ b _ d => scalarSource b && scalarDest d
  | .vins _ b a _ => scalarSource b && scalarSource a
  | .vzip _ _ _ _ => true
  | .vunzip _ _ _ _ => true
  | .vcomp _ _ _ => true
  | .qnt _ _ _ _ _ => true
  | .dqnt _ _ _ _ _ => true
  | .vld _ _ b a _ => scalarSource b && addressBase a
  | .vst _ _ b a _ => scalarSource b && addressBase a
  | .vlds _ _ b a _ => scalarSource b && addressBase a
  | .vsts _ _ b a _ => scalarSource b && addressBase a
  | .vldx _ _ _ a _ => addressBase a
  | .vstx _ _ _ a _ => addressBase a
  | .vldf _ _ b a _ => scalarSource b && addressBase a
  | .vstf _ _ b a _ => scalarSource b && addressBase a
  | .vldPost _ _ a _ => addressBase a
  | .vstPost _ _ a _ => addressBase a
  | .vldfPost _ _ b a _ => scalarSource b && addressBase a
  | .vstfPost _ _ b a _ => scalarSource b && addressBase a
  | .sbind a _ => addressBase a
  | .qbind b _ => scalarSource b
  | .unbind _ => true
  | .qctl a _ => scalarSource a
  | .hset a d => scalarSource a && scalarDest d
  | .cpy _ _ b a d => scalarSource b && addressBase a && addressBase d
  | .cpyG _ _ b => addressBase b
  | .cpyS _ _ b => addressBase b
  | .cwaitAny a d => scalarSource a && scalarDestNoPort d
  | .cwaitAll a => scalarSource a
  | .cfind a d => scalarSource a && scalarDestNoPort d
  | .evk b a => scalarSource b && addressBase a
  | .kick b a d => scalarSource b && scalarSource a && scalarDestNoPort d
  | .mwld _ => true
  | .mtile _ d => accumulator d
  | .mdrain _ d => accumulator d
  | .mset o a => scalarSource a && decide (o.toNat ≤ 7)
  | .mwait => true
  | .mred a => scalarSource a
  | .mresume => true
  | .mlay _ a => scalarSource a
  | .mclr d => accumulator d
  | .mstat d => scalarDestNoPort d
  | .pload b a => scalarSource b && addressBase a
  | .pbind b a => scalarSource b && addressBase a
  | .pbindT b a => scalarSource b && addressBase a
  | .pstat b d => scalarSource b && scalarDestNoPort d
  | .vreg a d => addressBase a && scalarDestNoPort d
  | .vdrop a => scalarSource a
  | .vsync a => scalarSource a
  | .vstat b a d => scalarSource b && scalarSource a && scalarDestNoPort d
  | .vpol b a d => scalarSource b && scalarSource a && scalarDestNoPort d
  | .stRep b a d => scalarSource b && addressBase a && addressBase d
  | .reconf a d => addressBase a && scalarDestNoPort d
  | .cgjoin a d => addressBase a && scalarDestNoPort d
  | .cgleave a => scalarSource a
  | .coll b a d => scalarSource b && addressBase a && scalarDestNoPort d
  | .clogr b a d => scalarSource b && scalarSource a && scalarDestNoPort d
  | .ctake => true
  | .cstart a => scalarSource a
  | .kldi _ _ => true
  | .kaddi _ _ _ => true
  | .kadd _ _ _ => true
  | .ksub _ _ _ => true
  | .kmul _ _ _ => true
  | .kdiv _ _ _ => true
  | .kmod _ _ _ => true
  | .kmin _ _ _ => true
  | .kmax _ _ _ => true
  | .kshr _ _ _ => true
  | .khash _ _ _ => true
  | .kldp _ _ => true
  | .kemit _ _ => true
  | .kblt _ _ _ => true
  | .kloop _ _ => true
  | .kend => true
  | .pairComparison => false
  | .migrationMessageArrival => false
  | .migrationResend => false
  | .arrivalContextGrant => false
  | .activeMessageArrival => false
  | .amsgReply => false
  | .decArrival => false
  | .taskSlotStart => false
  | .meshPortWordArrival => false
  | .queueElementArrival => false
  | .streamElementFetch => false
  | .streamElementWrite => false
  | .copyCompletion => false
  | .copyStop => false
  | .hartRestart => false
  | .matrixCommandTake => false
  | .matrixCommandComplete => false
  | .matrixResumableStop => false
  | .preemption => false
  | .preemptionSaveComplete => false
  | .restore => false
  | .retryResend => false
  | .heldStrandRelease => false
  | .heldStrandEnd => false
  | .l1Fill => false
  | .ownershipGrant => false
  | .forwardedRead => false
  | .forwardedOwnership => false
  | .recallRange => false
  | .recordDeletion => false
  | .l1UncorrectableError => false
  | .directoryError => false
  | .recallTimeout => false
  | .translationWalk => false
  | .leaseExpiry => false
  | .patrolScrub => false
  | .announcementWindowClose => false
  | .announcementDelivery => false
  | .phaseStep => false
  | .impressionPass => false
  | .blockRecomputation => false
  | .bar2Write => false
  | .bar2Read => false
  | .hostWindowRequest => false
  | .backInvalidation => false
  | .launchRingEntry => false
  | .eventRingWrite => false
  | .winbaseWrite => false
  | .eqbaseWrite => false
  | .eqsizeWrite => false
  | .eqheadWrite => false
  | .lqbaseWrite => false
  | .lqsizeWrite => false
  | .lqtailWrite => false
  | .lqtenWrite => false
  | .attnWrite => false
  | .managementRegisterWrite => false
  | .bindRecordCommit => false
  | .bindRecordEmpty => false
  | .boundsRecordWrite => false
  | .startUp => false
  | .flitReceive => false
  | .frameReceive => false
  | .acknowledgement => false
  | .acknowledgementDue => false
  | .replayRequest => false
  | .replayTimeout => false
  | .restripe => false
  | .hello => false
  | .quiesce => false
  | .wavelengthThreshold => false
  | .wavelengthTrained => false
  | .lossOfLight => false
  | .lightReturn => false
  | .keyLoad => false
  | .downListWrite => false
  | .remoteRequest => false
  | .remoteResponse => false
  | .copyWritePacket => false
  | .copyWriteResponse => false
  | .reconfDrainComplete => false
  | .switchStatus => false
  | .switchStatusTimeout => false
  | .reconfTrainingComplete => false
  | .reconfTimeout => false
  | .groupActive => false
  | .joinTimeout => false
  | .collectiveContribution => false
  | .memberTimeout => false
  | .collectiveCompletion => false
  | .uncorrectableCoreError => false
  | .hbmUncorrectableError => false
  | .cxlCacheResponse => false
  | .fibrePinWrite => false
  | .wavelengthThresholdWrite => false

/-- A type-code field whose value the instruction never admits: DETAIL 0x20 (R60, R156). -/
def typeCodeBad : Instr → Bool
  | .addR _ _ _ _ => false
  | .subR _ _ _ _ => false
  | .andR _ _ _ => false
  | .orR _ _ _ => false
  | .xorR _ _ _ => false
  | .shl _ _ _ _ => false
  | .shr _ _ _ _ => false
  | .sar _ _ _ _ => false
  | .min _ _ _ _ => false
  | .max _ _ _ _ => false
  | .minn _ _ _ _ => false
  | .maxn _ _ _ _ => false
  | .cmp _ _ _ _ => false
  | .sel _ _ _ => false
  | .clz _ _ => false
  | .ctz _ _ => false
  | .popc _ _ => false
  | .mul _ _ _ => false
  | .mulh _ _ _ => false
  | .mulhn _ _ _ => false
  | .addImm _ _ _ => false
  | .andImm _ _ _ => false
  | .orImm _ _ _ => false
  | .xorImm _ _ _ => false
  | .shlImm _ _ _ _ => false
  | .shrImm _ _ _ _ => false
  | .sarImm _ _ _ _ => false
  | .movi _ _ => false
  | .movh _ _ => false
  | .div _ _ _ _ => false
  | .divn _ _ _ _ => false
  | .rem _ _ _ _ => false
  | .remn _ _ _ _ => false
  | .amesh _ _ _ => false
  | .apost _ _ _ => false
  | .awalk _ _ _ => false
  | .beq _ _ _ => false
  | .bne _ _ _ => false
  | .blt _ _ _ => false
  | .bge _ _ _ => false
  | .bltn _ _ _ => false
  | .bgen _ _ _ => false
  | .rep _ _ => false
  | .jmp _ _ => false
  | .call _ => false
  | .jr _ _ => false
  | .callr _ => false
  | .ret => false
  | .eret => false
  | .yield => false
  | .exit => false
  | .trap _ => false
  | .ldB _ _ _ => false
  | .ldH _ _ _ => false
  | .ldW _ _ _ => false
  | .ldD _ _ _ => false
  | .ldnB _ _ _ => false
  | .ldnH _ _ _ => false
  | .ldnW _ _ _ => false
  | .stB _ _ _ => false
  | .stH _ _ _ => false
  | .stW _ _ _ => false
  | .stD _ _ _ => false
  | .ldstrLoad _ _ _ _ _ _ => false
  | .ldstrStore _ _ _ _ _ _ => false
  | .ldAcqW _ _ _ _ => false
  | .ldAcqD _ _ _ _ => false
  | .stRelW _ _ _ _ => false
  | .stRelD _ _ _ _ => false
  | .ldSc _ _ _ => false
  | .stSc _ _ _ => false
  | .ldroW _ _ _ => false
  | .ldroD _ _ _ => false
  | .ldf _ _ _ => false
  | .pre _ _ => false
  | .bmov _ _ _ => false
  | .amoAdd _ _ _ _ _ => false
  | .amoMin _ _ _ _ _ => false
  | .amoMax _ _ _ _ _ => false
  | .amoMinn _ _ _ _ _ => false
  | .amoMaxn _ _ _ _ _ => false
  | .amoAnd _ _ _ _ _ => false
  | .amoOr _ _ _ _ _ => false
  | .amoXor _ _ _ _ _ => false
  | .amoSwp _ _ _ _ _ => false
  | .amoCas _ _ _ _ _ => false
  | .amoFadd _ _ _ _ _ => false
  | .fence _ => false
  | .barT => false
  | .barG => false
  | .rflush _ _ => false
  | .rinv _ _ => false
  | .waitf _ _ => false
  | .srd _ _ => false
  | .swr _ _ => false
  | .swrImm _ _ => false
  | .rfork _ _ _ => false
  | .join _ => false
  | .mig _ => false
  | .amsg _ _ _ => false
  | .hmsg _ _ => false
  | .task _ _ => false
  | .dec _ _ => false
  | .pair _ _ => false
  | .unpair _ => false
  | .gstat _ => false
  | .halt => false
  | .vadd _ _ _ _ _ => false
  | .vsub _ _ _ _ _ => false
  | .vmul _ _ _ _ _ => false
  | .vmin _ _ _ _ _ => false
  | .vmax _ _ _ _ _ => false
  | .vand _ _ _ _ _ => false
  | .vor _ _ _ _ _ => false
  | .vxor _ _ _ _ _ => false
  | .vshl _ _ _ _ _ => false
  | .vshr _ _ _ _ _ => false
  | .vsar _ _ _ _ _ => false
  | .vmov _ _ _ _ _ => false
  | .vneg _ _ _ _ _ => false
  | .vabs _ _ _ _ _ => false
  | .vrsub _ _ _ _ _ => false
  | .vxchg _ _ _ _ _ => false
  | .vdiv _ _ _ _ _ => false
  | .vsqrt _ _ _ _ _ => false
  | .vmulh _ _ _ _ _ => false
  | .vadds _ _ _ _ _ => false
  | .vsubs _ _ _ _ _ => false
  | .vabd _ _ _ _ _ => false
  | .vnot _ _ _ _ _ => false
  | .vaddLForm _ _ _ => false
  | .vsubLForm _ _ _ => false
  | .vmulLForm _ _ _ => false
  | .vminLForm _ _ _ => false
  | .vmaxLForm _ _ _ => false
  | .vandLForm _ _ _ => false
  | .vorLForm _ _ _ => false
  | .vxorLForm _ _ _ => false
  | .vshlLForm _ _ _ => false
  | .vshrLForm _ _ _ => false
  | .vsarLForm _ _ _ => false
  | .vmovLForm _ _ _ => false
  | .vnegLForm _ _ _ => false
  | .vabsLForm _ _ _ => false
  | .vrsubLForm _ _ _ => false
  | .vxchgLForm _ _ _ => false
  | .vfma _ _ _ _ _ => false
  | .vfms _ _ _ _ _ => false
  | .vfnma _ _ _ _ _ => false
  | .vfnms _ _ _ _ _ => false
  | .vwadd _ _ _ _ _ => false
  | .vwsub _ _ _ _ _ => false
  | .vwmul _ _ _ _ _ => false
  | .vwmac _ _ _ _ _ => false
  | .vqmac _ _ _ _ _ => false
  | .vnshr _ _ _ _ _ => false
  | .vcvt _ _ _ t _ _ => !laneCode t
  | .vcvtw _ _ _ t _ _ => !(laneCode t || smallFloatCode t)
  | .vcvtn _ _ _ t _ _ => !(laneCode t || smallFloatCode t)
  | .vcmpEq _ _ _ _ => false
  | .vcmpNe _ _ _ _ => false
  | .vcmpLt _ _ _ _ => false
  | .vcmpLe _ _ _ _ => false
  | .vcmpGt _ _ _ _ => false
  | .vcmpGe _ _ _ _ => false
  | .vcmpLtn _ _ _ _ => false
  | .vcmpGen _ _ _ _ => false
  | .mand _ _ _ => false
  | .mor _ _ _ => false
  | .mxor _ _ _ => false
  | .mnot _ _ => false
  | .mpop _ _ => false
  | .mfirst _ _ => false
  | .mfill _ _ => false
  | .vsel _ _ _ => false
  | .vrsum _ _ _ _ => false
  | .vrmax _ _ _ _ => false
  | .vrmin _ _ _ _ => false
  | .vrand _ _ _ _ => false
  | .vror _ _ _ _ => false
  | .vrxor _ _ _ _ => false
  | .vperm _ _ _ _ => false
  | .vslup _ _ _ _ => false
  | .vsldn _ _ _ _ => false
  | .vbcast _ _ _ => false
  | .vext _ _ _ _ => false
  | .vins _ _ _ _ => false
  | .vzip _ _ _ _ => false
  | .vunzip _ _ _ _ => false
  | .vcomp _ _ _ => false
  | .qnt _ _ t _ _ => !(planeCode t || smallFloatCode t)
  | .dqnt _ _ t _ _ => !(planeCode t || smallFloatCode t)
  | .vld _ _ _ _ _ => false
  | .vst _ _ _ _ _ => false
  | .vlds _ _ _ _ _ => false
  | .vsts _ _ _ _ _ => false
  | .vldx _ _ _ _ _ => false
  | .vstx _ _ _ _ _ => false
  | .vldf _ _ _ _ _ => false
  | .vstf _ _ _ _ _ => false
  | .vldPost _ _ _ _ => false
  | .vstPost _ _ _ _ => false
  | .vldfPost _ _ _ _ _ => false
  | .vstfPost _ _ _ _ _ => false
  | .sbind _ _ => false
  | .qbind _ _ => false
  | .unbind _ => false
  | .qctl _ _ => false
  | .hset _ _ => false
  | .cpy _ _ _ _ _ => false
  | .cpyG _ _ _ => false
  | .cpyS _ _ _ => false
  | .cwaitAny _ _ => false
  | .cwaitAll _ => false
  | .cfind _ _ => false
  | .evk _ _ => false
  | .kick _ _ _ => false
  | .mwld _ => false
  | .mtile _ _ => false
  | .mdrain _ _ => false
  | .mset _ _ => false
  | .mwait => false
  | .mred _ => false
  | .mresume => false
  | .mlay _ _ => false
  | .mclr _ => false
  | .mstat _ => false
  | .pload _ _ => false
  | .pbind _ _ => false
  | .pbindT _ _ => false
  | .pstat _ _ => false
  | .vreg _ _ => false
  | .vdrop _ => false
  | .vsync _ => false
  | .vstat _ _ _ => false
  | .vpol _ _ _ => false
  | .stRep _ _ _ => false
  | .reconf _ _ => false
  | .cgjoin _ _ => false
  | .cgleave _ => false
  | .coll _ _ _ => false
  | .clogr _ _ _ => false
  | .ctake => false
  | .cstart _ => false
  | .kldi _ _ => false
  | .kaddi _ _ _ => false
  | .kadd _ _ _ => false
  | .ksub _ _ _ => false
  | .kmul _ _ _ => false
  | .kdiv _ _ _ => false
  | .kmod _ _ _ => false
  | .kmin _ _ _ => false
  | .kmax _ _ _ => false
  | .kshr _ _ _ => false
  | .khash _ _ _ => false
  | .kldp _ _ => false
  | .kemit _ _ => false
  | .kblt _ _ _ => false
  | .kloop _ _ => false
  | .kend => false
  | .pairComparison => false
  | .migrationMessageArrival => false
  | .migrationResend => false
  | .arrivalContextGrant => false
  | .activeMessageArrival => false
  | .amsgReply => false
  | .decArrival => false
  | .taskSlotStart => false
  | .meshPortWordArrival => false
  | .queueElementArrival => false
  | .streamElementFetch => false
  | .streamElementWrite => false
  | .copyCompletion => false
  | .copyStop => false
  | .hartRestart => false
  | .matrixCommandTake => false
  | .matrixCommandComplete => false
  | .matrixResumableStop => false
  | .preemption => false
  | .preemptionSaveComplete => false
  | .restore => false
  | .retryResend => false
  | .heldStrandRelease => false
  | .heldStrandEnd => false
  | .l1Fill => false
  | .ownershipGrant => false
  | .forwardedRead => false
  | .forwardedOwnership => false
  | .recallRange => false
  | .recordDeletion => false
  | .l1UncorrectableError => false
  | .directoryError => false
  | .recallTimeout => false
  | .translationWalk => false
  | .leaseExpiry => false
  | .patrolScrub => false
  | .announcementWindowClose => false
  | .announcementDelivery => false
  | .phaseStep => false
  | .impressionPass => false
  | .blockRecomputation => false
  | .bar2Write => false
  | .bar2Read => false
  | .hostWindowRequest => false
  | .backInvalidation => false
  | .launchRingEntry => false
  | .eventRingWrite => false
  | .winbaseWrite => false
  | .eqbaseWrite => false
  | .eqsizeWrite => false
  | .eqheadWrite => false
  | .lqbaseWrite => false
  | .lqsizeWrite => false
  | .lqtailWrite => false
  | .lqtenWrite => false
  | .attnWrite => false
  | .managementRegisterWrite => false
  | .bindRecordCommit => false
  | .bindRecordEmpty => false
  | .boundsRecordWrite => false
  | .startUp => false
  | .flitReceive => false
  | .frameReceive => false
  | .acknowledgement => false
  | .acknowledgementDue => false
  | .replayRequest => false
  | .replayTimeout => false
  | .restripe => false
  | .hello => false
  | .quiesce => false
  | .wavelengthThreshold => false
  | .wavelengthTrained => false
  | .lossOfLight => false
  | .lightReturn => false
  | .keyLoad => false
  | .downListWrite => false
  | .remoteRequest => false
  | .remoteResponse => false
  | .copyWritePacket => false
  | .copyWriteResponse => false
  | .reconfDrainComplete => false
  | .switchStatus => false
  | .switchStatusTimeout => false
  | .reconfTrainingComplete => false
  | .reconfTimeout => false
  | .groupActive => false
  | .joinTimeout => false
  | .collectiveContribution => false
  | .memberTimeout => false
  | .collectiveCompletion => false
  | .uncorrectableCoreError => false
  | .hbmUncorrectableError => false
  | .cxlCacheResponse => false
  | .fibrePinWrite => false
  | .wavelengthThresholdWrite => false

/-- The instruction is the meaning of some word. -/
def WellFormed (i : Instr) : Bool := fieldsOk i && !typeCodeBad i

end Sys2Proof
end

