-- ==== Sys2Proof/Decode.lean ====
section
/-! DEFINITION. The decoder and the encoder (R40, R43, R55 to R60, R272): one word, one instruction or a
rejection by name. -/

namespace Sys2Proof

/-- Why a word is no instruction (R58, R60). -/
inductive Reject where
  /-- A reserved opcode, function code, field or register value: DETAIL 0x00. -/
  | illegal
  /-- A type code that the instruction does not admit: DETAIL 0x20. -/
  | typeCode
  /-- The bytes end before the word does. -/
  | truncated
  deriving DecidableEq, Repr

/-- Bits [lo + n − 1 : lo] of a word, as a number. -/
def fld (w lo n : Nat) : Nat := w / 2 ^ lo % 2 ^ n

/-- The same bits as a field. -/
def bv (w lo n : Nat) : BitVec n := BitVec.ofNat n (fld w lo n)


/-- Words of low byte 0x03 (R55, R56). -/
def raw03 (w : Nat) : Option Instr :=
  if fld w 25 7 = 0 then some (.addR (bv w 23 2) (bv w 18 5) (bv w 13 5) (bv w 8 5)) else
  if fld w 25 7 = 4 then some (.subR (bv w 23 2) (bv w 18 5) (bv w 13 5) (bv w 8 5)) else
  if fld w 23 9 = 32 then some (.andR (bv w 18 5) (bv w 13 5) (bv w 8 5)) else
  if fld w 23 9 = 48 then some (.orR (bv w 18 5) (bv w 13 5) (bv w 8 5)) else
  if fld w 23 9 = 64 then some (.xorR (bv w 18 5) (bv w 13 5) (bv w 8 5)) else
  if fld w 25 7 = 20 then some (.shl (bv w 23 2) (bv w 18 5) (bv w 13 5) (bv w 8 5)) else
  if fld w 25 7 = 24 then some (.shr (bv w 23 2) (bv w 18 5) (bv w 13 5) (bv w 8 5)) else
  if fld w 25 7 = 28 then some (.sar (bv w 23 2) (bv w 18 5) (bv w 13 5) (bv w 8 5)) else
  if fld w 25 7 = 32 then some (.min (bv w 23 2) (bv w 18 5) (bv w 13 5) (bv w 8 5)) else
  if fld w 25 7 = 36 then some (.max (bv w 23 2) (bv w 18 5) (bv w 13 5) (bv w 8 5)) else
  if fld w 25 7 = 40 then some (.minn (bv w 23 2) (bv w 18 5) (bv w 13 5) (bv w 8 5)) else
  if fld w 25 7 = 44 then some (.maxn (bv w 23 2) (bv w 18 5) (bv w 13 5) (bv w 8 5)) else
  if fld w 27 5 = 12 then some (.cmp (bv w 23 4) (bv w 18 5) (bv w 13 5) (bv w 8 5)) else
  if fld w 23 9 = 208 then some (.sel (bv w 18 5) (bv w 13 5) (bv w 8 5)) else
  if fld w 18 14 = 7168 then some (.clz (bv w 13 5) (bv w 8 5)) else
  if fld w 18 14 = 7680 then some (.ctz (bv w 13 5) (bv w 8 5)) else
  if fld w 18 14 = 8192 then some (.popc (bv w 13 5) (bv w 8 5)) else
  if fld w 23 9 = 272 then some (.mul (bv w 18 5) (bv w 13 5) (bv w 8 5)) else
  if fld w 23 9 = 288 then some (.mulh (bv w 18 5) (bv w 13 5) (bv w 8 5)) else
  if fld w 23 9 = 304 then some (.mulhn (bv w 18 5) (bv w 13 5) (bv w 8 5)) else
  none

/-- Words of low byte 0x05 (R55, R56). -/
def raw05 (w : Nat) : Option Instr :=
  some (.addImm (bv w 18 14) (bv w 13 5) (bv w 8 5))

/-- Words of low byte 0x07 (R55, R56). -/
def raw07 (w : Nat) : Option Instr :=
  some (.andImm (bv w 18 14) (bv w 13 5) (bv w 8 5))

/-- Words of low byte 0x09 (R55, R56). -/
def raw09 (w : Nat) : Option Instr :=
  some (.orImm (bv w 18 14) (bv w 13 5) (bv w 8 5))

/-- Words of low byte 0x0B (R55, R56). -/
def raw0B (w : Nat) : Option Instr :=
  some (.xorImm (bv w 18 14) (bv w 13 5) (bv w 8 5))

/-- Words of low byte 0x0D (R55, R56). -/
def raw0D (w : Nat) : Option Instr :=
  if fld w 26 2 = 0 ∧ fld w 30 2 = 0 then some (.shlImm (bv w 28 2) (bv w 18 8) (bv w 13 5) (bv w 8 5)) else
  if fld w 26 2 = 0 ∧ fld w 30 2 = 1 then some (.shrImm (bv w 28 2) (bv w 18 8) (bv w 13 5) (bv w 8 5)) else
  if fld w 26 2 = 0 ∧ fld w 30 2 = 2 then some (.sarImm (bv w 28 2) (bv w 18 8) (bv w 13 5) (bv w 8 5)) else
  none

/-- Words of low byte 0x11 (R55, R56). -/
def raw11 (w : Nat) : Option Instr :=
  some (.movi (bv w 13 19) (bv w 8 5))

/-- Words of low byte 0x13 (R55, R56). -/
def raw13 (w : Nat) : Option Instr :=
  some (.movh (bv w 13 19) (bv w 8 5))

/-- Words of low byte 0x15 (R55, R56). -/
def raw15 (w : Nat) : Option Instr :=
  if fld w 27 5 = 0 then some (.div (bv w 23 4) (bv w 18 5) (bv w 13 5) (bv w 8 5)) else
  if fld w 27 5 = 1 then some (.divn (bv w 23 4) (bv w 18 5) (bv w 13 5) (bv w 8 5)) else
  if fld w 27 5 = 2 then some (.rem (bv w 23 4) (bv w 18 5) (bv w 13 5) (bv w 8 5)) else
  if fld w 27 5 = 3 then some (.remn (bv w 23 4) (bv w 18 5) (bv w 13 5) (bv w 8 5)) else
  none

/-- Words of low byte 0x17 (R55, R56). -/
def raw17 (w : Nat) : Option Instr :=
  if fld w 23 9 = 0 then some (.amesh (bv w 18 5) (bv w 13 5) (bv w 8 5)) else
  if fld w 23 9 = 16 then some (.apost (bv w 18 5) (bv w 13 5) (bv w 8 5)) else
  none

/-- Words of low byte 0x19 (R55, R56). -/
def raw19 (w : Nat) : Option Instr :=
  if fld w 8 5 = 0 ∧ fld w 23 2 = 0 then some (.awalk (bv w 25 7) (bv w 18 5) (bv w 13 5)) else
  none

/-- Words of low byte 0x21 (R55, R56). -/
def raw21 (w : Nat) : Option Instr :=
  some (.beq (bv w 18 14) (bv w 13 5) (bv w 8 5))

/-- Words of low byte 0x23 (R55, R56). -/
def raw23 (w : Nat) : Option Instr :=
  some (.bne (bv w 18 14) (bv w 13 5) (bv w 8 5))

/-- Words of low byte 0x25 (R55, R56). -/
def raw25 (w : Nat) : Option Instr :=
  some (.blt (bv w 18 14) (bv w 13 5) (bv w 8 5))

/-- Words of low byte 0x27 (R55, R56). -/
def raw27 (w : Nat) : Option Instr :=
  some (.bge (bv w 18 14) (bv w 13 5) (bv w 8 5))

/-- Words of low byte 0x29 (R55, R56). -/
def raw29 (w : Nat) : Option Instr :=
  some (.bltn (bv w 18 14) (bv w 13 5) (bv w 8 5))

/-- Words of low byte 0x2B (R55, R56). -/
def raw2B (w : Nat) : Option Instr :=
  some (.bgen (bv w 18 14) (bv w 13 5) (bv w 8 5))

/-- Words of low byte 0x2D (R55, R56). -/
def raw2D (w : Nat) : Option Instr :=
  if fld w 13 5 = 0 then some (.rep (bv w 18 14) (bv w 8 5)) else
  none

/-- Words of low byte 0x31 (R55, R56). -/
def raw31 (w : Nat) : Option Instr :=
  some (.jmp (bv w 13 19) (bv w 8 5))

/-- Words of low byte 0x33 (R55, R56). -/
def raw33 (w : Nat) : Option Instr :=
  if fld w 8 5 = 0 then some (.call (bv w 13 19)) else
  none

/-- Words of low byte 0x35 (R55, R56). -/
def raw35 (w : Nat) : Option Instr :=
  if fld w 18 14 = 0 then some (.jr (bv w 13 5) (bv w 8 5)) else
  if fld w 8 5 = 0 ∧ fld w 18 14 = 512 then some (.callr (bv w 13 5)) else
  if fld w 8 24 = 1048576 then some (.ret) else
  if fld w 8 24 = 1572864 then some (.eret) else
  if fld w 8 24 = 2097152 then some (.yield) else
  if fld w 8 24 = 2621440 then some (.exit) else
  none

/-- Words of low byte 0x37 (R55, R56). -/
def raw37 (w : Nat) : Option Instr :=
  if fld w 8 10 = 0 ∧ fld w 30 2 = 0 then some (.trap (bv w 18 12)) else
  none

/-- Words of low byte 0x41 (R55, R56). -/
def raw41 (w : Nat) : Option Instr :=
  some (.ldB (bv w 18 14) (bv w 13 5) (bv w 8 5))

/-- Words of low byte 0x43 (R55, R56). -/
def raw43 (w : Nat) : Option Instr :=
  some (.ldH (bv w 18 14) (bv w 13 5) (bv w 8 5))

/-- Words of low byte 0x45 (R55, R56). -/
def raw45 (w : Nat) : Option Instr :=
  some (.ldW (bv w 18 14) (bv w 13 5) (bv w 8 5))

/-- Words of low byte 0x47 (R55, R56). -/
def raw47 (w : Nat) : Option Instr :=
  some (.ldD (bv w 18 14) (bv w 13 5) (bv w 8 5))

/-- Words of low byte 0x49 (R55, R56). -/
def raw49 (w : Nat) : Option Instr :=
  some (.ldnB (bv w 18 14) (bv w 13 5) (bv w 8 5))

/-- Words of low byte 0x4B (R55, R56). -/
def raw4B (w : Nat) : Option Instr :=
  some (.ldnH (bv w 18 14) (bv w 13 5) (bv w 8 5))

/-- Words of low byte 0x4D (R55, R56). -/
def raw4D (w : Nat) : Option Instr :=
  some (.ldnW (bv w 18 14) (bv w 13 5) (bv w 8 5))

/-- Words of low byte 0x51 (R55, R56). -/
def raw51 (w : Nat) : Option Instr :=
  some (.stB (bv w 18 14) (bv w 13 5) (bv w 8 5))

/-- Words of low byte 0x53 (R55, R56). -/
def raw53 (w : Nat) : Option Instr :=
  some (.stH (bv w 18 14) (bv w 13 5) (bv w 8 5))

/-- Words of low byte 0x55 (R55, R56). -/
def raw55 (w : Nat) : Option Instr :=
  some (.stW (bv w 18 14) (bv w 13 5) (bv w 8 5))

/-- Words of low byte 0x57 (R55, R56). -/
def raw57 (w : Nat) : Option Instr :=
  some (.stD (bv w 18 14) (bv w 13 5) (bv w 8 5))

/-- Words of low byte 0x59 (R55, R56). -/
def raw59 (w : Nat) : Option Instr :=
  if fld w 31 1 = 0 then some (.ldstrLoad (bv w 30 1) (bv w 27 3) (bv w 23 4) (bv w 18 5) (bv w 13 5) (bv w 8 5)) else
  if fld w 29 1 = 0 ∧ fld w 31 1 = 1 then some (.ldstrStore (bv w 30 1) (bv w 27 2) (bv w 23 4) (bv w 18 5) (bv w 13 5) (bv w 8 5)) else
  none

/-- Words of low byte 0x5B (R55, R56). -/
def raw5B (w : Nat) : Option Instr :=
  if fld w 26 6 = 0 then some (.ldAcqW (bv w 23 3) (bv w 18 5) (bv w 13 5) (bv w 8 5)) else
  if fld w 26 6 = 2 then some (.ldAcqD (bv w 23 3) (bv w 18 5) (bv w 13 5) (bv w 8 5)) else
  if fld w 26 6 = 4 then some (.stRelW (bv w 23 3) (bv w 18 5) (bv w 13 5) (bv w 8 5)) else
  if fld w 26 6 = 6 then some (.stRelD (bv w 23 3) (bv w 18 5) (bv w 13 5) (bv w 8 5)) else
  if fld w 23 9 = 64 then some (.ldSc (bv w 18 5) (bv w 13 5) (bv w 8 5)) else
  if fld w 23 9 = 80 then some (.stSc (bv w 18 5) (bv w 13 5) (bv w 8 5)) else
  if fld w 23 9 = 96 then some (.ldroW (bv w 18 5) (bv w 13 5) (bv w 8 5)) else
  if fld w 23 9 = 112 then some (.ldroD (bv w 18 5) (bv w 13 5) (bv w 8 5)) else
  if fld w 23 9 = 128 then some (.ldf (bv w 18 5) (bv w 13 5) (bv w 8 5)) else
  if fld w 8 5 = 0 ∧ fld w 23 9 = 144 then some (.pre (bv w 18 5) (bv w 13 5)) else
  if fld w 23 9 = 160 then some (.bmov (bv w 18 5) (bv w 13 5) (bv w 8 5)) else
  none

/-- Words of low byte 0x5D (R55, R56). -/
def raw5D (w : Nat) : Option Instr :=
  if fld w 27 5 = 0 then some (.amoAdd (bv w 26 1) (bv w 23 3) (bv w 18 5) (bv w 13 5) (bv w 8 5)) else
  if fld w 27 5 = 1 then some (.amoMin (bv w 26 1) (bv w 23 3) (bv w 18 5) (bv w 13 5) (bv w 8 5)) else
  if fld w 27 5 = 2 then some (.amoMax (bv w 26 1) (bv w 23 3) (bv w 18 5) (bv w 13 5) (bv w 8 5)) else
  if fld w 27 5 = 3 then some (.amoMinn (bv w 26 1) (bv w 23 3) (bv w 18 5) (bv w 13 5) (bv w 8 5)) else
  if fld w 27 5 = 4 then some (.amoMaxn (bv w 26 1) (bv w 23 3) (bv w 18 5) (bv w 13 5) (bv w 8 5)) else
  if fld w 27 5 = 5 then some (.amoAnd (bv w 26 1) (bv w 23 3) (bv w 18 5) (bv w 13 5) (bv w 8 5)) else
  if fld w 27 5 = 6 then some (.amoOr (bv w 26 1) (bv w 23 3) (bv w 18 5) (bv w 13 5) (bv w 8 5)) else
  if fld w 27 5 = 7 then some (.amoXor (bv w 26 1) (bv w 23 3) (bv w 18 5) (bv w 13 5) (bv w 8 5)) else
  if fld w 27 5 = 8 then some (.amoSwp (bv w 26 1) (bv w 23 3) (bv w 18 5) (bv w 13 5) (bv w 8 5)) else
  if fld w 27 5 = 9 then some (.amoCas (bv w 26 1) (bv w 23 3) (bv w 18 5) (bv w 13 5) (bv w 8 5)) else
  if fld w 27 5 = 10 then some (.amoFadd (bv w 26 1) (bv w 23 3) (bv w 18 5) (bv w 13 5) (bv w 8 5)) else
  none

/-- Words of low byte 0x5F (R55, R56). -/
def raw5F (w : Nat) : Option Instr :=
  if fld w 8 15 = 0 ∧ fld w 26 6 = 0 then some (.fence (bv w 23 3)) else
  if fld w 8 24 = 524288 then some (.barT) else
  if fld w 8 24 = 1048576 then some (.barG) else
  if fld w 8 5 = 0 ∧ fld w 23 9 = 48 then some (.rflush (bv w 18 5) (bv w 13 5)) else
  if fld w 8 5 = 0 ∧ fld w 23 9 = 64 then some (.rinv (bv w 18 5) (bv w 13 5)) else
  if fld w 8 5 = 0 ∧ fld w 23 9 = 80 then some (.waitf (bv w 18 5) (bv w 13 5)) else
  none

/-- Words of low byte 0x61 (R55, R56). -/
def raw61 (w : Nat) : Option Instr :=
  if fld w 13 5 = 0 ∧ fld w 23 9 = 0 then some (.srd (bv w 18 5) (bv w 8 5)) else
  if fld w 8 5 = 0 ∧ fld w 23 9 = 16 then some (.swr (bv w 18 5) (bv w 13 5)) else
  none

/-- Words of low byte 0x63 (R55, R56). -/
def raw63 (w : Nat) : Option Instr :=
  if fld w 13 5 = 0 then some (.swrImm (bv w 18 14) (bv w 8 5)) else
  none

/-- Words of low byte 0x65 (R55, R56). -/
def raw65 (w : Nat) : Option Instr :=
  if fld w 23 9 = 0 then some (.rfork (bv w 18 5) (bv w 13 5) (bv w 8 5)) else
  if fld w 8 5 = 0 ∧ fld w 18 14 = 512 then some (.join (bv w 13 5)) else
  if fld w 8 5 = 0 ∧ fld w 18 14 = 1024 then some (.mig (bv w 13 5)) else
  if fld w 23 9 = 48 then some (.amsg (bv w 18 5) (bv w 13 5) (bv w 8 5)) else
  if fld w 8 5 = 0 ∧ fld w 23 9 = 64 then some (.hmsg (bv w 18 5) (bv w 13 5)) else
  if fld w 18 14 = 2560 then some (.task (bv w 13 5) (bv w 8 5)) else
  if fld w 8 5 = 0 ∧ fld w 23 9 = 96 then some (.dec (bv w 18 5) (bv w 13 5)) else
  none

/-- Words of low byte 0x67 (R55, R56). -/
def raw67 (w : Nat) : Option Instr :=
  if fld w 18 14 = 0 then some (.pair (bv w 13 5) (bv w 8 5)) else
  if fld w 13 19 = 16384 then some (.unpair (bv w 8 5)) else
  if fld w 8 5 = 0 ∧ fld w 18 14 = 1024 then some (.gstat (bv w 13 5)) else
  if fld w 8 24 = 1572864 then some (.halt) else
  none

/-- Words of low byte 0x71 (R55, R56). -/
def raw71 (w : Nat) : Option Instr :=
  if fld w 25 1 = 0 ∧ fld w 27 5 = 0 then some (.vadd (bv w 26 1) (bv w 23 2) (bv w 18 5) (bv w 13 5) (bv w 8 5)) else
  if fld w 25 1 = 0 ∧ fld w 27 5 = 1 then some (.vsub (bv w 26 1) (bv w 23 2) (bv w 18 5) (bv w 13 5) (bv w 8 5)) else
  if fld w 25 1 = 0 ∧ fld w 27 5 = 2 then some (.vmul (bv w 26 1) (bv w 23 2) (bv w 18 5) (bv w 13 5) (bv w 8 5)) else
  if fld w 25 1 = 0 ∧ fld w 27 5 = 3 then some (.vmin (bv w 26 1) (bv w 23 2) (bv w 18 5) (bv w 13 5) (bv w 8 5)) else
  if fld w 25 1 = 0 ∧ fld w 27 5 = 4 then some (.vmax (bv w 26 1) (bv w 23 2) (bv w 18 5) (bv w 13 5) (bv w 8 5)) else
  if fld w 25 1 = 0 ∧ fld w 27 5 = 5 then some (.vand (bv w 26 1) (bv w 23 2) (bv w 18 5) (bv w 13 5) (bv w 8 5)) else
  if fld w 25 1 = 0 ∧ fld w 27 5 = 6 then some (.vor (bv w 26 1) (bv w 23 2) (bv w 18 5) (bv w 13 5) (bv w 8 5)) else
  if fld w 25 1 = 0 ∧ fld w 27 5 = 7 then some (.vxor (bv w 26 1) (bv w 23 2) (bv w 18 5) (bv w 13 5) (bv w 8 5)) else
  if fld w 25 1 = 0 ∧ fld w 27 5 = 8 then some (.vshl (bv w 26 1) (bv w 23 2) (bv w 18 5) (bv w 13 5) (bv w 8 5)) else
  if fld w 25 1 = 0 ∧ fld w 27 5 = 9 then some (.vshr (bv w 26 1) (bv w 23 2) (bv w 18 5) (bv w 13 5) (bv w 8 5)) else
  if fld w 25 1 = 0 ∧ fld w 27 5 = 10 then some (.vsar (bv w 26 1) (bv w 23 2) (bv w 18 5) (bv w 13 5) (bv w 8 5)) else
  if fld w 25 1 = 0 ∧ fld w 27 5 = 11 then some (.vmov (bv w 26 1) (bv w 23 2) (bv w 18 5) (bv w 13 5) (bv w 8 5)) else
  if fld w 25 1 = 0 ∧ fld w 27 5 = 12 then some (.vneg (bv w 26 1) (bv w 23 2) (bv w 18 5) (bv w 13 5) (bv w 8 5)) else
  if fld w 25 1 = 0 ∧ fld w 27 5 = 13 then some (.vabs (bv w 26 1) (bv w 23 2) (bv w 18 5) (bv w 13 5) (bv w 8 5)) else
  if fld w 25 1 = 0 ∧ fld w 27 5 = 14 then some (.vrsub (bv w 26 1) (bv w 23 2) (bv w 18 5) (bv w 13 5) (bv w 8 5)) else
  if fld w 25 1 = 0 ∧ fld w 27 5 = 15 then some (.vxchg (bv w 26 1) (bv w 23 2) (bv w 18 5) (bv w 13 5) (bv w 8 5)) else
  if fld w 25 1 = 0 ∧ fld w 27 5 = 16 then some (.vdiv (bv w 26 1) (bv w 23 2) (bv w 18 5) (bv w 13 5) (bv w 8 5)) else
  if fld w 25 1 = 0 ∧ fld w 27 5 = 17 then some (.vsqrt (bv w 26 1) (bv w 23 2) (bv w 18 5) (bv w 13 5) (bv w 8 5)) else
  if fld w 25 1 = 0 ∧ fld w 27 5 = 18 then some (.vmulh (bv w 26 1) (bv w 23 2) (bv w 18 5) (bv w 13 5) (bv w 8 5)) else
  if fld w 25 1 = 0 ∧ fld w 27 5 = 19 then some (.vadds (bv w 26 1) (bv w 23 2) (bv w 18 5) (bv w 13 5) (bv w 8 5)) else
  if fld w 25 1 = 0 ∧ fld w 27 5 = 20 then some (.vsubs (bv w 26 1) (bv w 23 2) (bv w 18 5) (bv w 13 5) (bv w 8 5)) else
  if fld w 25 1 = 0 ∧ fld w 27 5 = 21 then some (.vabd (bv w 26 1) (bv w 23 2) (bv w 18 5) (bv w 13 5) (bv w 8 5)) else
  if fld w 25 1 = 0 ∧ fld w 27 5 = 22 then some (.vnot (bv w 26 1) (bv w 23 2) (bv w 18 5) (bv w 13 5) (bv w 8 5)) else
  none

/-- Words of low byte 0x73 (R55, R56). -/
def raw73 (w : Nat) : Option Instr :=
  if fld w 25 1 = 0 ∧ fld w 27 5 = 0 then some (.vfma (bv w 26 1) (bv w 23 2) (bv w 18 5) (bv w 13 5) (bv w 8 5)) else
  if fld w 25 1 = 0 ∧ fld w 27 5 = 1 then some (.vfms (bv w 26 1) (bv w 23 2) (bv w 18 5) (bv w 13 5) (bv w 8 5)) else
  if fld w 25 1 = 0 ∧ fld w 27 5 = 2 then some (.vfnma (bv w 26 1) (bv w 23 2) (bv w 18 5) (bv w 13 5) (bv w 8 5)) else
  if fld w 25 1 = 0 ∧ fld w 27 5 = 3 then some (.vfnms (bv w 26 1) (bv w 23 2) (bv w 18 5) (bv w 13 5) (bv w 8 5)) else
  none

/-- Words of low byte 0x75 (R55, R56). -/
def raw75 (w : Nat) : Option Instr :=
  if fld w 25 1 = 0 ∧ fld w 27 5 = 0 then some (.vwadd (bv w 26 1) (bv w 23 2) (bv w 18 5) (bv w 13 5) (bv w 8 5)) else
  if fld w 25 1 = 0 ∧ fld w 27 5 = 1 then some (.vwsub (bv w 26 1) (bv w 23 2) (bv w 18 5) (bv w 13 5) (bv w 8 5)) else
  if fld w 25 1 = 0 ∧ fld w 27 5 = 2 then some (.vwmul (bv w 26 1) (bv w 23 2) (bv w 18 5) (bv w 13 5) (bv w 8 5)) else
  if fld w 25 1 = 0 ∧ fld w 27 5 = 3 then some (.vwmac (bv w 26 1) (bv w 23 2) (bv w 18 5) (bv w 13 5) (bv w 8 5)) else
  if fld w 25 1 = 0 ∧ fld w 27 5 = 4 then some (.vqmac (bv w 26 1) (bv w 23 2) (bv w 18 5) (bv w 13 5) (bv w 8 5)) else
  if fld w 25 1 = 0 ∧ fld w 27 5 = 5 then some (.vnshr (bv w 26 1) (bv w 23 2) (bv w 18 5) (bv w 13 5) (bv w 8 5)) else
  none

/-- Words of low byte 0x77 (R55, R56). -/
def raw77 (w : Nat) : Option Instr :=
  if fld w 27 5 = 0 then some (.vcvt (bv w 26 1) (bv w 25 1) (bv w 23 2) (bv w 18 5) (bv w 13 5) (bv w 8 5)) else
  if fld w 27 5 = 1 then some (.vcvtw (bv w 26 1) (bv w 25 1) (bv w 23 2) (bv w 18 5) (bv w 13 5) (bv w 8 5)) else
  if fld w 27 5 = 2 then some (.vcvtn (bv w 26 1) (bv w 25 1) (bv w 23 2) (bv w 18 5) (bv w 13 5) (bv w 8 5)) else
  none

/-- Words of low byte 0x79 (R55, R56). -/
def raw79 (w : Nat) : Option Instr :=
  if fld w 23 3 = 0 ∧ fld w 27 5 = 0 then some (.vcmpEq (bv w 26 1) (bv w 18 5) (bv w 13 5) (bv w 8 5)) else
  if fld w 23 3 = 0 ∧ fld w 27 5 = 1 then some (.vcmpNe (bv w 26 1) (bv w 18 5) (bv w 13 5) (bv w 8 5)) else
  if fld w 23 3 = 0 ∧ fld w 27 5 = 2 then some (.vcmpLt (bv w 26 1) (bv w 18 5) (bv w 13 5) (bv w 8 5)) else
  if fld w 23 3 = 0 ∧ fld w 27 5 = 3 then some (.vcmpLe (bv w 26 1) (bv w 18 5) (bv w 13 5) (bv w 8 5)) else
  if fld w 23 3 = 0 ∧ fld w 27 5 = 4 then some (.vcmpGt (bv w 26 1) (bv w 18 5) (bv w 13 5) (bv w 8 5)) else
  if fld w 23 3 = 0 ∧ fld w 27 5 = 5 then some (.vcmpGe (bv w 26 1) (bv w 18 5) (bv w 13 5) (bv w 8 5)) else
  if fld w 23 3 = 0 ∧ fld w 27 5 = 6 then some (.vcmpLtn (bv w 26 1) (bv w 18 5) (bv w 13 5) (bv w 8 5)) else
  if fld w 23 3 = 0 ∧ fld w 27 5 = 7 then some (.vcmpGen (bv w 26 1) (bv w 18 5) (bv w 13 5) (bv w 8 5)) else
  none

/-- Words of low byte 0x7B (R55, R56). -/
def raw7B (w : Nat) : Option Instr :=
  if fld w 23 9 = 0 then some (.mand (bv w 18 5) (bv w 13 5) (bv w 8 5)) else
  if fld w 23 9 = 16 then some (.mor (bv w 18 5) (bv w 13 5) (bv w 8 5)) else
  if fld w 23 9 = 32 then some (.mxor (bv w 18 5) (bv w 13 5) (bv w 8 5)) else
  if fld w 18 14 = 1536 then some (.mnot (bv w 13 5) (bv w 8 5)) else
  if fld w 18 14 = 2048 then some (.mpop (bv w 13 5) (bv w 8 5)) else
  if fld w 18 14 = 2560 then some (.mfirst (bv w 13 5) (bv w 8 5)) else
  if fld w 18 14 = 3072 then some (.mfill (bv w 13 5) (bv w 8 5)) else
  if fld w 23 9 = 112 then some (.vsel (bv w 18 5) (bv w 13 5) (bv w 8 5)) else
  none

/-- Words of low byte 0x7D (R55, R56). -/
def raw7D (w : Nat) : Option Instr :=
  if fld w 18 5 = 0 ∧ fld w 25 1 = 0 ∧ fld w 27 5 = 0 then some (.vrsum (bv w 26 1) (bv w 23 2) (bv w 13 5) (bv w 8 5)) else
  if fld w 18 5 = 0 ∧ fld w 25 1 = 0 ∧ fld w 27 5 = 1 then some (.vrmax (bv w 26 1) (bv w 23 2) (bv w 13 5) (bv w 8 5)) else
  if fld w 18 5 = 0 ∧ fld w 25 1 = 0 ∧ fld w 27 5 = 2 then some (.vrmin (bv w 26 1) (bv w 23 2) (bv w 13 5) (bv w 8 5)) else
  if fld w 18 5 = 0 ∧ fld w 25 1 = 0 ∧ fld w 27 5 = 3 then some (.vrand (bv w 26 1) (bv w 23 2) (bv w 13 5) (bv w 8 5)) else
  if fld w 18 5 = 0 ∧ fld w 25 1 = 0 ∧ fld w 27 5 = 4 then some (.vror (bv w 26 1) (bv w 23 2) (bv w 13 5) (bv w 8 5)) else
  if fld w 18 5 = 0 ∧ fld w 25 1 = 0 ∧ fld w 27 5 = 5 then some (.vrxor (bv w 26 1) (bv w 23 2) (bv w 13 5) (bv w 8 5)) else
  none

/-- Words of low byte 0x7F (R55, R56). -/
def raw7F (w : Nat) : Option Instr :=
  if fld w 23 3 = 0 ∧ fld w 27 5 = 0 then some (.vperm (bv w 26 1) (bv w 18 5) (bv w 13 5) (bv w 8 5)) else
  if fld w 23 3 = 0 ∧ fld w 27 5 = 1 then some (.vslup (bv w 26 1) (bv w 18 5) (bv w 13 5) (bv w 8 5)) else
  if fld w 23 3 = 0 ∧ fld w 27 5 = 2 then some (.vsldn (bv w 26 1) (bv w 18 5) (bv w 13 5) (bv w 8 5)) else
  if fld w 18 8 = 0 ∧ fld w 27 5 = 3 then some (.vbcast (bv w 26 1) (bv w 13 5) (bv w 8 5)) else
  if fld w 23 3 = 0 ∧ fld w 27 5 = 4 then some (.vext (bv w 26 1) (bv w 18 5) (bv w 13 5) (bv w 8 5)) else
  if fld w 23 3 = 0 ∧ fld w 27 5 = 5 then some (.vins (bv w 26 1) (bv w 18 5) (bv w 13 5) (bv w 8 5)) else
  if fld w 23 3 = 0 ∧ fld w 27 5 = 6 then some (.vzip (bv w 26 1) (bv w 18 5) (bv w 13 5) (bv w 8 5)) else
  if fld w 23 3 = 0 ∧ fld w 27 5 = 7 then some (.vunzip (bv w 26 1) (bv w 18 5) (bv w 13 5) (bv w 8 5)) else
  if fld w 18 8 = 0 ∧ fld w 27 5 = 8 then some (.vcomp (bv w 26 1) (bv w 13 5) (bv w 8 5)) else
  none

/-- Words of low byte 0x81 (R55, R56). -/
def raw81 (w : Nat) : Option Instr :=
  if fld w 29 3 = 0 then some (.qnt (bv w 27 2) (bv w 23 4) (bv w 18 5) (bv w 13 5) (bv w 8 5)) else
  if fld w 29 3 = 1 then some (.dqnt (bv w 27 2) (bv w 23 4) (bv w 18 5) (bv w 13 5) (bv w 8 5)) else
  none

/-- Words of low byte 0x83 (R55, R56). -/
def raw83 (w : Nat) : Option Instr :=
  if fld w 27 4 = 0 then some (.vld (bv w 31 1) (bv w 23 4) (bv w 18 5) (bv w 13 5) (bv w 8 5)) else
  if fld w 27 4 = 1 then some (.vst (bv w 31 1) (bv w 23 4) (bv w 18 5) (bv w 13 5) (bv w 8 5)) else
  if fld w 27 4 = 2 then some (.vlds (bv w 31 1) (bv w 23 4) (bv w 18 5) (bv w 13 5) (bv w 8 5)) else
  if fld w 27 4 = 3 then some (.vsts (bv w 31 1) (bv w 23 4) (bv w 18 5) (bv w 13 5) (bv w 8 5)) else
  if fld w 27 4 = 4 then some (.vldx (bv w 31 1) (bv w 23 4) (bv w 18 5) (bv w 13 5) (bv w 8 5)) else
  if fld w 27 4 = 5 then some (.vstx (bv w 31 1) (bv w 23 4) (bv w 18 5) (bv w 13 5) (bv w 8 5)) else
  if fld w 27 4 = 6 then some (.vldf (bv w 31 1) (bv w 23 4) (bv w 18 5) (bv w 13 5) (bv w 8 5)) else
  if fld w 27 4 = 7 then some (.vstf (bv w 31 1) (bv w 23 4) (bv w 18 5) (bv w 13 5) (bv w 8 5)) else
  if fld w 18 5 = 28 ∧ fld w 27 4 = 8 then some (.vldPost (bv w 31 1) (bv w 23 4) (bv w 13 5) (bv w 8 5)) else
  if fld w 18 5 = 28 ∧ fld w 27 4 = 9 then some (.vstPost (bv w 31 1) (bv w 23 4) (bv w 13 5) (bv w 8 5)) else
  if fld w 27 4 = 14 then some (.vldfPost (bv w 31 1) (bv w 23 4) (bv w 18 5) (bv w 13 5) (bv w 8 5)) else
  if fld w 27 4 = 15 then some (.vstfPost (bv w 31 1) (bv w 23 4) (bv w 18 5) (bv w 13 5) (bv w 8 5)) else
  none

/-- Words of low byte 0x85 (R55, R56). -/
def raw85 (w : Nat) : Option Instr :=
  if fld w 18 14 = 0 then some (.sbind (bv w 13 5) (bv w 8 5)) else
  if fld w 13 5 = 0 ∧ fld w 23 9 = 16 then some (.qbind (bv w 18 5) (bv w 8 5)) else
  if fld w 13 19 = 32768 then some (.unbind (bv w 8 5)) else
  if fld w 18 14 = 1536 then some (.qctl (bv w 13 5) (bv w 8 5)) else
  if fld w 18 14 = 2048 then some (.hset (bv w 13 5) (bv w 8 5)) else
  none

/-- Words of low byte 0x91 (R55, R56). -/
def raw91 (w : Nat) : Option Instr :=
  if fld w 29 3 = 0 then some (.cpy (bv w 27 2) (bv w 23 4) (bv w 18 5) (bv w 13 5) (bv w 8 5)) else
  if fld w 8 10 = 0 ∧ fld w 29 3 = 1 then some (.cpyG (bv w 27 2) (bv w 23 4) (bv w 18 5)) else
  if fld w 8 10 = 0 ∧ fld w 29 3 = 2 then some (.cpyS (bv w 27 2) (bv w 23 4) (bv w 18 5)) else
  none

/-- Words of low byte 0x93: the waiting and status instructions (R55, R56, R226). -/
def raw93 (w : Nat) : Option Instr :=
  if fld w 18 14 = 0 then some (.cwaitAny (bv w 13 5) (bv w 8 5)) else
  if fld w 8 5 = 0 ∧ fld w 18 14 = 512 then some (.cwaitAll (bv w 13 5)) else
  if fld w 18 14 = 1024 then some (.cfind (bv w 13 5) (bv w 8 5)) else
  if fld w 8 5 = 0 ∧ fld w 23 9 = 48 then some (.evk (bv w 18 5) (bv w 13 5)) else
  if fld w 23 9 = 64 then some (.kick (bv w 18 5) (bv w 13 5) (bv w 8 5)) else
  none

/-- Words of low byte 0x95 (R55, R56). -/
def raw95 (w : Nat) : Option Instr :=
  if fld w 8 10 = 0 ∧ fld w 24 8 = 0 then some (.mwld (bv w 18 6)) else
  if fld w 13 5 = 0 ∧ fld w 24 8 = 4 then some (.mtile (bv w 18 6) (bv w 8 5)) else
  if fld w 13 5 = 0 ∧ fld w 24 8 = 8 then some (.mdrain (bv w 18 6) (bv w 8 5)) else
  if fld w 8 5 = 0 ∧ fld w 24 8 = 12 then some (.mset (bv w 18 6) (bv w 13 5)) else
  if fld w 8 24 = 1048576 then some (.mwait) else
  if fld w 8 5 = 0 ∧ fld w 18 14 = 1280 then some (.mred (bv w 13 5)) else
  if fld w 8 24 = 1572864 then some (.mresume) else
  if fld w 8 5 = 0 ∧ fld w 24 8 = 28 then some (.mlay (bv w 18 6) (bv w 13 5)) else
  if fld w 13 19 = 65536 then some (.mclr (bv w 8 5)) else
  if fld w 13 19 = 73728 then some (.mstat (bv w 8 5)) else
  none

/-- Words of low byte 0x97 (R55, R56). -/
def raw97 (w : Nat) : Option Instr :=
  if fld w 8 5 = 0 ∧ fld w 23 9 = 0 then some (.pload (bv w 18 5) (bv w 13 5)) else
  if fld w 8 5 = 0 ∧ fld w 23 9 = 16 then some (.pbind (bv w 18 5) (bv w 13 5)) else
  if fld w 8 5 = 0 ∧ fld w 23 9 = 17 then some (.pbindT (bv w 18 5) (bv w 13 5)) else
  if fld w 13 5 = 0 ∧ fld w 23 9 = 32 then some (.pstat (bv w 18 5) (bv w 8 5)) else
  none

/-- Words of low byte 0x99 (R55, R56). -/
def raw99 (w : Nat) : Option Instr :=
  if fld w 18 14 = 0 then some (.vreg (bv w 13 5) (bv w 8 5)) else
  if fld w 8 5 = 0 ∧ fld w 18 14 = 512 then some (.vdrop (bv w 13 5)) else
  if fld w 8 5 = 0 ∧ fld w 18 14 = 1024 then some (.vsync (bv w 13 5)) else
  if fld w 23 9 = 48 then some (.vstat (bv w 18 5) (bv w 13 5) (bv w 8 5)) else
  if fld w 23 9 = 64 then some (.vpol (bv w 18 5) (bv w 13 5) (bv w 8 5)) else
  none

/-- Words of low byte 0x9B (R55, R56). -/
def raw9B (w : Nat) : Option Instr :=
  if fld w 23 9 = 0 then some (.stRep (bv w 18 5) (bv w 13 5) (bv w 8 5)) else
  if fld w 18 14 = 512 then some (.reconf (bv w 13 5) (bv w 8 5)) else
  if fld w 18 14 = 1024 then some (.cgjoin (bv w 13 5) (bv w 8 5)) else
  if fld w 8 5 = 0 ∧ fld w 18 14 = 1536 then some (.cgleave (bv w 13 5)) else
  if fld w 23 9 = 64 then some (.coll (bv w 18 5) (bv w 13 5) (bv w 8 5)) else
  if fld w 23 9 = 80 then some (.clogr (bv w 18 5) (bv w 13 5) (bv w 8 5)) else
  none

/-- Words of low byte 0xE1 (R55, R56). -/
noncomputable def rawE1 (w : Nat) : Option Instr :=
  if fld w 12 6 = 0 ∧ fld w 26 6 = 0 then some (.kldi (bv w 18 8) (bv w 8 4)) else
  if fld w 12 2 = 0 ∧ fld w 26 6 = 16 then some (.kaddi (bv w 18 8) (bv w 14 4) (bv w 8 4)) else
  if fld w 12 2 = 0 ∧ fld w 18 8 = 0 ∧ fld w 30 2 = 2 then some (.kadd (bv w 26 4) (bv w 14 4) (bv w 8 4)) else
  if fld w 12 2 = 0 ∧ fld w 18 8 = 0 ∧ fld w 30 2 = 3 then some (.ksub (bv w 26 4) (bv w 14 4) (bv w 8 4)) else
  none

/-- Words of low byte 0xE3 (R55, R56). -/
noncomputable def rawE3 (w : Nat) : Option Instr :=
  if fld w 12 2 = 0 ∧ fld w 18 8 = 0 ∧ fld w 30 2 = 0 then some (.kmul (bv w 26 4) (bv w 14 4) (bv w 8 4)) else
  if fld w 12 2 = 0 ∧ fld w 18 8 = 0 ∧ fld w 30 2 = 1 then some (.kdiv (bv w 26 4) (bv w 14 4) (bv w 8 4)) else
  if fld w 12 2 = 0 ∧ fld w 18 8 = 0 ∧ fld w 30 2 = 2 then some (.kmod (bv w 26 4) (bv w 14 4) (bv w 8 4)) else
  if fld w 12 2 = 0 ∧ fld w 18 8 = 0 ∧ fld w 30 2 = 3 then some (.kmin (bv w 26 4) (bv w 14 4) (bv w 8 4)) else
  none

/-- Words of low byte 0xE5 (R55, R56). -/
noncomputable def rawE5 (w : Nat) : Option Instr :=
  if fld w 12 2 = 0 ∧ fld w 18 8 = 0 ∧ fld w 30 2 = 0 then some (.kmax (bv w 26 4) (bv w 14 4) (bv w 8 4)) else
  if fld w 12 2 = 0 ∧ fld w 23 9 = 128 then some (.kshr (bv w 18 5) (bv w 14 4) (bv w 8 4)) else
  if fld w 12 2 = 0 ∧ fld w 18 8 = 0 ∧ fld w 30 2 = 2 then some (.khash (bv w 26 4) (bv w 14 4) (bv w 8 4)) else
  if fld w 12 6 = 0 ∧ fld w 21 11 = 1536 then some (.kldp (bv w 18 3) (bv w 8 4)) else
  none

/-- Words of low byte 0xE7 (R55, R56). -/
noncomputable def rawE7 (w : Nat) : Option Instr :=
  if fld w 8 6 = 0 ∧ fld w 18 8 = 0 ∧ fld w 30 2 = 0 then some (.kemit (bv w 26 4) (bv w 14 4)) else
  if fld w 8 6 = 0 ∧ fld w 30 2 = 1 then some (.kblt (bv w 26 4) (bv w 18 8) (bv w 14 4)) else
  if fld w 8 6 = 0 ∧ fld w 26 6 = 32 then some (.kloop (bv w 18 8) (bv w 14 4)) else
  if fld w 8 24 = 12582912 then some (.kend) else
  none

/-- Words of low byte 0xE9 (R55, R56). -/
def rawE9 (w : Nat) : Option Instr :=
  if fld w 8 24 = 0 then some (.ctake) else
  none

/-- Words of low byte 0xEB (R55, R56). -/
def rawEB (w : Nat) : Option Instr :=
  if fld w 8 5 = 0 ∧ fld w 18 14 = 0 then some (.cstart (bv w 13 5)) else
  none

/-- A 32-bit word to the instruction that its codes name, its register fields unchecked. -/
def raw32 (w : Nat) : Option Instr :=
  match fld w 0 8 with
  | 0x03 => raw03 w
  | 0x05 => raw05 w
  | 0x07 => raw07 w
  | 0x09 => raw09 w
  | 0x0B => raw0B w
  | 0x0D => raw0D w
  | 0x11 => raw11 w
  | 0x13 => raw13 w
  | 0x15 => raw15 w
  | 0x17 => raw17 w
  | 0x19 => raw19 w
  | 0x21 => raw21 w
  | 0x23 => raw23 w
  | 0x25 => raw25 w
  | 0x27 => raw27 w
  | 0x29 => raw29 w
  | 0x2B => raw2B w
  | 0x2D => raw2D w
  | 0x31 => raw31 w
  | 0x33 => raw33 w
  | 0x35 => raw35 w
  | 0x37 => raw37 w
  | 0x41 => raw41 w
  | 0x43 => raw43 w
  | 0x45 => raw45 w
  | 0x47 => raw47 w
  | 0x49 => raw49 w
  | 0x4B => raw4B w
  | 0x4D => raw4D w
  | 0x51 => raw51 w
  | 0x53 => raw53 w
  | 0x55 => raw55 w
  | 0x57 => raw57 w
  | 0x59 => raw59 w
  | 0x5B => raw5B w
  | 0x5D => raw5D w
  | 0x5F => raw5F w
  | 0x61 => raw61 w
  | 0x63 => raw63 w
  | 0x65 => raw65 w
  | 0x67 => raw67 w
  | 0x71 => raw71 w
  | 0x73 => raw73 w
  | 0x75 => raw75 w
  | 0x77 => raw77 w
  | 0x79 => raw79 w
  | 0x7B => raw7B w
  | 0x7D => raw7D w
  | 0x7F => raw7F w
  | 0x81 => raw81 w
  | 0x83 => raw83 w
  | 0x85 => raw85 w
  | 0x91 => raw91 w
  | 0x93 => raw93 w
  | 0x95 => raw95 w
  | 0x97 => raw97 w
  | 0x99 => raw99 w
  | 0x9B => raw9B w
  | 0xE9 => rawE9 w
  | 0xEB => rawEB w
  | _ => none

/-- A pattern word of the index generators to its operation (R272, R273). Lean's compiler allocates no
constructor with so high a number, so this definition is for the kernel; a generator reads its words by
Machine.patternMeaning. -/
noncomputable def rawPattern (w : Nat) : Option Instr :=
  match fld w 0 8 with
  | 0xE1 => rawE1 w
  | 0xE3 => rawE3 w
  | 0xE5 => rawE5 w
  | 0xE7 => rawE7 w
  | _ => none

/-- A 16-bit word to its L-form operation (R57). -/
def raw16 (w : Nat) : Option Instr :=
  match fld w 0 5 with
  | 0x00 => some (.vaddLForm (bv w 15 1) (bv w 10 5) (bv w 5 5))
  | 0x02 => some (.vsubLForm (bv w 15 1) (bv w 10 5) (bv w 5 5))
  | 0x04 => some (.vmulLForm (bv w 15 1) (bv w 10 5) (bv w 5 5))
  | 0x06 => some (.vminLForm (bv w 15 1) (bv w 10 5) (bv w 5 5))
  | 0x08 => some (.vmaxLForm (bv w 15 1) (bv w 10 5) (bv w 5 5))
  | 0x0A => some (.vandLForm (bv w 15 1) (bv w 10 5) (bv w 5 5))
  | 0x0C => some (.vorLForm (bv w 15 1) (bv w 10 5) (bv w 5 5))
  | 0x0E => some (.vxorLForm (bv w 15 1) (bv w 10 5) (bv w 5 5))
  | 0x10 => some (.vshlLForm (bv w 15 1) (bv w 10 5) (bv w 5 5))
  | 0x12 => some (.vshrLForm (bv w 15 1) (bv w 10 5) (bv w 5 5))
  | 0x14 => some (.vsarLForm (bv w 15 1) (bv w 10 5) (bv w 5 5))
  | 0x16 => some (.vmovLForm (bv w 15 1) (bv w 10 5) (bv w 5 5))
  | 0x18 => some (.vnegLForm (bv w 15 1) (bv w 10 5) (bv w 5 5))
  | 0x1A => some (.vabsLForm (bv w 15 1) (bv w 10 5) (bv w 5 5))
  | 0x1C => some (.vrsubLForm (bv w 15 1) (bv w 10 5) (bv w 5 5))
  | 0x1E => some (.vxchgLForm (bv w 15 1) (bv w 10 5) (bv w 5 5))
  | _ => none

/-- The checks of R60 on a word's fields. -/
def checked (i : Instr) : Except Reject Instr :=
  if fieldsOk i then (if typeCodeBad i then .error .typeCode else .ok i) else .error .illegal

/-- A 32-bit word. -/
def decode32 (w : BitVec 32) : Except Reject Instr :=
  match raw32 w.toNat with
  | some i => checked i
  | none => .error .illegal

/-- A 16-bit word; 0x0000 is no instruction (R58). -/
def decode16 (h : BitVec 16) : Except Reject Instr :=
  match raw16 h.toNat with
  | some i => checked i
  | none => .error .illegal

/-- Bytes as they lie in memory, little-endian (R8). -/
def bytesToNat : List Byte → Nat
  | [] => 0
  | b :: bs => b.toNat + 256 * bytesToNat bs

/-- The first instruction of a list of bytes, with the rest of the list. Bit 0 of the first halfword gives
the length (R40). -/
def decode (bs : List Byte) : Except Reject (Instr × List Byte) :=
  match bs with
  | b0 :: b1 :: rest =>
    if b0.toNat % 2 = 0 then
      match decode16 (BitVec.ofNat 16 (bytesToNat [b0, b1])) with
      | .ok i => .ok (i, rest)
      | .error e => .error e
    else
      match rest with
      | b2 :: b3 :: rest' =>
        match decode32 (BitVec.ofNat 32 (bytesToNat [b0, b1, b2, b3])) with
        | .ok i => .ok (i, rest')
        | .error e => .error e
      | _ => .error .truncated
  | _ => .error .truncated

/-- n bytes of a number, least significant first. -/
def natToBytes : Nat → Nat → List Byte
  | 0, _ => []
  | n + 1, w => BitVec.ofNat 8 (w % 256) :: natToBytes n (w / 256)

/-- The table numbers a word's bits from the least significant bit of its first halfword, as it lies in
memory; bits above nbits are 0. A word that no strand or hart executes is read as the generators read it. -/
noncomputable def decodeTableWord (nbits w : Nat) : Option Instr :=
  match decode (natToBytes (max 4 ((nbits + 7) / 8)) (w % 2 ^ nbits)) with
  | .ok (i, _) => some i
  | .error _ => if nbits = 32 then rawPattern (w % 2 ^ nbits) else none

/-- The number that an instruction's word is, and the word's length in bytes; an event has no word. -/
def encodeNat : Instr → Nat × Nat
  | .addR w b a d => (0x3 + w.toNat * 8388608 + b.toNat * 262144 + a.toNat * 8192 + d.toNat * 256, 4)
  | .subR w b a d => (0x8000003 + w.toNat * 8388608 + b.toNat * 262144 + a.toNat * 8192 + d.toNat * 256, 4)
  | .andR b a d => (0x10000003 + b.toNat * 262144 + a.toNat * 8192 + d.toNat * 256, 4)
  | .orR b a d => (0x18000003 + b.toNat * 262144 + a.toNat * 8192 + d.toNat * 256, 4)
  | .xorR b a d => (0x20000003 + b.toNat * 262144 + a.toNat * 8192 + d.toNat * 256, 4)
  | .shl w b a d => (0x28000003 + w.toNat * 8388608 + b.toNat * 262144 + a.toNat * 8192 + d.toNat * 256, 4)
  | .shr w b a d => (0x30000003 + w.toNat * 8388608 + b.toNat * 262144 + a.toNat * 8192 + d.toNat * 256, 4)
  | .sar w b a d => (0x38000003 + w.toNat * 8388608 + b.toNat * 262144 + a.toNat * 8192 + d.toNat * 256, 4)
  | .min w b a d => (0x40000003 + w.toNat * 8388608 + b.toNat * 262144 + a.toNat * 8192 + d.toNat * 256, 4)
  | .max w b a d => (0x48000003 + w.toNat * 8388608 + b.toNat * 262144 + a.toNat * 8192 + d.toNat * 256, 4)
  | .minn w b a d => (0x50000003 + w.toNat * 8388608 + b.toNat * 262144 + a.toNat * 8192 + d.toNat * 256, 4)
  | .maxn w b a d => (0x58000003 + w.toNat * 8388608 + b.toNat * 262144 + a.toNat * 8192 + d.toNat * 256, 4)
  | .cmp c b a d => (0x60000003 + c.toNat * 8388608 + b.toNat * 262144 + a.toNat * 8192 + d.toNat * 256, 4)
  | .sel b a d => (0x68000003 + b.toNat * 262144 + a.toNat * 8192 + d.toNat * 256, 4)
  | .clz a d => (0x70000003 + a.toNat * 8192 + d.toNat * 256, 4)
  | .ctz a d => (0x78000003 + a.toNat * 8192 + d.toNat * 256, 4)
  | .popc a d => (0x80000003 + a.toNat * 8192 + d.toNat * 256, 4)
  | .mul b a d => (0x88000003 + b.toNat * 262144 + a.toNat * 8192 + d.toNat * 256, 4)
  | .mulh b a d => (0x90000003 + b.toNat * 262144 + a.toNat * 8192 + d.toNat * 256, 4)
  | .mulhn b a d => (0x98000003 + b.toNat * 262144 + a.toNat * 8192 + d.toNat * 256, 4)
  | .addImm i a d => (0x5 + i.toNat * 262144 + a.toNat * 8192 + d.toNat * 256, 4)
  | .andImm i a d => (0x7 + i.toNat * 262144 + a.toNat * 8192 + d.toNat * 256, 4)
  | .orImm i a d => (0x9 + i.toNat * 262144 + a.toNat * 8192 + d.toNat * 256, 4)
  | .xorImm i a d => (0xb + i.toNat * 262144 + a.toNat * 8192 + d.toNat * 256, 4)
  | .shlImm w n a d => (0xd + w.toNat * 268435456 + n.toNat * 262144 + a.toNat * 8192 + d.toNat * 256, 4)
  | .shrImm w n a d => (0x4000000d + w.toNat * 268435456 + n.toNat * 262144 + a.toNat * 8192 + d.toNat * 256, 4)
  | .sarImm w n a d => (0x8000000d + w.toNat * 268435456 + n.toNat * 262144 + a.toNat * 8192 + d.toNat * 256, 4)
  | .movi i d => (0x11 + i.toNat * 8192 + d.toNat * 256, 4)
  | .movh i d => (0x13 + i.toNat * 8192 + d.toNat * 256, 4)
  | .div la b a d => (0x15 + la.toNat * 8388608 + b.toNat * 262144 + a.toNat * 8192 + d.toNat * 256, 4)
  | .divn la b a d => (0x8000015 + la.toNat * 8388608 + b.toNat * 262144 + a.toNat * 8192 + d.toNat * 256, 4)
  | .rem la b a d => (0x10000015 + la.toNat * 8388608 + b.toNat * 262144 + a.toNat * 8192 + d.toNat * 256, 4)
  | .remn la b a d => (0x18000015 + la.toNat * 8388608 + b.toNat * 262144 + a.toNat * 8192 + d.toNat * 256, 4)
  | .amesh b a d => (0x17 + b.toNat * 262144 + a.toNat * 8192 + d.toNat * 256, 4)
  | .apost b a d => (0x8000017 + b.toNat * 262144 + a.toNat * 8192 + d.toNat * 256, 4)
  | .awalk x k a => (0x19 + x.toNat * 33554432 + k.toNat * 262144 + a.toNat * 8192, 4)
  | .beq s b a => (0x21 + s.toNat * 262144 + b.toNat * 8192 + a.toNat * 256, 4)
  | .bne s b a => (0x23 + s.toNat * 262144 + b.toNat * 8192 + a.toNat * 256, 4)
  | .blt s b a => (0x25 + s.toNat * 262144 + b.toNat * 8192 + a.toNat * 256, 4)
  | .bge s b a => (0x27 + s.toNat * 262144 + b.toNat * 8192 + a.toNat * 256, 4)
  | .bltn s b a => (0x29 + s.toNat * 262144 + b.toNat * 8192 + a.toNat * 256, 4)
  | .bgen s b a => (0x2b + s.toNat * 262144 + b.toNat * 8192 + a.toNat * 256, 4)
  | .rep s a => (0x2d + s.toNat * 262144 + a.toNat * 256, 4)
  | .jmp s d => (0x31 + s.toNat * 8192 + d.toNat * 256, 4)
  | .call s => (0x33 + s.toNat * 8192, 4)
  | .jr a d => (0x35 + a.toNat * 8192 + d.toNat * 256, 4)
  | .callr a => (0x8000035 + a.toNat * 8192, 4)
  | .ret => (0x10000035, 4)
  | .eret => (0x18000035, 4)
  | .yield => (0x20000035, 4)
  | .exit => (0x28000035, 4)
  | .trap t => (0x37 + t.toNat * 262144, 4)
  | .ldB i a d => (0x41 + i.toNat * 262144 + a.toNat * 8192 + d.toNat * 256, 4)
  | .ldH i a d => (0x43 + i.toNat * 262144 + a.toNat * 8192 + d.toNat * 256, 4)
  | .ldW i a d => (0x45 + i.toNat * 262144 + a.toNat * 8192 + d.toNat * 256, 4)
  | .ldD i a d => (0x47 + i.toNat * 262144 + a.toNat * 8192 + d.toNat * 256, 4)
  | .ldnB i a d => (0x49 + i.toNat * 262144 + a.toNat * 8192 + d.toNat * 256, 4)
  | .ldnH i a d => (0x4b + i.toNat * 262144 + a.toNat * 8192 + d.toNat * 256, 4)
  | .ldnW i a d => (0x4d + i.toNat * 262144 + a.toNat * 8192 + d.toNat * 256, 4)
  | .stB i a d => (0x51 + i.toNat * 262144 + a.toNat * 8192 + d.toNat * 256, 4)
  | .stH i a d => (0x53 + i.toNat * 262144 + a.toNat * 8192 + d.toNat * 256, 4)
  | .stW i a d => (0x55 + i.toNat * 262144 + a.toNat * 8192 + d.toNat * 256, 4)
  | .stD i a d => (0x57 + i.toNat * 262144 + a.toNat * 8192 + d.toNat * 256, 4)
  | .ldstrLoad p z la b a d => (0x59 + p.toNat * 1073741824 + z.toNat * 134217728 + la.toNat * 8388608 + b.toNat * 262144 + a.toNat * 8192 + d.toNat * 256, 4)
  | .ldstrStore p z la b a d => (0x80000059 + p.toNat * 1073741824 + z.toNat * 134217728 + la.toNat * 8388608 + b.toNat * 262144 + a.toNat * 8192 + d.toNat * 256, 4)
  | .ldAcqW s b a d => (0x5b + s.toNat * 8388608 + b.toNat * 262144 + a.toNat * 8192 + d.toNat * 256, 4)
  | .ldAcqD s b a d => (0x800005b + s.toNat * 8388608 + b.toNat * 262144 + a.toNat * 8192 + d.toNat * 256, 4)
  | .stRelW s b a d => (0x1000005b + s.toNat * 8388608 + b.toNat * 262144 + a.toNat * 8192 + d.toNat * 256, 4)
  | .stRelD s b a d => (0x1800005b + s.toNat * 8388608 + b.toNat * 262144 + a.toNat * 8192 + d.toNat * 256, 4)
  | .ldSc b a d => (0x2000005b + b.toNat * 262144 + a.toNat * 8192 + d.toNat * 256, 4)
  | .stSc b a d => (0x2800005b + b.toNat * 262144 + a.toNat * 8192 + d.toNat * 256, 4)
  | .ldroW b a d => (0x3000005b + b.toNat * 262144 + a.toNat * 8192 + d.toNat * 256, 4)
  | .ldroD b a d => (0x3800005b + b.toNat * 262144 + a.toNat * 8192 + d.toNat * 256, 4)
  | .ldf b a d => (0x4000005b + b.toNat * 262144 + a.toNat * 8192 + d.toNat * 256, 4)
  | .pre b a => (0x4800005b + b.toNat * 262144 + a.toNat * 8192, 4)
  | .bmov b a d => (0x5000005b + b.toNat * 262144 + a.toNat * 8192 + d.toNat * 256, 4)
  | .amoAdd w s b a d => (0x5d + w.toNat * 67108864 + s.toNat * 8388608 + b.toNat * 262144 + a.toNat * 8192 + d.toNat * 256, 4)
  | .amoMin w s b a d => (0x800005d + w.toNat * 67108864 + s.toNat * 8388608 + b.toNat * 262144 + a.toNat * 8192 + d.toNat * 256, 4)
  | .amoMax w s b a d => (0x1000005d + w.toNat * 67108864 + s.toNat * 8388608 + b.toNat * 262144 + a.toNat * 8192 + d.toNat * 256, 4)
  | .amoMinn w s b a d => (0x1800005d + w.toNat * 67108864 + s.toNat * 8388608 + b.toNat * 262144 + a.toNat * 8192 + d.toNat * 256, 4)
  | .amoMaxn w s b a d => (0x2000005d + w.toNat * 67108864 + s.toNat * 8388608 + b.toNat * 262144 + a.toNat * 8192 + d.toNat * 256, 4)
  | .amoAnd w s b a d => (0x2800005d + w.toNat * 67108864 + s.toNat * 8388608 + b.toNat * 262144 + a.toNat * 8192 + d.toNat * 256, 4)
  | .amoOr w s b a d => (0x3000005d + w.toNat * 67108864 + s.toNat * 8388608 + b.toNat * 262144 + a.toNat * 8192 + d.toNat * 256, 4)
  | .amoXor w s b a d => (0x3800005d + w.toNat * 67108864 + s.toNat * 8388608 + b.toNat * 262144 + a.toNat * 8192 + d.toNat * 256, 4)
  | .amoSwp w s b a d => (0x4000005d + w.toNat * 67108864 + s.toNat * 8388608 + b.toNat * 262144 + a.toNat * 8192 + d.toNat * 256, 4)
  | .amoCas w s b a d => (0x4800005d + w.toNat * 67108864 + s.toNat * 8388608 + b.toNat * 262144 + a.toNat * 8192 + d.toNat * 256, 4)
  | .amoFadd w s b a d => (0x5000005d + w.toNat * 67108864 + s.toNat * 8388608 + b.toNat * 262144 + a.toNat * 8192 + d.toNat * 256, 4)
  | .fence s => (0x5f + s.toNat * 8388608, 4)
  | .barT => (0x800005f, 4)
  | .barG => (0x1000005f, 4)
  | .rflush b a => (0x1800005f + b.toNat * 262144 + a.toNat * 8192, 4)
  | .rinv b a => (0x2000005f + b.toNat * 262144 + a.toNat * 8192, 4)
  | .waitf b a => (0x2800005f + b.toNat * 262144 + a.toNat * 8192, 4)
  | .srd b d => (0x61 + b.toNat * 262144 + d.toNat * 256, 4)
  | .swr b a => (0x8000061 + b.toNat * 262144 + a.toNat * 8192, 4)
  | .swrImm i d => (0x63 + i.toNat * 262144 + d.toNat * 256, 4)
  | .rfork b a d => (0x65 + b.toNat * 262144 + a.toNat * 8192 + d.toNat * 256, 4)
  | .join a => (0x8000065 + a.toNat * 8192, 4)
  | .mig a => (0x10000065 + a.toNat * 8192, 4)
  | .amsg b a d => (0x18000065 + b.toNat * 262144 + a.toNat * 8192 + d.toNat * 256, 4)
  | .hmsg b a => (0x20000065 + b.toNat * 262144 + a.toNat * 8192, 4)
  | .task a d => (0x28000065 + a.toNat * 8192 + d.toNat * 256, 4)
  | .dec b a => (0x30000065 + b.toNat * 262144 + a.toNat * 8192, 4)
  | .pair a d => (0x67 + a.toNat * 8192 + d.toNat * 256, 4)
  | .unpair d => (0x8000067 + d.toNat * 256, 4)
  | .gstat a => (0x10000067 + a.toNat * 8192, 4)
  | .halt => (0x18000067, 4)
  | .vadd m r b a d => (0x71 + m.toNat * 67108864 + r.toNat * 8388608 + b.toNat * 262144 + a.toNat * 8192 + d.toNat * 256, 4)
  | .vsub m r b a d => (0x8000071 + m.toNat * 67108864 + r.toNat * 8388608 + b.toNat * 262144 + a.toNat * 8192 + d.toNat * 256, 4)
  | .vmul m r b a d => (0x10000071 + m.toNat * 67108864 + r.toNat * 8388608 + b.toNat * 262144 + a.toNat * 8192 + d.toNat * 256, 4)
  | .vmin m r b a d => (0x18000071 + m.toNat * 67108864 + r.toNat * 8388608 + b.toNat * 262144 + a.toNat * 8192 + d.toNat * 256, 4)
  | .vmax m r b a d => (0x20000071 + m.toNat * 67108864 + r.toNat * 8388608 + b.toNat * 262144 + a.toNat * 8192 + d.toNat * 256, 4)
  | .vand m r b a d => (0x28000071 + m.toNat * 67108864 + r.toNat * 8388608 + b.toNat * 262144 + a.toNat * 8192 + d.toNat * 256, 4)
  | .vor m r b a d => (0x30000071 + m.toNat * 67108864 + r.toNat * 8388608 + b.toNat * 262144 + a.toNat * 8192 + d.toNat * 256, 4)
  | .vxor m r b a d => (0x38000071 + m.toNat * 67108864 + r.toNat * 8388608 + b.toNat * 262144 + a.toNat * 8192 + d.toNat * 256, 4)
  | .vshl m r b a d => (0x40000071 + m.toNat * 67108864 + r.toNat * 8388608 + b.toNat * 262144 + a.toNat * 8192 + d.toNat * 256, 4)
  | .vshr m r b a d => (0x48000071 + m.toNat * 67108864 + r.toNat * 8388608 + b.toNat * 262144 + a.toNat * 8192 + d.toNat * 256, 4)
  | .vsar m r b a d => (0x50000071 + m.toNat * 67108864 + r.toNat * 8388608 + b.toNat * 262144 + a.toNat * 8192 + d.toNat * 256, 4)
  | .vmov m r b a d => (0x58000071 + m.toNat * 67108864 + r.toNat * 8388608 + b.toNat * 262144 + a.toNat * 8192 + d.toNat * 256, 4)
  | .vneg m r b a d => (0x60000071 + m.toNat * 67108864 + r.toNat * 8388608 + b.toNat * 262144 + a.toNat * 8192 + d.toNat * 256, 4)
  | .vabs m r b a d => (0x68000071 + m.toNat * 67108864 + r.toNat * 8388608 + b.toNat * 262144 + a.toNat * 8192 + d.toNat * 256, 4)
  | .vrsub m r b a d => (0x70000071 + m.toNat * 67108864 + r.toNat * 8388608 + b.toNat * 262144 + a.toNat * 8192 + d.toNat * 256, 4)
  | .vxchg m r b a d => (0x78000071 + m.toNat * 67108864 + r.toNat * 8388608 + b.toNat * 262144 + a.toNat * 8192 + d.toNat * 256, 4)
  | .vdiv m r b a d => (0x80000071 + m.toNat * 67108864 + r.toNat * 8388608 + b.toNat * 262144 + a.toNat * 8192 + d.toNat * 256, 4)
  | .vsqrt m r b a d => (0x88000071 + m.toNat * 67108864 + r.toNat * 8388608 + b.toNat * 262144 + a.toNat * 8192 + d.toNat * 256, 4)
  | .vmulh m r b a d => (0x90000071 + m.toNat * 67108864 + r.toNat * 8388608 + b.toNat * 262144 + a.toNat * 8192 + d.toNat * 256, 4)
  | .vadds m r b a d => (0x98000071 + m.toNat * 67108864 + r.toNat * 8388608 + b.toNat * 262144 + a.toNat * 8192 + d.toNat * 256, 4)
  | .vsubs m r b a d => (0xa0000071 + m.toNat * 67108864 + r.toNat * 8388608 + b.toNat * 262144 + a.toNat * 8192 + d.toNat * 256, 4)
  | .vabd m r b a d => (0xa8000071 + m.toNat * 67108864 + r.toNat * 8388608 + b.toNat * 262144 + a.toNat * 8192 + d.toNat * 256, 4)
  | .vnot m r b a d => (0xb0000071 + m.toNat * 67108864 + r.toNat * 8388608 + b.toNat * 262144 + a.toNat * 8192 + d.toNat * 256, 4)
  | .vaddLForm m s d => (0x0 + m.toNat * 32768 + s.toNat * 1024 + d.toNat * 32, 2)
  | .vsubLForm m s d => (0x2 + m.toNat * 32768 + s.toNat * 1024 + d.toNat * 32, 2)
  | .vmulLForm m s d => (0x4 + m.toNat * 32768 + s.toNat * 1024 + d.toNat * 32, 2)
  | .vminLForm m s d => (0x6 + m.toNat * 32768 + s.toNat * 1024 + d.toNat * 32, 2)
  | .vmaxLForm m s d => (0x8 + m.toNat * 32768 + s.toNat * 1024 + d.toNat * 32, 2)
  | .vandLForm m s d => (0xa + m.toNat * 32768 + s.toNat * 1024 + d.toNat * 32, 2)
  | .vorLForm m s d => (0xc + m.toNat * 32768 + s.toNat * 1024 + d.toNat * 32, 2)
  | .vxorLForm m s d => (0xe + m.toNat * 32768 + s.toNat * 1024 + d.toNat * 32, 2)
  | .vshlLForm m s d => (0x10 + m.toNat * 32768 + s.toNat * 1024 + d.toNat * 32, 2)
  | .vshrLForm m s d => (0x12 + m.toNat * 32768 + s.toNat * 1024 + d.toNat * 32, 2)
  | .vsarLForm m s d => (0x14 + m.toNat * 32768 + s.toNat * 1024 + d.toNat * 32, 2)
  | .vmovLForm m s d => (0x16 + m.toNat * 32768 + s.toNat * 1024 + d.toNat * 32, 2)
  | .vnegLForm m s d => (0x18 + m.toNat * 32768 + s.toNat * 1024 + d.toNat * 32, 2)
  | .vabsLForm m s d => (0x1a + m.toNat * 32768 + s.toNat * 1024 + d.toNat * 32, 2)
  | .vrsubLForm m s d => (0x1c + m.toNat * 32768 + s.toNat * 1024 + d.toNat * 32, 2)
  | .vxchgLForm m s d => (0x1e + m.toNat * 32768 + s.toNat * 1024 + d.toNat * 32, 2)
  | .vfma m r b a d => (0x73 + m.toNat * 67108864 + r.toNat * 8388608 + b.toNat * 262144 + a.toNat * 8192 + d.toNat * 256, 4)
  | .vfms m r b a d => (0x8000073 + m.toNat * 67108864 + r.toNat * 8388608 + b.toNat * 262144 + a.toNat * 8192 + d.toNat * 256, 4)
  | .vfnma m r b a d => (0x10000073 + m.toNat * 67108864 + r.toNat * 8388608 + b.toNat * 262144 + a.toNat * 8192 + d.toNat * 256, 4)
  | .vfnms m r b a d => (0x18000073 + m.toNat * 67108864 + r.toNat * 8388608 + b.toNat * 262144 + a.toNat * 8192 + d.toNat * 256, 4)
  | .vwadd m r b a d => (0x75 + m.toNat * 67108864 + r.toNat * 8388608 + b.toNat * 262144 + a.toNat * 8192 + d.toNat * 256, 4)
  | .vwsub m r b a d => (0x8000075 + m.toNat * 67108864 + r.toNat * 8388608 + b.toNat * 262144 + a.toNat * 8192 + d.toNat * 256, 4)
  | .vwmul m r b a d => (0x10000075 + m.toNat * 67108864 + r.toNat * 8388608 + b.toNat * 262144 + a.toNat * 8192 + d.toNat * 256, 4)
  | .vwmac m r b a d => (0x18000075 + m.toNat * 67108864 + r.toNat * 8388608 + b.toNat * 262144 + a.toNat * 8192 + d.toNat * 256, 4)
  | .vqmac m r b a d => (0x20000075 + m.toNat * 67108864 + r.toNat * 8388608 + b.toNat * 262144 + a.toNat * 8192 + d.toNat * 256, 4)
  | .vnshr m r b a d => (0x28000075 + m.toNat * 67108864 + r.toNat * 8388608 + b.toNat * 262144 + a.toNat * 8192 + d.toNat * 256, 4)
  | .vcvt m x r t a d => (0x77 + m.toNat * 67108864 + x.toNat * 33554432 + r.toNat * 8388608 + t.toNat * 262144 + a.toNat * 8192 + d.toNat * 256, 4)
  | .vcvtw m x r t a d => (0x8000077 + m.toNat * 67108864 + x.toNat * 33554432 + r.toNat * 8388608 + t.toNat * 262144 + a.toNat * 8192 + d.toNat * 256, 4)
  | .vcvtn m x r t a d => (0x10000077 + m.toNat * 67108864 + x.toNat * 33554432 + r.toNat * 8388608 + t.toNat * 262144 + a.toNat * 8192 + d.toNat * 256, 4)
  | .vcmpEq m b a d => (0x79 + m.toNat * 67108864 + b.toNat * 262144 + a.toNat * 8192 + d.toNat * 256, 4)
  | .vcmpNe m b a d => (0x8000079 + m.toNat * 67108864 + b.toNat * 262144 + a.toNat * 8192 + d.toNat * 256, 4)
  | .vcmpLt m b a d => (0x10000079 + m.toNat * 67108864 + b.toNat * 262144 + a.toNat * 8192 + d.toNat * 256, 4)
  | .vcmpLe m b a d => (0x18000079 + m.toNat * 67108864 + b.toNat * 262144 + a.toNat * 8192 + d.toNat * 256, 4)
  | .vcmpGt m b a d => (0x20000079 + m.toNat * 67108864 + b.toNat * 262144 + a.toNat * 8192 + d.toNat * 256, 4)
  | .vcmpGe m b a d => (0x28000079 + m.toNat * 67108864 + b.toNat * 262144 + a.toNat * 8192 + d.toNat * 256, 4)
  | .vcmpLtn m b a d => (0x30000079 + m.toNat * 67108864 + b.toNat * 262144 + a.toNat * 8192 + d.toNat * 256, 4)
  | .vcmpGen m b a d => (0x38000079 + m.toNat * 67108864 + b.toNat * 262144 + a.toNat * 8192 + d.toNat * 256, 4)
  | .mand b a d => (0x7b + b.toNat * 262144 + a.toNat * 8192 + d.toNat * 256, 4)
  | .mor b a d => (0x800007b + b.toNat * 262144 + a.toNat * 8192 + d.toNat * 256, 4)
  | .mxor b a d => (0x1000007b + b.toNat * 262144 + a.toNat * 8192 + d.toNat * 256, 4)
  | .mnot a d => (0x1800007b + a.toNat * 8192 + d.toNat * 256, 4)
  | .mpop a d => (0x2000007b + a.toNat * 8192 + d.toNat * 256, 4)
  | .mfirst a d => (0x2800007b + a.toNat * 8192 + d.toNat * 256, 4)
  | .mfill a d => (0x3000007b + a.toNat * 8192 + d.toNat * 256, 4)
  | .vsel b a d => (0x3800007b + b.toNat * 262144 + a.toNat * 8192 + d.toNat * 256, 4)
  | .vrsum m r a d => (0x7d + m.toNat * 67108864 + r.toNat * 8388608 + a.toNat * 8192 + d.toNat * 256, 4)
  | .vrmax m r a d => (0x800007d + m.toNat * 67108864 + r.toNat * 8388608 + a.toNat * 8192 + d.toNat * 256, 4)
  | .vrmin m r a d => (0x1000007d + m.toNat * 67108864 + r.toNat * 8388608 + a.toNat * 8192 + d.toNat * 256, 4)
  | .vrand m r a d => (0x1800007d + m.toNat * 67108864 + r.toNat * 8388608 + a.toNat * 8192 + d.toNat * 256, 4)
  | .vror m r a d => (0x2000007d + m.toNat * 67108864 + r.toNat * 8388608 + a.toNat * 8192 + d.toNat * 256, 4)
  | .vrxor m r a d => (0x2800007d + m.toNat * 67108864 + r.toNat * 8388608 + a.toNat * 8192 + d.toNat * 256, 4)
  | .vperm m b a d => (0x7f + m.toNat * 67108864 + b.toNat * 262144 + a.toNat * 8192 + d.toNat * 256, 4)
  | .vslup m b a d => (0x800007f + m.toNat * 67108864 + b.toNat * 262144 + a.toNat * 8192 + d.toNat * 256, 4)
  | .vsldn m b a d => (0x1000007f + m.toNat * 67108864 + b.toNat * 262144 + a.toNat * 8192 + d.toNat * 256, 4)
  | .vbcast m a d => (0x1800007f + m.toNat * 67108864 + a.toNat * 8192 + d.toNat * 256, 4)
  | .vext m b a d => (0x2000007f + m.toNat * 67108864 + b.toNat * 262144 + a.toNat * 8192 + d.toNat * 256, 4)
  | .vins m b a d => (0x2800007f + m.toNat * 67108864 + b.toNat * 262144 + a.toNat * 8192 + d.toNat * 256, 4)
  | .vzip m b a d => (0x3000007f + m.toNat * 67108864 + b.toNat * 262144 + a.toNat * 8192 + d.toNat * 256, 4)
  | .vunzip m b a d => (0x3800007f + m.toNat * 67108864 + b.toNat * 262144 + a.toNat * 8192 + d.toNat * 256, 4)
  | .vcomp m a d => (0x4000007f + m.toNat * 67108864 + a.toNat * 8192 + d.toNat * 256, 4)
  | .qnt r la t a d => (0x81 + r.toNat * 134217728 + la.toNat * 8388608 + t.toNat * 262144 + a.toNat * 8192 + d.toNat * 256, 4)
  | .dqnt r la t a d => (0x20000081 + r.toNat * 134217728 + la.toNat * 8388608 + t.toNat * 262144 + a.toNat * 8192 + d.toNat * 256, 4)
  | .vld m la b a d => (0x83 + m.toNat * 2147483648 + la.toNat * 8388608 + b.toNat * 262144 + a.toNat * 8192 + d.toNat * 256, 4)
  | .vst m la b a d => (0x8000083 + m.toNat * 2147483648 + la.toNat * 8388608 + b.toNat * 262144 + a.toNat * 8192 + d.toNat * 256, 4)
  | .vlds m la b a d => (0x10000083 + m.toNat * 2147483648 + la.toNat * 8388608 + b.toNat * 262144 + a.toNat * 8192 + d.toNat * 256, 4)
  | .vsts m la b a d => (0x18000083 + m.toNat * 2147483648 + la.toNat * 8388608 + b.toNat * 262144 + a.toNat * 8192 + d.toNat * 256, 4)
  | .vldx m la b a d => (0x20000083 + m.toNat * 2147483648 + la.toNat * 8388608 + b.toNat * 262144 + a.toNat * 8192 + d.toNat * 256, 4)
  | .vstx m la b a d => (0x28000083 + m.toNat * 2147483648 + la.toNat * 8388608 + b.toNat * 262144 + a.toNat * 8192 + d.toNat * 256, 4)
  | .vldf m la b a d => (0x30000083 + m.toNat * 2147483648 + la.toNat * 8388608 + b.toNat * 262144 + a.toNat * 8192 + d.toNat * 256, 4)
  | .vstf m la b a d => (0x38000083 + m.toNat * 2147483648 + la.toNat * 8388608 + b.toNat * 262144 + a.toNat * 8192 + d.toNat * 256, 4)
  | .vldPost m la a d => (0x40700083 + m.toNat * 2147483648 + la.toNat * 8388608 + a.toNat * 8192 + d.toNat * 256, 4)
  | .vstPost m la a d => (0x48700083 + m.toNat * 2147483648 + la.toNat * 8388608 + a.toNat * 8192 + d.toNat * 256, 4)
  | .vldfPost m la b a d => (0x70000083 + m.toNat * 2147483648 + la.toNat * 8388608 + b.toNat * 262144 + a.toNat * 8192 + d.toNat * 256, 4)
  | .vstfPost m la b a d => (0x78000083 + m.toNat * 2147483648 + la.toNat * 8388608 + b.toNat * 262144 + a.toNat * 8192 + d.toNat * 256, 4)
  | .sbind a d => (0x85 + a.toNat * 8192 + d.toNat * 256, 4)
  | .qbind b d => (0x8000085 + b.toNat * 262144 + d.toNat * 256, 4)
  | .unbind d => (0x10000085 + d.toNat * 256, 4)
  | .qctl a d => (0x18000085 + a.toNat * 8192 + d.toNat * 256, 4)
  | .hset a d => (0x20000085 + a.toNat * 8192 + d.toNat * 256, 4)
  | .cpy h t b a d => (0x91 + h.toNat * 134217728 + t.toNat * 8388608 + b.toNat * 262144 + a.toNat * 8192 + d.toNat * 256, 4)
  | .cpyG h t b => (0x20000091 + h.toNat * 134217728 + t.toNat * 8388608 + b.toNat * 262144, 4)
  | .cpyS h t b => (0x40000091 + h.toNat * 134217728 + t.toNat * 8388608 + b.toNat * 262144, 4)
  | .cwaitAny a d => (0x93 + a.toNat * 8192 + d.toNat * 256, 4)
  | .cwaitAll a => (0x8000093 + a.toNat * 8192, 4)
  | .cfind a d => (0x10000093 + a.toNat * 8192 + d.toNat * 256, 4)
  | .evk b a => (0x18000093 + b.toNat * 262144 + a.toNat * 8192, 4)
  | .kick b a d => (0x20000093 + b.toNat * 262144 + a.toNat * 8192 + d.toNat * 256, 4)
  | .mwld o => (0x95 + o.toNat * 262144, 4)
  | .mtile o d => (0x4000095 + o.toNat * 262144 + d.toNat * 256, 4)
  | .mdrain o d => (0x8000095 + o.toNat * 262144 + d.toNat * 256, 4)
  | .mset o a => (0xc000095 + o.toNat * 262144 + a.toNat * 8192, 4)
  | .mwait => (0x10000095, 4)
  | .mred a => (0x14000095 + a.toNat * 8192, 4)
  | .mresume => (0x18000095, 4)
  | .mlay o a => (0x1c000095 + o.toNat * 262144 + a.toNat * 8192, 4)
  | .mclr d => (0x20000095 + d.toNat * 256, 4)
  | .mstat d => (0x24000095 + d.toNat * 256, 4)
  | .pload b a => (0x97 + b.toNat * 262144 + a.toNat * 8192, 4)
  | .pbind b a => (0x8000097 + b.toNat * 262144 + a.toNat * 8192, 4)
  | .pbindT b a => (0x8800097 + b.toNat * 262144 + a.toNat * 8192, 4)
  | .pstat b d => (0x10000097 + b.toNat * 262144 + d.toNat * 256, 4)
  | .vreg a d => (0x99 + a.toNat * 8192 + d.toNat * 256, 4)
  | .vdrop a => (0x8000099 + a.toNat * 8192, 4)
  | .vsync a => (0x10000099 + a.toNat * 8192, 4)
  | .vstat b a d => (0x18000099 + b.toNat * 262144 + a.toNat * 8192 + d.toNat * 256, 4)
  | .vpol b a d => (0x20000099 + b.toNat * 262144 + a.toNat * 8192 + d.toNat * 256, 4)
  | .stRep b a d => (0x9b + b.toNat * 262144 + a.toNat * 8192 + d.toNat * 256, 4)
  | .reconf a d => (0x800009b + a.toNat * 8192 + d.toNat * 256, 4)
  | .cgjoin a d => (0x1000009b + a.toNat * 8192 + d.toNat * 256, 4)
  | .cgleave a => (0x1800009b + a.toNat * 8192, 4)
  | .coll b a d => (0x2000009b + b.toNat * 262144 + a.toNat * 8192 + d.toNat * 256, 4)
  | .clogr b a d => (0x2800009b + b.toNat * 262144 + a.toNat * 8192 + d.toNat * 256, 4)
  | .ctake => (0xe9, 4)
  | .cstart a => (0xeb + a.toNat * 8192, 4)
  | .kldi i d => (0xe1 + i.toNat * 262144 + d.toNat * 256, 4)
  | .kaddi i a d => (0x400000e1 + i.toNat * 262144 + a.toNat * 16384 + d.toNat * 256, 4)
  | .kadd b a d => (0x800000e1 + b.toNat * 67108864 + a.toNat * 16384 + d.toNat * 256, 4)
  | .ksub b a d => (0xc00000e1 + b.toNat * 67108864 + a.toNat * 16384 + d.toNat * 256, 4)
  | .kmul b a d => (0xe3 + b.toNat * 67108864 + a.toNat * 16384 + d.toNat * 256, 4)
  | .kdiv b a d => (0x400000e3 + b.toNat * 67108864 + a.toNat * 16384 + d.toNat * 256, 4)
  | .kmod b a d => (0x800000e3 + b.toNat * 67108864 + a.toNat * 16384 + d.toNat * 256, 4)
  | .kmin b a d => (0xc00000e3 + b.toNat * 67108864 + a.toNat * 16384 + d.toNat * 256, 4)
  | .kmax b a d => (0xe5 + b.toNat * 67108864 + a.toNat * 16384 + d.toNat * 256, 4)
  | .kshr i a d => (0x400000e5 + i.toNat * 262144 + a.toNat * 16384 + d.toNat * 256, 4)
  | .khash b a d => (0x800000e5 + b.toNat * 67108864 + a.toNat * 16384 + d.toNat * 256, 4)
  | .kldp i d => (0xc00000e5 + i.toNat * 262144 + d.toNat * 256, 4)
  | .kemit b a => (0xe7 + b.toNat * 67108864 + a.toNat * 16384, 4)
  | .kblt b i a => (0x400000e7 + b.toNat * 67108864 + i.toNat * 262144 + a.toNat * 16384, 4)
  | .kloop i a => (0x800000e7 + i.toNat * 262144 + a.toNat * 16384, 4)
  | .kend => (0xc00000e7, 4)
  | .pairComparison => (0, 0)
  | .migrationMessageArrival => (0, 0)
  | .migrationResend => (0, 0)
  | .arrivalContextGrant => (0, 0)
  | .activeMessageArrival => (0, 0)
  | .amsgReply => (0, 0)
  | .decArrival => (0, 0)
  | .taskSlotStart => (0, 0)
  | .meshPortWordArrival => (0, 0)
  | .queueElementArrival => (0, 0)
  | .streamElementFetch => (0, 0)
  | .streamElementWrite => (0, 0)
  | .copyCompletion => (0, 0)
  | .copyStop => (0, 0)
  | .hartRestart => (0, 0)
  | .matrixCommandTake => (0, 0)
  | .matrixCommandComplete => (0, 0)
  | .matrixResumableStop => (0, 0)
  | .preemption => (0, 0)
  | .preemptionSaveComplete => (0, 0)
  | .restore => (0, 0)
  | .retryResend => (0, 0)
  | .heldStrandRelease => (0, 0)
  | .heldStrandEnd => (0, 0)
  | .l1Fill => (0, 0)
  | .ownershipGrant => (0, 0)
  | .forwardedRead => (0, 0)
  | .forwardedOwnership => (0, 0)
  | .recallRange => (0, 0)
  | .recordDeletion => (0, 0)
  | .l1UncorrectableError => (0, 0)
  | .directoryError => (0, 0)
  | .recallTimeout => (0, 0)
  | .translationWalk => (0, 0)
  | .leaseExpiry => (0, 0)
  | .patrolScrub => (0, 0)
  | .announcementWindowClose => (0, 0)
  | .announcementDelivery => (0, 0)
  | .phaseStep => (0, 0)
  | .impressionPass => (0, 0)
  | .blockRecomputation => (0, 0)
  | .bar2Write => (0, 0)
  | .bar2Read => (0, 0)
  | .hostWindowRequest => (0, 0)
  | .backInvalidation => (0, 0)
  | .launchRingEntry => (0, 0)
  | .eventRingWrite => (0, 0)
  | .winbaseWrite => (0, 0)
  | .eqbaseWrite => (0, 0)
  | .eqsizeWrite => (0, 0)
  | .eqheadWrite => (0, 0)
  | .lqbaseWrite => (0, 0)
  | .lqsizeWrite => (0, 0)
  | .lqtailWrite => (0, 0)
  | .lqtenWrite => (0, 0)
  | .attnWrite => (0, 0)
  | .managementRegisterWrite => (0, 0)
  | .bindRecordCommit => (0, 0)
  | .bindRecordEmpty => (0, 0)
  | .boundsRecordWrite => (0, 0)
  | .startUp => (0, 0)
  | .flitReceive => (0, 0)
  | .frameReceive => (0, 0)
  | .acknowledgement => (0, 0)
  | .acknowledgementDue => (0, 0)
  | .replayRequest => (0, 0)
  | .replayTimeout => (0, 0)
  | .restripe => (0, 0)
  | .hello => (0, 0)
  | .quiesce => (0, 0)
  | .wavelengthThreshold => (0, 0)
  | .wavelengthTrained => (0, 0)
  | .lossOfLight => (0, 0)
  | .lightReturn => (0, 0)
  | .keyLoad => (0, 0)
  | .downListWrite => (0, 0)
  | .remoteRequest => (0, 0)
  | .remoteResponse => (0, 0)
  | .copyWritePacket => (0, 0)
  | .copyWriteResponse => (0, 0)
  | .reconfDrainComplete => (0, 0)
  | .switchStatus => (0, 0)
  | .switchStatusTimeout => (0, 0)
  | .reconfTrainingComplete => (0, 0)
  | .reconfTimeout => (0, 0)
  | .groupActive => (0, 0)
  | .joinTimeout => (0, 0)
  | .collectiveContribution => (0, 0)
  | .memberTimeout => (0, 0)
  | .collectiveCompletion => (0, 0)
  | .uncorrectableCoreError => (0, 0)
  | .hbmUncorrectableError => (0, 0)
  | .cxlCacheResponse => (0, 0)
  | .fibrePinWrite => (0, 0)
  | .wavelengthThresholdWrite => (0, 0)

/-- The word of an instruction, zero-extended (R60). -/
def wordOf (i : Instr) : Word := BitVec.ofNat 64 (encodeNat i).1

/-- The length of an instruction's word in bytes (R40). -/
def lengthOf (i : Instr) : Nat := (encodeNat i).2

/-- The bytes of a well-formed instruction as they lie in memory. -/
def encode (i : Instr) : List Byte := natToBytes (encodeNat i).2 (encodeNat i).1

end Sys2Proof
end

