-- ==== Sys2Proof/Machine/Event.lean ====
section
/-! DEFINITION. The events of the D40: what a hardware or outside step of the opcode table brings with it. The
state keeps a queue of them, oldest first: inputs from outside the package and hardware events in flight. -/

namespace Sys2Proof.Machine

/-- The integrator's fabric record: own peer number, sizes and ring sizes (R389, R390). -/
structure FabricRecord where
  own : Nat
  sa : Nat
  sb : Nat
  sc : Nat
  sd : Nat
  rc : Nat
  rd : Nat
  deriving DecidableEq, Repr

/-- What a start of the package brings with it (R381, R382, R389): which of the nine steps' work succeeds, the
announcement span chosen, and the integrator's fabric record, where it is present. -/
structure StartInput where
  passes : List Bool
  spanDie : Bool
  fabric : Option FabricRecord
  /-- Cores whose register files have banks disabled by repair, with their CAP of 6 or 4 (R63). -/
  caps : List (Nat × Nat)
  /-- What the root monitor has written since the last start: firmware images into the flash, by kind, slot (0 A, 1 B) and bytes, and owner
  keys, each enrolled by a Swifel-signed command (R379, R381). -/
  images : List (Nat × Nat × List (BitVec 8))
  owners : List (BitVec 512)
  /-- Fuses it has blown: minimum security versions, by image kind (R378, R379). -/
  fuses : List (Nat × Nat) := []
  deriving DecidableEq, Repr

/-- A flit as it arrives on a fibre (R393): header fields, body, its CRC and the numbers of the bits that were
received wrong (bit 8 × byte + bit). -/
structure Flit where
  seq : BitVec 12
  ack : BitVec 12
  type : BitVec 4
  kp : Bool
  reserved : BitVec 3
  body : BitVec 640
  crc : BitVec 32
  wrongBits : List Nat
  deriving DecidableEq, Repr

/-- A request at a home L2 over the fabric (R404): a packet this package sent, by its number, or an access
that another package makes to this package's memory. -/
inductive RemoteRequest where
  | posted (id : Nat)
  | load (peer : Nat) (pa : Nat) (len : Nat)
  | store (peer : Nat) (pa : Nat) (bytes : List (BitVec 8))
  | atomic (peer : Nat) (pa : Nat) (op : Nat) (wide : Bool) (operand : BitVec 64) (compare : BitVec 64)
  /-- A copy's write packet from another package: its header and data (R426). -/
  | copyWrite (packet : List (BitVec 8))
  deriving DecidableEq, Repr

/-- What a member's engine sends for a collective: its contribution (R419, R420), whether it leaves at the boundary after it or, with
nothing queued, at the one before it (R417), or, from a spare, the request to be admitted (R422). -/
structure Contribution where
  rank : Nat
  seq : Nat
  /-- Its descriptor as captured. -/
  desc : List (BitVec 64)
  leaves : Bool
  idle : Bool
  asksIn : Bool
  poisoned : Bool
  /-- Cause code of the member's own fault on its SRC or DST (R419, STATUS 4). -/
  fault : Option Nat
  bytes : List (BitVec 8)
  deriving DecidableEq, Repr

/-- What the lowest live rank decides of a collective and sends to every member (R419): the sequence number, the status and cause code,
the ranks excluded and, of them, those removed, the members that leave and the spares admitted at the boundary after it, and the
pieces of the member's result, none for one to be poisoned. -/
structure CollDecision where
  seq : Nat
  ggen : Nat
  status : Nat
  cause : Nat
  excluded : List Nat
  removed : List Nat
  leavers : List Nat
  spares : List Nat
  pieces : List (Option (List (BitVec 8)))
  deriving DecidableEq, Repr

/-- Where an uncorrectable error of a core lies (R150). -/
inductive BadPlace where
  | stack (ctx : Nat)
  | vector (ctx : Nat)
  | masks (ctx : Nat)
  | context (ctx : Nat)
  | localStore (word : Nat)
  /-- A dirty L1 byte that has no other copy, by its key. -/
  | dirty (key : Nat)
  deriving DecidableEq, Repr

/-- An event with its parameters, one constructor per event row of the opcode table. -/
inductive Event where
  /-- A comparison that is due; or an error in the secondary core, as the bits that it has inverted in its fingerprint (R147). -/
  | pairComparison (core : Nat) (ctx : Nat) (error : BitVec 64)
  | migrationMessageArrival (core : Nat) (ctx : Nat)
  | migrationResend (core : Nat) (ctx : Nat)
  | arrivalContextGrant (core : Nat)
  | activeMessageArrival (core : Nat)
  | amsgReply (core : Nat) (ctx : Nat) (code : Nat)
  /-- With the core and the gang of the issuer. -/
  | decArrival (core : Nat) (slot : Nat) (amount : Nat) (sender : Nat) (gang : Nat)
  | taskSlotStart (core : Nat)
  | meshPortWordArrival (core : Nat) (dir : Nat) (word : BitVec 64)
  | queueElementArrival (core : Nat) (dir : Nat) (chan : Nat) (data : BitVec 4096) (ctl : Bool)
  | streamElementFetch (core : Nat) (ctx : Nat) (port : Nat)
  | streamElementWrite (core : Nat) (ctx : Nat) (port : Nat)
  | copyCompletion (core : Nat) (tag : Nat)
  | copyStop (core : Nat) (tag : Nat)
  | hartRestart (core : Nat)
  | matrixCommandTake (galley : Nat)
  | matrixCommandComplete (galley : Nat)
  | matrixResumableStop (galley : Nat)
  | preemption (cores : List Nat)
  | preemptionSaveComplete (core : Nat)
  | restore (image : Nat) (core : Nat)
  | retryResend (core : Nat)
  | heldStrandRelease (core : Nat) (ctx : Nat)
  | heldStrandEnd (core : Nat) (ctx : Nat)
  | l1Fill (core : Nat) (agent : Nat) (va : Nat) (key : Nat) (len : Nat)
  | ownershipGrant (core : Nat) (agent : Nat) (key : Nat) (bytes : List (BitVec 8))
  | forwardedRead (core : Nat) (key : Nat) (len : Nat) (reqCore : Nat) (reqAgent : Nat)
  | forwardedOwnership (core : Nat) (key : Nat) (len : Nat) (reqCore : Nat) (reqAgent : Nat)
  | recallRange (core : Nat) (key : Nat) (len : Nat) (dropRecords : Bool)
  | recordDeletion (core : Nat) (agent : Nat)
  | l1UncorrectableError (core : Nat) (key : Nat) (inTag : Bool)
  | directoryError (key : Nat) (len : Nat)
  | recallTimeout (key : Nat) (len : Nat)
  | translationWalk (core : Nat) (va : Nat)
  | leaseExpiry (core : Nat) (va : Nat)
  | patrolScrub (pa : Nat)
  | announcementWindowClose
  | announcementDelivery (die : Nat)
  | phaseStep (cell : Nat)
  | impressionPass (die : Nat)
  | blockRecomputation (die : Nat)
  | bar2Write (pa : Nat) (bytes : List (BitVec 8))
  | bar2Read (pa : Nat) (len : Nat)
  | hostWindowRequest (host : Nat) (write : Bool) (bytes : List (BitVec 8))
  | backInvalidation (host : Nat)
  | launchRingEntry (ring : Nat)
  | eventRingWrite
  | winbaseWrite (value : BitVec 64)
  | eqbaseWrite (value : BitVec 64)
  | eqsizeWrite (value : BitVec 64)
  | eqheadWrite (value : BitVec 64)
  | lqbaseWrite (ring : Nat) (value : BitVec 64)
  | lqsizeWrite (ring : Nat) (value : BitVec 64)
  | lqtailWrite (ring : Nat) (value : BitVec 64)
  | lqtenWrite (ring : Nat) (value : BitVec 64)
  | attnWrite (offset : Nat) (value : BitVec 64)
  | managementRegisterWrite (offset : Nat) (value : BitVec 64)
  | bindRecordCommit (die : Nat) (slot : Nat) (record : BitVec 512)
  | bindRecordEmpty (die : Nat) (slot : Nat)
  | boundsRecordWrite (index : Nat) (record : BitVec 64)
  | startUp (start : StartInput)
  | flitReceive (fibre : Nat) (flit : Flit)
  | frameReceive (fibre : Nat)
  | acknowledgement (fibre : Nat) (ack : Nat)
  | acknowledgementDue (fibre : Nat)
  | replayRequest (fibre : Nat) (seq : Nat)
  | replayTimeout (fibre : Nat)
  | restripe (fibre : Nat) (mask : BitVec 16) (seq : Nat)
  | hello (fibre : Nat) (gen : Nat) (peer : Nat) (ring : Nat)
  | quiesce (fibre : Nat)
  /-- Of the receive direction here, or of the far receiver of this package's transmit direction; so too of a training. -/
  | wavelengthThreshold (fibre : Nat) (transmit : Bool) (wave : Nat)
  | wavelengthTrained (fibre : Nat) (transmit : Bool) (wave : Nat) (ok : Bool)
  | lossOfLight (trunk : Nat) (group : Nat) (comb : Nat)
  | lightReturn (trunk : Nat) (group : Nat) (comb : Nat)
  | keyLoad (fibre : Nat) (receive : Bool) (key : BitVec 128)
  | downListWrite (peer : Nat) (down : Bool)
  | remoteRequest (request : RemoteRequest)
  | remoteResponse (id : Nat)
  | copyWritePacket (id : Nat)
  | copyWriteResponse (core : Nat) (tag : Nat) (id : Nat)
  | reconfDrainComplete
  | switchStatus (status : BitVec 8)
  | switchStatusTimeout
  | reconfTrainingComplete
  | reconfTimeout
  | groupActive (group : Nat)
  | joinTimeout (group : Nat) (rankLive : Bool)
  | collectiveContribution (group : Nat) (part : Contribution)
  | memberTimeout (group : Nat) (rank : Nat)
  /-- With the decision of the lowest live rank, where that is another member. -/
  | collectiveCompletion (group : Nat) (decision : Option CollDecision)
  | uncorrectableCoreError (core : Nat) (place : BadPlace)
  | hbmUncorrectableError (pa : Nat)
  | cxlCacheResponse (host : Nat) (exclusive : Bool)
  | fibrePinWrite (peerA : Nat) (peerB : Nat) (trunk : Nat) (fibre : Nat) (pinned : Bool)
  | wavelengthThresholdWrite (value : Nat)
  deriving DecidableEq, Repr

end Sys2Proof.Machine
end

