-- ==== Sys2Proof/Machine/State.lean ====
section
/-! DEFINITION. The state of the machine: every piece of state the spec gives the D40, as plain data, and the
state right after reset. Each field's rule stands beside it; fields marked MODEL are the model's own (DESIGN CHOICE, log entry 4).
Where a table is sparse, an absent key reads as the entry's reset value. -/

namespace Sys2Proof.Machine

/-- Memory: address and byte, addresses rising, no zero byte listed (DESIGN CHOICE, log entry 1). The keys are: the own package's
physical addresses (HBM below 2^39, host memory at 2^51 + h, R349); (p + 1) × 2^52 + PA for the memory of peer p
(R404); 2^72 + core × 2^19 + offset for local stores (R134). -/
abbrev Memory := List Host.Cell

/-- A trap or recorded fault: cause code and DETAIL of R72, the WR bit and EVAL. -/
structure Trap where
  code : Nat
  detail : Nat := 0
  wr : Bool := false
  val : Word := 0
  deriving DecidableEq, Repr

/-- A run of checked bytes: its address as EVAL would hold it, its physical key, length, access mode (R340), and whether it lies in a
phase cell (R308). -/
structure Extent where
  va : Nat
  key : Nat
  len : Nat
  mode : Nat := 0
  cell : Bool := false
  deriving DecidableEq, Repr

/-! ### The strand context (R62, R123) -/

/-- The four states of a context (R124). -/
inductive CtxSt where
  | free | eligible | stalled | held
  deriving DecidableEq, Repr

/-- Which frame the trap window shows as g8 to g15 (R65, R73). -/
inductive TrapWin where
  | interrupted | spill | fill
  deriving DecidableEq, Repr

/-- What a pending lookahead write of R52 writes when it lands. -/
inductive Landing where
  | gpr (i : Nat) (v : Word)
  | areg (i : Nat) (v : Word)
  | vreg (i : Nat) (v : Vec)
  /-- An element for the stream or queue to which v24 + k was bound when its instruction executed, in an interval and at a tick. -/
  | append (k : Nat) (v : Vec) (stamp : Nat × Nat)
  | amax (mag : Nat) (nan : Bool)
  | send (dir : Nat) (v : Word)
  deriving DecidableEq, Repr

/-- A pending lookahead write: the boundaries left before it lands (R52). -/
structure Pending where
  left : Nat
  land : Landing
  deriving DecidableEq, Repr

/-- A bound stream (R128, R182, R183): its descriptor, the index of the oldest element not taken (read) or the
number appended (write), the number fetched or written, the elements present, a fault met, whether the
end-of-stream element was taken, and the intervals and ticks at which the strand issued the SBIND and appended the elements present
(R184). -/
structure Stream where
  write : Bool
  mark : Bool
  base : Word
  step0 : Word
  step1 : Word
  len0 : Nat
  len1 : Nat
  next : Nat := 0
  moved : Nat := 0
  buf : List Vec := []
  fault : Option Trap := none
  ended : Bool := false
  interval : Nat := 0
  issued : Nat := 0
  stamps : List (Nat × Nat) := []
  deriving DecidableEq, Repr

/-- What v24 + k is: a plain register, a stream or a queue of a direction and a channel (R128). -/
inductive Port where
  | plain
  | stream (s : Stream)
  | queue (dir : Nat) (chan : Nat)
  deriving DecidableEq, Repr

/-- A pending matrix or pattern fault (R262, R283); a resumable stop carries the RPROG its trap writes. -/
structure MFault where
  trap : Trap
  rprog : Option Word
  deriving DecidableEq, Repr

/-- The registers and state registers of a strand: what a pair's checkpoint restores (R62, R123, R147). -/
structure Regs where
  /-- R62. -/
  pc : Word
  /-- Physical entries of the register stack; frame j occupies 8 × (j mod CAP) (R63). -/
  rf : Vector Word 64
  /-- Links of the resident frames, by slot (R63). -/
  links : Vector Word 8
  /-- Trap bank g0 to g7 (R73). -/
  tbank : Vector Word 8
  /-- a0 to a7 (R67). -/
  areg : Vector Word 8
  /-- STATUS.DEPTH, RES, CAP, PRIO, VA, ARV, TRAP, LH, PAIR (R70). -/
  depth : Nat
  res : Nat
  cap : Nat
  prio : Nat
  va : Nat
  arv : Bool
  trap : Bool
  lh : Bool
  pairBit : Bool
  /-- The frame the trap window shows (R65). -/
  twin : TrapWin
  /-- R68. -/
  awc : Word
  /-- R71. -/
  epc : Word
  ecause : Word
  eval : Word
  /-- R31. -/
  amax : Word
  /-- R126. -/
  vtype : Word
  /-- R405. -/
  tgen : Word
  /-- R263. -/
  rprog : Word
  /-- Light-handler shadow (R131). -/
  lpc : Word
  lcv : Word
  /-- v0 to v31 and m0 to m7 (R125). -/
  vregs : Vector Vec 32
  masks : Vector Mask 8
  /-- CNT0 to CNT15 (R141). -/
  cnt : Vector Word 16
  /-- Pending lookahead writes, in program order (R52). -/
  pend : List Pending
  deriving DecidableEq, Repr

/-- The two roles in a registration pair (R146, R147). -/
structure PairRole where
  primary : Bool
  /-- The other core and context. -/
  core : Nat
  ctx : Nat
  dir : Nat
  /-- The last checkpoint, the ports as they stood there, and its tick: elements appended since are held stores (R147, R184). -/
  checkpoint : Regs
  ports : Vector Port 8
  since : Nat
  /-- The pair write log: extent and bytes of each held store, oldest first. -/
  log : List (Extent × List Byte)
  /-- Stores in the log, at most 512. -/
  stores : Nat
  /-- The 64-bit fingerprint of this core. -/
  fingerprint : BitVec 64
  /-- Retired instructions since the last comparison. -/
  retired : Nat
  /-- Disagreements at this checkpoint (R148). -/
  failed : Nat
  deriving DecidableEq, Repr

/-- A migration message (R80), with what R81 and R83 need to deliver it. -/
structure MigMsg where
  window : Vector Word 16
  pc : Word
  status : Word
  link : Word
  tbank0 : Word
  tenant : Nat
  /-- The trap base of the record under which the strand was launched (R73). -/
  tbase : Word
  /-- Source core and context, freed when the message is accepted. -/
  srcCore : Nat
  srcCtx : Nat
  dest : Nat
  deriving DecidableEq, Repr

/-- What a stalled instruction has already sent and waits for. -/
inductive Wait where
  | none
  /-- An AMSG waits for its reply; then holds it (R320). -/
  | amsg (reply : Option Nat)
  /-- A sequentially consistent operation is announced; then holds its result (R301, R302). -/
  | sc (result : Option Word)
  /-- A phase operation waits for its home's step; then holds its result (R310). -/
  | phase (result : Option Word)
  /-- Remote loads or an atomic wait for responses: packet numbers and the bytes returned (R404). -/
  | remote (ids : List Nat) (got : List Host.Cell)
  /-- A barrier has opened (R117). -/
  | passed
  /-- An MWAIT is past its first step (R257). -/
  | matrix
  /-- A migrating strand whose message was refused (R83). -/
  | migration (m : MigMsg)
  deriving DecidableEq, Repr

/-- The barrier a strand has arrived at (R117). -/
inductive Arrival where
  | none | team | gang
  deriving DecidableEq, Repr

/-- A strand context: registers and the control state the core keeps with them. -/
structure Ctx extends Regs where
  st : CtxSt
  /-- Tenant under which the strand was launched (R313). -/
  tenant : Nat
  /-- The bind record (die × 64 + slot) of its gang, its trap base (R73, R316). -/
  gang : Nat
  tbase : Word
  /-- Team number (R317). -/
  team : Nat
  /-- Number of the current synchronisation interval (R84). -/
  interval : Nat
  /-- q0 to q7 (R128). -/
  ports : Vector Port 8
  /-- ROW0, MROWS, AK0, WK0, WN0, DROW0, DCOL0, INJ (R254). -/
  mset : Vector Word 8
  /-- Redundant-mode flag (R256). -/
  mred : Bool
  /-- Pending matrix and pattern faults, oldest first (R262). -/
  mfaults : List MFault
  /-- Lowest lost byte of posted remote writes (R408). -/
  lost : Option Word
  arrived : Arrival
  /-- CNT0 to CNT15 at its arrival at the gang's barrier (R328). -/
  barCnt : Vector Word 16
  /-- An implicit release has yet to perform its announced store (R300). -/
  releaseDue : Bool
  pair : Option PairRole
  wait : Wait
  /-- A stale read of the instruction under way has been counted in CNT5 (R370). -/
  staleCounted : Bool
  /-- The element extents on pages of mode 11 that the instruction under way has accessed: they count when it completes (R79, R342). -/
  touched : List (List Extent)
  /-- The destination core of an automatic migration due after the instruction (R79, R342). -/
  hot : Option Nat
  /-- A BMOV has moved bytes and is not done: a migration that has come due waits for its end (R79, R80, R111). -/
  midway : Bool
  /-- MODEL: words and elements that a waiting instruction has taken from ports, by specifier code, or 64 + register
  (DESIGN CHOICE, log entry 4). -/
  operands : List (Nat × Vec)
  /-- MODEL: the places of those in the order in which they were sent (DESIGN CHOICE, log entry 4). -/
  draws : List (Nat × Nat)
  deriving DecidableEq, Repr

/-- Registers at their reset values: R63, R68, R70, R71, R31, R126, R133, R141, R263; DESIGN CHOICE, log entry 2 for the rest. -/
def Regs.reset : Regs where
  pc := 0
  rf := Vector.replicate 64 0
  links := Vector.replicate 8 0
  tbank := Vector.replicate 8 0
  areg := Vector.replicate 8 0
  depth := 0
  res := 2
  cap := 8
  prio := 0
  va := 0
  arv := false
  trap := false
  lh := false
  pairBit := false
  twin := .interrupted
  -- XW 64 at [24:18], BLK 19 at [4:0]
  awc := 0x1000013
  epc := 0
  ecause := 0
  eval := 0
  amax := 0
  vtype := 0x12
  tgen := 0
  rprog := 0
  lpc := 0
  lcv := 0
  vregs := Vector.replicate 32 0
  masks := Vector.replicate 8 0
  cnt := Vector.replicate 16 0
  pend := []

/-- A free context. -/
def Ctx.reset : Ctx where
  toRegs := .reset
  st := .free
  tenant := 0
  gang := 0
  tbase := 0
  team := 0
  interval := 0
  ports := Vector.replicate 8 .plain
  mset := Vector.replicate 8 0
  mred := false
  mfaults := []
  lost := none
  arrived := .none
  barCnt := Vector.replicate 16 0
  releaseDue := false
  pair := none
  wait := .none
  staleCounted := false
  touched := []
  hot := none
  midway := false
  operands := []
  draws := []

/-! ### The core (R123) -/

/-- An access record of an L1 entry: R or W of an agent index 0 to 8, in an interval of that agent (R191, R204). -/
structure Rec where
  agent : Nat
  write : Bool
  interval : Nat
  deriving DecidableEq, Repr

/-- Entry states (R192). -/
inductive LineSt where
  | s | e | m
  deriving DecidableEq, Repr

/-- An L1 entry (R191). PEER, REG and START are the parts of its first byte's key; DATA is held once, in memory
or, for pages of mode 10, in the core's own copy (DEDUCED, log entry 6). -/
structure L1Entry where
  key : Nat
  len : Nat
  st : LineSt
  psn : Bool
  recs : List Rec
  busy : Bool
  deriving DecidableEq, Repr

/-- A cached translation (R340, R342, R343). -/
structure TlbEntry where
  tenant : Nat
  va : Nat
  size : Nat
  pte : Word
  expires : Nat
  count : Nat
  deriving DecidableEq, Repr

/-- A task slot (R139, R324). -/
structure Task where
  counter : Nat
  prio : Nat
  pc : Word
  arg0 : Word
  arg1 : Word
  team : Nat
  /-- Its place among the ready slots once ready. -/
  ready : Option Nat
  deriving DecidableEq, Repr

/-- The record kept of a copy under its tag (R216 to R219). -/
structure Copy where
  /-- 0 CPY, 1 CPY.G, 2 CPY.S. -/
  form : Nat
  /-- Linear: source, destination, length; otherwise the descriptor's eight words. -/
  desc : List Word
  done : Nat
  /-- Tenant, team, context and topology generation of the issuing strand (R216). -/
  tenant : Nat
  team : Nat
  ctx : Nat
  gen : Word
  /-- The generation recorded at issue, which its packets carry; gen is that of its latest resumption (R216, R219, R426). -/
  issued : Word
  /-- A stale read has been counted in CNT5 of the issuing strand (R370). -/
  counted : Bool
  started : Bool
  fault : Option Trap
  raised : Bool
  /-- Its interval of agent 8 (R217). -/
  interval : Nat
  /-- A byte lay on another package or in host memory (R217). -/
  far : Bool
  /-- Abandoned: its tag's bit is set once the release that states it can complete (R217, R228). -/
  abandoned : Bool
  /-- Write packets sent, those in flight (R426), and the lowest lost byte (R408). -/
  packets : Nat
  flying : List Nat
  lost : Option Word
  deriving DecidableEq, Repr

/-- An item of the hart's request queue (R214), with its queue slot; an index-line event holds the bytes as filled (R230). -/
inductive QItem where
  | copy (slot : Nat) (tag : Nat)
  | line (slot : Nat) (kernel : Nat) (first : Word) (len : Word) (bytes : List Byte)
  | kick (slot : Nat) (word : Word)
  deriving DecidableEq, Repr

/-- An index-line kernel slot (R229). -/
structure Kernel where
  wbase : Word
  wlen : Nat
  wide : Bool
  shift : Nat
  tlen : Nat
  tbase : Word
  deriving DecidableEq, Repr

/-- A pattern binding (R280). -/
structure Binding where
  transposed : Bool
  fent : Nat
  ient : Nat
  ks : Nat
  ns : Nat
  vstr : Nat
  kt : Nat
  params : Vector (BitVec 32) 8
  itab : Word
  pid : BitVec 32
  deriving DecidableEq, Repr

/-- A weight tile (R236, R248): element codes by k × 128 + j, those listed that are not 0; scale codes by b × 128 + j,
those listed that are not 0x78. A P code has kpl bits. -/
structure WSlot where
  fmt : Nat
  kpl : Nat
  kt : Nat
  vals : Sparse Nat
  scales : Sparse Nat
  deriving DecidableEq, Repr

/-- A queued matrix command with what it captured at issue (R237). -/
structure MCmd where
  id : Nat
  /-- 0 MWLD, 1 MTILE, 2 MDRAIN, 8 MCLR. -/
  fn : Nat
  acc : Nat
  recNo : Nat
  /-- The issuing context; 9 once its strand has ended. -/
  ctx : Nat
  tenant : Nat
  team : Nat
  gen : Word
  params : Vector Word 8
  redundant : Bool
  shape : List Word
  lay : Nat
  binding : Option Binding
  inj : Word
  /-- The P format that stood at its issue, of a command that has captured INJ (R261). -/
  fmt : Option Nat
  rank : Nat
  /-- Rows completed (R263), and the weight rows read into staging (R265). -/
  row : Nat
  stage : Option WSlot
  held : Bool
  /-- A stale read has been counted in CNT5 of the issuing strand (R370). -/
  counted : Bool
  /-- Blocks of the weight tile whose codes under a scale of 0x00 it has counted in CNT2 (R36). -/
  zeros : List Nat
  /-- Its interval (R268). -/
  interval : Nat
  /-- Task slot of its DEC (R269). -/
  dec : Option Nat
  deriving DecidableEq, Repr

/-- An accumulator name's binding: its physical tiles and the context that claimed it (R246, R266). -/
structure AccBind where
  tile : Nat
  second : Option Nat
  claimer : Nat
  deriving DecidableEq, Repr

/-- A waiting active message: HDR, PC, ARG0, ARG1, its shape records, its sender's tenant, core and context (R319, R320). -/
structure AMsg where
  msg : List Word
  recs : List Byte
  tenant : Nat
  sender : Nat × Nat
  deriving DecidableEq, Repr

/-- A core. Contexts are numbered 0 to 7; the hart is a context of CAP 4 (R211). -/
structure Core where
  ctxs : Vector Ctx 8
  hart : Ctx
  hartStopped : Bool
  /-- The hart's request queue, and the taken requests not yet started: handle slot and tag (R214). -/
  queue : List QItem
  taken : List (Nat × Nat)
  /-- Mesh-port FIFOs, by the direction 0 north, 1 east, 2 south, 3 west they come from (R138). -/
  fifo : Vector (List Word) 4
  /-- Inbound queue channels, direction × 4 + channel: element and control bit (R128, R129). -/
  chan : Vector (List (Vec × Bool)) 16
  /-- MODEL: words and elements taken from FIFOs and channels so far, and, for each FIFO (0 to 3) and channel (4 + its number), the places
  in the order of sending of those at its head that were given back (R54, R128, R138; DESIGN CHOICE, log entry 4). -/
  drawn : Nat
  returned : Vector (List Nat) 20
  tasks : Vector (Option Task) 32
  ctag : Word
  copies : Vector (Option Copy) 64
  kernels : Vector (Option Kernel) 4
  mq : List MCmd
  wslot : Option WSlot
  /-- Format of the record of the latest MWLD issued since the core was bound (R261). -/
  lastFmt : Option Nat
  impo : Vector Word 64
  acc : Vector (Option AccBind) 4
  pbind : Vector (Option Binding) 32
  arrivals : List MigMsg
  amsgs : List AMsg
  /-- The L1, most recently used first (R191, R200). -/
  l1 : List L1Entry
  /-- Bytes of pages of mode 10 held by the L1 (R404). -/
  remote : Memory
  tlb : List TlbEntry
  skip : Vector Nat 8
  /-- The context that issued last (R142). -/
  lastIssue : Nat
  cap : Nat
  dead : Bool
  evicted : Bool
  /-- The evicted core's image has been streamed out (R331). -/
  saved : Bool
  /-- An SC operation of the core is announced in the open window (R301). -/
  announced : Bool
  /-- Uncorrectable errors not yet consumed (R150). -/
  bad : List BadPlace
  /-- A bad byte has been consumed in this step, at whose end the core dies (R150). -/
  doomed : Bool
  deriving DecidableEq, Repr

/-- A core at reset. -/
def Core.reset : Core where
  ctxs := Vector.replicate 8 .reset
  hart := { Ctx.reset with cap := 4 }
  hartStopped := true
  queue := []
  taken := []
  fifo := Vector.replicate 4 []
  chan := Vector.replicate 16 []
  drawn := 0
  returned := Vector.replicate 20 []
  tasks := Vector.replicate 32 none
  ctag := BitVec.allOnes 64
  copies := Vector.replicate 64 none
  kernels := Vector.replicate 4 none
  mq := []
  wslot := none
  lastFmt := none
  impo := Vector.replicate 64 0
  acc := Vector.replicate 4 none
  pbind := Vector.replicate 32 none
  arrivals := []
  amsgs := []
  l1 := []
  remote := []
  tlb := []
  skip := Vector.replicate 8 0
  lastIssue := 7
  cap := 8
  dead := false
  evicted := false
  saved := false
  announced := false
  bad := []
  doomed := false

/-! ### The galley (R235, R236, R271) -/

/-- A physical accumulator tile: F32 codes by i × 128 + j, the column differences of its last close in units of 2^−300, and BAD (R246,
R260). -/
structure Tile where
  vals : Sparse Nat
  residues : Sparse Int
  bad : Bool
  deriving DecidableEq, Repr

/-- A pattern index generator (R271, R274): its registers, word index, step count, the column it works on, the
last yield and the number of yields. -/
structure Gen where
  k : Vector (BitVec 32) 16
  pc : Int
  lastWord : Nat
  steps : Nat
  col : Nat
  running : Bool
  last : Int
  count : Nat
  deriving DecidableEq, Repr

/-- The command being executed (R238): its core, what its pattern runs have yielded (column, index, rank), the
columns whose runs are complete, and those whose runs have faulted (R283). -/
structure Running where
  core : Nat
  yields : List (Nat × Nat × Nat)
  columns : List Nat
  faults : List (Nat × Trap)
  deriving DecidableEq, Repr

/-- A galley. -/
structure Galley where
  tiles : Vector (Option Tile) 4
  /-- The arbiter's position: core c and count n (R238). -/
  arbCore : Nat
  arbCount : Nat
  /-- In some cycle since the last command was taken no queue was ready: the arbiter cycles (R238). -/
  arbIdle : Bool
  running : Option Running
  /-- The core whose weights the array last held (R270). -/
  arrayCore : Option Nat
  /-- Program store, partition × 128 + word (R271). -/
  pstore : Sparse (BitVec 32)
  gens : Vector Gen 2
  /-- The matrix unit's translation cache (R342). -/
  tlb : List TlbEntry
  deriving DecidableEq, Repr

/-- A generator that has run nothing. -/
def Gen.reset : Gen where
  k := Vector.replicate 16 0
  pc := 0
  lastWord := 0
  steps := 0
  col := 0
  running := false
  last := -1
  count := 0

/-- A galley at reset. -/
def Galley.reset : Galley where
  tiles := Vector.replicate 4 none
  arbCore := 0
  arbCount := 0
  arbIdle := true
  running := none
  arrayCore := none
  pstore := []
  gens := Vector.replicate 2 .reset
  tlb := []

/-! ### Teams, gangs, impressions -/

/-- A team: its core, HSET, allocation and launch record (R132, R317, R320). -/
structure Team where
  core : Nat
  gang : Nat
  hset : Word
  va : Nat
  /-- Its launch record: active message and shape records. -/
  launch : Option (List Word × List Byte)
  live : Bool
  /-- Lost with its core, it waits for a core with room (R152). -/
  waiting : Bool
  deriving DecidableEq, Repr

/-- What hardware keeps of a bind record and its gang (R313, R316, R317, R328). -/
structure Bind where
  record : BitVec 512
  /-- A gang is live. -/
  live : Bool
  failed : Bool
  /-- Gangs completed since the record was committed. -/
  completed : Nat
  /-- GSTAT sums, and the counters gathered since the last completed barrier. -/
  gstat : Vector Nat 16
  gather : Vector Nat 16
  deriving DecidableEq, Repr

/-- States of a block (R366). -/
inductive BlockSt where
  | fresh | pending | publishing | poisoned
  deriving DecidableEq, Repr

/-- A registered impression (R364 to R371). Blocks not listed are PENDING with tag 0. -/
structure Impression where
  desc : List Word
  tenant : Nat
  /-- The bind record whose tables translate it. -/
  gang : Nat
  policy : Nat
  blocks : Sparse (BlockSt × Nat)
  faulted : Option (Nat × Word)
  stale : Bool
  nan : Bool
  sat : Bool
  amax : Word
  master : List Extent
  codes : List Extent
  scales : List Extent
  deriving DecidableEq, Repr

/-! ### The package and the fabric -/

/-- A record of the home L2 record store (R205, R337): agent index 0 to 8 of a core, or 9 for a matrix command of
that core. -/
structure HomeRec where
  key : Nat
  len : Nat
  core : Nat
  access : Rec
  deriving DecidableEq, Repr

/-- An L2 range directory entry (R335): the galleys of the package that hold the range (GSH of the home die, and the GSH of its
proxies on the dies of DSH), and the owner. -/
structure DirEntry where
  key : Nat
  len : Nat
  sharers : List Nat
  owner : Option Nat
  deriving DecidableEq, Repr

/-- Event records sent to an overseer core (R75, R149, R212, R266, R317, R325, R338, R342, R371). -/
inductive Notice where
  | doubleTrap (core ctx : Nat) (t : Trap)
  | pairFailed (core ctx : Nat)
  | halted (core ctx : Nat) (pc : Word)
  | hartFault (core : Nat) (code : Nat) (pc : Word) (val : Word)
  | coreKilled (core : Nat)
  | exitDiscards (core ctx : Nat) (t : Option Trap)
  | copyAbandoned (core tag : Nat) (code : Nat)
  | recordFault (gang : Nat) (t : Trap)
  | decDiscarded (core slot : Nat) (sender : Nat)
  | hotPage (core : Nat) (va : Nat)
  | memoryError (pa : Nat) (kind : Nat)
  | impressionFaulted (handle : Nat) (code : Nat) (val : Word)
  | teamLost (team : Nat)
  | restoreRefused (core : Nat)
  | fabric (bytes : List Byte)
  deriving DecidableEq, Repr

/-- An SC operation announced or held (R301, R302). -/
structure ScOp where
  core : Nat
  ctx : Nat
  window : Nat
  key : Nat
  /-- 0 LD.SC, 1 ST.SC, 2 an atomic. -/
  kind : Nat
  op : Nat
  wide : Bool
  operand : Word
  compare : Word
  deriving DecidableEq, Repr

/-- A phase operation waiting at its home (R310). -/
structure PhaseOp where
  core : Nat
  ctx : Nat
  cell : Nat
  swap : Bool
  operand : Word
  deriving DecidableEq, Repr

/-- What a packet to another package does there (R404, R411, R426). -/
inductive PacketKind where
  | store
  /-- A copy of ST.REP, with its group (R412). -/
  | rep (group : Nat)
  /-- A copy's write, with its tag and index (R426). -/
  | copy (tag : Nat) (index : Nat)
  | load
  | atomic (op : Nat) (wide : Bool) (operand : Word) (compare : Word)
  deriving DecidableEq, Repr

/-- An outstanding remote packet (R404, R409). -/
structure Packet where
  id : Nat
  core : Nat
  agent : Nat
  key : Nat
  va : Word
  bytes : List Byte
  len : Nat
  kind : PacketKind
  performed : Bool
  deriving DecidableEq, Repr

/-- A held flit of a fibre's replay window, as it was sent, with the number of its packet (R393, R397). -/
structure SentFlit where
  seq : Nat
  ack : Nat
  type : Nat
  kp : Bool
  body : BitVec 640
  packet : Nat
  deriving DecidableEq, Repr

/-- A flit received of the open frame: its header word, key phase, type, sequence number and body. -/
structure RxFlit where
  header : BitVec 32
  kp : Bool
  type : Nat
  seq : Nat
  body : BitVec 640
  deriving DecidableEq, Repr

/-- A flit sent (R394, R427): its type, its SEQ — for a control flit the one that the next held flit will take — its ACK and KP, and
bytes 0 to 63 of a control flit's body as a number; a flit of a replay is the held one of its SEQ, and has 0 here. -/
structure SentNote where
  type : Nat
  seq : Nat
  ack : Nat
  kp : Bool
  param : Nat
  deriving DecidableEq, Repr

/-- A packet that leaves on a fibre, kept until its last flit is acknowledged: its number there, the peer it comes from and the one it goes to,
its place among all that this package sends, the type of its first flit, and its bytes (R391, R394, R395). -/
structure TxPacket where
  num : Nat
  source : Nat
  peer : Nat
  born : Nat
  head : Nat
  bytes : List Byte
  deriving DecidableEq, Repr

/-- A key of a phase: the one that start-up gives a fibre and direction, or one loaded since (R402). -/
inductive LinkKey where
  | initial
  | loaded (key : BitVec 128)
  deriving DecidableEq, Repr

/-- One fibre (R392 to R402): transmit and receive sides. -/
structure Fibre where
  up : Bool
  /-- Active wavelength masks (R395). -/
  txMask : BitVec 16
  rxMask : BitVec 16
  /-- The receive mask of a restripe flit, and the SEQ from which it holds (R394, R399). -/
  nextMask : Option (Nat × BitVec 16)
  /-- Transmit: next SEQ, unacknowledged flits, frames of the packets that wait for the window and credits, the first SEQ of a replay
  in progress and the one after its last (R397, R398, R428). -/
  nextSeq : Nat
  held : List SentFlit
  waiting : List (Nat × List (Nat × BitVec 640))
  replaying : Option (Nat × Nat)
  /-- Packets not wholly acknowledged, and the number of the next. -/
  sending : List TxPacket
  packetNo : Nat
  /-- Flits of the request, forward and response class that the far end has room for, and those whose room here is to be given back
  (R398). -/
  credits : Vector Nat 3
  owed : Vector Nat 3
  /-- Receive: next SEQ expected, whether a replay request for the present gap has been sent, whether an ACK is owed. -/
  expected : Nat
  gapAsked : Bool
  ackDue : Bool
  /-- Keys by phase, the transmit phase, whether the other key is to be adopted, and frames under the key (R401, R402). -/
  txKeys : Vector (Option LinkKey) 2
  rxKeys : Vector (Option LinkKey) 2
  phase : Bool
  rotate : Bool
  frames : Nat
  rxPhase : Bool
  rxFrames : Nat
  /-- No flit of the transmit key in use has been acknowledged, so the far end may hold the previous key; a receive key waits to be
  retired (R402). -/
  farOld : Bool
  rxOld : Bool
  /-- Flits received of the open frame, oldest first, and bodies delivered. -/
  frame : List RxFlit
  delivered : List (BitVec 640)
  /-- By class, source and destination of the packet that is arriving, while it is one for another package (R391). -/
  transit : Vector (Option (Nat × Nat)) 3
  /-- Corrected bits by wavelength, bits of the present window (R399). -/
  corrected : Vector Nat 16
  windowBits : Nat
  /-- Wavelengths out for training, and failed trainings, of the receive and of the transmit direction (R399, R400). -/
  rxOut : List Nat
  txOut : List Nat
  trainings : Vector Nat 16
  txTrainings : Vector Nat 16
  /-- Control flits and flits of replays sent, oldest first. -/
  sent : List SentNote
  /-- Quiesce received, hello received (R414). -/
  quiesced : Bool
  hello : Option (Nat × Nat × Nat)
  deriving DecidableEq, Repr

/-- A fibre at reset (DESIGN CHOICE, log entry 3). -/
def Fibre.reset : Fibre where
  up := true
  txMask := BitVec.allOnes 16
  rxMask := BitVec.allOnes 16
  nextMask := none
  nextSeq := 0
  held := []
  waiting := []
  replaying := none
  sending := []
  packetNo := 0
  credits := Vector.replicate 3 4096
  owed := Vector.replicate 3 0
  expected := 0
  gapAsked := false
  ackDue := false
  txKeys := #v[some .initial, none]
  rxKeys := #v[some .initial, none]
  phase := false
  rotate := false
  frames := 0
  rxPhase := false
  rxFrames := 0
  farOld := false
  rxOld := false
  frame := []
  delivered := []
  transit := Vector.replicate 3 none
  corrected := Vector.replicate 16 0
  windowBits := 0
  rxOut := []
  txOut := []
  trainings := Vector.replicate 16 0
  txTrainings := Vector.replicate 16 0
  sent := []
  quiesced := false
  hello := none

/-- Where a RECONF stands (R414). -/
inductive ReconfPhase where
  | drain | switch | train
  deriving DecidableEq, Repr

/-- A RECONF in progress (R413, R414). -/
structure Reconf where
  gen : Nat
  dim : Nat
  ring : Nat
  mbox : List Extent
  swcmd : BitVec 256
  phase : ReconfPhase
  deriving DecidableEq, Repr

/-- A queued collective (R418). -/
structure Coll where
  desc : List Word
  seq : Nat
  core : Nat
  tenant : Nat
  deriving DecidableEq, Repr

/-- A collective group (R415 to R422). -/
structure Group where
  gid : Word
  tenant : Nat
  members : Nat
  rank : Nat
  /-- Peer numbers by rank. -/
  roster : List Nat
  /-- Key of AREA, and the bytes of MBOX. -/
  area : Nat
  mbox : List Extent
  tmo : Nat
  spare : Bool
  active : Bool
  /-- Live ranks, rising (MASK). -/
  mask : List Nat
  head : Nat
  /-- The boundary from which this member takes part (R422). -/
  since : Nat
  ggen : Nat
  leaving : Bool
  queue : List Coll
  /-- Contributions of other members that have arrived at the lowest live rank (R419). -/
  parts : List Contribution
  /-- The collective and the leader to which this member's contribution has been sent (R419). -/
  given : Option (Nat × Nat)
  /-- Ranks removed during the collective at the head (R420). -/
  removed : List Nat
  /-- The interval of the collective engine's accesses for the collective at the head (R307). -/
  interval : Nat
  /-- The decision of another leader on the collective at the head, while the engine waits to write its result (R370, R419). -/
  decision : Option CollDecision
  /-- Ranks of other members that leave, with the first collective without them, and of spares that ask to be admitted at the next
  boundary (R417, R422). -/
  leavers : List (Nat × Nat)
  spares : List Nat
  deriving DecidableEq, Repr

/-- What the collective engine has sent to another package: a contribution, a leave or a decision (R417, R419). -/
structure CollMsg where
  peer : Nat
  gid : Word
  part : Option Contribution
  decision : Option CollDecision
  deriving DecidableEq, Repr

/-- A management core (R378): whether it is in machine mode, its RV64IMAC program counter and registers x0 to x31, its private SRAM, and its
boot ROM of 64 KiB, by offset (DESIGN CHOICE, log entry 3). -/
structure MgmtCore where
  machine : Bool
  pc : Word
  x : Vector Word 32
  sram : Memory
  rom : Memory
  deriving DecidableEq, Repr

def MgmtCore.reset : MgmtCore where
  machine := true
  pc := 0
  x := Vector.replicate 32 0
  sram := []
  rom := []

/-- BAR0 registers (R353); rings k = 0 to 15 by index. -/
structure Bar0 where
  bootst : Word
  winbase : Word
  eqbase : Word
  eqsize : Word
  eqtail : Word
  eqhead : Word
  lqbase : Vector Word 16
  lqsize : Vector Word 16
  lqtail : Vector Word 16
  lqhead : Vector Word 16
  lqten : Vector Word 16
  nonce : Vector Word 4
  attaddr : Word
  idr : Word
  deriving DecidableEq, Repr

/-- A saved image of a pre-empted core (R331; DESIGN CHOICE, log entry 9): its bind record and gang rank, its state, the cells and full
words of its local store by offset, the tiles of its accumulator names, first and second, and its partition of the
program store. -/
structure Image where
  core : Nat
  gang : Nat
  rank : Nat
  saved : Core
  store : Memory
  full : List Nat
  tiles : List (Nat × Tile)
  tile2 : List (Nat × Tile)
  patterns : Sparse (BitVec 32)
  deriving DecidableEq, Repr

/-- A start-up step record (R381): outcome, consecutive failures, image in use. -/
structure StepRec where
  outcome : Nat
  failures : Nat
  image : Nat
  deriving DecidableEq, Repr

/-- The fabric side of the package (R389 to R415). -/
structure Fabric where
  present : Bool
  own : Nat
  sizes : Vector Nat 4
  rc : Nat
  rd : Nat
  cgen : Nat
  down : List Nat
  /-- Pairs for which a change of the down list has not yet taken effect: the peer, the first packet number after the change, and
  the list that still holds (R391). -/
  former : List ((Nat × Nat) × Nat × List Nat)
  /-- Dimensions (2 C, 3 D) whose trunks a failed RECONF left down. -/
  broken : List Nat
  reconf : Option Reconf
  fibres : Sparse Fibre
  /-- Pinned pairs: peers, trunk, fibre (R395). -/
  pins : List (Nat × Nat × Nat × Nat)
  threshold : Nat
  /-- Combs that are dark, trunk × 16 + group × 4 + comb. -/
  dark : List Nat
  packets : List Packet
  nextPacket : Nat
  groups : Sparse Group
  /-- Messages of the collective engine to other packages, oldest first (R419). -/
  messages : List CollMsg
  deriving DecidableEq, Repr

/-- Who takes a step. -/
inductive Agent where
  | strand (core ctx : Nat)
  | hart (core : Nat)
  | generator (galley gen : Nat)
  | hardware
  deriving DecidableEq, Repr

/-- The whole machine. -/
structure State where
  /-- Every byte of memory (R134, R349, R404). -/
  mem : Memory
  /-- Poisoned bytes, and 32-byte HBM sectors with an uncorrectable error not yet found (R207, R350). -/
  poison : List Nat
  badSectors : List Nat
  /-- Full bits that are 1, core × 65,536 + word (R134). -/
  full : List Nat
  cores : Sparse Core
  galleys : Sparse Galley
  /-- Slot table: die × 64 + slot (R313). -/
  binds : Sparse Bind
  bounds : Sparse (BitVec 64)
  teams : Sparse Team
  nextTeam : Nat
  /-- Numbers drawn for copies' intervals and matrix commands. -/
  nextId : Nat
  dir : List DirEntry
  /-- Ranges of the L2 slices, most recently used first, by slice (R334): E clean, M dirty; no records. -/
  l2 : Sparse (List L1Entry)
  records : List HomeRec
  /-- Host-message buffers of the four dies (R327). -/
  hostMsgs : Vector (List (List Byte)) 4
  notices : Vector (List Notice) 4
  impressions : Sparse Impression
  /-- The blocks left of the pass in progress on each die: handle and block (R368). -/
  passes : Vector (List (Nat × Nat)) 4
  /-- Window lines not in state N: line number, owned (R358). -/
  winLines : Sparse Bool
  cxl : List (Nat × Bool)
  /-- Release writes of hardware that wait for lines of the window, oldest first (R358). -/
  mailWrites : List (List Extent × List Byte)
  /-- Announcement span: die (true) or package (R302, R351). -/
  spanDie : Bool
  /-- SC operations announced and not yet performed, and phase operations at their homes. -/
  scOps : List ScOp
  phaseOps : List PhaseOp
  /-- Announcement windows closed (R301). -/
  windowsClosed : Nat
  bar0 : Bar0
  /-- Event records held on Finier die 0, at most 1,024, and those that their sources still hold, oldest first (R356, R357). -/
  eventHold : List (List Byte)
  eventWait : List (List Byte)
  /-- MSI-X messages sent to the host, by vector, oldest first (R352). -/
  msix : List Nat
  flash : Vector StepRec 9
  /-- The firmware images in the flash: kind, slot (0 A, 1 B), bytes; the owner keys enrolled (R379, R381). -/
  firmware : List (Nat × Nat × List Byte)
  ownerKeys : List (BitVec 512)
  /-- The fuses that the root monitor has blown since manufacture: minimum security versions by image kind (R378, R379). -/
  fuses : List (Nat × Nat)
  /-- The root monitor core and the four overseer cores (R378). -/
  monitor : MgmtCore
  overseers : Vector MgmtCore 4
  images : List Image
  fabric : Fabric
  /-- Cycles of the arithmetic clock (R4, R301). -/
  cycle : Nat
  /-- MODEL: the counter to which free values are applied (DESIGN CHOICE, log entry 4). -/
  tick : Nat
  /-- MODEL: the agent whose step it is (DESIGN CHOICE, log entry 4). -/
  cur : Agent
  /-- Requests that evicted cores have refused, held by their requesters, oldest first (R330). -/
  retries : List Event
  /-- MODEL: inputs from outside and hardware events in flight, oldest first (DESIGN CHOICE, log entry 4). -/
  queue : List Event
  deriving DecidableEq, Repr

/-- Why a step stops with a fault. -/
inductive Fault where
  /-- Raised by exec when the state names an agent that does not exist (a context number of 8 or more, a galley
  above 255). No run reaches such a state; stopping is safe. -/
  | noSuchAgent
  deriving DecidableEq, Repr

/-- Why an instruction has no meaning here. -/
inductive Refusal where
  /-- Raised by an arm of exec whose instruction has not been given its meaning; safe. -/
  | notModelled (mnemonic : String)
  deriving DecidableEq, Repr

/-- BAR0 at reset (R353). -/
def Bar0.reset : Bar0 where
  bootst := 0
  winbase := 0
  eqbase := 0
  eqsize := 0
  eqtail := 0
  eqhead := 0
  lqbase := Vector.replicate 16 0
  lqsize := Vector.replicate 16 0
  lqtail := Vector.replicate 16 0
  lqhead := Vector.replicate 16 0
  lqten := Vector.replicate 16 0
  nonce := Vector.replicate 4 0
  attaddr := 0
  idr := 0x55440040

/-- The fabric at reset: absent until start-up (R389, R390, DESIGN CHOICE, log entry 3). -/
def Fabric.reset : Fabric where
  present := false
  own := 0
  sizes := Vector.replicate 4 1
  rc := 1
  rd := 1
  cgen := 0
  down := []
  former := []
  broken := []
  reconf := none
  fibres := []
  pins := []
  threshold := 2 ^ 32
  dark := []
  packets := []
  nextPacket := 0
  groups := []
  messages := []

/-- The machine right after reset: nothing bound, nothing listed in memory, start-up not yet run (R381). -/
def State.reset : State where
  mem := []
  poison := []
  badSectors := []
  full := []
  cores := []
  galleys := []
  binds := []
  bounds := []
  teams := []
  nextTeam := 1
  nextId := 1
  dir := []
  l2 := []
  records := []
  hostMsgs := Vector.replicate 4 []
  notices := Vector.replicate 4 []
  impressions := []
  passes := Vector.replicate 4 []
  winLines := []
  cxl := []
  mailWrites := []
  spanDie := false
  scOps := []
  phaseOps := []
  windowsClosed := 0
  bar0 := .reset
  eventHold := []
  eventWait := []
  msix := []
  flash := Vector.replicate 9 { outcome := 0, failures := 0, image := 0 }
  firmware := []
  ownerKeys := []
  fuses := []
  monitor := .reset
  overseers := Vector.replicate 4 .reset
  images := []
  fabric := .reset
  cycle := 0
  tick := 0
  cur := .hardware
  retries := []
  queue := []

end Sys2Proof.Machine
end

