-- ==== Sys2Proof/Machine/Tables.lean ====
section
/-! DEFINITION. Helpers over plain data: bit fields, sign extension, byte order (R8), sparse tables, memory cells,
and the numbering of cores and galleys (R6). -/

namespace Sys2Proof.Machine

/-! ### Bits and bytes -/

/-- The n bits of w from bit lo, as a number. -/
def bitsAt (w : Word) (lo n : Nat) : Nat := w.toNat / 2 ^ lo % 2 ^ n

/-- A word of a number. -/
def word (n : Nat) : Word := BitVec.ofNat 64 n

/-- A word of an integer. -/
def wordI (n : Int) : Word := BitVec.ofInt 64 n

/-- The low w bits of x, sign-extended to 64 bits (R88). -/
def sext (x : Nat) (w : Nat) : Word := BitVec.ofInt 64 (if x % 2 ^ w < 2 ^ (w - 1) then ((x % 2 ^ w : Nat) : Int) else ((x % 2 ^ w : Nat) : Int) - 2 ^ w)

/-- A sign-extended immediate field. -/
def immInt {n : Nat} (i : BitVec n) : Int := i.toInt

/-- Bytes read as a number, least significant first (R8). -/
def leNat : List Byte → Nat
  | [] => 0
  | b :: t => b.toNat + 256 * leNat t

/-- The low n bytes of a number, least significant first (R8). -/
def leBytes : Nat → Nat → List Byte
  | 0, _ => []
  | n + 1, v => BitVec.ofNat 8 v :: leBytes n (v / 256)

/-- A field of little-endian record bytes: n bytes from offset o. -/
def recField (bs : List Byte) (o n : Nat) : Nat := leNat ((bs.drop o).take n)

/-- Bytes as 64-bit words. -/
def wordsOf (bs : List Byte) : Nat → List Word
  | 0 => []
  | n + 1 => word (recField bs 0 8) :: wordsOf (bs.drop 8) n

/-- Words as bytes. -/
def bytesOfWords (ws : List Word) : List Byte := ws.flatMap fun w => leBytes 8 w.toNat

/-- n bytes from offset o of a descriptor kept as words. -/
def descField (ws : List Word) (o n : Nat) : Nat := recField (bytesOfWords ws) o n

/-- A signed field of a descriptor kept as words. -/
def descInt (ws : List Word) (o n : Nat) : Int :=
  let v := descField ws o n
  if v < 2 ^ (8 * n - 1) then (v : Int) else (v : Int) - 2 ^ (8 * n)

/-- Indices of the bits of a number that are 1, below n. -/
def onesBelow (n v : Nat) : List Nat := (List.range n).filter fun i => v / 2 ^ i % 2 == 1

/-! ### Sparse tables -/

/-- The entry of a key, or the default. -/
def look {α : Type} (d : α) : Sparse α → Nat → α
  | [], _ => d
  | (k, v) :: t, n => if n = k then v else look d t n

/-- The table with a key's entry set, keys rising. -/
def put {α : Type} : Sparse α → Nat → α → Sparse α
  | [], n, v => [(n, v)]
  | (k, w) :: t, n, v => if n = k then (n, v) :: t else if n < k then (n, v) :: (k, w) :: t else (k, w) :: put t n v

/-- The table without a key. -/
def erase {α : Type} (m : Sparse α) (n : Nat) : Sparse α := m.filter fun e => e.1 != n

/-- The entry of a key, if listed. -/
def find {α : Type} : Sparse α → Nat → Option α
  | [], _ => none
  | (k, v) :: t, n => if n = k then some v else find t n

/-- The key is listed. -/
def listed {α : Type} (m : Sparse α) (n : Nat) : Bool := (find m n).isSome

/-- Entry i of a vector, or a default. -/
def vget {α : Type} {n : Nat} (d : α) (v : Vector α n) (i : Nat) : α := (v[i]?).getD d

/-- A vector with entry i set; a place outside changes nothing. -/
def vset {α : Type} {n : Nat} (v : Vector α n) (i : Nat) (x : α) : Vector α n := v.setIfInBounds i x

/-! ### Memory cells -/

/-- A byte of memory; an unlisted byte reads 0 (DESIGN CHOICE, log entry 1). -/
def memByte (m : Memory) (k : Nat) : Byte := look 0 m k

/-- Memory with one byte written, in the canonical form. -/
def memPut (m : Memory) (k : Nat) (b : Byte) : Memory := if b = 0 then erase m k else put m k b

/-- n bytes from a key. -/
def memRead (m : Memory) (k : Nat) : Nat → List Byte
  | 0 => []
  | n + 1 => memByte m k :: memRead m (k + 1) n

/-- Memory with bytes written from a key on. -/
def memWrite (m : Memory) (k : Nat) : List Byte → Memory
  | [] => m
  | b :: t => memWrite (memPut m k b) (k + 1) t

/-- Memory without the n bytes from a key (they read 0 again). -/
def memClear (m : Memory) (k n : Nat) : Memory := m.filter fun e => !(decide (k ≤ e.1) && decide (e.1 < k + n))

/-- The canonical form: keys rising and no zero byte listed. -/
def Memory.wf : Memory → Bool
  | [] => true
  | (k, b) :: t => b != 0 && t.all (fun e => decide (k < e.1)) && Memory.wf t

/-! ### The key space -/

/-- The key of physical address pa of peer p, or of the own package. -/
def peerKey (own p pa : Nat) : Nat := if p = own then pa else (p + 1) * 2 ^ 52 + pa

/-- The first key of a core's local store. -/
def storeKey (core off : Nat) : Nat := 2 ^ 72 + core * 2 ^ 19 + off

/-- Host memory of the own package's host (R349). -/
def isHost (k : Nat) : Bool := decide (2 ^ 51 ≤ k) && decide (k < 2 ^ 52)

/-- Package HBM. -/
def isHbm (k : Nat) : Bool := decide (k < 2 ^ 39)

/-- Memory of another package. -/
def isPeer (k : Nat) : Bool := decide (2 ^ 52 ≤ k) && decide (k < 2 ^ 72)

/-- A local store. -/
def isStore (k : Nat) : Bool := decide (2 ^ 72 ≤ k)

/-- The peer number of a peer key, and its physical address. -/
def keyPeer (k : Nat) : Nat := k / 2 ^ 52 - 1

def keyPa (k : Nat) : Nat := k % 2 ^ 52

/-- A frame of a die's phase window (R339). -/
def inPhaseWindow (k : Nat) : Bool := isHbm k && decide (0x1FFFF00000 ≤ k % 2 ^ 37)

/-! ### Coordinates (R6) -/

/-- Package core number of package coordinates. -/
def coreAt (x y : Nat) : Nat := (y / 16 * 2 + x / 32) * 512 + y % 16 * 32 + x % 32

/-- Package coordinates of a core. -/
def coreX (n : Nat) : Nat := n / 512 % 2 * 32 + n % 32

def coreY (n : Nat) : Nat := n / 1024 * 16 + n % 512 / 32

/-- The die of a core. -/
def dieOf (n : Nat) : Nat := n / 512

/-- Galley of a core, die × 64 + galley number. -/
def galleyOf (n : Nat) : Nat := n / 512 * 64 + n % 512 / 32 / 2 * 8 + n % 32 / 4

/-- Galley core index of a core (R235). -/
def galleyIndex (n : Nat) : Nat := n % 512 / 32 % 2 * 4 + n % 4

/-- The core of a galley with a galley core index. -/
def coreInGalley (g i : Nat) : Nat := g / 64 * 512 + (g % 64 / 8 * 2 + i / 4) * 32 + g % 8 * 4 + i % 4

/-- The neighbour of a core in direction 0 north, 1 east, 2 south, 3 west, when on the mesh. -/
def neighbour (n dir : Nat) : Option Nat :=
  let x := coreX n
  let y := coreY n
  match dir with
  | 0 => if y = 0 then none else some (coreAt x (y - 1))
  | 1 => if x = 63 then none else some (coreAt (x + 1) y)
  | 2 => if y = 31 then none else some (coreAt x (y + 1))
  | 3 => if x = 0 then none else some (coreAt (x - 1) y)
  | _ => none

/-- The direction from the other side. -/
def opposite (dir : Nat) : Nat := (dir + 2) % 4

/-- The home galley of a physical address, die × 64 + slice (R334). -/
def homeGalley (pa : Nat) : Nat :=
  let p := pa % 2 ^ 51
  let die := if 2 ^ 51 ≤ pa then 0 else pa / 2 ^ 37 % 4
  let slice := (List.range 7).foldl (fun g j => g ^^^ (p / 2 ^ (12 + 6 * j) % 64)) 0
  die * 64 + slice

end Sys2Proof.Machine
end

