-- ==== Sys2Proof/Machine/Access.lean ====
section
/-! DEFINITION. Reading and changing the parts of the state by number: cores, contexts, galleys, bind records; and
the form every meaning has: a state change that may stop with a trap, a stall or another outcome. -/

namespace Sys2Proof.Machine

/-! ### Cores and contexts -/

def State.core (s : State) (n : Nat) : Core := look .reset s.cores n

def State.setCore (s : State) (n : Nat) (c : Core) : State := { s with cores := put s.cores n c }

def State.updCore (s : State) (n : Nat) (f : Core → Core) : State := s.setCore n (f (s.core n))

/-- Context i of a core; 8 is the compositor hart. -/
def Core.ctx (c : Core) (i : Nat) : Ctx := if i = 8 then c.hart else vget .reset c.ctxs i

def Core.setCtx (c : Core) (i : Nat) (x : Ctx) : Core :=
  if i = 8 then { c with hart := x } else { c with ctxs := vset c.ctxs i x }

def State.ctx (s : State) (n i : Nat) : Ctx := (s.core n).ctx i

def State.setCtx (s : State) (n i : Nat) (x : Ctx) : State := s.updCore n fun c => c.setCtx i x

def State.updCtx (s : State) (n i : Nat) (f : Ctx → Ctx) : State := s.setCtx n i (f (s.ctx n i))

def State.galley (s : State) (g : Nat) : Galley := look .reset s.galleys g

def State.setGalley (s : State) (g : Nat) (x : Galley) : State := { s with galleys := put s.galleys g x }

/-- Core and context number of the agent whose step it is; 8 for the hart. -/
def State.me (s : State) : Nat × Nat :=
  match s.cur with
  | .strand c i => (c, i)
  | .hart c => (c, 8)
  | _ => (0, 0)

/-- The context whose step it is. -/
def State.my (s : State) : Ctx := s.ctx s.me.1 s.me.2

def State.setMy (s : State) (x : Ctx) : State := s.setCtx s.me.1 s.me.2 x

def State.updMy (s : State) (f : Ctx → Ctx) : State := s.setMy (f s.my)

/-- The core of the agent whose step it is. -/
def State.myCore (s : State) : Core := s.core s.me.1

def State.updMyCore (s : State) (f : Core → Core) : State := s.updCore s.me.1 f

/-- The agent is a compositor hart. -/
def State.isHart (s : State) : Bool :=
  match s.cur with
  | .hart _ => true
  | _ => false

/-! ### Bind records (R313) -/

/-- n bytes from offset o of a bind record. -/
def Bind.field (b : Bind) (o n : Nat) : Nat := b.record.toNat / 2 ^ (8 * o) % 2 ^ (8 * n)

def Bind.ten (b : Bind) : Nat := b.field 0 2

/-- The core lies in the record's rectangle; the record's number is die × 64 + slot. -/
def Bind.holds (b : Bind) (num core : Nat) : Bool :=
  let x := core % 32
  let y := core % 512 / 32
  b.ten != 0 && dieOf core == num / 64 && decide (b.field 2 1 ≤ x) && decide (x < b.field 2 1 + b.field 4 1)
    && decide (b.field 3 1 ≤ y) && decide (y < b.field 3 1 + b.field 5 1)

/-- The number of the committed record that holds a core. -/
def State.bindOf (s : State) (core : Nat) : Option Nat := (s.binds.find? fun e => e.2.holds e.1 core).map Prod.fst

/-- An empty bind record. -/
def Bind.empty : Bind :=
  { record := 0, live := false, failed := false, completed := 0, gstat := Vector.replicate 16 0,
    gather := Vector.replicate 16 0 }

def State.bind (s : State) (num : Nat) : Bind := look .empty s.binds num

/-- The core is bound to the tenant (R313). -/
def State.bound (s : State) (core tenant : Nat) : Bool := s.binds.any fun e => e.2.ten == tenant && e.2.holds e.1 core

/-- Gang rank of a core under a record (R316). -/
def Bind.rank (b : Bind) (core : Nat) : Nat := (core % 512 / 32 - b.field 3 1) * b.field 4 1 + (core % 32 - b.field 2 1)

/-- MODES of a tenant's bounds record (R315); none permitted without one. -/
def State.modes (s : State) (tenant : Nat) : Nat :=
  match s.bounds.find? fun e => e.2.toNat % 2 ^ 16 == tenant with
  | some e => e.2.toNat / 2 ^ 48 % 16
  | none => 0

def State.team (s : State) (n : Nat) : Team :=
  look { core := 0, gang := 0, hset := 0, va := 0, launch := none, live := false, waiting := false } s.teams n

def State.setTeam (s : State) (n : Nat) (t : Team) : State := { s with teams := put s.teams n t }

/-! ### Notices and events -/

/-- An event record to the overseer core of a die. -/
def State.notify (s : State) (die : Nat) (n : Notice) : State :=
  { s with notices := vset s.notices die (vget [] s.notices die ++ [n]) }

/-- There is room in the buffer of Finier die 0 for one more record, 16 of its 1,024 entries kept for start-up (R357). -/
def State.bufferRoom (s : State) (startUp : Bool) : Bool :=
  s.eventWait.isEmpty && decide (s.eventHold.length < if startUp then 1024 else 1008)

/-- An event record to the host event queue: 32 bytes. While the buffer is full its source holds it, in the order in which records were
emitted (R356, R357; DEDUCED, log entry 28). -/
def State.hostEvent (s : State) (bytes : List Byte) (startUp : Bool := false) : State :=
  let r := (bytes ++ List.replicate 32 0).take 32
  { s with
    eventHold := if s.bufferRoom startUp then s.eventHold ++ [r] else s.eventHold
    eventWait := if s.bufferRoom startUp then s.eventWait else s.eventWait ++ [r] }

/-- The 32 bytes of an event record: bytes 0 to 20 and the type in byte 21 (R356). -/
def eventBytes (body : List Byte) (ty : Nat) : List Byte :=
  (body ++ List.replicate 21 0).take 21 ++ [BitVec.ofNat 8 ty] ++ List.replicate 10 0

/-- A hardware event put in flight behind those already there. -/
def State.post (s : State) (e : Event) : State := { s with queue := s.queue ++ [e] }

/-! ### Outcomes -/

/-- What a trapping instruction changes beside its trap: a bad HBM sector is found (R350), bad data kills a core
(R150), the lost byte of posted writes is reported once (R408), a copy's fault is marked raised, or the copy resumed (R219), a pending
matrix fault is raised (R262), an element of a stream has met its fault (R183), walks have cached translations (R343). -/
inductive Finding where
  | lostByte
  | raised (tag : Nat)
  | resumed (tag : Nat)
  | mfault
  | stream (port : Nat)
  | sector (key : Nat)
  | kill (core : Nat)
  | walked (tlb : List TlbEntry)
  deriving DecidableEq, Repr

/-- How an instruction stops short of its ordinary end. -/
inductive Stop where
  /-- A trap; the instruction has done nothing (R77), beyond what the check has found. -/
  | trap (t : Trap) (found : List Finding)
  /-- A trap after part of the work, which is kept (R78). -/
  | trapKeep (t : Trap) (s : State)
  /-- The instruction has not executed and waits (R124). -/
  | stall
  /-- It waits, and what it has begun is kept. -/
  | stallKeep (s : State)
  /-- A control element was read with light handlers enabled (R130, R131). -/
  | light (w : Word) (s : State)
  /-- The step ends in this state: the strand ended, halted, left or rolled back. -/
  | done (s : State)
  deriving DecidableEq, Repr

/-- A state change that may stop. -/
abbrev M (α : Type) := StateT State (Except Stop) α

/-- Stop with an outcome. -/
def stop {α : Type} (x : Stop) : M α := fun _ => .error x

/-- Raise a trap. -/
def raise {α : Type} (code : Nat) (detail : Nat := 0) (val : Word := 0) (wr : Bool := false) : M α :=
  stop (.trap { code, detail, wr, val } [])

/-- Stall. -/
def stall {α : Type} : M α := stop .stall

/-- Apply a state change. -/
def change (f : State → State) : M Unit := fun s => .ok ((), f s)

/-- Read from the state. -/
def ask {α : Type} (f : State → α) : M α := fun s => .ok (f s, s)

/-- Raise a trap unless a condition holds. -/
def require (b : Bool) (code : Nat) (detail : Nat := 0) (val : Word := 0) (wr : Bool := false) : M Unit :=
  if b then pure () else raise code detail val wr

/-! ### Trap causes (R72) -/

def cIllegal : Nat := 0x01
def cIllegalReg : Nat := 0x02
def cFetch : Nat := 0x03
def cAddress : Nat := 0x04
def cPage : Nat := 0x05
def cPerm : Nat := 0x06
def cSpill : Nat := 0x07
def cFill : Nat := 0x08
def cRetZero : Nat := 0x09
def cDepth : Nat := 0x0A
def cMigration : Nat := 0x0B
def cRace : Nat := 0x0C
def cScope : Nat := 0x0D
def cStaleGen : Nat := 0x0E
def cImpStale : Nat := 0x0F
def cImpFaulted : Nat := 0x10
def cType : Nat := 0x11
def cPoison : Nat := 0x12
def cMatrix : Nat := 0x13
def cPattern : Nat := 0x14
def cSoft : Nat := 0x15

/-! ### Copies (R219) -/

/-- A copy resumed from its progress under a topology generation. It goes on at once, though the other four units may be moving: R219 does not
say how it gets one back (DESIGN CHOICE, log entry 20). -/
def Copy.resume (c : Copy) (gen : Word) : Copy := { c with fault := none, raised := false, lost := none, gen }

/-- The copy under a tag changed. -/
def Core.updCopy (c : Core) (tag : Nat) (f : Copy → Copy) : Core :=
  { c with copies := vset c.copies tag ((vget none c.copies tag).map f) }

/-! ### Event counters (R141) -/

/-- Add to an event counter, which stays at its maximum (R141). -/
def Ctx.count (c : Ctx) (i n : Nat) : Ctx :=
  { c with cnt := vset c.cnt i (word (min 0xFFFFFFFF ((vget 0 c.cnt i).toNat + n))) }

end Sys2Proof.Machine
end

