-- ==== Sys2Proof/Machine/Float.lean ====
section
/-! DEFINITION. Number formats and arithmetic (spec/02_numbers.md): element types, exact values, the one
rounding, floating-point operations, block scales, quantisation and dequantisation. Every operation answers its
result with the arithmetic events of R33 that it counts.
Readings of the spec that this file takes: DEDUCED, log entry 19. -/

namespace Sys2Proof.Machine

/-! ### Events and types -/

/-- The arithmetic events of R33 that one element or one instruction adds to CNT0 to CNT3. -/
structure Counts where
  sat : Nat := 0
  ovf : Nat := 0
  zsc : Nat := 0
  nan : Nat := 0
  deriving DecidableEq, Repr

/-- No event. -/
def Counts.zero : Counts := {}

/-- Events of two operations. -/
def Counts.add (x y : Counts) : Counts :=
  { sat := x.sat + y.sat, ovf := x.ovf + y.ovf, zsc := x.zsc + y.zsc, nan := x.nan + y.nan }

/-- Floating-point types of R14 and R20. -/
inductive FTy where
  | f16 | bf16 | f32 | f64 | e4m3 | e5m2
  deriving DecidableEq, Repr

/-- Width in bits (R14). -/
def FTy.width : FTy → Nat
  | .f16 | .bf16 => 16
  | .f32 => 32
  | .f64 => 64
  | .e4m3 | .e5m2 => 8

/-- Fraction bits (R20). -/
def FTy.frac : FTy → Nat
  | .f16 => 10 | .bf16 => 7 | .f32 => 23 | .f64 => 52 | .e4m3 => 3 | .e5m2 => 2

/-- Exponent bits (R20). -/
def FTy.ebits : FTy → Nat
  | .f16 => 5 | .bf16 => 8 | .f32 => 8 | .f64 => 11 | .e4m3 => 4 | .e5m2 => 5

/-- Exponent bias (R20). -/
def FTy.bias : FTy → Int
  | .f16 => 15 | .bf16 => 127 | .f32 => 127 | .f64 => 1023 | .e4m3 => 7 | .e5m2 => 15

/-- The exponent of the smallest subnormal (R20). -/
def FTy.emin (t : FTy) : Int := 1 - t.bias - t.frac

/-- The canonical NaN (R20). -/
def FTy.nanCode : FTy → Nat
  | .f16 => 0x7E00 | .bf16 => 0x7FC0 | .f32 => 0x7FC00000 | .f64 => 0x7FF8000000000000
  | .e4m3 => 0x7F | .e5m2 => 0x7E

/-- The code of the largest finite value (R20). -/
def FTy.maxCode : FTy → Nat
  | .f16 => 0x7BFF | .bf16 => 0x7F7F | .f32 => 0x7F7FFFFF | .f64 => 0x7FEFFFFFFFFFFFFF
  | .e4m3 => 0x7E | .e5m2 => 0x7B

/-- The code of +∞; E4M3 has none and answers its largest finite value (R21). -/
def FTy.infCode : FTy → Nat
  | .f16 => 0x7C00 | .bf16 => 0x7F80 | .f32 => 0x7F800000 | .f64 => 0x7FF0000000000000
  | .e4m3 => 0x7E | .e5m2 => 0x7C

/-- A lane type of R14, or a storage-only float. -/
inductive ETy where
  | nat (w : Nat)
  | int (w : Nat)
  | flt (t : FTy)
  deriving DecidableEq, Repr

/-- Element width in bits. -/
def ETy.width : ETy → Nat
  | .nat w => w
  | .int w => w
  | .flt t => t.width

/-- The floating-point types. -/
def ETy.isFloat : ETy → Bool
  | .flt _ => true
  | _ => false

/-- The type of a type code that names a lane type or an 8-bit float (R14). -/
def eTyOf (c : Nat) : Option ETy :=
  match c with
  | 0 => some (.nat 4) | 1 => some (.nat 8) | 2 => some (.nat 16) | 3 => some (.nat 32) | 4 => some (.nat 64)
  | 8 => some (.int 4) | 9 => some (.int 8) | 10 => some (.int 16) | 11 => some (.int 32) | 12 => some (.int 64)
  | 16 => some (.flt .f16) | 17 => some (.flt .bf16) | 18 => some (.flt .f32) | 19 => some (.flt .f64)
  | 20 => some (.flt .e4m3) | 21 => some (.flt .e5m2)
  | _ => none

/-- The lane types of R14 and R15. -/
def laneTyOf (c : Nat) : Option ETy := if c = 20 ∨ c = 21 then none else eTyOf c

/-- Rounding directions of R23. -/
inductive RM where
  | rne | rtz | rdn | rup
  deriving DecidableEq, Repr

/-- The rounding mode of a 2-bit field (R23). -/
def rmOf (r : BitVec 2) : RM :=
  match r.toNat with
  | 0 => .rne
  | 1 => .rtz
  | 2 => .rdn
  | _ => .rup

/-! ### Integers as element bits -/

/-- Bits read as a two's-complement number of w bits. -/
def toSigned (w x : Nat) : Int := if x % 2 ^ w < 2 ^ (w - 1) then ((x % 2 ^ w : Nat) : Int) else ((x % 2 ^ w : Nat) : Int) - 2 ^ w

/-- The low w bits of an integer (R16). -/
def wrap (w : Nat) (v : Int) : Nat := (v % (2 ^ w : Int)).toNat

/-- An element's integer value by its type; a float's bits are read as natural. -/
def ETy.value (t : ETy) (x : Nat) : Int :=
  match t with
  | .int w => toSigned w x
  | .nat w => ((x % 2 ^ w : Nat) : Int)
  | .flt f => ((x % 2 ^ f.width : Nat) : Int)

/-- The range of an integer type (R16). -/
def ETy.range (t : ETy) : Int × Int :=
  match t with
  | .int w => (-(2 ^ (w - 1) : Int), (2 ^ (w - 1) : Int) - 1)
  | .nat w => (0, (2 ^ w : Int) - 1)
  | .flt f => (0, (2 ^ f.width : Int) - 1)

/-- An integer saturated to a type's range, with whether it was out of range (R17). -/
def saturate (t : ETy) (v : Int) : Int × Bool :=
  if v < t.range.1 then (t.range.1, true) else if t.range.2 < v then (t.range.2, true) else (v, false)

/-- Saturating conversion to an integer type, counted in CNT0 (R17, R33). -/
def toIntTy (t : ETy) (v : Int) : Nat × Counts :=
  (wrap t.width (saturate t v).1, { sat := if (saturate t v).2 then 1 else 0 })

/-! ### Exact values -/

/-- A floating-point datum: a NaN, an infinity or the exact value (−1)^neg × m × 2^e. -/
inductive FVal where
  | nan (signalling : Bool)
  | inf (neg : Bool)
  | fin (neg : Bool) (m : Nat) (e : Int)
  deriving DecidableEq, Repr

/-- Number of bits of m. -/
def bitLen (m : Nat) : Nat := if m = 0 then 0 else Nat.log2 m + 1

/-- 2 to a natural part of an integer exponent. -/
def pow2 (e : Int) : Nat := 2 ^ e.toNat

/-- The value of a code (R19, R20, R21). -/
def decodeF (t : FTy) (c : Nat) : FVal :=
  let m := c % 2 ^ t.frac
  let e := c / 2 ^ t.frac % 2 ^ t.ebits
  let neg := c / 2 ^ (t.width - 1) % 2 == 1
  match t with
  | .e4m3 =>
    if e = 15 ∧ m = 7 then .nan false
    else if e = 0 then .fin neg m t.emin else .fin neg (m + 2 ^ t.frac) (e - t.bias - t.frac)
  | .e5m2 =>
    if e = 31 then (if m = 0 then .inf neg else .nan false)
    else if e = 0 then .fin neg m t.emin else .fin neg (m + 2 ^ t.frac) (e - t.bias - t.frac)
  | _ =>
    if e = 2 ^ t.ebits - 1 then
      (if m = 0 then .inf neg else .nan (decide (m < 2 ^ (t.frac - 1))))
    else if e = 0 then .fin neg m t.emin else .fin neg (m + 2 ^ t.frac) (e - t.bias - t.frac)

/-- The magnitude m × 2^e, a little more when sticky, rounded to a multiple of 2^lsb: the multiple. -/
def roundAt (rm : RM) (neg : Bool) (m : Nat) (e : Int) (sticky : Bool) (lsb : Int) : Nat :=
  -- two guard bits keep a sticky remainder below the rounding position
  let m2 := m * 4
  let e2 := e - 2
  if lsb ≤ e2 then m2 * pow2 (e2 - lsb)
  else
    let s := (lsb - e2).toNat
    let q := m2 / 2 ^ s
    let r := m2 % 2 ^ s
    let half := 2 ^ (s - 1)
    let inexact := decide (r ≠ 0) || sticky
    let up :=
      match rm with
      | .rne => decide (half < r) || (decide (r = half) && (sticky || q % 2 == 1))
      | .rtz => false
      | .rdn => neg && inexact
      | .rup => !neg && inexact
    if up then q + 1 else q

/-- The exponent of the last place of a value rounded to type t's precision, with no upper bound. -/
def lsbOf (t : FTy) (m : Nat) (e : Int) : Int := max t.emin (e + bitLen m - (t.frac + 1))

/-- The code of a representable finite magnitude q × 2^lsb. -/
def packF (t : FTy) (neg : Bool) (q : Nat) (lsb : Int) : Nat :=
  let p := t.frac + 1
  let (q, lsb) := if q = 2 ^ p then (q / 2, lsb + 1) else (q, lsb)
  let mag := if q < 2 ^ t.frac then q else q - 2 ^ t.frac + (lsb + t.frac + t.bias).toNat * 2 ^ t.frac
  mag + (if neg then 2 ^ (t.width - 1) else 0)

/-- Sign bit of a type, when set. -/
def signBit (t : FTy) (neg : Bool) : Nat := if neg then 2 ^ (t.width - 1) else 0

/-- m × 2^e ≤ n × 2^f. -/
def leDyadic (m : Nat) (e : Int) (n : Nat) (f : Int) : Bool :=
  decide (m * pow2 (e - min e f) ≤ n * pow2 (f - min e f))

/-- The largest finite magnitude as q × 2^lsb (R20). -/
def maxFinite (t : FTy) : Nat × Int :=
  match decodeF t t.maxCode with
  | .fin _ m e => (m, e)
  | _ => (0, 0)

/-- The result on overflow (R24): E4M3 and E5M2 saturate in every mode, the others follow IEEE 754. -/
def overflowCode (t : FTy) (rm : RM) (neg : Bool) : Nat :=
  match t with
  | .e4m3 | .e5m2 => t.maxCode + signBit t neg
  | _ =>
    match rm, neg with
    | .rne, _ => t.infCode + signBit t neg
    | .rtz, _ => t.maxCode + signBit t neg
    | .rdn, false => t.maxCode
    | .rdn, true => t.infCode + signBit t true
    | .rup, false => t.infCode
    | .rup, true => t.maxCode + signBit t true

/-- A finite exact value rounded once into a type: round_to of R23 with the overflow rule of R24. -/
def roundFin (t : FTy) (rm : RM) (neg : Bool) (m : Nat) (e : Int) (sticky : Bool) : Nat × Counts :=
  if m = 0 ∧ sticky = false then (signBit t neg, .zero)
  else
    let lsb := lsbOf t m e
    let q := roundAt rm neg m e sticky lsb
    if leDyadic q lsb (maxFinite t).1 (maxFinite t).2 then (packF t neg q lsb, .zero)
    else (overflowCode t rm neg, { ovf := 1 })

/-- A datum rounded into a type (R22, R24): an infinity into E4M3 saturates and counts. A quiet NaN counts
nothing here; the caller counts a signalling one. -/
def roundTo (t : FTy) (rm : RM) (v : FVal) : Nat × Counts :=
  match v with
  | .nan _ => (t.nanCode, .zero)
  | .inf neg =>
    match t with
    | .e4m3 => (t.maxCode + signBit t neg, { ovf := 1 })
    | _ => (t.infCode + signBit t neg, .zero)
  | .fin neg m e => roundFin t rm neg m e false

/-! ### Operations (R19, R22) -/

/-- A NaN input. -/
def FVal.isNan : FVal → Bool
  | .nan _ => true
  | _ => false

/-- A signalling NaN input. -/
def FVal.isSnan : FVal → Bool
  | .nan s => s
  | _ => false

/-- The other sign. -/
def FVal.negate : FVal → FVal
  | .nan s => .nan s
  | .inf n => .inf !n
  | .fin n m e => .fin (!n) m e

/-- A signed magnitude as an integer. -/
def signed (neg : Bool) (m : Nat) : Int := if neg then -(m : Int) else (m : Int)

/-- The exact sum of two finite values; a zero sum takes the sign of IEEE 754. -/
def addFin (rm : RM) (n1 : Bool) (m1 : Nat) (e1 : Int) (n2 : Bool) (m2 : Nat) (e2 : Int) : FVal :=
  let e := min e1 e2
  let s := signed n1 (m1 * pow2 (e1 - e)) + signed n2 (m2 * pow2 (e2 - e))
  if s = 0 then
    (if n1 = n2 then .fin n1 0 e else .fin (decide (rm = .rdn)) 0 e)
  else .fin (decide (s < 0)) s.natAbs e

/-- A result, or the canonical NaN of an invalid operation. -/
inductive Exact where
  | val (v : FVal)
  | invalid
  | quietNan
  | divZero (neg : Bool)
  | quotient (neg : Bool) (m : Nat) (e : Int)
  deriving DecidableEq, Repr

/-- The exact sum. -/
def exactAdd (rm : RM) (x y : FVal) : Exact :=
  if x.isSnan || y.isSnan then .invalid
  else if x.isNan || y.isNan then .quietNan
  else
    match x, y with
    | .inf a, .inf b => if a = b then .val (.inf a) else .invalid
    | .inf a, _ => .val (.inf a)
    | _, .inf b => .val (.inf b)
    | .fin n1 m1 e1, .fin n2 m2 e2 => .val (addFin rm n1 m1 e1 n2 m2 e2)
    | _, _ => .quietNan

/-- The exact product. -/
def exactMul (x y : FVal) : Exact :=
  if x.isSnan || y.isSnan then .invalid
  else if x.isNan || y.isNan then .quietNan
  else
    match x, y with
    | .inf a, .inf b => .val (.inf (a != b))
    | .inf a, .fin b m _ => if m = 0 then .invalid else .val (.inf (a != b))
    | .fin a m _, .inf b => if m = 0 then .invalid else .val (.inf (a != b))
    | .fin n1 m1 e1, .fin n2 m2 e2 => .val (.fin (n1 != n2) (m1 * m2) (e1 + e2))
    | _, _ => .quietNan

/-- The exact x × y + z; 0 × ∞ is invalid even when z is a quiet NaN (R163). -/
def exactFma (rm : RM) (x y z : FVal) : Exact :=
  if z.isSnan then .invalid
  else
    match exactMul x y with
    | .val p => exactAdd rm p z
    | e => e

/-- The quotient, with enough bits for any rounding and a sticky remainder. -/
def exactDiv (x y : FVal) : Exact :=
  if x.isSnan || y.isSnan then .invalid
  else if x.isNan || y.isNan then .quietNan
  else
    match x, y with
    | .inf _, .inf _ => .invalid
    | .inf a, .fin b _ _ => .val (.inf (a != b))
    | .fin a _ _, .inf b => .val (.fin (a != b) 0 0)
    | .fin n1 m1 e1, .fin n2 m2 e2 =>
      if m2 = 0 then (if m1 = 0 then .invalid else .divZero (n1 != n2))
      else if m1 = 0 then .val (.fin (n1 != n2) 0 0)
      else
        let k := 64 + bitLen m2
        -- the last bit of m is the sticky remainder
        let q := m1 * 2 ^ k / m2
        let st := if m1 * 2 ^ k % m2 = 0 then 0 else 1
        .quotient (n1 != n2) (2 * q + st) (e1 - e2 - k - 1)
    | _, _ => .quietNan

/-- Integer square root by bits: the fuel is the number of result bits. -/
def isqrtAux : Nat → Nat → Nat → Nat
  | 0, _, r => r
  | k + 1, n, r => if (r + 2 ^ k) * (r + 2 ^ k) ≤ n then isqrtAux k n (r + 2 ^ k) else isqrtAux k n r

/-- The floor of the square root. -/
def isqrt (n : Nat) : Nat := isqrtAux (bitLen n / 2 + 1) n 0

/-- The square root. -/
def exactSqrt (x : FVal) : Exact :=
  match x with
  | .nan s => if s then .invalid else .quietNan
  | .inf neg => if neg then .invalid else .val (.inf false)
  | .fin neg m e =>
    if m = 0 then .val (.fin neg 0 0)
    else if neg then .invalid
    else
      let odd := e % 2 ≠ 0
      let m1 := if odd then m * 2 else m
      let e1 := if odd then e - 1 else e
      let k : Nat := 64
      let n := m1 * 2 ^ (2 * k)
      let r := isqrt n
      let st := if r * r = n then 0 else 1
      .quotient false (2 * r + st) (e1 / 2 - k - 1)

/-- An exact result rounded once into t, with its events (R22, R24). -/
def finish (t : FTy) (rm : RM) (x : Exact) : Nat × Counts :=
  match x with
  | .val v => roundTo t rm v
  | .invalid => (t.nanCode, { nan := 1 })
  | .quietNan => (t.nanCode, .zero)
  | .divZero neg => (t.infCode + signBit t neg, { ovf := 1 })
  | .quotient neg m e => roundFin t rm neg m e false

/-- x < y for values that are no NaN; −0 below +0 only when asked (R22). -/
def fLess (orderZeros : Bool) (x y : FVal) : Bool :=
  match x, y with
  | .inf a, .inf b => a && !b
  | .inf a, .fin _ _ _ => a
  | .fin _ _ _, .inf b => !b
  | .fin n1 m1 e1, .fin n2 m2 e2 =>
    if m1 = 0 ∧ m2 = 0 then orderZeros && n1 && !n2
    else
      let e := min e1 e2
      decide (signed n1 (m1 * pow2 (e1 - e)) < signed n2 (m2 * pow2 (e2 - e)))
  | _, _ => false

/-- Equality of values, −0 equal to +0; a NaN equals nothing (R22). -/
def fEqual (x y : FVal) : Bool :=
  match x, y with
  | .inf a, .inf b => a == b
  | .fin n1 m1 e1, .fin n2 m2 e2 =>
    let e := min e1 e2
    decide (signed n1 (m1 * pow2 (e1 - e)) = signed n2 (m2 * pow2 (e2 - e)))
  | _, _ => false

/-- The IEEE 754-2019 minimum (wantMax false) or maximum of two codes (R22). -/
def fMinMax (wantMax : Bool) (t : FTy) (x y : Nat) : Nat × Counts :=
  let a := decodeF t x
  let b := decodeF t y
  if a.isNan || b.isNan then (t.nanCode, { nan := if a.isSnan || b.isSnan then 1 else 0 })
  else if (if wantMax then fLess true a b else fLess true b a) then (y, .zero) else (x, .zero)

/-- A value rounded to an integer in a mode. -/
def roundToInt (rm : RM) (neg : Bool) (m : Nat) (e : Int) : Int := signed neg (roundAt rm neg m e false 0)

/-- Floating point into an integer type (R25). -/
def floatToInt (t : ETy) (rm : RM) (v : FVal) : Nat × Counts :=
  match v with
  | .nan _ => (0, { nan := 1 })
  | .inf neg => (wrap t.width (if neg then t.range.1 else t.range.2), { sat := 1 })
  | .fin neg m e => toIntTy t (roundToInt rm neg m e)

/-- An integer into floating point (R25). -/
def intToFloat (t : FTy) (rm : RM) (v : Int) : Nat × Counts := roundFin t rm (decide (v < 0)) v.natAbs 0 false

/-! ### AMAX (R31) -/

/-- A magnitude rounded toward +∞ into F32, as a code. -/
def upF32 (v : FVal) : Nat :=
  match v with
  | .nan _ => 0
  | .inf _ => FTy.f32.infCode
  | .fin _ m e => (roundFin .f32 .rup false m e false).1

/-- The larger of two magnitudes, NaNs aside. -/
def maxMag (x y : FVal) : FVal :=
  match x, y with
  | .nan _, v => v
  | v, .nan _ => v
  | .inf _, _ => .inf false
  | _, .inf _ => .inf false
  | .fin _ m1 e1, .fin _ m2 e2 => if leDyadic m1 e1 m2 e2 then .fin false m2 e2 else .fin false m1 e1

/-- The largest magnitude of the values that are no NaN; zero when there is none. -/
def largestMag (xs : List FVal) : FVal := xs.foldl maxMag (.fin false 0 0)

/-- amax_update of R31 on the register's 64 bits, mag an F32 code. -/
def amaxMerge (reg : Word) (mag : Nat) (nan : Bool) : Word :=
  let old := reg.toNat % 2 ^ 32
  let oldNan := reg.toNat / 2 ^ 63 % 2 == 1
  BitVec.ofNat 64 (max old mag + (if oldNan || nan then 2 ^ 63 else 0))

/-! ### Block scales and quantisation (R28 to R30) -/

/-- Destination formats of QNT (R29): bit planes or an 8-bit float. -/
inductive QFmt where
  | planes (n : Nat)
  | small (t : FTy)
  deriving DecidableEq, Repr

/-- The format of a type code, P2 to P8, E4M3 or E5M2. -/
def qFmtOf (c : Nat) : Option QFmt :=
  if 24 ≤ c ∧ c ≤ 30 then some (.planes (c - 22))
  else if c = 20 then some (.small .e4m3)
  else if c = 21 then some (.small .e5m2)
  else none

/-- bsc_value of R28. -/
def bscValue (c : Nat) : FVal :=
  let e := c / 8 % 32
  let f := c % 8
  if e = 31 ∧ f = 7 then .nan false
  else if e = 0 then .fin false f (-17)
  else .fin false (8 + f) (e - 18)

/-- qmax of R29. -/
def qmaxOf : QFmt → Nat
  | .planes n => 2 ^ (n - 1) - 1
  | .small .e4m3 => 448
  | .small _ => 57344

/-- bsc_value(c) ≥ m / qmax for a finite m. -/
def scaleCovers (fmt : QFmt) (m : Nat) (e : Int) (c : Nat) : Bool :=
  match bscValue c with
  | .fin _ sm se => leDyadic m e (sm * qmaxOf fmt) se
  | _ => false

/-- The scale of a block with largest magnitude v: stage 2 of R29. -/
def blockScale (fmt : QFmt) (v : FVal) : Nat :=
  match v with
  | .fin _ m e => ((List.range 254).map (· + 1)).find? (scaleCovers fmt m e) |>.getD 0xFE
  | _ => 0xFE

/-- The 8-bit register form of a code: a plane code sign-extended, an 8-bit float as it is (R29, R174). -/
def encodeQ (fmt : QFmt) (neg : Bool) (q : Nat) (lsb : Int) : Nat :=
  match fmt with
  | .planes _ => wrap 8 (signed neg q)
  | .small t => packF t neg q lsb

/-- One element of stage 3 of R29. -/
def quantElem (fmt : QFmt) (rm : RM) (s : Nat) (x : FVal) : Nat × Counts :=
  let clamp := fun (neg : Bool) =>
    match fmt with
    | .planes _ => encodeQ fmt neg (qmaxOf fmt) 0
    | .small t => t.maxCode + signBit t neg
  match x with
  | .nan _ => (0, .zero)
  | .inf neg => (clamp neg, { ovf := 1 })
  | .fin neg m e =>
    match bscValue s with
    | .fin _ sm se =>
      match exactDiv (.fin neg m e) (.fin false sm se) with
      | .quotient n qm qe =>
        let lsb := match fmt with
          | .planes _ => 0
          | .small t => lsbOf t qm qe
        let q := roundAt rm n qm qe false lsb
        if leDyadic q lsb (qmaxOf fmt) 0 then (encodeQ fmt n q lsb, .zero) else (clamp n, { sat := 1 })
      | _ => (match fmt with | .planes _ => 0 | .small t => signBit t neg, .zero)
    | _ => (0, .zero)

/-- What qnt_block of R29 answers: the scale, the 32 codes, the events, and the arguments of amax_update. -/
structure QBlock where
  scale : Nat
  codes : List Nat
  counts : Counts
  mag : Nat
  nan : Bool
  deriving DecidableEq, Repr

/-- qnt_block of R29. -/
def qntBlock (x : List FVal) (fmt : QFmt) (rm : RM) : QBlock :=
  let nans := (x.filter FVal.isNan).length
  let m := largestMag x
  if 0 < nans then { scale := 0xFF, codes := x.map fun _ => 0, counts := { nan := nans }, mag := upF32 m, nan := true }
  else
    match m with
    | .fin _ 0 _ => { scale := 0, codes := x.map fun _ => 0, counts := .zero, mag := 0, nan := false }
    | _ =>
      let s := blockScale fmt m
      let es := x.map (quantElem fmt rm s)
      { scale := s, codes := es.map Prod.fst, counts := (es.map Prod.snd).foldl Counts.add .zero,
        mag := upF32 m, nan := false }

/-- The integer that the first k planes of an n-plane code stand for (R27): t × 2^(n−k). -/
def planesRead (n k : Nat) (code : Nat) : Int := (toSigned n code) / (2 ^ (n - k) : Int) * (2 ^ (n - k) : Int)

/-- dqnt_elem of R30, the code given as n bits for planes or 8 bits for a float. -/
def dqntElem (code s : Nat) (fmt : QFmt) (n k : Nat) (t : FTy) (rm : RM) : Nat × Counts :=
  if s = 0 then (0, { zsc := if code = 0 then 0 else 1 })
  else if s = 0xFF then (t.nanCode, .zero)
  else
    match fmt with
    | .planes _ =>
      let v := planesRead n k code
      match bscValue s with
      | .fin _ sm se => roundFin t rm (decide (v < 0)) (v.natAbs * sm) se false
      | _ => (t.nanCode, .zero)
    | .small f =>
      match exactMul (decodeF f code) (bscValue s) with
      | .val p => roundTo t rm p
      | _ => (t.nanCode, .zero)

end Sys2Proof.Machine
end

