-- ==== Sys2Proof/Machine/Blocks.lean ====
section
/-! DEFINITION. The geometry of impressions (R364 to R366): which blocks a master, code or scale byte belongs to,
and where a block's bytes lie.
Readings of the spec that this file takes: DEDUCED, log entry 22. -/

namespace Sys2Proof.Machine

def Impression.mbase (m : Impression) : Int := (descField m.desc 0 8 : Nat)
def Impression.mrstr (m : Impression) : Int := descInt m.desc 8 8
def Impression.rows (m : Impression) : Nat := descField m.desc 16 4
def Impression.cols (m : Impression) : Nat := descField m.desc 20 4
def Impression.mfmt (m : Impression) : Nat := descField m.desc 24 1 % 32
def Impression.ifmt (m : Impression) : Nat := descField m.desc 25 1 % 32
def Impression.flags (m : Impression) : Nat := descField m.desc 26 1
def Impression.shn (m : Impression) : Nat := max 1 (descField m.desc 27 1)
def Impression.ibase (m : Impression) : Int := (descField m.desc 32 8 : Nat)
def Impression.shstep (m : Impression) : Int := descInt m.desc 40 8
def Impression.sbase (m : Impression) : Int := (descField m.desc 48 8 : Nat)
def Impression.sstep (m : Impression) : Int := descInt m.desc 56 8

/-- TR of FLAGS (R364). -/
def Impression.tr (m : Impression) : Bool := m.flags % 2 == 1

/-- Bytes of a master element. -/
def Impression.eb (m : Impression) : Nat := ((eTyOf m.mfmt).map ETy.width).getD 8 / 8

/-- Planes of the impression's format; 0 for an 8-bit float. -/
def Impression.planes (m : Impression) : Nat := if 24 ≤ m.ifmt ∧ m.ifmt ≤ 30 then m.ifmt - 22 else 0

/-- Blocks per row, local rows per shard, and blocks in all (R365). -/
def Impression.bpr (m : Impression) : Nat := m.cols / 32
def Impression.lr (m : Impression) : Nat := (m.rows + m.shn - 1) / m.shn
def Impression.nb (m : Impression) : Nat := m.rows * m.bpr

/-- State and tag of a block (R366). -/
def Impression.block (m : Impression) (i : Nat) : BlockSt × Nat := look (.pending, 0) m.blocks i

def Impression.setBlock (m : Impression) (i : Nat) (b : BlockSt × Nat) : Impression := { m with blocks := put m.blocks i b }

/-- Virtual addresses that an extent list gives a key. -/
def vasOf (es : List Extent) (key : Nat) : List Nat :=
  es.filterMap fun e => if e.key ≤ key ∧ key < e.key + e.len then some (e.va + (key - e.key)) else none

/-- The key of a virtual address, where an extent list holds it. -/
def keyOf (es : List Extent) (va : Nat) : Option Nat :=
  (es.find? fun e => decide (e.va ≤ va) && decide (va < e.va + e.len)).map fun e => e.key + (va - e.va)

/-- Blocks with a master element at a virtual byte (R365). -/
def Impression.masterBlocks (m : Impression) (va : Nat) : List Nat :=
  let d : Int := (va : Int) - m.mbase
  let w : Int := ((m.cols * m.eb : Nat) : Int)
  let step := m.mrstr
  let cand : List Int :=
    if step = 0 then (List.range m.rows).map fun i => ((i : Nat) : Int)
    else
      let span := m.cols * m.eb / step.natAbs + 2
      (List.range (2 * span + 1)).map fun (i : Nat) => d / step - (span : Int) + (i : Int)
  cand.filterMap fun i =>
    let o := d - i * step
    if 0 ≤ i ∧ i < (m.rows : Int) ∧ 0 ≤ o ∧ o < w then
      some (i.toNat * m.bpr + o.toNat / m.eb / 32)
    else none

/-- The block of local row i' of shard s and column c, where that row exists. -/
def Impression.blockAt (m : Impression) (s i' c : Nat) : List Nat :=
  let i := i' * m.shn + s
  if i < m.rows ∧ c < m.cols then [i * m.bpr + c / 32] else []

/-- Blocks with a bit of a code at a virtual byte (R365). -/
def Impression.codeBlocks (m : Impression) (va : Nat) : List Nat :=
  let plane := m.lr * m.cols / 8
  let size := if m.planes = 0 then m.lr * m.cols else m.planes * plane
  (List.range m.shn).flatMap fun (s : Nat) =>
    let o := (va : Int) - (m.ibase + (s : Int) * m.shstep)
    if o < 0 ∨ (size : Int) ≤ o then []
    else
      let o := o.toNat
      if m.planes = 0 then
        (if m.tr then m.blockAt s (o % m.lr) (o / m.lr) else m.blockAt s (o / m.cols) (o % m.cols))
      else
        let r := o % plane
        if m.tr then
          (List.range 8).flatMap fun k => m.blockAt s (8 * (r % (m.lr / 8)) + k) (r / (m.lr / 8))
        else m.blockAt s (r / (m.cols / 8)) (8 * (r % (m.cols / 8)))

/-- Blocks whose scale lies at a virtual byte (R365). -/
def Impression.scaleBlocks (m : Impression) (va : Nat) : List Nat :=
  (List.range m.shn).flatMap fun (s : Nat) =>
    let o := (va : Int) - (m.sbase + (s : Int) * m.sstep)
    if o < 0 ∨ ((m.lr * m.bpr : Nat) : Int) ≤ o then []
    else
      let o := o.toNat
      if m.tr then m.blockAt s (o % m.lr) (32 * (o / m.lr)) else m.blockAt s (o / m.bpr) (32 * (o % m.bpr))

/-- Blocks whose codes or scale a key holds. -/
def Impression.derivedBlocks (m : Impression) (key : Nat) : List Nat :=
  (vasOf m.codes key).flatMap m.codeBlocks ++ (vasOf m.scales key).flatMap m.scaleBlocks

/-- Where element (i, c)'s code lies: the byte of an 8-bit format, or the byte and bit of plane p. -/
def Impression.codeVa (m : Impression) (i c p : Nat) : Int × Nat :=
  let s := i % m.shn
  let i' := i / m.shn
  let base := m.ibase + (s : Int) * m.shstep
  if m.planes = 0 then (base + ((if m.tr then c * m.lr + i' else i' * m.cols + c : Nat) : Int), 0)
  else
    let q := (m.planes - 1 - p) * (m.lr * m.cols / 8)
    if m.tr then (base + ((q + c * (m.lr / 8) + i' / 8 : Nat) : Int), i' % 8)
    else (base + ((q + i' * (m.cols / 8) + c / 8 : Nat) : Int), c % 8)

/-- Where block (i, b)'s scale lies (R365). -/
def Impression.scaleVa (m : Impression) (i b : Nat) : Int :=
  let i' := i / m.shn
  m.sbase + ((i % m.shn : Nat) : Int) * m.sstep + ((if m.tr then b * m.lr + i' else i' * m.bpr + b : Nat) : Int)

/-- Virtual bytes that hold a block's codes and scale. -/
def Impression.derivedVas (m : Impression) (blk : Nat) : List Int :=
  let i := blk / m.bpr
  let b := blk % m.bpr
  let cs := (List.range 32).flatMap fun k =>
    (List.range (max 1 m.planes)).map fun p => (m.codeVa i (32 * b + k) p).1
  m.scaleVa i b :: cs

/-- Virtual byte k of master element (i, c). -/
def Impression.masterVa (m : Impression) (i c k : Nat) : Int := m.mbase + (i : Int) * m.mrstr + ((c * m.eb + k : Nat) : Int)

/-- The key of a virtual byte of one of the impression's extents. -/
def keyOfInt (es : List Extent) (va : Int) : Option Nat := if va < 0 then none else keyOf es va.toNat

/-- Keys of a block's master bytes. -/
def Impression.masterKeys (m : Impression) (blk : Nat) : List (Option Nat) :=
  let i := blk / m.bpr
  let b := blk % m.bpr
  (List.range 32).flatMap fun k => (List.range m.eb).map fun j => keyOfInt m.master (m.masterVa i (32 * b + k) j)

/-- A key lies among code or scale bytes of a registered impression (R369). -/
def State.isDerived (s : State) (key : Nat) : Bool :=
  s.impressions.any fun e => !(vasOf e.2.codes key).isEmpty || !(vasOf e.2.scales key).isEmpty

end Sys2Proof.Machine
end

