-- ==== Sys2Proof/Machine/Crypto.lean ====
section
/-! DEFINITION. The cryptographic standards that the package uses and no others: the hash SM3, the block cipher SM4 in Galois/counter mode,
and the verification of SM2 signatures over sm2p256v1 with the default signer identity (R379, R401).
The standards' own constants and the byte orders of their texts: PRESUMED, log entry 8. -/

namespace Sys2Proof.Machine

/-! ### Bytes, first byte most significant -/

def beNat (bs : List Byte) : Nat := bs.foldl (fun n b => 256 * n + b.toNat) 0

def beBytes (n x : Nat) : List Byte := (leBytes n x).reverse

/-! ### SM3 -/

/-- The working registers A to H. -/
structure Sm3 where
  a : BitVec 32
  b : BitVec 32
  c : BitVec 32
  d : BitVec 32
  e : BitVec 32
  f : BitVec 32
  g : BitVec 32
  h : BitVec 32
  deriving DecidableEq, Repr

def Sm3.init : Sm3 := ⟨0x7380166F, 0x4914B2B9, 0x172442D7, 0xDA8A0600, 0xA96F30BC, 0x163138AA, 0xE38DEE4D, 0xB0FB0E4E⟩

def sm3P0 (x : BitVec 32) : BitVec 32 := x ^^^ x.rotateLeft 9 ^^^ x.rotateLeft 17
def sm3P1 (x : BitVec 32) : BitVec 32 := x ^^^ x.rotateLeft 15 ^^^ x.rotateLeft 23

/-- The words W0 to W67 of a block, last first, grown by k. -/
def sm3Expand : Nat → List (BitVec 32) → List (BitVec 32)
  | 0, w => w
  | k + 1, w =>
    let at' := fun i => w.getD i 0
    sm3Expand k ((sm3P1 (at' 15 ^^^ at' 8 ^^^ (at' 2).rotateLeft 15) ^^^ (at' 12).rotateLeft 7 ^^^ at' 5) :: w)

/-- Round j with W_j and W_(j + 4). -/
def Sm3.round (v : Sm3) (j : Nat) (w w4 : BitVec 32) : Sm3 :=
  let t : BitVec 32 := if j < 16 then 0x79CC4519 else 0x7A879D8A
  let ss1 := (v.a.rotateLeft 12 + v.e + t.rotateLeft (j % 32)).rotateLeft 7
  let ss2 := ss1 ^^^ v.a.rotateLeft 12
  let ff := if j < 16 then v.a ^^^ v.b ^^^ v.c else (v.a &&& v.b) ||| (v.a &&& v.c) ||| (v.b &&& v.c)
  let gg := if j < 16 then v.e ^^^ v.f ^^^ v.g else (v.e &&& v.f) ||| (~~~v.e &&& v.g)
  ⟨ff + v.d + ss2 + (w ^^^ w4), v.a, v.b.rotateLeft 9, v.c, sm3P0 (gg + v.h + ss1 + w), v.e, v.f.rotateLeft 19, v.g⟩

/-- One block of 64 bytes. -/
def Sm3.block (v : Sm3) (bs : List Byte) : Sm3 :=
  let w := (sm3Expand 52 ((List.range 16).map fun i => BitVec.ofNat 32 (beNat ((bs.drop (4 * i)).take 4))).reverse).reverse
  let r := (List.range 64).foldl (fun x j => x.round j (w.getD j 0) (w.getD (j + 4) 0)) v
  ⟨r.a ^^^ v.a, r.b ^^^ v.b, r.c ^^^ v.c, r.d ^^^ v.d, r.e ^^^ v.e, r.f ^^^ v.f, r.g ^^^ v.g, r.h ^^^ v.h⟩

/-- SM3 of bytes: the 32 bytes of the digest. -/
def sm3 (bs : List Byte) : List Byte :=
  let n := bs.length
  let m := bs ++ [0x80] ++ List.replicate ((119 - n % 64) % 64) 0 ++ beBytes 8 (8 * n)
  let v := (List.range (m.length / 64)).foldl (fun v k => v.block ((m.drop (64 * k)).take 64)) Sm3.init
  [v.a, v.b, v.c, v.d, v.e, v.f, v.g, v.h].flatMap fun x => beBytes 4 x.toNat

/-! ### SM4 -/

/-- The S-box: byte x of the table, in quarters of 64 bytes, first byte least significant. -/
def sm4Box (x : Nat) : Nat :=
  let q := match x / 64 with
    | 0 => 0xA63F8F75FA94DF8095E808C9A91CB3E462ACCFED430B54337A98EF91F450429C99068649261344AAC304BE2A769A672B052CFB28C214B616B73DE1CCFEE990D6
    | 1 => 0x9EC8C4A0E702364C5227D39F574600D4877821013B7C2225A2D158635E0E241E359D56704B0FEBF88BDA6471B2816B68A84F85E6193C5983BA1773F3FCA70747
    | 2 => 0x515B6C6D726AFF032F8EFDDE4537DBD56F4E530DAB2329C060CA66822EE2F61DE3B18CF5303293AD551A349BA45DAEE0A11561F9CEF2F7A3B538C740D28ABFEA
    | _ => 0x4839CBD73E5FEE79204DDC3AEC7DF01884C66EC509F1B9657E77960C4A976989B0B4E5B812D0742DBD7BCDA58831C10AD85A101F415CD9117FBCDDBB92AF1B8D
  q / 2 ^ (8 * (x % 64)) % 256

/-- The S-box on each byte of a word. -/
def sm4Tau (x : BitVec 32) : BitVec 32 :=
  BitVec.ofNat 32 ((List.range 4).foldl (fun n i => n + sm4Box (x.toNat / 2 ^ (8 * i) % 256) * 2 ^ (8 * i)) 0)

/-- Constant CK_i: byte j is 7 × (4i + j) modulo 256, first byte most significant. -/
def sm4Ck (i : Nat) : BitVec 32 := BitVec.ofNat 32 ((List.range 4).foldl (fun n j => 256 * n + (4 * i + j) * 7 % 256) 0)

/-- Four words of a block. -/
def sm4Words (x : BitVec 128) : BitVec 32 × BitVec 32 × BitVec 32 × BitVec 32 :=
  (x.extractLsb' 96 32, x.extractLsb' 64 32, x.extractLsb' 32 32, x.extractLsb' 0 32)

/-- The round keys, in order. -/
def sm4Keys (key : BitVec 128) : List (BitVec 32) :=
  let k := sm4Words (key ^^^ 0xA3B1BAC656AA3350677D9197B27022DC)
  ((List.range 32).foldl (fun (p : (BitVec 32 × BitVec 32 × BitVec 32 × BitVec 32) × List (BitVec 32)) i =>
    let (a, b, c, d) := p.1
    let t := sm4Tau (b ^^^ c ^^^ d ^^^ sm4Ck i)
    let n := a ^^^ t ^^^ t.rotateLeft 13 ^^^ t.rotateLeft 23
    ((b, c, d, n), p.2 ++ [n])) (k, [])).2

/-- SM4 of a block. -/
def sm4 (key x : BitVec 128) : BitVec 128 :=
  let r := (sm4Keys key).foldl (fun (p : BitVec 32 × BitVec 32 × BitVec 32 × BitVec 32) k =>
    let (a, b, c, d) := p
    let t := sm4Tau (b ^^^ c ^^^ d ^^^ k)
    (b, c, d, a ^^^ t ^^^ t.rotateLeft 2 ^^^ t.rotateLeft 10 ^^^ t.rotateLeft 18 ^^^ t.rotateLeft 24)) (sm4Words x)
  r.2.2.2 ++ r.2.2.1 ++ r.2.1 ++ r.1

/-! ### Galois/counter mode, 96-bit initial value and 128-bit tag -/

/-- The product of two blocks in GCM's field, whose bit 0 is the most significant. -/
def gcmMul (x h : BitVec 128) : BitVec 128 :=
  ((List.range 128).foldl (fun (p : BitVec 128 × BitVec 128) i =>
    (if x.getMsbD i then p.1 ^^^ p.2 else p.1, if p.2.getLsbD 0 then (p.2 >>> 1) ^^^ 0xE1000000000000000000000000000000 else p.2 >>> 1)) (0, h)).1

/-- Bytes cut into blocks, the last filled with zeros. -/
def gcmBlocks (bs : List Byte) : List (BitVec 128) :=
  (List.range ((bs.length + 15) / 16)).map fun i => BitVec.ofNat 128 (beNat (((bs.drop (16 * i)).take 16 ++ List.replicate 16 0).take 16))

/-- The counter block n of an initial value. -/
def gcmCounter (iv : BitVec 96) (n : Nat) : BitVec 128 := iv ++ BitVec.ofNat 32 n

/-- Bytes enciphered, or deciphered: the same key stream is added (R401). -/
def gcmSeal (key : BitVec 128) (iv : BitVec 96) (bs : List Byte) : List Byte :=
  let stream := (List.range ((bs.length + 15) / 16)).flatMap fun i => beBytes 16 (sm4 key (gcmCounter iv (i + 2))).toNat
  bs.zipWith (fun b k => b ^^^ k) stream

def gcmOpen (key : BitVec 128) (iv : BitVec 96) (bs : List Byte) : List Byte := gcmSeal key iv bs

/-- The tag over additional data and ciphertext; its first byte is the lowest of the number. -/
def gcmTag (key : BitVec 128) (iv : BitVec 96) (aad ct : List Byte) : BitVec 128 :=
  let h := sm4 key 0
  let last : BitVec 128 := BitVec.ofNat 128 (8 * aad.length * 2 ^ 64 + 8 * ct.length)
  let g := (gcmBlocks aad ++ gcmBlocks ct ++ [last]).foldl (fun y x => gcmMul (y ^^^ x) h) 0
  BitVec.ofNat 128 (leNat (beBytes 16 (g ^^^ sm4 key (gcmCounter iv 1)).toNat))

/-! ### SM2 signatures over sm2p256v1 -/

def sm2P : Nat := 0xFFFFFFFEFFFFFFFFFFFFFFFFFFFFFFFFFFFFFFFF00000000FFFFFFFFFFFFFFFF
def sm2A : Nat := 0xFFFFFFFEFFFFFFFFFFFFFFFFFFFFFFFFFFFFFFFF00000000FFFFFFFFFFFFFFFC
def sm2B : Nat := 0x28E9FA9E9D9F5E344D5A9E4BCF6509A7F39789F515AB8F92DDBCBD414D940E93
def sm2N : Nat := 0xFFFFFFFEFFFFFFFFFFFFFFFFFFFFFFFF7203DF6B21C6052B53BBF40939D54123
def sm2Gx : Nat := 0x32C4AE2C1F1981195F9904466A39C9948FE30BBFF2660BE1715A4589334C74C7
def sm2Gy : Nat := 0xBC3736A2F4F6779C59BDCEE36B692153D0A9877CC62A474002DF32E52139F0A0

/-- x to the power e modulo the field's prime, over the 256 bits of e. -/
def sm2Pow (x e : Nat) : Nat := ((List.range 256).reverse).foldl (fun r i => let q := r * r % sm2P; if e.testBit i then q * x % sm2P else q) 1

/-- x − y in the field. -/
def sm2Sub (x y : Nat) : Nat := (x + (sm2P - y % sm2P)) % sm2P

/-- The sum of two points of the curve; none is the point at infinity. -/
def sm2Add (p q : Option (Nat × Nat)) : Option (Nat × Nat) :=
  match p, q with
  | none, q => q
  | p, none => p
  | some (x, y), some (u, v) =>
    if x = u ∧ (y + v) % sm2P = 0 then none
    else
      let num := if x = u ∧ y = v then 3 * x * x + sm2A else sm2Sub v y
      let den := if x = u ∧ y = v then 2 * y else sm2Sub u x
      let l := num % sm2P * sm2Pow (den % sm2P) (sm2P - 2) % sm2P
      let w := sm2Sub (sm2Sub (l * l) x) u
      some (w, sm2Sub (l * sm2Sub x w) y)

/-- k times a point, over the 256 bits of k. -/
def sm2Mul (k : Nat) (p : Option (Nat × Nat)) : Option (Nat × Nat) :=
  ((List.range 256).reverse).foldl (fun r i => let q := sm2Add r r; if k.testBit i then sm2Add q p else q) none

/-- The digest of the signer: the default identity, the curve and the public key. -/
def sm2Signer (x y : Nat) : List Byte :=
  sm3 ([0x00, 0x80] ++ [0x31, 0x32, 0x33, 0x34, 0x35, 0x36, 0x37, 0x38, 0x31, 0x32, 0x33, 0x34, 0x35, 0x36, 0x37, 0x38]
    ++ [sm2A, sm2B, sm2Gx, sm2Gy, x, y].flatMap (beBytes 32))

/-- A signature r ‖ s of 64 bytes over bytes verifies under a public key x ‖ y (R379). -/
def sm2Verify (key : BitVec 512) (bs sig : List Byte) : Bool :=
  let x := key.toNat / 2 ^ 256
  let y := key.toNat % 2 ^ 256
  let r := beNat (sig.take 32)
  let s := beNat ((sig.drop 32).take 32)
  let e := beNat (sm3 (sm2Signer x y ++ bs))
  let t := (r + s) % sm2N
  sig.length == 64 && decide (1 ≤ r) && decide (r < sm2N) && decide (1 ≤ s) && decide (s < sm2N) && t != 0
    && match sm2Add (sm2Mul s (some (sm2Gx, sm2Gy))) (sm2Mul t (some (x, y))) with
       | some p => (e + p.1) % sm2N == r
       | none => false

end Sys2Proof.Machine
end

