-- ==== Sys2Proof/Machine/Routes.lean ====
section
/-! DEFINITION. Fabric coordinates and routes (R389 to R391): which destinations are reachable, and whether a route
uses a dimension.
Readings of the spec that this file takes: DEDUCED, log entry 23. -/

namespace Sys2Proof.Machine

/-- Coordinates a, b, c, d of a peer (R389). -/
def peerA (p : Nat) : Nat := p % 4
def peerB (p : Nat) : Nat := p / 4 % 4
def peerC (p : Nat) : Nat := p / 16 % 128
def peerD (p : Nat) : Nat := p / 2048 % 128

/-- The peer of coordinates. -/
def peerOf (a b c d : Nat) : Nat := a + 4 * b + 16 * c + 2048 * d

/-- Size of a dimension, 0 to 3 for A to D. -/
def Fabric.size (f : Fabric) (dim : Nat) : Nat := vget 1 f.sizes dim

/-- Ring size of C (2) or D (3). -/
def Fabric.ring (f : Fabric) (dim : Nat) : Nat := if dim = 2 then f.rc else f.rd

/-- A package stands at the peer's coordinates (R389). -/
def Fabric.holds (f : Fabric) (p : Nat) : Bool :=
  decide (p < 2 ^ 18) && decide (peerA p < f.size 0) && decide (peerB p < f.size 1) && decide (peerC p < f.size 2) && decide (peerD p < f.size 3)

/-- Two coordinates lie in one ring of r (R390). -/
def sameRing (r x y : Nat) : Bool := x / max 1 r == y / max 1 r

/-- The route from this package to p uses dimension dim, 2 or 3 (R391). -/
def Fabric.uses (f : Fabric) (p dim : Nat) : Bool :=
  if dim = 2 then peerC p != peerC f.own else if dim = 3 then peerD p != peerD f.own else false

/-- Coordinates met on the way along a ring from x to y, y the last: shorter direction, ties to +. -/
def ringHops (r x y : Nat) : List Nat :=
  let r := max 1 r
  let base := x / r * r
  let up := (y + r - x) % r
  if up ≤ r - up then (List.range up).map fun i => base + (x - base + i + 1) % r
  else (List.range (r - up)).map fun i => base + (x - base + r - (i + 1)) % r

/-- Coordinates met on the way along A or B from x to y, y the last. -/
def lineHops (x y : Nat) : List Nat := if x ≤ y then (List.range (y - x)).map fun i => x + i + 1 else (List.range (x - y)).map fun i => x - (i + 1)

/-- Source and destination of the packets under way here, each with its place among all that were sent: those whose answer has not come, and
those that a fibre has not carried to the end, responses and packets on their way to another package among them. -/
def Fabric.underWay (f : Fabric) : List ((Nat × Nat) × Nat) :=
  (f.packets.map fun q => ((f.own, keyPeer q.key), q.id)) ++ f.fibres.flatMap fun e => e.2.sending.map fun t => ((t.source, t.peer), t.born)

/-- The down list in force for a source and a destination: a change waits for the packets between them sent before the change (R391). -/
def Fabric.downFor (f : Fabric) (pair : Nat × Nat) : List Nat :=
  match f.former.find? fun x => x.1 == pair with
  | some (_, n, l) => if f.underWay.any fun q => q.1 == pair && decide (q.2 < n) then l else f.down
  | none => f.down

/-- Before a change of the down list: sources and destinations with packets under way keep the list in force. -/
def Fabric.keepRoutes (f : Fabric) : Fabric :=
  { f with former := (f.underWay.map Prod.fst).eraseDups.map fun p => (p, f.nextPacket, f.downFor p) }

/-- Coordinates A and B of the column of a detour from a package's: one step in A, or in B when SA = 1 (R391). -/
def Fabric.aside (f : Fabric) (own : Nat) : Option (Nat × Nat) :=
  let a := peerA own
  let b := peerB own
  if f.size 0 ≠ 1 then some (if a < f.size 0 - 1 then a + 1 else a - 1, b)
  else if f.size 1 ≠ 1 then some (a, if b < f.size 1 - 1 then b + 1 else b - 1)
  else none

/-- A leg in C or D from coordinate x through hops, where place gives the peer at A, B and a coordinate: the first hop into a package on the
down list steps aside, goes on along the other column, which must be free of such packages, and steps back at the
leg's end (R391). -/
def Fabric.legOpen (f : Fabric) (down : List Nat) (place : Nat → Nat → Nat → Nat) (x : Nat) (hops : List Nat) : Bool :=
  match hops.findIdx? fun y => down.contains (place (peerA f.own) (peerB f.own) y) with
  | none => true
  | some k =>
    match f.aside f.own with
    | none => false
    | some (a, b) => ((x :: hops).drop k).all fun y => !down.contains (place a b y)

/-- A destination can be reached under a down list (R391, R408, R414). Hops of the B and A legs have no detour: one into a package on the
down list makes the destination unreachable (DEDUCED, log entry 23). -/
def Fabric.reachableBy (f : Fabric) (down : List Nat) (p : Nat) : Bool :=
  let a := peerA f.own
  let b := peerB f.own
  f.present && f.holds p && sameRing f.rc (peerC f.own) (peerC p) && sameRing f.rd (peerD f.own) (peerD p) && (f.broken.all fun d => !f.uses p d)
    && f.legOpen down (fun a b c => peerOf a b c (peerD f.own)) (peerC f.own) (ringHops f.rc (peerC f.own) (peerC p))
    && f.legOpen down (fun a b d => peerOf a b (peerC p) d) (peerD f.own) (ringHops f.rd (peerD f.own) (peerD p))
    && ((lineHops b (peerB p)).all fun y => !down.contains (peerOf a y (peerC p) (peerD p)))
    && (lineHops a (peerA p)).all fun y => !down.contains (peerOf y (peerB p) (peerC p) (peerD p))

/-- A destination can be reached: under the down list in force for it. -/
def Fabric.reachable (f : Fabric) (p : Nat) : Bool := f.reachableBy (f.downFor (f.own, p)) p

/-- The packages of a leg in C or D, as legOpen takes it. -/
def Fabric.legPath (f : Fabric) (src : Nat) (down : List Nat) (place : Nat → Nat → Nat → Nat) (x : Nat) (hops : List Nat) : List Nat :=
  let straight := place (peerA src) (peerB src)
  match hops.findIdx? fun y => down.contains (straight y), f.aside src with
  | some k, some (a, b) => (hops.take k).map straight ++ ((x :: hops).drop k).map (place a b) ++ [straight ((x :: hops).getLastD x)]
  | _, _ => hops.map straight

/-- The packages that a packet passes on its way, the destination last: the legs C, D, B, A (R391). -/
def Fabric.path (f : Fabric) (src dst : Nat) (down : List Nat) : List Nat :=
  let a := peerA src
  f.legPath src down (fun a b c => peerOf a b c (peerD src)) (peerC src) (ringHops f.rc (peerC src) (peerC dst))
    ++ f.legPath src down (fun a b d => peerOf a b (peerC dst) d) (peerD src) (ringHops f.rd (peerD src) (peerD dst))
    ++ (lineHops (peerB src) (peerB dst)).map (fun y => peerOf a y (peerC dst) (peerD dst))
    ++ (lineHops a (peerA dst)).map (fun y => peerOf y (peerB dst) (peerC dst) (peerD dst))

/-- The package after this one on the way from a source to a destination; a packet met off that way goes on from here. -/
def Fabric.nextHop (f : Fabric) (src dst : Nat) : Option Nat :=
  let down := f.downFor (src, dst)
  match (src :: f.path src dst down).dropWhile fun p => p != f.own with
  | _ :: p :: _ => some p
  | _ => (f.path f.own dst down).head?

/-- The route is stopped by a RECONF in progress (R407). -/
def Fabric.stopped (f : Fabric) (p : Nat) : Bool :=
  match f.reconf with
  | some r => f.uses p r.dim
  | none => false

end Sys2Proof.Machine
end

