-- ==== Sys2Proof/Machine/Fibres.lean ====
section
/-! DEFINITION. The transmit side of the fibres: which fibre a packet takes, its flits and frames, the replay window
(R391 to R397, R401, R402, R426), and the packets an agent sends (R404).
Readings of the spec that this file takes: DEDUCED, log entry 25. -/

namespace Sys2Proof.Machine

/-! ### Fibres and trunks (R390 to R392, R395) -/

def Fabric.fibre (f : Fabric) (n : Nat) : Fibre := look .reset f.fibres n

def State.updFibre (s : State) (n : Nat) (g : Fibre → Fibre) : State :=
  { s with fabric := { s.fabric with fibres := put s.fabric.fibres n (g (s.fabric.fibre n)) } }

/-- A fibre of the package carries light and is up: a trunk whose dimension has size 1 stays dark (R392). -/
def Fabric.lit (f : Fabric) (n : Nat) : Bool := f.present && f.size (n / 64) != 1 && (f.fibre n).up

/-- A flit that leaves carries ACK, the next SEQ expected: nothing is owed, and a receive key that waits for it is retired (R393, R397,
R402). -/
def Fibre.ackNow (f : Fibre) : Fibre :=
  { f with ackDue := false, rxOld := false, rxKeys := if f.rxOld then vset f.rxKeys (!f.rxPhase).toNat none else f.rxKeys }

/-- A control flit sent on a fibre: it carries the next SEQ and does not advance it (R394, R427). -/
def Fibre.control (f : Fibre) (type param : Nat) : Fibre := { f.ackNow with sent := f.sent ++ [⟨type, f.nextSeq, f.expected, f.phase, param⟩] }

/-- A control flit of a type, with a parameter, sent on fibres (R394). -/
def State.sendControl (s : State) (fs : List Nat) (type param : Nat) : State :=
  fs.foldl (fun s n => s.updFibre n fun f => f.control type param) s

/-- Neighbour of this package in the + or − direction of C or D, in rings of r (R390). -/
def Fabric.ringNeighbour (f : Fabric) (dim r : Nat) (minus : Bool) : Nat :=
  let next := fun (x : Nat) => x / max 1 r * max 1 r + (x % max 1 r + (if minus then max 1 r - 1 else 1)) % max 1 r
  if dim = 2 then peerOf (peerA f.own) (peerB f.own) (next (peerC f.own)) (peerD f.own)
  else peerOf (peerA f.own) (peerB f.own) (peerC f.own) (next (peerD f.own))

/-- The package at the other end of a trunk, 0 to 7 (R390, R392); none past the edge of A or B. -/
def Fabric.trunkPeer (f : Fabric) (trunk : Nat) : Option Nat :=
  let minus := trunk % 2 == 1
  let a := peerA f.own
  let b := peerB f.own
  let c := peerC f.own
  let d := peerD f.own
  match trunk / 2 with
  | 0 => if minus then (if a = 0 then none else some (peerOf (a - 1) b c d)) else if a + 1 < f.size 0 then some (peerOf (a + 1) b c d) else none
  | 1 => if minus then (if b = 0 then none else some (peerOf a (b - 1) c d)) else if b + 1 < f.size 1 then some (peerOf a (b + 1) c d) else none
  | 2 => some (f.ringNeighbour 2 f.rc minus)
  | _ => some (f.ringNeighbour 3 f.rd minus)

/-- The trunk of the next hop from a source towards a peer; the + one where both of a ring lead there (R391). -/
def Fabric.trunkTo (f : Fabric) (src p : Nat) : Nat :=
  ((f.nextHop src p).bind fun q => (List.range 8).find? fun t => f.trunkPeer t == some q).getD 0

/-- Up fibres of a trunk, counted upwards. -/
def Fabric.upFibres (f : Fabric) (trunk : Nat) : List Nat := ((List.range 32).map fun i => trunk * 32 + i).filter f.lit

/-- The fibre of a packet from a source to a peer: a pinned one that is up, or (source xor destination) mod the up fibres (R395). -/
def Fabric.fibreTo (f : Fabric) (src p : Nat) : Option Nat :=
  let t := f.trunkTo src p
  let u := f.upFibres t
  let pin := f.pins.find? fun x => x.2.2.1 == t && ((x.1 == src && x.2.1 == p) || (x.1 == p && x.2.1 == src))
  match pin with
  | some x => if f.lit (t * 32 + x.2.2.2) then some (t * 32 + x.2.2.2) else u[(src ^^^ p) % max 1 u.length]?
  | none => u[(src ^^^ p) % max 1 u.length]?

/-! ### Flits and frames (R393, R394, R401) -/

/-- Bytes cut into bodies of 80, the last padded with zeros; the fuel is the number of bytes. -/
def bodiesOf : Nat → List Byte → List (BitVec 640)
  | 0, _ => []
  | n + 1, bs => if bs.isEmpty then [] else BitVec.ofNat 640 (leNat (bs.take 80)) :: bodiesOf n (bs.drop 80)

/-- A packet's flits: the head of a class, then continuations; of the rest of a packet that passes through, continuations alone. -/
def flitsOf (head : Nat) (bs : List Byte) : List (Nat × BitVec 640) :=
  (bodiesOf (bs.length + 1) bs).zipIdx.map fun (p : BitVec 640 × Nat) => (if p.2 = 0 ∨ head % 2 = 0 then head else head + 1, p.1)

/-- Frames of up to 8 flits; the fuel is the number of flits. -/
def framesOf : Nat → List (Nat × BitVec 640) → List (List (Nat × BitVec 640))
  | 0, _ => []
  | n + 1, l => if l.isEmpty then [] else l.take 8 :: framesOf n (l.drop 8)

/-- The message class of a frame: 0 request, 1 forward, 2 response (R394, R398). -/
def frameClass (fr : List (Nat × BitVec 640)) : Nat := ((fr.head?.map Prod.fst).getD 1 - 1) / 2

/-- The header word of a flit (R393). -/
def headerWord (seq ack type : Nat) (kp : Bool) : BitVec 32 :=
  BitVec.ofNat 32 (seq % 4096 * 2 ^ 20 + ack % 4096 * 2 ^ 8 + type % 16 * 16 + kp.toNat * 8)

/-- One bit-reversed step of CRC-32 with the IEEE 802.3 polynomial. -/
def crc32Bit (c : Nat) : Nat := if c % 2 = 1 then c / 2 ^^^ 0xEDB88320 else c / 2

/-- One byte folded into a CRC-32. -/
def crc32Byte (c : Nat) (b : Byte) : Nat :=
  crc32Bit (crc32Bit (crc32Bit (crc32Bit (crc32Bit (crc32Bit (crc32Bit (crc32Bit (c ^^^ b.toNat))))))))

/-- CRC-32 of bytes. -/
def crc32 (bs : List Byte) : Nat := bs.foldl crc32Byte 0xFFFFFFFF ^^^ 0xFFFFFFFF

/-- The 96 bytes of a flit: header, body, CRC-32 and Reed–Solomon parity (R393). -/
def flitBytes (header : BitVec 32) (body : BitVec 640) : List Byte :=
  let b := leBytes 4 header.toNat ++ leBytes 80 body.toNat
  let c := b ++ leBytes 4 (crc32 b)
  c ++ leBytes 8 (Config.rsParity c).toNat

/-- The initial value of a frame: the sender's peer number, its fibre with 0 for its transmit direction, and the count (R401; the place of the
direction: DESIGN CHOICE, log entry 8). -/
def frameIv (peer fibre : Nat) (count : Nat) : BitVec 96 := BitVec.ofNat 96 (peer % 2 ^ 32 * 2 ^ 64 + fibre * 2 % 2 ^ 32 * 2 ^ 32 + count % 2 ^ 32)

/-- The number of a key of fibre n. -/
def LinkKey.value (n : Nat) (receive : Bool) : LinkKey → BitVec 128
  | .initial => Config.linkKey n receive
  | .loaded k => k

/-- The transmit key of a phase. -/
def Fibre.txKey (f : Fibre) (n : Nat) (phase : Bool) : BitVec 128 := ((vget none f.txKeys phase.toNat).map (LinkKey.value n false)).getD 0

/-- The body of a control flit: bytes 0 to 63, and its tag in bytes 64 to 79 (R401). -/
def controlBody (key : BitVec 128) (header : BitVec 32) (param : Nat) : BitVec 640 :=
  BitVec.ofNat 640 (param % 2 ^ 512 + 2 ^ 512 * (Config.controlTag key header (BitVec.ofNat 512 param)).toNat)

/-- The bytes of a flit that a fibre has sent (R393, R397, R401). -/
def Fibre.bytesOf (f : Fibre) (n : Nat) (x : SentNote) : List Byte :=
  match f.held.find? fun y => y.seq == x.seq && decide (1 ≤ x.type) && decide (x.type ≤ 7) with
  | some y => flitBytes (headerWord y.seq y.ack y.type y.kp) y.body
  | none =>
    let h := headerWord x.seq x.ack x.type x.kp
    flitBytes h (controlBody (f.txKey n x.kp) h x.param)

/-- One frame of packet num enters the replay window: encrypted under the phase's key, each flit with its SEQ and ACK, closed by its tag;
its flits use up credits of their class. A new key is adopted at the boundary before it (R398, R401, R402). -/
def Fibre.pushFrame (f : Fibre) (own n num : Nat) (fr : List (Nat × BitVec 640)) : Fibre :=
  let f := if f.rotate then { f with phase := !f.phase, rotate := false, frames := 0, farOld := true } else f
  let key := f.txKey n f.phase
  let iv := frameIv own n f.frames
  let ct := gcmSeal key iv (fr.flatMap fun p => leBytes 80 p.2.toNat)
  let flits := fr.zipIdx.map fun (p : (Nat × BitVec 640) × Nat) =>
    ({ seq := (f.nextSeq + p.2) % 4096, ack := f.expected, type := p.1.1, kp := f.phase
       body := BitVec.ofNat 640 (leNat ((ct.drop (80 * p.2)).take 80)), packet := num } : SentFlit)
  let headers := flits.flatMap fun x => leBytes 4 (headerWord x.seq x.ack x.type x.kp).toNat
  let close : SentFlit := { seq := (f.nextSeq + fr.length) % 4096, ack := f.expected, type := 7, kp := f.phase
                            body := BitVec.ofNat 640 (gcmTag key iv headers ct).toNat, packet := num }
  let cls := frameClass fr
  { f.ackNow with
    held := f.held ++ flits ++ [close], nextSeq := (f.nextSeq + fr.length + 1) % 4096, frames := f.frames + 1
    credits := vset f.credits cls (vget 0 f.credits cls - fr.length) }

/-- Waiting frames enter the window while it has room, at most 2,048 flits being unacknowledged, and the far end has room for their class; the
classes wait apart, each in its order (R397, R398). -/
def Fibre.fillWindow (f : Fibre) (own n : Nat) : Nat → Fibre
  | 0 => f
  | k + 1 =>
    let ready := fun (p : (Nat × List (Nat × BitVec 640)) × Nat) =>
      decide (p.1.2.length ≤ vget 0 f.credits (frameClass p.1.2)) && !((f.waiting.take p.2).any fun q => frameClass q.2 == frameClass p.1.2)
    match f.waiting.zipIdx.find? ready with
    | none => f
    | some (fr, i) =>
      if 2048 < f.held.length + fr.2.length + 1 then f
      else ({ f with waiting := f.waiting.eraseIdx i }.pushFrame own n fr.1 fr.2).fillWindow own n k

/-- A packet is a fibre's to carry. -/
def Fibre.hold (f : Fibre) (p : TxPacket) : Fibre := { f with sending := f.sending ++ [{ p with num := f.packetNo }], packetNo := f.packetNo + 1 }

/-- A packet enters a fibre, under the type of its first flit. -/
def Fibre.take (f : Fibre) (own n : Nat) (p : TxPacket) : Fibre :=
  let g := { f.hold p with waiting := f.waiting ++ (framesOf (p.bytes.length + 1) (flitsOf p.head p.bytes)).map fun fr => (f.packetNo, fr) }
  g.fillWindow own n g.waiting.length

/-- A packet leaves whole on the fibre of its source and destination; with no fibre of the trunk up it waits for one (R395). -/
def State.carry (s : State) (p : TxPacket) : State :=
  match s.fabric.fibreTo p.source p.peer with
  | none => s.updFibre (s.fabric.trunkTo p.source p.peer * 32) fun f => f.hold p
  | some n => s.updFibre n fun f => f.take s.fabric.own n p

/-- Bytes leave from a source for a peer, as a packet or a part of one that passes through. -/
def State.transmitFrom (s : State) (source peer head : Nat) (bs : List Byte) : State :=
  ({ s with fabric := { s.fabric with nextPacket := s.fabric.nextPacket + 1 } } : State).carry ⟨0, source, peer, s.fabric.nextPacket, head, bs⟩

/-- A packet of this package leaves for a peer under a class's head type. -/
def State.transmit (s : State) (peer head : Nat) (bs : List Byte) : State := s.transmitFrom s.fabric.own peer head bs

/-- Bytes as a packet of a layout that the spec does not give: behind the peer they go to and this one, in the places of R426 (DESIGN CHOICE, log
entry 25). -/
def State.transmitBody (s : State) (peer head : Nat) (bs : List Byte) : State :=
  s.transmit peer head (leBytes 3 peer ++ leBytes 3 s.fabric.own ++ bs)

/-! ### Packets (R404, R426) -/

/-- The header and data of a copy's write packet (R426). -/
def copyPacket (own peer pa core tag index : Nat) (gen : Word) (bs : List Byte) : List Byte :=
  leBytes 3 peer ++ leBytes 3 own ++ [0x01, 0] ++ leBytes 8 pa ++ leBytes 2 (bs.length - 1) ++ leBytes 2 core ++ leBytes 1 tag ++ [0, 0, 0]
    ++ leBytes 4 gen.toNat ++ leBytes 4 index ++ List.replicate 16 0 ++ bs

/-- A packet sent by an agent; its record is the space reserved for the response (R398). The request of a load takes no held flit of this
package's transmit direction: R431 counts none (DEDUCED, log entry 25). -/
def State.send (s : State) (core agent : Nat) (key : Nat) (va : Word) (bytes : List Byte) (len : Nat) (kind : PacketKind) : State :=
  let f := s.fabric
  let t : State := { s with fabric := { f with packets := f.packets ++ [(⟨f.nextPacket, core, agent, key, va, bytes, len, kind, false⟩ : Packet)], nextPacket := f.nextPacket + 1 } }
  match kind with
  | .load => t
  | .copy tag index =>
    let gen := match vget none (s.core core).copies tag with | some c => c.issued | none => 0
    t.transmit (keyPeer key) 1 (copyPacket f.own (keyPeer key) (keyPa key) core tag index gen bytes)
  | _ => t.transmitBody (keyPeer key) 1 (Config.packetBody f.nextPacket)

end Sys2Proof.Machine
end

