-- ==== Sys2Proof/Machine/Cache.lean ====
section
/-! DEFINITION. The L1 range caches, the L2 range directory and its record store (spec/08_range_cache.md, R334 to
R338). L1 entries carry states and records; the bytes of package and host memory are held once (DEDUCED, log entry 6).
Readings of the spec that this file takes: DEDUCED, log entry 16. -/

namespace Sys2Proof.Machine

/-! ### Ranges -/

/-- Maximal runs of the keys of [a, a + n) that satisfy p: first key and length. -/
def runsOf (p : Nat → Bool) (a : Nat) : Nat → List (Nat × Nat)
  | 0 => []
  | n + 1 =>
    let rest := runsOf p (a + 1) n
    if p a then
      match rest with
      | (b, m) :: t => if b = a + 1 then (a, m + 1) :: t else (a, 1) :: rest
      | [] => [(a, 1)]
    else rest

def L1Entry.stop (e : L1Entry) : Nat := e.key + e.len

/-- The entry holds a byte of [a, b). -/
def L1Entry.meets (e : L1Entry) (a b : Nat) : Bool := decide (a < e.stop) && decide (e.key < b)

/-- The entry cut down to [a, b). -/
def L1Entry.part (e : L1Entry) (a b : Nat) : List L1Entry := if a < b then [{ e with key := a, len := b - a }] else []

/-- What an entry leaves outside [a, b), and what lies inside (R193). -/
def L1Entry.outside (e : L1Entry) (a b : Nat) : List L1Entry := e.part e.key (min e.stop a) ++ e.part (max e.key b) e.stop

def L1Entry.inside (e : L1Entry) (a b : Nat) : List L1Entry := e.part (max e.key a) (min e.stop b)

/-- Entries split at a and b, the parts inside changed by f. -/
def splitMap (l : List L1Entry) (a b : Nat) (f : L1Entry → List L1Entry) : List L1Entry :=
  l.flatMap fun e => if e.meets a b then (e.inside a b).flatMap f ++ e.outside a b else [e]

/-- A key is held by an entry that satisfies p. -/
def heldBy (l : List L1Entry) (p : L1Entry → Bool) (k : Nat) : Bool := l.any fun e => p e && e.meets k (k + 1)

/-- Set index of a key (R194): 58 bits of peer and region, folded by sevens. -/
def setOf (own key : Nat) : Nat :=
  let peer := if isPeer key then keyPeer key else own
  let k := peer * 2 ^ 40 + keyPa key / 4096
  (List.range 9).foldl (fun h j => h ^^^ (k / 2 ^ (7 * j) % 128)) 0

/-- Chunks an entry occupies (R195). -/
def L1Entry.chunks (e : L1Entry) : Nat := (e.key % 16 + e.len + 15) / 16

/-- Chunks of a list of entries. -/
def chunksOf (l : List L1Entry) : Nat := (l.map L1Entry.chunks).foldl (· + ·) 0

/-- Two lists hold the same members. -/
def sameMembers {α : Type} [BEq α] (l m : List α) : Bool := l.all m.contains && m.all l.contains

/-- Two entries may coalesce (R198). Records are compared with their intervals, those of ended intervals too (DESIGN CHOICE, log
entry 16). -/
def L1Entry.mergeable (e f : L1Entry) : Bool :=
  e.stop == f.key && decide (e.key / 4096 = f.key / 4096) && e.st == f.st && e.psn == f.psn && sameMembers e.recs f.recs
    && !e.busy && !f.busy

/-- One entry merged with the first neighbour that satisfies p and admits it. -/
def absorb (p : L1Entry → Bool) (e : L1Entry) : List L1Entry → Option (L1Entry × List L1Entry)
  | [] => none
  | f :: t =>
    if p f && e.mergeable f then some ({ e with len := e.len + f.len }, t)
    else if p f && f.mergeable e then some ({ f with len := f.len + e.len }, t)
    else (absorb p e t).map fun r => (r.1, f :: r.2)

/-- Coalesce the mergeable pairs among the entries that satisfy p (R198); the fuel is twice their number. -/
def coalesce (p : L1Entry → Bool) : Nat → List L1Entry → List L1Entry
  | 0, l => l
  | _, [] => []
  | n + 1, e :: t =>
    match if p e then absorb p e t else none with
    | some (g, t') => coalesce p n (g :: t')
    | none => e :: coalesce p n t

/-- A range cut at its 4 KiB regions: first key and length of each piece (R193). -/
def regions (a n : Nat) : List (Nat × Nat) :=
  let first := min n (4096 - a % 4096)
  (a, first) :: (List.range ((n - first + 4095) / 4096)).map fun k => (a + first + 4096 * k, min 4096 (n - first - 4096 * k))

/-! ### The L2 slices (R334) -/

/-- Set index of an L2 slice: the bits of R194's key, folded by twelves into 4,096 sets (DEDUCED, log entry 16). -/
def l2SetOf (own key : Nat) : Nat :=
  let k := own * 2 ^ 40 + keyPa key / 4096
  (List.range 5).foldl (fun h j => h ^^^ (k / 2 ^ (12 * j) % 4096)) 0

/-- The ranges that the slice of a key's home holds, most recently used first. -/
def State.l2Of (s : State) (key : Nat) : List L1Entry := look [] s.l2 (homeGalley (keyPa key))

/-- The home slice holds a byte in an entry that satisfies p. -/
def State.inL2 (s : State) (p : L1Entry → Bool) (key : Nat) : Bool := heldBy (s.l2Of key) p key

/-- A slice's capacity kept (R195, R200, R334): pairs of the set coalesced, then its least recently used entries dropped; the
entries of the access [a, b) stay. Memory already holds what a dirty entry writes back. -/
def l2Trim (own a b : Nat) : Nat → List L1Entry → List L1Entry
  | 0, l => l
  | n + 1, l =>
    if l.length ≤ 16 then l
    else
      let same := fun (e : L1Entry) => l2SetOf own e.key == l2SetOf own a
      if (l.filter same).length ≤ 16 && decide (chunksOf l ≤ 393216) then l
      else
        let l := coalesce same (2 * l.length) l
        let full := decide (16 < (l.filter same).length)
        match (l.filter fun e => (!full || same e) && !e.meets a b).getLast? with
        | some e => if full || decide (393216 < chunksOf l) then l2Trim own a b n (l.erase e) else l
        | none => l

/-- The slice's entries of an access go first, with new ones: those that the lookup found coalesce (R198); its capacity is kept. -/
def State.setL2 (s : State) (a n : Nat) (new : L1Entry → Bool) (l : List L1Entry) : State :=
  let near := l.filter fun e => e.meets a (a + n)
  let l := coalesce (fun e => !new e) (2 * near.length) near ++ l.filter fun e => !e.meets a (a + n)
  { s with l2 := put s.l2 (homeGalley (keyPa a)) (l2Trim s.fabric.own a (a + n) l.length l) }

/-- A read at the home slice within one region: bytes it lacks are fetched from memory as clean entries, poisoned runs apart (R196, R207).
Memory of other packages is never held in an L2 (R404). -/
def State.l2Read (s : State) (a n : Nat) : State :=
  if isPeer a || isStore a then s
  else
    let l := s.l2Of a
    let lacks := fun k => !heldBy l (fun _ => true) k
    let mk := fun (psn : Bool) (r : Nat × Nat) => ({ key := r.1, len := r.2, st := .e, psn, recs := [], busy := false } : L1Entry)
    s.setL2 a n (fun e => lacks e.key) ((runsOf (fun k => lacks k && !s.poison.contains k) a n).map (mk false)
      ++ (runsOf (fun k => lacks k && s.poison.contains k) a n).map (mk true) ++ l)

/-- A write performed at the home slice within one region: one dirty entry of its bytes (R197, R199). -/
def State.l2Write (s : State) (a n : Nat) : State :=
  if isPeer a || isStore a || n = 0 then s
  else s.setL2 a n (fun _ => true) ({ key := a, len := n, st := .m, psn := false, recs := [], busy := false } :: splitMap (s.l2Of a) a (a + n) fun _ => [])

/-- A byte is poisoned as its home would report it: by the mark of the slice's entry, else of memory (R207). -/
def State.poisonedHome (s : State) (key : Nat) : Bool :=
  match (s.l2Of key).find? fun e => e.meets key (key + 1) with
  | some e => e.psn
  | none => s.poison.contains key

/-- A byte is poisoned as an agent of a core reads it: by the mark of the core's L1 entry where there is one. -/
def State.poisonedAt (s : State) (core key : Nat) : Bool :=
  match (s.core core).l1.find? fun e => e.meets key (key + 1) with
  | some e => e.psn
  | none => s.poisonedHome key

/-! ### Poison (R207) -/

/-- Poison is cleared from the bytes of a write (R207). -/
def State.unpoison (s : State) (a n : Nat) : State :=
  { s with poison := s.poison.filter fun k => !(decide (a ≤ k) && decide (k < a + n)) }

/-- Bytes become poisoned at their home. -/
def State.poisonRange (s : State) (a n : Nat) : State :=
  let s := if isPeer a || isStore a then s
    else (regions a n).foldl (fun s r =>
      if (s.l2Of r.1).any fun e => e.meets r.1 (r.1 + r.2) then
        s.setL2 r.1 r.2 (fun _ => true) (splitMap (s.l2Of r.1) r.1 (r.1 + r.2) fun _ => [])
      else s) s
  { s with poison := (List.range n).foldl (fun p i => if p.contains (a + i) then p else (a + i) :: p) s.poison }

/-! ### Write-back (R199) -/

/-- Dirty bytes with an uncorrectable error in [a, a + n) of an L1, by key (R150). -/
def Core.badDirty (c : Core) (a n : Nat) : List Nat :=
  c.bad.filterMap fun b => match b with | .dirty k => if a ≤ k ∧ k < a + n then some k else none | _ => none

/-- Dirty parts are written home (R199): bytes of mode 10 leave as posted packets (R404, R406), others are performed at the home
slice. A write-back consumes bad dirty bytes: they go home poisoned, as those of a dead core do, and the core dies when the step
ends (R150, R151; DEDUCED, log entry 11). -/
def State.sendDirty (s : State) (core : Nat) (es : List L1Entry) : State :=
  es.foldl (fun s e =>
    if e.st != .m then s
    else
      let bad := (s.core core).badDirty e.key e.len
      let s := if isPeer e.key
        then (runsOf (fun k => !bad.contains k) e.key e.len).foldl
          (fun s r => s.send core 8 r.1 0 (memRead (s.core core).remote r.1 r.2) r.2 .store) s
        else s.l2Write e.key e.len
      if bad.isEmpty then s
      else
        let s := s.updCore core fun c => { c with doomed := true, bad := c.bad.filter fun b => !(bad.map BadPlace.dirty).contains b }
        bad.foldl (fun s k => s.poisonRange k 1) s) s

/-- Dirty mode-10 bytes of the core's L1 go home and become clean, BUSY while their write-back is under way (R202, R409). Their state is then S:
R409 names none (DESIGN CHOICE, log entry 16). -/
def State.cleanRemote (s : State) (core : Nat) : State :=
  let es := (s.core core).l1.filter fun e => isPeer e.key && e.st == .m
  if es.isEmpty then s
  else (s.sendDirty core es).updCore core fun c =>
    { c with l1 := c.l1.map fun e => if isPeer e.key && e.st == .m then { e with st := .s, busy := true } else e }

/-! ### Records (R204, R205) -/

/-- Agent 8's intervals in its records: the hart's own are even, those of its copies odd (R191, R217). -/
def hartInterval (n : Nat) : Nat := 2 * n
def copyInterval (n : Nat) : Nat := 2 * n + 1

/-- The interval of a record's agent on this core has not ended. Agents 0 to 7 are contexts, 8 the hart and its copies, 9 a
matrix command. -/
def Core.recLive (c : Core) (r : Rec) : Bool :=
  if r.agent < 8 then (c.ctx r.agent).interval == r.interval && (c.ctx r.agent).st != .free
  else if r.agent = 8 then
    r.interval == hartInterval c.hart.interval ||
      c.copies.toList.any fun o => match o with | some p => r.interval == copyInterval p.interval | none => false
  else c.mq.any fun q => q.interval == r.interval

/-- The core number under which the collective engine's records stand: its agents are the groups, by handle (R307, R419; DESIGN CHOICE, log
entry 24); and one for the impression engine, which makes none. -/
def collCore : Nat := 2 ^ 32
def impressionCore : Nat := 2 ^ 32 + 1

/-- A record is live: its agent runs on, on the core or in the core's saved image, or its group's collective goes on (R204, R307, R331). -/
def State.recLive (s : State) (core : Nat) (r : Rec) : Bool :=
  if core = collCore then (match find s.fabric.groups r.agent with | some g => g.interval == r.interval | none => false)
  else (s.core core).recLive r || s.images.any fun m => m.core == core && m.saved.recLive r

/-- The synchronisation interval that an agent's plain accesses carry. -/
def State.intervalOf (s : State) (core agent : Nat) : Nat :=
  let n := ((s.core core).ctx agent).interval
  if agent = 8 then hartInterval n else n

/-- An agent's interval as a record of its accesses; near are the other ranges that the access under way touches, key and length, which
R200 spares (none for an access of one range). -/
structure Who where
  core : Nat
  agent : Nat
  interval : Nat
  near : List (Nat × Nat) := []
  deriving DecidableEq, Repr

/-- The agent in an access of several ranges. -/
def Who.across (w : Who) (l : List (Nat × Nat)) : Who := if l.length ≤ 1 then w else { w with near := l }

/-- Live records of agents other than w on a byte: some R, some W. -/
def State.othersOn (s : State) (w : Who) (key : Nat) : Bool × Bool :=
  let here := s.cores.flatMap fun e =>
    (e.2.l1.filter fun l => l.meets key (key + 1)).flatMap fun l => l.recs.map fun r => (e.1, r)
  let home := (s.records.filter fun h => decide (h.key ≤ key) && decide (key < h.key + h.len)).map fun h => (h.core, h.access)
  let live := (here ++ home).filter fun p => !(p.1 == w.core && p.2.agent == w.agent) && s.recLive p.1 p.2
  (live.any fun p => !p.2.write, live.any fun p => p.2.write)

/-- DETAIL of the conflict a read (asWrite false) or a write meets on a byte, 0 for none (R204). -/
def State.conflict (s : State) (w : Who) (asWrite : Bool) (key : Nat) : Nat :=
  let o := s.othersOn w key
  if asWrite then (if o.2 then 3 else if o.1 then 2 else 0) else (if o.2 then 1 else 0)

/-- An implicit release on a core: the interval in which a record was made ends and CNT6 rises (R205). A copy's and a matrix command's
interval is its own, counted by the hart and by the issuing strand (DEDUCED, log entry 16), and goes on under the number id; an agent
for which due holds waits for its earlier accesses before its next instruction (R300). -/
def Core.implicitRelease (c : Core) (r : Rec) (due : Bool) (id : Nat) : Core :=
  let ends := fun (x : Ctx) => { x.count 6 1 with interval := x.interval + 1, releaseDue := x.releaseDue || due }
  if r.agent < 8 then c.setCtx r.agent (ends (c.ctx r.agent))
  else if r.agent = 8 then
    if r.interval = hartInterval c.hart.interval then { c with hart := ends c.hart }
    else
      { c with
        hart := c.hart.count 6 1
        copies := c.copies.map fun o => o.map fun p => if r.interval = copyInterval p.interval then { p with interval := id } else p }
  else
    let by' := (c.mq.find? fun q => q.interval == r.interval).map MCmd.ctx
    let c := match by' with
      | some i => if i < 8 then c.setCtx i ((c.ctx i).count 6 1) else c
      | none => c
    { c with mq := c.mq.map fun q => if q.interval = r.interval then { q with interval := id } else q }

/-- The implicit release of a record's agent, on its core or in the core's saved image, where it lives: dirty mode-10 bytes of the core go home,
and what is not yet performed, the held stores of a pair too, is due (R205, R300, R331). -/
def State.implicitRelease (s : State) (core : Nat) (r : Rec) : State :=
  if core = collCore then
    { s with fabric := { s.fabric with groups := s.fabric.groups.map fun (e : Nat × Group) =>
        if e.1 = r.agent then (e.1, { e.2 with interval := e.2.interval + 1 }) else e } }
  else
  let s := if (s.core core).recLive r then s.cleanRemote core else s
  let log := decide (r.agent < 8) && match ((s.core core).ctx r.agent).pair with | some p => p.primary && !p.log.isEmpty | none => false
  let due := log || s.scOps.any (fun o => o.core == core && o.ctx == r.agent)
    || s.fabric.packets.any fun p =>
      p.core == core && (p.agent == r.agent || p.agent == 8) && (match p.kind with | .store => true | .rep _ => true | _ => false)
  let s := { s with images := s.images.map fun (m : Image) =>
    if m.core = core && m.saved.recLive r then { m with saved := m.saved.implicitRelease r due s.nextId } else m }
  let s := if (s.core core).recLive r then s.updCore core fun c => c.implicitRelease r due s.nextId else s
  { s with nextId := s.nextId + 1 }

/-- A record moves to the home record store, or is refused (R205, R337). -/
def State.recordHome (s : State) (core key len : Nat) (r : Rec) : State :=
  if !s.recLive core r then s
  else if ((s.records.filter fun h => homeGalley (keyPa h.key) == homeGalley (keyPa key)).length) < 16384 then
    { s with records := { key, len, core, access := r } :: s.records }
  else s.implicitRelease core r

/-! ### The directory (R335) -/

/-- Two directory entries may coalesce (R198, R335). -/
def DirEntry.mergeable (e f : DirEntry) : Bool :=
  e.key + e.len == f.key && decide (e.key / 4096 = f.key / 4096) && sameMembers e.sharers f.sharers && e.owner == f.owner

/-- One directory entry merged with the first neighbour that admits it. -/
def dirAbsorb (e : DirEntry) : List DirEntry → Option (DirEntry × List DirEntry)
  | [] => none
  | f :: t =>
    if e.mergeable f then some ({ e with len := e.len + f.len }, t)
    else if f.mergeable e then some ({ f with len := f.len + e.len }, t)
    else (dirAbsorb e t).map fun r => (r.1, f :: r.2)

/-- Directory entries coalesced; the fuel is twice their number. -/
def dirCoalesce : Nat → List DirEntry → List DirEntry
  | 0, l => l
  | _, [] => []
  | n + 1, e :: t =>
    match dirAbsorb e t with
    | some (g, t') => dirCoalesce n (g :: t')
    | none => e :: dirCoalesce n t

/-- Directory entries edited over [a, a + n), most recently used first: f acts on sharers and owner; ranges that no L1 holds are
not kept; edited entries coalesce, with what is left of the entries they were cut from. -/
def dirEdit (d : List DirEntry) (a n : Nat) (f : List Nat × Option Nat → List Nat × Option Nat) : List DirEntry :=
  let b := a + n
  let cut := fun (e : DirEntry) (x y : Nat) => if x < y then [{ e with key := x, len := y - x }] else []
  let edit := fun (e : DirEntry) =>
    let r := f (e.sharers, e.owner)
    if r.1.isEmpty && r.2.isNone then [] else [{ e with sharers := r.1, owner := r.2 }]
  let meets := fun (e : DirEntry) => decide (a < e.key + e.len) && decide (e.key < b)
  let inside := (d.filter meets).flatMap fun e => (cut e (max e.key a) (min (e.key + e.len) b)).flatMap edit
  let edges := (d.filter meets).flatMap fun e => cut e e.key (min (e.key + e.len) a) ++ cut e (max e.key b) (e.key + e.len)
  let fresh := (runsOf (fun k => !(d.any fun e => decide (e.key ≤ k) && decide (k < e.key + e.len))) a n).flatMap
    fun r => edit { key := r.1, len := r.2, sharers := [], owner := none }
  let near := fresh ++ inside ++ edges
  dirCoalesce (2 * near.length) near ++ d.filter fun e => !meets e

/-- The galleys that hold an entry's range, the owner's among them. -/
def DirEntry.galleys (e : DirEntry) : List Nat := e.sharers ++ match e.owner with | some n => [galleyOf n] | none => []

/-- The entry, or its proxy for another die, lies in a slice (R335): the home slice, and on each other die that holds the range the
slice of the same number. -/
def DirEntry.inSlice (e : DirEntry) (slice : Nat) : Bool :=
  homeGalley (keyPa e.key) == slice
    || (homeGalley (keyPa e.key) % 64 == slice % 64 && e.galleys.any fun g => g / 64 == slice / 64)

/-- The least recently used range of a slice that holds more than 32,768 entries and proxies, if any (R335). -/
def dirOverflow (d : List DirEntry) : Option DirEntry :=
  if d.length ≤ 32768 then none
  else
    (List.range 256).findSome? fun g =>
      let own := d.filter fun e => e.inSlice g
      if 32768 < own.length then own.getLast? else none

/-! ### Home actions on an L1 (R201) -/

/-- Live records of the removed parts move home (R205). -/
def State.moveRecords (s : State) (core : Nat) (es : List L1Entry) : State :=
  es.foldl (fun s e => e.recs.foldl (fun s r => s.recordHome core e.key e.len r) s) s

/-- The parts of a core's entries inside [a, a + n). -/
def State.partsIn (s : State) (core a n : Nat) : List L1Entry := (s.core core).l1.flatMap fun e => if e.meets a (a + n) then e.inside a (a + n) else []

/-- Another core of the galley holds a byte. -/
def State.siblingHolds (s : State) (core key : Nat) : Bool :=
  (List.range 8).any fun i => coreInGalley (galleyOf core) i != core && heldBy (s.core (coreInGalley (galleyOf core) i)).l1 (fun _ => true) key

/-- The range's bytes leave the L1 (no records kept here); the galley stays a sharer of the bytes that another core of it holds. -/
def State.dropRange (s : State) (core a n : Nat) : State :=
  let s := s.updCore core fun c => { c with l1 := splitMap c.l1 a (a + n) (fun _ => []), remote := memClear c.remote a n }
  if isPeer a then s
  else
    let leave := fun (stays : Bool) (d : List DirEntry) (r : Nat × Nat) => dirEdit d r.1 r.2 fun p =>
      (if stays then p.1 else p.1.filter (fun g => g != galleyOf core), if p.2 == some core then none else p.2)
    let kept := (runsOf (s.siblingHolds core) a n).foldl (leave true) s.dir
    let dir := (runsOf (fun k => !s.siblingHolds core k) a n).foldl (leave false) kept
    { s with dir }

/-- Clean mode-10 entries leave a core's L1 (R409). -/
def State.dropClean (s : State) (core : Nat) : State :=
  ((s.core core).l1.filter fun e => isPeer e.key && e.st != .m).foldl (fun t e => t.dropRange core e.key e.len) s

/-- The bytes of whole entries leave: write-back, live records home or dropped, removal (R200, R201). -/
def State.recallCut (s : State) (core a n : Nat) (dropRecords : Bool) : State :=
  let es := s.partsIn core a n
  if es.isEmpty then s
  else
    let s := s.sendDirty core es
    let s := if dropRecords then s else s.moveRecords core es
    s.dropRange core a n

/-- An entry leaves: write-back, records home, removal (R200). -/
def State.evict (s : State) (core : Nat) (e : L1Entry) : State := s.recallCut core e.key e.len false

/-! ### Capacity (R194, R195, R200) -/

/-- The set of a key has n slots free, and the store c chunks. -/
def State.hasRoom (s : State) (core key n c : Nat) : Bool :=
  let l := (s.core core).l1
  decide (l.length + n + c ≤ 16)
    || decide ((l.filter fun e => setOf s.fabric.own e.key == setOf s.fabric.own key).length + n ≤ 16 ∧ chunksOf l + c ≤ 8192)

/-- Step 1 of R200: every mergeable pair of the key's set coalesced. -/
def State.coalesceSet (s : State) (core key : Nat) : State :=
  s.updCore core fun c => { c with l1 := coalesce (fun e => setOf s.fabric.own e.key == setOf s.fabric.own key) (2 * c.l1.length) c.l1 }

/-- Step 2 of R200, in the set of a: entries not touched by the access, whose ranges are spare, evicted, least recently used first;
whether there is room. -/
def State.evictFor (s : State) (core a : Nat) (spare : List (Nat × Nat)) (n c : Nat) : Nat → State × Bool
  | 0 => (s, s.hasRoom core a n c)
  | fuel + 1 =>
    if s.hasRoom core a n c then (s, true)
    else
      let l := (s.core core).l1
      let same := fun (e : L1Entry) => setOf s.fabric.own e.key == setOf s.fabric.own a
      let full := decide (16 < (l.filter same).length + n)
      match (l.filter fun e => (!full || same e) && !spare.any fun r => e.meets r.1 (r.1 + r.2)).getLast? with
      | some e => (s.evict core e).evictFor core a spare n c fuel
      | none => (s, false)

/-- Steps 1 and 2 of R200 for the piece [a, b) of an agent's access, where need says how many slots, in the set of a, and chunks it takes
beside those in use; it is asked again after step 1, which may have merged what it counts. Whether there is room. -/
def State.makeRoom (s : State) (w : Who) (a b : Nat) (need : State → Nat × Nat) : State × Bool :=
  if s.hasRoom w.core a (need s).1 (need s).2 then (s, true)
  else
    let s := s.coalesceSet w.core a
    s.evictFor w.core a ((a, b - a) :: w.near) (need s).1 (need s).2 (s.core w.core).l1.length

/-- Slots and chunks that an entry cut into pieces needs beside its own. -/
def L1Entry.extra (e : L1Entry) (pieces : List L1Entry) : Nat × Nat := (pieces.length - 1, chunksOf pieces - e.chunks)

/-- The entry of a core's L1 that holds a byte. -/
def State.entryAt (s : State) (core key : Nat) : Option L1Entry := (s.core core).l1.find? fun f => f.meets key (key + 1)

/-- The entries of a core that an action on [a, b) cuts: at most one at each edge (R193). -/
def State.edges (s : State) (core a b : Nat) : List L1Entry := (s.core core).l1.filter fun e => e.meets a b && !(e.outside a b).isEmpty

/-- What an action on [a, b) makes of an entry that it cuts; the inside part is counted where it is kept. -/
def L1Entry.cutBy (e : L1Entry) (a b : Nat) (kept : Bool) : List L1Entry := e.outside a b ++ if kept then e.inside a b else []

/-- Slots, in the set of a key, and chunks that the cuts at the edges of [a, b) take together beside those in use. -/
def State.cutNeed (s : State) (core a b : Nat) (kept : Bool) (key : Nat) : Nat × Nat :=
  let es := s.edges core a b
  let new := es.flatMap fun e => e.cutBy a b kept
  ((((es.filter fun e => setOf s.fabric.own e.key == setOf s.fabric.own key).map fun e => (e.cutBy a b kept).length - 1)).foldl (· + ·) 0,
    chunksOf new - chunksOf es)

/-- The cuts at the edges of [a, b) all find room. -/
def State.cutsFit (s : State) (core a b : Nat) (kept : Bool) : Bool :=
  (s.edges core a b).all fun e => let x := s.cutNeed core a b kept e.key; s.hasRoom core e.key x.1 x.2

/-- Step 3 of R200, and the last sentence of R201: edge entries are evicted until the cuts that are left find room. -/
def State.evictEdges (s : State) (core a b : Nat) (kept : Bool) : Nat → State
  | 0 => s
  | k + 1 =>
    if s.cutsFit core a b kept then s
    else match (s.edges core a b).getLast? with
      | some e => (s.evict core e).evictEdges core a b kept k
      | none => s

/-- Room for the cuts that a home action makes at the edges of [a, a + n) (R193): where a slot for a piece could be had only by evicting, an
entry that would be cut is evicted instead (R201). -/
def State.cutEdges (s : State) (core a n : Nat) (kept : Bool) : State :=
  if s.cutsFit core a (a + n) kept then s
  else
    let s := (s.edges core a (a + n)).foldl (fun s e => s.coalesceSet core e.key) s
    s.evictEdges core a (a + n) kept 2

/-- Room for the cuts that an access of the core's own makes at the edges of its piece [a, a + n), by the three steps of R200. -/
def State.cutOwn (s : State) (w : Who) (a n : Nat) (kept : Bool) : State :=
  (s.makeRoom w a (a + n) fun t => t.cutNeed w.core a (a + n) kept a).1.evictEdges w.core a (a + n) kept 2

/-- Recall or invalidation: M bytes go home, bytes leave, live records move home or are dropped (R201). -/
def State.recall (s : State) (core a n : Nat) (dropRecords : Bool) : State := (s.cutEdges core a n false).recallCut core a n dropRecords

/-- A recall from every L1 of the package. -/
def State.recallAll (s : State) (a n : Nat) (dropRecords : Bool := false) : State :=
  s.cores.foldl (fun t e => t.recall e.1 a n dropRecords) s

/-- Forwarded read: M bytes are written home, E and M bytes become S; records are kept (R201). -/
def State.forwardedRead (s : State) (core a n : Nat) : State :=
  if (s.partsIn core a n).isEmpty then s
  else
    let s := s.cutEdges core a n true
    let es := s.partsIn core a n
    let s := (s.sendDirty core es).updCore core fun c =>
      { c with l1 := splitMap c.l1 a (a + n) fun e => [{ e with st := .s, busy := e.st == .m && isPeer e.key }] }
    if isPeer a then s
    else
      { s with dir := dirEdit s.dir a n fun p => (if p.1.contains (galleyOf core) then p.1 else galleyOf core :: p.1, if p.2 == some core then none else p.2) }

/-- Forwarded ownership: the bytes leave with their data; live records move home (R201). -/
def State.forwardedOwnership (s : State) (core a n : Nat) : State :=
  if (s.partsIn core a n).isEmpty then s
  else
    let s := s.cutEdges core a n false
    (s.moveRecords core (s.partsIn core a n)).dropRange core a n

/-- Directory entries leave, least recently used first, until every slice holds no more than it can: the range of each is recalled from
every holder (R335). -/
def State.dirTrimFor (s : State) : Nat → State
  | 0 => s
  | k + 1 =>
    match dirOverflow s.dir with
    | some e =>
      let s := s.recallAll e.key e.len
      State.dirTrimFor { s with dir := dirEdit s.dir e.key e.len fun _ => ([], none) } k
    | none => s

/-- The directory keeps its capacity (R335). -/
def State.dirTrim (s : State) : State := if s.dir.length ≤ 32768 then s else s.dirTrimFor s.dir.length

/-! ### Impressions and home writes (R367) -/

/-- Master bytes change hands or value: their blocks become PENDING, their codes and scales leave every L1. -/
def State.markPending (s : State) (a n : Nat) : State :=
  s.impressions.foldl (fun t e =>
    let m := e.2
    let blks := ((List.range n).flatMap fun i => (vasOf m.master (a + i)).flatMap m.masterBlocks).eraseDups
    if blks.isEmpty then t
    else
      let m' := blks.foldl (fun m b => m.setBlock b (.pending, (m.block b).2)) m
      let keys := blks.flatMap fun b => (m.derivedVas b).filterMap fun v => (keyOfInt m.codes v).or (keyOfInt m.scales v)
      let t := { t with impressions := put t.impressions e.1 m' }
      keys.foldl (fun t k => t.recallAll k 1) t) s

/-! ### Fills and ownership (R196, R197) -/

/-- A core of another galley holds a byte of the range. -/
def State.sharedElsewhere (s : State) (core a n : Nat) : Bool :=
  s.cores.any fun e => galleyOf e.1 != galleyOf core && e.2.l1.any fun l => l.meets a (a + n)

/-- Queue slots of the items in the request queue (R214). -/
def Core.queuedSlots (c : Core) : List Nat := c.queue.map fun i => match i with | .copy s _ => s | .line s _ _ _ _ => s | .kick s _ => s

/-- The queue slot of a new item: free, and if possible not that of a request taken and not yet started; none while 16
items are queued (R214). -/
def Core.freeSlot (c : Core) : Option Nat :=
  if 16 ≤ c.queue.length then none
  else
    let free := (List.range 16).filter fun i => !c.queuedSlots.contains i
    (free.find? fun i => !(c.taken.map Prod.fst).contains i).or free.head?

/-- An index-line event of a fetched entry (R230), with the bytes as filled; va is the virtual address of its first byte, a its
key. -/
def State.lineEvents (s : State) (core va a n : Nat) : State :=
  (List.range 4).foldl (fun s k =>
    match vget none (s.core core).kernels k with
    | none => s
    | some ker =>
      let lo := max va ker.wbase.toNat
      let hi := min (va + n) (ker.wbase.toNat + ker.wlen)
      match if lo < hi then (s.core core).freeSlot else none with
      | some slot =>
        let bytes := memRead (if isPeer a then (s.core core).remote else s.mem) (a + (lo - va)) (hi - lo)
        s.updCore core fun c => { c with queue := c.queue ++ [.line slot k (word lo) (word (hi - lo)) bytes] }
      | none => s) s

/-- Data for a gap [a, a + n) of an access [lo, hi) arrives and becomes new entries, clean or poisoned (R196, R207): they are answered, none where
no slot can be freed, and the gap is then read without. Shared with another galley, it comes in S; else in E, which takes it from
other cores of the galley (R335; DEDUCED, log entry 16) and is a grant of ownership (R367). The home of a page of mode 10 tracks
no copy (R404). -/
def State.fillGap (s : State) (w : Who) (lo hi a n : Nat) : State × List L1Entry :=
  let core := w.core
  let shared := s.sharedElsewhere core a n
  let s := if isPeer a then s
    else s.cores.foldl (fun t e => if e.1 = core then t else if shared then t.forwardedRead e.1 a n else t.recall e.1 a n false) s
  let s := s.l2Read a n
  let st : LineSt := if shared || isPeer a then .s else .e
  let mk := fun (psn : Bool) (r : Nat × Nat) => ({ key := r.1, len := r.2, st, psn, recs := [], busy := false } : L1Entry)
  let es := (runsOf (fun k => !s.poisonedHome k) a n).map (mk false) ++ (runsOf s.poisonedHome a n).map (mk true)
  let r := s.makeRoom w lo hi fun _ => (es.length, chunksOf es)
  if !r.2 then (r.1, [])
  else
    let s := r.1.updCore core fun c => { c with
      l1 := es ++ c.l1
      remote := if isPeer a then memWrite c.remote a (memRead s.mem a n) else c.remote }
    if isPeer a then (s, es)
    else
      let s := State.dirTrim { s with dir := dirEdit s.dir a n fun p =>
        if shared then (if p.1.contains (galleyOf core) then p.1 else galleyOf core :: p.1, p.2) else ([], some core) }
      (if shared then s else s.markPending a n, es)

/-- The maximal runs of [a, a + n) that the L1 does not hold (R196). -/
def State.gaps (s : State) (core a n : Nat) : List (Nat × Nat) := runsOf (fun k => !heldBy (s.core core).l1 (fun _ => true) k) a n

/-- Every gap of [a, a + n), within one region, is fetched (R196); each fetched entry counts in CNT10 and raises index-line events for a
strand. -/
def State.fill (s : State) (w : Who) (va a n : Nat) : State :=
  (s.gaps w.core a n).foldl (fun s g =>
    let r := s.fillGap w a (a + n) g.1 g.2
    if w.agent < 8 then
      r.2.foldl (fun s e => (s.updCtx w.core w.agent fun c => c.count 10 1).lineEvents w.core (va + (e.key - a)) e.key e.len) r.1
    else r.1) s

/-- After a lookup: the touched entries go first, and those of them that the lookup found coalesce; entries fetched for
its gaps do not (R196, R198). Pieces cut off outside [a, a + n) keep their place (DESIGN CHOICE, log entry 16). -/
def State.settle (s : State) (core a n : Nat) (gaps : List (Nat × Nat)) : State :=
  let fetched := fun (e : L1Entry) => gaps.any fun g => decide (g.1 ≤ e.key) && decide (e.key < g.1 + g.2)
  s.updCore core fun c =>
    let touched := c.l1.filter fun e => e.meets a (a + n)
    { c with l1 := coalesce (fun e => !fetched e) (2 * touched.length) touched ++ c.l1.filter fun e => !e.meets a (a + n) }

/-- R recorded on the bytes of a read, or W on those of a store that a pair holds (R147, R204): an entry that carries as much for a live
interval of the agent sets no new bit; another is cut at the edges, or, with no slot for the pieces, evicted with the record home (R200). -/
def State.recordAccess (s : State) (w : Who) (a n : Nat) (write : Bool) : State :=
  let r : Rec := ⟨w.agent, write, w.interval⟩
  let carries := fun (s : State) (e : L1Entry) => e.recs.any fun r => r.agent == w.agent && (r.write || !write) && s.recLive w.core r
  let need := fun (k : Nat) (s : State) => match s.entryAt w.core k with
    | some f => if carries s f then (0, 0) else f.extra (f.outside a (a + n) ++ f.inside a (a + n))
    | none => (0, 0)
  let s := ((s.core w.core).l1.filter fun e => e.meets a (a + n)).foldl (fun s e =>
    let k := max e.key a
    let p := s.makeRoom w a (a + n) (need k)
    match p.1.entryAt w.core k with
    | none => p.1
    | some f =>
      if carries p.1 f then p.1
      else if p.2 then
        p.1.updCore w.core fun c => { c with l1 := c.l1.flatMap fun g =>
          if g = f then (f.inside a (a + n)).map (fun h => { h with recs := r :: h.recs.filter fun q => q.agent != w.agent }) ++ f.outside a (a + n)
          else [g] }
      else p.1.evict w.core f) s
  (s.gaps w.core a n).foldl (fun s g => s.recordHome w.core g.1 g.2 r) s

/-- A read of [a, a + n), within one region, by an agent: gaps fetched, R recorded when the access makes records (R196, R204). -/
def State.l1Read (s : State) (w : Who) (va a n : Nat) (recorded : Bool) : State :=
  let gaps := s.gaps w.core a n
  let s := s.fill w va a n
  let s := if recorded && !isPeer a then s.recordAccess w a n false else s
  s.settle w.core a n gaps

/-- Ownership of the bytes not held E or M (R197). -/
def State.own (s : State) (core a n : Nat) : State :=
  let need := runsOf (fun k => !heldBy (s.core core).l1 (fun e => e.st != .s) k) a n
  need.foldl (fun s g =>
    let s := s.cores.foldl (fun t e => if e.1 = core then t else t.forwardedOwnership e.1 g.1 g.2) s
    let s := State.dirTrim { s with dir := dirEdit s.dir g.1 g.2 fun _ => ([], some core) }
    s.markPending g.1 g.2) s

/-- Bad dirty bytes are overwritten (R150). -/
def State.repairDirty (s : State) (a n : Nat) : State :=
  let hit := fun (b : BadPlace) => match b with | .dirty k => decide (a ≤ k) && decide (k < a + n) | _ => false
  if (s.cores.any fun e => e.2.bad.any hit) then
    { s with cores := s.cores.map fun (e : Nat × Core) => (e.1, { e.2 with bad := e.2.bad.filter fun b => !hit b }) }
  else s

/-- Bytes of a write that find no slot are performed at the home, with their ownership and, when it makes records, their W (R200). -/
def State.writePast (s : State) (w : Who) (a n : Nat) (noted : Bool) : State :=
  if n = 0 then s
  else
    let s := s.dropRange w.core a n
    let s := if noted then s.recordHome w.core a n ⟨w.agent, true, w.interval⟩ else s
    s.l2Write a n

/-- Step 3 of R200 for a write of [a, a + n): the entries that it would have cut are evicted and their bytes of it performed at the home; the
others, one run, become the M entry e, or go home too where even that finds no slot (DEDUCED, log entry 16). -/
def State.writeEdges (s : State) (w : Who) (e : L1Entry) (noted : Bool) : State :=
  let edges := s.edges w.core e.key e.stop
  let s := edges.foldl (fun s f => s.evict w.core f) s
  let lo := edges.foldl (fun x f => if f.key ≤ e.key then max x f.stop else x) e.key
  let hi := max lo (edges.foldl (fun x f => if lo < f.stop then min x f.key else x) e.stop)
  let mid := { e with key := lo, len := hi - lo }
  let old := (s.core w.core).l1.filter fun f => f.meets lo hi
  let s := (s.writePast w e.key (min lo e.stop - e.key) noted).writePast w hi (e.stop - hi) noted
  if hi ≤ lo then s
  else if s.hasRoom w.core lo (1 - old.length) (mid.chunks - chunksOf old) then
    s.updCore w.core fun c => { c with l1 := mid :: splitMap c.l1 lo hi fun _ => [] }
  else s.writePast w lo (hi - lo) noted

/-- A write of [a, a + n), within one region: ownership, remnants, one M entry with W for its agent when it makes records (R197), by the steps of
R200. The bytes themselves are written by the caller. -/
def State.l1Write (s : State) (w : Who) (a n : Nat) (recorded : Bool) : State :=
  let s := if isPeer a then s else s.own w.core a n
  let noted := recorded && !isPeer a
  let r : Rec := ⟨w.agent, true, w.interval⟩
  let inM := (s.core w.core).l1.any fun e =>
    e.st == .m && decide (e.key ≤ a) && decide (a + n ≤ e.stop) && (!noted || e.recs.any fun q => q.write && q.agent == w.agent && q.interval == w.interval)
  let s :=
    if inM then s
    else
      let e : L1Entry := { key := a, len := n, st := .m, psn := false, recs := if noted then [r] else [], busy := false }
      let need := fun (s : State) =>
        let old := (s.core w.core).l1.filter fun e => e.meets a (a + n)
        let new := e :: old.flatMap fun e => e.outside a (a + n)
        (new.length - old.length, chunksOf new - chunksOf old)
      let p := s.makeRoom w a (a + n) need
      if p.2 then p.1.updCore w.core fun c => { c with l1 := e :: splitMap c.l1 a (a + n) fun _ => [] }
      else p.1.writeEdges w e noted
  ((s.unpoison a n).repairDirty a n).settle w.core a n [(a, n)]

/-- Bytes taken exclusively for an atomic in the L1, with no record; va is the virtual address of the first (R196, R206, R304). -/
def State.l1Exclusive (s : State) (w : Who) (va a n : Nat) : State :=
  let gaps := s.gaps w.core a n
  let s := (s.fill w va a n).own w.core a n
  let s := s.cutOwn w a n true
  let s := s.updCore w.core fun c => { c with l1 := splitMap c.l1 a (a + n) fun e => [{ e with st := if e.st == .m then .m else .e }] }
  s.settle w.core a n gaps

/-- The bytes of a BUSY entry whose write-back is no longer under way are free again (R191, R202). -/
def State.clearBusy (s : State) (core key n : Nat) : State :=
  if (s.core core).l1.any fun e => e.busy && e.meets key (key + n) then
    let still := fun (e : L1Entry) =>
      s.fabric.packets.any fun p => p.core == core && p.agent == 8 && decide (p.key < e.stop) && decide (e.key < p.key + p.len)
    s.updCore core fun c =>
      { c with l1 := c.l1.map fun e => if e.busy && e.meets key (key + n) then { e with busy := still e } else e }
  else s

/-- A lookup of [a, a + n) by an agent touches a BUSY entry, or a gap of a page of mode 10 whose write-back is still under way, or that would be
fetched ahead of the agent's own packets to that peer, and waits (R85, R202, R409). -/
def State.lookupWaits (s : State) (core agent a n : Nat) : Bool :=
  let l := (s.core core).l1
  let gap := fun (lo hi : Nat) => (List.range n).any fun i => decide (lo ≤ a + i) && decide (a + i < hi) && !heldBy l (fun _ => true) (a + i)
  (l.any fun e => e.busy && e.meets a (a + n))
    || (isPeer a && s.fabric.packets.any fun p =>
          p.core == core && ((p.agent == 8 && (match p.kind with | .store => true | _ => false) && gap p.key (p.key + p.len))
            || (p.agent == agent && !p.performed && keyPeer p.key == keyPeer a && gap a (a + n))))

end Sys2Proof.Machine
end

