-- ==== Sys2Proof/Machine/Translate.lean ====
section
/-! DEFINITION. Addresses (R67, R88), translation (R340 to R343) and the checks of a whole extent before any byte is
performed (R77).
Readings of the spec that this file takes: DEDUCED, log entry 15. -/

namespace Sys2Proof.Machine

/-! ### Page-table entries (R340) -/

def pteValid (e : Word) : Bool := bitsAt e 0 1 == 1
def pteRead (e : Word) : Bool := bitsAt e 2 1 == 1
def pteWrite (e : Word) : Bool := bitsAt e 3 1 == 1
def pteExec (e : Word) : Bool := bitsAt e 4 1 == 1
def pteSize (e : Word) : Nat := bitsAt e 6 2
def pteFrame (e : Word) : Nat := bitsAt e 8 36
def pteMode (e : Word) : Nat := bitsAt e 44 2
def ptePeer (e : Word) : Nat := bitsAt e 46 18

/-- SZ of a leaf that fits a level (R340). -/
def leafSize (level : Nat) : Option Nat :=
  match level with
  | 2 => some 2
  | 3 => some 1
  | 4 => some 0
  | _ => none

/-- Bytes that a leaf of a level maps. -/
def levelBytes (level : Nat) : Nat :=
  match level with
  | 2 => 2 ^ 30
  | 3 => 2 ^ 21
  | _ => 2 ^ 16

/-- A malformed entry (R341). -/
def pteMalformed (own level : Nat) (e : Word) : Bool :=
  let sz := pteSize e
  let pa := if sz = 3 then pteFrame e * 2 ^ 11 else pteFrame e * 2 ^ 16
  let host := pa / 2 ^ 51 % 2 == 1
  bitsAt e 1 1 != 0 || bitsAt e 5 1 != 0
    || (if sz = 3 then decide (level = 4) else leafSize level != some sz)
    || (pteWrite e && !pteRead e)
    || (decide (2 ^ 39 ≤ pa) && !host)
    || ((pteMode e == 0 || pteMode e == 3) && ptePeer e != own)
    || ((pteMode e == 1 || pteMode e == 2) && ptePeer e == own)
    || (host && pteMode e != 0)

/-- Lowest index bit and number of index bits of a level (R340). -/
def levelBits (level : Nat) : Nat × Nat :=
  match level with
  | 0 => (48, 8)
  | 1 => (39, 9)
  | 2 => (30, 9)
  | 3 => (21, 9)
  | _ => (16, 5)

/-! ### Bad HBM sectors (R350) -/

/-- A byte is held dirty, by an L1 or by its home slice. -/
def State.dirtyHeld (s : State) (key : Nat) : Bool :=
  (s.cores.any fun e => heldBy e.2.l1 (fun e => e.st == .m) key) || s.inL2 (fun e => e.st == .m) key

/-- A 32-byte HBM sector with an uncorrectable error is found by a read or the scrub: poisoned in memory and reported (R350). Bytes
held dirty above it have a good value and keep it. -/
def State.findBad (s : State) (key : Nat) : State :=
  let sec := key / 32 * 32
  if s.badSectors.contains sec then
    let fresh := ((List.range 32).map fun i => sec + i).filter fun k => !s.poison.contains k && !s.dirtyHeld k
    let s := { s with badSectors := s.badSectors.filter fun k => k != sec, poison := fresh ++ s.poison }
    let die := sec / 2 ^ 37 % 4
    (s.notify die (.memoryError sec 0)).hostEvent (eventBytes (leBytes 8 sec ++ [BitVec.ofNat 8 die, Config.errorKind 0]) 4)
  else s

/-- Every such sector is found from which a read of [a, a + n) by a core's agent fetches: a byte that neither the core's L1 nor the home
slice holds, and no L1 holds dirty. -/
def State.findBadIn (s : State) (core : Option Nat) (a n : Nat) : State :=
  let fetched := fun k => !((match core with | some c => heldBy (s.core c).l1 (fun _ => true) k | none => false)
    || s.inL2 (fun _ => true) k || s.dirtyHeld k)
  (s.badSectors.filter fun k => decide (k < a + n) && decide (a < k + 32)
    && ((List.range 32).any fun i => decide (a ≤ k + i) && decide (k + i < a + n) && fetched (k + i))).foldl State.findBad s

/-- The walk from a table at a level: the leaf and its level, or the DETAIL of a page fault with the leaf that is malformed (R340, R341); and
the bad sectors that its reads have found. The fuel is the number of levels left. -/
def walkFrom (va : Nat) : Nat → State → Nat → Nat → Except (Nat × Option Word) (Word × Nat) × State
  | 0, s, _, _ => (.error (1, none), s)
  | fuel + 1, s, level, table =>
    let at8 := table + 8 * (va / 2 ^ (levelBits level).1 % 2 ^ (levelBits level).2)
    let s := (s.findBadIn none at8 8).l2Read at8 8
    let e := word (leNat (memRead s.mem at8 8))
    if !pteValid e then (.error (0, none), s)
    else if pteMalformed s.fabric.own level e then (.error (1, if pteSize e = 3 then none else some e), s)
    else if pteSize e = 3 then walkFrom va fuel s (level + 1) (pteFrame e * 2 ^ 11)
    else (.ok (e, level), s)

/-- The translation tables and tenant an access uses, and the cache that serves it (R342). -/
inductive TlbAt where
  | core (n : Nat)
  | galley (g : Nat)
  | none
  deriving DecidableEq, Repr

/-- An address space: bind record (for TROOT and MIGT), tenant, cache. -/
structure Space where
  bind : Nat
  tenant : Nat
  tlb : TlbAt
  deriving DecidableEq, Repr

def State.tlbOf (s : State) (a : TlbAt) : List TlbEntry :=
  match a with
  | .core n => (s.core n).tlb
  | .galley g => (s.galley g).tlb
  | .none => []

def State.setTlb (s : State) (a : TlbAt) (l : List TlbEntry) : State :=
  match a with
  | .core n => s.updCore n fun c => { c with tlb := l }
  | .galley g => s.setGalley g { s.galley g with tlb := l }
  | .none => s

/-- Entries of a translation cache (R342). -/
def tlbCapacity (a : TlbAt) : Nat :=
  match a with
  | .core _ => 512
  | .galley _ => 256
  | .none => 0

/-- A cached translation serves an address within its lease (R343). -/
def TlbEntry.serves (e : TlbEntry) (tenant va now : Nat) : Bool :=
  e.tenant == tenant && decide (e.va ≤ va) && decide (va < e.va + e.size) && decide (now < e.expires)

/-- The leaf of an address: cached, or walked and cached under a new lease. A walk that ends in a page fault caches
nothing (R343). -/
def State.translate (s : State) (sp : Space) (va : Nat) : Except (Nat × Option Word) TlbEntry × State :=
  match (s.tlbOf sp.tlb).find? fun e => e.serves sp.tenant va s.cycle with
  | some e => (.ok e, s)
  | none =>
    match walkFrom va 5 s 0 ((s.bind sp.bind).field 32 8) with
    | (.error d, s) => (.error d, s)
    | (.ok (pte, level), s) =>
      let size := levelBytes level
      let e : TlbEntry := { tenant := sp.tenant, va := va / size * size, size, pte, expires := s.cycle + 65536, count := 0 }
      let old := (s.tlbOf sp.tlb).filter fun o => !(o.tenant == e.tenant && o.va == e.va && o.size == e.size)
      (.ok e, s.setTlb sp.tlb ((e :: old).take (tlbCapacity sp.tlb)))

/-- The physical key that a leaf gives an address. -/
def leafKey (own : Nat) (e : TlbEntry) (va : Nat) : Nat :=
  let pa := pteFrame e.pte * 2 ^ 16 / e.size * e.size + va % e.size
  if pteMode e.pte = 1 ∨ pteMode e.pte = 2 then peerKey own (ptePeer e.pte) pa else pa

/-! ### Address forms (R67, R88) -/

/-- What an address register with an offset names. -/
inductive Place where
  | flat (va : Nat)
  | mesh (core off : Nat)
  deriving DecidableEq, Repr

/-- A mesh pointer to a core's offset. -/
def meshPointer (core off : Nat) : Word := word (2 ^ 62 + coreX core * 2 ^ 56 + coreY core * 2 ^ 51 + off)

/-- ea of R88 with the form checks of R67. -/
def resolve (p : Word) (off : Int) (n : Nat) (wr : Bool) : Except Trap Place :=
  let bad : Trap := { code := cAddress, wr, val := p }
  if bitsAt p 56 8 = 0 then
    let v := ((bitsAt p 0 56 : Nat) : Int) + off
    if v < 0 then .error bad
    else if (2 ^ 56 : Int) < v + (n : Int) then .error { bad with val := word (2 ^ 56) }
    else .ok (.flat v.toNat)
  else if bitsAt p 62 2 = 1 ∧ bitsAt p 19 32 = 0 then
    let o := ((bitsAt p 0 19 : Nat) : Int) + off
    if o < 0 ∨ (2 ^ 19 : Int) < o + (n : Int) then .error bad
    else .ok (.mesh (coreAt (bitsAt p 56 6) (bitsAt p 51 5)) o.toNat)
  else .error bad

/-! ### What an access is -/

/-- The kinds of access that the checks tell apart. -/
structure Req where
  read : Bool := false
  write : Bool := false
  fetch : Bool := false
  /-- Plain: makes records and is checked (R204); otherwise, when sync, checked as a read and a write (R206). -/
  plain : Bool := false
  sync : Bool := false
  /-- An operation that R309 admits on a phase cell. -/
  phase : Bool := false
  /-- A phase operation whose operand is out of range (R309). -/
  phaseBad : Bool := false
  /-- RFLUSH and RINV: no permission bit is checked (R118). -/
  anyPerm : Bool := false
  /-- The impression engine's accesses are exempt from R369 and R370; it looks at poison itself (R371). -/
  engine : Bool := false
  /-- The access must lie in package memory of mode 00 (R106, R322, R373). -/
  localOnly : Bool := false
  /-- The scope of an ordering access, when it has one: 0 to 5, 6 sequentially consistent (R50). -/
  scope : Option Nat := none
  /-- An atomic, and one whose operation host memory does not admit (R114). -/
  atomic : Bool := false
  fadd : Bool := false
  /-- An operand of a matrix command: host memory and pages of mode 01 and 10 are scope faults (R262). -/
  matrix : Bool := false
  /-- The topology generation of a remote operation (R406). -/
  gen : Word := 0
  /-- The destination of ST.REP: a page of mode 01 whose PEER is not used (R411). -/
  rep : Bool := false
  /-- Copies: a posted packet to an unreachable peer is no fault here (R408). -/
  posted : Bool := false
  /-- Where its packets have left, the checks made at issue are not made again (R406, R407). -/
  sent : Bool := false
  /-- The bytes are read by a later check, which judges their poison (R411). -/
  unread : Bool := false
  deriving DecidableEq, Repr

/-- Answer of a check: the extents, a trap, or a wait; a wait and a trap keep what the check has found. -/
inductive Check (α : Type) where
  | ok (a : α) (s : State)
  | trap (t : Trap) (s : State)
  | wait (s : State)
  deriving DecidableEq, Repr

/-- The scope fault of an access's bytes on a piece, by its memory and scope (R105, R106, R114, R302, R309). -/
def scopeFault (s : State) (core : Nat) (mode key : Nat) (cell : Bool) (r : Req) : Option Nat :=
  let remote := mode == 1 || mode == 2
  if r.localOnly && (mode != 0 || isHost key || isStore key) then some 0
  else if r.rep && mode != 1 then some 0
  else if r.matrix && (remote || isHost key) then some 0
  else if cell && (match r.scope with | some sc => decide (sc ≤ 2) || decide (sc = 6) | none => false) then some 5
  else
    match r.scope with
    | none => none
    | some sc =>
      if isStore key then (if sc = 6 then some 0 else none)
      else if remote || isHost key then (if sc = 5 then none else some 0)
      else if sc = 6 && s.spanDie && homeGalley key / 64 != dieOf core then some 4
      else none

/-! ### Window lines (R358) -/

/-- The number of the window line that a key lies in, when the window is open (R353, R358). -/
def State.windowLine (s : State) (key : Nat) : Option Nat :=
  let base := s.bar0.winbase.toNat / 2 ^ 28 % 2 ^ 23 * 2 ^ 28
  let h := key - 2 ^ 51
  if s.bar0.winbase.toNat % 2 = 1 ∧ isHost key ∧ base ≤ h ∧ h < base + 2 ^ 28 then some ((h - base) / 64) else none

/-- The line of a host key, as the CXL.cache requests name it. -/
def hostLine (key : Nat) : Nat := (key - 2 ^ 51) / 64

/-- A device access to a window byte, or an atomic on host memory, holds the line it needs; otherwise its request
to the host goes out and the access waits (R358, R362). -/
def State.needLine (s : State) (key : Nat) (exclusive atomic : Bool) : Option State :=
  let ask := fun (need : Bool) => if s.cxl.contains (hostLine key, need) then s else { s with cxl := s.cxl ++ [(hostLine key, need)] }
  match s.windowLine key with
  | some _ =>
    match find s.winLines (hostLine key) with
    | some true => none
    | some false => if exclusive then some (ask true) else none
    | none => some (ask exclusive)
  | none =>
    if isHost key && atomic then
      (match find s.winLines (hostLine key) with
       | some true => none
       | _ => some (ask true))
    else none

/-- The lines of the n bytes at a host key, one after another: the requests for those that the access lacks go out (R358). -/
def State.needLines (s : State) (key n : Nat) (exclusive atomic : Bool) : Option State :=
  let firsts := key :: (List.range ((key + n - 1) / 64 - key / 64)).map fun i => (key / 64 + 1 + i) * 64
  firsts.foldl (fun o k => ((o.getD s).needLine k exclusive atomic).or o) none

/-- After an atomic outside the window the line goes back to the host (R362). -/
def State.returnLine (s : State) (key : Nat) : State :=
  if isHost key && (s.windowLine key).isNone then { s with winLines := erase s.winLines (hostLine key) } else s

/-! ### Checks of one piece and of its bytes -/

/-- What an impression's policy makes of a read of a byte (R370): a trap code, a wait, or whether it is stale. -/
inductive Fresh where
  | ok
  | stale (handle : Nat)
  | wait
  | trap (code : Nat)
  deriving DecidableEq, Repr

/-- The check of one block under a policy (R370). -/
def blockCheck (handle : Nat) (m : Impression) (b : Nat) : Fresh :=
  if m.faulted.isSome then .trap cImpFaulted
  else
    match m.block b with
    | (.fresh, _) => .ok
    | (.publishing, _) => .wait
    | (.poisoned, _) => .trap cPoison
    | (.pending, tag) =>
      match m.policy with
      | 0 => .wait
      | 1 => if tag = 0 then .wait else .stale handle
      | _ => .trap cImpStale

/-- The verdicts on a byte read, over every impression and block it belongs to. -/
def State.freshness (s : State) (key : Nat) : List Fresh :=
  s.impressions.flatMap fun e => (e.2.derivedBlocks key).map (blockCheck e.1 e.2)

/-- What the checks have gathered: extents so far (in order), stale reads seen, and whether the access must wait. -/
structure Sofar where
  exts : List Extent := []
  stale : List Nat := []
  wait : Bool := false
  deriving DecidableEq, Repr

/-- The verdicts on a byte of an access: an instruction fetch is checked as the LDRO that it is (R42, R370). -/
def State.byteFresh (s : State) (r : Req) (key : Nat) : List Fresh :=
  if (r.read || r.fetch) && !r.engine && !r.anyPerm then s.freshness key else []

/-- The causes that a byte itself can raise, in the order of R77; none when it passes. -/
def byteCause (s : State) (w : Who) (r : Req) (key : Nat) : Option (Nat × Nat) :=
  let fr := s.byteFresh r key
  if fr.contains (.trap cImpFaulted) then some (cImpFaulted, 0)
  else if fr.contains (.trap cImpStale) then some (cImpStale, 0)
  else if !r.unread && (fr.contains (.trap cPoison)
      || ((r.read || r.fetch) && !r.engine && (if w.agent < 9 then s.poisonedAt w.core key else s.poisonedHome key))) then some (cPoison, 0)
  else if isPeer key || isStore key || r.engine then none
  else if r.sync then
    (match s.conflict w true key with
     | 0 => none
     | d => some (cRace, d))
  else if r.plain then
    (match s.conflict w r.write key with
     | 0 => none
     | d => some (cRace, d))
  else none

/-- The bytes of a piece, lowest first. -/
def byteScan (s : State) (w : Who) (r : Req) (va key : Nat) : Nat → Sofar → Except Trap Sofar
  | 0, a => .ok a
  | n + 1, a =>
    match byteCause s w r key with
    | some (code, detail) => .error { code, detail, wr := r.write, val := word va }
    | none =>
      let fr := s.byteFresh r key
      let stale := fr.filterMap fun f => match f with | .stale h => some h | _ => none
      byteScan s w r (va + 1) (key + 1) n
        { a with stale := stale ++ a.stale, wait := a.wait || fr.contains .wait }

/-- The packets of an agent's load or atomic at a key have left, and its answer is under way or has come (R404). -/
def State.hasLeft (s : State) (w : Who) (key : Nat) : Bool :=
  match (s.ctx w.core w.agent).wait with
  | .remote ids got => (got.any fun c => c.1 == key) || s.fabric.packets.any fun p => ids.contains p.id && decide (p.key ≤ key) && decide (key < p.key + p.len)
  | _ => false

/-- The permission bits of a leaf admit the access; RFLUSH and RINV test none (R118, R340). -/
def Req.allowed (r : Req) (pte : Word) : Bool :=
  r.anyPerm || ((!r.fetch || pteExec pte) && (!r.read || pteRead pte) && (!r.write || pteWrite pte))

/-- The DETAIL of the permission fault that a leaf raises by its bits and its MODE, if any (R341). -/
def permFault (s : State) (sp : Space) (r : Req) (pte : Word) : Option Nat :=
  if !r.allowed pte then some 0 else if s.modes sp.tenant / 2 ^ pteMode pte % 2 = 0 then some 3 else none

/-- A leaf maps phase cells at a key: a 64 KiB page of access mode 00 in a phase window (R308). -/
def isCell (e : TlbEntry) (key : Nat) : Bool := e.size == 65536 && pteMode e.pte == 0 && inPhaseWindow key

/-- The place in a piece of the first byte that a remote load must fetch from an unreachable peer (R408): of a page of mode 01 the
first, of one of mode 10 the first that the L1 does not hold; for an atomic, which its home performs, the first (R304). -/
def lostFetch (s : State) (core mode key n : Nat) (r : Req) : Option Nat :=
  if (mode = 1 ∨ mode = 2) ∧ r.read ∧ !r.anyPerm ∧ !r.posted ∧ !r.sent ∧ !s.fabric.reachable (keyPeer key) then
    (List.range n).find? fun i => mode == 1 || r.atomic || !heldBy (s.core core).l1 (fun _ => true) (key + i)
  else none

/-- The access waits for an announced operation: every one that is not sequentially consistent, but RFLUSH, RINV and writes of hardware. -/
def Req.heldBySc (r : Req) (w : Who) : Bool :=
  r.scope != some 6 && !r.anyPerm && !r.engine && (r.plain || r.sync || r.atomic || ((r.read || r.fetch) && decide (w.agent < 9)))

/-- Another agent's access, but a sequentially consistent one, to the bytes of an announced sequentially consistent operation waits until its
home has performed it: the operation's own check has passed, and it comes before what its window's close lets go on (R206, R294, R297, R303;
DEDUCED, log entry 15). -/
def State.scPending (s : State) (w : Who) (key n : Nat) : Bool :=
  s.scOps.any fun o => !(o.core == w.core && o.ctx == w.agent) && decide (key < o.key + 8) && decide (o.key < key + n)

/-- A flat piece within one 4 KiB region: permission, translation, scope, generation, then its bytes (R77). -/
def flatPiece (s : State) (w : Who) (sp : Space) (r : Req) (va n : Nat) (a : Sofar) : Check Sofar :=
  let fail := fun (s : State) (code detail : Nat) (at' : Nat) => Check.trap { code, detail, wr := r.write, val := word at' } s
  match s.translate sp va with
  | (.error (d, leaf), s) =>
    match leaf.bind (permFault s sp r) with
    | some p => fail s cPerm p va
    | none => fail s cPage d va
  | (.ok e, s) =>
    let mode := pteMode e.pte
    let key := leafKey s.fabric.own e va
    let cell := isCell e key
    match permFault s sp r e.pte with
    | some p => fail s cPerm p va
    | none =>
    if cell && !r.phase then fail s cPerm 0x20 (va / 8 * 8)
    else if cell && r.phaseBad then fail s cPerm 0x21 (va / 8 * 8)
    else if r.write && !r.engine && (s.isDerived key) then fail s cPerm 0x22 va
    else
      match scopeFault s w.core mode key cell r with
      | some d => fail s cScope d va
      | none =>
        if r.fadd && isHost key then fail s cType 0 va else
        let remote := mode = 1 ∨ mode = 2
        let r := { r with sent := r.sent && s.hasLeft w key }
        let lost := lostFetch s w.core mode key n r
        if remote ∧ !r.anyPerm ∧ !s.fabric.present then fail s cScope 0x10 va
        else if lost = some 0 then fail s cScope 0x11 va
        else if remote ∧ !r.anyPerm ∧ !r.sent ∧ r.gen.toNat < s.fabric.cgen then
          .trap { code := cStaleGen, wr := r.write, val := r.gen } s
        else
          let s := if (r.read || r.fetch) && isHbm key then s.findBadIn (if w.agent < 9 then some w.core else none) key n else s
          match byteScan s w r va key (lost.getD n) a with
          | .error t => .trap t s
          | .ok a =>
            match lost with
            | some i => fail s cScope 0x11 (va + i)
            | none =>
              let blocked := (remote ∧ !r.anyPerm ∧ !r.rep ∧ !r.sent ∧ s.fabric.stopped (keyPeer key))
                ∨ (w.agent < 9 ∧ mode ≠ 1 ∧ s.lookupWaits w.core w.agent key n)
                ∨ (r.heldBySc w ∧ s.scPending w key n)
              let ext : Extent := ⟨va, key, n, mode, cell⟩
              match if isHost key && !r.anyPerm && !r.engine then s.needLines key n (r.write || r.atomic) r.atomic else none with
              | some s => .ok { a with exts := a.exts ++ [ext], wait := true } s
              | none => .ok { a with exts := a.exts ++ [ext], wait := a.wait || decide blocked } s

/-- The lowest byte of the piece whose write meets code or scale bytes raises the fault there (R369): such a piece
is cut at its first such byte. -/
def cutDerived (s : State) (sp : Space) (r : Req) (va n : Nat) : Nat :=
  if !r.write || r.engine || s.impressions.isEmpty then n
  else
    match s.translate sp va with
    | (.error _, _) => n
    | (.ok e, s) =>
      match (List.range n).find? fun i => decide (0 < i) && s.isDerived (leafKey s.fabric.own e va + i) with
      | some i => i
      | none => n

/-- A flat extent, piece by piece in address order; the fuel bounds the pieces. -/
def flatCheck (w : Who) (sp : Space) (r : Req) : Nat → State → Nat → Nat → Sofar → Check Sofar
  | 0, s, _, _, a => .ok a s
  | fuel + 1, s, va, n, a =>
    if n = 0 then .ok a s
    else
      let m := cutDerived s sp r va (min n (4096 - va % 4096))
      match flatPiece s w sp r va m a with
      | .ok a s => flatCheck w sp r fuel s (va + m) (n - m) a
      | x => x

/-- An extent of a local store (R67, R151, R330). -/
def meshCheck (s : State) (w : Who) (sp : Space) (r : Req) (core off n : Nat) (a : Sofar) : Check Sofar :=
  let ptr := (meshPointer core off)
  let fail := fun (code detail : Nat) (val : Word) => Check.trap { code, detail, wr := r.write, val } s
  if !s.bound core sp.tenant then fail cPerm 0x10 ptr
  else if r.write ∧ 0x7F000 < off + n then fail cPerm 0x11 (meshPointer core (max off 0x7F000))
  else
    match scopeFault s w.core 0 (storeKey core off) false r with
    | some d => fail cScope d ptr
    | none =>
      let c := s.core core
      if c.dead && (r.read || r.atomic) then fail cPoison 0 (meshPointer core 0)
      else
        let ext : Extent := ⟨ptr.toNat, storeKey core off, n, 0, false⟩
        -- the units of an evicted core drain into its own store (R189, R331)
        .ok { a with exts := a.exts ++ [ext], wait := a.wait || (c.evicted && !c.dead && core != w.core) } s

/-- One extent: base value, signed offset, length. An extent of length 0 faults on nothing (R9). -/
def checkExtent (s : State) (w : Who) (sp : Space) (r : Req) (p : Word) (off : Int) (n : Nat) (a : Sofar) : Check Sofar :=
  if n = 0 then .ok a s
  else
    match resolve p off n r.write with
    | .error t => .trap t s
    | .ok (.flat va) => flatCheck w sp r (n / 4096 * 2 + n + 2) s va n a
    | .ok (.mesh core off) => meshCheck s w sp r core off n a

/-- The words of a local store that an extent touches. -/
def wordsTouched (key n : Nat) : List Nat :=
  let a := key - 2 ^ 72
  (List.range ((a + n - 1) / 8 - a / 8 + 1)).map fun i => a / 8 + i

end Sys2Proof.Machine
end

