-- ==== Sys2Proof/Machine/Teams.lean ====
section
/-! DEFINITION. Raw writes of bytes, starting and ending strands, teams and gangs (R316, R317, R320), and the death
of a core (R150 to R152).
Readings of the spec that this file takes: DEDUCED, log entry 26. -/

namespace Sys2Proof.Machine

/-! ### Bytes at their home -/

/-- Errors leave the words of a local store from lo that end by hi: they are overwritten whole (R150). -/
def State.repairWords (s : State) (core lo hi : Nat) : State :=
  let hit := fun (b : BadPlace) => match b with | .localStore w => decide (lo ≤ 8 * w) && decide (8 * w + 8 ≤ hi) | _ => false
  if (s.core core).bad.any hit then s.updCore core fun c => { c with bad := c.bad.filter fun b => !hit b } else s

/-- Bytes written where they are held; a write to a local store sets full bits, a dead core's store takes none
(R134, R151). -/
def State.putBytes (s : State) (key : Nat) (bs : List Byte) : State :=
  if bs.isEmpty then s
  else if isStore key then
    let core := (key - 2 ^ 72) / 2 ^ 19
    let off := (key - 2 ^ 72) % 2 ^ 19
    if (s.core core).dead then s
    else
      { s.repairWords core off (off + bs.length) with
        mem := memWrite s.mem key bs
        full := (wordsTouched key bs.length).foldl (fun l w => if l.contains w then l else w :: l) s.full }
  else { s.unpoison key bs.length with mem := memWrite s.mem key bs }

/-- A write at the home slice: L1 copies recalled, master blocks PENDING, bytes performed (R305, R355, R367). -/
def State.homeWrite (s : State) (key : Nat) (bs : List Byte) : State :=
  if isStore key || isPeer key then s.putBytes key bs
  else
    let s := (s.recallAll key bs.length).markPending key bs.length
    ((regions key bs.length).foldl (fun s r => s.l2Write r.1 r.2) s).putBytes key bs

/-- A read at the home slice: bad sectors that it fetches from are found (R350), dirty L1 copies are forwarded and written home (R201). -/
def State.homeRead (s : State) (key n : Nat) : State :=
  if isStore key || isPeer key then s
  else
    let s := if isHbm key then s.findBadIn none key n else s
    let s := s.cores.foldl (fun t e => t.forwardedRead e.1 key n) s
    (regions key n).foldl (fun s r => s.l2Read r.1 r.2) s

/-- The whole local store reads 0 and its full bits are 0 (R135). -/
def State.clearStore (s : State) (core : Nat) : State :=
  { s.repairWords core 0 (2 ^ 19) with
    mem := memClear s.mem (storeKey core 0) (2 ^ 19)
    full := s.full.filter fun w => w / 65536 != core }

/-- A write translated under a bind record's tenant, by hardware: nothing is written if a byte fails its checks
(R317, R416), nor before lines of the window are owned (R358). Release writes of hardware are not checked against records (R206). -/
def State.tenantWrite (s : State) (bind : Nat) (va : Word) (bs : List Byte) : Check Unit :=
  let sp : Space := { bind, tenant := (s.bind bind).ten, tlb := .none }
  match checkExtent s { core := 0, agent := 9, interval := 0 } sp { write := true, gen := word s.fabric.cgen } va 0 bs.length {} with
  | .ok a t =>
    if a.wait then .wait t
    else .ok () (a.exts.foldl (fun p e => (p.1.homeWrite e.key (p.2.take e.len), p.2.drop e.len)) (t, bs)).1
  | .trap f t => .trap f t
  | .wait t => .wait t

/-! ### Contexts -/

/-- Free contexts of a core, lowest first. -/
def Core.freeCtxs (c : Core) : List Nat := (List.range 8).filter fun i => (c.ctx i).st == .free

/-- Vector registers that live strands hold (R125). -/
def Core.vaUsed (c : Core) : Nat := ((List.range 8).map fun i => if (c.ctx i).st == .free then 0 else (c.ctx i).va).foldl (· + ·) 0

/-- Free contexts that a claim other than an arrival may take: not the last while an arrival waits (R83). -/
def Core.claimable (c : Core) : List Nat := if c.arrivals.isEmpty then c.freeCtxs else c.freeCtxs.dropLast

/-- A context freed, its intervals counted on. -/
def Ctx.freed (c : Ctx) : Ctx := { Ctx.reset with interval := c.interval + 1 }

/-- A context's marks of errors are gone: what it held is overwritten (R150). -/
def State.repairCtx (s : State) (core i : Nat) : State :=
  let hit := fun (b : BadPlace) => match b with | .stack k | .vector k | .masks k | .context k => k == i | _ => false
  if (s.core core).bad.any hit then s.updCore core fun c => { c with bad := c.bad.filter fun b => !hit b } else s

/-- What a starting strand is given (R63, R70, R320). -/
structure Launch where
  pc : Word
  g0 : Word
  g1 : Word
  prio : Nat
  va : Nat
  tenant : Nat
  gang : Nat
  team : Nat
  deriving DecidableEq, Repr

/-- A strand at its start: R63, R70, R405; DESIGN CHOICE, log entry 2 for registers without a start value. -/
def startCtx (old : Ctx) (cap cgen : Nat) (tbase : Word) (l : Launch) : Ctx :=
  { Ctx.reset with
    pc := l.pc
    rf := vset (vset (Vector.replicate 64 0) 0 l.g0) 1 l.g1
    prio := l.prio
    va := l.va
    cap
    tgen := word cgen
    st := .eligible
    tenant := l.tenant
    gang := l.gang
    tbase
    team := l.team
    interval := old.interval + 1 }

/-- TBASE of a bind record (R313). -/
def Bind.tbase (b : Bind) : Word := word (b.field 16 8)

/-- A strand starts in a free context; its skip count is 0 (R142), marks of errors in what stood in the context go, and clean mode-10 entries of
its core too, which may be older than what its launch comes after (R116, R150; DEDUCED, log entry 15). -/
def State.startStrand (s : State) (core i : Nat) (l : Launch) : State :=
  ((s.dropClean core).repairCtx core i).updCore core fun c =>
    { c.setCtx i (startCtx (c.ctx i) c.cap s.fabric.cgen (s.bind l.gang).tbase l) with skip := vset c.skip i 0 }

/-- The core's first strand of a gang starts the gang (R316). -/
def State.joinGang (s : State) (num : Nat) : State :=
  if (s.bind num).live then s
  else { s with binds := put s.binds num { s.bind num with live := true, failed := false, gstat := Vector.replicate 16 0, gather := Vector.replicate 16 0 } }

/-- A team starts: shape records written, launch record kept, NS + 1 strands started (R320). ctxs are the contexts
it takes. -/
def State.startTeam (s : State) (core : Nat) (team : Nat) (msg : List Word) (recs : List Byte) (ctxs : List Nat) : State :=
  let hdr := msg.getD 0 0
  let num := (s.bindOf core).getD 0
  let s := s.joinGang num
  let shapes := recs.take (64 * bitsAt hdr 36 7)
  let s := s.putBytes (storeKey core 0x7F000) (shapes ++ List.replicate (4096 - shapes.length) 0)
  let va := [0, 8, 16, 32].getD (bitsAt hdr 46 2) 0
  let s := s.setTeam team { core, gang := num, hset := 0, va, launch := some (msg, recs), live := true, waiting := false }
  let b := s.bind num
  ((List.range (bitsAt hdr 48 3 + 1)).zip ctxs).foldl (fun s p =>
    s.startStrand core p.2
      { pc := msg.getD 1 0, g0 := msg.getD 2 0, g1 := msg.getD 3 0 + word p.1, prio := bitsAt hdr 44 2, va,
        tenant := b.ten, gang := num, team }) s

/-- The reply of a target core to an active message and what it does (R320). -/
def State.launch (s : State) (core : Nat) (msg : List Word) (recs : List Byte) : Nat × State :=
  let hdr := msg.getD 0 0
  let c := s.core core
  let ns := bitsAt hdr 48 3 + 1
  let va := [0, 8, 16, 32].getD (bitsAt hdr 46 2) 0
  if (s.bind ((s.bindOf core).getD 0)).field 6 1 < va then (3, s)
  else if c.claimable.length < ns then (1, s)
  else if 64 < c.vaUsed + ns * va then (2, s)
  else
    (0, { s with nextTeam := s.nextTeam + 1 }.startTeam core s.nextTeam msg recs (c.claimable.take ns))

/-! ### Accumulators (R246) -/

/-- A name's tiles are released. -/
def State.releaseAcc (s : State) (core name : Nat) : State :=
  match vget none (s.core core).acc name with
  | none => s
  | some b =>
    let g := galleyOf core
    let ga := s.galley g
    let tiles := vset ga.tiles b.tile none
    let tiles := match b.second with | some t => vset tiles t none | none => tiles
    (s.setGalley g { ga with tiles }).updCore core fun c => { c with acc := vset c.acc name none }

/-- The names of a core release their tiles. -/
def State.releaseTiles (s : State) (core : Nat) : State := (List.range 4).foldl (fun s k => s.releaseAcc core k) s

/-! ### Completion of teams and gangs (R317) -/

/-- Live strands of a gang: core and context. -/
def State.gangStrands (s : State) (num : Nat) : List (Nat × Nat) :=
  s.cores.flatMap fun e => ((List.range 8).filter fun i => (e.2.ctx i).st != .free && (e.2.ctx i).gang == num).map fun i => (e.1, i)

/-- Live strands of a team. -/
def State.teamStrands (s : State) (team : Nat) : List (Nat × Nat) :=
  s.cores.flatMap fun e => ((List.range 8).filter fun i => (e.2.ctx i).st != .free && (e.2.ctx i).team == team).map fun i => (e.1, i)

/-- The copies of a gang that are not complete: core, tag, stopped on a fault. -/
def State.gangCopies (s : State) (num : Nat) : List (Nat × Nat × Bool) :=
  s.cores.flatMap fun e => (List.range 64).filterMap fun t =>
    match vget none e.2.copies t with
    | some p => if (s.team p.team).gang = num then some (e.1, t, p.fault.isSome) else none
    | none => none

/-- Tasks of a gang's teams: core, slot, ready. -/
def State.gangTasks (s : State) (num : Nat) : List (Nat × Nat × Bool) :=
  s.cores.flatMap fun e => (List.range 32).filterMap fun t =>
    match vget none e.2.tasks t with
    | some k => if (s.team k.team).gang = num then some (e.1, t, k.ready.isSome) else none
    | none => none

/-- A saved image holds a live strand, a copy that is not complete, a matrix command or a ready task of a team that p names (R317, R331). -/
def State.imageHolds (s : State) (p : Nat → Bool) (m : Image) : Bool :=
  ((List.range 8).any fun i => (m.saved.ctx i).st != .free && p (m.saved.ctx i).team)
    || (m.saved.copies.toList.any fun o => match o with | some c => p c.team | none => false)
    || (m.saved.mq.any fun q => p q.team)
    || (m.saved.tasks.toList.any fun o => match o with | some k => p k.team | none => false)

/-- Something of the gang other than strands and stopped copies is in flight: matrix commands, its decrements, launches and
arrivals in its rectangle, ready tasks, teams that wait for a core. -/
def State.gangBusy (s : State) (num : Nat) : Bool :=
  let inRect := fun core => (s.bind num).holds num core
  s.cores.any (fun e =>
    (e.2.mq.any fun q => (s.team q.team).gang == num)
      || (inRect e.1 && (!e.2.amsgs.isEmpty || !e.2.arrivals.isEmpty)))
    || (s.gangTasks num).any (fun t => t.2.2)
    || s.images.any (s.imageHolds fun t => (s.team t).gang == num)
    || s.teams.any (fun t => t.2.waiting && t.2.gang == num)
    || (s.queue ++ s.retries).any fun v => match v with | .decArrival _ _ _ _ gang => gang == num | _ => false

/-- A tag becomes idle: its copy is over and its CTAG bit is 1 (R215). -/
def Core.idleTag (c : Core) (tag : Nat) : Core := { c with copies := vset c.copies tag none, ctag := c.ctag ||| BitVec.ofNat 64 (2 ^ tag) }

/-- A copy under a tag is abandoned: its bytes stay, and its tag becomes idle with the release of R217 and no DEC (R228); where that
is at system scope the release is still to come. -/
def State.abandonCopy (s : State) (core tag : Nat) : State :=
  s.updCore core fun c =>
    match vget none c.copies tag with
    | some p => if p.far then c.updCopy tag fun p => { p with abandoned := true, fault := none, raised := false } else c.idleTag tag
    | none => c

/-- Quiescence: task slots discarded, the gang ended, its completion record written (R317). -/
def State.finishGang (s : State) (num : Nat) : State :=
  let tasks := s.gangTasks num
  let s := tasks.foldl (fun s t => s.updCore t.1 fun c => { c with tasks := vset c.tasks t.2.1 none }) s
  let b := s.bind num
  let status := if b.failed then 2 else if tasks.isEmpty then 0 else 1
  let rec16 := leBytes 1 status ++ [0, 0, 0] ++ leBytes 4 tasks.length ++ leBytes 8 (b.completed + 1)
  let s := { s with
    binds := put s.binds num { b with live := false, failed := false, completed := b.completed + 1 }
    teams := s.teams.map (fun (t : Nat × Team) => if t.2.gang = num then (t.1, { t.2 with live := false, launch := none }) else t) }
  let s := ((s.cores.map Prod.fst).filter fun n => b.holds num n && !(s.teams.any fun e => e.2.live && e.2.core == n)).foldl
    State.releaseTiles s
  match s.tenantWrite num (word (b.field 40 8)) rec16 with
  | .ok _ s =>
    if b.field 9 1 % 2 = 1 then
      s.hostEvent (eventBytes (rec16 ++ leBytes 2 b.ten ++ [BitVec.ofNat 8 (num / 64), BitVec.ofNat 8 (num % 64)]) 2)
    else s
  | .trap t s => s.notify (num / 64) (.recordFault num t)
  | .wait s => s

/-- The completion of a gang with HEV = 1 is held while the buffer for its event record is full (R356, R357). -/
def State.completionHeld (s : State) (num : Nat) : Bool := (s.bind num).field 9 1 % 2 == 1 && !s.bufferRoom false

/-- The completion record of a gang would wait for a line of the window, which it then asks for, or for a stopped dimension (R358, R407). -/
def State.recordWaits (s : State) (num : Nat) : Option State :=
  match s.tenantWrite num (word ((s.bind num).field 40 8)) (List.replicate 16 0) with
  | .wait t => some { s with cxl := t.cxl }
  | _ => none

/-- The gang completes if it is quiescent; copies stopped on faults that alone remain are abandoned first (R317). -/
def State.gangCheck (s : State) (num : Nat) : State :=
  if !(s.bind num).live || !(s.gangStrands num).isEmpty || s.gangBusy num then s
  else
    let cs := s.gangCopies num
    if cs.any fun c => !c.2.2 then s
    else
      let s := cs.foldl (fun s c =>
        let code := match vget none (s.core c.1).copies c.2.1 with | some p => (p.fault.map Trap.code).getD 0 | none => 0
        (s.abandonCopy c.1 c.2.1).notify (dieOf c.1) (.copyAbandoned c.1 c.2.1 code)) s
      if (s.gangCopies num).isEmpty && !s.completionHeld num then (s.recordWaits num).getD (s.finishGang num) else s

/-- Every gang is looked at again. -/
def State.gangsCheck (s : State) : State := (s.binds.map Prod.fst).foldl State.gangCheck s

/-- A team with no live strand and no occupied task slot completes; a core whose last team completes holds no
physical tile (R246, R317). -/
def State.teamCheck (s : State) (team : Nat) : State :=
  let t := s.team team
  if !t.live || t.waiting || !(s.teamStrands team).isEmpty || s.images.any (s.imageHolds (· == team)) ||
      (List.range 32).any (fun k => match vget none (s.core t.core).tasks k with | some x => x.team == team | none => false) then s
  else
    let s := s.setTeam team { t with live := false, launch := none }
    if s.teams.any (fun e => e.2.live && e.2.core == t.core) then s
    else s.releaseTiles t.core

/-! ### Barriers (R117) -/

/-- Members of a barrier are released: each passes its barrier instruction at its next attempt. -/
def State.passBarrier (s : State) (ms : List (Nat × Nat)) : State :=
  ms.foldl (fun s m => s.updCtx m.1 m.2 fun c => { c with arrived := .none, wait := .passed }) s

/-- The team barrier opens when every live strand has arrived. -/
def State.teamBarrier (s : State) (team : Nat) : State :=
  let ms := s.teamStrands team
  if !ms.isEmpty && ms.all fun m => (s.ctx m.1 m.2).arrived == .team then s.passBarrier ms else s

/-- A saved image holds a live strand of the gang. -/
def State.imageStrand (s : State) (num : Nat) (m : Image) : Bool :=
  (List.range 8).any fun i => (m.saved.ctx i).st != .free && ((m.saved.ctx i).gang == num || (s.team (m.saved.ctx i).team).gang == num)

/-- The gang barrier opens when every live strand has arrived and no team of the gang waits for a core (R152); it gathers the
counters that each strand had at its arrival (R328). -/
def State.gangBarrier (s : State) (num : Nat) : State :=
  let ms := s.gangStrands num
  if !ms.isEmpty && !(s.images.any (s.imageStrand num)) && !(s.teams.any fun t => t.2.waiting && t.2.gang == num)
      && ms.all fun m => (s.ctx m.1 m.2).arrived == .gang then
    let b := s.bind num
    let sum := fun i => ms.foldl (fun a m => a + (vget 0 (s.ctx m.1 m.2).barCnt i).toNat) (vget 0 b.gather i)
    let s := { s with binds := put s.binds num { b with gstat := Vector.ofFn fun i => sum i.val, gather := Vector.replicate 16 0 } }
    s.passBarrier ms
  else s

/-! ### The end of a strand (R100, R266, R317) -/

/-- Held commands and pending faults of an ending strand are discarded, the names its commands claimed released,
and the overseer told (R266). Of a held command whose fault has been raised the record names no fault (DESIGN CHOICE, log entry 21). -/
def State.discardMatrix (s : State) (core i : Nat) : State :=
  let c := s.core core
  let held := c.mq.any fun q => q.ctx == i && q.held
  let faults := (c.ctx i).mfaults
  if !held && faults.isEmpty then s
  else
    let s := s.updCore core fun c => { c with mq := c.mq.filter fun q => !(q.ctx == i && q.held) }
    let names := (List.range 4).filter fun n => match vget none c.acc n with | some b => b.claimer == i | none => false
    let s := names.foldl (fun s n => s.releaseAcc core n) s
    s.notify (dieOf core) (.exitDiscards core i ((faults.head?).map MFault.trap))

/-- The strand leaves its context: counters gathered, context free, barriers, team and gang looked at again. A hart that executes EXIT has no
strand to end: it goes on from PC 0 with its state as at its start (DESIGN CHOICE, log entry 17). -/
def State.leave (s : State) (core i : Nat) : State :=
  let x := s.ctx core i
  let b := s.bind x.gang
  let s := { s with binds := if b.live then put s.binds x.gang { b with gather := Vector.ofFn fun k => vget 0 b.gather k.val + (vget 0 x.cnt k.val).toNat } else s.binds }
  let s := s.updCtx core i Ctx.freed
  (((s.teamBarrier x.team).gangBarrier x.gang).teamCheck x.team).gangCheck x.gang

/-- What an ended strand leaves queued and bound no longer names its context. -/
def State.orphan (s : State) (core i : Nat) : State :=
  s.updCore core fun c =>
    { c with
      mq := c.mq.map fun q => if q.ctx = i then { q with ctx := 9 } else q
      acc := c.acc.map fun o => o.map fun b => if b.claimer = i then { b with claimer := 9 } else b }

/-- A strand ends (R100): a paired strand frees its secondary too. -/
def State.endStrand (s : State) (core i : Nat) : State :=
  let s := (s.discardMatrix core i).orphan core i
  let s := match (s.ctx core i).pair with
    | some p => s.updCtx p.core p.ctx Ctx.freed
    | none => s
  s.leave core i

/-! ### The death of a core (R150 to R152) -/

/-- The error control element of R129 for a dead neighbour n on port k; the port is known where it is read, so k is
left 0 here. -/
def deathElement (n : Nat) : Vec × Bool := (BitVec.ofNat 4096 (0xE000000000000000 + n), true)

/-- The foreman of a galley: the bind record's core, or the lowest-numbered live core (R152). -/
def State.foreman (s : State) (galley num : Nat) : Option Nat :=
  let cores := (List.range 8).map (coreInGalley galley)
  let f := coreInGalley galley ((s.bind num).field 8 1 % 8)
  if !(s.core f).dead then some f
  else (cores.filter fun c => !(s.core c).dead).foldl (fun m c => match m with | some x => some (min x c) | none => some c) none

/-- A core of a record's rectangle can take a team of ns strands with va vector registers each (R152). -/
def State.teamFits (s : State) (num ns va n : Nat) : Bool :=
  let c := s.core n
  (s.bind num).holds num n && !c.dead && !c.evicted && decide (ns ≤ c.claimable.length) && decide (c.vaUsed + ns * va ≤ 64)

/-- A team lost with its core starts again from its launch record, waits for a core with room, the overseer told, or fails
its gang (R152). -/
def State.restartTeam (s : State) (dead team : Nat) : State :=
  let t := s.team team
  let num := t.gang
  match t.launch with
  | some (msg, recs) =>
    let hdr := msg.getD 0 0
    if bitsAt hdr 43 1 = 1 then
      let ns := bitsAt hdr 48 3 + 1
      let rect := (List.range 2048).filter (s.teamFits num ns t.va)
      let pref := match s.foreman (galleyOf dead) num with
        | some f => if rect.contains f then [f] else rect
        | none => rect
      match pref with
      | n :: _ => s.startTeam n team msg recs ((s.core n).claimable.take ns)
      | [] => (s.setTeam team { t with waiting := true }).notify (num / 64) (.teamLost team)
    else
      let s := s.setTeam team { t with live := false, launch := none }
      { s with binds := put s.binds num { s.bind num with failed := true } }
  | none =>
    let s := s.setTeam team { t with live := false }
    { s with binds := put s.binds num { s.bind num with failed := true } }

/-- The first team that waits for a core and fits on this one, with its launch record (R152). -/
def State.waitingTeam (s : State) (core : Nat) : Option (Nat × List Word × List Byte) :=
  s.teams.findSome? fun e =>
    match e.2.launch with
    | some (msg, recs) =>
      if e.2.waiting && s.teamFits e.2.gang (bitsAt (msg.getD 0 0) 48 3 + 1) e.2.va core then some (e.1, msg, recs) else none
    | none => none

/-- The overseer places a waiting team on a core, as it places a team refused for capacity (R152). -/
def State.placeTeam (s : State) (core : Nat) : State :=
  match s.waitingTeam core with
  | some (team, msg, recs) => s.startTeam core team msg recs ((s.core core).claimable.take (bitsAt (msg.getD 0 0) 48 3 + 1))
  | none => s

/-- The other half of a registration pair whose core dies: a secondary is freed with its primary; a primary performs the stores it
holds and goes on unpaired (DESIGN CHOICE, log entry 11). -/
def State.partPair (s : State) (core i : Nat) : State :=
  match (s.ctx core i).pair with
  | none => s
  | some p =>
    if p.primary then s.updCtx p.core p.ctx Ctx.freed
    else
      match (s.ctx p.core p.ctx).pair with
      | none => s
      | some q =>
        let s := q.log.foldl (fun s e => s.homeWrite e.1.key e.2) s
        s.updCtx p.core p.ctx fun c => { c with pair := none, pairBit := false }

/-- A core is killed (R151): contexts and hart stop, dirty bytes go home poisoned, the core is sealed, neighbours
and the overseer are told, its teams are looked after (R152), its tiles released (R246), and gangs that had no other work left
complete (R317). What becomes of the live records of its agents the spec does not say: those in its L1 are dropped, those of its contexts at home end with
their intervals, and those of its hart stay live, its interval being open (DESIGN CHOICE, log entry 16). -/
def State.killCore (s : State) (core : Nat) : State :=
  let c := s.core core
  if c.dead then s
  else
    let dirty := c.l1.filter fun e => e.st == .m
    let teams := ((List.range 8).filterMap fun i => if (c.ctx i).st == .free then none else some (c.ctx i).team)
      ++ (List.range 32).filterMap fun k => (vget none c.tasks k).map Task.team
    let gangs := (teams.map fun t => (s.team t).gang).eraseDups
    let s := (List.range 8).foldl (fun s i => s.partPair core i) s
    -- step 2: dirty bytes home as poisoned ranges, the directory drops the core
    let s := c.l1.foldl (fun s e => s.dropRange core e.key e.len) s
    let s := dirty.foldl (fun s e => s.poisonRange e.key e.len) s
    let g := galleyOf core
    let s := match (s.galley g).running with
      | some r => if r.core = core then s.setGalley g { s.galley g with running := none, gens := (s.galley g).gens.map fun (k : Gen) => { k with running := false } } else s
      | none => s
    -- steps 1, 3, 5: contexts, hart, ports, copies and tasks; stopped copies keep their CTAG bits at 0
    let s := s.updCore core fun c =>
      { c with
        ctxs := c.ctxs.map Ctx.freed
        hartStopped := true
        dead := true
        evicted := false, saved := false
        bad := []
        doomed := false
        fifo := Vector.replicate 4 []
        chan := Vector.replicate 16 []
        returned := Vector.replicate 20 []
        tasks := Vector.replicate 32 none
        copies := Vector.replicate 64 none
        queue := []
        taken := []
        mq := []
        amsgs := []
        arrivals := [] }
    -- step 4: the error control word on every channel that faces the dead core
    let s := (List.range 4).foldl (fun s d =>
      match neighbour core d with
      | some n => if (s.core n).dead then s else
          (List.range 4).foldl (fun s k => s.post (.queueElementArrival n (opposite d) k (deathElement core).1 (deathElement core).2)) s
      | none => s) s
    -- step 6
    let s := (s.notify (dieOf core) (.coreKilled core)).hostEvent (eventBytes (leBytes 2 core) 3)
    let s := (teams.eraseDups.filter fun t => (s.teamStrands t).isEmpty && (s.team t).live && (s.team t).core == core).foldl
      (fun s t => s.restartTeam core t) s
    ((gangs.foldl State.gangBarrier s).releaseTiles core).gangsCheck

end Sys2Proof.Machine
end

