-- ==== Sys2Proof/Machine/Memory.lean ====
section
/-! DEFINITION. The accesses of the agent whose step it is: plain reads and writes, ordering accesses, releases and
acquires at the six scopes (R50, R84, R87, R204, R304, R404, R409).
Readings of the spec that this file takes: DEDUCED, log entry 15. -/

namespace Sys2Proof.Machine

/-! ### The agent -/

/-- The agent as the records name it (R191). -/
def State.who (s : State) : Who := { core := s.me.1, agent := s.me.2, interval := s.intervalOf s.me.1 s.me.2 }

/-- The agent in an access that touches these extents (R200). -/
def Who.overExts (w : Who) (es : List Extent) : Who := w.across (es.map fun e => (e.key, e.len))

/-- The address space of the agent: the hart uses the record that binds its core (R211). -/
def State.space (s : State) : Space :=
  if s.isHart then
    let b := (s.bindOf s.me.1).getD 0
    { bind := b, tenant := (s.bind b).ten, tlb := .core s.me.1 }
  else { bind := s.my.gang, tenant := s.my.tenant, tlb := .core s.me.1 }

/-- The generation of the agent's remote operations: a hart's own accesses carry the current one. -/
def State.gen (s : State) : Word := if s.isHart then word s.fabric.cgen else s.my.tgen

/-! ### Checks -/

/-- What a check, begun at s, has found in t whatever becomes of the access: bad sectors, cached walks (R343, R350). -/
def State.findings (s t : State) (core : Nat) : List Finding :=
  ((s.badSectors.filter fun k => !t.badSectors.contains k).map .sector)
    ++ if (t.core core).tlb = (s.core core).tlb then [] else [.walked (t.core core).tlb]

/-- Run a check: a trap leaves the instruction undone but keeps what was found; a wait stalls. -/
def runCheck {α : Type} (c : State → Check α) : M α := fun s =>
  match c s with
  | .ok a t => .ok (a, t)
  | .trap t s' => .error (.trap t (s.findings s' s.me.1))
  | .wait s' => if s'.cxl = s.cxl then .error .stall else .error (.stallKeep { s with cxl := s'.cxl })

/-- Extents checked one after another, traps before waits (R77, R370). -/
def checkMany (w : Who) (sp : Space) (r : Req) : List (Word × Int × Nat) → State → Sofar → List (List Extent) → Check (List (List Extent) × Sofar)
  | [], s, a, out => if a.wait then .wait s else .ok (out, a) s
  | e :: t, s, a, out =>
    match checkExtent s w sp r e.1 e.2.1 e.2.2 { a with exts := [] } with
    | .ok b s => checkMany w sp r t s b (out ++ [b.exts])
    | .trap f s => .trap f s
    | .wait s => .wait s

/-- Impressions read stale under ALLOW: STALE set (R370). -/
def State.markStale (s : State) (hs : List Nat) : State :=
  { s with impressions := s.impressions.map (fun (e : Nat × Impression) => if hs.contains e.1 then (e.1, { e.2 with stale := true }) else e) }

/-- A stale read of a copy, a command or a stream element: CNT5 of the issuing context counts (R370). -/
def State.noteStale (s : State) (core ctx : Nat) (hs : List Nat) : State :=
  if hs.isEmpty then s else (s.markStale hs).updCtx core ctx fun c => c.count 5 1

/-- A stale read by an instruction: its CNT5 counts once, whatever the number of its bytes and attempts (R370). -/
def State.noteStaleOnce (s : State) (core ctx : Nat) (hs : List Nat) : State :=
  if hs.isEmpty then s
  else if (s.ctx core ctx).staleCounted then s.markStale hs
  else (s.noteStale core ctx hs).updCtx core ctx fun c => { c with staleCounted := true }

/-- Accesses of a strand to a page of mode 11 are counted; the one that brings the count to MIGT makes a migration
due (R79, R342). -/
def State.countPage (s : State) (core ctx : Nat) (e : Extent) : State :=
  let x := s.ctx core ctx
  if e.mode ≠ 3 || ctx = 8 then s
  else
    match (s.core core).tlb.find? fun t => t.serves x.tenant e.va s.cycle with
    | none => s
    | some t =>
      let reach := (s.bind x.gang).field 10 2 ≤ t.count + 1
      let t' := { t with count := if reach then 0 else t.count + 1 }
      let s := s.updCore core fun c => { c with tlb := c.tlb.map fun x => if x = t then t' else x }
      if reach then
        let g := homeGalley e.key
        (s.notify (dieOf core) (.hotPage core e.va)).updCtx core ctx fun c => { c with hot := some (coreInGalley g (e.key / 4096 % 8)) }
      else s

/-- One access counts once on each page of mode 11 that it touches: its first piece, and a piece at a page's start. -/
def State.countPages (s : State) (core ctx : Nat) (es : List Extent) : State :=
  (es.zipIdx).foldl (fun s p =>
    let fresh := match (s.core core).tlb.find? fun t => t.serves (s.ctx core ctx).tenant p.1.va s.cycle with
      | some t => p.1.va == t.va
      | none => true
    if p.2 = 0 || fresh then s.countPage core ctx p.1 else s) s

/-- The instruction's accesses to pages of mode 11 are complete, and count (R79, R342). -/
def State.countTouched (s : State) (core ctx : Nat) : State :=
  match (s.ctx core ctx).touched with
  | [] => s
  | l => (l.foldl (fun t es => t.countPages core ctx es) s).updCtx core ctx fun c => { c with touched := [] }

/-- An extent of an element on a page of mode 11 waits for the end of the instruction to count there, once whatever the attempts. -/
def State.touch (s : State) (els : List (List Extent)) : State :=
  match els.filter fun es => (es.any fun e => e.mode == 3) && !s.my.touched.contains es with
  | [] => s
  | l => s.updMy fun c => { c with touched := c.touched ++ l }

/-- An extent meets bytes of an ST.SC of the context that its home has not performed: program order makes it wait (R85, R302). -/
def State.afterSc (s : State) (core ctx : Nat) (e : Extent) : Bool :=
  s.scOps.any fun o => o.kind == 1 && o.core == core && o.ctx == ctx && decide (e.key < o.key + 8) && decide (o.key < e.key + e.len)

/-- An extent meets bytes of the agent's own ST.SC that its home has not performed. -/
def State.behindSc (s : State) (e : Extent) : Bool := s.afterSc s.me.1 s.me.2 e

/-! ### The strand's write streams (R183, R184) -/

/-- Signed offset of element j. -/
def Stream.offset (t : Stream) (j : Nat) : Int :=
  ((j % max 1 t.len0 : Nat) : Int) * t.step0.toInt + ((j / max 1 t.len0 : Nat) : Int) * t.step1.toInt

/-- The stream bound to port k of a context. -/
def State.streamAt (s : State) (core ctx k : Nat) : Option Stream :=
  match vget .plain (s.ctx core ctx).ports k with | .stream t => some t | _ => none

def State.setStream (s : State) (core ctx k : Nat) (t : Stream) : State :=
  s.updCtx core ctx fun c => { c with ports := vset c.ports k (.stream t) }

/-- An appended element joins its write stream; none while that holds 4 (R128, R183). -/
def State.append (s : State) (core ctx k : Nat) (t : Stream) (v : Vec) (n : Nat × Nat) : Option State :=
  if t.buf.length < 4 then some (s.setStream core ctx k { t with buf := t.buf ++ [v], stamps := t.stamps ++ [n], next := t.next + 1 }) else none

/-- Appends to write streams among pending writes, in order, where there is room; the others stay pending. An append is an event of the
instruction that made it, so an access behind it need not wait for the boundary at which the write lands (R85, R184; DEDUCED, log entry 15). -/
def State.appendNow (s : State) (core ctx : Nat) : List Pending → State × List Pending
  | [] => (s, [])
  | p :: l =>
    let keep := fun (_ : Unit) => let r := s.appendNow core ctx l; (r.1, p :: r.2)
    match p.land with
    | .append k v n =>
      (match s.streamAt core ctx k with
       | some t => (match s.append core ctx k t v n with | some s' => s'.appendNow core ctx l | none => keep ())
       | none => keep ())
    | _ => keep ()

/-- The extents that the stream's element j takes, where its address is mapped. -/
def State.elementExts (s : State) (core ctx : Nat) (t : Stream) (j : Nat) : List Extent :=
  match checkExtent s { core, agent := ctx, interval := 0 } { bind := (s.ctx core ctx).gang, tenant := (s.ctx core ctx).tenant, tlb := .core core } { anyPerm := true }
      t.base (t.offset j) 512 {} with
  | .ok a _ => a.exts
  | _ => []

/-- When the strand issued the appends to a port that are pending (R52, R184). -/
def Ctx.pendingAppends (c : Ctx) (k : Nat) : List Nat := c.pend.filterMap fun p => match p.land with | .append j _ m => if j = k then some m.2 else none | _ => none

/-- The elements that a port's write stream has yet to write, those among them that were appended before a tick, the pending ones too: a faulted
stream writes none (R183, R184). -/
def State.unwritten (s : State) (core ctx k before : Nat) : List Extent :=
  match s.streamAt core ctx k with
  | none => []
  | some t =>
    if !t.write || t.fault.isSome then []
    else ((t.stamps.map Prod.snd ++ (s.ctx core ctx).pendingAppends k).filter fun m => decide (m < before)).zipIdx.flatMap fun p =>
      s.elementExts core ctx t (t.moved + p.2)

/-- An extent of a transfer on port k meets bytes of an element that the strand has appended to another write stream before the transfer's access
was issued, and that is not written (R85, R184). -/
def State.behindAppend (s : State) (core ctx k order : Nat) (e : Extent) : Bool :=
  (List.range 8).any fun j => j != k &&
    (s.unwritten core ctx j order).any fun f => decide (e.key < f.key + f.len) && decide (f.key < e.key + e.len)

/-- An extent meets bytes of an element that the agent has appended to a write stream and that is not written: its own later access
waits for the transfer (R85, R184). -/
def State.behindStream (s : State) (e : Extent) : Bool :=
  !s.isHart && (List.range 8).any fun k =>
    (s.unwritten s.me.1 s.me.2 k s.tick).any fun f => decide (e.key < f.key + f.len) && decide (f.key < e.key + e.len)

/-- The strand's own ST.SCs, and the elements appended to its write streams before a tick, that no home has performed. -/
def State.unperformed (s : State) (core ctx before : Nat) : List Extent :=
  ((s.scOps.filter fun o => o.kind == 1 && o.core == core && o.ctx == ctx).map fun o => ⟨o.key, o.key, 8, 0, false⟩)
    ++ (List.range 8).flatMap fun k => s.unwritten core ctx k before

/-- Some of the extents in own hold a master byte of a block that an extent read under WAIT covers: the read waits for the recomputation that
reads those writes, so it first waits for them (R385). -/
def State.behindMaster (s : State) (own : List Extent) (e : Extent) : Bool :=
  !own.isEmpty && !isStore e.key && s.impressions.any fun m => m.2.policy == 0 &&
    (((List.range e.len).flatMap fun i => m.2.derivedBlocks (e.key + i)).eraseDups.any fun b => (m.2.masterKeys b).any fun k =>
      match k with
      | some k => own.any fun f => decide (f.key ≤ k) && decide (k < f.key + f.len)
      | none => false)

/-- The held stores of the agent's pair (R147). -/
def State.heldStores (s : State) : List Extent := match s.my.pair with | some p => p.log.map Prod.fst | none => []

/-- An access that must wait for the agent's own writes: the appends that have room are made, and a pair that holds a store compares. -/
def waitForWrites (compares : Bool) : M Unit := do
  let s ← get
  let r := s.appendNow s.me.1 s.me.2 s.my.pend
  stop (.stallKeep (r.1.updMy fun c => { c with pend := r.2, st := .stalled, releaseDue := c.releaseDue || compares }))

/-- A read of code or scale bytes waits for the agent's own writes of their blocks' master bytes (R385). -/
def masterWaits (es : List Extent) : M Unit := do
  let s ← get
  if es.any (s.behindMaster (s.unperformed s.me.1 s.me.2 s.tick ++ s.heldStores)) then waitForWrites (es.any (s.behindMaster s.heldStores))

/-- The checks of R77 over every extent of the instruction, by the agent, where no byte is accessed. -/
def checkOnly (r : Req) (es : List (Word × Int × Nat)) : M (List (List Extent)) := do
  let s ← get
  let (out, a) ← runCheck fun s => checkMany s.who s.space { r with gen := s.gen, sent := true } es s {} []
  if out.any fun x => x.any s.behindSc then stall
  if out.any fun x => x.any s.behindStream then waitForWrites false
  if r.read && !s.impressions.isEmpty && !s.isHart then masterWaits out.flatten
  change fun t => t.noteStaleOnce s.me.1 s.me.2 a.stale
  pure out

/-- The checks of R77 over every extent of the instruction's accesses, which count on their pages when it completes (R342). -/
def check (r : Req) (es : List (Word × Int × Nat)) : M (List (List Extent)) := do
  let out ← checkOnly r es
  change fun t => t.touch out
  pure out

/-! ### Bad local-store data (R150) -/

/-- Uncorrectable data met by an access: the core that it kills, how many bytes of the extent lie before it, and what a reader on another
core takes as EVAL of its poison trap (R150, R151). -/
structure Bad where
  core : Nat
  before : Nat
  val : Word
  deriving DecidableEq, Repr

/-- The lowest uncorrectable data among the bytes of an extent, in a local store or a dirty L1 entry. Of a local store EVAL is the mesh pointer
of its first byte, as for a dead core; of a dirty byte that another core reads the spec gives no EVAL, and the model raises the poison trap
at that byte, as R207 does for the poisoned byte that it is from then on (DESIGN CHOICE, log entry 11). -/
def State.badData (s : State) (e : Extent) : Option Bad :=
  if isStore e.key then
    let core := (e.key - 2 ^ 72) / 2 ^ 19
    ((wordsTouched e.key e.len).find? fun w => (s.core core).bad.contains (.localStore (w % 65536))).map
      fun w => ⟨core, w * 8 - (e.key - 2 ^ 72), meshPointer core 0⟩
  else
    ((List.range e.len).findSome? fun i =>
      (s.cores.find? fun c => c.2.bad.contains (.dirty (e.key + i))).map fun c => ⟨c.1, i, word (e.va + i)⟩)

/-- Consumption of bad data: the core dies, a remote reader takes 0x12 (R150, R151). -/
def consume (es : List Extent) : M Unit := do
  let s ← get
  match es.filterMap s.badData with
  | [] => pure ()
  | c :: _ =>
    if c.core = s.me.1 then stop (.done (s.killCore c.core))
    else stop (.trap { code := cPoison, val := c.val } [.kill c.core])

/-! ### Reading and writing bytes -/

/-- The agent's latest store to a byte that its pair's log holds (R85, R147). -/
def State.logged (s : State) (key : Nat) : Option Byte :=
  let log := match s.my.pair with | some p => p.log | none => []
  (log.reverse.find? fun c => decide (c.1.key ≤ key) && decide (key < c.1.key + c.1.len)).map fun c => c.2.getD (key - c.1.key) 0

/-- A byte as the agent sees it: its pair's log first (R85, R147), the L1's copy of a mode-10 page, then memory. -/
def State.seenByte (s : State) (mode key : Nat) : Byte :=
  match s.logged key with
  | some b => b
  | none => if mode = 2 && heldBy s.myCore.l1 (fun _ => true) key then memByte s.myCore.remote key else memByte s.mem key

/-- The bytes of checked extents, in order. -/
def State.seenBytes (s : State) (es : List Extent) : List Byte :=
  es.flatMap fun e => (List.range e.len).map fun i => s.seenByte e.mode (e.key + i)

/-- The extents of a page of mode 01: requests go to the home package and the strand stalls until the data has
returned; the answer overlays the read, and stays until the instruction ends (R404). -/
def remoteReads (es : List Extent) : M (List Host.Cell) := do
  let far := es.filter fun e => e.mode == 1
  if far.isEmpty then pure []
  else
    let s ← get
    let (ids, got) := match s.my.wait with | .remote ids got => (ids, got) | _ => ([], [])
    if s.fabric.packets.any fun p => ids.contains p.id then stall
    else
      match far.filter fun e => !got.any fun c => c.1 == e.key with
      | [] => pure got
      | ask =>
        let first := s.fabric.nextPacket
        let t := ask.foldl (fun t e => t.send s.me.1 s.me.2 e.key (word e.va) [] e.len .load) s
        stop (.stallKeep (t.updMy fun c => { c with wait := .remote (ids ++ (List.range ask.length).map fun i => first + i) got }))

/-- Bytes with a remote answer laid over those that the pair's log does not hold. -/
def State.overlay (s : State) (got : List Host.Cell) (es : List Extent) (bs : List Byte) : List Byte :=
  if got.isEmpty then bs
  else
    let keys := es.flatMap fun e => (List.range e.len).map fun i => e.key + i
    (keys.zip bs).map fun p =>
      match s.logged p.1, got.find? fun c => c.1 == p.1 with
      | none, some c => c.2
      | _, _ => p.2

/-- What a read does to the caches: gaps filled, R recorded for a plain read (R196, R204). A phase cell is read at
its home (R308). -/
def State.touchRead (s : State) (w : Who) (plain : Bool) (e : Extent) : State :=
  if isStore e.key || e.mode == 1 || e.cell then s else s.l1Read w e.va e.key e.len plain

/-- A read of several checked element extents; their bytes in order. -/
def readExts (plain : Bool) (els : List (List Extent)) : M (List (List Byte)) := do
  let es := els.flatten
  consume es
  let got ← remoteReads es
  change fun s => es.foldl (fun t e => t.touchRead (s.who.overExts es) plain e) s
  let s ← get
  pure (els.map fun e => s.overlay got e (s.seenBytes e))

/-- Bytes of a mode-10 page that a write finds room for in the L1 go to the core's copy; the others leave as posted packets (R200, R404). -/
def State.writeRemote (s : State) (w : Who) (e : Extent) (bs : List Byte) : State :=
  let held := heldBy (s.core w.core).l1 (fun l => l.st == .m)
  let part := fun (r : Nat × Nat) => (bs.drop (r.1 - e.key)).take r.2
  let s := (runsOf held e.key e.len).foldl (fun s r => s.updCore w.core fun c => { c with remote := memWrite c.remote r.1 (part r) }) s
  (runsOf (fun k => !held k) e.key e.len).foldl (fun s r => s.send w.core w.agent r.1 (word (e.va + (r.1 - e.key))) (part r) r.2 .store) s

/-- A write performed at one checked extent (R134, R197, R404). -/
def State.performWrite (s : State) (w : Who) (plain : Bool) (e : Extent) (bs : List Byte) : State :=
  if isStore e.key then s.putBytes e.key bs
  else if e.mode = 1 then s.send w.core w.agent e.key (word e.va) bs e.len .store
  else if e.mode = 2 then (s.l1Write w e.key e.len plain).writeRemote w e bs
  else (s.l1Write w e.key e.len plain).putBytes e.key bs

/-- A write by the agent: a paired strand's store is held in its log (R147), where it stands checked and recorded from then on: an access of
another agent before it is performed meets its W (R204, R297; DEDUCED, log entry 11). -/
def State.writeExt (s : State) (w : Who) (plain : Bool) (e : Extent) (bs : List Byte) : State :=
  match s.my.pair with
  | some p =>
    let s := if plain && !isStore e.key && !isPeer e.key && !e.cell then s.recordAccess w e.key e.len true else s
    s.updMy fun c => { c with pair := some { p with log := p.log ++ [(e, bs)] } }
  | none => s.performWrite w plain e bs

/-- A write of bytes over the extents of one element. -/
def State.writeExts (s : State) (w : Who) (plain : Bool) (es : List Extent) (bs : List Byte) : State :=
  (es.foldl (fun (p : State × List Byte) e =>
    (p.1.writeExt (w.overExts es) plain e (p.2.take e.len), p.2.drop e.len)) (s, bs)).1

/-- The agent writes an element's bytes. -/
def writeBytes (plain : Bool) (es : List Extent) (bs : List Byte) : M Unit :=
  change fun s => s.writeExts s.who plain es bs

/-- Each store instruction of a paired strand takes one entry of the 512 of its log, a vector store too, whatever its elements (R147; that the
entries are counted by instruction is a DESIGN CHOICE, log entry 11). -/
def noteStore : M Unit :=
  change fun s => match s.my.pair with
    | some p => s.updMy fun c => { c with pair := some { p with stores := p.stores + 1 } }
    | none => s

/-! ### Whole accesses -/

/-- The address is a multiple of the length. -/
def isAligned (p : Word) (off : Int) (n : Nat) : Bool := decide ((((bitsAt p 0 56 : Nat) : Int) + off) % (n : Int) = 0)

/-- Plain read of n bytes at p + off (R102); an aligned LD.D may read a phase cell (R309). -/
def load (p : Word) (off : Int) (n : Nat) : M (List Byte) := do
  let es ← check { read := true, plain := true, phase := n == 8 && isAligned p off n } [(p, off, n)]
  let bs ← readExts true es
  pure (bs.flatten)

/-- Plain write of bytes at p + off. -/
def store (p : Word) (off : Int) (bs : List Byte) : M Unit := do
  let es ← check { write := true, plain := true } [(p, off, bs.length)]
  noteStore
  writeBytes true es.flatten bs

/-- Form and bounds of an extent of n bytes at p, as ea tests them before any check of R77 (R67, R88). -/
def formOk (p : Word) (n : Nat) (wr : Bool) : M Unit :=
  match resolve p 0 n wr with
  | .ok _ => pure ()
  | .error t => stop (.trap t [])

/-- The address must be aligned, else the address fault with DETAIL 0x01 and EVAL the base value (R104). A misaligned access whose
base also breaks the form or bounds of ea raises this fault: it is tested first (DESIGN CHOICE, log entry 15). -/
def aligned (p : Word) (off : Int) (n : Nat) (wr : Bool) : M Unit :=
  require (isAligned p off n) cAddress 1 p wr

/-! ### Releases and acquires (R84, R292, R409) -/

/-- The current synchronisation interval ends (R84). -/
def endInterval : M Unit := change fun s => s.updMy fun c => { c with interval := c.interval + 1 }

/-- Packets a release waits for: the agent's, and the write-backs of its core. -/
def State.outstanding (s : State) (w : Who) : Bool :=
  s.fabric.packets.any fun p => p.core == w.core && (p.agent == w.agent || p.agent == 8) && (match p.kind with | .store => true | .rep _ => true | _ => false)

/-- A release at a scope (0 to 5): earlier writes are performed, posted ones too beyond the strand's own scope (R292); the
interval ends. Beyond the core, whose members share its L1, dirty bytes of mode 10 go home first: at system scope by R409, at the others since
a member on another core would read the older byte at its home (R116, R294; DEDUCED, log entry 15). At system scope a lost posted byte is
raised (R408). -/
def release (scope : Nat) : M Unit := do
  let s ← get
  if scope ≥ 2 then
    match if scope = 5 then s.my.lost else none with
    | some a => stop (.trap { code := cScope, detail := 0x12, wr := true, val := a } [.lostByte])
    | none =>
      let t := s.cleanRemote s.me.1
      if t.outstanding s.who then (if s.outstanding s.who then stall else stop (.stallKeep t)) else set t
  else if scope ≥ 1 && s.outstanding s.who then stall
  if scope ≥ 1 && s.scOps.any (fun o => o.core == s.me.1 && o.ctx == s.me.2) then stall
  endInterval

/-- An acquire at a scope: the interval ends; beyond the core, clean mode-10 entries leave the L1, at system scope by R409, at the others since a
member's byte stands at its home (R116, R294; DEDUCED, log entry 15). -/
def acquire (scope : Nat) : M Unit := do
  if scope ≥ 2 then change fun s => s.dropClean s.me.1
  endInterval

/-! ### Prefetch (R109, R230) -/

/-- One piece of a prefetch within a 4 KiB region: fetched into the L1 if it would not fault. -/
def State.prefetchPiece (s : State) (va n : Nat) : State :=
  match checkExtent s s.who s.space { read := true, gen := s.gen } (word va) 0 n {} with
  | .ok a t =>
    if a.wait then t
    else a.exts.foldl (fun t e =>
      if isStore e.key || e.mode == 1 || e.cell then t
      else (t.fill { t.who with agent := 8 } e.va e.key e.len).settle t.me.1 e.key e.len (t.gaps t.me.1 e.key e.len)) t
  -- what the checks have found stands (R343, R350)
  | .trap _ t | .wait t => t

/-- A prefetch of n bytes: at most the first 16 regions are asked for. -/
def State.prefetch (s : State) (p : Word) (n : Nat) : State :=
  if n = 0 ∨ bitsAt p 56 8 ≠ 0 then s
  else
    let va := p.toNat
    let first := min n (4096 - va % 4096)
    (List.range 15).foldl (fun s k =>
      let o := first + k * 4096
      if o < n then s.prefetchPiece (va + o) (min 4096 (n - o)) else s) (s.prefetchPiece va first)

/-! ### Packets at their home (R404) -/

/-- What an atomic writes and answers (R112): operation, width 64 or 32, old value, operand, compare value; the new
value if it writes, and the events it counts. -/
def amoNew (op : Nat) (w : Nat) (old y c : Nat) : Option Nat × Counts :=
  let so := toSigned w old
  let sy := toSigned w y
  match op with
  | 0 => (some ((old + y) % 2 ^ w), .zero)
  | 1 => (some (if sy < so then y else old), .zero)
  | 2 => (some (if so < sy then y else old), .zero)
  | 3 => (some (min old y), .zero)
  | 4 => (some (max old y), .zero)
  | 5 => (some (old &&& y), .zero)
  | 6 => (some (old ||| y), .zero)
  | 7 => (some (old ^^^ y), .zero)
  | 8 => (some y, .zero)
  | 9 => (if old = c then some y else none, .zero)
  | _ =>
    let t : FTy := if w = 64 then .f64 else .f32
    let r := finish t .rne (exactAdd .rne (decodeF t old) (decodeF t y))
    (some r.1, r.2)

/-- A packet is performed at the peer: bytes written or read there, its answer kept in it. -/
def State.performPacket (s : State) (p : Packet) : State :=
  let keep := fun (s : State) (bs : List Byte) =>
    { s with fabric := { s.fabric with packets := s.fabric.packets.map fun q => if q.id = p.id then { q with performed := true, bytes := bs } else q } }
  match p.kind with
  | .store | .rep _ | .copy _ _ => keep (s.putBytes p.key p.bytes) p.bytes
  | .load => keep s (memRead s.mem p.key p.len)
  | .atomic op wide y c =>
    let w := if wide then 64 else 32
    let old := leNat (memRead s.mem p.key (w / 8))
    let s := match (amoNew op w old (y.toNat % 2 ^ w) (c.toNat % 2 ^ w)).1 with
      | some v => s.putBytes p.key (leBytes (w / 8) v)
      | none => s
    keep s (leBytes (w / 8) old)

end Sys2Proof.Machine
end

