-- ==== Sys2Proof/Machine/Ops.lean ====
section
/-! DEFINITION. The named operations on a strand: the register window (R62 to R65), lookahead landings (R52 to R54),
taking a trap and returning from it (R73 to R75), light handlers (R131), registration pairs (R147), migration (R79 to
R83), retirement, and the frame every strand instruction runs in.
Readings of the spec that this file takes: DEDUCED, log entry 18. -/

namespace Sys2Proof.Machine

/-! ### The window (R63, R65, R73) -/

/-- Physical entry of the first register of frame j (R63). -/
def Regs.frame (c : Regs) (j : Nat) : Nat := 8 * (j % c.cap)

/-- The frame shown as g8 to g15: in a trap window, the one R65 names for SPILL (the oldest resident frame, which is
DEPTH + 2 − CAP when every slot is resident; DEDUCED, log entry 12) and FILL (frame DEPTH − 1, in the slot of DEPTH + CAP − 1). -/
def Regs.upper (c : Regs) : Nat :=
  if c.trap then
    match c.twin with
    | .spill => c.depth + 2 - c.res
    | .fill => c.depth + c.cap - 1
    | .interrupted => c.depth + 1
  else c.depth + 1

/-- Window register g i. -/
def Regs.g (c : Regs) (i : Nat) : Word :=
  if i < 8 then (if c.trap then vget 0 c.tbank i else vget 0 c.rf (c.frame c.depth + i))
  else vget 0 c.rf (c.frame c.upper + (i - 8))

/-- The context with window register g i written. -/
def Ctx.setG (c : Ctx) (i : Nat) (v : Word) : Ctx :=
  if i < 8 then
    (if c.trap then { c with tbank := vset c.tbank i v } else { c with rf := vset c.rf (c.toRegs.frame c.depth + i) v })
  else { c with rf := vset c.rf (c.toRegs.frame c.toRegs.upper + (i - 8)) v }

/-- The link of frame j, by slot. -/
def Regs.link (c : Regs) (j : Nat) : Word := vget 0 c.links (j % c.cap)

/-- The context with the link of frame j set. -/
def Ctx.setLink (c : Ctx) (j : Nat) (v : Word) : Ctx := { c with links := vset c.links (j % c.cap) v }

/-- The context with the eight registers of frame j at 0. -/
def Ctx.clearFrame (c : Ctx) (j : Nat) : Ctx :=
  { c with rf := (List.range 8).foldl (fun r i => vset r (8 * (j % c.cap) + i) 0) c.rf }

/-! ### Fingerprints (R147) -/

/-- CRC-64 with the ECMA-182 polynomial over one byte, most significant bit first. -/
def crc64Byte (crc : Nat) (b : Nat) : Nat :=
  (List.range 8).foldl (fun c _ => if c / 2 ^ 63 = 1 then (c * 2 % 2 ^ 64) ^^^ 0x42F0E1EBA9EA3693 else c * 2 % 2 ^ 64) (crc ^^^ (b * 2 ^ 56))

/-- CRC-64 over bytes. -/
def crc64 (crc : Nat) (bs : List Byte) : Nat := bs.foldl (fun c b => crc64Byte c b.toNat) crc

/-- A retired write folded into both cores' fingerprints: its number and value as bytes (DESIGN CHOICE, log entry 11). -/
def State.foldPair (s : State) (bs : List Byte) : State :=
  match s.my.pair with
  | none => s
  | some p =>
    let f := fun (q : PairRole) => { q with fingerprint := BitVec.ofNat 64 (crc64 q.fingerprint.toNat bs) }
    (s.updMy fun c => { c with pair := some (f p) }).updCtx p.core p.ctx fun c => { c with pair := c.pair.map f }

/-! ### Sending on ports (R128, R138) -/

/-- Words on their way to a FIFO, those that their senders hold among them (R330). -/
def State.wordsComing (s : State) (core dir : Nat) : Nat :=
  ((s.queue ++ s.retries).filter fun e => match e with | .meshPortWordArrival c d _ => c == core && d == dir | _ => false).length

/-- Elements on their way to a channel, those that their senders hold among them (R330). -/
def State.elementsComing (s : State) (core dir ch : Nat) : Nat :=
  ((s.queue ++ s.retries).filter fun e => match e with | .queueElementArrival c d k _ _ => c == core && d == dir && k == ch | _ => false).length

/-- Words of an inbound FIFO that its core's waiting instructions have taken: their places stay theirs until they complete or are given
back (R54, R138). -/
def Core.heldWords (c : Core) (dir : Nat) : Nat := ((List.range 8).filter fun i => listed (c.ctx i).operands (24 + dir)).length

/-- Elements of an inbound channel that its core's waiting instructions have taken. -/
def Core.heldElements (c : Core) (dir ch : Nat) : Nat :=
  ((List.range 8).map fun i => ((List.range 8).filter fun k =>
    vget .plain (c.ctx i).ports k == .queue dir ch && listed (c.ctx i).operands (88 + k)).length).foldl (· + ·) 0

/-- An inbound FIFO has room for one more word beside n others on their way (R138). -/
def Core.fifoRoom (c : Core) (dir n : Nat) : Bool := decide ((vget [] c.fifo dir).length + c.heldWords dir + n < 8)

/-- An inbound channel has room for one more element beside n others on their way (R128). -/
def Core.chanRoom (c : Core) (dir ch n : Nat) : Bool := decide ((vget [] c.chan (dir * 4 + ch)).length + c.heldElements dir ch + n < 4)

/-- A word leaves for the neighbour's inbound FIFO of the direction it comes from; none while that is full, those on
their way counted, or the neighbour is dead or evicted (R138, R151, R330). -/
def State.sendWord (s : State) (core dir : Nat) (v : Word) : Option State :=
  match neighbour core dir with
  | none => none
  | some n =>
    let c := s.core n
    if c.dead || c.evicted || !c.fifoRoom (opposite dir) (s.wordsComing n (opposite dir)) then none
    else some (s.post (.meshPortWordArrival n (opposite dir) v))

/-- An element leaves for the matching inbound channel of the neighbour; none while that holds 4, those on their way
counted (R128). -/
def State.sendElement (s : State) (core dir ch : Nat) (e : Vec × Bool) : Option State :=
  match neighbour core dir with
  | none => none
  | some n =>
    let c := s.core n
    if c.dead || c.evicted || !c.chanRoom (opposite dir) ch (s.elementsComing n (opposite dir) ch) then none
    else some (s.post (.queueElementArrival n (opposite dir) ch e.1 e.2))

/-- The place in the order of sending of the next word or element taken from store k (a FIFO, or 4 + a channel): that of one given back, or
the next new one. -/
def Core.drawNo (c : Core) (k : Nat) : Nat := (vget [] c.returned k).headD c.drawn

/-- The word or element at index i of store k is taken. -/
def Core.drew (c : Core) (k i : Nat) : Core :=
  if i < (vget [] c.returned k).length then { c with returned := vset c.returned k ((vget [] c.returned k).eraseIdx i) }
  else { c with drawn := c.drawn + 1 }

/-- Where the word or element of place n goes back in store k: behind those given back that were sent before it (R128, R138). -/
def Core.seat (c : Core) (k n : Nat) : Nat := ((vget [] c.returned k).filter fun m => decide (m < n)).length

/-- A list with x at index i. -/
def insertAt {α : Type} (l : List α) (i : Nat) (x : α) : List α := l.take i ++ x :: l.drop i

/-- Place n is noted as given back to store k. -/
def Core.noteBack (c : Core) (k n : Nat) : Core := { c with returned := vset c.returned k (insertAt (vget [] c.returned k) (c.seat k n) n) }

/-- What a waiting instruction has taken from ports goes back, each word and element to its place in the order of sending: it has not
executed (R54, R128, R138). -/
def State.giveBack (s : State) (core ctx : Nat) : State :=
  let x := s.ctx core ctx
  if x.operands.isEmpty then s
  else
    let back := fun (s : State) (p : Nat × Vec) =>
      let n := look 0 x.draws p.1
      if p.1 < 64 then
        let d := p.1 - 24
        s.updCore core fun c => { c.noteBack d n with fifo := vset c.fifo d (insertAt (vget [] c.fifo d) (c.seat d n) (word (p.2.toNat % 2 ^ 64))) }
      else
        let k := p.1 - 88
        match vget .plain (s.ctx core ctx).ports k with
        | .queue dir ch =>
          let q := dir * 4 + ch
          s.updCore core fun c => { c.noteBack (4 + q) n with chan := vset c.chan q (insertAt (vget [] c.chan q) (c.seat (4 + q) n) (p.2, false)) }
        | .stream t => s.updCtx core ctx fun c => { c with ports := vset c.ports k (.stream { t with buf := p.2 :: t.buf, next := t.next - 1 }) }
        | .plain => s
    (x.operands.foldl back s).updCtx core ctx fun c => { c with operands := [], draws := [] }

/-! ### Lookahead (R52 to R54) -/

/-- Two landings write the same register; sends and AMAX merges are never cancelled (R52). -/
def Landing.same (x y : Landing) : Bool :=
  match x, y with
  | .gpr i _, .gpr j _ => i == j
  | .areg i _, .areg j _ => i == j
  | .vreg i _, .vreg j _ => i == j
  | _, _ => false

/-- A write to a register cancels the pending writes to it (R52). -/
def Ctx.cancel (c : Ctx) (l : Landing) : Ctx :=
  if c.pend.isEmpty then c else { c with pend := c.pend.filter fun p => !p.land.same l }

/-- What a landing does to the machine; none while a port or stream has no room. -/
def State.land (s : State) (core ctx : Nat) (l : Landing) : Option State :=
  match l with
  | .gpr i v => some (s.updCtx core ctx fun c => c.setG i v)
  | .areg i v => some (s.updCtx core ctx fun c => { c with areg := vset c.areg i v })
  | .amax m n => some (s.updCtx core ctx fun c => { c with amax := amaxMerge c.amax m n })
  | .send dir v => s.sendWord core dir v
  | .vreg i v => some (s.updCtx core ctx fun c => { c with vregs := vset c.vregs i v })
  | .append k v n =>
    match vget .plain (s.ctx core ctx).ports k with
    | .plain => some s
    | .queue dir ch => s.sendElement core dir ch (v, false)
    | .stream t => s.append core ctx k t v n

/-- Land pending writes in program order: those due, or all of them; those without room stay. -/
def State.landList (s : State) (core ctx : Nat) (all : Bool) : List Pending → State × List Pending
  | [] => (s, [])
  | p :: t =>
    if all || p.left == 0 then
      match s.land core ctx p.land with
      | some s' => s'.landList core ctx all t
      | none =>
        let r := s.landList core ctx all t
        (r.1, { p with left := 0 } :: r.2)
    else
      let r := s.landList core ctx all t
      (r.1, p :: r.2)

/-- Pending writes landed: the state, and whether one that had to land found no room. -/
def State.landPending (s : State) (core ctx : Nat) (all : Bool) : State × Bool :=
  if (s.ctx core ctx).pend.isEmpty then (s, false)
  else
    let r := s.landList core ctx all (s.ctx core ctx).pend
    (r.1.updCtx core ctx fun c => { c with pend := r.2 }, r.2.any fun p => p.left == 0)

/-! ### Pairs (R146 to R148) -/

/-- The secondary's registers follow the primary's. -/
def State.mirror (s : State) (core ctx : Nat) : State :=
  match (s.ctx core ctx).pair with
  | some p => s.updCtx p.core p.ctx fun c => { c with toRegs := (s.ctx core ctx).toRegs }
  | none => s

/-- The logged stores performed in program order, by the primary. -/
def State.performLog (s : State) (core ctx : Nat) (log : List (Extent × List Byte)) : State :=
  log.foldl (fun s e => s.performWrite { core, agent := ctx, interval := (s.ctx core ctx).interval } true e.1 e.2) s

/-- Both cores of a pair take a checkpoint: what the primary's registers hold, with an empty log (R146, R147). -/
def State.checkpointPair (s : State) (core ctx : Nat) : State :=
  match (s.ctx core ctx).pair with
  | none => s
  | some p =>
    let x := s.ctx core ctx
    let f := fun (q : PairRole) => { q with checkpoint := x.toRegs, ports := x.ports, since := s.tick, log := [], stores := 0, retired := 0, failed := 0 }
    let set := fun (c : Ctx) => { c with pair := c.pair.map f }
    ((s.updCtx core ctx set).updCtx p.core p.ctx set).mirror core ctx

/-- The pair's comparison is due: 4,096 instructions have retired since the last, or the log is full (R147). -/
def PairRole.due (p : PairRole) : Bool := decide (4096 ≤ p.retired) || decide (512 ≤ p.stores)

/-- The oldest element that a write stream of a paired strand has yet to write is a held store: the pair has not agreed on it (R147, R184). -/
def PairRole.holds (p : PairRole) (t : Stream) : Bool := t.write && (t.stamps.head?).any fun m => decide (p.since ≤ m.2)

/-- The comparison that a paired strand makes before it goes on: one that is due, or one without which it would stall for good, its held
elements taking all of a port's room or standing before what it waits for (R147, R184; DEDUCED, log entry 11). -/
def Ctx.compares (x : Ctx) : Bool :=
  match x.pair with
  | some p => p.due || x.st == .stalled && x.ports.toList.any fun q => match q with | .stream t => p.holds t | _ => false
  | none => false

/-- A port as a strand that returns to its checkpoint has it again: a read stream takes its elements again, a write stream keeps those on which
the pair has agreed, of which some may have been written since (R147, R184; DEDUCED, log entry 11). -/
def PairRole.portBack (p : PairRole) (now old : Port) : Port :=
  match old with
  | .stream t =>
    if !t.write then .stream { t with buf := [], moved := t.next, fault := none }
    else
      match now with
      | .stream u =>
        let n := (u.stamps.filter fun m => decide (m.2 < p.since)).length
        .stream { u with buf := u.buf.take n, stamps := u.stamps.take n, next := t.next }
      | _ => .stream { t with buf := [], stamps := [], moved := t.next }
  | x => x

/-- A comparison of a paired strand (R147, R148): on agreement the logged stores are performed and a new checkpoint
is taken; on disagreement both cores return to the checkpoint, and a second disagreement there holds both. The
second part of the answer says whether they agreed. -/
def State.comparePair (s : State) (core ctx : Nat) : State × Bool :=
  match (s.ctx core ctx).pair with
  | none => (s, true)
  | some p =>
    let other := match (s.ctx p.core p.ctx).pair with | some q => q.fingerprint | none => p.fingerprint
    if p.fingerprint = other then ((s.performLog core ctx p.log).checkpointPair core ctx, true)
    else
      -- an instruction that waits has not executed: what it has taken goes back
      let s := s.giveBack core ctx
      let back := fun (c : Ctx) => ({ c with toRegs := p.checkpoint } : Ctx).count 13 1
      let f := fun (q : PairRole) =>
        { q with log := [], stores := 0, retired := 0, failed := p.failed + 1, fingerprint := 0,
                 checkpoint := (back (s.ctx core ctx)).toRegs }
      let set := fun (c : Ctx) => { back c with
        ports := Vector.ofFn fun k => p.portBack (vget .plain c.ports k.val) (vget .plain p.ports k.val)
        pair := c.pair.map f, wait := .none, staleCounted := false, touched := [], midway := false, st := if 1 ≤ p.failed then .held else .eligible }
      let s := (s.updCtx core ctx set).updCtx p.core p.ctx set
      let s := s.mirror core ctx
      (if 1 ≤ p.failed then s.notify (dieOf core) (.pairFailed core ctx) else s, false)

/-! ### Taking a trap and returning from it (R65, R73 to R75) -/

/-- ECAUSE of a trap (R71). -/
def Trap.ecause (t : Trap) : Word := word ((if t.wr then 2 ^ 16 else 0) + t.detail % 256 * 256 + t.code % 256)

/-- The registers of a trap entry: steps 3 to 6 of R73. -/
def Ctx.enter (c : Ctx) (t : Trap) (epc : Word) : Ctx :=
  let c := { c with
    epc := word (bitsAt epc 0 56), ecause := t.ecause, eval := t.val, trap := true
    twin := if t.code = cSpill then .spill else if t.code = cFill then .fill else .interrupted
    pc := c.tbase + word (64 * t.code), arrived := .none, wait := .none, staleCounted := false, touched := [], midway := false, st := .eligible }
  let c := if t.code = cFill then c.clearFrame (c.depth + c.cap - 1) else c
  if t.code = cSpill ∨ t.code = cFill then c.count 12 1 else c

/-- What a check has found stands whatever becomes of the trap: errors of memory, cached walks, a copy resumed before the trap
(R150, R219, R343, R350). -/
def Finding.stands : Finding → Bool
  | .sector _ | .kill _ | .walked _ | .resumed _ => true
  | _ => false

/-- A finding of a trapping instruction is kept. -/
def State.keepFinding (s : State) (core ctx : Nat) (f : Finding) : State :=
  match f with
  | .sector k => s.findBad k
  | .kill c => s.killCore c
  | .walked l => s.updCore core fun c => { c with tlb := l }
  | .lostByte => s.updCtx core ctx fun c => { c with lost := none }
  | .raised t => s.updCore core fun c => c.updCopy t fun p => { p with raised := true }
  | .resumed t => s.updCore core fun c => c.updCopy t fun p => p.resume (s.ctx core ctx).tgen
  | .mfault => s.updCtx core ctx fun c =>
      { c with mfaults := c.mfaults.drop 1
               rprog := match c.mfaults.head? with | some ⟨_, some r⟩ => r | _ => c.rprog }
  | .stream p => s.updCtx core ctx fun c =>
      { c with ports := vset c.ports p (match vget .plain c.ports p with | .stream t => .stream { t with fault := none } | x => x) }

/-- Taking a trap (R73): pending writes land, a paired strand compares first (R147), a trap within a handler holds
the strand (R75). While a pending send or append has no room nothing lands and the instruction has not executed (R54). found are the findings
of the trapping instruction; those that the trap itself reports are used up only where it is taken. -/
def State.takeTrap (s : State) (core ctx : Nat) (t : Trap) (epc : Word) (found : List Finding := []) : State :=
  let r := (s.giveBack core ctx).landPending core ctx true
  if r.2 then (s.giveBack core ctx).updCtx core ctx fun c => { c with st := .stalled }
  else
    let p := r.1.comparePair core ctx
    if !p.2 then p.1
    else
      let s := (found.filter Finding.stands).foldl (fun s f => s.keepFinding core ctx f) p.1
      let c := s.ctx core ctx
      if c.st = .free then s
      else if c.trap then
        (s.updCtx core ctx fun c => { c with st := .held, arrived := .none, wait := .none }).notify (dieOf core) (.doubleTrap core ctx t)
      else
        let s := (found.filter fun f => !f.stands).foldl (fun s f => s.keepFinding core ctx f) s
        (s.updCtx core ctx fun c => c.enter t epc).mirror core ctx

/-- The effect of ERET on the registers (R65, R74). The effect of R65 applies to a frame that exists: a victim when
more than the window is resident, a target when only the window is and DEPTH is not 0 (DEDUCED, log entry 12). -/
def Ctx.eret (c : Ctx) : Ctx :=
  let code := bitsAt c.ecause 0 8
  let c :=
    if code = cSpill ∧ 2 < c.res then { c with res := c.res - 1 }
    else if code = cFill ∧ c.res = 2 ∧ 0 < c.depth then { c.setLink (c.depth - 1) c.eval with res := c.res + 1 }
    else c
  { c with trap := false, twin := .interrupted, pc := c.epc }

/-- A hart fault (R212): the hart stops and its overseer core is told. -/
def State.hartFault (s : State) (core : Nat) (t : Trap) : State :=
  (s.updCore core fun c => { c with hartStopped := true }).notify (dieOf core) (.hartFault core t.code (s.core core).hart.pc t.val)

/-- HSET of the strand's team (R132). -/
def State.hset (s : State) (core ctx : Nat) : Word := (s.team (s.ctx core ctx).team).hset

/-- Light-handler entry (R131); s is the state in which the control element has been consumed, its pending writes landed. -/
def State.enterLight (s : State) (core ctx : Nat) (w : Word) : State :=
  let h := s.hset core ctx
  (s.updCtx core ctx fun c =>
    ({ c with lpc := c.pc, lcv := w, lh := true, pc := word (bitsAt h 1 55 * 2), st := .eligible, arrived := .none, wait := .none } : Ctx).count 11 1).mirror core ctx

/-! ### Migration (R79 to R83) -/

/-- The strand has no command queued, executing or held, and no pending matrix or pattern fault (R79). -/
def State.matrixFree (s : State) (core ctx : Nat) : Bool :=
  (s.ctx core ctx).mfaults.isEmpty && !((s.core core).mq.any fun q => q.ctx == ctx)

/-- The migration message of a strand (R80), with the PC at which it resumes. -/
def Ctx.message (c : Ctx) (core ctx dest : Nat) (pc : Word) : MigMsg where
  window := Vector.ofFn fun i => c.toRegs.g i.val
  pc
  status := word (c.depth * 2 ^ 48 + c.prio * 2 ^ 32 + bitsAt c.tgen 0 32)
  link := c.toRegs.link (c.depth + 1)
  tbank0 := vget 0 c.tbank 0
  tenant := c.tenant
  tbase := c.tbase
  srcCore := core
  srcCtx := ctx
  dest

/-- A strand migrates: its message leaves, it leaves its team and gang (R81), and its context stays suspended until
the destination accepts (R83). The caller has landed pending writes and released. -/
def State.migrate (s : State) (core ctx dest : Nat) (pc : Word) : State :=
  let x := s.ctx core ctx
  let m := x.message core ctx dest pc
  let b := s.bind x.gang
  let gather := Vector.ofFn fun (k : Fin 16) => vget 0 b.gather k.val + (vget 0 x.cnt k.val).toNat
  let s := if b.live then { s with binds := put s.binds x.gang { b with gather } } else s
  let s := s.updCtx core ctx fun c => { c with st := .stalled, wait := .migration m, team := 0, gang := 2 ^ 32, hot := none, interval := c.interval + 1, pc }
  let s := s.post (.migrationMessageArrival core ctx)
  (((s.teamBarrier x.team).gangBarrier x.gang).teamCheck x.team).gangCheck x.gang

/-- Every earlier access of the strand is performed at package scope, a pair's held stores too (R82, R300). -/
def State.performed (s : State) (core ctx : Nat) : Bool :=
  (match (s.ctx core ctx).pair with | some p => !p.primary || p.log.isEmpty | none => true) &&
  !(s.scOps.any fun o => o.core == core && o.ctx == ctx) && !s.outstanding { core, agent := ctx, interval := 0 }

/-- An automatic migration due after a completed access happens if R79's conditions hold, once the strand's accesses are performed and
its pending writes have room (R82); otherwise the access has completed as an ordinary one. So it has where the destination is the strand's own
core or a core that is not bound to its tenant, with no release and no fault: R326 says what becomes of those for MIG alone (DESIGN CHOICE,
log entry 26). It leaves from the instruction after the access, so not before the end of a BMOV (R80). -/
def State.autoMigrate (s : State) (core ctx : Nat) : State :=
  let c := s.ctx core ctx
  match c.hot with
  | none => s
  | some d =>
    if c.midway then s
    else if c.st != .free && decide (c.res = 2) && decide (c.va = 0) && !c.trap && !c.lh && !c.pairBit && s.matrixFree core ctx
        && d != core && s.bound d c.tenant then
      -- mode-10 bytes go home first (R82)
      let r := s.landPending core ctx true
      let t := r.1.cleanRemote core
      if r.2 || !t.performed core ctx then t else t.migrate core ctx d (t.ctx core ctx).pc
    else s.updCtx core ctx fun c => { c with hot := none }

/-! ### The frame of a strand instruction -/

/-- Where an instruction goes on. -/
inductive Next where
  | seq
  | jump (pc : Word)
  deriving DecidableEq, Repr

/-- The instruction word (R60), its length in bytes and its major opcode. -/
def wordOfInstr (i : Instr) : Word := word (encodeNat i).1

def bytesOfInstr (i : Instr) : Nat := (encodeNat i).2

def opcodeOf (i : Instr) : Nat := (encodeNat i).1 / 2 % 128

/-- The window-closing instructions (R53). -/
def closesWindow : Instr → Bool
  | .call _ | .callr _ | .ret | .eret | .trap _ | .yield | .exit | .mig _ | .join _ | .halt => true
  | _ => false

/-- Opcodes marked S in R55. -/
def scalarOpcodes : List Nat :=
  [0x01, 0x02, 0x03, 0x04, 0x05, 0x06, 0x08, 0x09, 0x0A, 0x0B, 0x0C, 0x10, 0x11, 0x12, 0x13, 0x14, 0x15, 0x16, 0x18, 0x19,
   0x1A, 0x1B, 0x20, 0x21, 0x22, 0x23, 0x24, 0x25, 0x26, 0x28, 0x29, 0x2A, 0x2B, 0x2C, 0x2D, 0x2E, 0x2F, 0x30, 0x31]

/-- What a compositor hart executes (R59, R211): opcodes S but BAR.T, BAR.G, YIELD, every SWR, and SRD of any
register but CTAG; and CTAKE and CSTART. -/
def hartRuns (i : Instr) : Bool :=
  match i with
  | .barT | .barG | .yield | .swr _ _ | .swrImm _ _ => false
  | .srd b _ => decide (b.toNat = 7)
  | .ctake | .cstart _ => true
  | _ => (encodeNat i).2 == 4 && scalarOpcodes.contains (opcodeOf i)

/-- What a strand executes: not the compositor's words, not pattern words, not events. -/
def strandRuns : Instr → Bool
  | .ctake | .cstart _ => false
  | i => decide ((encodeNat i).2 ≠ 0) && !(decide (0x70 ≤ opcodeOf i) && (encodeNat i).2 == 4)

/-- The groups inside a pair's interval: scalar integer, address, control, plain load and store, vector arithmetic
(R147); plain vector loads and stores count as plain (DESIGN CHOICE, log entry 11). EXIT and UNPAIR compare. -/
def pairGroup (i : Instr) : Bool :=
  match i with
  | .exit => false
  | _ => (encodeNat i).2 == 2 ||
    [0x01, 0x02, 0x03, 0x04, 0x05, 0x06, 0x08, 0x09, 0x0A, 0x0B, 0x0C, 0x10, 0x11, 0x12, 0x13, 0x14, 0x15, 0x16, 0x18, 0x19,
     0x1A, 0x20, 0x21, 0x22, 0x23, 0x24, 0x25, 0x26, 0x28, 0x29, 0x2A, 0x2B, 0x2C, 0x38, 0x39, 0x3A, 0x3B, 0x3C, 0x3D, 0x3E,
     0x3F, 0x41].contains (opcodeOf i)

/-- The boundary after an instruction (R52, R122, R147): it retires, pending writes come one boundary nearer and
land, and a migration that has come due leaves. A comparison that has come due is the next event. An SWR of CNT7 counts its own retirement on top of the value it writes, and a TRAP
instruction, which ends in its trap, is not counted (DESIGN CHOICE, log entry 15). -/
def State.retire (s : State) (core ctx : Nat) : State :=
  let s := s.updCtx core ctx fun c =>
    let c := { c with st := .eligible, pend := c.pend.map fun p => { p with left := p.left - 1 } }
    if ctx = 8 then c else c.count 7 1
  let s := (s.landPending core ctx false).1
  let s := match (s.ctx core ctx).pair with
    | none => s
    | some p =>
      let bump := fun (q : PairRole) => { q with retired := q.retired + 1 }
      let s := (s.updCtx core ctx fun c => { c with pair := c.pair.map bump }).mirror core ctx
      s.updCtx p.core p.ctx fun c => { c with pair := c.pair.map bump }
  s.autoMigrate core ctx

/-- The instruction is done: its accesses count on their pages, PC moves on, then the boundary. -/
def State.finish (s : State) (core ctx : Nat) (len : Nat) (n : Next) : State :=
  ((s.countTouched core ctx).updCtx core ctx fun c =>
    { c with operands := [], draws := [], wait := .none, staleCounted := false, midway := false, pc := match n with | .seq => c.pc + word len | .jump p => p }).retire core ctx

/-- What becomes of a stop (R54, R72, R77, R124, R212). s is the state before the instruction. -/
def State.afterStop (s : State) (core ctx : Nat) (i : Instr) (x : Stop) : State :=
  let fix := fun (t : Trap) => if t.code = cIllegal ∨ t.code = cIllegalReg then { t with val := wordOfInstr i } else t
  let trap := fun (s : State) (t : Trap) (found : List Finding) =>
    if ctx = 8 then (found.foldl (fun s f => s.keepFinding core ctx f) s).hartFault core (fix t)
    else
      let pc := (s.ctx core ctx).pc
      s.takeTrap core ctx (fix t) (if t.code = cSoft then pc + 4 else pc) found
  match x with
  | .trap t found => trap s t found
  | .trapKeep t s' => trap (s'.countTouched core ctx) t []
  | .stall => s.updCtx core ctx fun c => { c with st := .stalled }
  -- what it has taken goes back too, unless its request has left (R54)
  | .stallKeep s' => if (s'.ctx core ctx).wait = .none then s'.giveBack core ctx else s'
  | .light w s' =>
    -- the element is consumed only where the handler is entered
    let r := (s.giveBack core ctx).landPending core ctx true
    if r.2 then (s.giveBack core ctx).updCtx core ctx fun c => { c with st := .stalled }
    else (((s'.giveBack core ctx).landPending core ctx true).1).enterLight core ctx w
  | .done s' => s'

/-- A trap at the agent's PC, or the hart's fault. -/
def State.trapHere (s : State) (t : Trap) : State :=
  if s.isHart then s.hartFault s.me.1 t else s.takeTrap s.me.1 s.me.2 t s.my.pc

/-- Errors that the word itself decides come first (R60, R61): a word outside the agent's set, a bad field, a type
code the instruction does not admit. -/
def wordError (hart : Bool) (i : Instr) : Option Trap :=
  if !(if hart then hartRuns i else strandRuns i) || !fieldsOk i then some { code := cIllegal }
  else if typeCodeBad i then some { code := cIllegal, detail := 0x20 }
  else none

/-- A strand or hart instruction with its meaning m, run in the state where its agent moves. -/
def runInstr (i : Instr) (m : M Next) (s : State) : Host.Outcome State Fault Refusal :=
  match s.cur with
  | .generator _ _ | .hardware => .fault .noSuchAgent
  | _ =>
    let core := s.me.1
    let ctx := s.me.2
    if 8 < ctx then .fault .noSuchAgent
    else
      match wordError s.isHart i with
      | some t => .next (s.afterStop core ctx i (.trap t []))
      | none =>
        let r := s.landPending core ctx (closesWindow i)
        if r.2 then .next (r.1.updCtx core ctx fun c => { c with st := .stalled })
        else
          let p := if pairGroup i then (r.1, true) else r.1.comparePair core ctx
          if !p.2 then .next p.1
          else
            match m p.1 with
            | .ok (n, t) => .next (t.finish core ctx (bytesOfInstr i) n)
            | .error x => .next (p.1.afterStop core ctx i x)

end Sys2Proof.Machine
end

