-- ==== Sys2Proof/Machine/Operands.lean ====
section
/-! DEFINITION. Every operand form: scalar fields and mesh ports (R45, R48, R138), address bases, walks and
post-increment (R67 to R69, R93), writes with lookahead (R51, R52), vector registers, groups and bound ports (R125,
R128 to R130, R154 to R158, R183), and masks (R155).
Readings of the spec that this file takes: DEDUCED, log entry 15. -/

namespace Sys2Proof.Machine

/-! ### Scalar fields (R45, R48, R138) -/

/-- Direction of a port's specifier code. -/
def portDir (f : BitVec 5) : Option Nat := if 24 ≤ f.toNat ∧ f.toNat ≤ 27 then some (f.toNat - 24) else none

/-- The checks of the ports an instruction names: on the mesh and bound to the tenant (R138). -/
def ports : List (BitVec 5) → M Unit
  | [] => pure ()
  | f :: t => do
    match portDir f with
    | none => pure ()
    | some dir =>
      let s ← get
      match neighbour s.me.1 dir with
      | none => raise cPerm f.toNat
      | some n => require (s.bound n s.space.tenant) cPerm f.toNat
    ports t

/-- A register of the specifier codes 0 to 23. -/
def Regs.reg (c : Regs) (f : Nat) : Word := if f < 16 then c.g f else vget 0 c.areg (f - 16)

/-- The value of a scalar field; a port shows its oldest word without taking it, and stalls while it is empty. A port
that faces a dead core raises 0x12 (R151). -/
def peek (f : BitVec 5) : M Word := do
  let s ← get
  if f.toNat < 24 then pure (s.my.reg f.toNat)
  else
    match portDir f with
    | some dir =>
      match neighbour s.me.1 dir with
      | none => raise cPerm f.toNat
      | some n =>
        match find s.my.operands f.toNat with
        | some v => pure (word (v.toNat % 2 ^ 64))
        | none =>
          if (s.core n).dead then raise cPoison 0 (meshPointer n 0)
          else
            match (vget [] s.myCore.fifo dir).head? with
            | some w => pure w
            | none => stall
    | none => pure (if f = 29#5 then s.myCore.ctag else 0)

/-- The oldest word of a port taken for the instruction, once. -/
def State.takeWord (s : State) (dir : Nat) : State :=
  if listed s.my.operands (24 + dir) then s
  else
    let q := vget [] s.myCore.fifo dir
    let n := s.myCore.drawNo dir
    (s.updMyCore fun c => { c.drew dir 0 with fifo := vset c.fifo dir (q.drop 1) }).updMy fun c =>
      { c with operands := put c.operands (24 + dir) ((q.headD 0).zeroExtend 4096), draws := put c.draws (24 + dir) n }

/-- One word taken from each port that the fields name (R48). -/
def takePorts (fs : List (BitVec 5)) : M Unit :=
  let dirs := (fs.filterMap portDir).eraseDups
  if dirs.isEmpty then pure () else change fun s => dirs.foldl State.takeWord s

/-- src(a). -/
def src (a : BitVec 5) : M Word := do
  let x ← peek a
  takePorts [a]
  pure x

/-- src(a) and src(b). -/
def src2 (a b : BitVec 5) : M (Word × Word) := do
  let x ← peek a
  let y ← peek b
  takePorts [a, b]
  pure (x, y)

/-- src of three fields. -/
def src3 (a b c : BitVec 5) : M (Word × Word × Word) := do
  let x ← peek a
  let y ← peek b
  let z ← peek c
  takePorts [a, b, c]
  pure (x, y, z)

/-- What a write through a scalar destination lands as; none for zr. -/
def landingOf (d : BitVec 5) (v : Word) : Option Landing :=
  if d.toNat < 16 then some (.gpr d.toNat v)
  else if d.toNat < 24 then some (.areg (d.toNat - 16) v)
  else (portDir d).map fun dir => .send dir v

/-- Bytes of a write in a pair's fingerprint (R147, DESIGN CHOICE, log entry 11). -/
def foldBytes (number : Nat) (v : Word) : List Byte := BitVec.ofNat 8 number :: leBytes 8 v.toNat

/-- dst(d, v): a register written, pending writes to it cancelled; a port sends or stalls; zr discards (R45, R52). -/
def dst (d : BitVec 5) (v : Word) : M Unit := fun s =>
  match landingOf d v with
  | none => .ok ((), s)
  | some l =>
    let t := s.updMy fun c => c.cancel l
    match t.land t.me.1 t.me.2 l with
    | some t => .ok ((), t.foldPair (foldBytes d.toNat v))
    | none => .error .stall

/-- A write under lookahead la (R51, R52). -/
def dstLa (la : BitVec 4) (d : BitVec 5) (v : Word) : M Unit :=
  if la = 0#4 then dst d v
  else
    match landingOf d v with
    | none => pure ()
    | some l => change fun s =>
      (s.updMy fun c => { c.cancel l with pend := (c.cancel l).pend ++ [⟨la.toNat + 1, l⟩] }).foldPair (foldBytes d.toNat v)

/-! ### Address bases and walks (R67 to R69, R93) -/

/-- Fields of AWC (R68). -/
def awcBlk (a : Word) : Nat := bitsAt a 0 5
def awcX0 (a : Word) : Nat := bitsAt a 12 6
def awcXw (a : Word) : Nat := bitsAt a 18 7
def awcYh (a : Word) : Nat := bitsAt a 25 5
def awcY0 (a : Word) : Nat := bitsAt a 30 5

/-- Last row of the walk. -/
def awcTop (a : Word) : Nat := if awcYh a = 0 then 31 else awcY0 a + awcYh a - 1

/-- AWC of its fields. -/
def awcOf (y0 yh xw x0 blk : Nat) : Word := word (y0 * 2 ^ 30 + yh * 2 ^ 25 + xw * 2 ^ 18 + x0 * 2 ^ 12 + blk)

/-- Value of an address base field (R46). -/
def base (a : BitVec 5) : M Word := ask fun s => vget 0 s.my.areg (a.toNat - 16)

/-- A walk of k steps along lo to hi, starting anywhere: past hi it returns to lo. The second part counts returns. -/
def cyclic (lo hi at0 k : Nat) : Nat × Nat :=
  let first := if hi ≤ at0 then 1 else hi - at0 + 1
  if k < first then (at0 + k, 0) else (lo + (k - first) % (hi + 1 - lo), 1 + (k - first) / (hi + 1 - lo))

/-- Column and row after k column steps of the walk of R69. -/
def walkCols (awc : Word) (x y k : Nat) : Nat × Nat :=
  let c := cyclic (awcX0 awc) (awcX0 awc + awcXw awc - 1) x k
  (c.1, (cyclic (awcY0 awc) (awcTop awc) y c.2).1)

/-- A mesh pointer of its fields. -/
def meshOf (x y off : Nat) : Word := word (2 ^ 62 + x % 64 * 2 ^ 56 + y % 32 * 2 ^ 51 + off % 2 ^ 19)

/-- advance of R93; with n within the block and at its end, the post-increment of R69. -/
def advance (awc p : Word) (n : Nat) : Word :=
  if bitsAt p 62 2 ≠ 1 then p + word n
  else
    let bs := 2 ^ awcBlk awc
    let o := bitsAt p 0 19
    let t := o % bs + n
    let xy := walkCols awc (bitsAt p 56 6) (bitsAt p 51 5) (t / bs)
    meshOf xy.1 xy.2 (o / bs * bs + t % bs)

/-- The block check of R69, before the access. -/
def checkBlock (p : Word) (n : Nat) (wr : Bool) : M Unit := do
  let s ← get
  let b := 2 ^ awcBlk s.my.awc
  let o := bitsAt p 0 19
  require (bitsAt p 62 2 != 1 || (decide (n ≤ b) && o / b == (o + n - 1) / b)) cAddress 0 p wr

/-- The base register after a post-incremented access, under lookahead (R69, R103). -/
def postInc (la : BitVec 4) (a : BitVec 5) (p : Word) (n : Nat) : M Unit := do
  let s ← get
  dstLa la a (advance s.my.awc p n)

/-! ### Elements of vector registers (R34, R35) -/

/-- Element i of width w. -/
def elemOf (v : Vec) (w i : Nat) : Nat := v.toNat / 2 ^ (w * i) % 2 ^ w

/-- A register of its n elements of width w. -/
def vecOf (w : Nat) (es : List Nat) : Vec := BitVec.ofNat 4096 (es.foldr (fun e a => e % 2 ^ w + 2 ^ w * a) 0)

/-- Elements of a register. -/
def elemsOf (v : Vec) (w : Nat) : List Nat := (List.range (4096 / w)).map (elemOf v w)

/-- The 512 bytes of a register. -/
def vecBytes (v : Vec) : List Byte := leBytes 512 v.toNat

/-- A register of 512 bytes. -/
def vecOfBytes (bs : List Byte) : Vec := BitVec.ofNat 4096 (leNat bs)

/-- A mask of its bits. -/
def maskOf (bs : List Bool) : Mask := BitVec.ofNat 1024 (bs.foldr (fun b a => (if b then 1 else 0) + 2 * a) 0)

/-! ### Vector and mask fields (R125, R155, R156) -/

/-- The illegal-register trap unless every field, with the length of its group, lies within the allocation (R125). -/
def allocated (fs : List (BitVec 5 × Nat)) : M Unit := do
  let s ← get
  require (s.my.va != 0 && fs.all fun f => decide (f.1.toNat + f.2 ≤ s.my.va)) cIllegalReg

/-- The illegal-register trap for a mask field of a strand with VA = 0 (R125). -/
def allocatedMask : M Unit := do
  let s ← get
  require (s.my.va != 0) cIllegalReg

/-- A group of size n starts at a multiple of n (R153). -/
def grouped (f : BitVec 5) (n : Nat) : M Unit := require (f.toNat % n == 0) cIllegal 0x21

/-- The element type of VTYPE, admitted by ok (R156). -/
def laneType (ok : ETy → Bool) : M ETy := do
  let s ← get
  match laneTyOf (bitsAt s.my.vtype 0 5) with
  | some t => if ok t then pure t else raise cIllegal 0x20
  | none => raise cIllegal 0x20

/-- Element i is active under the mask-by-m0 bit (R155). -/
def Ctx.active (c : Ctx) (m : BitVec 1) (i : Nat) : Bool := m == 0#1 || (vget 0 c.masks 0).getLsbD i

/-- The binding of a vector register's number. -/
def Ctx.port (c : Ctx) (r : Nat) : Port := if r < 24 then .plain else vget .plain c.ports (r - 24)

/-- The context with the port of register r set. -/
def Ctx.setPort (c : Ctx) (r : Nat) (p : Port) : Ctx := { c with ports := vset c.ports (r - 24) p }

/-! ### Bound ports (R128 to R130, R158, R183) -/

/-- Port misuse (R158): reading a write stream, writing a read stream. -/
def portUse (reads writes : List (BitVec 5)) : M Unit := do
  let s ← get
  let bad := reads.any (fun r => match s.my.port r.toNat with | .stream t => t.write | _ => false)
    || writes.any fun r => match s.my.port r.toNat with | .stream t => !t.write | _ => false
  require (!bad) cIllegal 0x22

/-- No register of a group is bound (R158). -/
def noPorts (f : BitVec 5) (n : Nat) : M Unit := do
  let s ← get
  require (!((List.range n).any fun i => s.my.port (f.toNat + i) != .plain)) cIllegal 0x22

/-- Elements of a stream in all. -/
def Stream.total (t : Stream) : Nat := t.len0 * t.len1

/-- What a read of a bound port finds: an element with its control bit; none to wait; a trap. -/
inductive Head where
  | elem (e : Vec × Bool)
  | wait
  | trap (code detail : Nat)
  | fault (t : Trap)
  deriving DecidableEq, Repr

/-- The head of port k as its reader sees it; of a channel the element in place i. -/
def State.portHead (s : State) (k : Nat) (p : Port) (i : Nat := 0) : Head :=
  match p with
  | .plain => .wait
  | .queue dir ch =>
    match (vget [] s.myCore.chan (dir * 4 + ch))[i]? with
    -- the port number of an error control word is that of the port it is read on (R129)
    | some (v, ctl) => .elem (if ctl && v.toNat / 2 ^ 61 % 8 == 7 then v + BitVec.ofNat 4096 (k * 0x10000) else v, ctl)
    | none => .wait
  | .stream t =>
    match t.buf.head? with
    | some v => .elem (v, false)
    | none =>
      match t.fault with
      | some f => .fault f
      | none =>
        if t.next < t.total then .wait
        else if t.mark && !t.ended then .elem (BitVec.ofNat 4096 (0xC000000000000000 + k), true)
        else .trap cIllegal 0x24

/-- The head of a port taken; of a channel the element in place i. -/
def State.popPort (s : State) (r : Nat) (i : Nat := 0) : State :=
  match s.my.port r with
  | .plain => s
  | .queue dir ch => s.updMyCore fun c => { c.drew (4 + (dir * 4 + ch)) i with chan := vset c.chan (dir * 4 + ch) ((vget [] c.chan (dir * 4 + ch)).eraseIdx i) }
  | .stream t =>
    let t' := if t.buf.isEmpty then { t with ended := true } else { t with buf := t.buf.drop 1, next := t.next + 1 }
    s.updMy fun c => c.setPort r (.stream t')

/-- The channel that register r's port reads, if it is a queue. -/
def State.channelOf (s : State) (r : Nat) : Option Nat := match s.my.port r with | .queue dir ch => some (dir * 4 + ch) | _ => none

/-- The place in register r's channel of the element it reads, after the fields before it: another port of the same channel that
has yet to take its element takes an older one (R128). -/
def State.headPlace (s : State) (before : List (BitVec 5)) (r : Nat) : Nat :=
  ((before.map BitVec.toNat).eraseDups.filter fun q =>
    q != r && s.channelOf q == s.channelOf r && (s.channelOf r).isSome && !listed s.my.operands (64 + q)).length

/-- A vector operand read: a register, or the oldest element of a bound port, which is not taken yet. A control
element ends the instruction as R130 gives. before are the fields read before it. -/
def vpeek (f : BitVec 5) (before : List (BitVec 5) := []) : M Vec := do
  let s ← get
  let r := f.toNat
  match s.my.port r with
  | .plain => pure (vget 0 s.my.vregs r)
  | p =>
    match (match find s.my.operands (64 + r) with | some v => Head.elem (v, false) | none => s.portHead (r - 24) p (s.headPlace before r)) with
    | .elem (v, false) => pure v
    | .elem (v, true) =>
      let h := s.hset s.me.1 s.me.2
      if s.my.lh then raise cIllegal 0x10
      else if bitsAt h 0 1 = 0 then raise cIllegal 0x11
      else stop (.light (word (v.toNat % 2 ^ 64)) (s.popPort r (s.headPlace before r)))
    | .wait => stall
    | .trap c d => raise c d
    | .fault t => stop (.trap t [.stream (r - 24)])

/-- One element taken from each bound port that the fields name (R128). -/
def vtake (fs : List (BitVec 5)) : M Unit :=
  let rs := (fs.map BitVec.toNat).eraseDups.filter fun r => decide (24 ≤ r)
  if rs.isEmpty then pure ()
  else change fun s => rs.foldl (fun s r =>
    if s.my.port r = .plain || listed s.my.operands (64 + r) then s
    else
      let v := match s.portHead (r - 24) (s.my.port r) with | .elem e => e.1 | _ => 0
      let n := match s.channelOf r with | some k => s.myCore.drawNo (4 + k) | none => 0
      (s.popPort r).updMy fun c => { c with operands := put c.operands (64 + r) v, draws := put c.draws (64 + r) n }) s

/-- A single vector operand. -/
def vsrc (a : BitVec 5) : M Vec := do
  let x ← vpeek a
  vtake [a]
  pure x

/-- Two vector operands. -/
def vsrc2 (a b : BitVec 5) : M (Vec × Vec) := do
  let x ← vpeek a
  let y ← vpeek b [a]
  vtake [a, b]
  pure (x, y)

/-- Three vector operands. -/
def vsrc3 (a b d : BitVec 5) : M (Vec × Vec × Vec) := do
  let x ← vpeek a
  let y ← vpeek b [a]
  let z ← vpeek d [a, b]
  vtake [a, b, d]
  pure (x, y, z)

/-- Register q of a group, which is never a bound port. -/
def Ctx.vgroup (c : Ctx) (f : BitVec 5) (q : Nat) : Vec := vget 0 c.vregs (f.toNat + q)

/-- What the elements of a destination that an instruction gives no new value hold afterwards: the register's, or 0 on a bound port.
R155 says so of inactive elements; of active ones that keep their value (VSLUP below k, VINS) it is a DESIGN CHOICE, log entry 15. -/
def oldVec (d : BitVec 5) : M Vec := ask fun s => if s.my.port d.toNat = .plain then vget 0 s.my.vregs d.toNat else 0

/-- Pending appends to the port of register r. -/
def Ctx.pendingTo (c : Ctx) (r : Nat) : Nat := (c.pend.filter fun p => match p.land with | .append k _ _ => k + 24 == r | _ => false).length

/-- The checks of an append to a write stream: a pending fault is raised, an element beyond the last traps (R183). -/
def appendOk (d : BitVec 5) : M Unit := do
  let s ← get
  match s.my.port d.toNat with
  | .stream t =>
    match t.fault with
    | some f => stop (.trap f [.stream (d.toNat - 24)])
    | none => require (decide (t.next + s.my.pendingTo d.toNat < t.total)) cIllegal 0x24
  | _ => pure ()

/-- What a write of vector register d lands as: a register write, or an append to the port to which it is bound as the instruction
executes (R52, R128). -/
def State.vlanding (s : State) (d : BitVec 5) (v : Vec) : Landing :=
  if s.my.port d.toNat = .plain then .vreg d.toNat v else .append (d.toNat - 24) v (s.my.interval, s.tick)

/-- A write of a vector register or a bound port under lookahead (R52, R128, R155). -/
def vdstLa (la : BitVec 4) (d : BitVec 5) (v : Vec) : M Unit := do
  appendOk d
  let l ← ask fun s => s.vlanding d v
  if la = 0#4 then
    fun s =>
      let t := s.updMy fun c => c.cancel l
      match t.land t.me.1 t.me.2 l with
      | some t => .ok ((), t.foldPair (BitVec.ofNat 8 (64 + d.toNat) :: vecBytes v))
      | none => .error .stall
  else
    change fun s => (s.updMy fun c => { c.cancel l with pend := (c.cancel l).pend ++ [⟨la.toNat + 1, l⟩] }).foldPair
      (BitVec.ofNat 8 (64 + d.toNat) :: vecBytes v)

/-- A write of a vector register or a bound port. -/
def vdst (d : BitVec 5) (v : Vec) : M Unit := vdstLa 0#4 d v

/-- Registers of a group written in order. -/
def vdstGroup (la : BitVec 4) (d : BitVec 5) : Nat → List Vec → M Unit
  | _, [] => pure ()
  | q, v :: t => do
    vdstLa la (d + BitVec.ofNat 5 q) v
    vdstGroup la d (q + 1) t

/-- A mask register. -/
def Ctx.mask (c : Ctx) (m : BitVec 5) : Mask := vget 0 c.masks m.toNat

/-- A write of a mask register. -/
def mdst (d : BitVec 5) (v : Mask) : M Unit :=
  change fun s => (s.updMy fun c => { c with masks := vset c.masks d.toNat v }).foldPair (BitVec.ofNat 8 (96 + d.toNat) :: leBytes 128 v.toNat)

end Sys2Proof.Machine
end

