-- ==== Sys2Proof/Machine/Flags.lean ====
section
/-! DEFINITION. Conditions, shifts and counters, and the layouts of the state registers with the values an SWR
refuses (R10, R18, R33, R70, R71, R89, R95, R121, R132). -/

namespace Sys2Proof.Machine

/-- The condition codes of CMP (R89): EQ, NE, LT, GE, LTN, GEN. -/
def condition (c : Nat) (x y : Word) : Bool :=
  match c with
  | 0 => x == y
  | 1 => x != y
  | 2 => x.slt y
  | 3 => !x.slt y
  | 4 => x.ult y
  | _ => !x.ult y

/-- Lane width of f4[1:0] (R88). -/
def laneWidth (w : BitVec 2) : Nat := 64 / 2 ^ w.toNat

/-- An operation on each lane of two registers (R89). -/
def byLanes (w : Nat) (f : Nat → Nat → Nat) (x y : Word) : Word :=
  word ((List.range (64 / w)).foldr (fun i a => f (bitsAt x (w * i) w) (bitsAt y (w * i) w) % 2 ^ w + 2 ^ w * a) 0)

/-- The shifts of R18 on an element of width w by a count. -/
def shiftLeft (w x n : Nat) : Nat := if n < w then x * 2 ^ n % 2 ^ w else 0
def shiftRight (w x n : Nat) : Nat := if n < w then x / 2 ^ n else 0
def shiftSigned (w x n : Nat) : Nat := wrap w (toSigned w x / (2 ^ (min n w) : Int))

/-- The amount of R18: the low 8 bits of the count element. -/
def amount (y : Nat) : Nat := y % 256

/-- The events of an instruction added to CNT0 to CNT3 (R33). -/
def Ctx.addCounts (c : Ctx) (k : Counts) : Ctx := (((c.count 0 k.sat).count 1 k.ovf).count 2 k.zsc).count 3 k.nan

/-- Count arithmetic events of the strand. -/
def tally (k : Counts) : M Unit := if k = .zero then pure () else change fun s => s.updMy fun c => c.addCounts k

/-- Sum of the events of active elements. -/
def sumCounts (ks : List Counts) : Counts := ks.foldl Counts.add .zero

/-- STATUS (R70). -/
def Regs.status (c : Regs) : Word :=
  word (c.depth * 2 ^ 48 + c.res * 2 ^ 44 + c.cap * 2 ^ 40 + c.prio * 2 ^ 32 + c.va * 2 ^ 16 + c.arv.toNat * 2 ^ 8
    + c.trap.toNat * 2 ^ 7 + c.lh.toNat * 2 ^ 6 + c.pairBit.toNat * 2 ^ 5)

/-- Reserved fields of STATUS are 0 (R10, R70). -/
def statusOk (v : Word) : Bool := bitsAt v 34 6 == 0 && bitsAt v 22 10 == 0 && bitsAt v 9 7 == 0 && bitsAt v 0 5 == 0

/-- VTYPE holds a lane type and nothing else (R15, R126). -/
def vtypeOk (v : Word) : Bool := bitsAt v 5 59 == 0 && (laneTyOf (bitsAt v 0 5)).isSome

/-- A value AWC admits (R68). -/
def awcOk (v : Word) : Bool :=
  bitsAt v 35 29 == 0 && bitsAt v 5 7 == 0 && awcXw v != 0 && decide (awcX0 v + awcXw v ≤ 64)
    && (awcYh v == 0 || decide (awcY0 v + awcYh v ≤ 32)) && decide (3 ≤ awcBlk v) && decide (awcBlk v ≤ 19)

/-- A value EPC admits (R71): an instruction address. -/
def codeAddress (v : Word) : Bool := bitsAt v 0 1 == 0 && bitsAt v 56 8 == 0

/-- A value ECAUSE admits (R71). -/
def ecauseOk (v : Word) : Bool := bitsAt v 17 47 == 0

/-- A value HSET admits (R132). -/
def hsetOk (v : Word) : Bool := bitsAt v 56 8 == 0

/-- A value AMAX admits (R31): reserved bits 0, MAG neither negative nor a NaN. -/
def amaxOk (v : Word) : Bool := bitsAt v 32 31 == 0 && bitsAt v 31 1 == 0 && decide (bitsAt v 0 32 ≤ 0x7F800000)

end Sys2Proof.Machine
end

