-- ==== Sys2Proof/Machine/LoadStore.lean ====
section
/-! DEFINITION. Scalar loads and stores, ordering accesses, full bits and BMOV (R102 to R111, R301 to R303).
Readings of the spec that this file takes: DEDUCED, log entry 15. -/

namespace Sys2Proof.Machine

/-! ### Shapes -/

/-- A memory access folded into a pair's fingerprint: address, length and data; a load folds its address (R147). -/
def noteAccess (p : Word) (off : Int) (n : Nat) (bs : List Byte) : M Unit :=
  change fun s => s.foldPair (leBytes 8 (p + wordI off).toNat ++ leBytes 2 n ++ bs)

/-- A loaded value extended to 64 bits. -/
def extend (signExtended : Bool) (bs : List Byte) : Word := if signExtended then sext (leNat bs) (8 * bs.length) else word (leNat bs)

/-- The I-form load (R102). -/
def loadImm (n : Nat) (signExtended : Bool) (i : BitVec 14) (a d : BitVec 5) : M Next := do
  ports [d]
  let p ← base a
  let bs ← load p i.toInt n
  noteAccess p i.toInt n []
  dst d (extend signExtended bs)
  pure .seq

/-- The I-form store (R102). -/
def storeImm (n : Nat) (i : BitVec 14) (a d : BitVec 5) : M Next := do
  ports [d]
  let p ← base a
  let v ← src d
  store p i.toInt (leBytes n v.toNat)
  noteAccess p i.toInt n (leBytes n v.toNat)
  pure .seq

/-- Size and extension of f5[2:0] of LDSTR (R56). -/
def loadSize (z : Nat) : Nat × Bool :=
  match z with
  | 0 => (1, true)
  | 1 => (2, true)
  | 2 => (4, true)
  | 3 => (8, true)
  | 4 => (1, false)
  | 5 => (2, false)
  | _ => (4, false)

/-- Bytes performed at once, past any pair log: the pair has compared before (R147). -/
def performBytes (plain : Bool) (es : List Extent) (bs : List Byte) : M Unit :=
  change fun s => (es.foldl (fun (p : State × List Byte) e => (p.1.performWrite (s.who.overExts es) plain e (p.2.take e.len), p.2.drop e.len)) (s, bs)).1

/-- An acquire load (R105, R206): checked as a read and a write, no record, then the acquire. -/
def loadAcquire (n : Nat) (sc : BitVec 3) (b a d : BitVec 5) : M Next := do
  ports [b, d]
  let p ← base a
  let x ← src b
  aligned p x.toInt n false
  let es ← check { read := true, sync := true, phase := n == 8, scope := some sc.toNat } [(p, x.toInt, n)]
  let bs ← readExts false es
  acquire sc.toNat
  dst d (extend true bs.flatten)
  pure .seq

/-- A release store (R105, R206): the release, then the store. -/
def storeRelease (n : Nat) (sc : BitVec 3) (b a d : BitVec 5) : M Next := do
  ports [b, d]
  let p ← base a
  let (x, v) ← src2 b d
  aligned p x.toInt n true
  let es ← check { write := true, sync := true, scope := some sc.toNat } [(p, x.toInt, n)]
  release sc.toNat
  performBytes false es.flatten (leBytes n v.toNat)
  pure .seq

/-- A read by the read-only path (R107): no record, no check, no fill. -/
def loadReadOnly (n : Nat) (b a d : BitVec 5) : M Next := do
  ports [b, d]
  let p ← base a
  let x ← src b
  let es ← check { read := true } [(p, x.toInt, n)]
  consume es.flatten
  let got ← remoteReads es.flatten
  let s ← get
  dst d (extend true (s.overlay got es.flatten (s.seenBytes es.flatten)))
  pure .seq

/-! ### Sequentially consistent operations (R106, R301 to R303) -/

/-- Announce an operation in the open window; one per core and window. -/
def announce (o : ScOp) : M Unit := do
  let s ← get
  if s.myCore.announced then stall
  else
    let t := { s with scOps := s.scOps ++ [o] }
    stop (.stallKeep ((t.updMyCore fun c => { c with announced := true }).updMy fun c => { c with wait := .sc none }))

/-- The operation's result, when it has come; none before the operation has been announced. -/
def scResult : M (Option Word) := do
  let s ← get
  match s.my.wait with
  | .sc (some v) =>
    change fun s => s.updMy fun c => { c with wait := .none }
    pure (some v)
  | .sc none => stall
  | _ => pure none

/-! ### Full bits (R108, R134) -/

/-- The addressed word of the agent's own local store, once its full bit is 1 (R108). -/
def fullWord (b a : BitVec 5) : M (List Extent) := do
  let p ← base a
  let x ← src b
  let s ← get
  require (bitsAt p 62 2 == 1 && coreAt (bitsAt p 56 6) (bitsAt p 51 5) == s.me.1) cAddress 2 p
  aligned p x.toInt 8 false
  let es ← check { read := true } [(p, x.toInt, 8)]
  let t ← get
  if (es.flatten.flatMap fun e => wordsTouched e.key e.len).all fun w => t.full.contains w then pure es.flatten else stall

/-! ### BMOV (R110, R111) -/

/-- One byte of a BMOV and the three registers moved on. -/
def bmovByte (b a d : BitVec 5) : M Unit := do
  let p ← peek a
  let q ← peek d
  let n ← peek b
  formOk p 1 false
  formOk q 1 true
  let es ← check { read := true, plain := true } [(p, 0, 1)]
  let fs ← check { write := true, plain := true } [(q, 0, 1)]
  let bs ← readExts true es
  performBytes true fs.flatten bs.flatten
  dst a (p + 1)
  dst d (q + 1)
  dst b (n - 1)
  -- the byte's accesses are complete
  change fun s => (s.countTouched s.me.1 s.me.2).updMy fun c => { c with wait := .none, midway := true }

/-- Up to k bytes of a BMOV in order; a stop after the first byte keeps the progress made (R78, R111). The answer
says whether the work is done. -/
def bmovBytes (b a d : BitVec 5) : Nat → Bool → M Bool
  | 0, _ => do
    let n ← peek b
    pure (n == 0)
  | k + 1, begun => fun s =>
    match peek b s with
    | .error x => .error x
    | .ok (n, _) =>
      if n = 0 then .ok (true, s)
      else
        match bmovByte b a d s with
        | .ok (_, t) => bmovBytes b a d k true t
        | .error x =>
          if !begun then .error x
          else
            match x with
            | .trap t found => .error (.trapKeep t (found.foldl (fun s f => s.keepFinding s.me.1 s.me.2 f) s))
            | .stall => .error (.stallKeep s)
            | x => .error x

/-! ### The I forms (R102) -/

/-- LD.B (R102). -/
def execLdB (i : BitVec 14) (a : BitVec 5) (d : BitVec 5) (s : State) : Host.Outcome State Fault Refusal :=
  runInstr (.ldB i a d) (loadImm 1 true i a d) s

/-- LD.H (R102). -/
def execLdH (i : BitVec 14) (a : BitVec 5) (d : BitVec 5) (s : State) : Host.Outcome State Fault Refusal :=
  runInstr (.ldH i a d) (loadImm 2 true i a d) s

/-- LD.W (R102). -/
def execLdW (i : BitVec 14) (a : BitVec 5) (d : BitVec 5) (s : State) : Host.Outcome State Fault Refusal :=
  runInstr (.ldW i a d) (loadImm 4 true i a d) s

/-- LD.D (R102). -/
def execLdD (i : BitVec 14) (a : BitVec 5) (d : BitVec 5) (s : State) : Host.Outcome State Fault Refusal :=
  runInstr (.ldD i a d) (loadImm 8 true i a d) s

/-- LDN.B (R102). -/
def execLdnB (i : BitVec 14) (a : BitVec 5) (d : BitVec 5) (s : State) : Host.Outcome State Fault Refusal :=
  runInstr (.ldnB i a d) (loadImm 1 false i a d) s

/-- LDN.H (R102). -/
def execLdnH (i : BitVec 14) (a : BitVec 5) (d : BitVec 5) (s : State) : Host.Outcome State Fault Refusal :=
  runInstr (.ldnH i a d) (loadImm 2 false i a d) s

/-- LDN.W (R102). -/
def execLdnW (i : BitVec 14) (a : BitVec 5) (d : BitVec 5) (s : State) : Host.Outcome State Fault Refusal :=
  runInstr (.ldnW i a d) (loadImm 4 false i a d) s

/-- ST.B (R102). -/
def execStB (i : BitVec 14) (a : BitVec 5) (d : BitVec 5) (s : State) : Host.Outcome State Fault Refusal :=
  runInstr (.stB i a d) (storeImm 1 i a d) s

/-- ST.H (R102). -/
def execStH (i : BitVec 14) (a : BitVec 5) (d : BitVec 5) (s : State) : Host.Outcome State Fault Refusal :=
  runInstr (.stH i a d) (storeImm 2 i a d) s

/-- ST.W (R102). -/
def execStW (i : BitVec 14) (a : BitVec 5) (d : BitVec 5) (s : State) : Host.Outcome State Fault Refusal :=
  runInstr (.stW i a d) (storeImm 4 i a d) s

/-- ST.D (R102). -/
def execStD (i : BitVec 14) (a : BitVec 5) (d : BitVec 5) (s : State) : Host.Outcome State Fault Refusal :=
  runInstr (.stD i a d) (storeImm 8 i a d) s

/-! ### The register forms (R103) -/

/-- LDSTR load: the d write prevails over the base update (R47, R103). -/
def execLdstrLoad (p : BitVec 1) (z : BitVec 3) (la : BitVec 4) (b : BitVec 5) (a : BitVec 5) (d : BitVec 5) (s : State) : Host.Outcome State Fault Refusal :=
  runInstr (.ldstrLoad p z la b a d) (do
    ports [b, d]
    let n := (loadSize z.toNat).1
    let q ← base a
    let x ← src b
    let off := if p = 1#1 then 0 else x.toInt
    if p = 1#1 then checkBlock q n false
    let bs ← load q off n
    noteAccess q off n []
    if p = 1#1 then postInc la a q n
    dstLa la d (extend (loadSize z.toNat).2 bs)
    pure .seq) s

/-- LDSTR store (R103). A data port that is empty makes the store wait before its address is checked (DESIGN CHOICE, log entry 15). -/
def execLdstrStore (p : BitVec 1) (z : BitVec 2) (la : BitVec 4) (b : BitVec 5) (a : BitVec 5) (d : BitVec 5) (s : State) : Host.Outcome State Fault Refusal :=
  runInstr (.ldstrStore p z la b a d) (do
    ports [b, d]
    let n := 2 ^ z.toNat
    let q ← base a
    let (x, v) ← src2 b d
    let off := if p = 1#1 then 0 else x.toInt
    if p = 1#1 then checkBlock q n true
    store q off (leBytes n v.toNat)
    noteAccess q off n (leBytes n v.toNat)
    if p = 1#1 then postInc la a q n
    pure .seq) s

/-! ### MEMX (R105 to R110) -/

/-- LD.ACQ.W (R105). -/
def execLdAcqW (s : BitVec 3) (b : BitVec 5) (a : BitVec 5) (d : BitVec 5) (t : State) : Host.Outcome State Fault Refusal :=
  runInstr (.ldAcqW s b a d) (loadAcquire 4 s b a d) t

/-- LD.ACQ.D (R105). -/
def execLdAcqD (s : BitVec 3) (b : BitVec 5) (a : BitVec 5) (d : BitVec 5) (t : State) : Host.Outcome State Fault Refusal :=
  runInstr (.ldAcqD s b a d) (loadAcquire 8 s b a d) t

/-- ST.REL.W (R105). -/
def execStRelW (s : BitVec 3) (b : BitVec 5) (a : BitVec 5) (d : BitVec 5) (t : State) : Host.Outcome State Fault Refusal :=
  runInstr (.stRelW s b a d) (storeRelease 4 s b a d) t

/-- ST.REL.D (R105). -/
def execStRelD (s : BitVec 3) (b : BitVec 5) (a : BitVec 5) (d : BitVec 5) (t : State) : Host.Outcome State Fault Refusal :=
  runInstr (.stRelD s b a d) (storeRelease 8 s b a d) t

/-- LD.SC: a release at package scope, announced, performed at home, then an acquire (R106, R303). -/
def execLdSc (b : BitVec 5) (a : BitVec 5) (d : BitVec 5) (s : State) : Host.Outcome State Fault Refusal :=
  runInstr (.ldSc b a d) (do
    ports [b, d]
    match ← scResult with
    | some v =>
      acquire 4
      dst d v
      pure .seq
    | none =>
      let p ← base a
      let x ← src b
      aligned p x.toInt 8 false
      let es ← check { read := true, sync := true, scope := some 6 } [(p, x.toInt, 8)]
      consume es.flatten
      release 4
      let s ← get
      announce ⟨s.me.1, s.me.2, s.windowsClosed, (es.flatten.map Extent.key).headD 0, 0, 0, true, 0, 0⟩
      pure .seq) s

/-- ST.SC: complete at the close of its window; the home performs the write later (R106, R302, R303). -/
def execStSc (b : BitVec 5) (a : BitVec 5) (d : BitVec 5) (s : State) : Host.Outcome State Fault Refusal :=
  runInstr (.stSc b a d) (do
    ports [b, d]
    match ← scResult with
    | some _ =>
      acquire 4
      pure .seq
    | none =>
      let p ← base a
      let (x, v) ← src2 b d
      aligned p x.toInt 8 true
      let es ← check { write := true, sync := true, scope := some 6 } [(p, x.toInt, 8)]
      release 4
      let s ← get
      announce ⟨s.me.1, s.me.2, s.windowsClosed, (es.flatten.map Extent.key).headD 0, 1, 0, true, v, 0⟩
      pure .seq) s

/-- LDRO.W (R107). -/
def execLdroW (b : BitVec 5) (a : BitVec 5) (d : BitVec 5) (s : State) : Host.Outcome State Fault Refusal :=
  runInstr (.ldroW b a d) (loadReadOnly 4 b a d) s

/-- LDRO.D (R107). -/
def execLdroD (b : BitVec 5) (a : BitVec 5) (d : BitVec 5) (s : State) : Host.Outcome State Fault Refusal :=
  runInstr (.ldroD b a d) (loadReadOnly 8 b a d) s

/-- LDF: the word read and its full bit cleared as one step (R108). -/
def execLdf (b : BitVec 5) (a : BitVec 5) (d : BitVec 5) (s : State) : Host.Outcome State Fault Refusal :=
  runInstr (.ldf b a d) (do
    ports [b, d]
    let es ← fullWord b a
    consume es
    let s ← get
    let bs := s.seenBytes es
    let ws := es.flatMap fun e => wordsTouched e.key e.len
    change fun s => { s with full := s.full.filter fun w => !ws.contains w }
    dst d (word (leNat bs))
    pure .seq) s

/-- A field can be read without a fault: it is no port, or one of a bound live neighbour (R138, R151). -/
def State.readableField (s : State) (b : BitVec 5) : Bool :=
  match portDir b with
  | none => true
  | some dir =>
    match neighbour s.me.1 dir with
    | none => false
    | some n => s.bound n s.space.tenant && !(s.core n).dead

/-- PRE: what would not fault is fetched, one 4 KiB region after another; nothing else happens, and a length that cannot be read
fetches nothing (R109). -/
def execPre (b : BitVec 5) (a : BitVec 5) (s : State) : Host.Outcome State Fault Refusal :=
  runInstr (.pre b a) (do
    let p ← base a
    let s ← get
    let n ← if s.readableField b then src b else pure 0
    change fun s => s.prefetch p n.toNat
    pure .seq) s

/-- BMOV: up to 16 bytes a step; while work remains the PC stays (R110, R111). -/
def execBmov (b : BitVec 5) (a : BitVec 5) (d : BitVec 5) (s : State) : Host.Outcome State Fault Refusal :=
  runInstr (.bmov b a d) (do
    if ← bmovBytes b a d 16 false then pure .seq
    else
      let s ← get
      stop (.done s)) s

end Sys2Proof.Machine
end

