-- ==== Sys2Proof/Machine/Atomics.lean ====
section
/-! DEFINITION. Atomics, fences, barriers, flush and invalidate (R112 to R119, R303 to R310).
Readings of the spec that this file takes: DEDUCED, log entry 15. -/

namespace Sys2Proof.Machine

/-! ### Atomics (R112 to R114, R304 to R306) -/

/-- The result register of an atomic (R112). -/
def amoResult (op w old : Nat) : Word := if op = 3 ∨ op = 4 ∨ op = 10 then word old else sext old w

/-- An atomic's write: in the L1 the bytes that it holds, at the home those for which it has found no slot (R200, R304). -/
def State.writeHeld (s : State) (e : Extent) (bs : List Byte) : State :=
  if (s.gaps s.me.1 e.key e.len).isEmpty then s.performWrite s.who false e bs else s.homeWrite e.key bs

/-- An atomic is performed at the place of R304: the issuing L1 for the scopes up to galley, else the home slice; a
local store for a mesh pointer. The old value is answered. -/
def State.amoAt (s : State) (sc op w : Nat) (e : Extent) (y c : Nat) : Nat × Counts × State :=
  let n := w / 8
  if isStore e.key then
    let old := leNat (memRead s.mem e.key n)
    let r := amoNew op w old y c
    (old, r.2, match r.1 with | some v => s.putBytes e.key (leBytes n v) | none => s)
  else if sc ≤ 2 then
    let s := s.l1Exclusive s.who e.va e.key n
    let old := leNat (memRead s.mem e.key n)
    let r := amoNew op w old y c
    (old, r.2, match r.1 with | some v => s.writeHeld e (leBytes n v) | none => s)
  else
    let s := (s.recallAll e.key n).homeRead e.key n
    let old := leNat (memRead s.mem e.key n)
    let r := amoNew op w old y c
    (old, r.2, match r.1 with | some v => s.homeWrite e.key (leBytes n v) | none => s)

/-- Write packets for a byte of the extents are still under way. -/
def State.flying (s : State) (es : List Extent) : Bool :=
  s.fabric.packets.any fun p => (match p.kind with | .store => true | .rep _ => true | _ => false) &&
    es.any fun e => decide (p.key < e.key + e.len) && decide (e.key < p.key + p.len)

/-- An atomic on another package: local copies go, dirty bytes are written back as RINV would, the request leaves, the strand waits
for the old value (R304, R404). -/
def amoRemote (op w : Nat) (e : Extent) (y c : Word) : M Next := do
  let s ← get
  let t := s.recallAll e.key (w / 8)
  if t.flying [e] then
    if s.flying [e] then stall else stop (.stallKeep t)
  let id := t.fabric.nextPacket
  let t := t.send s.me.1 s.me.2 e.key (word e.va) [] (w / 8) (.atomic op (w == 64) y c)
  stop (.stallKeep (t.updMy fun c => { c with wait := .remote [id] [] }))

/-- A phase operation goes to its cell's home and waits for its word (R310). -/
def phaseOp (op : Nat) (e : Extent) (y : Word) : M Next := do
  let s ← get
  let t := { s with phaseOps := s.phaseOps ++ [({ core := s.me.1, ctx := s.me.2, cell := e.key, swap := op == 8, operand := y } : PhaseOp)] }
  stop (.stallKeep (t.updMy fun c => { c with wait := .phase none }))

/-- The old value of an atomic that its home has performed, on another package or at a phase cell; none before it has left. Its checks were
made at issue and are not made again (R310, R404, R406). -/
def amoAnswer (op w : Nat) (b d : BitVec 5) : M (Option Word) := do
  let s ← get
  match s.my.wait with
  | .remote ids got =>
    if s.fabric.packets.any fun p => ids.contains p.id then stall
    let (y, c) ← src2 b d
    let old := leNat (got.map Prod.snd)
    tally (amoNew op w old (y.toNat % 2 ^ w) (c.toNat % 2 ^ w)).2
    pure (some (amoResult op w old))
  | .phase (some v) => pure (some v)
  | .phase none => stall
  | _ => pure none

/-- An atomic (R112): acquire and release at its scope. -/
def amo (op : Nat) (wide : BitVec 1) (sc : BitVec 3) (b a d : BitVec 5) : M Next := do
  let w := if wide = 1#1 then 64 else 32
  ports [b]
  match ← scResult with
  | some old =>
    -- the home has performed it in announcement order; its events count as it retires (R33)
    let (y, c) ← src2 b d
    tally (amoNew op w (old.toNat % 2 ^ w) (y.toNat % 2 ^ w) (c.toNat % 2 ^ w)).2
    acquire 4
    dst d old
    pure .seq
  | none =>
  match ← amoAnswer op w b d with
  | some v =>
    acquire sc.toNat
    dst d v
    pure .seq
  | none =>
    let p ← base a
    let (y, c) ← src2 b d
    aligned p 0 (w / 8) true
    let es ← check
      { read := true, write := true, sync := true, atomic := true, fadd := op == 10, scope := some sc.toNat
        phase := w == 64 && (op == 0 || op == 8)
        phaseBad := op == 0 && !(decide (-(2 ^ 31) ≤ y.toInt) && decide (y.toInt ≤ 2 ^ 31 - 1)) } [(p, 0, w / 8)]
    let e := es.flatten.headD ⟨0, 0, 0, 0, false⟩
    consume es.flatten
    if sc = 6#3 then
      release 4
      let s ← get
      announce ⟨s.me.1, s.me.2, s.windowsClosed, e.key, 2, op, wide == 1#1, y, c⟩
      pure .seq
    else if e.cell then
      release sc.toNat
      phaseOp op e y
    else
      release sc.toNat
      if e.mode = 1 ∨ e.mode = 2 then amoRemote op w e y c
      else
        let s ← get
        let r := s.amoAt sc.toNat op w e (y.toNat % 2 ^ w) (c.toNat % 2 ^ w)
        set (r.2.2.returnLine e.key)
        tally r.2.1
        acquire sc.toNat
        dst d (amoResult op w r.1)
        pure .seq

/-! ### Barriers (R117) -/

/-- A barrier: the strand arrives, with its counters as they stand (R328), its interval ends, and it goes on once every live member
has arrived. -/
def barrier (kind : Arrival) : M Next := do
  let s ← get
  let scope := if kind = .team then 1 else 3
  if s.my.wait = .passed then
    change fun s => s.updMy fun c => { c with wait := .none }
    acquire scope
    pure .seq
  else if s.my.arrived = kind then stall
  else
    release scope
    change fun s =>
      let s := s.updMy fun c => { c with arrived := kind, barCnt := c.cnt }
      if kind = .team then s.teamBarrier s.my.team else s.gangBarrier s.my.gang
    let t ← get
    if t.my.wait = .passed then
      change fun s => s.updMy fun c => { c with wait := .none }
      acquire scope
      pure .seq
    else stop (.stallKeep t)

/-! ### Flush and invalidate (R118, R119, R203) -/

/-- A home slice's dirty entries of a range are written to memory and become clean; with inval its entries go. -/
def State.flushL2 (s : State) (key n : Nat) (inval : Bool) : State :=
  (regions key n).foldl (fun s r =>
    if isPeer r.1 || !(s.l2Of r.1).any fun e => e.meets r.1 (r.1 + r.2) then s
    else s.setL2 r.1 r.2 (fun _ => false) (splitMap (s.l2Of r.1) r.1 (r.1 + r.2) fun e => if inval then [] else [{ e with st := .e }])) s

/-- Dirty bytes of a range go home from every L1, those of mode 10 as packets, and become E; then the home slices write theirs to
memory. -/
def State.flushRange (s : State) (w : Who) (key n : Nat) : State :=
  (s.cores.foldl (fun t e =>
    if (t.partsIn e.1 key n).any fun l => l.st == .m then
      let t := if e.1 = w.core then t.cutOwn w key n true else t.cutEdges e.1 key n true
      (t.sendDirty e.1 (t.partsIn e.1 key n)).updCore e.1 fun c =>
        { c with l1 := splitMap c.l1 key (key + n) fun l => [if l.st == .m then { l with st := .e, busy := isPeer l.key } else l] }
    else t) s).flushL2 key n false

/-- RINV of a range, once its dirty bytes are home: every L1's and slice's bytes go, records move home. -/
def State.invalidateRange (s : State) (w : Who) (key n : Nat) : State := ((s.cutOwn w key n false).recallAll key n).flushL2 key n true

/-- RFLUSH, and RINV with inval: complete once the bytes are performed at system scope. -/
def flushInval (inval : Bool) (b a : BitVec 5) : M Next := do
  ports [b]
  let p ← base a
  let n ← src b
  if n = 0 then pure .seq
  else
    let es ← checkOnly { anyPerm := true } [(p, 0, n.toNat)]
    let s ← get
    match s.my.lost with
    | some v => stop (.trap { code := cScope, detail := 0x12, wr := true, val := v } [.lostByte])
    | none =>
      if s.scOps.any (fun o => o.core == s.me.1 && o.ctx == s.me.2) then stall
      -- the host-coherent window needs no write-back (R119)
      let fs := es.flatten.filter fun e => !isStore e.key && (s.windowLine e.key).isNone
      let w := s.who.overExts fs
      let t := fs.foldl (fun t e => t.flushRange w e.key e.len) s
      let t := if inval then fs.foldl (fun t e => t.invalidateRange w e.key e.len) t else t
      if t.flying fs then (if s.flying fs then stall else stop (.stallKeep t)) else set t
      endInterval
      pure .seq

/-! ### The meanings -/

/-- AMO.ADD (R112). -/
def execAmoAdd (w : BitVec 1) (s : BitVec 3) (b : BitVec 5) (a : BitVec 5) (d : BitVec 5) (t : State) : Host.Outcome State Fault Refusal :=
  runInstr (.amoAdd w s b a d) (amo 0 w s b a d) t

/-- AMO.MIN (R112). -/
def execAmoMin (w : BitVec 1) (s : BitVec 3) (b : BitVec 5) (a : BitVec 5) (d : BitVec 5) (t : State) : Host.Outcome State Fault Refusal :=
  runInstr (.amoMin w s b a d) (amo 1 w s b a d) t

/-- AMO.MAX (R112). -/
def execAmoMax (w : BitVec 1) (s : BitVec 3) (b : BitVec 5) (a : BitVec 5) (d : BitVec 5) (t : State) : Host.Outcome State Fault Refusal :=
  runInstr (.amoMax w s b a d) (amo 2 w s b a d) t

/-- AMO.MINN (R112). -/
def execAmoMinn (w : BitVec 1) (s : BitVec 3) (b : BitVec 5) (a : BitVec 5) (d : BitVec 5) (t : State) : Host.Outcome State Fault Refusal :=
  runInstr (.amoMinn w s b a d) (amo 3 w s b a d) t

/-- AMO.MAXN (R112). -/
def execAmoMaxn (w : BitVec 1) (s : BitVec 3) (b : BitVec 5) (a : BitVec 5) (d : BitVec 5) (t : State) : Host.Outcome State Fault Refusal :=
  runInstr (.amoMaxn w s b a d) (amo 4 w s b a d) t

/-- AMO.AND (R112). -/
def execAmoAnd (w : BitVec 1) (s : BitVec 3) (b : BitVec 5) (a : BitVec 5) (d : BitVec 5) (t : State) : Host.Outcome State Fault Refusal :=
  runInstr (.amoAnd w s b a d) (amo 5 w s b a d) t

/-- AMO.OR (R112). -/
def execAmoOr (w : BitVec 1) (s : BitVec 3) (b : BitVec 5) (a : BitVec 5) (d : BitVec 5) (t : State) : Host.Outcome State Fault Refusal :=
  runInstr (.amoOr w s b a d) (amo 6 w s b a d) t

/-- AMO.XOR (R112). -/
def execAmoXor (w : BitVec 1) (s : BitVec 3) (b : BitVec 5) (a : BitVec 5) (d : BitVec 5) (t : State) : Host.Outcome State Fault Refusal :=
  runInstr (.amoXor w s b a d) (amo 7 w s b a d) t

/-- AMO.SWP (R112). -/
def execAmoSwp (w : BitVec 1) (s : BitVec 3) (b : BitVec 5) (a : BitVec 5) (d : BitVec 5) (t : State) : Host.Outcome State Fault Refusal :=
  runInstr (.amoSwp w s b a d) (amo 8 w s b a d) t

/-- AMO.CAS (R112). -/
def execAmoCas (w : BitVec 1) (s : BitVec 3) (b : BitVec 5) (a : BitVec 5) (d : BitVec 5) (t : State) : Host.Outcome State Fault Refusal :=
  runInstr (.amoCas w s b a d) (amo 9 w s b a d) t

/-- AMO.FADD (R112). -/
def execAmoFadd (w : BitVec 1) (s : BitVec 3) (b : BitVec 5) (a : BitVec 5) (d : BitVec 5) (t : State) : Host.Outcome State Fault Refusal :=
  runInstr (.amoFadd w s b a d) (amo 10 w s b a d) t

/-- FENCE: a release and an acquire at its scope (R116). -/
def execFence (s : BitVec 3) (t : State) : Host.Outcome State Fault Refusal :=
  runInstr (.fence s) (do
    release s.toNat
    acquire s.toNat
    pure .seq) t

/-- BAR.T (R117). -/
def execBarT (s : State) : Host.Outcome State Fault Refusal :=
  runInstr .barT (barrier .team) s

/-- BAR.G (R117). -/
def execBarG (s : State) : Host.Outcome State Fault Refusal :=
  runInstr .barG (barrier .gang) s

/-- RFLUSH (R118). -/
def execRflush (b : BitVec 5) (a : BitVec 5) (s : State) : Host.Outcome State Fault Refusal :=
  runInstr (.rflush b a) (flushInval false b a) s

/-- RINV (R119). -/
def execRinv (b : BitVec 5) (a : BitVec 5) (s : State) : Host.Outcome State Fault Refusal :=
  runInstr (.rinv b a) (flushInval true b a) s

/-- WAITF: waits for the full bit, reads and clears nothing (R108). -/
def execWaitf (b : BitVec 5) (a : BitVec 5) (s : State) : Host.Outcome State Fault Refusal :=
  runInstr (.waitf b a) (do
    ports [b]
    let _ ← fullWord b a
    pure .seq) s

end Sys2Proof.Machine
end

