-- ==== Sys2Proof/Machine/Engine.lean ====
section
/-! DEFINITION. The frame of a hardware event's step, and the accesses of engines that are no strand: copies and
matrix commands (R204, R307). -/

namespace Sys2Proof.Machine

/-- A hardware or outside step: it takes its event, with what the event brings, from the head of the queue. Where the
head is not its event there is nothing to take and nothing happens. -/
def onEvent (p : Event → Option (State → State)) (s : State) : Host.Outcome State Fault Refusal :=
  match s.queue with
  | [] => .next s
  | e :: t =>
    match p e with
    | some f => .next (f { s with queue := t })
    | none => .next s

/-- A byte as an engine of a core sees it: the L1's copy of a mode-10 byte it holds, else memory. -/
def State.engineByte (s : State) (core mode key : Nat) : Byte :=
  if mode = 2 && heldBy (s.core core).l1 (fun _ => true) key then memByte (s.core core).remote key else memByte s.mem key

/-- The bytes of checked extents as an engine sees them. -/
def State.engineBytes (s : State) (core : Nat) (es : List Extent) : List Byte :=
  es.flatMap fun e => (List.range e.len).map fun i => s.engineByte core e.mode (e.key + i)

/-- Bytes of a page of mode 01 that an engine reads stand behind its agent's packets to that peer, not yet performed there (R409). -/
def State.behindPackets (s : State) (core agent : Nat) (e : Extent) : Bool :=
  e.mode == 1 && s.fabric.packets.any fun p => p.core == core && p.agent == agent && !p.performed && keyPeer p.key == keyPeer e.key

/-- The address space under which the engines of a core translate: its bind record (R211). -/
def State.engineSpace (s : State) (core tenant : Nat) : Space := { bind := (s.bindOf core).getD 0, tenant, tlb := .core core }

/-- An extent lies, in part, on another package or in host memory. -/
def Extent.isFar (e : Extent) : Bool := e.mode == 1 || e.mode == 2 || isHost e.key

end Sys2Proof.Machine
end

