-- ==== Sys2Proof/Machine/CacheEvents.lean ====
section
/-! DEFINITION. The steps of the L1s, the directory, translation and the HBM, and the performance of sequentially
consistent and phase operations at their homes (R196 to R208, R301 to R310, R337 to R343, R350).
Readings of the spec that this file takes: DEDUCED, log entry 16. -/

namespace Sys2Proof.Machine

/-! ### L1 (R196, R197, R201, R208) -/

/-- An L1 may come to hold the bytes of [key, key + len): none of a local store, none of a phase window (R308). -/
def cacheable (key len : Nat) : Bool := !isStore key && !inPhaseWindow key && !inPhaseWindow (key + (len - 1))

/-- A fill for an agent of a core, one entry a region (R193): bad HBM sectors that it reads are found first (R350). Where it lacks a line
of the window, it asks for that and fills nothing; its agent asks again (R358). -/
def State.fillEvent (s : State) (core agent va key len : Nat) : State :=
  if (s.core core).dead || (s.core core).evicted || len = 0 || !cacheable key len then s
  else
    match if isHost key then s.needLines key len false false else none with
    | some t => t
    | none =>
      let s := if isHbm key then s.findBadIn (some core) key len else s
      (regions key len).foldl (fun s r => (s.fill { core, agent, interval := s.intervalOf core agent } (va + (r.1 - key)) r.1 r.2).settle core r.1 r.2 (s.gaps core r.1 r.2)) s

/-- Ownership is granted and the pending write of an agent makes its M entry, within each region. The check of R204 comes first, and on a
conflict nothing changes (R197); lines of the window that it does not own it asks for (R358). -/
def State.grantEvent (s : State) (core agent key : Nat) (bs : List Byte) : State :=
  let w : Who := { core, agent, interval := s.intervalOf core agent }
  if (s.core core).dead || (s.core core).evicted || bs.isEmpty || !cacheable key bs.length
      || (List.range bs.length).any (fun i => s.conflict w true (key + i) != 0) then s
  else
    match if isHost key then s.needLines key bs.length true false else none with
    | some t => t
    | none =>
      (regions key bs.length).foldl (fun s r =>
        s.performWrite w true ⟨r.1, r.1, r.2, if isPeer key then 2 else 0, false⟩ ((bs.drop (r.1 - key)).take r.2)) s

/-- The requester's access conflicts with a live record of the L1 (R204): then the forwarded request changes nothing. -/
def State.forwardConflict (s : State) (reqCore reqAgent : Nat) (write : Bool) (key len : Nat) : Bool :=
  (List.range len).any fun i => s.conflict { core := reqCore, agent := reqAgent, interval := s.intervalOf reqCore reqAgent } write (key + i) != 0

/-- Each agent with a live record among records takes the implicit release of R205. -/
def State.releaseAgents (s : State) (rs : List (Nat × Rec)) : State :=
  ((rs.filter fun r => s.recLive r.1 r.2).map fun r => (r.1, { r.2 with write := false })).eraseDups.foldl (fun s a => s.implicitRelease a.1 a.2) s

/-- An uncorrectable error in an L1 entry, in its data or in its tag, state or records (R208). -/
def State.l1Error (s : State) (core key : Nat) (inTag : Bool) : State :=
  match (s.core core).l1.find? fun e => e.meets key (key + 1) with
  | none => s
  | some e =>
    if e.st = .m then
      if inTag then s.killCore core
      else
        -- the eight bytes of the code, as far as the entry holds them
        let group := ((List.range 8).map fun i => key / 8 * 8 + i).filter fun k => e.meets k (k + 1)
        s.updCore core fun c => { c with bad := group.foldl (fun l k => if l.contains (.dirty k) then l else .dirty k :: l) c.bad }
    else if inTag then (s.releaseAgents (e.recs.map fun r => (core, r))).recall core e.key e.len true
    else s.recall core e.key e.len false

/-! ### The record store and the directory (R337, R338) -/

/-- Records of an agent's ended intervals are deleted at the homes. -/
def State.deleteRecords (s : State) (core agent : Nat) : State :=
  { s with records := s.records.filter fun h => !(h.core == core && h.access.agent == agent && !s.recLive h.core h.access) }

/-- Records in the record store that lie on a range are dropped, their agents released (R338). -/
def State.dropHomeRecords (s : State) (key len : Nat) : State :=
  let on := fun (h : HomeRec) => decide (h.key < key + len) && decide (key < h.key + h.len)
  let t := s.releaseAgents ((s.records.filter on).map fun h => (h.core, h.access))
  { t with records := t.records.filter fun h => !on h }

/-- The event record of a directory error goes to the overseer core and the host (R338, R356). -/
def State.directoryNote (s : State) (key : Nat) : State :=
  let die := homeGalley key / 64
  (s.notify die (.memoryError key 1)).hostEvent (eventBytes (leBytes 8 key ++ [BitVec.ofNat 8 die, Config.errorKind 1]) 4)

/-- An uncorrectable directory error: recall from every galley; one dirty reply makes its core the owner (R338). -/
def State.directoryFails (s : State) (key len : Nat) : State :=
  let dirty := (s.cores.map Prod.fst).filter fun n => (s.partsIn n key len).any fun e => e.st == .m
  let s := s.dropHomeRecords key len
  let s := match dirty with
    | [n] =>
      let s := s.cores.foldl (fun (t : State) (e : Nat × Core) => if e.1 = n then t else t.recall e.1 key len false) s
      { s with dir := dirEdit s.dir key len fun _ => ([], some n) }
    | _ =>
      let s := s.recallAll key len
      { s with dir := dirEdit s.dir key len fun _ => ([], none) }
  s.directoryNote key

/-- A recall of the recovery was not answered: the range is poisoned in memory (R338). The bytes leave every L1 as any recall of the
recovery takes them, live records moving home (R201). -/
def State.recallFails (s : State) (key len : Nat) : State :=
  let s := (s.dropHomeRecords key len).recallAll key len
  let s := { s with dir := dirEdit s.dir key len fun _ => ([], none) }
  (s.poisonRange key len).directoryNote key

/-! ### Translation and HBM (R340, R343, R350) -/

/-- A walk for a core's tenant completes: a valid leaf is cached under a new lease (R343), and bad sectors that it has read are found
(R350). -/
def State.walkEvent (s : State) (core va : Nat) : State :=
  match s.bindOf core with
  | none => s
  | some b =>
    (s.translate { bind := b, tenant := (s.bind b).ten, tlb := .core core } va).2

/-- A lease runs out: the translation is no longer used (R343). -/
def State.leaseEnds (s : State) (core va : Nat) : State :=
  s.updCore core fun c => { c with tlb := c.tlb.filter fun e => !(decide (e.va ≤ va) && decide (va < e.va + e.size)) }

/-- A sector of the HBM becomes uncorrectable. -/
def State.sectorFails (s : State) (pa : Nat) : State :=
  let sec := pa / 32 * 32
  if isHbm pa && !s.badSectors.contains sec then { s with badSectors := sec :: s.badSectors } else s

/-! ### Sequentially consistent operations (R301 to R303) -/

/-- The window closes: its ST.SC complete, and each core may announce again (R301, R302). -/
def State.closeWindow (s : State) : State :=
  let stores := s.scOps.filter fun o => o.kind == 1 && o.window == s.windowsClosed
  let s := stores.foldl (fun s o => s.updCtx o.core o.ctx fun c => if c.wait = .sc none then { c with wait := .sc (some 0) } else c) s
  { s with
    windowsClosed := s.windowsClosed + 1
    cores := s.cores.map fun (e : Nat × Core) => (e.1, if e.2.announced then { e.2 with announced := false } else e.2) }

/-- Announcement order (R301). -/
def ScOp.before (x y : ScOp) : Bool :=
  decide (x.window < y.window) || (x.window == y.window && (decide (x.core < y.core) || (x.core == y.core && decide (x.ctx ≤ y.ctx))))

/-- The first of a list in announcement order. -/
def firstSc (l : List ScOp) : Option ScOp := l.find? fun x => l.all fun y => x.before y

/-- The home performs one operation; its result goes to its strand (R302). Where a byte that it reads has become poisoned since its check, the
strand's access is checked again and traps (R150, R207). -/
def State.performSc (s : State) (o : ScOp) : State :=
  let s := { s with scOps := s.scOps.erase o }
  let tell := fun (s : State) (w : Wait) => s.updCtx o.core o.ctx fun c => if c.wait = .sc none then { c with wait := w } else c
  let answer := fun (s : State) (v : Word) => tell s (.sc (some v))
  let spoilt := fun (s : State) (n : Nat) => (List.range n).any fun i => s.poisonedHome (o.key + i)
  if o.kind = 0 then
    let s := s.homeRead o.key 8
    if spoilt s 8 then tell s .none else answer s (word (leNat (memRead s.mem o.key 8)))
  else if o.kind = 1 then s.homeWrite o.key (leBytes 8 o.operand.toNat)
  else
    let w := if o.wide then 64 else 32
    let s := (s.recallAll o.key (w / 8)).homeRead o.key (w / 8)
    if spoilt s (w / 8) then tell s .none else
    let old := leNat (memRead s.mem o.key (w / 8))
    let r := amoNew o.op w old (o.operand.toNat % 2 ^ w) (o.compare.toNat % 2 ^ w)
    let s := match r.1 with | some v => s.homeWrite o.key (leBytes (w / 8) v) | none => s
    answer s (if o.op = 3 ∨ o.op = 4 ∨ o.op = 10 then word old else sext old w)

/-- The die of an operation's home. -/
def ScOp.die (o : ScOp) : Nat := homeGalley o.key / 64

/-- The next operation of the closed windows in announcement order, where its home lies on a die: the order is one for the package, or, with
a span of one die, each die's own (R301 to R303). -/
def State.scReady (s : State) (die : Nat) : Option ScOp :=
  (firstSc (s.scOps.filter fun o => decide (o.window < s.windowsClosed) && (!s.spanDie || o.die == die))).filter fun o => o.die == die

/-- The homes of a die perform the closed windows' operations in announcement order, as far as these come to them. -/
def State.deliver (s : State) (die : Nat) : Nat → State
  | 0 => s
  | n + 1 =>
    match s.scReady die with
    | some o => (s.performSc o).deliver die n
    | none => s

/-! ### Phase cells (R310) -/

/-- Package core number, then context. -/
def PhaseOp.before (x y : PhaseOp) : Bool := decide (x.core < y.core) || (x.core == y.core && decide (x.ctx ≤ y.ctx))

/-- Phase operations in order; the fuel is their number. -/
def sortPhase : Nat → List PhaseOp → List PhaseOp
  | 0, l => l
  | n + 1, l =>
    match l.find? fun x => l.all fun y => x.before y with
    | some x => x :: sortPhase n (l.erase x)
    | none => []

/-- A phase cell's word of its two fields. -/
def phaseWord (phase pend : Nat) : Word := word (phase % 2 ^ 32 * 2 ^ 32 + pend % 2 ^ 32)

/-- One operation's part of a step: its answer, and PEND. -/
def State.phaseAdd (p : State × Nat) (phase : Nat) (o : PhaseOp) : State × Nat :=
  (p.1.updCtx o.core o.ctx fun c => if c.wait = .phase none then { c with wait := .phase (some (phaseWord phase p.2)) } else c,
   ((p.2 : Int) + o.operand.toInt).emod (2 ^ 32) |>.toNat)

/-- The operations waiting at one cell applied as one step; where the cell has become poisoned since their checks, they are checked again and
trap (R150, R207). -/
def State.stepPhase (s : State) (cell : Nat) : State :=
  let ops := s.phaseOps.filter fun o => o.cell == cell
  if ops.isEmpty then s
  else
    let ops := sortPhase ops.length ops
    let s := { s with phaseOps := s.phaseOps.filter fun o => o.cell != cell }.homeRead cell 8
    if (List.range 8).any fun i => s.poisonedHome (cell + i) then
      ops.foldl (fun s o => s.updCtx o.core o.ctx fun c => if c.wait = .phase none then { c with wait := .none } else c) s
    else
    let w := leNat (memRead s.mem cell 8)
    let phase := w / 2 ^ 32
    let down := ops.filter fun o => !o.swap && decide (o.operand.toInt < 0)
    let p := down.foldl (fun p o => State.phaseAdd p phase o) (s, w % 2 ^ 32)
    -- PEND is in two's complement: 0 or negative completes the phase
    let done := !down.isEmpty && (p.2 == 0 || decide (2 ^ 31 ≤ p.2))
    let phase := if done then (phase + 1) % 2 ^ 32 else phase
    let q := (ops.filter fun o => !o.swap && decide (0 ≤ o.operand.toInt)).foldl (fun p o => State.phaseAdd p phase o) p
    let r := (ops.filter fun o => o.swap).foldl (fun (p : State × Word) o =>
      (p.1.updCtx o.core o.ctx fun c => if c.wait = .phase none then { c with wait := .phase (some p.2) } else c, o.operand)) (q.1, phaseWord phase q.2)
    r.1.homeWrite cell (leBytes 8 r.2.toNat)

/-! ### The events -/

/-- L1_FILL (R196). -/
def execL1Fill (s : State) : Host.Outcome State Fault Refusal :=
  onEvent (fun e => match e with | .l1Fill core agent va key n => some fun s => s.fillEvent core agent va key n | _ => none) s

/-- OWNERSHIP_GRANT (R197). -/
def execOwnershipGrant (s : State) : Host.Outcome State Fault Refusal :=
  onEvent (fun e => match e with | .ownershipGrant core agent key bs => some fun s => s.grantEvent core agent key bs | _ => none) s

/-- FORWARDED_READ (R201). -/
def execForwardedRead (s : State) : Host.Outcome State Fault Refusal :=
  onEvent (fun e => match e with
    | .forwardedRead core key n rc ra => some fun s => if s.forwardConflict rc ra false key n then s else s.forwardedRead core key n
    | _ => none) s

/-- FORWARDED_OWNERSHIP (R201). -/
def execForwardedOwnership (s : State) : Host.Outcome State Fault Refusal :=
  onEvent (fun e => match e with
    | .forwardedOwnership core key n rc ra => some fun s => if s.forwardConflict rc ra true key n then s else s.forwardedOwnership core key n
    | _ => none) s

/-- RECALL (R201). -/
def execRecall (s : State) : Host.Outcome State Fault Refusal :=
  onEvent (fun e => match e with | .recallRange core key n drop => some fun s => s.recall core key n drop | _ => none) s

/-- RECORD_DELETION (R337). -/
def execRecordDeletion (s : State) : Host.Outcome State Fault Refusal :=
  onEvent (fun e => match e with | .recordDeletion core agent => some fun s => s.deleteRecords core agent | _ => none) s

/-- L1_UNCORRECTABLE_ERROR (R208). -/
def execL1UncorrectableError (s : State) : Host.Outcome State Fault Refusal :=
  onEvent (fun e => match e with | .l1UncorrectableError core key tag => some fun s => s.l1Error core key tag | _ => none) s

/-- DIRECTORY_ERROR (R338). -/
def execDirectoryError (s : State) : Host.Outcome State Fault Refusal :=
  onEvent (fun e => match e with | .directoryError key n => some fun s => s.directoryFails key n | _ => none) s

/-- RECALL_TIMEOUT (R338). -/
def execRecallTimeout (s : State) : Host.Outcome State Fault Refusal :=
  onEvent (fun e => match e with | .recallTimeout key n => some fun s => s.recallFails key n | _ => none) s

/-- TRANSLATION_WALK (R340, R343). -/
def execTranslationWalk (s : State) : Host.Outcome State Fault Refusal :=
  onEvent (fun e => match e with | .translationWalk core va => some fun s => s.walkEvent core va | _ => none) s

/-- LEASE_EXPIRY (R343). -/
def execLeaseExpiry (s : State) : Host.Outcome State Fault Refusal :=
  onEvent (fun e => match e with | .leaseExpiry core va => some fun s => s.leaseEnds core va | _ => none) s

/-- PATROL_SCRUB (R350). -/
def execPatrolScrub (s : State) : Host.Outcome State Fault Refusal :=
  onEvent (fun e => match e with | .patrolScrub pa => some fun s => s.findBad pa | _ => none) s

/-- HBM_UNCORRECTABLE_ERROR (R350). -/
def execHbmUncorrectableError (s : State) : Host.Outcome State Fault Refusal :=
  onEvent (fun e => match e with | .hbmUncorrectableError pa => some fun s => s.sectorFails pa | _ => none) s

/-- ANNOUNCEMENT_WINDOW_CLOSE (R301). -/
def execAnnouncementWindowClose (s : State) : Host.Outcome State Fault Refusal :=
  onEvent (fun e => match e with | .announcementWindowClose => some State.closeWindow | _ => none) s

/-- ANNOUNCEMENT_DELIVERY (R302). -/
def execAnnouncementDelivery (s : State) : Host.Outcome State Fault Refusal :=
  onEvent (fun e => match e with | .announcementDelivery die => some fun s => s.deliver die s.scOps.length | _ => none) s

/-- PHASE_STEP (R310). -/
def execPhaseStep (s : State) : Host.Outcome State Fault Refusal :=
  onEvent (fun e => match e with | .phaseStep cell => some fun s => s.stepPhase cell | _ => none) s

end Sys2Proof.Machine
end

