-- ==== Sys2Proof/Machine/Control.lean ====
section
/-! DEFINITION. Control flow: branches, jumps, the window's calls and returns, traps and the end of a strand (R64, R74,
R95 to R101, R133).
Readings of the spec that this file takes: DEDUCED, log entry 15. -/

namespace Sys2Proof.Machine

/-- The address of a halfword displacement (R44). -/
def target {n : Nat} (pc : Word) (s : BitVec n) : Word := pc + wordI (2 * s.toInt)

/-- A branch taken when a condition holds (R95). -/
def branch (s : BitVec 14) (b a : BitVec 5) (f : Word → Word → Bool) : M Next := do
  ports [a, b]
  let (x, y) ← src2 a b
  let t ← get
  pure (if f x y then .jump (target t.my.pc s) else .seq)

/-- A target or link must be an instruction address, else the address fault (R98). -/
def codeTarget (v : Word) : M Unit := require (codeAddress v) cAddress 0 v

/-- Handlers are leaf code (R74, R133): DETAIL 0x14 within a trap handler, 0x12 within a light handler. -/
def leafOnly : M Unit := do
  let s ← get
  require (!s.my.trap) cIllegal 0x14
  require (!s.my.lh) cIllegal 0x12

/-- The link of the spill victim (R65, R72). -/
def Regs.victimLink (c : Regs) : Word := c.link (c.depth + 2 - c.res)

/-- The call of R64. -/
def callTo (t link : Word) : M Next := do
  let s ← get
  let c := s.my
  require (decide (c.depth ≠ 0xFFFF)) cDepth
  require (decide (c.res < c.cap)) cSpill 0 c.victimLink
  change fun s => s.updMy fun c =>
    (({ c with depth := c.depth + 1, res := c.res + 1 } : Ctx).clearFrame (c.depth + 2)).setLink (c.depth + 2) link
  pure (.jump t)

/-- Every earlier access of the strand is performed before it goes on (R82, R100, R149): announced operations, remote
packets, streams being drained. -/
def performed : M Unit := do
  let s ← get
  let waits := s.scOps.any (fun o => o.core == s.me.1 && o.ctx == s.me.2)
    || s.fabric.packets.any (fun p => p.core == s.me.1 && p.agent == s.me.2)
    || s.my.ports.toList.any fun p => match p with | .stream t => t.write && !t.buf.isEmpty && t.fault.isNone | _ => false
  if waits then stall else pure ()

/-- BEQ (R95). -/
def execBeq (s : BitVec 14) (b : BitVec 5) (a : BitVec 5) (t : State) : Host.Outcome State Fault Refusal :=
  runInstr (.beq s b a) (branch s b a fun x y => x == y) t

/-- BNE (R95). -/
def execBne (s : BitVec 14) (b : BitVec 5) (a : BitVec 5) (t : State) : Host.Outcome State Fault Refusal :=
  runInstr (.bne s b a) (branch s b a fun x y => x != y) t

/-- BLT (R95). -/
def execBlt (s : BitVec 14) (b : BitVec 5) (a : BitVec 5) (t : State) : Host.Outcome State Fault Refusal :=
  runInstr (.blt s b a) (branch s b a fun x y => x.slt y) t

/-- BGE (R95). -/
def execBge (s : BitVec 14) (b : BitVec 5) (a : BitVec 5) (t : State) : Host.Outcome State Fault Refusal :=
  runInstr (.bge s b a) (branch s b a fun x y => !x.slt y) t

/-- BLTN (R95). -/
def execBltn (s : BitVec 14) (b : BitVec 5) (a : BitVec 5) (t : State) : Host.Outcome State Fault Refusal :=
  runInstr (.bltn s b a) (branch s b a fun x y => x.ult y) t

/-- BGEN (R95). -/
def execBgen (s : BitVec 14) (b : BitVec 5) (a : BitVec 5) (t : State) : Host.Outcome State Fault Refusal :=
  runInstr (.bgen s b a) (branch s b a fun x y => !x.ult y) t

/-- REP: the counter goes down; back while passes remain (R96). -/
def execRep (s : BitVec 14) (a : BitVec 5) (t : State) : Host.Outcome State Fault Refusal :=
  runInstr (.rep s a) (do
    let c ← src a
    let t ← get
    if c.toNat ≤ 1 then
      dst a 0
      pure .seq
    else
      dst a (c - 1)
      pure (.jump (target t.my.pc s))) t

/-- J (R97). -/
def execJmp (s : BitVec 19) (d : BitVec 5) (t : State) : Host.Outcome State Fault Refusal :=
  runInstr (.jmp s d) (do
    ports [d]
    let t ← get
    dst d (t.my.pc + 4)
    pure (.jump (target t.my.pc s))) t

/-- CALL (R64, R97). -/
def execCall (s : BitVec 19) (t : State) : Host.Outcome State Fault Refusal :=
  runInstr (.call s) (do
    leafOnly
    let t ← get
    callTo (target t.my.pc s) (t.my.pc + 4)) t

/-- JR; JR zr within a light handler returns from it (R98, R133). -/
def execJr (a : BitVec 5) (d : BitVec 5) (s : State) : Host.Outcome State Fault Refusal :=
  runInstr (.jr a d) (do
    ports [a, d]
    let t ← get
    if t.my.lh ∧ a = 28#5 ∧ d = 28#5 then
      change fun s => s.updMy fun c => { c with lh := false }
      pure (.jump t.my.lpc)
    else
      let x ← src a
      codeTarget x
      codeTarget (t.my.pc + 4)
      dst d (t.my.pc + 4)
      pure (.jump x)) s

/-- CALLR (R64, R98). -/
def execCallr (a : BitVec 5) (s : State) : Host.Outcome State Fault Refusal :=
  runInstr (.callr a) (do
    leafOnly
    ports [a]
    let x ← src a
    codeTarget x
    let t ← get
    codeTarget (t.my.pc + 4)
    callTo x (t.my.pc + 4)) s

/-- RET (R64). -/
def execRet (s : State) : Host.Outcome State Fault Refusal :=
  runInstr .ret (do
    leafOnly
    let s ← get
    let c := s.my
    require (decide (c.depth ≠ 0)) cRetZero
    require (decide (2 < c.res)) cFill
    let t := c.link (c.depth + 1)
    codeTarget t
    change fun s => s.updMy fun c => { c with depth := c.depth - 1, res := c.res - 1 }
    pure (.jump t)) s

/-- ERET (R65, R74). -/
def execEret (s : State) : Host.Outcome State Fault Refusal :=
  runInstr .eret (do
    let s ← get
    require s.my.trap cIllegal
    change fun s => s.updMy Ctx.eret
    pure (.jump s.my.epc)) s

/-- YIELD: the strand stands last in round-robin order (R99, R142). -/
def execYield (s : State) : Host.Outcome State Fault Refusal :=
  runInstr .yield (do
    leafOnly
    change fun s => s.updMyCore fun c => { c with lastIssue := s.me.2 }
    pure .seq) s

/-- EXIT: the strand ends (R100). -/
def execExit (s : State) : Host.Outcome State Fault Refusal :=
  runInstr .exit (do
    let s ← get
    require (!s.my.lh) cIllegal 0x12
    performed
    release 3
    let t ← get
    stop (.done (t.endStrand t.me.1 t.me.2))) s

/-- TRAP (R101). -/
def execTrap (t : BitVec 12) (s : State) : Host.Outcome State Fault Refusal :=
  runInstr (.trap t) (raise cSoft 0 (t.zeroExtend 64)) s

end Sys2Proof.Machine
end

