-- ==== Sys2Proof/Machine/Vector.lean ====
section
/-! DEFINITION. Lane arithmetic, fused multiply-add, widening and narrowing (R153 to R166).
Readings of the spec that this file takes: DEDUCED, log entry 19. -/

namespace Sys2Proof.Machine

/-! ### Element operations -/

/-- An operation by kind of type: integers exactly, wrapped to the width; floating point rounded once (R16, R157). -/
def arith (fi : Int → Int → Int) (ff : FTy → FVal → FVal → Nat × Counts) (t : ETy) (x y : Nat) : Nat × Counts :=
  match t with
  | .flt f => ff f (decodeF f x) (decodeF f y)
  | t => (wrap t.width (fi (t.value x) (t.value y)), .zero)

/-- An operation on the element's bits, which counts nothing. -/
def onBits (f : Nat → Nat → Nat → Nat) (t : ETy) (x y : Nat) : Nat × Counts := (f t.width x y, .zero)

def addElem (rm : RM) : ETy → Nat → Nat → Nat × Counts := arith (fun x y => x + y) fun f x y => finish f rm (exactAdd rm x y)

def subElem (rm : RM) : ETy → Nat → Nat → Nat × Counts := arith (fun x y => x - y) fun f x y => finish f rm (exactAdd rm x y.negate)

def mulElem (rm : RM) : ETy → Nat → Nat → Nat × Counts := arith (fun x y => x * y) fun f x y => finish f rm (exactMul x y)

/-- Minimum or maximum in the type's order (R160). -/
def minMaxElem (wantMax : Bool) (t : ETy) (x y : Nat) : Nat × Counts :=
  match t with
  | .flt f => fMinMax wantMax f x y
  | t => (if decide (t.value x < t.value y) = wantMax then y else x, .zero)

/-- VNEG and VABS: any NaN gives the canonical NaN and counts nothing (R160). -/
def signElem (clear : Bool) (t : ETy) (y : Nat) : Nat × Counts :=
  match t with
  | .flt f =>
    if (decodeF f y).isNan then (f.nanCode, .zero)
    else
      let mag := y % 2 ^ (f.width - 1)
      (if clear then mag else if y = mag then mag + 2 ^ (f.width - 1) else mag, .zero)
  | t => (wrap t.width (if clear then ((t.value y).natAbs : Int) else 0 - t.value y), .zero)

/-- The magnitude of an exact result. -/
def Exact.magnitude : Exact → Exact
  | .val (.fin _ m e) => .val (.fin false m e)
  | .val (.inf _) => .val (.inf false)
  | x => x

/-- VABD. -/
def distElem (rm : RM) : ETy → Nat → Nat → Nat × Counts :=
  arith (fun x y => ((x - y).natAbs : Int)) fun f x y => finish f rm (exactAdd rm x y.negate).magnitude

/-- VADDS, VSUBS: saturated, not counted (R160). -/
def satElem (f : Int → Int → Int) (t : ETy) (x y : Nat) : Nat × Counts :=
  (wrap t.width (saturate t (f (t.value x) (t.value y))).1, .zero)

/-- VMULH (R160). -/
def highElem (t : ETy) (x y : Nat) : Nat × Counts := (wrap t.width (t.value x * t.value y / (2 ^ t.width : Int)), .zero)

/-- A type's integers, and its floating-point types. -/
def ETy.isInt (t : ETy) : Bool := !t.isFloat

/-! ### Frames of lane instructions -/

/-- Each active element of a register by f, the others as before; with the events (R155). -/
def lanes (c : Ctx) (m : BitVec 1) (w : Nat) (old : Vec) (f : Nat → Nat × Counts) : Vec × Counts :=
  let rs := (List.range (4096 / w)).map fun i => if c.active m i then f i else (elemOf old w i, .zero)
  (vecOf w (rs.map Prod.fst), sumCounts (rs.map Prod.snd))

/-- d := f(a, b) by lanes. -/
def vecTwo (ok : ETy → Bool) (m : BitVec 1) (b a d : BitVec 5) (f : ETy → Nat → Nat → Nat × Counts) : M Next := do
  let t ← laneType ok
  allocated [(a, 1), (b, 1), (d, 1)]
  portUse [a, b] [d]
  let (x, y) ← vsrc2 a b
  let old ← oldVec d
  let s ← get
  let r := lanes s.my m t.width old fun i => f t (elemOf x t.width i) (elemOf y t.width i)
  vdst d r.1
  tally r.2
  pure .seq

/-- d := f(b) by lanes. -/
def vecOne (ok : ETy → Bool) (m : BitVec 1) (b d : BitVec 5) (f : ETy → Nat → Nat × Counts) : M Next := do
  let t ← laneType ok
  allocated [(b, 1), (d, 1)]
  portUse [b] [d]
  let y ← vsrc b
  let old ← oldVec d
  let s ← get
  let r := lanes s.my m t.width old fun i => f t (elemOf y t.width i)
  vdst d r.1
  tally r.2
  pure .seq

/-- VXCHG: active elements of d and b exchange values (R160). -/
def exchange (m : BitVec 1) (b d : BitVec 5) : M Next := do
  let t ← laneType fun _ => true
  allocated [(b, 1), (d, 1)]
  portUse [b, d] [b, d]
  let (x, y) ← vsrc2 d b
  let oldD ← oldVec d
  let oldB ← oldVec b
  let s ← get
  vdst d (lanes s.my m t.width oldD fun i => (elemOf y t.width i, .zero)).1
  if b ≠ d then vdst b (lanes s.my m t.width oldB fun i => (elemOf x t.width i, .zero)).1
  pure .seq

/-- Every lane type. -/
def anyType (_ : ETy) : Bool := true

/-! ### The operations that have an L form (R57, R160) -/

/-- VADD (R160). -/
def execVadd (m : BitVec 1) (r : BitVec 2) (b : BitVec 5) (a : BitVec 5) (d : BitVec 5) (s : State) : Host.Outcome State Fault Refusal :=
  runInstr (.vadd m r b a d) (vecTwo anyType m b a d (addElem (rmOf r))) s

/-- VSUB (R160). -/
def execVsub (m : BitVec 1) (r : BitVec 2) (b : BitVec 5) (a : BitVec 5) (d : BitVec 5) (s : State) : Host.Outcome State Fault Refusal :=
  runInstr (.vsub m r b a d) (vecTwo anyType m b a d (subElem (rmOf r))) s

/-- VMUL (R160). -/
def execVmul (m : BitVec 1) (r : BitVec 2) (b : BitVec 5) (a : BitVec 5) (d : BitVec 5) (s : State) : Host.Outcome State Fault Refusal :=
  runInstr (.vmul m r b a d) (vecTwo anyType m b a d (mulElem (rmOf r))) s

/-- VMIN (R160). -/
def execVmin (m : BitVec 1) (r : BitVec 2) (b : BitVec 5) (a : BitVec 5) (d : BitVec 5) (s : State) : Host.Outcome State Fault Refusal :=
  runInstr (.vmin m r b a d) (vecTwo anyType m b a d (minMaxElem false)) s

/-- VMAX (R160). -/
def execVmax (m : BitVec 1) (r : BitVec 2) (b : BitVec 5) (a : BitVec 5) (d : BitVec 5) (s : State) : Host.Outcome State Fault Refusal :=
  runInstr (.vmax m r b a d) (vecTwo anyType m b a d (minMaxElem true)) s

/-- VAND (R160). -/
def execVand (m : BitVec 1) (r : BitVec 2) (b : BitVec 5) (a : BitVec 5) (d : BitVec 5) (s : State) : Host.Outcome State Fault Refusal :=
  runInstr (.vand m r b a d) (vecTwo anyType m b a d (onBits fun _ x y => x &&& y)) s

/-- VOR (R160). -/
def execVor (m : BitVec 1) (r : BitVec 2) (b : BitVec 5) (a : BitVec 5) (d : BitVec 5) (s : State) : Host.Outcome State Fault Refusal :=
  runInstr (.vor m r b a d) (vecTwo anyType m b a d (onBits fun _ x y => x ||| y)) s

/-- VXOR (R160). -/
def execVxor (m : BitVec 1) (r : BitVec 2) (b : BitVec 5) (a : BitVec 5) (d : BitVec 5) (s : State) : Host.Outcome State Fault Refusal :=
  runInstr (.vxor m r b a d) (vecTwo anyType m b a d (onBits fun _ x y => x ^^^ y)) s

/-- VSHL (R160). -/
def execVshl (m : BitVec 1) (r : BitVec 2) (b : BitVec 5) (a : BitVec 5) (d : BitVec 5) (s : State) : Host.Outcome State Fault Refusal :=
  runInstr (.vshl m r b a d) (vecTwo anyType m b a d (onBits fun w x y => shiftLeft w x (amount y))) s

/-- VSHR (R160). -/
def execVshr (m : BitVec 1) (r : BitVec 2) (b : BitVec 5) (a : BitVec 5) (d : BitVec 5) (s : State) : Host.Outcome State Fault Refusal :=
  runInstr (.vshr m r b a d) (vecTwo anyType m b a d (onBits fun w x y => shiftRight w x (amount y))) s

/-- VSAR (R160). -/
def execVsar (m : BitVec 1) (r : BitVec 2) (b : BitVec 5) (a : BitVec 5) (d : BitVec 5) (s : State) : Host.Outcome State Fault Refusal :=
  runInstr (.vsar m r b a d) (vecTwo anyType m b a d (onBits fun w x y => shiftSigned w x (amount y))) s

/-- VMOV (R160). -/
def execVmov (m : BitVec 1) (r : BitVec 2) (b : BitVec 5) (a : BitVec 5) (d : BitVec 5) (s : State) : Host.Outcome State Fault Refusal :=
  runInstr (.vmov m r b a d) (vecOne anyType m b d fun _ y => (y, .zero)) s

/-- VNEG (R160). -/
def execVneg (m : BitVec 1) (r : BitVec 2) (b : BitVec 5) (a : BitVec 5) (d : BitVec 5) (s : State) : Host.Outcome State Fault Refusal :=
  runInstr (.vneg m r b a d) (vecOne anyType m b d (signElem false)) s

/-- VABS (R160). -/
def execVabs (m : BitVec 1) (r : BitVec 2) (b : BitVec 5) (a : BitVec 5) (d : BitVec 5) (s : State) : Host.Outcome State Fault Refusal :=
  runInstr (.vabs m r b a d) (vecOne anyType m b d (signElem true)) s

/-- VRSUB (R160). -/
def execVrsub (m : BitVec 1) (r : BitVec 2) (b : BitVec 5) (a : BitVec 5) (d : BitVec 5) (s : State) : Host.Outcome State Fault Refusal :=
  runInstr (.vrsub m r b a d) (vecTwo anyType m b a d fun t x y => subElem (rmOf r) t y x) s

/-- VXCHG (R160). -/
def execVxchg (m : BitVec 1) (r : BitVec 2) (b : BitVec 5) (a : BitVec 5) (d : BitVec 5) (s : State) : Host.Outcome State Fault Refusal :=
  runInstr (.vxchg m r b a d) (exchange m b d) s

/-! ### The remaining lane operations (R160) -/

/-- VDIV (R160). -/
def execVdiv (m : BitVec 1) (r : BitVec 2) (b : BitVec 5) (a : BitVec 5) (d : BitVec 5) (s : State) : Host.Outcome State Fault Refusal :=
  runInstr (.vdiv m r b a d) (vecTwo ETy.isFloat m b a d (arith (fun x _ => x) fun f x y => finish f (rmOf r) (exactDiv x y))) s

/-- VSQRT (R160). -/
def execVsqrt (m : BitVec 1) (r : BitVec 2) (b : BitVec 5) (a : BitVec 5) (d : BitVec 5) (s : State) : Host.Outcome State Fault Refusal :=
  runInstr (.vsqrt m r b a d) (vecOne ETy.isFloat m b d fun t y => arith (fun x _ => x) (fun f x _ => finish f (rmOf r) (exactSqrt x)) t y y) s

/-- VMULH (R160). -/
def execVmulh (m : BitVec 1) (r : BitVec 2) (b : BitVec 5) (a : BitVec 5) (d : BitVec 5) (s : State) : Host.Outcome State Fault Refusal :=
  runInstr (.vmulh m r b a d) (vecTwo ETy.isInt m b a d highElem) s

/-- VADDS (R160). -/
def execVadds (m : BitVec 1) (r : BitVec 2) (b : BitVec 5) (a : BitVec 5) (d : BitVec 5) (s : State) : Host.Outcome State Fault Refusal :=
  runInstr (.vadds m r b a d) (vecTwo ETy.isInt m b a d (satElem fun x y => x + y)) s

/-- VSUBS (R160). -/
def execVsubs (m : BitVec 1) (r : BitVec 2) (b : BitVec 5) (a : BitVec 5) (d : BitVec 5) (s : State) : Host.Outcome State Fault Refusal :=
  runInstr (.vsubs m r b a d) (vecTwo ETy.isInt m b a d (satElem fun x y => x - y)) s

/-- VABD (R160). -/
def execVabd (m : BitVec 1) (r : BitVec 2) (b : BitVec 5) (a : BitVec 5) (d : BitVec 5) (s : State) : Host.Outcome State Fault Refusal :=
  runInstr (.vabd m r b a d) (vecTwo anyType m b a d (distElem (rmOf r))) s

/-- VNOT (R160). -/
def execVnot (m : BitVec 1) (r : BitVec 2) (b : BitVec 5) (a : BitVec 5) (d : BitVec 5) (s : State) : Host.Outcome State Fault Refusal :=
  runInstr (.vnot m r b a d) (vecOne anyType m b d fun t y => (2 ^ t.width - 1 - y, .zero)) s

/-! ### The L forms (R57, R162): the VARITH form with d = a = vd, b = vs and rounding to nearest even -/

/-- VADD vd, vs (R57, R162). -/
def execVaddLForm (m : BitVec 1) (s : BitVec 5) (d : BitVec 5) (u : State) : Host.Outcome State Fault Refusal :=
  runInstr (.vaddLForm m s d) (vecTwo anyType m s d d (addElem .rne)) u

/-- VSUB vd, vs (R57, R162). -/
def execVsubLForm (m : BitVec 1) (s : BitVec 5) (d : BitVec 5) (u : State) : Host.Outcome State Fault Refusal :=
  runInstr (.vsubLForm m s d) (vecTwo anyType m s d d (subElem .rne)) u

/-- VMUL vd, vs (R57, R162). -/
def execVmulLForm (m : BitVec 1) (s : BitVec 5) (d : BitVec 5) (u : State) : Host.Outcome State Fault Refusal :=
  runInstr (.vmulLForm m s d) (vecTwo anyType m s d d (mulElem .rne)) u

/-- VMIN vd, vs (R57, R162). -/
def execVminLForm (m : BitVec 1) (s : BitVec 5) (d : BitVec 5) (u : State) : Host.Outcome State Fault Refusal :=
  runInstr (.vminLForm m s d) (vecTwo anyType m s d d (minMaxElem false)) u

/-- VMAX vd, vs (R57, R162). -/
def execVmaxLForm (m : BitVec 1) (s : BitVec 5) (d : BitVec 5) (u : State) : Host.Outcome State Fault Refusal :=
  runInstr (.vmaxLForm m s d) (vecTwo anyType m s d d (minMaxElem true)) u

/-- VAND vd, vs (R57, R162). -/
def execVandLForm (m : BitVec 1) (s : BitVec 5) (d : BitVec 5) (u : State) : Host.Outcome State Fault Refusal :=
  runInstr (.vandLForm m s d) (vecTwo anyType m s d d (onBits fun _ x y => x &&& y)) u

/-- VOR vd, vs (R57, R162). -/
def execVorLForm (m : BitVec 1) (s : BitVec 5) (d : BitVec 5) (u : State) : Host.Outcome State Fault Refusal :=
  runInstr (.vorLForm m s d) (vecTwo anyType m s d d (onBits fun _ x y => x ||| y)) u

/-- VXOR vd, vs (R57, R162). -/
def execVxorLForm (m : BitVec 1) (s : BitVec 5) (d : BitVec 5) (u : State) : Host.Outcome State Fault Refusal :=
  runInstr (.vxorLForm m s d) (vecTwo anyType m s d d (onBits fun _ x y => x ^^^ y)) u

/-- VSHL vd, vs (R57, R162). -/
def execVshlLForm (m : BitVec 1) (s : BitVec 5) (d : BitVec 5) (u : State) : Host.Outcome State Fault Refusal :=
  runInstr (.vshlLForm m s d) (vecTwo anyType m s d d (onBits fun w x y => shiftLeft w x (amount y))) u

/-- VSHR vd, vs (R57, R162). -/
def execVshrLForm (m : BitVec 1) (s : BitVec 5) (d : BitVec 5) (u : State) : Host.Outcome State Fault Refusal :=
  runInstr (.vshrLForm m s d) (vecTwo anyType m s d d (onBits fun w x y => shiftRight w x (amount y))) u

/-- VSAR vd, vs (R57, R162). -/
def execVsarLForm (m : BitVec 1) (s : BitVec 5) (d : BitVec 5) (u : State) : Host.Outcome State Fault Refusal :=
  runInstr (.vsarLForm m s d) (vecTwo anyType m s d d (onBits fun w x y => shiftSigned w x (amount y))) u

/-- VMOV vd, vs (R57, R162). -/
def execVmovLForm (m : BitVec 1) (s : BitVec 5) (d : BitVec 5) (u : State) : Host.Outcome State Fault Refusal :=
  runInstr (.vmovLForm m s d) (vecOne anyType m s d fun _ y => (y, .zero)) u

/-- VNEG vd, vs (R57, R162). -/
def execVnegLForm (m : BitVec 1) (s : BitVec 5) (d : BitVec 5) (u : State) : Host.Outcome State Fault Refusal :=
  runInstr (.vnegLForm m s d) (vecOne anyType m s d (signElem false)) u

/-- VABS vd, vs (R57, R162). -/
def execVabsLForm (m : BitVec 1) (s : BitVec 5) (d : BitVec 5) (u : State) : Host.Outcome State Fault Refusal :=
  runInstr (.vabsLForm m s d) (vecOne anyType m s d (signElem true)) u

/-- VRSUB vd, vs (R57, R162). -/
def execVrsubLForm (m : BitVec 1) (s : BitVec 5) (d : BitVec 5) (u : State) : Host.Outcome State Fault Refusal :=
  runInstr (.vrsubLForm m s d) (vecTwo anyType m s d d fun t x y => subElem .rne t y x) u

/-- VXCHG vd, vs (R57, R162). -/
def execVxchgLForm (m : BitVec 1) (s : BitVec 5) (d : BitVec 5) (u : State) : Host.Outcome State Fault Refusal :=
  runInstr (.vxchgLForm m s d) (exchange m s d) u

/-! ### Fused multiply-add (R163) -/

/-- d := ±(a × b) ± d. -/
def fusedOp (negProduct negAcc : Bool) (m : BitVec 1) (r : BitVec 2) (b a d : BitVec 5) : M Next := do
  let t ← laneType anyType
  allocated [(a, 1), (b, 1), (d, 1)]
  portUse [a, b, d] [d]
  let (x, y, z) ← vsrc3 a b d
  let old ← oldVec d
  let s ← get
  let one := fun (p q u : Nat) =>
    match t with
    | .flt f =>
      let p := decodeF f p
      let u := decodeF f u
      finish f (rmOf r) (exactFma (rmOf r) (if negProduct then p.negate else p) (decodeF f q) (if negAcc then u.negate else u))
    | t =>
      let v := t.value p * t.value q
      (wrap t.width ((if negProduct then -v else v) + (if negAcc then -t.value u else t.value u)), .zero)
  let res := lanes s.my m t.width old fun i => one (elemOf x t.width i) (elemOf y t.width i) (elemOf z t.width i)
  vdst d res.1
  tally res.2
  pure .seq

/-- VFMA (R163). -/
def execVfma (m : BitVec 1) (r : BitVec 2) (b : BitVec 5) (a : BitVec 5) (d : BitVec 5) (s : State) : Host.Outcome State Fault Refusal :=
  runInstr (.vfma m r b a d) (fusedOp false false m r b a d) s

/-- VFMS (R163). -/
def execVfms (m : BitVec 1) (r : BitVec 2) (b : BitVec 5) (a : BitVec 5) (d : BitVec 5) (s : State) : Host.Outcome State Fault Refusal :=
  runInstr (.vfms m r b a d) (fusedOp false true m r b a d) s

/-- VFNMA (R163). -/
def execVfnma (m : BitVec 1) (r : BitVec 2) (b : BitVec 5) (a : BitVec 5) (d : BitVec 5) (s : State) : Host.Outcome State Fault Refusal :=
  runInstr (.vfnma m r b a d) (fusedOp true true m r b a d) s

/-- VFNMS (R163). -/
def execVfnms (m : BitVec 1) (r : BitVec 2) (b : BitVec 5) (a : BitVec 5) (d : BitVec 5) (s : State) : Host.Outcome State Fault Refusal :=
  runInstr (.vfnms m r b a d) (fusedOp true false m r b a d) s

/-! ### Widening and narrowing (R35, R164 to R166) -/

/-- The wide type W of a narrow type S (R164). -/
def wideOf (t : ETy) : Option ETy :=
  match t with
  | .int w => if w ≤ 32 then some (.int (2 * w)) else none
  | .nat w => if w ≤ 32 then some (.nat (2 * w)) else none
  | .flt .f16 => some (.flt .f32)
  | .flt .bf16 => some (.flt .f32)
  | .flt .f32 => some (.flt .f64)
  | .flt _ => none

/-- The type of four times the width (R165). -/
def quadOf (t : ETy) : Option ETy :=
  match t with
  | .int w => if w ≤ 16 then some (.int (4 * w)) else none
  | .nat w => if w ≤ 16 then some (.nat (4 * w)) else none
  | .flt _ => none

/-- The registers of a widened group: source element i goes to register i mod ratio, position i / ratio; inactive ones
keep what the group held (R35, R155). -/
def spread (c : Ctx) (m : BitVec 1) (d : BitVec 5) (ratio w : Nat) (f : Nat → Nat × Counts) : List Vec × Counts :=
  let regs := (List.range ratio).map fun q =>
    let rs := (List.range (4096 / w)).map fun j =>
      if c.active m (ratio * j + q) then f (ratio * j + q) else (elemOf (c.vgroup d q) w j, .zero)
    (vecOf w (rs.map Prod.fst), sumCounts (rs.map Prod.snd))
  (regs.map Prod.fst, sumCounts (regs.map Prod.snd))

/-- Element i of an interleaved group (R35). -/
def Ctx.gathered (c : Ctx) (a : BitVec 5) (ratio w i : Nat) : Nat := elemOf (c.vgroup a (i % ratio)) w (i / ratio)

/-- A widening operation: f of the narrow type, the wide type, x, y and the group's element. -/
def widen (wide : ETy → Option ETy) (ratio : Nat) (m : BitVec 1) (b a d : BitVec 5) (f : ETy → ETy → Nat → Nat → Nat → Nat × Counts) : M Next := do
  let t ← laneType fun t => (wide t).isSome
  let u := (wide t).getD t
  grouped d ratio
  allocated [(a, 1), (b, 1), (d, ratio)]
  portUse [a, b] []
  noPorts d ratio
  let (x, y) ← vsrc2 a b
  let s ← get
  let r := spread s.my m d ratio u.width fun i => f t u (elemOf x t.width i) (elemOf y t.width i) (s.my.gathered d ratio u.width i)
  vdstGroup 0#4 d 0 r.1
  tally r.2
  pure .seq

/-- A widening operation by kind of type. -/
def wideElem (rm : RM) (fi : Int → Int → Int → Int) (ff : FVal → FVal → FVal → Exact) (t u : ETy) (x y z : Nat) : Nat × Counts :=
  match t, u with
  | .flt f, .flt g => finish g rm (ff (decodeF f x) (decodeF f y) (decodeF g z))
  | t, u => (wrap u.width (fi (t.value x) (t.value y) (u.value z)), .zero)

/-- VWADD (R164). -/
def execVwadd (m : BitVec 1) (r : BitVec 2) (b a d : BitVec 5) (s : State) : Host.Outcome State Fault Refusal :=
  runInstr (.vwadd m r b a d) (widen wideOf 2 m b a d (wideElem (rmOf r) (fun x y _ => x + y) fun x y _ => exactAdd (rmOf r) x y)) s

/-- VWSUB (R164). -/
def execVwsub (m : BitVec 1) (r : BitVec 2) (b a d : BitVec 5) (s : State) : Host.Outcome State Fault Refusal :=
  runInstr (.vwsub m r b a d) (widen wideOf 2 m b a d (wideElem (rmOf r) (fun x y _ => x - y) fun x y _ => exactAdd (rmOf r) x y.negate)) s

/-- VWMUL (R164). -/
def execVwmul (m : BitVec 1) (r : BitVec 2) (b a d : BitVec 5) (s : State) : Host.Outcome State Fault Refusal :=
  runInstr (.vwmul m r b a d) (widen wideOf 2 m b a d (wideElem (rmOf r) (fun x y _ => x * y) fun x y _ => exactMul x y)) s

/-- VWMAC, fused (R164). -/
def execVwmac (m : BitVec 1) (r : BitVec 2) (b a d : BitVec 5) (s : State) : Host.Outcome State Fault Refusal :=
  runInstr (.vwmac m r b a d) (widen wideOf 2 m b a d (wideElem (rmOf r) (fun x y z => z + x * y) fun x y z => exactFma (rmOf r) x y z)) s

/-- VQMAC into a quad; a rounding mode is refused with DETAIL 0x20 (R165). -/
def execVqmac (m : BitVec 1) (r : BitVec 2) (b a d : BitVec 5) (s : State) : Host.Outcome State Fault Refusal :=
  runInstr (.vqmac m r b a d) (do
    require (r == 0#2) cIllegal 0x20
    widen quadOf 4 m b a d fun t u x y z => (wrap u.width (u.value z + t.value x * t.value y), .zero)) s

/-- VNSHR: a pair narrowed by a rounded shift, saturated and counted (R166). -/
def execVnshr (m : BitVec 1) (r : BitVec 2) (b a d : BitVec 5) (s : State) : Host.Outcome State Fault Refusal :=
  runInstr (.vnshr m r b a d) (do
    let t ← laneType fun t => !t.isFloat && decide (t.width ≤ 32)
    let u := (wideOf t).getD t
    grouped a 2
    allocated [(a, 2), (b, 1), (d, 1)]
    portUse [b] [d]
    noPorts a 2
    let y ← vsrc b
    let old ← oldVec d
    let s ← get
    let res := lanes s.my m t.width old fun i =>
      let v := u.value (s.my.gathered a 2 u.width i)
      let n := amount (elemOf y t.width i)
      toIntTy t (roundToInt (rmOf r) (decide (v < 0)) v.natAbs (-(n : Int)))
    vdst d res.1
    tally res.2
    pure .seq) s

end Sys2Proof.Machine
end

