-- ==== Sys2Proof/Machine/Convert.lean ====
section
/-! DEFINITION. Conversions and quantisation (R171 to R176).
Readings of the spec that this file takes: DEDUCED, log entry 19. -/

namespace Sys2Proof.Machine

/-! ### Conversions (R171, R172) -/

/-- The exact value of an element of any type. -/
def exactOf (t : ETy) (x : Nat) : FVal :=
  match t with
  | .flt f => decodeF f x
  | t => .fin (decide (t.value x < 0)) (t.value x).natAbs 0

/-- One element of type S converted to type T (R171). -/
def convertElem (rm : RM) (t u : ETy) (x : Nat) : Nat × Counts :=
  match t, u with
  | .flt f, .flt g =>
    let v := decodeF f x
    let r := roundTo g rm v
    (r.1, r.2.add { nan := if v.isSnan then 1 else 0 })
  | .flt f, u => floatToInt u rm (decodeF f x)
  | t, .flt g => intToFloat g rm (t.value x)
  | t, u => toIntTy u (t.value x)

/-- amax_update over the active elements of one source register (R31, R172). -/
def amaxOver (t : ETy) (xs : List Nat) : M Unit :=
  let vs := xs.map (exactOf t)
  change fun s => s.updMy fun c => { c with amax := amaxMerge c.amax (upF32 (largestMag vs)) (vs.any FVal.isNan) }

/-- amax_update for several source registers. -/
def amaxAll (t : ETy) : List (List Nat) → M Unit
  | [] => pure ()
  | xs :: rest => do
    amaxOver t xs
    amaxAll t rest

/-- The type of a type-code field. -/
def codeType (f : BitVec 5) : M ETy :=
  match eTyOf f.toNat with
  | some t => pure t
  | none => raise cIllegal 0x20

/-- VCVT: one register to one (R171). -/
def execVcvt (m : BitVec 1) (x : BitVec 1) (r : BitVec 2) (t : BitVec 5) (a d : BitVec 5) (s : State) : Host.Outcome State Fault Refusal :=
  runInstr (.vcvt m x r t a d) (do
    let from_ ← laneType anyType
    let tgt ← codeType t
    require (tgt.width == from_.width) cIllegal 0x20
    allocated [(a, 1), (d, 1)]
    portUse [a] [d]
    let v ← vsrc a
    let old ← oldVec d
    let s ← get
    let res := lanes s.my m tgt.width old fun i => convertElem (rmOf r) from_ tgt (elemOf v from_.width i)
    if x = 1#1 then
      amaxOver from_ (((List.range (4096 / from_.width)).filter fun i => s.my.active m i).map fun i => elemOf v from_.width i)
    vdst d res.1
    tally res.2
    pure .seq) s

/-- VCVTW: one register to a pair or quad (R35, R171). -/
def execVcvtw (m : BitVec 1) (x : BitVec 1) (r : BitVec 2) (t : BitVec 5) (a d : BitVec 5) (s : State) : Host.Outcome State Fault Refusal :=
  runInstr (.vcvtw m x r t a d) (do
    let tgt ← laneType anyType
    let from_ ← codeType t
    let ratio := tgt.width / from_.width
    require ((ratio == 2 || ratio == 4) && tgt.width == ratio * from_.width) cIllegal 0x20
    grouped d ratio
    allocated [(a, 1), (d, ratio)]
    portUse [a] []
    noPorts d ratio
    let v ← vsrc a
    let s ← get
    let res := spread s.my m d ratio tgt.width fun i => convertElem (rmOf r) from_ tgt (elemOf v from_.width i)
    if x = 1#1 then
      amaxOver from_ (((List.range (4096 / from_.width)).filter fun i => s.my.active m i).map fun i => elemOf v from_.width i)
    vdstGroup 0#4 d 0 res.1
    tally res.2
    pure .seq) s

/-- VCVTN: a pair or quad to one register (R35, R171). -/
def execVcvtn (m : BitVec 1) (x : BitVec 1) (r : BitVec 2) (t : BitVec 5) (a d : BitVec 5) (s : State) : Host.Outcome State Fault Refusal :=
  runInstr (.vcvtn m x r t a d) (do
    let from_ ← laneType anyType
    let tgt ← codeType t
    let ratio := from_.width / tgt.width
    require ((ratio == 2 || ratio == 4) && from_.width == ratio * tgt.width) cIllegal 0x20
    grouped a ratio
    allocated [(a, ratio), (d, 1)]
    portUse [] [d]
    noPorts a ratio
    let old ← oldVec d
    let s ← get
    let res := lanes s.my m tgt.width old fun i => convertElem (rmOf r) from_ tgt (s.my.gathered a ratio from_.width i)
    if x = 1#1 then
      amaxAll from_ ((List.range ratio).map fun q =>
        ((List.range (4096 / from_.width)).filter fun j => s.my.active m (ratio * j + q)).map fun j => elemOf (s.my.vgroup a q) from_.width j)
    vdst d res.1
    tally res.2
    pure .seq) s

/-! ### Quantisation (R173 to R176) -/

/-- The wide types of QNT and DQNT: F16, BF16, F32, F64. -/
def wideFloat : M FTy := do
  let t ← laneType ETy.isFloat
  match t with
  | .flt f => pure f
  | _ => raise cIllegal 0x20

/-- The format of a type-code field. -/
def formatOf (f : BitVec 5) : M QFmt :=
  match qFmtOf f.toNat with
  | some q => pure q
  | none => raise cIllegal 0x20

/-- An AMAX update under lookahead (R32, R52). -/
def amaxLa (la : BitVec 4) (mag : Nat) (nan : Bool) : M Unit :=
  change fun s => s.updMy fun c =>
    if la = 0#4 then { c with amax := amaxMerge c.amax mag nan }
    else { c with pend := c.pend ++ [⟨la.toNat + 1, .amax mag nan⟩] }

/-- QNT (R29, R174). -/
def execQnt (r : BitVec 2) (la : BitVec 4) (t : BitVec 5) (a d : BitVec 5) (s : State) : Host.Outcome State Fault Refusal :=
  runInstr (.qnt r la t a d) (do
    let f ← wideFloat
    let fmt ← formatOf t
    let g := f.width / 8
    let e := 4096 / f.width
    grouped a g
    grouped d 2
    allocated [(a, g), (d, 2)]
    noPorts a g
    noPorts d 2
    let s ← get
    let elem := fun i => decodeF f (elemOf (s.my.vgroup a (i / e)) f.width (i % e))
    let blocks := (List.range 16).map fun j => qntBlock ((List.range 32).map fun k => elem (32 * j + k)) fmt (rmOf r)
    vdstGroup la d 0 [vecOf 8 (blocks.flatMap QBlock.codes), vecOf 8 (blocks.map QBlock.scale)]
    amaxLa la ((blocks.map QBlock.mag).foldl max 0) (blocks.any QBlock.nan)
    tally (sumCounts (blocks.map QBlock.counts))
    pure .seq) s

/-- Planes of a format. -/
def QFmt.planeCount : QFmt → Nat
  | .planes n => n
  | .small _ => 8

/-- DQNT (R30, R176). -/
def execDqnt (r : BitVec 2) (la : BitVec 4) (t : BitVec 5) (a d : BitVec 5) (s : State) : Host.Outcome State Fault Refusal :=
  runInstr (.dqnt r la t a d) (do
    let f ← wideFloat
    let fmt ← formatOf t
    let g := f.width / 8
    let e := 4096 / f.width
    grouped a 2
    grouped d g
    allocated [(a, 2), (d, g)]
    noPorts a 2
    noPorts d g
    let s ← get
    let codes := s.my.vgroup a 0
    let scales := s.my.vgroup a 1
    let n := fmt.planeCount
    let kb := match fmt with | .planes _ => elemOf scales 8 16 | .small _ => 0
    require (kb == 0 || (decide (2 ≤ kb) && decide (kb ≤ n))) cIllegal 0x23
    let k := if kb = 0 then n else kb
    let one := fun i =>
      let x := elemOf codes 8 i
      let code := match fmt with | .planes _ => wrap n (toSigned k x * (2 ^ (n - k) : Int)) | .small _ => x
      dqntElem code (elemOf scales 8 (i / 32)) fmt n k f (rmOf r)
    let rs := (List.range 512).map one
    vdstGroup la d 0 ((List.range g).map fun q => vecOf f.width ((rs.drop (q * e)).take e |>.map Prod.fst))
    tally (sumCounts (rs.map Prod.snd))
    pure .seq) s

end Sys2Proof.Machine
end

