-- ==== Sys2Proof/Machine/Copies.lean ====
section
/-! DEFINITION. The compositor hart's requests and copies (spec/09_compositor.md, R211 to R230, R426).
Readings of the spec that this file takes: DEDUCED, log entry 20. -/

namespace Sys2Proof.Machine

/-! ### The bytes of a copy, in sequence order (R221 to R225) -/

/-- An extent to be checked: base value, signed offset, length. -/
structure Leg where
  p : Word
  off : Int
  len : Nat
  deriving DecidableEq, Repr

/-- Fields of a shaped descriptor (R222). -/
def Copy.run (c : Copy) : Nat := descField c.desc 48 4
def Copy.n1 (c : Copy) : Nat := descField c.desc 52 2
def Copy.n2 (c : Copy) : Nat := descField c.desc 54 2

/-- Fields of a gather descriptor (R224). -/
def Copy.count (c : Copy) : Nat := descField c.desc 24 4
def Copy.esz (c : Copy) : Nat := descField c.desc 28 4

/-- Bytes of a copy in all. -/
def Copy.total (c : Copy) : Nat :=
  match c.form with
  | 0 => (c.desc.getD 2 0).toNat
  | 1 => c.count * c.esz
  | _ => c.run * c.n1 * c.n2

/-- DONE of R228: elements of a CPY.G are counted whole. -/
def Copy.progress (c : Copy) : Nat := if c.form = 1 then c.done / max 1 c.esz * c.esz else c.done

/-- The task slot of the completing DEC (R217). -/
def Copy.dec (c : Copy) : Option Nat :=
  match c.form with
  | 0 => none
  | 1 => if descField c.desc 32 1 % 2 = 1 then some (descField c.desc 33 1 % 32) else none
  | _ => if descField c.desc 60 1 % 2 = 1 then some (descField c.desc 61 1 % 32) else none

/-- Fields of MESH and FLAGS of a shaped descriptor (R222). -/
def Copy.mesh (c : Copy) (lo n : Nat) : Nat := descField c.desc 56 4 / 2 ^ lo % 2 ^ n
def Copy.mside (c : Copy) : Nat := descField c.desc 60 1 / 2 % 4
def Copy.mdim (c : Copy) : Nat := descField c.desc 60 1 / 8 % 2

/-- The base and offset of a side of run (i1, i2) (R223). -/
def Copy.side (c : Copy) (base : Word) (s1 s2 : Int) (i1 i2 : Nat) (mapped : Bool) : Word × Int :=
  if !mapped then (base, (i1 : Int) * s1 + (i2 : Int) * s2)
  else
    let j := if c.mdim = 0 then i1 else i2
    let step := if c.mdim = 0 then s1 else s2
    let o := if c.mdim = 0 then (i2 : Int) * s2 else (i1 : Int) * s1
    let xw := max 1 (c.mesh 6 7)
    let n := xw * max 1 (c.mesh 18 6)
    let k := j % n
    (meshOf (c.mesh 0 6 + k % xw) (c.mesh 13 5 + k / xw) (bitsAt base 0 19), ((j / n : Nat) : Int) * step + o)

/-- The next piece of a copy that is no gather: source and destination. A linear copy moves up to the next 4 KiB boundary of
its destination, a shaped copy one run. -/
def Copy.piece (c : Copy) : Leg × Leg :=
  if c.form = 0 then
    let p := c.desc.getD 0 0
    let q := c.desc.getD 1 0
    let m := min (c.total - c.done) (4096 - (q.toNat + c.done) % 4096)
    (⟨p, c.done, m⟩, ⟨q, c.done, m⟩)
  else
    let run := max 1 c.run
    let r := c.done / run
    let o := c.done % run
    let i1 := r % max 1 c.n1
    let i2 := r / max 1 c.n1
    let x := c.side (c.desc.getD 0 0) (descInt c.desc 16 8) (descInt c.desc 32 8) i1 i2 (c.mside == 2)
    let y := c.side (c.desc.getD 1 0) (descInt c.desc 24 8) (descInt c.desc 40 8) i1 i2 (c.mside == 1)
    (⟨x.1, x.2 + (o : Int), run - o⟩, ⟨y.1, y.2 + (o : Int), run - o⟩)

/-! ### Checks and transfers of a piece (R77, R219) -/

/-- What the next step of a copy can do. -/
inductive CopyStep where
  /-- Bytes moved; the copy goes on. -/
  | moved (s : State)
  /-- Bytes before the failing one moved; the copy stops. -/
  | stopped (s : State) (t : Trap)
  /-- Every byte is performed. -/
  | finished
  /-- The next byte must wait. -/
  | wait (s : State)
  deriving DecidableEq, Repr

/-- The agent of a copy's accesses (R217). -/
def Copy.who (c : Copy) (core : Nat) : Who := { core, agent := 8, interval := copyInterval c.interval }

/-- Source and destination of one piece checked, the source first. -/
def State.checkPiece (s : State) (core : Nat) (c : Copy) (x y : Leg) : Check (List Extent × List Extent × Sofar) :=
  let w := c.who core
  let sp := s.engineSpace core c.tenant
  match checkExtent s w sp { read := true, plain := true, gen := c.gen } x.p x.off x.len {} with
  | .trap t s => .trap t s
  | .wait s => .wait s
  | .ok a s =>
    match checkExtent s w sp { write := true, plain := true, gen := c.gen, posted := true } y.p y.off y.len { a with exts := [] } with
    | .trap t s => .trap t s
    | .wait s => .wait s
    | .ok b s => .ok (a.exts, b.exts, b) s

/-- The first byte of a piece, from i on, that fails on its source or its destination, with its trap. -/
def State.failingByte (s : State) (core : Nat) (c : Copy) (x y : Leg) (i : Nat) : Nat → Option (Nat × Trap)
  | 0 => none
  | n + 1 =>
    match s.checkPiece core c ⟨x.p, x.off + (i : Int), 1⟩ ⟨y.p, y.off + (i : Int), 1⟩ with
    | .trap t _ => some (i, t)
    | _ => s.failingByte core c x y (i + 1) n

/-- Write packets of a copy to another package: one for each extent, which lies within one 4 KiB region (R426). -/
def State.sendCopy (s : State) (core tag : Nat) (e : Extent) (bs : List Byte) : State :=
  let id := s.fabric.nextPacket
  let index := match vget none (s.core core).copies tag with | some p => p.packets | none => 0
  (s.send core 8 e.key (word e.va) bs e.len (.copy tag index)).updCore core fun k =>
    k.updCopy tag fun p => { p with flying := p.flying ++ [id], packets := p.packets + 1 }

/-- Checked bytes moved: all read, then all written (R217, R223). -/
def State.movePiece (s : State) (core tag : Nat) (c : Copy) (src dst : List Extent) (n : Nat) : State :=
  let w := c.who core
  let s := src.foldl (fun s e => s.touchRead w true e) s
  let bs := s.engineBytes core src
  let s := (dst.foldl (fun (p : State × List Byte) e =>
    (if e.mode = 1 then p.1.sendCopy core tag e (p.2.take e.len) else p.1.performWrite w true e (p.2.take e.len), p.2.drop e.len)) (s, bs)).1
  s.updCore core fun k => k.updCopy tag fun p => { p with done := p.done + n, far := p.far || (src ++ dst).any Extent.isFar }

/-- Stale blocks read by a copy: STALE set, CNT5 of the issuing strand counted once (R370). -/
def State.copyStale (s : State) (core tag : Nat) (c : Copy) (hs : List Nat) : State :=
  if hs.isEmpty then s
  else if c.counted then s.markStale hs
  else (s.noteStale core c.ctx hs).updCore core fun k => k.updCopy tag fun p => { p with counted := true }

/-- Form and bounds of the two sides of a piece, in the order in which their ea is taken: the fault of the first that fails (R88, R223,
R225). -/
def eaFault (x y : Leg) (xWrites yWrites : Bool) : Option Trap :=
  match resolve x.p x.off x.len xWrites with
  | .error t => some t
  | .ok _ =>
    match resolve y.p y.off y.len yWrites with
    | .error t => some t
    | .ok _ => none

/-- The first uncorrectable data among the source bytes of a piece, and how many bytes of the piece lie before it (R150, R208). -/
def State.firstBad (s : State) : List Extent → Option (Nat × Bad)
  | [] => none
  | e :: l =>
    match s.badData e with
    | some b => some (b.before, b)
    | none => (s.firstBad l).map fun p => (e.len + p.1, p.2)

/-- The first n bytes of a piece moved, where they pass their checks and hold no uncorrectable data: the state, and whether they did. -/
def State.movePart (s : State) (core tag : Nat) (c : Copy) (x y : Leg) (n : Nat) : Check (Option (Nat × Bad)) :=
  match s.checkPiece core c { x with len := n } { y with len := n } with
  | .ok (a, b, f) t =>
    if f.wait || a.any (t.behindPackets core 8) then .wait t
    else
      match t.firstBad a with
      | some p => .ok (some p) t
      | none => .ok none ((t.copyStale core tag c f.stale).movePiece core tag c a b n)
  | .trap f t => .trap f t
  | .wait t => .wait t

/-- The bytes of a piece before byte n, which fails with a trap, are moved; uncorrectable data among them is consumed, and then ends the
copy first (R150, R219). -/
def State.stopAt (s : State) (core tag : Nat) (c : Copy) (x y : Leg) (n : Nat) (f : Trap) : CopyStep :=
  match s.movePart core tag c x y n with
  | .wait t => .wait t
  | .trap _ t | .ok none t => .stopped t f
  | .ok (some (i, b)) t =>
    let f : Trap := { code := cPoison, val := b.val }
    match t.movePart core tag c x y i with
    | .wait t => .wait t
    | .trap _ t | .ok _ t => .stopped (t.killCore b.core) f

/-- A piece whose sides have the form and bounds of ea, checked and moved as far as it goes; what a failing check has found stands
(R219, R343, R350). -/
def State.copyChecked (s : State) (core tag : Nat) (c : Copy) (x y : Leg) : CopyStep :=
  match s.movePart core tag c x y x.len with
  | .wait t => .wait t
  | .ok none t => .moved t
  | .ok (some _) t => t.stopAt core tag c x y x.len { code := cPoison }
  | .trap f t =>
    match t.failingByte core c x y 0 x.len with
    | none => .stopped t f
    | some (i, f) => t.stopAt core tag c x y i f

/-- A piece: one that fails the form or bounds of ea stops the copy at its first byte (R223). -/
def State.copyPiece (s : State) (core tag : Nat) (c : Copy) (x y : Leg) : CopyStep :=
  match eaFault x y false true with
  | some t => .stopped s t
  | none => s.copyChecked core tag c x y

/-- Element of a gather or scatter (R225): the index read first, then the data. -/
def State.copyElement (s : State) (core tag : Nat) (c : Copy) : CopyStep :=
  let i := c.done / max 1 c.esz
  let o := c.done % max 1 c.esz
  let flags := descField c.desc 32 1
  let w := if flags / 4 % 2 = 0 then 4 else 8
  match checkExtent s (c.who core) (s.engineSpace core c.tenant) { read := true, plain := true, gen := c.gen } (c.desc.getD 0 0) ((i * w : Nat) : Int) w {} with
  | .trap t s => .stopped s t
  | .wait s => .wait s
  | .ok a s =>
    if a.wait || a.exts.any (s.behindPackets core 8) then .wait s
    else if let n :: _ := a.exts.filterMap s.badData then .stopped (s.killCore n.core) { code := cPoison, val := n.val }
    else
      let s := (a.exts.foldl (fun s e => s.touchRead (c.who core) true e) s).copyStale core tag c a.stale
      let s := s.updCore core fun k => k.updCopy tag fun p => { p with far := p.far || a.exts.any Extent.isFar }
      let k := leNat (s.engineBytes core a.exts)
      let x : Leg := ⟨c.desc.getD 1 0, ((k * c.esz + o : Nat) : Int), c.esz - o⟩
      let l : Leg := ⟨c.desc.getD 2 0, ((i * c.esz + o : Nat) : Int), c.esz - o⟩
      let scatter := flags / 2 % 2 == 1
      match eaFault x l scatter (!scatter) with
      | some t => .stopped s t
      | none => if scatter then s.copyChecked core tag c l x else s.copyChecked core tag c x l

/-- The next step of a started copy that has not stopped. -/
def State.copyStep (s : State) (core tag : Nat) (c : Copy) : CopyStep :=
  if c.total ≤ c.done then .finished
  else if c.form = 1 then s.copyElement core tag c
  else
    let p := c.piece
    s.copyPiece core tag c p.1 p.2

/-- The copy that moves under a tag: started, not stopped and not abandoned. -/
def State.movingCopy (s : State) (core tag : Nat) : Option Copy :=
  match vget none (s.core core).copies tag with
  | some c => if c.started && c.fault.isNone && !c.abandoned then some c else none
  | none => none

/-- Bytes of a copy are moved by its transfer unit, a step between the events of the table. -/
def State.transfer (s : State) (core tag : Nat) : State :=
  match s.movingCopy core tag with
  | some c => (match s.copyStep core tag c with | .moved t => t | .wait t => t | _ => s)
  | none => s

/-- The fault that stops a copy next, with the state before its failing byte: its own (R219), or a lost packet's once
every byte is performed (R408). -/
def State.copyFault (s : State) (core tag : Nat) : Option (State × Trap) :=
  match s.movingCopy core tag with
  | none => none
  | some c =>
    match s.copyStep core tag c with
    | .stopped t f => some (t, { f with detail := 0x40 + tag })
    | .finished =>
      if c.flying.isEmpty then c.lost.map fun a => (s, { code := cScope, detail := 0x12, wr := true, val := a }) else none
    | _ => none

/-- A copy stops and records its fault (R219); a gang left with stopped copies alone completes (R317). -/
def State.stopCopy (s : State) (core tag : Nat) : State :=
  match s.copyFault core tag with
  | none => s
  | some (t, f) =>
    let team := match vget none (t.core core).copies tag with | some c => c.team | none => 0
    (t.updCore core fun k => k.updCopy tag fun p => { p with fault := some f, raised := false }).gangCheck (t.team team).gang

/-- A copy with every byte performed, or an abandoned one, can complete once every write packet is answered; one with a far byte
waits for the core's own remote writes as a release at system scope (R217, R228, R409, R426). -/
def State.copyReady (s : State) (core tag : Nat) : Bool :=
  match vget none (s.core core).copies tag with
  | some c =>
    (c.abandoned || ((s.movingCopy core tag).isSome && decide (c.total ≤ c.done) && c.lost.isNone)) && c.flying.isEmpty
      && !(c.far && s.outstanding (c.who core))
  | none => false

/-- Completion: the tag's bit set by a store-release, then the DEC (R217); an abandoned copy sends none (R228). -/
def State.completeCopy (s : State) (core tag : Nat) : State :=
  match vget none (s.core core).copies tag with
  | none => s
  | some c =>
    if !s.copyReady core tag then s
    else
      let t := if c.far then s.cleanRemote core else s
      if c.far && t.outstanding (c.who core) then t
      else
        let gang := (t.team c.team).gang
        let t := t.updCore core fun k => k.idleTag tag
        let t := match if c.abandoned then none else c.dec with | some slot => t.post (.decArrival core slot 1 core gang) | none => t
        t.gangCheck gang

/-! ### Issue (R215, R216, R219) -/

/-- A request that names a tag whose fault was raised resumes its copy before anything else, and then waits (R219). -/
def resumeTag (tag : Nat) : M Unit := do
  let s ← get
  match vget none s.myCore.copies tag with
  | some c => if c.fault.isSome && c.raised then stop (.stallKeep (s.updMyCore fun k => k.updCopy tag fun p => p.resume s.my.tgen))
  | none => pure ()

/-- A request of no bytes is none: it resumes nothing (R221). While its length is still to come through a port, the instruction waits for that
first. -/
def resumeUnless (b : BitVec 5) (tag : Nat) : M Unit := fun s =>
  match peek b s with
  | .ok (n, _) => if n = 0 then .ok ((), s) else resumeTag tag s
  | .error e => .error e

/-- Issue of a request under a tag, after the instruction's own checks. -/
def issueCopy (form tag : Nat) (desc : List Word) : M Unit := do
  let s ← get
  require (decide (s.fabric.cgen ≤ s.my.tgen.toNat)) cStaleGen 0 s.my.tgen
  match vget none s.myCore.copies tag with
  | some c =>
    match c.fault with
    | some f => stop (.trap f [.raised tag])
    | none => stall
  | none =>
    if !s.myCore.ctag.getLsbD tag then stall
    else
      match s.myCore.freeSlot with
      | none => stall
      | some slot =>
        release 1
        change fun s => s.updMyCore fun k =>
          { k with
            ctag := k.ctag &&& ~~~(BitVec.ofNat 64 (2 ^ tag))
            queue := k.queue ++ [.copy slot tag]
            copies := vset k.copies tag (some
              { form, desc, done := 0, tenant := s.my.tenant, team := s.my.team, ctx := s.me.2, gen := s.my.tgen, issued := s.my.tgen, counted := false
                started := false, fault := none, raised := false, interval := 0, far := false, abandoned := false, packets := 0, flying := [], lost := none }) }

/-- Two extents of n bytes share a byte: both flat, or both in one core's store (R221). -/
def shareByte (p q : Word) (n : Nat) : Bool :=
  match resolve p 0 n false, resolve q 0 n true with
  | .ok (.flat a), .ok (.flat b) => decide (a < b + n) && decide (b < a + n)
  | .ok (.mesh c a), .ok (.mesh d b) => c == d && decide (a < b + n) && decide (b < a + n)
  | _, _ => false

/-- The tag of a CPYOP word (R221). -/
def copyTag (h : BitVec 2) (t : BitVec 4) : Nat := h.toNat * 16 + t.toNat

/-- CPY (R221). -/
def execCpy (h : BitVec 2) (t : BitVec 4) (b : BitVec 5) (a : BitVec 5) (d : BitVec 5) (s : State) : Host.Outcome State Fault Refusal :=
  runInstr (.cpy h t b a d) (do
    resumeUnless b (copyTag h t)
    ports [b]
    let p ← base a
    let q ← base d
    let x ← src b
    let n := x.toNat
    require (decide (n ≤ 2 ^ 48 - 1)) cIllegal 0x30
    formOk p n false
    formOk q n true
    require (n == 0 || !shareByte p q n) cAddress 3 q true
    if n = 0 then
      release 1
      pure .seq
    else
      issueCopy 0 (copyTag h t) [p, q, x]
      pure .seq) s

/-- A descriptor of a copy: 64 bytes, aligned, read as a plain load (R222). -/
def copyDescriptor (b : BitVec 5) : M (List Byte) := do
  let p ← base b
  aligned p 0 64 false
  load p 0 64

/-- A shaped descriptor is well formed (R222). -/
def shapedOk (bs : List Byte) : Bool :=
  let f := recField bs
  let mside := f 60 1 / 2 % 4
  let mesh := f 56 4
  let mapped := word (if mside = 1 then f 8 8 else f 0 8)
  f 60 1 / 16 == 0 && f 61 1 / 32 == 0 && f 62 2 == 0 && mside != 3
    && decide (1 ≤ f 48 4) && decide (f 48 4 ≤ 524288) && f 52 2 != 0 && f 54 2 != 0
    && decide (f 48 4 * f 52 2 * f 54 2 ≤ 2 ^ 48 - 1)
    && (mside == 0 ||
      (bitsAt mapped 62 2 == 1 && bitsAt mapped 19 43 == 0 && mesh / 2 ^ 24 == 0
        && decide (1 ≤ mesh / 2 ^ 6 % 128) && decide (mesh % 64 + mesh / 2 ^ 6 % 128 ≤ 64)
        && decide (1 ≤ mesh / 2 ^ 18 % 64) && decide (mesh / 2 ^ 13 % 32 + mesh / 2 ^ 18 % 64 ≤ 32)))

/-- CPY.S (R222). -/
def execCpyS (h : BitVec 2) (t : BitVec 4) (b : BitVec 5) (s : State) : Host.Outcome State Fault Refusal :=
  runInstr (.cpyS h t b) (do
    resumeTag (copyTag h t)
    let bs ← copyDescriptor b
    require (shapedOk bs) cIllegal 0x30
    issueCopy 2 (copyTag h t) (wordsOf bs 8)
    pure .seq) s

/-- A gather descriptor is well formed (R224). -/
def gatherOk (bs : List Byte) : Bool :=
  let f := recField bs
  f 24 4 != 0 && decide (1 ≤ f 28 4) && decide (f 28 4 ≤ 4096) && f 32 1 / 8 == 0 && f 33 1 / 32 == 0 && f 34 30 == 0

/-- CPY.G (R224). -/
def execCpyG (h : BitVec 2) (t : BitVec 4) (b : BitVec 5) (s : State) : Host.Outcome State Fault Refusal :=
  runInstr (.cpyG h t b) (do
    resumeTag (copyTag h t)
    let bs ← copyDescriptor b
    require (gatherOk bs) cIllegal 0x30
    issueCopy 1 (copyTag h t) (wordsOf bs 8)
    pure .seq) s

/-! ### Waiting and finding (R226 to R228) -/

/-- Tags of a mask. -/
def tagsOf (m : Word) : List Nat := (List.range 64).filter fun i => m.getLsbD i

/-- Tags of a mask whose fault has, or has not, been raised. -/
def Core.faulted (c : Core) (m : Word) (raised : Bool) : List Nat :=
  (tagsOf m).filter fun t => match vget none c.copies t with | some p => p.fault.isSome && p.raised == raised | none => false

/-- One round of a wait: faults that were raised are resumed; the wait answers the word of ok, raises, or stalls. -/
def waitRound (m : Word) (first : Bool) (ok : Core → Option Word) : M Word := do
  let s ← get
  let rs := s.myCore.faulted m true
  if !rs.isEmpty then
    change fun s => rs.foldl (fun s t => s.updMyCore fun k => k.updCopy t fun p => p.resume s.my.tgen) s
  let s ← get
  let bad : Option (Nat × Trap) := match s.myCore.faulted m false with
    | t :: _ => (match vget none s.myCore.copies t with | some p => p.fault.map fun f => (t, f) | none => none)
    | [] => none
  let wait : M Word := if rs.isEmpty then stall else stop (.stallKeep s)
  match bad, ok s.myCore with
  | some (t, f), some v => if first then pure v else stop (.trap f (rs.map .resumed ++ [.raised t]))
  | some (t, f), none => stop (.trap f (rs.map .resumed ++ [.raised t]))
  | none, some v => pure v
  | none, none => wait

/-- CWAIT.ANY (R227). -/
def execCwaitAny (a : BitVec 5) (d : BitVec 5) (s : State) : Host.Outcome State Fault Refusal :=
  runInstr (.cwaitAny a d) (do
    ports [a]
    let m ← src a
    let v ← if m = 0 then pure (word 64) else
      waitRound m true fun c => ((tagsOf m).find? fun t => c.ctag.getLsbD t).map word
    acquire 1
    dst d v
    pure .seq) s

/-- CWAIT.ALL (R227). -/
def execCwaitAll (a : BitVec 5) (s : State) : Host.Outcome State Fault Refusal :=
  runInstr (.cwaitAll a) (do
    ports [a]
    let m ← src a
    let _ ← waitRound m false fun c => if c.ctag &&& m = m then some 0 else none
    acquire 1
    pure .seq) s

/-- The status word of a tag (R228). -/
def Core.tagStatus (c : Core) (t : Nat) : Word :=
  match vget none c.copies t with
  | none => 0
  | some p =>
    if p.abandoned then 0 else
    word ((if p.fault.isSome then 2 ^ 63 else 0) + 2 ^ 62 + (match p.fault with | some f => f.code % 256 * 2 ^ 48 | none => 0)
      + p.progress % 2 ^ 48)

/-- CFIND (R228). -/
def execCfind (a : BitVec 5) (d : BitVec 5) (s : State) : Host.Outcome State Fault Refusal :=
  runInstr (.cfind a d) (do
    ports [a]
    let q ← src a
    require (bitsAt q 6 2 == 0 && bitsAt q 9 55 == 0) cIllegal 0x30
    let t := bitsAt q 0 6
    let s ← get
    dst d (s.myCore.tagStatus t)
    match vget none s.myCore.copies t with
    | some p =>
      if q.getLsbD 8 && p.fault.isSome then
        change fun s => (s.abandonCopy s.me.1 t).gangCheck (s.team p.team).gang
    | none => pure ()
    pure .seq) s

/-! ### Index-line kernels (R229) -/

/-- A kernel descriptor that fills a slot is well formed (R229). -/
def kernelOk (bs : List Byte) : Bool :=
  let f := recField bs
  let w := if f 12 1 = 0 then 4 else 8
  decide (f 12 1 ≤ 1) && f 0 8 / 2 ^ 56 == 0 && f 0 8 % w == 0 && decide (f 13 1 ≤ 12)
    && decide (1 ≤ f 14 2) && decide (f 14 2 ≤ 4096) && f 16 8 / 2 ^ 56 == 0 && f 24 8 == 0

/-- EVK (R229). -/
def execEvk (b : BitVec 5) (a : BitVec 5) (s : State) : Host.Outcome State Fault Refusal :=
  runInstr (.evk b a) (do
    ports [b]
    let p ← base a
    let slot ← src b
    require (decide (slot.toNat < 4)) cIllegal 0x30
    aligned p 0 32 false
    let bs ← load p 0 32
    let f := recField bs
    if f 8 4 = 0 then
      change fun s => s.updMyCore fun c => { c with kernels := vset c.kernels slot.toNat none }
    else
      require (kernelOk bs) cIllegal 0x30
      change fun s => s.updMyCore fun c =>
        { c with kernels := vset c.kernels slot.toNat (some ⟨word (f 0 8), f 8 4, f 12 1 == 1, f 13 1, f 14 2, word (f 16 8)⟩) }
    pure .seq) s

/-! ### The hart's own instructions (R214) -/

/-- Handle, g1 and g2 of an item. -/
def itemWords (c : Core) (i : QItem) : Word × Word × Word :=
  match i with
  | .copy slot tag => (word slot, word tag, word (match vget none c.copies tag with | some p => p.form | none => 0))
  | .line slot k a n _ => (word (256 + 64 * k + slot), a, n)
  | .kick slot w => (word (512 + slot), w, 0)

/-- CTAKE (R214). -/
def execCtake (s : State) : Host.Outcome State Fault Refusal :=
  runInstr .ctake (do
    let s ← get
    match s.myCore.queue with
    | [] => stall
    | i :: t =>
      let w := itemWords s.myCore i
      change fun s => s.updMyCore fun c =>
        { c with queue := t, taken := match i with | .copy slot tag => c.taken ++ [(slot, tag)] | _ => c.taken }
      dst 1#5 w.2.1
      dst 2#5 w.2.2
      dst 0#5 w.1
      pure .seq) s

/-- Transfer units that copies use (R214). -/
def Core.unitsBusy (c : Core) : Nat := (c.copies.toList.filter fun o => match o with | some p => p.started && p.fault.isNone && !p.abandoned | none => false).length

/-- CSTART (R214). -/
def execCstart (a : BitVec 5) (s : State) : Host.Outcome State Fault Refusal :=
  runInstr (.cstart a) (do
    ports [a]
    let h ← src a
    let s ← get
    match s.myCore.taken.find? fun p => h == word p.1 with
    | none => raise cIllegal
    | some (slot, tag) =>
      if 4 ≤ s.myCore.unitsBusy then stall
      else
        change fun s =>
          { s with nextId := s.nextId + 1 }.updMyCore fun c =>
            { c.updCopy tag fun p => { p with started := true, interval := s.nextId } with
              taken := c.taken.eraseP fun p => p.1 == slot }
        pure .seq) s

/-! ### Events of copies -/

/-- COPY_COMPLETION (R217). -/
def execCopyCompletion (s : State) : Host.Outcome State Fault Refusal :=
  onEvent (fun e => match e with | .copyCompletion core tag => some fun s => s.completeCopy core tag | _ => none) s

/-- COPY_STOP (R219). -/
def execCopyStop (s : State) : Host.Outcome State Fault Refusal :=
  onEvent (fun e => match e with | .copyStop core tag => some fun s => s.stopCopy core tag | _ => none) s

end Sys2Proof.Machine
end

