-- ==== Sys2Proof/Machine/Exec.lean ====
section
/-! DEFINITION. Launching, forking, joining, tasks, migration and host messages (R318 to R327).
Readings of the spec that this file takes: DEDUCED, log entry 26. -/

namespace Sys2Proof.Machine

/-- An operand value that the description refuses (R318). -/
def admitted (b : Bool) : M Unit := require b cIllegal 0x70

/-- A plain read of an aligned descriptor of n bytes (R320, R324). -/
def readRecord (p : Word) (align n : Nat) : M (List Byte) := do
  let _ ← aligned p 0 align false
  load p 0 n

/-! ### RFORK (R322) -/

/-- Live cores of a record's rectangle in gang-rank order, starting with the forker's core and wrapping. -/
def State.forkOrder (s : State) (num core : Nat) : List Nat :=
  let b := s.bind num
  let w := b.field 4 1
  let n := w * b.field 5 1
  let r0 := b.rank core
  (List.range n).map fun k =>
    let r := (r0 + k) % max 1 n
    num / 64 * 512 + (b.field 3 1 + r / max 1 w) * 32 + b.field 2 1 + r % max 1 w

/-- Ready slots before others: priority, then who became ready first, then the slot number. -/
def readyBefore (x y : Nat × Task) : Bool :=
  decide (y.2.prio < x.2.prio) || (x.2.prio == y.2.prio &&
    (decide (x.2.ready.getD 0 < y.2.ready.getD 0) || (x.2.ready == y.2.ready && decide (x.1 ≤ y.1))))

/-- What is left of a core for a claim: free contexts and free vector registers. -/
structure Left where
  ctxs : Nat
  regs : Nat
  deriving DecidableEq, Repr

/-- A claim on n contexts of va registers each takes them where both suffice; otherwise it takes nothing: it waits or is refused. -/
def Left.claim (l : Left) (n va : Nat) : Left := if n ≤ l.ctxs ∧ n * va ≤ l.regs then ⟨l.ctxs - n, l.regs - n * va⟩ else l

/-- The ready slots of a core in the order in which they start; the fuel is their number. -/
def sortReady : Nat → List (Nat × Task) → List (Nat × Task)
  | 0, _ => []
  | n + 1, l =>
    match l.find? fun x => l.all fun y => readyBefore x y with
    | some x => x :: sortReady n (l.erase x)
    | none => []

/-- What the claims that stand before recruits leave of a core: waiting arrivals, then ready slots, then active messages, of which one that is
refused, for its VAC beyond VAMAX or for want of contexts or registers, takes nothing (R83, R139, R320, R321). -/
def State.leftOver (s : State) (core : Nat) : Left :=
  let c := s.core core
  let ready := (List.range 32).filterMap fun k => match vget none c.tasks k with | some t => if t.ready.isSome then some (k, t) else none | none => none
  let vamax := (s.bind ((s.bindOf core).getD 0)).field 6 1
  let l : Left := ⟨c.freeCtxs.length - c.arrivals.length, 64 - c.vaUsed⟩
  let l := (sortReady ready.length ready).foldl (fun l x => l.claim 1 (s.team x.2.team).va) l
  c.amsgs.foldl (fun l m =>
    let h := m.msg.getD 0 0
    let va := [0, 8, 16, 32].getD (bitsAt h 46 2) 0
    if vamax < va then l else l.claim (bitsAt h 48 3 + 1) va) l

/-- Contexts that recruits of allocation va may take on a core: those that earlier claims leave, which take the lowest (R125, R151, R321, R330). -/
def State.recruits (s : State) (core va : Nat) : List Nat :=
  let c := s.core core
  let l := s.leftOver core
  let free := c.freeCtxs.drop (c.freeCtxs.length - l.ctxs)
  if c.dead || c.evicted then [] else if va = 0 then free else free.take (l.regs / va)

/-- The contexts a fork takes, in fork-tree order. -/
def State.forkList (s : State) (num core va want : Nat) : List (Nat × Nat) :=
  ((s.forkOrder num core).flatMap fun n => (s.recruits n va).map fun i => (n, i)).take want

/-- A recruit's context: the forker's window, address registers, AWC, VTYPE, PRIO and VA (R322). -/
def recruitCtx (old : Ctx) (cap cgen : Nat) (tbase : Word) (f : Ctx) (team : Nat) (pc : Word) (d : BitVec 5) (v : Word) : Ctx :=
  let c := startCtx old cap cgen tbase { pc, g0 := 0, g1 := 0, prio := f.prio, va := f.va, tenant := f.tenant, gang := f.gang, team }
  let c := (List.range 16).foldl (fun c i => c.setG i (f.toRegs.g i)) { c with areg := f.areg, awc := f.awc, vtype := f.vtype }
  if d.toNat < 16 then c.setG d.toNat v else if d.toNat < 24 then { c with areg := vset c.areg (d.toNat - 16) v } else c

/-- The team of a recruit on another core: one new team a core, with the forker's HSET and launch record, whose shape
records are written first. -/
def State.forkTeam (s : State) (core team : Nat) (f : Team) (num : Nat) : State :=
  let s := match f.launch with
    | some (msg, recs) =>
      let shapes := recs.take (64 * bitsAt (msg.getD 0 0) 36 7)
      s.putBytes (storeKey core 0x7F000) (shapes ++ List.replicate (4096 - shapes.length) 0)
    | none => s
  { s.setTeam team { f with core, gang := num, live := true } with nextTeam := max s.nextTeam (team + 1) }

/-- Recruits started one by one; the list of teams made so far is kept by core. -/
def State.startRecruits (s : State) (f : Ctx) (home team : Nat) (pc : Word) (d : BitVec 5) (t : Nat) :
    Nat → List (Nat × Nat) → Sparse Nat → State
  | _, [], _ => s
  | i, (n, x) :: rest, made =>
    let known := if n = home then some team else find made n
    let tm := known.getD s.nextTeam
    let s1 := if known.isSome then s else s.forkTeam n tm (s.team team) f.gang
    let s2 := s1.updCore n fun c =>
      { c.setCtx x (recruitCtx (c.ctx x) c.cap s.fabric.cgen f.tbase f tm pc d (word (t * 2 ^ 32 + i))) with skip := vset c.skip x 0 }
    State.startRecruits s2 f home team pc d t (i + 1) rest (if n = home then made else put made n tm)

/-- RFORK (R322). -/
def execRfork (b a d : BitVec 5) (s : State) : Host.Outcome State Fault Refusal :=
  runInstr (.rfork b a d) (do
    ports [b]
    let p ← base a
    let want ← src b
    let s ← get
    admitted (decide (want.toNat ≠ 0) && decide (want.toNat ≤ 64) && !s.my.trap && !s.my.lh)
    aligned p 0 8 true
    let es ← check { write := true, sync := true, localOnly := true } [(p, 0, 8)]
    let list := s.forkList s.my.gang s.me.1 s.my.va (want.toNat - 1)
    let t := 1 + list.length
    release 4
    performBytes false es.flatten (leBytes 8 t)
    let s ← get
    set (s.startRecruits s.my s.me.1 s.my.team (s.my.pc + 4) d t 1 list [])
    dst d (word (t * 2 ^ 32))
    pure .seq) s

/-- JOIN: an atomic at package scope; all but the last end as EXIT ends them (R323). -/
def execJoin (a : BitVec 5) (s : State) : Host.Outcome State Fault Refusal :=
  runInstr (.join a) (do
    let p ← base a
    aligned p 0 8 true
    let es ← check { read := true, write := true, sync := true, atomic := true, localOnly := true } [(p, 0, 8)]
    let e := es.flatten.headD ⟨0, 0, 0, 0, false⟩
    consume es.flatten
    performed
    let s ← get
    let s := (s.recallAll e.key 8).homeRead e.key 8
    let old := leNat (memRead s.mem e.key 8)
    require (old != 0 && decide (old < 2 ^ 63)) cPerm 0x71 (word e.va) true
    release 4
    change fun s => ((s.recallAll e.key 8).homeRead e.key 8).homeWrite e.key (leBytes 8 (old - 1))
    if 2 ≤ old then
      release 3
      let t ← get
      stop (.done (t.endStrand t.me.1 t.me.2))
    else
      acquire 4
      pure .seq) s

/-! ### MIG (R79, R82, R326) -/

/-- The destination core of MIG: a mesh pointer's, or that of the page's home galley; a remote page or host memory is
a scope fault. The address is checked and no byte is accessed (R326). -/
def migTarget (p : Word) : M (Nat × Word) := do
  let es ← checkOnly { read := true, plain := true, scope := some 4 } [(p, 0, 1)]
  let e := es.flatten.headD ⟨0, 0, 0, 0, false⟩
  if isStore e.key then pure ((e.key - 2 ^ 72) / 2 ^ 19, word e.va)
  else pure (coreInGalley (homeGalley e.key) (e.key / 4096 % 8), word e.va)

/-- MIG (R326). Within a light handler R133 names it among the instructions that raise DETAIL 0x12, where R79 gives LH the
illegal-migration trap; the model takes the trap of R133 (DESIGN CHOICE, log entry 26). -/
def execMig (a : BitVec 5) (s : State) : Host.Outcome State Fault Refusal :=
  runInstr (.mig a) (do
    leafOnly
    ports [a]
    let s ← get
    let c := s.my
    require (decide (c.va = 0) && !c.pairBit && s.matrixFree s.me.1 s.me.2) cMigration
    require (decide (c.res ≤ 2)) cSpill 0 c.victimLink
    let p ← src a
    let (dest, va) ← migTarget p
    require (s.bound dest c.tenant) cPerm 0x10 va
    performed
    release 4
    let s ← get
    if dest = s.me.1 then pure .seq
    else stop (.done (s.migrate s.me.1 s.me.2 dest (s.my.pc + 4)))) s

/-! ### AMSG (R319, R320) -/

/-- HDR and PC of a message meet R319. -/
def messageOk (m : List Word) : Bool :=
  let h := m.getD 0 0
  bitsAt h 62 2 == 1 && bitsAt h 0 36 == 0 && decide (bitsAt h 36 7 ≤ 64) && codeAddress (m.getD 1 0)

/-- AMSG: the message leaves once; the strand waits for the reply (R320). -/
def execAmsg (b a d : BitVec 5) (s : State) : Host.Outcome State Fault Refusal :=
  runInstr (.amsg b a d) (do
    let s ← get
    match s.my.wait with
    | .amsg (some r) =>
      change fun s => s.updMy fun c => { c with wait := .none }
      dst d (word r)
      pure .seq
    | .amsg none => stall
    | _ =>
      ports [b]
      let p ← base a
      let q ← src b
      let m ← readRecord p 32 32
      let ws := wordsOf m 4
      admitted (messageOk ws)
      let h := ws.getD 0 0
      let nrec := bitsAt h 36 7
      let recs ← if nrec = 0 then pure [] else readRecord q 64 (64 * nrec)
      let target := coreAt (bitsAt h 56 6) (bitsAt h 51 5)
      let s ← get
      require (s.bound target s.my.tenant) cPerm 0x10 p
      release 4
      let s ← get
      let s := if (s.core target).dead then s else s.updCore target fun c =>
        { c with amsgs := c.amsgs ++ [{ msg := ws, recs, tenant := s.my.tenant, sender := s.me }] }
      stop (.stallKeep (s.updMy fun c => { c with wait := .amsg none }))) s

/-! ### HMSG, TASK, DEC (R324, R325, R327) -/

/-- Host messages go on to the event queue, in order, while its buffer has room beside the entries kept for start-up, and, of an enabled
ring, while that has room for one more (R327, R356, R357). -/
def State.hostRoom (s : State) : Bool :=
  let n := s.bar0.eqsize.toNat
  s.bufferRoom false && (n == 0 || decide ((s.bar0.eqtail - s.bar0.eqhead).toNat + s.eventHold.length < 2 ^ n))

/-- The host messages of a die that have room go on. -/
def State.drainHost (s : State) (die : Nat) : Nat → State
  | 0 => s
  | n + 1 =>
    match vget [] s.hostMsgs die with
    | [] => s
    | m :: t => if !s.hostRoom then s else ({ s with hostMsgs := vset s.hostMsgs die t }.hostEvent m).drainHost die n

/-- HMSG: a 32-byte record into the die's host-message buffer, which holds 32 (R327). -/
def execHmsg (b a : BitVec 5) (s : State) : Host.Outcome State Fault Refusal :=
  runInstr (.hmsg b a) (do
    ports [a, b]
    let (x, y) ← src2 a b
    release 5
    let s ← get
    let die := dieOf s.me.1
    let q := vget [] s.hostMsgs die
    if 32 ≤ q.length then stall
    else
      let body := leBytes 8 x.toNat ++ leBytes 8 y.toNat ++ leBytes 2 s.my.tenant ++ leBytes 2 s.me.1 ++ leBytes 1 s.me.2
        ++ [0x01, 0, 0] ++ leBytes 8 s.my.pc.toNat
      set ({ s with hostMsgs := vset s.hostMsgs die (q ++ [body]) }.drainHost die 32)
      pure .seq) s

/-- The place of the next slot to become ready on a core (R139). -/
def Core.readyStamp (c : Core) : Nat :=
  1 + (c.tasks.toList.map fun t => match t with | some k => k.ready.getD 0 | none => 0).foldl max 0

/-- TASK (R324). -/
def execTask (a d : BitVec 5) (s : State) : Host.Outcome State Fault Refusal :=
  runInstr (.task a d) (do
    let p ← base a
    let r ← readRecord p 32 32
    let pc := word (recField r 0 8)
    let slot := recField r 26 1
    admitted (codeAddress pc && decide (slot < 32) && decide (recField r 27 1 < 4) && recField r 28 4 == 0)
    let s ← get
    if (vget none s.myCore.tasks slot).isSome then
      dst d 1
      pure .seq
    else
      release 4
      change fun s => s.updMyCore fun c =>
        let t : Task :=
          { counter := recField r 24 2, prio := recField r 27 1, pc, arg0 := word (recField r 8 8), arg1 := word (recField r 16 8)
            team := s.my.team, ready := if recField r 24 2 = 0 then some c.readyStamp else none }
        { c with tasks := vset c.tasks slot (some t) }
      dst d 0
      pure .seq) s

/-- DEC: a release, then the decrement is on its way (R325). -/
def execDec (b a : BitVec 5) (s : State) : Host.Outcome State Fault Refusal :=
  runInstr (.dec b a) (do
    ports [a, b]
    let (x, v) ← src2 a b
    require (bitsAt x 62 2 == 1) cAddress 0 x
    admitted (bitsAt x 5 46 == 0 && decide (1 ≤ v.toNat) && decide (v.toNat ≤ 65535))
    let target := coreAt (bitsAt x 56 6) (bitsAt x 51 5)
    let s ← get
    require (s.bound target s.my.tenant) cPerm 0x10 x
    release 4
    change fun s => s.post (.decArrival target (bitsAt x 0 5) v.toNat s.me.1 s.my.gang)
    pure .seq) s

end Sys2Proof.Machine
end

