-- ==== Sys2Proof/Machine/Sys.lean ====
section
/-! DEFINITION. Registration pairs, gang statistics and halting (R145 to R149, R328).
Readings of the spec that this file takes: DEDUCED, log entry 18. -/

namespace Sys2Proof.Machine

/-- A strand's role in a new pair; the checkpoint is the state after the PAIR (R146). -/
def newRole (primary : Bool) (core ctx dir : Nat) (x : Ctx) (tick : Nat) : PairRole :=
  { primary, core, ctx, dir, checkpoint := x.toRegs, ports := x.ports, since := tick, log := [], stores := 0, fingerprint := 0, retired := 0
    failed := 0 }

/-- The copy of a strand that its pair's secondary context takes (R146). It belongs to no team of its own: barriers and completion count the
strand once; words and elements that the strand's instruction has taken stay with the strand. -/
def secondaryCtx (x : Ctx) (core ctx dir tick interval : Nat) : Ctx :=
  { x with team := 0, gang := 2 ^ 32, pair := some (newRole false core ctx dir x tick), interval, st := .stalled, operands := [], draws := [] }

/-- The strand and its copy on core n, context j, from the instruction after the PAIR on. -/
def State.couple (s : State) (n j dir : Nat) : State :=
  let s := s.updMy fun c => { c with pairBit := true }
  let x := s.my
  let s := (s.repairCtx n j).updCtx n j fun old => secondaryCtx x s.me.1 s.me.2 dir s.tick (old.interval + 1)
  s.updMy fun c => { c with pair := some (newRole true n j dir x s.tick) }

/-- A restored strand that was paired is paired again in its direction if R146 would return 0 there; else it is unpaired (R148). One saved
within a handler, where R146 would trap and not answer, is paired again too (DESIGN CHOICE, log entry 11). While the neighbour is evicted
it does not answer (R330): the strand waits, with no partner's context yet (its number is then 9). -/
def State.pairAgain (s : State) (core ctx : Nat) : State :=
  let x := s.ctx core ctx
  match x.pair with
  | none => s
  | some p =>
    let alone := s.updCtx core ctx fun c => { c with pair := none, pairBit := false }
    match neighbour core p.dir with
    | none => alone
    | some n =>
      let c := s.core n
      if !s.bound n x.tenant || c.dead then alone
      else if c.evicted then s.updCtx core ctx fun c => { c with pair := some (newRole true n 9 p.dir x s.tick) }
      else if 64 < c.vaUsed + x.va then alone
      else
        match c.claimable with
        | [] => alone
        | j :: _ =>
          ((s.repairCtx n j).updCtx n j fun old => secondaryCtx x core ctx p.dir s.tick (old.interval + 1)).updCtx
            core ctx fun c => { c with pair := some (newRole true n j p.dir x s.tick) }

/-- A strand waits for an evicted neighbour to pair with it again. -/
def Ctx.unmatched (c : Ctx) : Bool := match c.pair with | some p => p.primary && p.ctx == 9 | none => false

/-- Strands that wait to be paired with a core again, by core and context. -/
def State.unmatchedOn (s : State) (n : Nat) : List (Nat × Nat) :=
  (List.range 4).filterMap (fun d => neighbour n d) |>.flatMap fun c =>
    ((List.range 8).filter fun i => !(s.core c).evicted && (s.ctx c i).unmatched && (match (s.ctx c i).pair with | some p => p.core == n | none => false)).map fun i => (c, i)

/-- PAIR (R146). Towards a core of the tenant that is dead, of which R146 gives no answer, it answers 2, as where no context can be taken (DESIGN CHOICE,
log entry 11). -/
def execPair (a d : BitVec 5) (s : State) : Host.Outcome State Fault Refusal :=
  runInstr (.pair a d) (do
    ports [a]
    let x ← src a
    require (decide (x.toNat ≤ 3)) cIllegal 0x13
    let s ← get
    require (!s.my.lh) cIllegal 0x12
    require (!s.my.trap) cIllegal
    if s.my.pairBit then
      dst d 3
      pure .seq
    else
      match neighbour s.me.1 x.toNat with
      | none =>
        dst d 1
        pure .seq
      | some n =>
        if !s.bound n s.my.tenant then
          dst d 1
          pure .seq
        else
          let c := s.core n
          -- an evicted core answers later (R330)
          if c.evicted then stall
          match if c.dead || decide (64 < c.vaUsed + s.my.va) then none else c.claimable.head? with
          | none =>
            dst d 2
            pure .seq
          | some j =>
            dst d 0
            -- the checkpoint is taken past the instruction's boundary
            let s ← get
            stop (.done (((s.couple n j x.toNat).finish s.me.1 s.me.2 4 .seq).checkpointPair s.me.1 s.me.2))) s

/-- UNPAIR: the comparison has been made; the secondary's context is freed (R146). -/
def execUnpair (d : BitVec 5) (s : State) : Host.Outcome State Fault Refusal :=
  runInstr (.unpair d) (do
    let s ← get
    match s.my.pair with
    | none =>
      dst d 1
      pure .seq
    | some p =>
      change fun s => (s.updCtx p.core p.ctx Ctx.freed).updMy fun c => { c with pair := none, pairBit := false }
      dst d 0
      pure .seq) s

/-- GSTAT: the gang's gathered counters stored (R328). -/
def execGstat (a : BitVec 5) (s : State) : Host.Outcome State Fault Refusal :=
  runInstr (.gstat a) (do
    let p ← base a
    aligned p 0 8 true
    let es ← check { write := true, plain := true } [(p, 0, 128)]
    let s ← get
    performBytes true es.flatten ((s.bind s.my.gang).gstat.toList.flatMap fun n => leBytes 8 n)
    pure .seq) s

/-- HALT: the strand is held until its overseer releases or ends it (R149). -/
def execHalt (s : State) : Host.Outcome State Fault Refusal :=
  runInstr .halt (do
    let s ← get
    require (!s.my.lh) cIllegal 0x12
    performed
    release 3
    change fun s =>
      let at0 := s.my.pc
      let s := (s.updMy fun c => { c with pc := at0 + 4, st := .held }).notify (dieOf s.me.1) (.halted s.me.1 s.me.2 at0)
      match s.my.pair with
      | some p => s.updCtx p.core p.ctx fun c => { c with pc := at0 + 4, st := .held }
      | none => s
    let t ← get
    stop (.done t)) s

end Sys2Proof.Machine
end

