-- ==== Sys2Proof/Machine/CoreEvents.lean ====
section
/-! DEFINITION. The steps of cores that no instruction takes: comparisons of pairs, arrivals of migrations, messages,
decrements, words and elements, tasks, streams, the hart's restart, held strands and errors (R80 to R83, R128, R138, R139,
R147 to R150, R183, R212, R320, R321, R325).
Readings of the spec that this file takes: DEDUCED, log entry 18. -/

namespace Sys2Proof.Machine

/-! ### Pairs (R147) -/

/-- An upset changes the secondary's fingerprint by error, which the pair's next comparison finds; where one is due, the pair whose primary a
context is compares now (R147). -/
def State.pairEvent (s : State) (core ctx : Nat) (error : Word) : State :=
  match (s.ctx core ctx).pair with
  | some p =>
    if p.primary then
      let s := s.updCtx p.core p.ctx fun c => { c with pair := c.pair.map fun q => { q with fingerprint := q.fingerprint ^^^ error } }
      if (s.ctx core ctx).compares then (s.comparePair core ctx).1 else s
    else s
  | none => s

/-! ### Migration (R80 to R83) -/

/-- A message reaches its destination: accepted while fewer than 4 wait there, which frees the source context, else
refused. -/
def State.migrationArrives (s : State) (core ctx : Nat) : State :=
  match (s.ctx core ctx).wait with
  | .migration m =>
    let c := s.core m.dest
    if c.dead || c.evicted || decide (4 ≤ c.arrivals.length) then s
    else ((s.updCore m.dest fun c => { c with arrivals := c.arrivals ++ [m] }).orphan core ctx).updCtx core ctx Ctx.freed
  | _ => s

/-- A refused message is on its way again. -/
def State.migrationResends (s : State) (core ctx : Nat) : State :=
  match (s.ctx core ctx).wait with
  | .migration _ => if s.queue.contains (.migrationMessageArrival core ctx) then s else s.post (.migrationMessageArrival core ctx)
  | _ => s

/-- The arriving strand's context (R80): what the message carries, and the rest at its reset values. -/
def arrivalCtx (old : Ctx) (cap : Nat) (m : MigMsg) (gang team : Nat) : Ctx :=
  let depth := bitsAt m.status 48 16
  let c : Ctx := { Ctx.reset with
    pc := m.pc, depth, cap, prio := bitsAt m.status 32 2, arv := true, tgen := word (bitsAt m.status 0 32)
    tbank := vset Ctx.reset.tbank 0 m.tbank0, st := .eligible, tenant := m.tenant, gang, tbase := m.tbase, team, interval := old.interval + 1 }
  ((List.range 16).foldl (fun c i => c.setG i (vget 0 m.window i)) c).setLink (depth + 1) m.link

/-- A free context goes to the oldest waiting arrival, as a new team of one in the gang of the record that holds the
core (R81, R83). It joins that gang here, with the grant, and not while its message waits in the queue (DESIGN CHOICE, log entry 26). -/
def State.grantArrival (s : State) (core : Nat) : State :=
  let c := s.core core
  if c.dead || c.evicted then s
  else
    match c.arrivals, c.freeCtxs with
    | m :: rest, i :: _ =>
      let num := (s.bindOf core).getD 0
      let team := s.nextTeam
      let s := { s with nextTeam := team + 1 }.joinGang num
      -- its accesses come after those performed before it left (R82)
      let s := (s.setTeam team { core, gang := num, hset := 0, va := 0, launch := none, live := true, waiting := false }).dropClean core |>.repairCtx core i
      s.updCore core fun c =>
        { c.setCtx i (arrivalCtx (c.ctx i) c.cap m num team) with arrivals := rest, skip := vset c.skip i 0 }
    | _, _ => s

/-! ### Active messages (R320, R321) -/

/-- The gang of the record that holds a core completes if nothing else of it is in flight (R317). -/
def State.gangOfCore (s : State) (core : Nat) : State := match s.bindOf core with | some b => s.gangCheck b | none => s

/-- The oldest waiting message of a core is taken: the team starts or not, and the reply leaves. A team that waits for a core stands
before them (R152). -/
def State.takeMessage (s : State) (core : Nat) : State :=
  let c := s.core core
  if c.dead || c.evicted then s
  else if (s.waitingTeam core).isSome then s.placeTeam core
  else
    match c.amsgs with
    | [] => s
    | m :: rest =>
      let r := (s.updCore core fun c => { c with amsgs := rest }).launch core m.msg m.recs
      (r.2.post (.amsgReply m.sender.1 m.sender.2 r.1)).gangOfCore core

/-- The reply ends the stall of the sender's AMSG. -/
def State.reply (s : State) (core ctx code : Nat) : State :=
  s.updCtx core ctx fun c => if c.wait = .amsg none then { c with wait := .amsg (some code) } else c

/-! ### Decrements and tasks (R139, R325) -/

/-- A decrement of a gang reaches its slot. -/
def State.decrement (s : State) (core slot amount sender gang : Nat) : State :=
  let c := s.core core
  let gone := fun (s : State) => s.gangCheck gang
  match vget none c.tasks slot with
  | some t =>
    if 0 < t.counter then
      let left := t.counter - amount
      gone (s.updCore core fun c =>
        { c with tasks := vset c.tasks slot (some { t with counter := left, ready := if left = 0 then some c.readyStamp else none }) })
    else gone (s.notify (dieOf core) (.decDiscarded core slot sender))
  | none => gone (s.notify (dieOf core) (.decDiscarded core slot sender))

/-- Where a request that a core may refuse is bound: the core, and its task slots, one FIFO, or one channel. -/
def Event.way : Event → Option (Nat × Nat)
  | .decArrival c _ _ _ _ => some (c, 0)
  | .meshPortWordArrival c d _ => some (c, 1 + d)
  | .queueElementArrival c d k _ _ => some (c, 5 + 4 * d + k)
  | _ => none

/-- A core takes such a request: it is not evicted, and its FIFO holds fewer than 8 words, its channel fewer than 4 elements (R128,
R138, R330). -/
def State.takes (s : State) (e : Event) : Bool :=
  match e with
  | .decArrival c _ _ _ _ => !(s.core c).evicted
  | .meshPortWordArrival c d _ => !(s.core c).evicted && (s.core c).fifoRoom d 0
  | .queueElementArrival c d k _ _ => !(s.core c).evicted && (s.core c).chanRoom d k 0
  | _ => true

/-- A refused request is held by its requester, behind those held already on the same way (R330). -/
def State.retried (s : State) (e : Event) : Option State :=
  if !s.takes e || s.retries.any (fun v => v.way == e.way) then some { s with retries := s.retries ++ [e] } else none

/-- The held requests of a core that it takes now leave again, ahead of later ones; strands that wait for it are paired with it again. -/
def State.resend (s : State) (core : Nat) : State :=
  let s := if (s.core core).evicted then s else (s.unmatchedOn core).foldl (fun s p => s.pairAgain p.1 p.2) s
  let go := fun (v : Event) => (match v.way with | some w => w.1 == core | none => false) && s.takes v
  { s with retries := s.retries.filter fun v => !go v, queue := s.retries.filter go ++ s.queue }

/-- The ready slot that starts next: its strand's registers are free (R139). -/
def State.readyTask (s : State) (core : Nat) : Option (Nat × Task) :=
  let c := s.core core
  if c.dead || c.evicted || c.claimable.isEmpty then none
  else
    let l := (List.range 32).filterMap fun k =>
      match vget none c.tasks k with
      | some t => if t.ready.isSome && decide (c.vaUsed + (s.team t.team).va ≤ 64) then some (k, t) else none
      | none => none
    l.find? fun x => l.all fun y => readyBefore x y

/-- A ready slot starts a strand of its team and becomes free. -/
def State.startTask (s : State) (core : Nat) : State :=
  match s.readyTask core, (s.core core).claimable with
  | some (k, t), i :: _ =>
    let m := s.team t.team
    (s.startStrand core i
      { pc := t.pc, g0 := t.arg0, g1 := t.arg1, prio := t.prio, va := m.va, tenant := (s.bind m.gang).ten, gang := m.gang, team := t.team }).updCore core
        fun c => { c with tasks := vset c.tasks k none }
  | _, _ => s

/-! ### Ports (R128, R138) -/

/-- A word enters a FIFO; a dead core takes none. -/
def State.wordArrives (s : State) (core dir : Nat) (v : Word) : State :=
  if (s.core core).dead then s else s.updCore core fun c => { c with fifo := vset c.fifo dir (vget [] c.fifo dir ++ [v]) }

/-- An element enters a channel. -/
def State.elementArrives (s : State) (core dir ch : Nat) (e : Vec × Bool) : State :=
  if (s.core core).dead then s
  else s.updCore core fun c => { c with chan := vset c.chan (dir * 4 + ch) (vget [] c.chan (dir * 4 + ch) ++ [e]) }

/-! ### Streams (R183, R184) -/

/-- The agent of a stream's next transfer: its strand, in the interval of the SBIND for a read, of the append for a write (R184). -/
def Stream.who (t : Stream) (core ctx : Nat) : Who :=
  { core, agent := ctx, interval := if t.write then (t.stamps.head?.map Prod.fst).getD t.interval else t.interval }

/-- When the access of a stream's next transfer was issued (R184). -/
def Stream.order (t : Stream) : Nat := if t.write then (t.stamps.head?.map Prod.snd).getD t.issued else t.issued

/-- The address space of a strand. -/
def State.strandSpace (s : State) (core ctx : Nat) : Space :=
  { bind := (s.ctx core ctx).gang, tenant := (s.ctx core ctx).tenant, tlb := .core core }

/-- What the next transfer of a stream's element comes to: none where there is nothing to do, or it must wait. -/
def State.streamStep (s : State) (core ctx k : Nat) (write : Bool) : Option State :=
  let c := s.core core
  -- an evicted core drains its write streams before its save (R189)
  if c.dead || (c.evicted && !write) || ctx ≥ 8 then none
  else
    match s.streamAt core ctx k with
    | none => none
    | some t =>
      -- the primary's ports alone move; elements on which a pair has not agreed are held (R147)
      let waits := match (s.ctx core ctx).pair with | some p => !p.primary || p.holds t | none => false
      let idle := waits || t.write != write || t.fault.isSome || (if write then t.buf.isEmpty
        else decide (4 ≤ t.buf.length + (if listed (s.ctx core ctx).operands (88 + k) then 1 else 0)) || decide (t.total ≤ t.moved))
      if idle then none
      else
        let w := t.who core ctx
        -- a wait leaves what the transfer has asked the host for
        let held := fun (s' : State) => if s'.cxl = s.cxl then none else some { s with cxl := s'.cxl }
        match checkExtent s w (s.strandSpace core ctx) { read := !write, write, plain := true, posted := write, gen := (s.ctx core ctx).tgen }
            t.base (t.offset t.moved) 512 {} with
        | .trap f s' => some (s'.setStream core ctx k { t with fault := some f })
        | .wait s' => held s'
        | .ok a s =>
          if a.wait || a.exts.any (s.afterSc core ctx) || (!write && (a.exts.any (s.behindPackets core ctx)
              || a.exts.any (s.behindMaster (s.unperformed core ctx t.order)))) then held s
          else if a.exts.any (s.behindAppend core ctx k t.order) then
            let r := s.appendNow core ctx (s.ctx core ctx).pend
            if r.2.length < (s.ctx core ctx).pend.length then some (r.1.updCtx core ctx fun c => { c with pend := r.2 }) else held s
          else
          let s := s.countPages core ctx a.exts
          if write then
            let s := (a.exts.foldl (fun (p : State × List Byte) e =>
              (p.1.performWrite (w.overExts a.exts) true e (p.2.take e.len), p.2.drop e.len)) (s, vecBytes (t.buf.headD 0))).1
            let s := s.setStream core ctx k { t with buf := t.buf.drop 1, stamps := t.stamps.drop 1, moved := t.moved + 1 }
            -- an evicted core's pending appends follow as room comes
            if c.evicted then
              let r := s.appendNow core ctx (s.ctx core ctx).pend
              some (r.1.updCtx core ctx fun c => { c with pend := r.2 })
            else some s
          else
            match a.exts.filterMap s.badData with
            | x :: _ =>
              -- bad data consumed: its core dies, and the reader of another core's takes 0x12 (R150)
              some ((if x.core = core then s else s.setStream core ctx k { t with fault := some { code := cPoison, val := x.val } }).killCore x.core)
            | [] =>
            let s := (a.exts.foldl (fun s e => s.touchRead (w.overExts a.exts) true e) s).noteStale core ctx a.stale
            some (s.setStream core ctx k { t with buf := t.buf ++ [vecOfBytes (s.engineBytes core a.exts)], moved := t.moved + 1 })

/-! ### The hart (R212, R213) -/

/-- The hart starts at the movement program of its core's record with empty registers. -/
def State.startHart (s : State) (core : Nat) : State :=
  match s.bindOf core with
  | none => s
  | some b =>
    s.updCore core fun c =>
      { c with
        hart := { Ctx.reset with cap := 4, pc := word ((s.bind b).field 24 8), tenant := (s.bind b).ten, gang := b, interval := c.hart.interval + 1 }
        hartStopped := false }

/-! ### Held strands (R149) and errors (R150) -/

/-- The overseer releases a held strand, and its pair's other context with it. -/
def State.releaseHeld (s : State) (core ctx : Nat) : State :=
  let go := fun (c : Ctx) => if c.st = .held then { c with st := .eligible } else c
  match (s.ctx core ctx).pair with
  | some p => (s.updCtx core ctx go).updCtx p.core p.ctx go
  | none => s.updCtx core ctx go

/-- The overseer ends a held strand. -/
def State.endHeld (s : State) (core ctx : Nat) : State := if (s.ctx core ctx).st = .held then s.endStrand core ctx else s

/-- Bad data lies in a core until it is consumed. -/
def State.coreError (s : State) (core : Nat) (p : BadPlace) : State :=
  if (s.core core).dead || (s.core core).bad.contains p then s else s.updCore core fun c => { c with bad := p :: c.bad }

/-! ### The events -/

/-- PAIR_COMPARISON (R147). -/
def execPairComparison (s : State) : Host.Outcome State Fault Refusal :=
  onEvent (fun e => match e with | .pairComparison core ctx error => some fun s => s.pairEvent core ctx error | _ => none) s

/-- MIGRATION_MESSAGE_ARRIVAL (R83). -/
def execMigrationMessageArrival (s : State) : Host.Outcome State Fault Refusal :=
  onEvent (fun e => match e with | .migrationMessageArrival core ctx => some fun s => s.migrationArrives core ctx | _ => none) s

/-- MIGRATION_RESEND (R83). -/
def execMigrationResend (s : State) : Host.Outcome State Fault Refusal :=
  onEvent (fun e => match e with | .migrationResend core ctx => some fun s => s.migrationResends core ctx | _ => none) s

/-- ARRIVAL_CONTEXT_GRANT (R83). -/
def execArrivalContextGrant (s : State) : Host.Outcome State Fault Refusal :=
  onEvent (fun e => match e with | .arrivalContextGrant core => some fun s => s.grantArrival core | _ => none) s

/-- ACTIVE_MESSAGE_ARRIVAL (R320). -/
def execActiveMessageArrival (s : State) : Host.Outcome State Fault Refusal :=
  onEvent (fun e => match e with | .activeMessageArrival core => some fun s => s.takeMessage core | _ => none) s

/-- AMSG_REPLY (R320). -/
def execAmsgReply (s : State) : Host.Outcome State Fault Refusal :=
  onEvent (fun e => match e with | .amsgReply core ctx code => some fun s => s.reply core ctx code | _ => none) s

/-- DEC_ARRIVAL (R325, R330). -/
def execDecArrival (s : State) : Host.Outcome State Fault Refusal :=
  onEvent (fun e => match e with
    | .decArrival core slot n from_ gang => some fun s =>
        (s.retried (.decArrival core slot n from_ gang)).getD (s.decrement core slot n from_ gang)
    | _ => none) s

/-- TASK_SLOT_START (R139). -/
def execTaskSlotStart (s : State) : Host.Outcome State Fault Refusal :=
  onEvent (fun e => match e with | .taskSlotStart core => some fun s => s.startTask core | _ => none) s

/-- MESH_PORT_WORD_ARRIVAL (R138, R330). -/
def execMeshPortWordArrival (s : State) : Host.Outcome State Fault Refusal :=
  onEvent (fun e => match e with
    | .meshPortWordArrival core dir v => some fun s => (s.retried (.meshPortWordArrival core dir v)).getD (s.wordArrives core dir v)
    | _ => none) s

/-- QUEUE_ELEMENT_ARRIVAL (R128, R330). -/
def execQueueElementArrival (s : State) : Host.Outcome State Fault Refusal :=
  onEvent (fun e => match e with
    | .queueElementArrival core dir ch v c => some fun s =>
        (s.retried (.queueElementArrival core dir ch v c)).getD (s.elementArrives core dir ch (v, c))
    | _ => none) s

/-- STREAM_ELEMENT_FETCH (R183). -/
def execStreamElementFetch (s : State) : Host.Outcome State Fault Refusal :=
  onEvent (fun e => match e with
    | .streamElementFetch core ctx k => some fun s => (s.streamStep core ctx k false).getD s
    | _ => none) s

/-- STREAM_ELEMENT_WRITE (R183). -/
def execStreamElementWrite (s : State) : Host.Outcome State Fault Refusal :=
  onEvent (fun e => match e with
    | .streamElementWrite core ctx k => some fun s => (s.streamStep core ctx k true).getD s
    | _ => none) s

/-- HART_RESTART (R212): of a stopped hart of a live core. -/
def execHartRestart (s : State) : Host.Outcome State Fault Refusal :=
  onEvent (fun e => match e with
    | .hartRestart core => some fun s => if (s.core core).hartStopped && !(s.core core).dead then s.startHart core else s
    | _ => none) s

/-- RETRY_RESEND (R330). -/
def execRetryResend (s : State) : Host.Outcome State Fault Refusal :=
  onEvent (fun e => match e with | .retryResend core => some fun s => s.resend core | _ => none) s

/-- HELD_STRAND_RELEASE (R149). -/
def execHeldStrandRelease (s : State) : Host.Outcome State Fault Refusal :=
  onEvent (fun e => match e with | .heldStrandRelease core ctx => some fun s => s.releaseHeld core ctx | _ => none) s

/-- HELD_STRAND_END (R149). -/
def execHeldStrandEnd (s : State) : Host.Outcome State Fault Refusal :=
  onEvent (fun e => match e with | .heldStrandEnd core ctx => some fun s => s.endHeld core ctx | _ => none) s

/-- UNCORRECTABLE_CORE_ERROR (R150). -/
def execUncorrectableCoreError (s : State) : Host.Outcome State Fault Refusal :=
  onEvent (fun e => match e with | .uncorrectableCoreError core p => some fun s => s.coreError core p | _ => none) s

end Sys2Proof.Machine
end

