-- ==== Sys2Proof/Machine/Reconf.lean ====
section
/-! DEFINITION. Fabric event records, the checks that fabric instructions share, and RECONF with its steps (R392, R403,
R406 to R408, R410, R413, R414).
Readings of the spec that this file takes: DEDUCED, log entry 23. -/

namespace Sys2Proof.Machine

/-! ### Event records (R403) -/

/-- What a fabric event record says beside its kind; the defaults mean none. -/
structure FabricNote where
  trunk : Nat := 0xFF
  fibre : Nat := 0xFF
  mask : Nat := 0
  seq : Nat := 0xFFFF
  peer : Option Nat := none
  group : Nat := 0xFF
  rank : Nat := 0xFFFF
  deriving DecidableEq, Repr

/-- A fabric event: its record to the host event queue and to the overseer core of die 0 (R403). -/
def State.fabricEvent (s : State) (kind : Nat) (n : FabricNote) : State :=
  let body := leBytes 1 kind ++ leBytes 1 n.trunk ++ leBytes 1 n.fibre ++ leBytes 1 (onesBelow 16 n.mask).length
    ++ leBytes 2 n.mask ++ leBytes 2 n.seq ++ leBytes 4 s.fabric.cgen ++ leBytes 3 (n.peer.getD 0xFFFFFF)
    ++ leBytes 1 n.group ++ leBytes 2 n.rank
  let r := eventBytes body 6
  (s.hostEvent r).notify 0 (.fabric r)

/-! ### Shared checks -/

/-- An operand that the description refuses (R410). -/
def fabricOk (b : Bool) : M Unit := require b cIllegal 0xA0

/-- There is a fabric; EVAL is 0 where no byte of a remote access is named (R408). -/
def fabricPresent : M Unit := do
  let s ← get
  require s.fabric.present cScope 0x10

/-- The generation check of a remote operation (R406). -/
def fresh : M Unit := do
  let s ← get
  require (decide (s.fabric.cgen ≤ s.my.tgen.toNat)) cStaleGen 0 s.my.tgen

/-- A descriptor of 64 bytes, aligned to 64, read as a plain load (R410). -/
def fabricDescriptor (p : Word) : M (List Byte) := do
  let _ ← aligned p 0 64 false
  load p 0 64

/-! ### Trunks (R392) -/

/-- The 64 fibres of the two trunks of a dimension, up or down; a trunk whose dimension has size 1 stays dark. -/
def Fabric.fibresOf (f : Fabric) (dim : Nat) : List Nat := if f.present && f.size dim != 1 then (List.range 64).map fun i => dim * 64 + i else []

/-! ### RECONF (R413, R414) -/

/-- A descriptor's values; a mesh pointer is no flat address for MBOX (R413). -/
def reconfOk (f : Fabric) (bs : List Byte) : Bool :=
  let dim := recField bs 4 1
  recField bs 0 4 == f.cgen + 1 && (dim == 2 || dim == 3) && f.size dim % 2 ^ recField bs 5 1 == 0
    && recField bs 6 2 == 0 && recField bs 48 8 == 0 && recField bs 56 8 == 0 && bitsAt (word (recField bs 8 8)) 62 2 != 1

/-- RECONF: the instruction completes; the fabric controller goes on (R414). A neighbour's quiesce or hello that has come before stands. -/
def execReconf (a : BitVec 5) (d : BitVec 5) (s : State) : Host.Outcome State Fault Refusal :=
  runInstr (.reconf a d) (do
    let p ← base a
    let bs ← fabricDescriptor p
    let s ← get
    fabricOk (reconfOk s.fabric bs)
    let mbox := word (recField bs 8 8)
    aligned mbox 0 8 true
    let es ← check { write := true } [(mbox, 0, 8)]
    fabricPresent
    fresh
    if s.fabric.reconf.isSome then
      dst d 1
      pure .seq
    else
      release 5
      change fun s => { s with fabric := { s.fabric with
        reconf := some { gen := recField bs 0 4, dim := recField bs 4 1, ring := recField bs 5 1, mbox := es.flatten
                         swcmd := BitVec.ofNat 256 (recField bs 16 32), phase := .drain } } }
      change fun s => s.sendControl (s.fabric.fibresOf (recField bs 4 1)) 12 0
      dst d 0
      pure .seq) s

/-- Bytes written at their homes over checked extents. -/
def State.writeHome (s : State) (es : List Extent) (bs : List Byte) : State :=
  (es.foldl (fun (p : State × List Byte) e => (p.1.homeWrite e.key (p.2.take e.len), p.2.drop e.len)) (s, bs)).1

/-- The requests for the lines of the window that a write of extents lacks; none where it lacks none (R358). -/
def State.linesFor (s : State) (es : List Extent) : Option State :=
  es.foldl (fun o e => ((o.getD s).needLines e.key e.len true false).or o) none

/-- Bytes of hardware written with a release, over checked extents: at once, or when the lines of the window that it lacks are owned (R358). -/
def State.writeOver (s : State) (es : List Extent) (bs : List Byte) : State :=
  match s.linesFor es with
  | some t => { t with mailWrites := t.mailWrites ++ [(es, bs)] }
  | none => s.writeHome es bs

/-- Release writes that waited for lines of the window, and now own them, are performed; the fuel is their number. -/
def State.sendMail (s : State) : Nat → State
  | 0 => s
  | n + 1 =>
    match s.mailWrites.find? fun m => (s.linesFor m.1).isNone with
    | some m => State.sendMail (({ s with mailWrites := s.mailWrites.erase m } : State).writeHome m.1 m.2) n
    | none => s

/-- The quiesces and hellos of a dimension have served: the next RECONF waits for new ones. -/
def Fabric.forgetHellos (f : Fabric) (dim : Nat) : Fabric :=
  { f with fibres := f.fibres.map fun (e : Nat × Fibre) => if e.1 / 64 = dim then (e.1, { e.2 with quiesced := false, hello := none }) else e }

/-- The RECONF ends with failure code f, or 0: CGEN advances, the ring size or the loss of the dimension stands, MBOX
is written and the outcome reported (R414). -/
def State.endReconf (s : State) (f : Nat) : State :=
  match s.fabric.reconf with
  | none => s
  | some r =>
    let size := 2 ^ r.ring
    let fab := { s.fabric.forgetHellos r.dim with
      reconf := none
      cgen := r.gen
      rc := if f = 0 ∧ r.dim = 2 then size else s.fabric.rc
      rd := if f = 0 ∧ r.dim = 3 then size else s.fabric.rd
      broken := if f = 0 then s.fabric.broken.filter fun d => d != r.dim else r.dim :: s.fabric.broken.filter fun d => d != r.dim }
    let s := { s with fabric := fab }
    let s := s.writeOver r.mbox (leBytes 8 (if f = 0 then r.gen else 2 ^ 63 + r.gen + 2 ^ 32 * f))
    (s.fabricEvent (if f = 0 then 7 else 8) {}).gangsCheck

/-- Everything sent over the dimension before the stop is acknowledged, and every fibre of its trunks is quiet. A ring of 1
has no links, and the trunks of a failed RECONF are down (R390, R414). -/
def Fabric.drained (f : Fabric) (dim : Nat) : Bool :=
  !(f.packets.any fun p => f.uses (keyPeer p.key) dim) && (f.ring dim == 1 || f.broken.contains dim ||
    (f.fibresOf dim).all fun n => (f.fibre n).quiesced && (f.fibre n).held.isEmpty && (f.fibre n).waiting.isEmpty)

/-- RECONF_DRAIN_COMPLETE: SWCMD goes to the circuit switch (R414). -/
def State.drainDone (s : State) : State :=
  match s.fabric.reconf with
  | some r =>
    if r.phase = .drain ∧ s.fabric.drained r.dim then { s with fabric := { s.fabric with reconf := some { r with phase := .switch } } }
    else s
  | none => s

/-- The parameter of a hello flit: generation, own peer number, log2 of the ring sizes of C and D, new where the RECONF changes it (R394, R414;
the layout: DESIGN CHOICE, log entry 25). -/
def Fabric.helloParam (f : Fabric) (r : Reconf) : Nat :=
  let ring := fun (dim : Nat) => (if r.dim = dim then r.ring else (f.ring dim).log2) % 256
  r.gen % 2 ^ 32 + 2 ^ 32 * (f.own % 2 ^ 24) + 2 ^ 56 * ring 2 + 2 ^ 64 * ring 3

/-- The switch's status byte: 0 done, else refused (R414). -/
def State.switchAnswer (s : State) (status : BitVec 8) : State :=
  match s.fabric.reconf with
  | some r =>
    if r.phase = .switch then
      if status = 0 then
        { s with fabric := { s.fabric with reconf := some { r with phase := .train } } }.sendControl (s.fabric.fibresOf r.dim) 11 (s.fabric.helloParam r)
      else s.endReconf 1
    else s
  | none => s

/-- No status byte came in time: a refusal (R414). -/
def State.switchSilent (s : State) : State :=
  match s.fabric.reconf with
  | some r => if r.phase = .switch then s.endReconf 1 else s
  | none => s

/-- Every fibre of the two trunks is trained and its hello has come; a ring of 1 has no links. -/
def Fabric.trained (f : Fabric) (r : Reconf) : Bool := r.ring == 0 || (f.fibresOf r.dim).all fun n => (f.fibre n).hello.isSome

/-- The hellos name the new generation and ring size and the neighbour of R390. -/
def Fabric.hellosAgree (f : Fabric) (r : Reconf) : Bool :=
  r.ring == 0 || (f.fibresOf r.dim).all fun n =>
    (f.fibre n).hello == some (r.gen, f.ringNeighbour r.dim (2 ^ r.ring) (n / 32 % 2 == 1), r.ring)

/-- RECONF_TRAINING_COMPLETE (R414). -/
def State.trainingDone (s : State) : State :=
  match s.fabric.reconf with
  | some r =>
    if r.phase = .train ∧ s.fabric.trained r then s.endReconf (if s.fabric.hellosAgree r then 0 else 2) else s
  | none => s

/-- The steps after the stop took too long; the wait for the switch does not count (R414). -/
def State.reconfLate (s : State) : State :=
  match s.fabric.reconf with
  | some r => if r.phase = .switch then s else s.endReconf 3
  | none => s

/-- RECONF_DRAIN_COMPLETE (R414). -/
def execReconfDrainComplete (s : State) : Host.Outcome State Fault Refusal :=
  onEvent (fun e => match e with | .reconfDrainComplete => some State.drainDone | _ => none) s

/-- SWITCH_STATUS (R414). -/
def execSwitchStatus (s : State) : Host.Outcome State Fault Refusal :=
  onEvent (fun e => match e with | .switchStatus b => some fun s => s.switchAnswer b | _ => none) s

/-- SWITCH_STATUS_TIMEOUT (R414). -/
def execSwitchStatusTimeout (s : State) : Host.Outcome State Fault Refusal :=
  onEvent (fun e => match e with | .switchStatusTimeout => some State.switchSilent | _ => none) s

/-- RECONF_TRAINING_COMPLETE (R414). -/
def execReconfTrainingComplete (s : State) : Host.Outcome State Fault Refusal :=
  onEvent (fun e => match e with | .reconfTrainingComplete => some State.trainingDone | _ => none) s

/-- RECONF_TIMEOUT (R414). -/
def execReconfTimeout (s : State) : Host.Outcome State Fault Refusal :=
  onEvent (fun e => match e with | .reconfTimeout => some State.reconfLate | _ => none) s

/-- HELLO: a neighbour's generation, peer number and ring size, as its log2 (R394, R414). -/
def execHello (s : State) : Host.Outcome State Fault Refusal :=
  onEvent (fun e => match e with
    | .hello n gen peer ring => some fun s => s.updFibre n fun f => { f with hello := some (gen, peer, ring) }
    | _ => none) s

/-- QUIESCE: the neighbour sends no more on the fibre, and a quiesce flit has been sent on it (R394, R414). -/
def execQuiesce (s : State) : Host.Outcome State Fault Refusal :=
  onEvent (fun e => match e with | .quiesce n => some fun s => s.updFibre n fun f => { f with quiesced := true } | _ => none) s

end Sys2Proof.Machine
end

