-- ==== Sys2Proof/Machine/VectorMask.lean ====
section
/-! DEFINITION. Vector compares, mask operations, reductions and permutes (R38, R167 to R170). -/

namespace Sys2Proof.Machine

/-! ### Compares (R167) -/

/-- An element is a NaN of its type. -/
def isNanElem (t : ETy) (x : Nat) : Bool := match t with | .flt f => (match decodeF f x with | .nan _ => true | _ => false) | _ => false

/-- The predicates of VCMP. With a NaN operand every predicate but NE is false, LTN and GEN too, which compare the bits of other
elements (R22, R167; DEDUCED, log entry 19). -/
def predicate (p : Nat) (t : ETy) (x y : Nat) : Bool :=
  if isNanElem t x || isNanElem t y then p == 1 else
  match p with
  | 6 => decide (x < y)
  | 7 => decide (y ≤ x)
  | _ =>
    match t with
    | .flt f =>
      let a := decodeF f x
      let b := decodeF f y
      match p with
      | 0 => fEqual a b
      | 1 => !fEqual a b
      | 2 => fLess false a b
      | 3 => fLess false a b || fEqual a b
      | 4 => fLess false b a
      | _ => fLess false b a || fEqual a b
    | t =>
      let a := t.value x
      let b := t.value y
      match p with
      | 0 => decide (a = b)
      | 1 => decide (a ≠ b)
      | 2 => decide (a < b)
      | 3 => decide (a ≤ b)
      | 4 => decide (b < a)
      | _ => decide (b ≤ a)

/-- VCMP.cc: bit i of d; an inactive bit keeps its value, bits beyond the elements are 0. -/
def compare (p : Nat) (m : BitVec 1) (b a d : BitVec 5) : M Next := do
  let t ← laneType anyType
  allocated [(a, 1), (b, 1)]
  portUse [a, b] []
  let (x, y) ← vsrc2 a b
  let s ← get
  let old := s.my.mask d
  mdst d (maskOf ((List.range (4096 / t.width)).map fun i =>
    if s.my.active m i then predicate p t (elemOf x t.width i) (elemOf y t.width i) else old.getLsbD i))
  pure .seq

/-! ### Masks (R168) -/

/-- A mask operation on all 1,024 bits. -/
def maskTwo (b a d : BitVec 5) (f : Mask → Mask → Mask) : M Next := do
  allocatedMask
  let s ← get
  mdst d (f (s.my.mask a) (s.my.mask b))
  pure .seq

/-- Elements of a register under VTYPE. -/
def laneCount : M Nat := do
  let t ← laneType anyType
  pure (4096 / t.width)

/-! ### Reductions (R38, R169) -/

/-- One level of the pairwise tree. -/
def treeLevel (f : Nat → Nat → Nat × Counts) : List Nat → List Nat × Counts
  | x :: y :: t =>
    let r := f x y
    let rest := treeLevel f t
    (r.1 :: rest.1, r.2.add rest.2)
  | l => (l, .zero)

/-- The tree of R38; the fuel is the number of levels. -/
def tree (f : Nat → Nat → Nat × Counts) : Nat → List Nat → Nat × Counts
  | 0, l => (l.headD 0, .zero)
  | k + 1, l =>
    let r := treeLevel f l
    let q := tree f k r.1
    (q.1, r.2.add q.2)

/-- Identities of R38: sum, maximum, minimum, and, or and xor. -/
def identitySum (t : ETy) : Nat := match t with | .flt f => 2 ^ (f.width - 1) | _ => 0
def identityMax (t : ETy) : Nat := match t with | .flt f => f.infCode + 2 ^ (f.width - 1) | t => wrap t.width t.range.1
def identityMin (t : ETy) : Nat := match t with | .flt f => f.infCode | t => wrap t.width t.range.2
def identityAnd (t : ETy) : Nat := 2 ^ t.width - 1
def identityOr (_ : ETy) : Nat := 0

/-- The result of a reduction in a scalar register (R169). -/
def reduced (t : ETy) (r : Nat) : Word := match t with | .int w => sext r w | _ => word r

/-- A reduction of register a into d. A rounding mode is admitted only by a floating-point sum. -/
def reduce (sum : Bool) (id : ETy → Nat) (m : BitVec 1) (r : BitVec 2) (a d : BitVec 5) (f : ETy → Nat → Nat → Nat × Counts) : M Next := do
  let t ← laneType anyType
  require (r == 0#2 || (sum && t.isFloat)) cIllegal
  allocated [(a, 1)]
  portUse [a] []
  ports [d]
  let x ← vsrc a
  let s ← get
  let es := (List.range (4096 / t.width)).map fun i => if s.my.active m i then elemOf x t.width i else id t
  let res := tree (f t) (Nat.log2 (4096 / t.width)) es
  dst d (reduced t res.1)
  tally res.2
  pure .seq

/-! ### Permutes (R170) -/

/-- Active elements of d from f, which may leave an element as it was. -/
def permuteTo (c : Ctx) (m : BitVec 1) (w : Nat) (old : Vec) (f : Nat → Option Nat) : Vec :=
  (lanes c m w old fun i => ((f i).getD (elemOf old w i), .zero)).1

/-- A permute of one vector with a scalar count. -/
def slide (m : BitVec 1) (b a d : BitVec 5) (f : Nat → Nat → Vec → Nat → Nat → Option Nat) : M Next := do
  let t ← laneType anyType
  allocated [(a, 1), (d, 1)]
  portUse [a] [d]
  ports [b]
  let x ← vsrc a
  let k ← src b
  let old ← oldVec d
  let s ← get
  vdst d (permuteTo s.my m t.width old (f (4096 / t.width) t.width x k.toNat))
  pure .seq

/-- A permute of two vectors. -/
def mixTwo (m : BitVec 1) (b a d : BitVec 5) (f : Nat → Nat → Vec → Vec → Nat → Nat) : M Next := do
  let t ← laneType anyType
  allocated [(a, 1), (b, 1), (d, 1)]
  portUse [a, b] [d]
  let (x, y) ← vsrc2 a b
  let old ← oldVec d
  let s ← get
  vdst d (permuteTo s.my m t.width old fun i => some (f (4096 / t.width) t.width x y i))
  pure .seq

/-! ### The meanings -/

/-- VCMP.EQ (R167). -/
def execVcmpEq (m : BitVec 1) (b : BitVec 5) (a : BitVec 5) (d : BitVec 5) (s : State) : Host.Outcome State Fault Refusal :=
  runInstr (.vcmpEq m b a d) (compare 0 m b a d) s

/-- VCMP.NE (R167). -/
def execVcmpNe (m : BitVec 1) (b : BitVec 5) (a : BitVec 5) (d : BitVec 5) (s : State) : Host.Outcome State Fault Refusal :=
  runInstr (.vcmpNe m b a d) (compare 1 m b a d) s

/-- VCMP.LT (R167). -/
def execVcmpLt (m : BitVec 1) (b : BitVec 5) (a : BitVec 5) (d : BitVec 5) (s : State) : Host.Outcome State Fault Refusal :=
  runInstr (.vcmpLt m b a d) (compare 2 m b a d) s

/-- VCMP.LE (R167). -/
def execVcmpLe (m : BitVec 1) (b : BitVec 5) (a : BitVec 5) (d : BitVec 5) (s : State) : Host.Outcome State Fault Refusal :=
  runInstr (.vcmpLe m b a d) (compare 3 m b a d) s

/-- VCMP.GT (R167). -/
def execVcmpGt (m : BitVec 1) (b : BitVec 5) (a : BitVec 5) (d : BitVec 5) (s : State) : Host.Outcome State Fault Refusal :=
  runInstr (.vcmpGt m b a d) (compare 4 m b a d) s

/-- VCMP.GE (R167). -/
def execVcmpGe (m : BitVec 1) (b : BitVec 5) (a : BitVec 5) (d : BitVec 5) (s : State) : Host.Outcome State Fault Refusal :=
  runInstr (.vcmpGe m b a d) (compare 5 m b a d) s

/-- VCMP.LTN (R167). -/
def execVcmpLtn (m : BitVec 1) (b : BitVec 5) (a : BitVec 5) (d : BitVec 5) (s : State) : Host.Outcome State Fault Refusal :=
  runInstr (.vcmpLtn m b a d) (compare 6 m b a d) s

/-- VCMP.GEN (R167). -/
def execVcmpGen (m : BitVec 1) (b : BitVec 5) (a : BitVec 5) (d : BitVec 5) (s : State) : Host.Outcome State Fault Refusal :=
  runInstr (.vcmpGen m b a d) (compare 7 m b a d) s

/-- MAND (R168). -/
def execMand (b : BitVec 5) (a : BitVec 5) (d : BitVec 5) (s : State) : Host.Outcome State Fault Refusal :=
  runInstr (.mand b a d) (maskTwo b a d fun x y => x &&& y) s

/-- MOR (R168). -/
def execMor (b : BitVec 5) (a : BitVec 5) (d : BitVec 5) (s : State) : Host.Outcome State Fault Refusal :=
  runInstr (.mor b a d) (maskTwo b a d fun x y => x ||| y) s

/-- MXOR (R168). -/
def execMxor (b : BitVec 5) (a : BitVec 5) (d : BitVec 5) (s : State) : Host.Outcome State Fault Refusal :=
  runInstr (.mxor b a d) (maskTwo b a d fun x y => x ^^^ y) s

/-- MNOT (R168). -/
def execMnot (a : BitVec 5) (d : BitVec 5) (s : State) : Host.Outcome State Fault Refusal :=
  runInstr (.mnot a d) (maskTwo a a d fun x _ => ~~~x) s

/-- MPOP (R168). -/
def execMpop (a : BitVec 5) (d : BitVec 5) (s : State) : Host.Outcome State Fault Refusal :=
  runInstr (.mpop a d) (do
    let n ← laneCount
    allocatedMask
    ports [d]
    let s ← get
    dst d (word ((List.range n).filter fun i => (s.my.mask a).getLsbD i).length)
    pure .seq) s

/-- MFIRST (R168). -/
def execMfirst (a : BitVec 5) (d : BitVec 5) (s : State) : Host.Outcome State Fault Refusal :=
  runInstr (.mfirst a d) (do
    let n ← laneCount
    allocatedMask
    ports [d]
    let s ← get
    dst d (word (((List.range n).find? fun i => (s.my.mask a).getLsbD i).getD n))
    pure .seq) s

/-- MFILL (R168). -/
def execMfill (a : BitVec 5) (d : BitVec 5) (s : State) : Host.Outcome State Fault Refusal :=
  runInstr (.mfill a d) (do
    let n ← laneCount
    allocatedMask
    ports [a]
    let x ← src a
    mdst d (BitVec.ofNat 1024 (2 ^ Nat.min x.toNat n - 1))
    pure .seq) s

/-- VSEL: m0 selects (R168). -/
def execVsel (b : BitVec 5) (a : BitVec 5) (d : BitVec 5) (s : State) : Host.Outcome State Fault Refusal :=
  runInstr (.vsel b a d) (do
    let t ← laneType anyType
    allocated [(a, 1), (b, 1), (d, 1)]
    portUse [a, b] [d]
    let (x, y) ← vsrc2 a b
    let s ← get
    vdst d (lanes s.my 0#1 t.width 0 fun i => (elemOf (if s.my.active 1#1 i then x else y) t.width i, .zero)).1
    pure .seq) s

/-- VRSUM (R169). -/
def execVrsum (m : BitVec 1) (r : BitVec 2) (a : BitVec 5) (d : BitVec 5) (s : State) : Host.Outcome State Fault Refusal :=
  runInstr (.vrsum m r a d) (reduce true identitySum m r a d (addElem (rmOf r))) s

/-- VRMAX (R169). -/
def execVrmax (m : BitVec 1) (r : BitVec 2) (a : BitVec 5) (d : BitVec 5) (s : State) : Host.Outcome State Fault Refusal :=
  runInstr (.vrmax m r a d) (reduce false identityMax m r a d (minMaxElem true)) s

/-- VRMIN (R169). -/
def execVrmin (m : BitVec 1) (r : BitVec 2) (a : BitVec 5) (d : BitVec 5) (s : State) : Host.Outcome State Fault Refusal :=
  runInstr (.vrmin m r a d) (reduce false identityMin m r a d (minMaxElem false)) s

/-- VRAND (R169). -/
def execVrand (m : BitVec 1) (r : BitVec 2) (a : BitVec 5) (d : BitVec 5) (s : State) : Host.Outcome State Fault Refusal :=
  runInstr (.vrand m r a d) (reduce false identityAnd m r a d (onBits fun _ x y => x &&& y)) s

/-- VROR (R169). -/
def execVror (m : BitVec 1) (r : BitVec 2) (a : BitVec 5) (d : BitVec 5) (s : State) : Host.Outcome State Fault Refusal :=
  runInstr (.vror m r a d) (reduce false identityOr m r a d (onBits fun _ x y => x ||| y)) s

/-- VRXOR (R169). -/
def execVrxor (m : BitVec 1) (r : BitVec 2) (a : BitVec 5) (d : BitVec 5) (s : State) : Host.Outcome State Fault Refusal :=
  runInstr (.vrxor m r a d) (reduce false identityOr m r a d (onBits fun _ x y => x ^^^ y)) s

/-- VPERM (R170). -/
def execVperm (m : BitVec 1) (b : BitVec 5) (a : BitVec 5) (d : BitVec 5) (s : State) : Host.Outcome State Fault Refusal :=
  runInstr (.vperm m b a d) (mixTwo m b a d fun n w x y i => if elemOf y w i < n then elemOf x w (elemOf y w i) else 0) s

/-- VSLUP (R170). -/
def execVslup (m : BitVec 1) (b : BitVec 5) (a : BitVec 5) (d : BitVec 5) (s : State) : Host.Outcome State Fault Refusal :=
  runInstr (.vslup m b a d) (slide m b a d fun _ w x k i => if k ≤ i then some (elemOf x w (i - k)) else none) s

/-- VSLDN (R170). -/
def execVsldn (m : BitVec 1) (b : BitVec 5) (a : BitVec 5) (d : BitVec 5) (s : State) : Host.Outcome State Fault Refusal :=
  runInstr (.vsldn m b a d) (slide m b a d fun n w x k i => some (if i + k < n then elemOf x w (i + k) else 0)) s

/-- VBCAST (R170). -/
def execVbcast (m : BitVec 1) (a : BitVec 5) (d : BitVec 5) (s : State) : Host.Outcome State Fault Refusal :=
  runInstr (.vbcast m a d) (do
    let t ← laneType anyType
    allocated [(d, 1)]
    portUse [] [d]
    ports [a]
    let x ← src a
    let old ← oldVec d
    let s ← get
    vdst d (permuteTo s.my m t.width old fun _ => some (bitsAt x 0 t.width))
    pure .seq) s

/-- VEXT; a masked form is refused with DETAIL 0x25 (R156, R170). -/
def execVext (m : BitVec 1) (b : BitVec 5) (a : BitVec 5) (d : BitVec 5) (s : State) : Host.Outcome State Fault Refusal :=
  runInstr (.vext m b a d) (do
    let t ← laneType anyType
    require (m == 0#1) cIllegal 0x25
    allocated [(a, 1)]
    portUse [a] []
    ports [b, d]
    let x ← vsrc a
    let k ← src b
    dst d (if k.toNat < 4096 / t.width then reduced t (elemOf x t.width k.toNat) else 0)
    pure .seq) s

/-- VINS (R170). -/
def execVins (m : BitVec 1) (b : BitVec 5) (a : BitVec 5) (d : BitVec 5) (s : State) : Host.Outcome State Fault Refusal :=
  runInstr (.vins m b a d) (do
    let t ← laneType anyType
    allocated [(d, 1)]
    portUse [] [d]
    ports [a, b]
    let (x, k) ← src2 a b
    let old ← oldVec d
    let s ← get
    vdst d (permuteTo s.my m t.width old fun i => if i = k.toNat then some (bitsAt x 0 t.width) else none)
    pure .seq) s

/-- VZIP (R170). -/
def execVzip (m : BitVec 1) (b : BitVec 5) (a : BitVec 5) (d : BitVec 5) (s : State) : Host.Outcome State Fault Refusal :=
  runInstr (.vzip m b a d) (mixTwo m b a d fun _ w x y i => elemOf (if i % 2 = 0 then x else y) w (i / 2)) s

/-- VUNZIP (R170). -/
def execVunzip (m : BitVec 1) (b : BitVec 5) (a : BitVec 5) (d : BitVec 5) (s : State) : Host.Outcome State Fault Refusal :=
  runInstr (.vunzip m b a d) (mixTwo m b a d fun n w x y j => if 2 * j < n then elemOf x w (2 * j) else elemOf y w (2 * j - n)) s

/-- VCOMP by m0; a masked form is refused with DETAIL 0x25 (R156, R170). -/
def execVcomp (m : BitVec 1) (a : BitVec 5) (d : BitVec 5) (s : State) : Host.Outcome State Fault Refusal :=
  runInstr (.vcomp m a d) (do
    let t ← laneType anyType
    require (m == 0#1) cIllegal 0x25
    allocated [(a, 1), (d, 1)]
    portUse [a] [d]
    let x ← vsrc a
    let s ← get
    let n := 4096 / t.width
    let es := ((List.range n).filter fun i => s.my.active 1#1 i).map fun i => elemOf x t.width i
    vdst d (vecOf t.width (es ++ List.replicate (n - es.length) 0))
    pure .seq) s

end Sys2Proof.Machine
end

