-- ==== Sys2Proof/Machine/Groups.lean ====
section
/-! DEFINITION. Collective groups: ST.REP, CGJOIN, CGLEAVE, COLL, CLOGR and the steps of the collective engine
(R411, R412, R415 to R423).
Readings of the spec that this file takes: DEDUCED, log entry 24. -/

namespace Sys2Proof.Machine

/-! ### Groups -/

def State.setGroup (s : State) (h : Nat) (g : Group) : State := { s with fabric := { s.fabric with groups := put s.fabric.groups h g } }

/-- The group slot becomes free. -/
def State.freeGroup (s : State) (h : Nat) : State := { s with fabric := { s.fabric with groups := erase s.fabric.groups h } }

/-- The group that a handle names for the strand's tenant (R410). -/
def groupAt (h : Word) : M Group := do
  let s ← get
  match find s.fabric.groups h.toNat with
  | some g => if g.tenant = s.my.tenant then pure g else raise cIllegal 0xA1
  | none => raise cIllegal 0xA1

/-- Peer number of a rank. -/
def Group.peer (g : Group) (r : Nat) : Nat := g.roster.getD r 0

/-- Live ranks other than this package's, rising. -/
def Group.others (g : Group) : List Nat := g.mask.filter fun r => r != g.rank

/-- A set of ranks as a number. -/
def maskNat (l : List Nat) : Nat := (l.map fun r => 2 ^ r).foldl (· + ·) 0

/-- A rank put into a rising list. -/
def insertRank (r : Nat) : List Nat → List Nat
  | [] => [r]
  | x :: t => if r < x then r :: x :: t else if r = x then x :: t else x :: insertRank r t

/-- The group's state in AREA (R416): MASK, HEAD, GGEN and LIVE. -/
def Group.areaBytes (g : Group) : List Byte :=
  leBytes 512 (maskNat g.mask) ++ leBytes 8 g.head ++ leBytes 4 g.ggen ++ leBytes 2 g.mask.length

/-- The engine keeps a changed group, and writes its state to AREA with a release at system scope (R416). -/
def State.keepGroup (s : State) (h : Nat) (g : Group) : State := (s.setGroup h g).homeWrite (g.area + 2048) g.areaBytes

/-- The collective that is at the head, or the next one. -/
def Group.next (g : Group) : Nat := match g.queue.head? with | some c => c.seq | none => g.head

/-- The engine sends a contribution, a leave or a decision to members of other packages, in request packets (R394, R417, R419). -/
def State.tell (s : State) (g : Group) (ranks : List Nat) (m : Nat → Option Contribution × Option CollDecision) : State :=
  ranks.foldl (fun s r =>
    let f := s.fabric
    let p := m r
    ({ s with fabric := { f with messages := f.messages ++ [(⟨g.peer r, g.gid, p.1, p.2⟩ : CollMsg)], nextPacket := f.nextPacket + 1 } } : State).transmitBody
      (g.peer r) 1 (Config.packetBody f.nextPacket)) s

/-- This package's member leaves at a boundary: every other live member is told, with the first collective that goes without it, and
the handle is free (R417). -/
def State.departs (s : State) (h : Nat) (g : Group) : State :=
  let bye : Contribution :=
    { rank := g.rank, seq := g.next, desc := [], leaves := false, idle := true, asksIn := false, poisoned := false, fault := none, bytes := [] }
  (s.tell g g.others fun _ => (some bye, none)).freeGroup h

/-! ### ST.REP (R411, R412) -/

/-- Copies of data sent to the live members but this one, in rising rank (R411). -/
def State.replicate (s : State) (h : Nat) (g : Group) (es : List Extent) (bs : List Byte) : State :=
  g.others.foldl (fun s r =>
    (es.foldl (fun (p : State × List Byte) e =>
      (p.1.send p.1.me.1 p.1.me.2 ((g.peer r + 1) * 2 ^ 52 + keyPa e.key) (word e.va) (p.2.take e.len) e.len (.rep h), p.2.drop e.len)) (s, bs)).1) s

/-- The destination lies in one page (R411). -/
def onePage (e : List Extent) (n : Nat) : M Unit := do
  let s ← get
  match e.head? with
  | none => pure ()
  | some x =>
    match s.translate s.space x.va with
    | (.ok t, _) => require (decide (x.va + n ≤ t.va + t.size)) cScope 0 (word (t.va + t.size)) true
    | (.error d, _) => raise cPage d.1 (word x.va) true

/-- ST.REP (R411). -/
def execStRep (b : BitVec 5) (a : BitVec 5) (d : BitVec 5) (s : State) : Host.Outcome State Fault Refusal :=
  runInstr (.stRep b a d) (do
    ports [b]
    let p ← base a
    let q ← base d
    let w ← src b
    let n := bitsAt w 0 13
    let h := bitsAt w 58 6
    fabricOk (bitsAt w 13 44 == 0 && decide (1 ≤ n) && decide (n ≤ 4096))
    let s ← get
    if s.fabric.present then
      let _ ← groupAt (word h)
    -- a poisoned byte raises at the read, which comes after the other checks
    let _ ← check { read := true, plain := true, localOnly := true, unread := true } [(p, 0, n)]
    let ds ← check { write := true, plain := true, rep := true, posted := true } [(q, 0, n)]
    onePage ds.flatten n
    let g ← groupAt (word h)
    let va := word ((ds.flatten.head?.map Extent.va).getD 0)
    let peers := g.others.map g.peer
    require (peers.all s.fabric.reachable) cScope 0x11 va true
    if peers.any s.fabric.stopped then stall
    let own := ds.flatten.map fun e => { e with key := keyPa e.key, mode := 0 }
    let self := w.getLsbD 57
    if self then
      require (!(own.any fun e => inPhaseWindow e.key)) cPerm 0x20 va true
      require (!(own.any fun e => (List.range e.len).any fun i => s.isDerived (e.key + i))) cPerm 0x22 va true
    let es ← check { read := true, plain := true, localOnly := true } [(p, 0, n)]
    let bs ← readExts true es
    change fun s => s.replicate h g ds.flatten bs.flatten
    if self then performBytes false own bs.flatten
    pure .seq) s

/-! ### CGJOIN and CGLEAVE (R415, R417, R422) -/

/-- A descriptor of CGJOIN (R415). -/
def joinOk (bs : List Byte) : Bool :=
  let f := recField bs
  f 0 8 != 0 && decide (1 ≤ f 8 2) && decide (f 8 2 ≤ 4096) && decide (f 10 2 < f 8 2) && decide (f 12 1 ≤ 1) && f 13 3 == 0
    && f 16 8 % 4 == 0 && f 24 8 % 4096 == 0 && f 24 8 / 2 ^ 56 == 0 && decide (1 ≤ f 32 4) && decide (f 32 4 ≤ 1000000)
    && f 36 4 == 0 && f 40 8 % 8 == 0 && f 48 8 == 0 && f 56 8 == 0

/-- CGJOIN (R415, R422). -/
def execCgjoin (a : BitVec 5) (d : BitVec 5) (s : State) : Host.Outcome State Fault Refusal :=
  runInstr (.cgjoin a d) (do
    let p ← base a
    let bs ← fabricDescriptor p
    fabricOk (joinOk bs)
    let f := recField bs
    let n := f 8 2
    let rs ← load (word (f 16 8)) 0 (4 * n)
    let roster := (List.range n).map fun i => recField rs (4 * i) 4
    fabricOk (roster.all fun p => decide (p < 2 ^ 18))
    let es ← check { read := true, write := true, localOnly := true } [(word (f 24 8), 0, 4096)]
    let ms ← check { write := true } [(word (f 40 8), 0, 8)]
    fabricPresent
    fresh
    release 5
    let s ← get
    match (List.range 64).find? fun k => !listed s.fabric.groups k with
    | none => dst d (word (2 ^ 63 + 1))
    | some k =>
      change fun t => t.setGroup k
        { gid := word (f 0 8), tenant := s.my.tenant, members := n, rank := f 10 2, roster, area := (es.flatten.map Extent.key).headD 0
          mbox := ms.flatten, tmo := f 32 4, spare := f 12 1 == 1, active := false, mask := [], head := 0, since := 0, ggen := 0
          leaving := false, queue := [], parts := [], given := none, removed := [], interval := s.tick, decision := none, leavers := [], spares := [] }
      dst d (word k)
    pure .seq) s

/-- CGLEAVE: the member leaves at the next boundary, at once where nothing is queued (R417). -/
def execCgleave (a : BitVec 5) (s : State) : Host.Outcome State Fault Refusal :=
  runInstr (.cgleave a) (do
    ports [a]
    let h ← src a
    let _ ← groupAt h
    release 5
    let g ← groupAt h
    change fun s => if g.queue.isEmpty then s.departs h.toNat g else s.setGroup h.toNat { g with leaving := true }
    pure .seq) s

/-! ### COLL (R418, R424) -/

/-- Fields of a collective's descriptor. -/
def Coll.op (c : Coll) : Nat := descField c.desc 0 1 % 16
def Coll.rop (c : Coll) : Nat := descField c.desc 1 1 % 4
def Coll.root (c : Coll) : Nat := descField c.desc 4 2
def Coll.ty (c : Coll) : ETy := (eTyOf (descField c.desc 2 1)).getD (.nat 64)
def Coll.count (c : Coll) : Nat := descField c.desc 24 4
/-- Bytes of one contribution's part. -/
def Coll.bytes (c : Coll) : Nat := c.count * (c.ty.width / 8)
def Coll.srcVa (c : Coll) : Word := word (descField c.desc 8 8)
def Coll.dstVa (c : Coll) : Word := word (descField c.desc 16 8)
def Coll.crecVa (c : Coll) : Word := word (descField c.desc 32 8)

/-- Bytes that a member reads and writes (R418). -/
def Coll.srcLen (c : Coll) (n rank : Nat) : Nat :=
  match c.op with
  | 0 => c.bytes
  | 1 => c.bytes
  | 2 => n * c.bytes
  | 3 => if rank = c.root then c.bytes else 0
  | _ => 0

def Coll.dstLen (c : Coll) (n : Nat) : Nat :=
  match c.op with
  | 0 => c.bytes
  | 1 => n * c.bytes
  | 2 => c.bytes
  | 3 => c.bytes
  | _ => 0

/-- A descriptor of COLL in a group of n members (R418). -/
def collOk (bs : List Byte) (n : Nat) : Bool :=
  let f := recField bs
  let op := f 0 1
  decide (op ≤ 4) && decide (f 1 1 ≤ 2) && (op == 0 || op == 2 || f 1 1 == 0)
    && (match eTyOf (f 2 1) with
        | some (.flt .f32) => true
        | some (.flt .bf16) => true
        | some (.flt .f64) => true
        | some (.int w) => w == 32 || w == 64
        | some (.nat w) => w == 32 || w == 64
        | _ => false)
    && f 3 1 == 0 && (if op = 3 then decide (f 4 2 < n) else f 4 2 == 0) && f 6 2 == 0
    && (op == 4 || (f 8 8 / 2 ^ 56 == 0 && f 16 8 / 2 ^ 56 == 0))
    && (if op = 4 then f 24 8 == 0 else decide (1 ≤ f 24 8) && decide (f 24 8 < 2 ^ 32))
    && f 32 8 % 16 == 0 && decide (f 40 1 ≤ 1) && decide (f 41 1 < 32) && f 42 6 == 0 && f 48 8 == 0 && f 56 8 == 0

/-- The checks of a COLL: descriptor, extents, R408, R406, and the stall of R407; the collective with the sequence number it would take. -/
def collCheck (p : Word) (h : Word) : M (Group × Coll) := do
  fabricPresent
  let g ← groupAt h
  let bs ← fabricDescriptor p
  fabricOk (collOk bs g.members)
  let s ← get
  let c : Coll := { desc := wordsOf bs 8, seq := g.head, core := s.me.1, tenant := s.my.tenant }
  let _ ← check { read := true, localOnly := true } [(c.srcVa, 0, c.srcLen g.members g.rank)]
  let _ ← check { write := true, localOnly := true } [(c.dstVa, 0, c.dstLen g.members)]
  -- CREC may lie in host memory too: mode 00 is asked of SRC and DST alone
  let _ ← check { write := true } [(c.crecVa, 0, 16)]
  fresh
  let s ← get
  if (g.others.map g.peer).any s.fabric.stopped then stall
  pure (g, c)

/-- The collective queued; HEAD counts on (R418). -/
def State.queueColl (s : State) (h : Nat) (g : Group) (c : Coll) : State :=
  s.keepGroup h { g with queue := g.queue ++ [c], head := g.head + 1 }

/-- COLL (R418). -/
def execColl (b : BitVec 5) (a : BitVec 5) (d : BitVec 5) (s : State) : Host.Outcome State Fault Refusal :=
  runInstr (.coll b a d) (do
    ports [b]
    let p ← base a
    let h ← src b
    let (g, c) ← collCheck p h
    if 16 ≤ g.queue.length then stall
    release 5
    change fun s => s.queueColl h.toNat g c
    dst d (word c.seq)
    pure .seq) s

/-- The checks of the COLL that a kick word names (R424). -/
def kickedColl (w : Word) : M (Group × Coll) := do
  fabricOk (bitsAt w 50 8 == 0)
  collCheck (word (bitsAt w 0 50 * 64)) (word (bitsAt w 58 6))

/-- A kick at the collective engine waits where the COLL that it names would wait in its checks, for a stopped dimension too (R407). -/
def collReady (w : Word) : M Unit := fun s =>
  match kickedColl w s with
  | .error (.trap _ _) => .ok ((), s)
  | .error x => .error x
  | .ok _ => .ok ((), s)

/-- The status of a kick at the collective engine and what it queues (R424). -/
def State.kickColl (s : State) (w : Word) : Nat × State :=
  match kickedColl w s with
  | .error (.trap _ found) => (2, found.foldl (fun s f => s.keepFinding s.me.1 s.me.2 f) s)
  | .error _ => (2, s)
  | .ok ((g, c), t) => if 16 ≤ g.queue.length then (1, s) else (0, t.queueColl (bitsAt w 58 6) g c)

/-! ### The collective engine (R419, R420) -/

/-- Element i of a contribution. -/
def elementAt (bs : List Byte) (w i : Nat) : Nat := leNat ((bs.drop (w / 8 * i)).take (w / 8))

/-- Depth of the tree over m leaves: the least k with m ≤ 2^k. -/
def levelsOf (m : Nat) : Nat := if m ≤ 1 then 0 else Nat.log2 (m - 1) + 1

/-- Contributions reduced element by element by the tree of R38 over the included members (R419). -/
def reduceParts (t : ETy) (rop : Nat) (parts : List (List Byte)) (n : Nat) : List Byte :=
  let k := levelsOf parts.length
  let id := match rop with | 0 => identitySum t | 1 => identityMax t | _ => identityMin t
  let f := match rop with | 0 => addElem .rne t | 1 => minMaxElem true t | _ => minMaxElem false t
  (List.range n).flatMap fun i =>
    let leaves := parts.map fun p => elementAt p t.width i
    leBytes (t.width / 8) (tree f k (leaves ++ List.replicate (2 ^ k - parts.length) id)).1

/-- The engine as an agent of a group's collective, and its translation of a collective's addresses (R307). -/
def State.collWho (s : State) (h : Nat) : Who :=
  { core := collCore, agent := h, interval := match find s.fabric.groups h with | some g => g.interval | none => 0 }

def State.collSpace (s : State) (c : Coll) : Space := { bind := (s.bindOf c.core).getD 0, tenant := c.tenant, tlb := .none }

/-- The engine's check of an extent at its work; the write of a completion record is not plain and meets no record (R206, R307,
R419). -/
def State.collExtent (s : State) (h : Nat) (c : Coll) (write plain : Bool) (va : Word) (n : Nat) : Except Trap (List Extent) × State :=
  match checkMany (s.collWho h) (s.collSpace c) { read := !write, write, plain, localOnly := plain } [(va, 0, n)] s {} [] with
  | .ok (out, _) s => (.ok out.flatten, s)
  | .trap t s => (.error t, s)
  | .wait s => (.ok [], s)

/-- The engine reads its SRC at the home slices; bad data that it consumes kills the core that holds it (R150, R419). -/
def State.collRead (s : State) (es : List Extent) : State :=
  (es.filterMap s.badData).foldl (fun s n => s.killCore n.core) (es.foldl (fun s e => s.homeRead e.key e.len) s)

/-- The engine records its accesses at the homes, for as long as the collective goes on (R204, R307). -/
def State.collNote (s : State) (h : Nat) (write : Bool) (es : List Extent) : State :=
  es.foldl (fun s e => if isStore e.key then s else s.recordHome collCore e.key e.len ⟨h, write, (s.collWho h).interval⟩) s

/-- The write of a collective's DST waits (R303). -/
def State.dstWaits (s : State) (h : Nat) (g : Group) (c : Coll) : Bool :=
  match checkMany (s.collWho h) (s.collSpace c) { write := true, plain := true, localOnly := true } [(c.dstVa, 0, c.dstLen g.members)] s {} [] with
  | .wait _ => true
  | _ => false

/-- The collective at the head of a group's queue waits for an impression, or to write its DST (R303, R370). -/
def State.collWaits (s : State) (h : Nat) (g : Group) (c : Coll) : Bool :=
  s.dstWaits h g c ||
    match checkMany (s.collWho h) (s.collSpace c) { read := true, plain := true, localOnly := true }
        [(c.srcVa, 0, c.srcLen g.members g.rank)] s {} [] with
    | .wait _ => true
    | _ => false

/-- A member's contribution to a collective, as it has arrived. -/
def Group.partOf (g : Group) (seq r : Nat) : Option Contribution := g.parts.find? fun p => p.rank == r && p.seq == seq

/-- This package's member is the lowest live rank, which decides (R419). -/
def Group.leads (g : Group) : Bool := g.mask.head? == some g.rank

/-- Every live member's contribution to the head has arrived where it is decided. -/
def Group.complete (g : Group) : Bool :=
  g.active && g.leads && (match g.queue.head? with | some c => g.others.all fun r => (g.partOf c.seq r).isSome | none => false)

/-- This member's contribution to the head has yet to leave for the member that decides, another one (R419). -/
def Group.gives (g : Group) : Bool :=
  g.active && !g.leads && (match g.queue.head?, g.mask.head? with | some c, some r => g.given != some (c.seq, r) | _, _ => false)

/-- CREC (R419). -/
def crecBytes (status cause excl ggen seq : Nat) : List Byte :=
  leBytes 1 status ++ leBytes 1 cause ++ leBytes 2 excl ++ leBytes 4 ggen ++ leBytes 8 seq

/-- A log entry (R421). -/
def logBytes (ggen : Nat) (c : Coll) (status : Nat) (crc : Nat) (excl : List Nat) : List Byte :=
  leBytes 8 c.seq ++ leBytes 4 ggen ++ leBytes 1 status ++ [0, 0, 0] ++ bytesOfWords c.desc ++ leBytes 8 crc
    ++ leBytes 2 excl.length ++ ((excl ++ List.replicate 8 0xFFFF).take 8).flatMap (leBytes 2) ++ List.replicate 22 0

/-- The bytes that the DST of a rank takes: those of each piece, or none where the piece is poisoned. -/
def collResult (g : Group) (rank : Nat) (c : Coll) (inc : List (Nat × List Byte)) : List (Option (List Byte)) :=
  let parts := inc.map Prod.snd
  match c.op with
  | 0 => [some (reduceParts c.ty c.rop parts c.count)]
  | 1 => (List.range g.members).map fun r => (inc.find? fun p => p.1 == r).map fun p => p.2
  | 2 => [some (((reduceParts c.ty c.rop parts (g.members * c.count)).drop (rank * c.bytes)).take c.bytes)]
  | 3 => [((inc.find? fun p => p.1 == c.root).map fun p => p.2)]
  | _ => []

/-- Pieces of a result written over DST; a missing piece becomes a poisoned range (R420). -/
def State.writePieces (s : State) (es : List Extent) (n : Nat) (ps : List (Option (List Byte))) : State :=
  let bytes := ps.flatMap fun p => match p with | some b => b | none => List.replicate n 0
  let s := s.writeOver es bytes
  let keys := es.flatMap fun e => (List.range e.len).map fun i => e.key + i
  (ps.zipIdx).foldl (fun s p =>
    match p.1 with
    | some _ => s
    | none => ((keys.drop (p.2 * n)).take n).foldl (fun s k => s.poisonRange k 1) s) s

/-- The members of a group at a boundary: those go that leave before the next collective, spares come, and each change of MASK counts
GGEN (R417, R422). A member that leaves is no failure: no event kind 9. -/
def State.boundary (s : State) (h : Nat) (g : Group) (come : List Nat) : State :=
  let gone := ((g.leavers.filter fun l => decide (l.2 ≤ g.next)).map Prod.fst).filter fun r => g.mask.contains r && r != g.rank
  let g1 := { g with
    mask := g.mask.filter fun r => !gone.contains r, ggen := g.ggen + gone.length
    leavers := g.leavers.filter fun l => decide (g.next < l.2), parts := g.parts.filter fun p => !gone.contains p.rank }
  let come := come.filter fun r => !g1.mask.contains r
  let g2 := { g1 with mask := come.foldl (fun m r => insertRank r m) g1.mask, ggen := g1.ggen + come.length
                      spares := g1.spares.filter fun r => !come.contains r }
  let s := if gone.isEmpty && come.isEmpty then s.setGroup h g2 else s.keepGroup h g2
  let s := come.foldl (fun s r => s.fabricEvent 10 { peer := some (g2.peer r), group := h, rank := r }) s
  if g2.leaving && g2.queue.isEmpty then s.departs h g2 else s

/-- What this package's memory gives to a collective: its SRC, whether a byte of it is poisoned, and the cause of a fault of its SRC or
DST, a conflict too (R307, R419, R420). With it the engine's interval stands on both: the R of its reads, and the W of the write that it has
checked and makes when the collective is decided (DEDUCED, log entry 24). -/
def State.ownPart (s : State) (h : Nat) (g : Group) (c : Coll) : Contribution × State :=
  let (src, s) := s.collExtent h c false true c.srcVa (c.srcLen g.members g.rank)
  let (dst, s) := s.collExtent h c true true c.dstVa (c.dstLen g.members)
  let es := match src with | .ok es => es | .error _ => []
  let s := (s.collRead es).collNote h false es
  let s := match src, dst with | .ok _, .ok ds => s.collNote h true ds | _, _ => s
  let poisoned := (match src with | .error t => t.code == cPoison | .ok _ => false)
    || es.any fun e => (List.range e.len).any fun i => s.poisonedHome (e.key + i)
  let fault := match src, dst with
    | .error t, _ => if t.code = cPoison then none else some t.code
    | _, .error t => some t.code
    | _, _ => none
  ({ rank := g.rank, seq := c.seq, desc := c.desc, leaves := false, idle := false, asksIn := false, poisoned, fault
     bytes := es.flatMap fun e => memRead s.mem e.key e.len }, s)

/-- This package's contribution leaves for the lowest live rank (R419). -/
def State.giveOwn (s : State) (h : Nat) : State :=
  match find s.fabric.groups h with
  | none => s
  | some g =>
    match g.queue.head?, g.mask.head? with
    | some c, some r =>
      if !g.gives || s.collWaits h g c then s
      else
        let (p, s) := s.ownPart h g c
        let g := (find s.fabric.groups h).getD g
        (s.setGroup h { g with given := some (c.seq, r) }).tell g [r] fun _ => (some p, none)
    | _, _ => s

/-- The decision of the lowest live rank over every member's contribution, but for the pieces of the result; with it the contributions
included (R419, R420). Descriptors differ in the fields that define the collective, OP, ROP, TYPE, ROOT and COUNT; a member's own fault is
every member's result, with the lowest rank's cause (DEDUCED, log entry 24). -/
def Group.decide (g : Group) (c : Coll) (own : Contribution) : CollDecision × List (Nat × List Byte) :=
  let part := fun (r : Nat) => if r = g.rank then some own else g.partOf c.seq r
  let got := g.mask.filterMap part
  let bad := (got.filter fun p => p.poisoned).map fun p => p.rank
  let inc := (got.filter fun p => !p.poisoned).map fun p => (p.rank, p.bytes)
  let excluded := (List.range g.members).filter fun r => g.removed.contains r || bad.contains r
  let differs := fun (p : Contribution) => p.desc.getD 0 0 != c.desc.getD 0 0 || p.desc.getD 3 0 != c.desc.getD 3 0
  let cause := (got.filterMap fun p => p.fault).head?
  let status : Nat :=
    if got.any differs then 2
    else if c.op = 3 ∧ !(inc.any fun p => p.1 == c.root) then 3
    else if cause.isSome then 4
    else if excluded.isEmpty then 0 else 1
  ({ seq := c.seq, ggen := g.ggen, status, cause := if status = 4 then cause.getD 0 else 0, excluded, removed := g.removed
     leavers := (got.filter fun p => p.leaves).map fun p => p.rank, spares := g.spares, pieces := [] }, inc)

/-- A decided collective at a member: result, log, completion record, DEC, and the boundary after it, with which the engine's interval ends (R307,
R417, R419 to R422). A fault or a conflict that the write of DST meets only now makes STATUS 4 of it here (DEDUCED, log entry 24). -/
def State.finishColl (s : State) (h : Nat) (g : Group) (c : Coll) (rest : List Coll) (d : CollDecision) : State :=
  let (dst, s) := s.collExtent h c true true c.dstVa (c.dstLen g.members)
  let es := match dst with | .ok es => es | _ => []
  let d := match dst with
    | .error t => if d.status ≤ 1 then { d with status := 4, cause := t.code } else d
    | .ok _ => d
  let s := if d.status ≤ 1 ∧ !es.isEmpty then s.writePieces es c.bytes d.pieces else s
  let crc := crc64 0 (es.flatMap fun e => memRead s.mem e.key e.len)
  let s := s.homeWrite (g.area + 128 * (c.seq % 16)) (logBytes d.ggen c d.status crc d.excluded)
  let s := match s.collExtent h c true false c.crecVa 16 with
    | (.ok es, s) => s.writeOver es (crecBytes d.status d.cause d.excluded.length d.ggen c.seq)
    | (.error _, s) => s
  let s := if descField c.desc 40 1 % 2 = 1
    then s.post (.decArrival c.core (descField c.desc 41 1 % 32) 1 c.core ((s.bindOf c.core).getD 0)) else s
  let g := { g with
    queue := rest, removed := [], interval := g.interval + 1, decision := none, parts := g.parts.filter fun p => p.seq != c.seq
    leavers := g.leavers ++ d.leavers.map fun r => (r, c.seq + 1) }
  s.boundary h g d.spares

/-- The lowest live rank decides the collective at the head, sends every member the decision with its result, and performs its own share
(R419). -/
def State.completeColl (s : State) (h : Nat) : State :=
  match find s.fabric.groups h with
  | none => s
  | some g =>
    match g.queue with
    | [] => s
    | c :: rest =>
      if !g.complete || s.collWaits h g c then s
      else
        let (own, s) := s.ownPart h g c
        let g := (find s.fabric.groups h).getD g
        let (d, inc) := g.decide c own
        let share := fun (r : Nat) => { d with pieces := if d.status ≤ 1 then collResult g r c inc else [] }
        (s.tell g g.others fun r => (none, some (share r))).finishColl h g c rest (share g.rank)

/-- A contribution, a leave, or a spare's request, arrives (R417, R419, R422); under this package's own rank it is the step in which its
contribution leaves. -/
def State.contribute (s : State) (h : Nat) (p : Contribution) : State :=
  match find s.fabric.groups h with
  | none => s
  | some g =>
    if p.rank = g.rank then s.giveOwn h
    else if p.asksIn then (if p.rank < g.members ∧ !g.mask.contains p.rank then s.setGroup h { g with spares := insertRank p.rank g.spares } else s)
    else if !g.mask.contains p.rank then s
    else if p.idle then s.boundary h { g with leavers := g.leavers ++ [(p.rank, p.seq)] } []
    else if (g.partOf p.seq p.rank).isNone then s.setGroup h { g with parts := g.parts ++ [p] }
    else s

/-- What the lowest live rank tells the others of a member that it has removed while no collective was in progress: a decision on no collective
(R420; DEDUCED, log entry 24). -/
def Group.removal (g : Group) (r : Nat) : CollDecision :=
  { seq := 2 ^ 64, ggen := g.ggen, status := 0, cause := 0, excluded := [], removed := [r], leavers := [], spares := [], pieces := [] }

/-- A member is excluded and removed: its MASK bit goes, GGEN counts, copies to it not yet performed are dropped, event
kind 9 (R412, R420). -/
def State.removeMember (s : State) (h r : Nat) : State :=
  match find s.fabric.groups h with
  | none => s
  | some g =>
    if !g.active || r = g.rank || !g.mask.contains r then s
    else
      -- an exclusion belongs to the collective in progress, if there is one
      let going := !g.queue.isEmpty || g.parts.any fun p => p.seq == g.head
      let g' := { g with mask := g.mask.filter fun x => x != r, ggen := g.ggen + 1, removed := if going then insertRank r g.removed else g.removed
                         parts := g.parts.filter fun p => p.rank != r }
      let s := s.keepGroup h g'
      let s := if g'.leads && !going then s.tell g' g'.others fun _ => (none, some (g'.removal r)) else s
      let s := { s with fabric := { s.fabric with packets := s.fabric.packets.filter fun p =>
        !(match p.kind with | .rep k => k == h && !p.performed && keyPeer p.key == g.peer r | _ => false) } }
      s.fabricEvent 9 { peer := some (g.peer r), group := h, rank := r }

/-- The decision of the lowest live rank, another member, reaches this one: the members that it has removed are removed here too, and the
collective that it decides completes, once the engine can write its DST (R419, R420). -/
def State.decided (s : State) (h : Nat) (d : CollDecision) : State :=
  match find s.fabric.groups h with
  | none => s
  | some g =>
    if !g.active || (g.leads && g.decision.isNone) then s
    else
      let s := d.removed.foldl (fun s r => s.removeMember h r) s
      match find s.fabric.groups h with
      | none => s
      | some g =>
        match g.queue with
        | [] => s
        | c :: rest =>
          if c.seq != d.seq then s
          else if d.status ≤ 1 && s.dstWaits h g c then s.setGroup h { g with decision := some d }
          else s.finishColl h g c rest d

/-- TMO of the first contribution to the collective at the head has passed without that of rank r (R420): at the lowest live rank, which has
them; of that rank itself, at a member whose contribution it has had without answering (DEDUCED, log entry 24). -/
def State.memberLate (s : State) (h r : Nat) : State :=
  match find s.fabric.groups h with
  | none => s
  | some g =>
    let late := if g.leads then (g.partOf g.next r).isNone && (!g.queue.isEmpty || g.parts.any fun p => p.seq == g.next)
      else g.given == some (g.next, r)
    if late then s.removeMember h r else s

/-- Bytes of the donor's area, which lies on another package: free values (DESIGN CHOICE, log entry 10). -/
def donorBytes (tick n : Nat) : List Byte := (List.range n).map fun i => Config.donorByte tick i

/-- Every rank has joined, or the survivors have admitted this spare (R415, R422). -/
def State.activate (s : State) (h : Nat) : State :=
  match find s.fabric.groups h with
  | none => s
  | some g =>
    if g.active then s
    else if g.spare then
      let bs := donorBytes s.tick 2576
      let mask := insertRank g.rank ((onesBelow g.members (recField bs 2048 512)).filter fun r => r != g.rank)
      let g := { g with active := true, mask, head := recField bs 2560 8, since := recField bs 2560 8, ggen := recField bs 2568 4 }
      (((s.setGroup h g).homeWrite g.area bs).homeWrite (g.area + 2576) (List.replicate 1520 0)).writeOver g.mbox (leBytes 8 g.ggen)
    else
      let g := { g with active := true, mask := List.range g.members, ggen := 1 }
      let s := (s.keepGroup h g).homeWrite (g.area + 2574) (List.replicate 1522 0)
      s.writeOver g.mbox (leBytes 8 1)

/-- The join is not completed: TMO has passed, or the rank that a spare names is live (R415, R422). -/
def State.refuseJoin (s : State) (h : Nat) (live : Bool) : State :=
  match find s.fabric.groups h with
  | none => s
  | some g =>
    if g.active then s
    else (s.writeOver g.mbox (leBytes 8 (2 ^ 63 + if live && g.spare then 3 else 2))).freeGroup h

/-! ### CLOGR (R423) -/

/-- CLOGR: the donor's result copied again, where its bytes are those the log names. -/
def execClogr (b : BitVec 5) (a : BitVec 5) (d : BitVec 5) (s : State) : Host.Outcome State Fault Refusal :=
  runInstr (.clogr b a d) (do
    ports [b, a]
    let (q, h) ← src2 b a
    fabricPresent
    let g ← groupAt h
    let s ← get
    if (q.toNat : Int) < (g.head : Int) - 16 ∨ g.since ≤ q.toNat then
      dst d 1
      pure .seq
    else
      let en := memRead s.mem (g.area + 128 * (q.toNat % 16)) 128
      let c : Coll := { desc := wordsOf ((en.drop 16).take 64) 8, seq := q.toNat, core := s.me.1, tenant := s.my.tenant }
      if 2 ≤ recField en 12 1 ∨ c.op = 2 ∨ c.op = 4 then
        dst d 2
        pure .seq
      else if g.others.isEmpty then
        dst d 4
        pure .seq
      else
        let bs := donorBytes s.tick (c.dstLen g.members)
        if crc64 0 bs ≠ recField en 80 8 then
          dst d 3
          pure .seq
        else
          let es ← check { write := true, plain := true, localOnly := true } [(c.dstVa, 0, c.dstLen g.members)]
          performBytes true es.flatten bs
          acquire 5
          dst d 0
          pure .seq) s

/-! ### The events -/

/-- GROUP_ACTIVE (R415, R416, R422). -/
def execGroupActive (s : State) : Host.Outcome State Fault Refusal :=
  onEvent (fun e => match e with | .groupActive h => some fun s => s.activate h | _ => none) s

/-- JOIN_TIMEOUT (R415, R422). -/
def execJoinTimeout (s : State) : Host.Outcome State Fault Refusal :=
  onEvent (fun e => match e with | .joinTimeout h live => some fun s => s.refuseJoin h live | _ => none) s

/-- COLLECTIVE_CONTRIBUTION (R419, R422). -/
def execCollectiveContribution (s : State) : Host.Outcome State Fault Refusal :=
  onEvent (fun e => match e with | .collectiveContribution h p => some fun s => s.contribute h p | _ => none) s

/-- MEMBER_TIMEOUT (R420). -/
def execMemberTimeout (s : State) : Host.Outcome State Fault Refusal :=
  onEvent (fun e => match e with | .memberTimeout h r => some fun s => s.memberLate h r | _ => none) s

/-- COLLECTIVE_COMPLETION (R419). -/
def execCollectiveCompletion (s : State) : Host.Outcome State Fault Refusal :=
  onEvent (fun e => match e with
    | .collectiveCompletion h none => some fun s => s.completeColl h
    | .collectiveCompletion h (some d) => some fun s => s.decided h d
    | _ => none) s

end Sys2Proof.Machine
end

