-- ==== Sys2Proof/Machine/HostEvents.lean ====
section
/-! DEFINITION. The host's side: BAR2, the coherent window, the rings, and the management registers (R352 to R363, R380).
A refused write returns an access error to its writer and changes nothing (R10).
Readings of the spec that this file takes: DEDUCED, log entry 27. -/

namespace Sys2Proof.Machine

/-- The key of a host address. -/
def hostKey (h : Nat) : Nat := 2 ^ 51 + h % 2 ^ 51

/-- BOOTST.READY. -/
def State.ready (s : State) : Bool := s.bar0.bootst.getLsbD 63

/-! ### BAR2 (R355) -/

/-- A byte that BAR2 may not write. -/
def State.refusesHost (s : State) (k : Nat) : Bool := inPhaseWindow k || s.isDerived k

/-- An event record of type 0x04 for a PA. -/
def State.memoryNote (s : State) (pa : Nat) (kind : Byte) : State :=
  s.hostEvent (eventBytes (leBytes 8 pa ++ [BitVec.ofNat 8 (pa / 2 ^ 37 % 4), kind]) 4)

/-- A host write: each byte at its home, after its L1 copies; refused bytes are discarded and reported. -/
def State.bar2Write (s : State) (pa : Nat) (bs : List Byte) : State :=
  if !s.ready || decide (2 ^ 39 < pa + bs.length) then s
  else
    let runs := runsOf (fun k => !s.refusesHost k) pa bs.length
    let bad := (List.range bs.length).find? fun i => s.refusesHost (pa + i)
    let s := runs.foldl (fun s r => s.homeWrite r.1 ((bs.drop (r.1 - pa)).take r.2)) s
    match bad with
    | some i => s.memoryNote (pa + i) 0x10
    | none => s

/-- A host read: M copies go home; a poisoned byte is reported. The data go to the host. -/
def State.bar2Read (s : State) (pa len : Nat) : State :=
  if !s.ready || decide (2 ^ 39 < pa + len) then s
  else
    let s := s.cores.foldl (fun t (e : Nat × Core) => if (t.partsIn e.1 pa len).any fun l => l.st == .m then t.recall e.1 pa len false else t) s
    let s := s.findBadIn none pa len
    match (List.range len).find? fun i => s.poisonedHome (pa + i) with
    | some i => s.memoryNote (pa + i) (Config.errorKind 2)
    | none => s

/-! ### The window (R358 to R361) -/

/-- What of a record lies outside [a, b). -/
def HomeRec.outside (h : HomeRec) (a b : Nat) : List HomeRec :=
  (if h.key < min (h.key + h.len) a then [{ h with len := min (h.key + h.len) a - h.key }] else [])
    ++ if max h.key b < h.key + h.len then [{ h with key := max h.key b, len := h.key + h.len - max h.key b }] else []

/-- A back-invalidation completes: no L1 and no L2 of the package holds a byte of the line, its records are dropped, its state
is N. -/
def State.backInvalidate (s : State) (host : Nat) : State :=
  let key := hostKey host / 64 * 64
  let s := s.recallAll key 64 true
  { s.setL2 key 64 (fun _ => true) (splitMap (s.l2Of key) key (key + 64) fun _ => []) with
    records := s.records.flatMap fun h => if h.key < key + 64 ∧ key < h.key + h.len then h.outside key (key + 64) else [h]
    winLines := erase s.winLines (hostLine key) }

/-- The line state makes the host's request wait for a back-invalidation (R359). -/
def State.needsBack (s : State) (host : Nat) (write : Bool) : Bool :=
  (s.windowLine (hostKey host)).isSome &&
    (match find s.winLines (hostLine (hostKey host)) with
     | some owned => owned || write
     | none => false)

/-- A host agent's request: after the back-invalidation it causes, where it causes one; a write is then performed (R359,
R361). Bytes stay within the request's line. -/
def State.hostRequest (s : State) (host : Nat) (write : Bool) (bs : List Byte) : State :=
  if s.needsBack host write then { s with queue := .backInvalidation host :: .hostWindowRequest host write bs :: s.queue }
  else if write then s.putBytes (hostKey host) (bs.take (64 - host % 64))
  else s

/-- The host's answer to a device request for a line (R358): release writes of hardware that waited for it are performed. -/
def State.cxlAnswer (s : State) (host : Nat) (exclusive : Bool) : State :=
  let line := host / 64
  if s.cxl.contains (line, exclusive) then
    let s := { s with cxl := s.cxl.erase (line, exclusive), winLines := put s.winLines line (exclusive || find s.winLines line == some true) }
    (s.sendMail s.mailWrites.length).gangsCheck
  else s

/-! ### Launch rings (R354) -/

/-- Ring k takes entries and holds one. -/
def State.ringReady (s : State) (k : Nat) : Bool :=
  let b := s.bar0
  decide (k < 16) && vget 0 b.lqten k != 0 && vget 0 b.lqsize k != 0 && vget 0 b.lqhead k != vget 0 b.lqtail k

/-- The key of the next entry of ring k. -/
def State.ringEntry (s : State) (k : Nat) : Nat :=
  hostKey ((vget 0 s.bar0.lqbase k).toNat + 64 * ((vget 0 s.bar0.lqhead k).toNat % 2 ^ (vget 0 s.bar0.lqsize k).toNat))

/-- The device's own accesses to n bytes of host memory: the requests for lines of the window that they lack, none where they lack none
(R358). -/
def State.hostLines (s : State) (key n : Nat) (exclusive : Bool) : Option State := s.needLines key n exclusive false

/-- What the next entry of ring k still lacks: the lines of its bytes, of its shape records, and that of its reply. -/
def State.ringLacks (s : State) (k : Nat) : Option State :=
  let e := s.ringEntry k
  let bs := memRead s.mem e 64
  (s.hostLines e 64 false).or
    ((if messageOk (wordsOf bs 4) then s.hostLines (hostKey (recField bs 32 8)) (64 * bitsAt ((wordsOf bs 4).getD 0 0) 36 7) false else none).or
      (s.hostLines (e + 40) 2 true))

/-- The reply written, with its flag, and LQHEAD advanced. -/
def State.ringReply (s : State) (k : Nat) (code : Nat) : State :=
  let s := s.homeWrite (s.ringEntry k + 40) [BitVec.ofNat 8 code, 1]
  { s with bar0 := { s.bar0 with lqhead := vset s.bar0.lqhead k (vget 0 s.bar0.lqhead k + 1) } }

/-- Dispatch hardware has an arrival or a ready slot to start before any message (R321). -/
def State.earlierDue (s : State) (core : Nat) : Bool :=
  let c := s.core core
  (!c.arrivals.isEmpty && !c.freeCtxs.isEmpty) || (s.readyTask core).isSome

/-- The next entry of ring k is launched as an AMSG from the host, after messages already waiting at its core (R321). A
message to a dead core is discarded, with no reply (R151). Lines of the window come first: the device takes those that it reads shared,
and owns that of the reply (R358). -/
def State.takeRing (s : State) (k : Nat) : State :=
  if !s.ringReady k then s
  else
    match s.ringLacks k with
    | some t => t
    | none =>
    let bs := memRead s.mem (s.ringEntry k) 64
    let ws := wordsOf bs 4
    let h := ws.getD 0 0
    let n := bitsAt h 36 7
    let target := coreAt (bitsAt h 56 6) (bitsAt h 51 5)
    -- reserved bytes that are not 0 make the entry malformed (R10; DESIGN CHOICE, log entry 27)
    if !messageOk ws || bs.drop 42 != List.replicate 22 0 then s.ringReply k 0xFE
    else if !s.bound target (bitsAt (vget 0 s.bar0.lqten k) 0 16) then s.ringReply k 0xFF
    else
      let c := s.core target
      if c.dead then { s with bar0 := { s.bar0 with lqhead := vset s.bar0.lqhead k (vget 0 s.bar0.lqhead k + 1) } }
      else if c.evicted || !c.amsgs.isEmpty || s.earlierDue target then s
      else
        let recs := memRead s.mem (hostKey (recField bs 32 8)) (64 * n)
        let r := s.launch target ws recs
        r.2.ringReply k r.1

/-! ### The event ring (R356, R357) -/

/-- The ring is enabled and not full. -/
def State.eventRoom (s : State) : Bool :=
  let n := s.bar0.eqsize.toNat
  n != 0 && (s.bar0.eqtail - s.bar0.eqhead).toNat != 2 ^ n

/-- Host messages of every die that have room go on (R327). -/
def State.drainHosts (s : State) : State := (List.range 4).foldl (fun s die => s.drainHost die 32) s

/-- Records that their sources hold enter the buffer, oldest first, while it has room beside the entries kept for start-up (R357). -/
def State.refill (s : State) : State :=
  let n := 1008 - s.eventHold.length
  { s with eventHold := s.eventHold ++ s.eventWait.take n, eventWait := s.eventWait.drop n }

/-- The oldest held record is written to the ring, then EQTAIL advances, which MSI-X vector 0 tells the host (R352, R356); waiting records,
host messages and gang completions follow on. A line of the window that the device does not own it takes first (R358). -/
def State.writeEvent (s : State) : State :=
  let s := s.drainHosts
  match s.eventHold with
  | [] => s
  | r :: t =>
    if !s.eventRoom then s
    else
      let b := s.bar0
      let key := hostKey (b.eqbase.toNat + 32 * (b.eqtail.toNat % 2 ^ b.eqsize.toNat))
      match s.hostLines key 32 true with
      | some t => t
      | none =>
        let s := s.homeWrite key r
        (({ s with eventHold := t, bar0 := { s.bar0 with eqtail := b.eqtail + 1 }, msix := s.msix ++ [0] } : State).refill.drainHosts).gangsCheck

/-! ### Management registers (R353, R357) -/

def State.setBar0 (s : State) (f : Bar0 → Bar0) : State := { s with bar0 := f s.bar0 }

/-- WINBASE: fixed by its first write with EN = 1. -/
def State.writeWinbase (s : State) (v : Word) : State :=
  if s.bar0.winbase.getLsbD 0 || bitsAt v 51 13 != 0 || bitsAt v 1 27 != 0 then s else s.setBar0 fun b => { b with winbase := v }

def State.writeEqbase (s : State) (v : Word) : State :=
  if bitsAt v 0 12 != 0 || bitsAt v 52 12 != 0 || s.bar0.eqsize != 0 then s else s.setBar0 fun b => { b with eqbase := v }

def State.writeEqsize (s : State) (v : Word) : State :=
  if v = 0 then s.setBar0 fun b => { b with eqsize := 0 }
  else if 6 ≤ v.toNat ∧ v.toNat ≤ 20 then s.setBar0 fun b => { b with eqsize := v, eqtail := 0, eqhead := 0 }
  else s

def State.writeLqbase (s : State) (k : Nat) (v : Word) : State :=
  if bitsAt v 0 12 != 0 || vget 0 s.bar0.lqten k != 0 then s else s.setBar0 fun b => { b with lqbase := vset b.lqbase k v }

def State.writeLqsize (s : State) (k : Nat) (v : Word) : State :=
  if (v != 0 && !(decide (4 ≤ v.toNat) && decide (v.toNat ≤ 16))) || vget 0 s.bar0.lqten k != 0 then s
  else s.setBar0 fun b => { b with lqsize := vset b.lqsize k v }

/-- LQTEN, by the overseer; the ring's indices return to 0. -/
def State.writeLqten (s : State) (k : Nat) (v : Word) : State :=
  if bitsAt v 16 48 != 0 then s
  else s.setBar0 fun b => { b with lqten := vset b.lqten k v, lqhead := vset b.lqhead k 0, lqtail := vset b.lqtail k 0 }

/-- The firmware image in use of a kind: 1 the root monitor of step 2, 2 the overseers of step 5, in the slot that the step's record
names (R379, R381). -/
def State.imageInUse (s : State) (kind : Nat) : List Byte :=
  let slot := (vget { outcome := 0, failures := 0, image := 0 } s.flash (if kind = 1 then 1 else 4)).image
  ((s.firmware.find? fun m => m.1 == kind && m.2.1 == slot).map fun m => m.2.2).getD []

/-- The attestation record (R380): the digest of an image is that of all its bytes, header and body (DEDUCED, log entry 8). -/
def State.attestation (s : State) : List Byte :=
  let bounds := (List.range 64).flatMap fun i => leBytes 8 (look 0 s.bounds i).toNat
  let body := bytesOfWords s.bar0.nonce.toList ++ leBytes 16 Config.serial.toNat ++ sm3 (s.imageInUse 1) ++ sm3 (s.imageInUse 2)
    ++ (sm3 bounds).take 16
  body ++ leBytes 64 (Config.sm2Sign body).toNat

/-- The record is written at ATTADDR; lines of the window that the device does not own it takes first, and the write comes again
(R358, R380). -/
def State.attest (s : State) (v : Word) : State :=
  match s.hostLines (hostKey s.bar0.attaddr.toNat) 192 true with
  | some t => t.post (.attnWrite 0x818 v)
  | none => s.homeWrite (hostKey s.bar0.attaddr.toNat) s.attestation

/-- ATTN: a part of the nonce; the write at 0x0818 has the record written at ATTADDR (R380). -/
def State.writeAttn (s : State) (offset : Nat) (v : Word) : State :=
  if offset < 0x800 ∨ 0x818 < offset ∨ offset % 8 ≠ 0 then s
  else
    let s := s.setBar0 fun b => { b with nonce := vset b.nonce ((offset - 0x800) / 8) v }
    if offset = 0x818 then s.attest v else s

/-- A register without an event of its own: ATTADDR; any other offset is an access error (R353). -/
def State.writeManagement (s : State) (offset : Nat) (v : Word) : State :=
  if offset = 0x820 ∧ bitsAt v 0 8 = 0 then s.setBar0 fun b => { b with attaddr := v } else s

/-! ### The events -/

/-- BAR2_WRITE (R355). -/
def execBar2Write (s : State) : Host.Outcome State Fault Refusal :=
  onEvent (fun e => match e with | .bar2Write pa bs => some fun s => s.bar2Write pa bs | _ => none) s

/-- BAR2_READ (R355). -/
def execBar2Read (s : State) : Host.Outcome State Fault Refusal :=
  onEvent (fun e => match e with | .bar2Read pa n => some fun s => s.bar2Read pa n | _ => none) s

/-- HOST_WINDOW_REQUEST (R359, R361). -/
def execHostWindowRequest (s : State) : Host.Outcome State Fault Refusal :=
  onEvent (fun e => match e with | .hostWindowRequest h w bs => some fun s => s.hostRequest h w bs | _ => none) s

/-- BACK_INVALIDATION (R359). -/
def execBackInvalidation (s : State) : Host.Outcome State Fault Refusal :=
  onEvent (fun e => match e with | .backInvalidation h => some fun s => s.backInvalidate h | _ => none) s

/-- CXL_CACHE_RESPONSE (R358, R362). -/
def execCxlCacheResponse (s : State) : Host.Outcome State Fault Refusal :=
  onEvent (fun e => match e with | .cxlCacheResponse h x => some fun s => s.cxlAnswer h x | _ => none) s

/-- LAUNCH_RING_ENTRY (R354). -/
def execLaunchRingEntry (s : State) : Host.Outcome State Fault Refusal :=
  onEvent (fun e => match e with | .launchRingEntry k => some fun s => s.takeRing k | _ => none) s

/-- EVENT_RING_WRITE (R356). -/
def execEventRingWrite (s : State) : Host.Outcome State Fault Refusal :=
  onEvent (fun e => match e with | .eventRingWrite => some State.writeEvent | _ => none) s

/-- WINBASE_WRITE (R357). -/
def execWinbaseWrite (s : State) : Host.Outcome State Fault Refusal :=
  onEvent (fun e => match e with | .winbaseWrite v => some fun s => s.writeWinbase v | _ => none) s

/-- EQBASE_WRITE (R357). -/
def execEqbaseWrite (s : State) : Host.Outcome State Fault Refusal :=
  onEvent (fun e => match e with | .eqbaseWrite v => some fun s => s.writeEqbase v | _ => none) s

/-- EQSIZE_WRITE (R357). -/
def execEqsizeWrite (s : State) : Host.Outcome State Fault Refusal :=
  onEvent (fun e => match e with | .eqsizeWrite v => some fun s => s.writeEqsize v | _ => none) s

/-- EQHEAD_WRITE (R356). -/
def execEqheadWrite (s : State) : Host.Outcome State Fault Refusal :=
  onEvent (fun e => match e with | .eqheadWrite v => some fun s => s.setBar0 fun b => { b with eqhead := v } | _ => none) s

/-- LQBASE_WRITE (R357). -/
def execLqbaseWrite (s : State) : Host.Outcome State Fault Refusal :=
  onEvent (fun e => match e with | .lqbaseWrite k v => some fun s => s.writeLqbase k v | _ => none) s

/-- LQSIZE_WRITE (R357). -/
def execLqsizeWrite (s : State) : Host.Outcome State Fault Refusal :=
  onEvent (fun e => match e with | .lqsizeWrite k v => some fun s => s.writeLqsize k v | _ => none) s

/-- LQTAIL_WRITE (R354). -/
def execLqtailWrite (s : State) : Host.Outcome State Fault Refusal :=
  onEvent (fun e => match e with
    | .lqtailWrite k v => some fun s => s.setBar0 fun b => { b with lqtail := vset b.lqtail k v }
    | _ => none) s

/-- LQTEN_WRITE (R353, R357). -/
def execLqtenWrite (s : State) : Host.Outcome State Fault Refusal :=
  onEvent (fun e => match e with | .lqtenWrite k v => some fun s => s.writeLqten k v | _ => none) s

/-- ATTN_WRITE (R380). -/
def execAttnWrite (s : State) : Host.Outcome State Fault Refusal :=
  onEvent (fun e => match e with | .attnWrite o v => some fun s => s.writeAttn o v | _ => none) s

/-- MANAGEMENT_REGISTER_WRITE (R353). -/
def execManagementRegisterWrite (s : State) : Host.Outcome State Fault Refusal :=
  onEvent (fun e => match e with | .managementRegisterWrite o v => some fun s => s.writeManagement o v | _ => none) s

end Sys2Proof.Machine
end

