-- ==== Sys2Proof/Machine/Impressions.lean ====
section
/-! DEFINITION. Impressions: registration, the impression engine's passes, and the impression instructions
(R364 to R377).
Readings of the spec that this file takes: DEDUCED, log entry 22. -/

namespace Sys2Proof.Machine

/-! ### Descriptors and extents (R364, R365) -/

/-- A descriptor meets R364 and R365. -/
def impressionOk (bs : List Byte) : Bool :=
  let f := recField bs
  let rows := f 16 4
  let cols := f 20 4
  let shn := f 27 1
  let ifmt := f 25 1
  let planes := decide (24 ≤ ifmt) && decide (ifmt ≤ 30)
  f 0 8 / 2 ^ 56 == 0 && decide (1 ≤ rows) && decide (rows ≤ 2 ^ 24)
    && cols % 32 == 0 && decide (32 ≤ cols) && decide (cols ≤ 2 ^ 20) && decide (rows * cols ≤ 2 ^ 32)
    && [16, 17, 18, 19].contains (f 24 1) && (planes || ifmt == 20 || ifmt == 21)
    && f 26 1 / 8 == 0 && f 26 1 / 2 != 3 && decide (1 ≤ shn) && decide (shn ≤ 16) && f 28 4 == 0
    && f 32 8 / 2 ^ 56 == 0 && f 48 8 / 2 ^ 56 == 0
    && !(f 26 1 % 2 == 1 && planes && (rows + shn - 1) / max 1 shn % 8 != 0)

/-- An impression of a descriptor, not yet registered (R366, R373). -/
def impressionOf (bs : List Byte) (tenant gang : Nat) : Impression :=
  { desc := wordsOf bs 8, tenant, gang, policy := recField bs 26 1 / 2 % 4, blocks := [], faulted := none, stale := false
    nan := false, sat := false, amax := 0, master := [], codes := [], scales := [] }

/-- The n bytes at an address reached from a base, as an extent to be checked: beyond either end of the space R72 gives its EVAL. -/
def spanAt (base v : Int) (n : Nat) : Word × Int × Nat := (word base.toNat, v - base, n)

/-- The rows of the master as extents to be checked. -/
def Impression.masterSpans (m : Impression) : List (Word × Int × Nat) :=
  (List.range m.rows).map fun (i : Nat) => spanAt m.mbase (m.mbase + (i : Int) * m.mrstr) (m.cols * m.eb)

/-- Bytes of one shard's codes. -/
def Impression.shardBytes (m : Impression) : Nat := if m.planes = 0 then m.lr * m.cols else m.planes * (m.lr * m.cols / 8)

/-- The shards' codes. -/
def Impression.codeSpans (m : Impression) : List (Word × Int × Nat) :=
  (List.range m.shn).map fun (i : Nat) => spanAt m.ibase (m.ibase + (i : Int) * m.shstep) m.shardBytes

/-- The shards' scales. -/
def Impression.scaleSpans (m : Impression) : List (Word × Int × Nat) :=
  (List.range m.shn).map fun (i : Nat) => spanAt m.sbase (m.sbase + (i : Int) * m.sstep) (m.lr * m.bpr)

/-- Two extents share a physical byte. -/
def Extent.overlaps (e f : Extent) : Bool := decide (e.key < f.key + f.len) && decide (f.key < e.key + e.len)

/-- Some two of a list of extents share a physical byte. -/
def anyOverlap : List Extent → Bool
  | [] => false
  | e :: t => (t.any fun f => e.overlaps f) || anyOverlap t

/-- Extents of an impression: master, codes, scales. -/
def Impression.extents (m : Impression) : List Extent := m.master ++ m.codes ++ m.scales

/-- Ranges that a home slice watches: one for each piece of an extent (DEDUCED, log entry 13). -/
def State.watched (s : State) (g : Nat) : Nat :=
  ((s.impressions.flatMap fun e => e.2.extents).filter fun x => homeGalley x.key == g).length

/-- The ranges of a new impression find no room in a watch table (R373). -/
def State.watchFull (s : State) (m : Impression) : Bool :=
  let gs := m.extents.map fun x => homeGalley x.key
  gs.eraseDups.any fun g => decide (256 < s.watched g + gs.count g)

/-! ### VREG (R373) -/

/-- VREG (R373). -/
def execVreg (a : BitVec 5) (d : BitVec 5) (s : State) : Host.Outcome State Fault Refusal :=
  runInstr (.vreg a d) (do
    let p ← base a
    aligned p 0 64 false
    let bs ← load p 0 64
    require (impressionOk bs) cIllegal 0x90
    let s ← get
    let m := impressionOf bs s.my.tenant s.my.gang
    let ms ← check { read := true, localOnly := true, engine := true } m.masterSpans
    let cs ← check { write := true, localOnly := true, engine := true } m.codeSpans
    let ss ← check { write := true, localOnly := true, engine := true } m.scaleSpans
    let m := { m with master := ms.flatten, codes := cs.flatten, scales := ss.flatten }
    let s ← get
    let old := m.master ++ s.impressions.flatMap fun e => e.2.extents
    let new := m.codes ++ m.scales
    require (!(anyOverlap new || new.any fun x => old.any fun y => x.overlaps y)) cIllegal 0x91
    release 4
    let s ← get
    let die := dieOf s.me.1
    match (List.range 64).find? fun k => !listed s.impressions (die * 64 + k) with
    | none => dst d (word (2 ^ 63 + 1))
    | some k =>
      if s.watchFull m then dst d (word (2 ^ 63 + 2))
      else
        set { s with impressions := put s.impressions (die * 64 + k) m }
        dst d (word (die * 64 + k))
    pure .seq) s

/-! ### The engine (R368, R371) -/

/-- The pass over the blocks of a die that are PENDING at its start, by handle and block index. -/
def State.startPass (s : State) (die : Nat) : State :=
  if !(vget [] s.passes die).isEmpty then s
  else
    let bs := (s.impressions.filter fun e => decide (e.1 / 64 = die) && e.2.faulted.isNone).flatMap fun e =>
      ((List.range e.2.nb).filter fun b => (e.2.block b).1 == .pending).map fun b => (e.1, b)
    { s with passes := vset s.passes die bs }

/-- A block is eligible: no live W record covers a byte of its master (R368). -/
def State.eligibleBlock (s : State) (m : Impression) (b : Nat) : Bool :=
  (m.masterKeys b).all fun k =>
    match k with
    | some k => !(s.othersOn { core := impressionCore, agent := 0, interval := 0 } k).2
    | none => true

/-- The address space of an impression. -/
def Impression.space (m : Impression) : Space := { bind := m.gang, tenant := m.tenant, tlb := .none }

/-- Check by the engine of a span, with what its walk has found (R350). -/
def State.engineCheck (s : State) (m : Impression) (write : Bool) (spans : List (Word × Int × Nat)) : Except Trap (List Extent) × State :=
  match checkMany { core := impressionCore, agent := 0, interval := 0 } m.space { read := !write, write, localOnly := true, engine := true }
      spans s {} [] with
  | .ok (out, _) s => (.ok out.flatten, s)
  | .trap t s => (.error t, s)
  | .wait s => (.ok [], s)

/-- A byte put in its place among bytes of rising address. -/
def insertByte (x : Int × Nat × Nat) : List (Int × Nat × Nat) → List (Int × Nat × Nat)
  | [] => [x]
  | y :: t => if x.1 ≤ y.1 then x :: y :: t else y :: insertByte x t

/-- The bytes of a block's codes with the mask of their bits that the block owns and the value there, and its scale byte, lowest address
first (R365, R371). -/
def Impression.newBytes (m : Impression) (blk : Nat) (q : QBlock) : List (Int × Nat × Nat) :=
  let i := blk / m.bpr
  let b := blk % m.bpr
  let bits := (List.range 32).flatMap fun k =>
    let code := q.codes.getD k 0
    if m.planes = 0 then [((m.codeVa i (32 * b + k) 0).1, 255, code % 256)]
    else (List.range m.planes).map fun p =>
      let v := m.codeVa i (32 * b + k) p
      (v.1, 2 ^ v.2, code / 2 ^ p % 2 * 2 ^ v.2)
  let vas := (bits.map Prod.fst).eraseDups
  let codes : List (Int × Nat × Nat) := vas.map fun v => (bits.filter fun x => x.1 == v).foldl (fun (a : Int × Nat × Nat) x => (v, a.2.1 ||| x.2.1, a.2.2 ||| x.2.2)) (v, 0, 0)
  (codes ++ [(m.scaleVa i b, 255, q.scale)]).foldr insertByte []

/-- The impression is FAULTED (R371): event record 0x05 to the host and the overseer core. -/
def State.faultImpression (s : State) (h : Nat) (m : Impression) (t : Trap) : State :=
  let s := { s with impressions := put s.impressions h { m with faulted := some (t.code, t.val) } }
  (s.notify (h / 64) (.impressionFaulted h t.code t.val)).hostEvent
    (eventBytes (leBytes 8 t.val.toNat ++ leBytes 1 t.code ++ [0] ++ leBytes 2 h) 5)

/-- A block met an infinity, or a scale clamped to 0xFE (R376). -/
def blockClamped (fmt : QFmt) (x : List FVal) (scale : Nat) : Bool :=
  (x.any fun v => match v with | .inf _ => true | _ => false)
    || (scale == 0xFE && (match largestMag x with | .fin _ m e => !scaleCovers fmt m e 0xFE | _ => true))

/-- An eligible block recomputed and published in one step: PUBLISHING lasts no longer than it. -/
def State.recompute (s : State) (h blk : Nat) (m : Impression) : State :=
  let i := blk / m.bpr
  let b := blk % m.bpr
  match s.engineCheck m false [spanAt m.mbase (m.masterVa i (32 * b) 0) (32 * m.eb)] with
  | (.error t, s) => s.faultImpression h m t
  | (.ok es, s) =>
    -- the reads leave no master byte owned (R367); bad data consumed kills its core (R150), whose pairs' held stores may change other blocks
    let s := (es.filterMap s.badData).foldl (fun s n => s.killCore n.core) s
    let s := es.foldl (fun s e => s.homeRead e.key e.len) s
    let m := (find s.impressions h).getD m
    if es.any fun e => (List.range e.len).any fun k => s.poisonedHome (e.key + k) then
      { s with impressions := put s.impressions h (m.setBlock blk (.poisoned, (m.block blk).2)) }
    else
      let bytes := es.flatMap fun e => memRead s.mem e.key e.len
      let t : FTy := match eTyOf m.mfmt with | some (.flt t) => t | _ => .f32
      let x := (List.range 32).map fun k => decodeF t (recField bytes (k * m.eb) m.eb)
      match qFmtOf m.ifmt with
      | none => s
      | some fmt =>
        let q := qntBlock x fmt .rne
        let m := { m with
          amax := amaxMerge m.amax q.mag q.nan
          nan := m.nan || q.nan
          sat := m.sat || blockClamped fmt x q.scale }
        let news := m.newBytes blk q
        match s.engineCheck m true (news.map fun v => spanAt (if v.1 = m.scaleVa i b then m.sbase else m.ibase) v.1 1) with
        | (.error t, s) => s.faultImpression h m t
        | (.ok ks, s) =>
          let news := news.zip ks
          let s := news.foldl (fun s p =>
            let old := (memByte s.mem p.2.key).toNat
            let mask := p.1.2.1
            s.homeWrite p.2.key [BitVec.ofNat 8 ((old - (old &&& mask)) ||| p.1.2.2)]) s
          { s with impressions := put s.impressions h (m.setBlock blk (.fresh, (m.block blk).2 % 65535 + 1)) }

/-- The next block of a die's pass: recomputed, or skipped (R368). -/
def State.recomputeNext (s : State) (die : Nat) : State :=
  match vget [] s.passes die with
  | [] => s
  | (h, b) :: t =>
    let s := { s with passes := vset s.passes die t }
    match find s.impressions h with
    | none => s
    | some m => if m.faulted.isSome || (m.block b).1 != .pending || !s.eligibleBlock m b then s else s.recompute h b m

/-! ### The instructions on a handle (R374 to R377) -/

/-- The impression that a handle names for the strand's tenant (R372). -/
def impressionAt (h : Word) : M (Nat × Impression) := do
  let s ← get
  match find s.impressions h.toNat with
  | some m => if m.tenant = s.my.tenant then pure (h.toNat, m) else raise cIllegal 0x92
  | none => raise cIllegal 0x92

/-- Blocks in a state other than those R375 waits for. -/
def Impression.pendingBlocks (m : Impression) : Nat := m.nb - (m.blocks.filter fun b => b.2.1 != .pending).length

/-- A block is PUBLISHING. -/
def Impression.publishing (m : Impression) : Bool := m.blocks.any fun b => b.2.1 == .publishing

/-- A registration removed: the handle is free, and the pass in progress names it no more (R374). -/
def State.dropImpression (s : State) (h : Nat) : State :=
  { s with impressions := erase s.impressions h, passes := s.passes.map fun l => l.filter fun b => b.1 != h }

/-- VDROP (R374). -/
def execVdrop (a : BitVec 5) (s : State) : Host.Outcome State Fault Refusal :=
  runInstr (.vdrop a) (do
    ports [a]
    let h ← src a
    let (n, m) ← impressionAt h
    if m.publishing then stall
    change fun s => s.dropImpression n
    pure .seq) s

/-- VSYNC: the release is made once, and stands where the impression is FAULTED; then the strand waits (R375). -/
def execVsync (a : BitVec 5) (s : State) : Host.Outcome State Fault Refusal :=
  runInstr (.vsync a) (do
    ports [a]
    let h ← src a
    let (_, m) ← impressionAt h
    let s ← get
    let waited := s.my.wait == .passed
    if !waited then release 4
    match m.faulted with
    | some f => fun t => .error (.trapKeep { code := cImpFaulted, val := f.2 } t)
    | none => pure ()
    if m.pendingBlocks != 0 || m.publishing then
      let t ← get
      if waited then stall else stop (.stallKeep (t.updMy fun c => { c with wait := .passed }))
    else
      change fun s => s.updMy fun c => { c with wait := .none }
      acquire 4
      pure .seq) s

/-- The status word of an impression and a block (R376). -/
def Impression.status (m : Impression) (i : Nat) : Word :=
  let b := m.block i
  let bst := match b.1 with | .fresh => 0 | .pending => 1 | .publishing => 2 | .poisoned => 3
  let bit := fun (x : Bool) (k : Nat) => if x then 2 ^ k else 0
  word (bit m.faulted.isSome 63 + bit m.stale 62 + bit m.nan 61 + bit m.sat 60 + m.policy % 4 * 2 ^ 58 + bst * 2 ^ 56
    + (match m.faulted with | some f => f.1 % 256 * 2 ^ 48 | none => 0) + min (2 ^ 32 - 1) m.pendingBlocks * 2 ^ 16 + b.2 % 65536)

/-- VSTAT (R376). -/
def execVstat (b : BitVec 5) (a : BitVec 5) (d : BitVec 5) (s : State) : Host.Outcome State Fault Refusal :=
  runInstr (.vstat b a d) (do
    ports [b, a]
    let (q, h) ← src2 b a
    let (n, m) ← impressionAt h
    let what := bitsAt q 61 2
    require (decide (what ≤ 1) && bitsAt q 32 29 == 0 && (what == 1 || decide (bitsAt q 0 32 < m.nb))) cIllegal 0x93
    if q.getLsbD 63 then
      change fun s => { s with impressions := put s.impressions n { m with stale := false, nan := false, sat := false } }
    acquire 4
    dst d (if what = 1 then m.amax else m.status (bitsAt q 0 32))
    pure .seq) s

/-- VPOL (R377). -/
def execVpol (b : BitVec 5) (a : BitVec 5) (d : BitVec 5) (s : State) : Host.Outcome State Fault Refusal :=
  runInstr (.vpol b a d) (do
    ports [b, a]
    let (p, h) ← src2 b a
    let (n, m) ← impressionAt h
    require (decide (p.toNat ≤ 2)) cIllegal 0x93
    change fun s => { s with impressions := put s.impressions n { m with policy := p.toNat } }
    dst d (word m.policy)
    pure .seq) s

/-- IMPRESSION_PASS (R368). -/
def execImpressionPass (s : State) : Host.Outcome State Fault Refusal :=
  onEvent (fun e => match e with | .impressionPass die => some fun s => s.startPass die | _ => none) s

/-- BLOCK_RECOMPUTATION (R368, R371). -/
def execBlockRecomputation (s : State) : Host.Outcome State Fault Refusal :=
  onEvent (fun e => match e with | .blockRecomputation die => some fun s => s.recomputeNext die | _ => none) s

end Sys2Proof.Machine
end

