-- ==== Sys2Proof/Machine/Weights.lean ====
section
/-! DEFINITION. Shape records as the matrix unit reads them, its operand accesses, and the exact arithmetic of block
partials and accumulators (R36, R37, R240 to R245, R259, R260, R268).
Readings of the spec that this file takes: DEDUCED, log entry 21. -/

namespace Sys2Proof.Machine

/-! ### Shape records (R240 to R243) -/

/-- A shape record decoded, with the effective bases and layout. -/
structure MRec where
  base : Word
  rstr : Int
  pstr : Nat
  rows : Nat
  cols : Nat
  fmt : Nat
  lay : Nat
  /-- Planes stored and planes read of a P format. -/
  n : Nat
  k : Nat
  sbase : Word
  sstr : Nat
  sp : Bool
  slot : Nat
  deriving DecidableEq, Repr

/-- The type code is a P format. -/
def isPlane (fmt : Nat) : Bool := decide (24 ≤ fmt) && decide (fmt ≤ 30)

/-- Planes of a P format. -/
def planesOf (fmt : Nat) : Nat := fmt - 22

/-- The three kinds of operand format (R244): planes, 8-bit floats, 16-bit floats; none for others. -/
def kindOf (fmt : Nat) : Option Nat :=
  if isPlane fmt then some 0
  else
    match eTyOf fmt with
    | some t => (match t with | .flt .e4m3 => some 1 | .flt .e5m2 => some 1 | .flt .f16 => some 2 | .flt .bf16 => some 2 | _ => none)
    | none => none

/-- The layout in force for a record: its own, or the imposition word's (R255). -/
def effectiveLay (ws : List Word) (imp : Word) : Nat := if imp.getLsbD 7 then bitsAt imp 0 3 else descField ws 33 1 % 8

/-- A record's fields meet its role: 0 weights, 1 activations, 2 output (R10, R26, R243). Of the layout the one in force is tested: where an
imposition word replaces it, the record's own LAY may be one of 4 to 7 (DESIGN CHOICE, log entry 21). -/
def recordOk (ws : List Word) (lay role : Nat) : Bool :=
  let f := descField ws
  let fmt := f 32 1 % 32
  let p := isPlane fmt
  let n := planesOf fmt
  let kpl := f 34 1
  let spar := f 35 1
  let admitted := if role = 2 then (match eTyOf fmt with | some (.flt .f32) => true | _ => kindOf fmt == some 2) else (kindOf fmt).isSome
  f 32 1 / 32 == 0 && f 33 1 / 8 == 0 && kpl / 16 == 0 && f 60 4 == 0 && f 24 4 != 0 && f 28 4 != 0
    && decide (lay < 4) && !(p && decide (2 ≤ lay))
    && (if p then kpl == 0 || (decide (2 ≤ kpl) && decide (kpl ≤ n)) else kpl == 0 && f 16 8 == 0)
    && !(p && f 24 4 * f 28 4 % 32 != 0)
    && (if spar / 128 = 1 then role == 0 && spar / 32 % 4 == 0 else spar == 0)
    && admitted

/-- The record with its effective bases (R241). -/
def mrecOf (ws : List Word) (lay rank : Nat) : MRec :=
  let f := descField ws
  let fmt := f 32 1 % 32
  let pcnt := f 48 4
  let q := if pcnt = 0 then 0 else rank % pcnt
  let sb := f 36 8
  { base := word (f 0 8) + wordI ((q : Int) * descInt ws 52 4)
    rstr := descInt ws 8 8
    pstr := f 16 8
    rows := f 24 4
    cols := f 28 4
    fmt
    lay
    n := planesOf fmt
    k := if f 34 1 = 0 then planesOf fmt else f 34 1
    sbase := if sb = 0 then 0 else word sb + wordI ((q : Int) * descInt ws 56 4)
    sstr := f 44 4
    sp := f 35 1 / 128 == 1
    slot := f 35 1 % 32 }

/-- Block scales are read: BF16 and F16 carry none, and SBASE′ = 0 means 1.0 (R242). -/
def MRec.scaled (r : MRec) : Bool := r.sbase != 0 && kindOf r.fmt != some 2

/-- Element size in bytes of a format that is no P format. -/
def MRec.eb (r : MRec) : Nat := ((eTyOf r.fmt).map ETy.width).getD 8 / 8

def MRec.inside (r : MRec) (i c : Nat) : Bool := decide (i < r.rows) && decide (c < r.cols)

/-- The places of an element, as offsets from BASE′: for a P format the byte and bit of each plane read, sign plane
first; else the first byte (R241). -/
def MRec.places (r : MRec) (i c : Nat) : List (Int × Nat) :=
  if isPlane r.fmt then
    let a := if r.lay = 1 then c else i
    let b := if r.lay = 1 then i else c
    (List.range r.k).map fun x => (((x * r.pstr : Nat) : Int) + (a : Int) * r.rstr + ((b / 8 : Nat) : Int), b % 8)
  else
    let at0 : Int :=
      match r.lay with
      | 0 => (i : Int) * r.rstr + ((c * r.eb : Nat) : Int)
      | 1 => (c : Int) * r.rstr + ((i * r.eb : Nat) : Int)
      | 2 => ((i / 32 : Nat) : Int) * r.rstr + (((c / 32 * 1024 + i % 32 * 32 + c % 32) * r.eb : Nat) : Int)
      | _ => ((i / 32 : Nat) : Int) * r.rstr + (((c / 32 * 1024 + c % 32 * 32 + i % 32) * r.eb : Nat) : Int)
    [(at0, 0)]

/-- Offsets of the bytes of an element. -/
def MRec.byteOffsets (r : MRec) (i c : Nat) : List Int :=
  if isPlane r.fmt then (r.places i c).map Prod.fst
  else (r.places i c).flatMap fun p => (List.range r.eb).map fun (q : Nat) => p.1 + (q : Int)

/-! ### Runs of bytes -/

/-- Insert an offset into a rising list without repeats. -/
def insertOffset (x : Int) : List Int → List Int
  | [] => [x]
  | y :: t => if x = y then y :: t else if x < y then x :: y :: t else y :: insertOffset x t

/-- Maximal runs of a rising list. -/
def offsetRuns : List Int → List (Int × Nat)
  | [] => []
  | x :: t =>
    match offsetRuns t with
    | (y, n) :: r => if y = x + 1 then (x, n + 1) :: r else (x, 1) :: (y, n) :: r
    | [] => [(x, 1)]

/-- Spans of bytes at a base that hold a set of offsets. -/
def spansOf (base : Word) (xs : List Int) : List (Word × Int × Nat) :=
  (offsetRuns (xs.foldr insertOffset [])).map fun r => (base, r.1, r.2)

/-! ### Accesses of a command (R267, R268) -/

/-- A command as it stands in its queue. -/
def State.cmd (s : State) (core : Nat) (q : MCmd) : MCmd := ((s.core core).mq.find? fun p => p.id == q.id).getD q

/-- The agent of a command's accesses, in its present interval (R268). -/
def State.unitWho (s : State) (core : Nat) (q : MCmd) : Who := { core, agent := 9, interval := (s.cmd core q).interval }

/-- The address space of a command: the galley's own translation cache (R342). -/
def State.unitSpace (s : State) (core : Nat) (q : MCmd) : Space := { bind := (s.bindOf core).getD 0, tenant := q.tenant, tlb := .galley (galleyOf core) }

/-- What a step of a command's work gives. -/
inductive Work (α : Type) where
  | ok (a : α) (s : State)
  /-- A memory fault: the command stops here. -/
  | stop (t : Trap) (s : State)
  /-- A matrix or pattern fault: the command ends. -/
  | fault (t : Trap) (s : State)
  | wait (s : State)

/-- A record of a command's access at the home directory (R268). -/
def State.noteUnit (s : State) (core : Nat) (q : MCmd) (write : Bool) (e : Extent) : State :=
  if isStore e.key then s else s.recordHome core e.key e.len ⟨9, write, (s.unitWho core q).interval⟩

/-- Stale blocks read by a command (R370). -/
def State.unitStale (s : State) (core : Nat) (q : MCmd) (hs : List Nat) : State :=
  if hs.isEmpty then s
  else
    let s := s.markStale hs
    let fresh := (s.core core).mq.any fun p => p.id == q.id && !p.counted
    if fresh then
      (if q.ctx < 8 then s.updCtx core q.ctx fun c => c.count 5 1 else s).updCore core fun c =>
        { c with mq := c.mq.map fun p => if p.id = q.id then { p with counted := true } else p }
    else s

/-- Bytes of the spans read by a command, all checked first; by span base and offset. -/
def State.unitRead (s : State) (core : Nat) (q : MCmd) (spans : List (Word × Int × Nat)) : Work (List (Word × Int × Byte)) :=
  match checkMany (s.unitWho core q) (s.unitSpace core q) { read := true, plain := true, matrix := true } spans s {} [] with
  | .trap t s => .stop t s
  | .wait s => .wait s
  | .ok (out, a) s =>
    let es := out.flatten
    if es.any (s.behindPackets core 9) then .wait s
    else
    match es.filterMap s.badData with
    | n :: _ => .stop { code := cPoison, val := n.val } (s.killCore n.core)
    | [] =>
      let s := s.unitStale core q a.stale
      let s := es.foldl (fun s e => (s.homeRead e.key e.len).noteUnit core q false e) s
      .ok ((spans.zip out).flatMap fun p =>
        let bs := s.engineBytes core p.2
        (List.range bs.length).map fun (i : Nat) => (p.1.1, p.1.2.1 + (i : Int), bs.getD i 0)) s

/-- Bytes written by a command over spans, all checked first. -/
def State.unitWrite (s : State) (core : Nat) (q : MCmd) (data : List ((Word × Int × Nat) × List Byte)) : Work Unit :=
  match checkMany (s.unitWho core q) (s.unitSpace core q) { write := true, plain := true, matrix := true } (data.map Prod.fst) s {} [] with
  | .trap t s => .stop t s
  | .wait s => .wait s
  | .ok (out, _) s =>
    let put := fun (s : State) (es : List Extent) (bs : List Byte) =>
      (es.foldl (fun (p : State × List Byte) e => ((p.1.homeWrite e.key (p.2.take e.len)).noteUnit core q true e, p.2.drop e.len)) (s, bs)).1
    .ok () ((out.zip data).foldl (fun s p => put s p.1 p.2.2) s)

/-- A byte among those read. -/
def gotByte (got : List (Word × Int × Byte)) (base : Word) (off : Int) : Nat :=
  match got.find? fun g => g.2.1 == off && g.1 == base with
  | some g => g.2.2.toNat
  | none => 0

/-- The code of an element from the bytes read: for a P format the k planes read as k bits; 0 outside the record. -/
def MRec.code (r : MRec) (got : List (Word × Int × Byte)) (i c : Nat) : Nat :=
  if !r.inside i c then 0
  else if isPlane r.fmt then
    (r.places i c).foldl (fun a p => 2 * a + gotByte got r.base p.1 / 2 ^ p.2 % 2) 0
  else leNat ((r.byteOffsets i c).map fun o => BitVec.ofNat 8 (gotByte got r.base o))

/-! ### Values and partials (R36, R37) -/

/-- The value of a code: planes by R27, floats by R21. -/
def codeValue (fmt n k code : Nat) : FVal :=
  if isPlane fmt then
    let v : Int := toSigned k code * (2 ^ (n - k) : Int)
    .fin (decide (v < 0)) v.natAbs 0
  else
    match eTyOf fmt with
    | some (.flt t) => decodeF t code
    | _ => .fin false 0 0

/-- An exact product as a datum. -/
def mulVal (x y : FVal) : FVal :=
  match exactMul x y with
  | .val v => v
  | _ => .nan false

/-- An exact sum as a datum. -/
def addVal (x y : FVal) : FVal :=
  match exactAdd .rne x y with
  | .val v => v
  | _ => .nan false

/-- A block partial rounded once with its scales (R36, R37): a scale of 0xFF gives NaN, else one of 0x00 gives +0. -/
def scalePartial (p : FVal) (sa sw : Nat) : Nat :=
  if sa = 255 ∨ sw = 255 then FTy.nanCode .f32
  else if sa = 0 ∨ sw = 0 then 0
  else (roundTo .f32 .rne (mulVal (mulVal p (bscValue sa)) (bscValue sw))).1

/-- A finite exact value in units of 2^−u; none for an infinity or a NaN. -/
def FVal.units (u : Nat) : FVal → Option Int
  | .fin n m e => some (signed n (m * pow2 (e + u)))
  | _ => none

/-- An exact sum, none where a term is not finite. -/
def sumUnits (xs : List (Option Int)) : Option Int :=
  xs.foldl (fun a x => match a, x with | some m, some n => some (m + n) | _, _ => none) (some 0)

/-- An exact product. -/
def mulUnits (x y : Option Int) : Option Int := match x, y with | some m, some n => some (m * n) | _, _ => none

/-- The difference of two check values (R259, R260). Sums that hold an infinity or a NaN have none (DESIGN CHOICE, log entry 21). -/
def diffUnits (x y : Option Int) : Int := match x, y with | some m, some n => m - n | _, _ => 0

/-- The accumulator after a partial (R36). -/
def accumulate (acc f : Nat) : Nat := (finish .f32 .rne (exactAdd .rne (decodeF .f32 acc) (decodeF .f32 f))).1

end Sys2Proof.Machine
end

