-- ==== Sys2Proof/Machine/Matrix.lean ====
section
/-! DEFINITION. The galley's matrix unit (spec/11_matrix.md): issue, the arbiter, execution of a command, faults and
resumption, and the matrix instructions.
Readings of the spec that this file takes: DEDUCED, log entry 21. -/

namespace Sys2Proof.Machine

/-! ### Commands -/

/-- The decoded record of a command. -/
def MCmd.record (q : MCmd) : MRec := mrecOf q.shape q.lay q.rank

/-- Parameter f of a command (R254). -/
def MCmd.param (q : MCmd) (f : Nat) : Nat := (vget 0 q.params f).toNat

/-- EVAL of a matrix fault (R264). -/
def matrixEval (fn acc recNo index : Nat) (row col : Nat := 0xFFFF) : Word :=
  word (fn * 2 ^ 44 + acc * 2 ^ 42 + recNo * 2 ^ 36 + index * 2 ^ 32 + row * 2 ^ 16 + col)

/-- A matrix fault of a command. -/
def MCmd.matrixFault (q : MCmd) (core detail : Nat) (row col : Nat := 0xFFFF) : Trap :=
  { code := cMatrix, detail, val := matrixEval q.fn q.acc q.recNo (galleyIndex core) row col }

/-- A pattern fault (R283): binding, major index, word index. -/
def patternFault (detail pid : Nat) (major : Nat := 0xFFFFFF) (w : Nat := 0xFF) : Trap :=
  { code := cPattern, detail, val := word (pid * 2 ^ 32 + major % 2 ^ 24 * 256 + w % 256) }

/-- K rows that one cell carries (R244). -/
def packOf (fmt : Nat) : Nat := if fmt = 24 then 4 else if fmt = 25 ∨ fmt = 26 then 2 else 1

/-- A command is a sparse MWLD. -/
def MCmd.sparse (q : MCmd) : Bool := q.fn == 0 && q.binding.isSome

/-- RPROG of a held command (R263). -/
def MCmd.rprog (q : MCmd) : Word := word (2 ^ 63 + q.fn * 2 ^ 52 + q.acc * 2 ^ 50 + q.recNo * 2 ^ 44 + q.row % 65536)

/-- The head of the queue of the core that a galley's unit executes. -/
def State.runningCmd (s : State) (g : Nat) : Option (Running × MCmd) :=
  match (s.galley g).running with
  | some r => ((s.core r.core).mq.head?).map fun q => (r, q)
  | none => none

/-- The command of a number in a core's queue changed. -/
def State.updCmd (s : State) (core id : Nat) (f : MCmd → MCmd) : State :=
  s.updCore core fun c => { c with mq := c.mq.map fun q => if q.id = id then f q else q }

/-- Counts for the strand that issued a command, while it lives. -/
def State.countCmd (s : State) (core : Nat) (q : MCmd) (i n : Nat) : State :=
  if q.ctx < 8 ∧ 0 < n then s.updCtx core q.ctx fun c => c.count i n else s

/-! ### The arbiter (R238, R246) -/

/-- Free physical tiles of a galley. -/
def Galley.free (g : Galley) : List Nat := (List.range 4).filter fun t => (vget none g.tiles t).isNone

/-- An MTILE that will go on to its claim: the slot is full and its format admits the record's (R249). -/
def MCmd.slotFits (q : MCmd) (slot : Option WSlot) : Bool :=
  match slot with
  | some w => kindOf w.fmt == kindOf (descField q.shape 32 1 % 32)
  | none => false

/-- Physical tiles that a command must claim (R246, R256); a core with no team holds none. -/
def State.claims (s : State) (core : Nat) (q : MCmd) : Nat :=
  let c := s.core core
  let live := s.teams.any fun t => t.2.live && t.2.core == core
  if q.fn = 1 ∧ (vget none c.acc q.acc).isNone ∧ q.slotFits c.wslot ∧ live then (if q.redundant then 2 else 1) else 0

/-- A core's head is ready (R238); that of a core being pre-empted waits for its restore (R266). -/
def State.headReady (s : State) (core : Nat) : Bool :=
  match (s.core core).mq.head? with
  | none => false
  | some q => !q.held && !(s.core core).evicted && decide (s.claims core q ≤ (s.galley (galleyOf core)).free.length)

/-- The arbiter's choice from a position: core index and the count after it. -/
def State.arbitrate (s : State) (g c n : Nat) : Option (Nat × Nat) :=
  let w := fun i => match s.bindOf (coreInGalley g i) with | some b => (s.bind b).field 7 1 % 16 | none => 1
  let visits := (c, n) :: (List.range 8).map fun k => ((c + 1 + k) % 8, 0)
  (visits.find? fun v => decide (v.2 < w v.1) && s.headReady (coreInGalley g v.1)).map fun v => (v.1, v.2 + 1)

/-! ### Pattern runs of a sparse MWLD (R274, R284) -/

/-- Tile columns whose cells come from a run of a generator: the stored column or row that column c names. -/
def MCmd.major (q : MCmd) (c : Nat) : Option Nat :=
  match q.binding with
  | none => none
  | some b =>
    let x := q.param 4 + c
    if b.transposed then (if x < b.ks ∧ b.itab = 0 ∧ !q.record.scaled then some x else none)
    else if x < b.ns then some x else none

/-- The next column of generator k from column c on. -/
def MCmd.nextColumn (q : MCmd) (k c : Nat) : Option Nat := (List.range 128).find? fun x => decide (c ≤ x) && x % 2 == k && (q.major x).isSome

/-- A generator at the start of a column's run (R274). -/
def genStart (b : Binding) (col major : Nat) : Gen :=
  { Gen.reset with
    k := vset (vset (vset (Vector.replicate 16 0) 0 (BitVec.ofNat 32 major)) 1 (BitVec.ofNat 32 b.ks)) 2 (BitVec.ofNat 32 b.ns)
    pc := ((if b.transposed then b.ient else b.fent : Nat) : Int)
    col
    running := true }

/-- Generator k set to the command's next column from c on, or idle. -/
def Galley.setGen (ga : Galley) (q : MCmd) (k c : Nat) : Galley :=
  let g := match q.binding, q.nextColumn k c with
    | some b, some x => genStart b x ((q.major x).getD 0)
    | _, _ => { vget Gen.reset ga.gens k with running := false }
  { ga with gens := vset ga.gens k g }

/-- MATRIX_COMMAND_TAKE: the next ready head is taken, its accumulator claimed, its pattern runs begun (R238, R246,
R285). -/
def State.takeCommand (s : State) (g : Nat) : State :=
  let ga := s.galley g
  if ga.running.isSome then s
  else
    let at0 := if ga.arbIdle then (Config.choose s.tick % 8, 0) else (ga.arbCore, ga.arbCount)
    match s.arbitrate g at0.1 at0.2 with
    | none => s
    | some (i, n) =>
      let core := coreInGalley g i
      match (s.core core).mq.head? with
      | none => s
      | some q =>
        let ts := ga.free.take (s.claims core q)
        let tile : Tile := { vals := [], residues := [], bad := false }
        let ga := { ga with
          arbCore := i, arbCount := n, arbIdle := false
          running := some { core, yields := [], columns := [], faults := [] }
          tiles := ts.foldl (fun v t => vset v t (some tile)) ga.tiles }
        let ga := if q.sparse then (ga.setGen q 0 q.row).setGen q 1 q.row else ga
        let s := s.setGalley g ga
        match ts with
        | [] => s
        | t :: r => s.updCore core fun c => { c with acc := vset c.acc q.acc (some { tile := t, second := r.head?, claimer := q.ctx }) }

/-! ### MWLD (R248, R250, R284) -/

/-- An empty staging tile of a record. -/
def stageOf (r : MRec) (kt : Nat) : WSlot := { fmt := r.fmt, kpl := r.k, kt, vals := [], scales := [] }

/-- Cells and scale codes added to a staging tile, what is listed being neither 0 nor 1.0. -/
def WSlot.add (w : WSlot) (cells scales : List (Nat × Nat)) : WSlot :=
  { w with
    vals := (cells.filter fun c => c.2 != 0).foldl (fun m c => put m c.1 c.2) w.vals
    scales := (scales.filter fun c => c.2 != 0x78).foldl (fun m c => put m c.1 c.2) w.scales }

/-- Row k of a dense tile: its cells and, at a block's start, its scales. -/
def State.weightRow (s : State) (core : Nat) (q : MCmd) (r : MRec) (k : Nat) : Work (List (Nat × Nat) × List (Nat × Nat)) :=
  let i := q.param 3 + k
  let cs := (List.range 128).filter fun j => r.inside i (q.param 4 + j)
  let b := k / 32
  let so := fun j => (((q.param 3 / 32 + b) * r.sstr + q.param 4 + j : Nat) : Int)
  let ss := if r.scaled && k % 32 == 0 then cs else []
  match s.unitRead core q (spansOf r.base (cs.flatMap fun j => r.byteOffsets i (q.param 4 + j)) ++ spansOf r.sbase (ss.map so)) with
  | .ok got s => .ok (cs.map fun j => (k * 128 + j, r.code got i (q.param 4 + j)), ss.map fun j => (b * 128 + j, gotByte got r.sbase (so j))) s
  | .stop t s => .stop t s
  | .fault t s => .fault t s
  | .wait s => .wait s

/-- Rows of a dense tile from row k on; progress is kept at a stop. -/
def weightRows (core : Nat) (q : MCmd) (r : MRec) : Nat → Nat → WSlot → State → Work WSlot
  | 0, _, w, s => .ok w s
  | n + 1, k, w, s =>
    match s.weightRow core q r k with
    | .ok (c, sc) s => weightRows core q r n (k + 1) (w.add c sc) s
    | .stop t s => .stop t (s.updCmd core q.id fun p => { p with row := k, stage := some w })
    | .fault t s => .fault t s
    | .wait s => .wait s

/-- The entries of an inverse table for a row (R277): pairs of a stored column and a rank. All of a row's entries are read before any is checked
(DESIGN CHOICE, log entry 21). -/
def State.tableRun (s : State) (core : Nat) (q : MCmd) (b : Binding) (ks : Nat) : Work (List (Nat × Nat)) :=
  match s.unitRead core q [(b.itab, ((4 * ks : Nat) : Int), 8)] with
  | .ok got s =>
    let at32 := fun (o : Nat) => leNat ((List.range 4).map fun i => BitVec.ofNat 8 (gotByte got b.itab ((o + i : Nat) : Int)))
    let lo := at32 (4 * ks)
    let hi := at32 (4 * ks + 4)
    if hi < lo ∨ 4096 < hi - lo then .fault (patternFault 9 b.pid.toNat ks) s
    else
      let first := 8 * ((b.ks + 2) / 2)
      match s.unitRead core q (if hi = lo then [] else [(b.itab, ((first + 8 * lo : Nat) : Int), 8 * (hi - lo))]) with
      | .ok got s =>
        let at0 := fun (o : Nat) => leNat ((List.range 4).map fun i => BitVec.ofNat 8 (gotByte got b.itab ((o + i : Nat) : Int)))
        let entries := (List.range (hi - lo)).map fun e => (at0 (first + 8 * (lo + e)), at0 (first + 8 * (lo + e) + 4))
        let kept := entries.filter fun e => decide (e.1 < b.ns)
        -- the checks of R274, entry by entry
        let bad := (kept.zipIdx).find? fun e =>
          (decide (0 < e.2) && decide (e.1.1 ≤ (kept.getD (e.2 - 1) (0, 0)).1)) || decide (b.vstr ≤ e.1.2)
        match bad with
        | some e =>
          let down := decide (0 < e.2) && decide (e.1.1 ≤ (kept.getD (e.2 - 1) (0, 0)).1)
          .fault (patternFault (if down then 4 else 5) b.pid.toNat ks) s
        | none => .ok kept s
      | .stop t s => .stop t s
      | .fault t s => .fault t s
      | .wait s => .wait s
  | .stop t s => .stop t s
  | .fault t s => .fault t s
  | .wait s => .wait s

/-- Yields of tile column c: of a finished run, or of the inverse table. Fault 0x0B comes before any run: its EVAL names no major index (DESIGN
CHOICE, log entry 21). -/
def State.columnYields (s : State) (core : Nat) (q : MCmd) (b : Binding) (run : Running) (c : Nat) : Work (List (Nat × Nat)) :=
  let x := q.param 4 + c
  if b.transposed && decide (x < b.ks) && q.record.scaled then .fault (patternFault 11 b.pid.toNat) s
  else if b.transposed && decide (x < b.ks) && b.itab != 0 then s.tableRun core q b x
  else
    match run.faults.find? fun f => f.1 == c with
    | some f => .fault f.2 s
    | none => .ok ((run.yields.filter fun y => y.1 == c).map fun y => y.2) s

/-- Tile columns of a sparse tile from column c on (R284, R285). -/
def weightColumns (core : Nat) (q : MCmd) (r : MRec) (b : Binding) (run : Running) : Nat → Nat → WSlot → State → Work WSlot
  | 0, _, w, s => .ok w s
  | n + 1, c, w, s =>
    let halt := fun (t : Trap) (s : State) => Work.stop t (s.updCmd core q.id fun p => { p with row := c, stage := some w })
    match s.columnYields core q b run c with
    | .fault t s => .fault t s
    | .stop t s => halt t s
    | .wait s => .wait s
    | .ok ys s =>
      let x := q.param 4 + c
      let wk0 := q.param 3
      let kept := ys.filter fun y => decide (wk0 ≤ y.1) && decide (y.1 < wk0 + b.kt)
      if 128 * packOf r.fmt < kept.length then .fault (q.matrixFault core 8 0xFFFF c) s
      else
        -- a forward cell takes value (r, js), a transposed one (r, j)
        let cells := kept.map fun y => (y.1 - wk0, y.2, if b.transposed then y.1 else x)
        let so := fun (k : Nat) => (((wk0 + k) / 32 * r.sstr + x : Nat) : Int)
        let ss := if r.scaled then cells.filter fun e => r.inside e.2.1 e.2.2 else []
        match s.unitRead core q (spansOf r.base (cells.flatMap fun e => if r.inside e.2.1 e.2.2 then r.byteOffsets e.2.1 e.2.2 else [])
            ++ spansOf r.sbase (ss.map fun e => so e.1)) with
        | .ok got s =>
          let w := w.add (cells.map fun e => (e.1 * 128 + c, r.code got e.2.1 e.2.2)) (ss.map fun e => (e.1 / 32 * 128 + c, gotByte got r.sbase (so e.1)))
          weightColumns core q r b run n (c + 1) w s
        | .stop t s => halt t s
        | .fault t s => .fault t s
        | .wait s => .wait s

/-- Non-zero codes of block b under a scale of 0x00 (R30, R36). -/
def WSlot.zeroScaled (w : WSlot) (b : Nat) : Nat :=
  (w.vals.filter fun v => v.1 / 4096 == b && look 0x78 w.scales (b * 128 + v.1 % 128) == 0).length

/-- MWLD executed. -/
def State.runMwld (s : State) (core : Nat) (q : MCmd) (run : Running) : Work Unit :=
  let r := q.record
  let kt := match q.binding with | some b => b.kt | none => 128 * packOf r.fmt
  let w := q.stage.getD (stageOf r kt)
  let work := match q.binding with
    | some b => weightColumns core q r b run (128 - q.row) q.row w s
    | none => weightRows core q r (kt - q.row) q.row w s
  match work with
  | .ok w s =>
    let s := s.updCore core fun c => { c with wslot := some w }
    let g := galleyOf core
    .ok () (s.setGalley g { s.galley g with arrayCore := some core })
  | .stop t s => .stop t s
  | .fault t s => .fault t s
  | .wait s => .wait s

/-! ### MTILE (R249, R256, R259 to R261) -/

/-- The product sum of a block of a row (R36, R37): activation codes by k, weight cells of the column. Zero products
of P formats add nothing. -/
def blockSum (ra : MRec) (w : WSlot) (a : Nat → Nat) (j b : Nat) : FVal :=
  (List.range 32).foldl (fun p x =>
    let k := 32 * b + x
    let wc := look 0 w.vals (k * 128 + j)
    let ac := a k
    if isPlane w.fmt && (wc == 0 || ac == 0) then p
    else addVal p (mulVal (codeValue ra.fmt ra.n ra.k ac) (codeValue w.fmt (planesOf w.fmt) w.kpl wc))) (.fin false 0 0)

/-- A row of a tile. -/
def Tile.row (t : Tile) (i : Nat) : List Nat := (List.range 128).map fun j => look 0 t.vals (i * 128 + j)

/-- A tile with a row replaced. -/
def Tile.setRow (t : Tile) (i : Nat) (vs : List Nat) : Tile :=
  let fresh := ((vs.zipIdx).filter fun v => v.1 != 0).map fun v => (i * 128 + v.2, v.1)
  { t with vals := (t.vals.filter fun v => decide (v.1 < i * 128)) ++ fresh ++ (t.vals.filter fun v => decide ((i + 1) * 128 ≤ v.1)) }

/-- A row of a tile as the array has formed it: its number in the window, the partials p(i, j, b) by block and column, the activations
a(i, k) and the scales sa by block (R249). -/
structure RowSums where
  row : Nat
  parts : List (List FVal)
  acts : List FVal
  scales : List Nat
  deriving DecidableEq, Repr

/-- The value of weight cell (k, j). -/
def WSlot.value (w : WSlot) (k j : Nat) : FVal := codeValue w.fmt (planesOf w.fmt) w.kpl (look 0 w.vals (k * 128 + j))

/-- The checksum weights ws(k), in units of 2^−150 (R248). -/
def WSlot.checksums (w : WSlot) : List (Option Int) :=
  (List.range w.kt).map fun k => sumUnits ((List.range 128).map fun j => (w.value k j).units 150)

/-- The row check (R259): blocks b in which Σ_j p(i, j, b) differs from c(i, b), with the difference in units of 2^−300. -/
def RowSums.diffs (x : RowSums) (ws : List (Option Int)) : List (Nat × Int) :=
  (x.parts.zipIdx).filterMap fun p =>
    let c := sumUnits ((List.range 32).map fun k =>
      mulUnits ((x.acts.getD (32 * p.2 + k) (.fin false 0 0)).units 150) (ws.getD (32 * p.2 + k) (some 0)))
    let d := diffUnits (sumUnits (p.1.map (FVal.units 300))) c
    if d = 0 then none else some (p.2, d)

/-- The column check of the tile close (R260): columns whose partials differ from Σ_b r(j, b), with the difference. -/
def columnDiffs (w : WSlot) (rows : List RowSums) : List (Nat × Int) :=
  let sums := (List.range w.kt).map fun k => sumUnits (rows.map fun x => (x.acts.getD k (.fin false 0 0)).units 150)
  (List.range 128).filterMap fun j =>
    let r := sumUnits ((List.range w.kt).map fun k => mulUnits (sums.getD k (some 0)) ((w.value k j).units 150))
    let d := diffUnits (sumUnits (rows.flatMap fun x => x.parts.map fun b => (b.getD j (.fin false 0 0)).units 300)) r
    if d = 0 then none else some (j, d)

/-- Outcomes of a tile close (R260). -/
inductive TileEnd where
  | clean
  /-- Partial (row, block, column) is less by the difference; the row is committed. -/
  | correct (block col : Nat) (diff : Int)
  /-- An error in the checksum column or row: a held row is committed unchanged. -/
  | keep
  | bad
  deriving DecidableEq, Repr

/-- The table of R260: the held rows' blocks and differences, the number of uncorrectable rows, the columns with a difference. -/
def tileClose (held : List (Nat × Int)) (uncorrectable : Nat) (columns : List (Nat × Int)) : TileEnd :=
  match held, uncorrectable, columns with
  | [], 0, [] => .clean
  | [h], 0, [c] => if h.2 = c.2 then .correct h.1 c.1 c.2 else .bad
  | [_], 0, [] => .keep
  | [], 0, [_] => .keep
  | _, _, _ => .bad

/-- A partial less a difference in units of 2^−300. -/
def RowSums.less (x : RowSums) (block col : Nat) (d : Int) : RowSums :=
  let ps := x.parts.getD block []
  let p := addVal (ps.getD col (.fin false 0 0)) (.fin (decide (0 < d)) d.natAbs (-300))
  { x with parts := x.parts.set block (ps.set col p) }

/-- The difference that an injection makes to the I32 partial p(i, j, 0); it is discarded where the slot holds another format than the one
that stood at issue (R261). -/
def injected (q : MCmd) (w : WSlot) (p : FVal) : Int :=
  if !q.inj.getLsbD 63 || q.fmt != some w.fmt then 0
  else
    let v : Int := match p with | .fin n m e => signed n (m * pow2 e) | _ => 0
    let x := wrap 32 v
    toSigned 32 (x ^^^ 2 ^ bitsAt q.inj 0 5) - toSigned 32 x

/-- The physical tiles of a name. -/
def State.nameTiles (s : State) (core name : Nat) : List Nat :=
  match vget none (s.core core).acc name with
  | some b => b.tile :: b.second.toList
  | none => []

/-- A row committed: its partials added into each tile of the name, in the order of R249. -/
def State.commitRow (s : State) (core : Nat) (q : MCmd) (w : WSlot) (x : RowSums) : State :=
  let g := galleyOf core
  let f := fun j b => scalePartial ((x.parts.getD b []).getD j (.fin false 0 0)) (x.scales.getD b 0x78) (look 0x78 w.scales (b * 128 + j))
  let add := fun (t : Tile) =>
    t.setRow x.row (((t.row x.row).zipIdx).map fun v => (List.range x.parts.length).foldl (fun acc b => accumulate acc (f v.2 b)) v.1)
  (s.nameTiles core q.acc).foldl (fun s n =>
    let ga := s.galley g
    s.setGalley g { ga with tiles := vset ga.tiles n ((vget none ga.tiles n).map add) }) s

/-- Codes under a scale of 0x00 counted in CNT2 of the issuing strand (R30, R33, R36): those of a row's activations, and once in the
command those of the weight blocks it uses; none in a partial with a scale of 0xFF (DEDUCED, log entry 21). A redundant MTILE counts them once,
not in each pass (DESIGN CHOICE, log entry 21). -/
def State.countZeros (s : State) (core : Nat) (q : MCmd) (w : WSlot) (codes sa : List Nat) : State :=
  let nb := List.range sa.length
  let acts := (nb.filter fun b => sa.getD b 0x78 == 0 && (List.range 128).any fun j => look 0x78 w.scales (b * 128 + j) != 255).foldl
    (fun n b => n + ((codes.drop (32 * b)).take 32).countP fun c => c != 0) 0
  let fresh := nb.filter fun b => sa.getD b 0x78 != 255 && !(s.cmd core q).zeros.contains b
  (s.countCmd core q 2 (acts + fresh.foldl (fun n b => n + w.zeroScaled b) 0)).updCmd core q.id fun p => { p with zeros := p.zeros ++ fresh }

/-- One row of the window read and multiplied; an injection inverts its bit of p(i, j, 0) (R249, R261). -/
def State.tileRow (s : State) (core : Nat) (q : MCmd) (ra : MRec) (w : WSlot) (i : Nat) : Work RowSums :=
  let r := q.param 0 + i
  let ak0 := q.param 2
  let nb := w.kt / 32
  let ks := (List.range w.kt).filter fun k => ra.inside r (ak0 + k)
  let bs := (List.range nb).filter fun b => ra.inside r (ak0 + 32 * b)
  let so := fun b => ((r * ra.sstr + ak0 / 32 + b : Nat) : Int)
  match s.unitRead core q (spansOf ra.base (ks.flatMap fun k => ra.byteOffsets r (ak0 + k)) ++ spansOf ra.sbase (if ra.scaled then bs.map so else [])) with
  | .ok got s =>
    let codes := (List.range w.kt).map fun k => ra.code got r (ak0 + k)
    let sa := (List.range nb).map fun b => if ra.scaled && bs.contains b then gotByte got ra.sbase (so b) else 0x78
    let parts := (List.range nb).map fun b => (List.range 128).map fun j => blockSum ra w (fun k => codes.getD k 0) j b
    let x : RowSums := { row := i, parts, acts := codes.map (codeValue ra.fmt ra.n ra.k), scales := sa }
    let col := bitsAt q.inj 16 7
    let e := if bitsAt q.inj 24 7 = i then injected q w ((parts.headD []).getD col (.fin false 0 0)) else 0
    .ok (if e = 0 then x else x.less 0 col (-e * 2 ^ 300)) (s.countZeros core q w codes sa)
  | .stop t s => .stop t s
  | .fault t s => .fault t s
  | .wait s => .wait s

/-- The close over the rows of this run of the command (R260, R265), and whether the tile is BAD; each pass of a redundant name closes
by itself. An injection reaches both passes of one, and CNT4 counts a correction in each: R261 and R256 name no pass (DESIGN CHOICE, log
entry 21). -/
def State.closeTile (s : State) (core : Nat) (q : MCmd) (w : WSlot) (ws : List (Option Int)) (rows : List RowSums) : State × Bool :=
  let held := rows.filterMap fun x => match x.diffs ws with | [d] => some (x, d) | _ => none
  let uncorrectable := (rows.filter fun x => decide (1 < (x.diffs ws).length)).length
  let columns := columnDiffs w rows
  let r := tileClose (held.map Prod.snd) uncorrectable columns
  let ts := s.nameTiles core q.acc
  let g := galleyOf core
  let s := ts.foldl (fun s n =>
    let ga := s.galley g
    s.setGalley g { ga with tiles := vset ga.tiles n ((vget none ga.tiles n).map fun t => { t with residues := columns, bad := t.bad || r == .bad }) }) s
  let commit := fun (f : RowSums → RowSums) => (held.foldl (fun s x => s.commitRow core q w (f x.1)) s).countCmd core q 4 ts.length
  match r with
  | .clean => (s, false)
  | .correct b j d => (commit fun x => x.less b j d, false)
  | .keep => (commit id, false)
  | .bad => (s, true)

/-- Rows of the window from row i on: a row without a difference is committed, others are held to the close (R259). One with differences in
more than one block, which R259 records as uncorrectable, is never committed; and a tile that the close at a resumable stop finds BAD ends
its command with DETAIL 0x04 instead of holding it for the memory fault (R260, R265: the rules settle neither; DESIGN CHOICE, log entry 21). -/
def tileRows (core : Nat) (q : MCmd) (ra : MRec) (w : WSlot) (ws : List (Option Int)) : Nat → Nat → List RowSums → State → Work Unit
  | 0, _, d, s =>
    let r := s.closeTile core q w ws d
    if r.2 then .fault (q.matrixFault core 4) r.1 else .ok () r.1
  | n + 1, i, d, s =>
    match s.tileRow core q ra w i with
    | .ok x s => tileRows core q ra w ws n (i + 1) (d ++ [x]) (if (x.diffs ws).isEmpty then s.commitRow core q w x else s)
    | .stop t s =>
      let r := s.closeTile core q w ws d
      if r.2 then .fault (q.matrixFault core 4) r.1 else .stop t (r.1.updCmd core q.id fun p => { p with row := i })
    | .fault t s => .fault t s
    | .wait s => .wait s

/-- MTILE executed; its name has been claimed when it was taken. Where the name has been released since, or the core has no team, its
sums go nowhere (R246, R266; DEDUCED, log entry 21). -/
def State.runMtile (s : State) (core : Nat) (q : MCmd) : Work Unit :=
  let c := s.core core
  match c.wslot with
  | none => .fault (q.matrixFault core 3) s
  | some w =>
    let ra := q.record
    if kindOf w.fmt ≠ kindOf ra.fmt then .fault (q.matrixFault core 1) s
    else
      if q.redundant && ((vget none c.acc q.acc).any fun b => b.second.isNone) then .fault (q.matrixFault core 9) s
      else
        let m := if q.param 1 = 0 then min 128 (ra.rows - q.param 0) else q.param 1
        let g := galleyOf core
        tileRows core q ra w w.checksums (m - q.row) q.row [] (s.setGalley g { s.galley g with arrayCore := some core })

/-! ### MDRAIN and MCLR (R252, R253) -/

/-- Rows written from row i on. An overflow counts in CNT1 of the issuing strand as R252 says, though R33 has the matrix unit count
nothing there (DESIGN CHOICE, log entry 21). -/
def drainRows (core : Nat) (q : MCmd) (r : MRec) (t : Tile) : Nat → Nat → State → Work Unit
  | 0, _, s => .ok () s
  | n + 1, i, s =>
    let y := q.param 5 + i
    let ty : FTy := match eTyOf r.fmt with | some (.flt t) => t | _ => .f32
    let js := (List.range 128).filter fun j => r.inside y (q.param 6 + j)
    let vs := js.map fun j => (j, roundTo ty .rne (decodeF .f32 (look 0 t.vals (i * 128 + j))))
    let data := vs.map fun v => ((r.base, (r.byteOffsets y (q.param 6 + v.1)).headD 0, r.eb), leBytes r.eb v.2.1)
    match s.unitWrite core q data with
    | .ok _ s => drainRows core q r t n (i + 1) (s.countCmd core q 1 ((vs.map fun v => v.2.2.ovf).foldl (· + ·) 0))
    | .stop t s => .stop t (s.updCmd core q.id fun p => { p with row := i })
    | .fault t s => .fault t s
    | .wait s => .wait s

/-- The lowest element in which two tiles differ. -/
def tilesDiffer (x y : Tile) : Option Nat := (List.range 16384).find? fun k => look 0 x.vals k != look 0 y.vals k

/-- MDRAIN executed. -/
def State.runMdrain (s : State) (core : Nat) (q : MCmd) : Work Unit :=
  let ga := s.galley (galleyOf core)
  let empty : Tile := { vals := [], residues := [], bad := false }
  let ts := (s.nameTiles core q.acc).map fun n => (vget none ga.tiles n).getD empty
  let t := ts.headD empty
  let differ := match ts with | [x, y] => tilesDiffer x y | _ => none
  match differ with
  | some k => .fault (q.matrixFault core 5 (k / 128) (k % 128)) s
  | none =>
    if ts.any fun t => t.bad then .fault (q.matrixFault core 6) s
    else
      match drainRows core q q.record t (128 - q.row) q.row s with
      | .ok _ s => .ok () (s.releaseAcc core q.acc)
      | x => x

/-! ### A command's end (R262, R266 to R268) -/

/-- The work of the executing command of a galley, as far as it goes; none while there is none or its pattern runs
have not finished. -/
def State.matrixWork (s : State) (g : Nat) : Option (Nat × MCmd × Work Unit) :=
  match s.runningCmd g with
  | none => none
  | some (run, q) =>
    let core := run.core
    let bad := (run.faults.map Prod.fst).foldl min 128
    let ready := !q.sparse || ((List.range 128).filter fun c => decide (q.row ≤ c) && decide (c < bad) && (q.major c).isSome).all fun c => run.columns.contains c
    if !ready then none
    else
      match q.fn with
      | 0 => some (core, q, s.runMwld core q run)
      | 1 => some (core, q, s.runMtile core q)
      | 2 => some (core, q, s.runMdrain core q)
      | _ => some (core, q, .ok () (s.releaseAcc core q.acc))

/-- The unit is free again. -/
def State.unitFree (s : State) (g : Nat) : State :=
  s.setGalley g { s.galley g with running := none, gens := (s.galley g).gens.map fun (k : Gen) => { k with running := false } }

/-- A galley whose unit executes nothing and where no queue is ready: its arbiter keeps cycling, so that where it stands when a head becomes
ready is open (R238). -/
def State.cycles (s : State) (g : Nat) : Bool :=
  (s.galley g).running.isNone && !((List.range 8).any fun i => s.headReady (coreInGalley g i))

/-- Every arbiter that cycles marked so. -/
def State.cycleArbiters (s : State) : State :=
  { s with galleys := s.galleys.map fun (e : Nat × Galley) => (e.1, { e.2 with arbIdle := e.2.arbIdle || s.cycles e.1 }) }

/-- A command leaves its queue and its interval ends (R268). -/
def State.dropCmd (s : State) (core id : Nat) : State :=
  let gone := ((s.core core).mq.filter fun q => q.id == id).map MCmd.interval
  { s.updCore core fun c => { c with mq := c.mq.filter fun q => q.id != id } with
    records := s.records.filter fun r => !(r.core == core && r.access.agent == 9 && gone.contains r.access.interval) }

/-- A fault becomes pending for the issuing strand; after its end the overseer is told instead (R262, R266). More than the 16 of R236 stay pending
too (DESIGN CHOICE, log entry 21). -/
def State.pendFault (s : State) (core : Nat) (q : MCmd) (f : MFault) : State :=
  if q.ctx < 8 then s.updCtx core q.ctx fun c => { c with mfaults := c.mfaults ++ [f] }
  else s.notify (dieOf core) (.exitDiscards core q.ctx (some f.trap))

/-- MATRIX_COMMAND_COMPLETE: completion with a release at package scope, or the end by a matrix or pattern fault. -/
def State.completeCommand (s : State) (g : Nat) : State :=
  match s.matrixWork g with
  | some (core, q, .ok _ t) =>
    let t := (t.dropCmd core q.id).unitFree g
    let gang := (t.team q.team).gang
    let t := match q.dec with | some slot => t.post (.decArrival core slot 1 core gang) | none => t
    t.gangCheck gang
  | some (core, q, .fault f t) =>
    let t := ((t.pendFault core q ⟨f, none⟩).dropCmd core q.id).unitFree g
    t.gangCheck (t.team q.team).gang
  | _ => s

/-- MATRIX_RESUMABLE_STOP: the command is held at the head of its queue, its fault pending (R262). -/
def State.stopCommand (s : State) (g : Nat) : State :=
  match s.matrixWork g with
  | some (core, q, .stop f t) =>
    match (t.core core).mq.head? with
    | none => t.unitFree g
    | some h =>
      let f := { f with detail := 0x80 + 4 * q.fn + q.acc }
      if q.ctx < 8 then ((t.updCmd core q.id fun p => { p with held := true }).pendFault core q ⟨f, some h.rprog⟩).unitFree g
      else
        let t := ((t.pendFault core q ⟨f, none⟩).dropCmd core q.id).unitFree g
        t.gangCheck (t.team q.team).gang
  | _ => s

/-! ### Issue (R237, R269) -/

/-- The fault that a command's own check raises (R243, R284), and the record, layout and binding it captures. Where the slot is empty there is no
PID, and EVAL[63:32] is 0 (DESIGN CHOICE, log entry 21). -/
def State.commandCheck (s : State) (core fn acc o : Nat) : Except Trap (List Word × Nat × Option Binding) :=
  if fn = 8 then .ok ([], 0, none)
  else
    let ws := wordsOf (memRead s.mem (storeKey core (0x7F000 + 64 * o)) 64) 8
    let lay := effectiveLay ws (vget 0 (s.core core).impo o)
    if !recordOk ws lay fn then .error { code := cMatrix, detail := 2, val := matrixEval fn acc o (galleyIndex core) }
    else
      let r := mrecOf ws lay 0
      if r.sp then
        match vget none (s.core core).pbind r.slot with
        | some b => .ok (ws, lay, some b)
        | none => .error (patternFault 8 0)
      else .ok (ws, lay, none)

/-- The weight format that an MTILE meets at its issue, none with an empty slot (R261). -/
def Core.issueFmt (c : Core) : Option Nat := c.lastFmt.or (c.wslot.map fun w => w.fmt)

/-- That format is a P format (R261). -/
def Core.planeWeights (c : Core) : Bool := match c.issueFmt with | some f => isPlane f | none => false

/-- A command captured and appended (R237). -/
def State.queueCommand (s : State) (fn acc o : Nat) (x : List Word × Nat × Option Binding) (dec : Option Nat) : State :=
  let core := s.me.1
  let c := s.core core
  let me := s.my
  let takesInj := fn == 1 && c.planeWeights
  let cmd : MCmd :=
    { id := s.nextId, fn, acc, recNo := o, ctx := s.me.2, tenant := me.tenant, team := me.team, gen := me.tgen, params := me.mset
      redundant := me.mred, shape := x.1, lay := x.2.1, binding := x.2.2, inj := if takesInj then vget 0 me.mset 7 else 0, fmt := if takesInj then c.issueFmt else none
      rank := (s.bind me.gang).rank core, row := 0, stage := none, held := false, counted := false, zeros := [], interval := s.nextId, dec }
  let s := { s with nextId := s.nextId + 1 }
  let s := s.updCore core fun c =>
    { c with mq := c.mq ++ [cmd], lastFmt := if fn = 0 then some (descField x.1 32 1 % 32) else c.lastFmt }
  if takesInj then s.updMy fun c => { c with mset := vset c.mset 7 0 } else s

/-- The oldest pending matrix or pattern fault is raised (R262). -/
def raisePending : M Unit := do
  let s ← get
  match s.my.mfaults with
  | f :: _ => stop (.trap f.trap [.mfault])
  | [] => pure ()

/-- The bytes of the shape record that a command reads, none for an MCLR. -/
def recordExts (core fn o : Nat) : List Extent := if fn = 8 then [] else [⟨0, storeKey core (0x7F000 + 64 * o), 64, 0, false⟩]

/-- Issue of a queued command (R237); uncorrectable data in its shape record is consumed (R150). -/
def issueCommand (fn acc o : Nat) : M Next := do
  let s ← get
  consume (recordExts s.me.1 fn o)
  match s.commandCheck s.me.1 fn acc o with
  | .error t => stop (.trap t [])
  | .ok x =>
    raisePending
    if 16 ≤ s.myCore.mq.length then stall
    release 2
    change fun s => s.queueCommand fn acc o x none
    pure .seq

/-- A word that a kick at the matrix unit can take: that of a command with its reserved fields 0 (R269). -/
def kickedForm (w : Word) : Bool :=
  let imm := bitsAt w 0 14
  let fn := imm / 256
  bitsAt w 41 23 == 0 && bitsAt w 37 3 == 0 && bitsAt w 16 16 == 0 && imm / 64 % 4 == 0 && (fn == 0 || fn == 1 || fn == 2 || fn == 8)
    && (fn != 0 || bitsAt w 14 2 == 0) && (fn != 8 || imm % 64 == 0)

/-- The bytes of the shape record that a kick at the matrix unit reads. -/
def kickedExts (core : Nat) (w : Word) : List Extent :=
  if kickedForm w then recordExts core (bitsAt w 0 14 / 256) (bitsAt w 0 14 % 64) else []

/-- The status of a kick at the matrix unit and what it queues (R269). An MWLD word whose ACC is not 0, an MCLR word whose operand is not 0 and a
sparse record whose binding slot is empty are refused with 2, and 2 is answered before 1 where both hold: R269 settles none of these
(DESIGN CHOICE, log entry 21). -/
def State.kickMatrix (s : State) (w : Word) : Nat × State :=
  let imm := bitsAt w 0 14
  let fn := imm / 256
  let o := imm % 64
  let acc := bitsAt w 14 2
  if !kickedForm w then (2, s)
  else
    match s.commandCheck s.me.1 fn acc o with
    | .error _ => (2, s)
    | .ok x =>
      if 16 ≤ s.myCore.mq.length then (1, s)
      else (0, s.queueCommand fn acc o x (if w.getLsbD 40 then some (bitsAt w 32 5) else none))

/-! ### The meanings -/

/-- MWLD (R248). -/
def execMwld (o : BitVec 6) (s : State) : Host.Outcome State Fault Refusal :=
  runInstr (.mwld o) (issueCommand 0 0 o.toNat) s

/-- MTILE (R249). -/
def execMtile (o : BitVec 6) (d : BitVec 5) (s : State) : Host.Outcome State Fault Refusal :=
  runInstr (.mtile o d) (issueCommand 1 d.toNat o.toNat) s

/-- MDRAIN (R252). -/
def execMdrain (o : BitVec 6) (d : BitVec 5) (s : State) : Host.Outcome State Fault Refusal :=
  runInstr (.mdrain o d) (issueCommand 2 d.toNat o.toNat) s

/-- MCLR (R253). -/
def execMclr (d : BitVec 5) (s : State) : Host.Outcome State Fault Refusal :=
  runInstr (.mclr d) (issueCommand 8 d.toNat 0) s

/-- A value that a matrix parameter admits (R254, R261). -/
def paramOk (f : Nat) (v : Word) : Bool :=
  match f with
  | 1 => decide (v.toNat ≤ 128)
  | 2 | 3 => decide (v.toNat ≤ 2 ^ 32 - 32) && v.toNat % 32 == 0
  | 7 => bitsAt v 31 32 == 0 && bitsAt v 23 1 == 0 && bitsAt v 5 11 == 0
  | _ => decide (v.toNat ≤ 2 ^ 32 - 1)

/-- MSET (R254). -/
def execMset (o : BitVec 6) (a : BitVec 5) (s : State) : Host.Outcome State Fault Refusal :=
  runInstr (.mset o a) (do
    ports [a]
    let v ← src a
    require (paramOk o.toNat v) cIllegal 0x50
    change fun s => s.updMy fun c => { c with mset := vset c.mset o.toNat v }
    pure .seq) s

/-- MWAIT (R257): its first step is taken once, however often it finds that it must wait. -/
def execMwait (s : State) : Host.Outcome State Fault Refusal :=
  runInstr .mwait (do
    let s ← get
    if s.my.wait ≠ .matrix then raisePending
    let mine := s.myCore.mq.filter fun q => q.ctx == s.me.2
    if mine.isEmpty || mine.any fun q => q.held then
      raisePending
      change fun s => s.updMy fun c => { c with wait := .none }
      acquire 4
      pure .seq
    else if s.my.wait = .matrix then stall
    else stop (.stallKeep (s.updMy fun c => { c with wait := .matrix, st := .stalled }))) s

/-- MRED (R256). -/
def execMred (a : BitVec 5) (s : State) : Host.Outcome State Fault Refusal :=
  runInstr (.mred a) (do
    ports [a]
    let v ← src a
    require (decide (v.toNat ≤ 1)) cIllegal 0x50
    change fun s => s.updMy fun c => { c with mred := v == 1 }
    pure .seq) s

/-- RPROG describes a held command (R265). -/
def describes (r : Word) (q : MCmd) : Bool :=
  r.getLsbD 63 && bitsAt r 56 6 == 0 && bitsAt r 16 28 == 0 && bitsAt r 52 4 == q.fn && bitsAt r 50 2 == q.acc
    && bitsAt r 44 6 == q.recNo && bitsAt r 0 16 == q.row % 65536

/-- MRESUME (R265). -/
def execMresume (s : State) : Host.Outcome State Fault Refusal :=
  runInstr .mresume (do
    raisePending
    let s ← get
    let r := s.my.rprog
    match s.myCore.mq.find? fun q => q.held && q.ctx == s.me.2 && describes r q with
    | none => raise cMatrix 7 (matrixEval (bitsAt r 52 4) (bitsAt r 50 2) (bitsAt r 44 6) (galleyIndex s.me.1))
    | some h =>
      if r.getLsbD 62 then change fun s => s.dropCmd s.me.1 h.id
      else change fun s => s.updCmd s.me.1 h.id fun q => { q with held := false, gen := s.my.tgen }
      change fun s => s.updMy fun c => { c with rprog := 0 }
      pure .seq) s

/-- An imposition word that R255 admits. -/
def impositionOk (v : Word) : Bool := bitsAt v 8 56 == 0 && bitsAt v 3 4 == 0 && !(v.getLsbD 7 && decide (4 ≤ bitsAt v 0 3))

/-- MLAY (R255). -/
def execMlay (o : BitVec 6) (a : BitVec 5) (s : State) : Host.Outcome State Fault Refusal :=
  runInstr (.mlay o a) (do
    ports [a]
    let v ← src a
    require (impositionOk v) cIllegal 0x50
    change fun s => s.updMyCore fun c => { c with impo := vset c.impo o.toNat v }
    pure .seq) s

/-- The status word of MSTAT (R258). -/
def State.matrixStatus (s : State) (core ctx : Nat) : Word :=
  let c := s.core core
  let ga := s.galley (galleyOf core)
  let mine := c.mq.filter fun q => q.ctx == ctx
  let bit := fun (b : Bool) (k : Nat) => if b then 2 ^ k else 0
  let bound := fun n => (vget none c.acc n).isSome
  let bad := fun n => (s.nameTiles core n).any fun t => match vget none ga.tiles t with | some x => x.bad | none => false
  word (bit (mine.any fun q => q.held) 63 + bit (!(c.ctx ctx).mfaults.isEmpty) 62 + mine.length % 32 * 2 ^ 52
    + (List.range 4).foldl (fun a n => a + bit (bound n) (48 + n) + bit (bad n) (44 + n)) 0 + ga.free.length * 2 ^ 41)

/-- MSTAT (R258). -/
def execMstat (d : BitVec 5) (s : State) : Host.Outcome State Fault Refusal :=
  runInstr (.mstat d) (do
    let s ← get
    dst d (s.matrixStatus s.me.1 s.me.2)
    pure .seq) s

/-- MATRIX_COMMAND_TAKE (R238). -/
def execMatrixCommandTake (s : State) : Host.Outcome State Fault Refusal :=
  onEvent (fun e => match e with | .matrixCommandTake g => some fun s => s.takeCommand g | _ => none) s

/-- MATRIX_COMMAND_COMPLETE (R267). -/
def execMatrixCommandComplete (s : State) : Host.Outcome State Fault Refusal :=
  onEvent (fun e => match e with | .matrixCommandComplete g => some fun s => s.completeCommand g | _ => none) s

/-- MATRIX_RESUMABLE_STOP (R262). -/
def execMatrixResumableStop (s : State) : Host.Outcome State Fault Refusal :=
  onEvent (fun e => match e with | .matrixResumableStop g => some fun s => s.stopCommand g | _ => none) s

end Sys2Proof.Machine
end

