-- ==== Sys2Proof/Machine/Kick.lean ====
section
/-! DEFINITION. KICK (R231, R269, R424).
Readings of the spec that this file takes: DEDUCED, log entry 20. -/

namespace Sys2Proof.Machine

/-- Scope of the release that a kick makes, by selector (R231). -/
def kickScope (sel : Nat) : Nat := sel + 1

/-- The status of a kick and what the engine's kick register takes (R214, R231, R269, R424). -/
def State.kick (s : State) (sel : Nat) (w : Word) : Nat × State :=
  match sel with
  | 0 =>
    match s.myCore.freeSlot with
    | none => (1, s)
    | some slot => (0, s.updMyCore fun c => { c with queue := c.queue ++ [.kick slot w] })
  | 1 => s.kickMatrix w
  | 2 => (2, s)
  | _ => s.kickColl w

/-- KICK (R231); a kick at the collective engine waits where its COLL would (R424). -/
def execKick (b : BitVec 5) (a : BitVec 5) (d : BitVec 5) (s : State) : Host.Outcome State Fault Refusal :=
  runInstr (.kick b a d) (do
    ports [b, a]
    let (w, x) ← src2 b a
    require (decide (x.toNat < 4)) cIllegal 0x30
    if x = 3 then collReady w
    let s ← get
    consume (if x = 1 then kickedExts s.me.1 w else [])
    release (kickScope x.toNat)
    let s ← get
    let r := s.kick x.toNat w
    set r.2
    dst d (word r.1)
    pure .seq) s

end Sys2Proof.Machine
end

