-- ==== Sys2Proof/Machine/Links.lean ====
section
/-! DEFINITION. The link layer's events: flits and frames received, acknowledgement and replay, wavelengths and combs,
keys, the down list and pins (R391 to R403, R427 to R429).
Readings of the spec that this file takes: DEDUCED, log entry 25. -/

namespace Sys2Proof.Machine

/-! ### A flit as it arrives (R393) -/

/-- The header word of a flit as it arrived. -/
def Flit.header (x : Flit) : BitVec 32 := BitVec.ofNat 32 (headerWord x.seq.toNat x.ack.toNat x.type.toNat x.kp ||| BitVec.ofNat 32 x.reserved.toNat).toNat

/-- Reed–Solomon corrects at most 4 bytes, and the CRC holds after that (R393, R396). -/
def Flit.whole (x : Flit) : Bool :=
  decide (((x.wrongBits.map fun b => b / 8).eraseDups).length ≤ 4) &&
    crc32 (leBytes 4 x.header.toNat ++ leBytes 80 x.body.toNat) == x.crc.toNat

/-! ### Masks -/

/-- Wavelengths of a mask, counted upwards. -/
def wavesOf (m : BitVec 16) : List Nat := onesBelow 16 m.toNat

/-- The mask of wavelengths. -/
def waveMask (l : List Nat) : BitVec 16 := BitVec.ofNat 16 ((List.range 16).foldl (fun n i => if l.contains i then n + 2 ^ i else n) 0)

/-- A fabric event that concerns a fibre: its trunk, number, mask after the event, first SEQ replayed and the peer at the
trunk's other end (R403, R431). -/
def State.fibreEvent (s : State) (kind n : Nat) (mask : BitVec 16) (seq : Nat := 0xFFFF) : State :=
  s.fabricEvent kind { trunk := n / 32, fibre := n % 32, mask := mask.toNat, seq
                       peer := (s.fabric.trunkPeer (n / 32)).filter fun p => p != s.fabric.own }

/-! ### The down list (R391, R420) -/

/-- A peer enters the down list: event kind 6, and groups lose its member. -/
def State.addDown (s : State) (p : Nat) : State :=
  if s.fabric.down.contains p || 64 ≤ s.fabric.down.length then s
  else
    let s := { s with fabric := { s.fabric.keepRoutes with down := s.fabric.down ++ [p] } }
    let s := s.fabricEvent 6 { peer := some p }
    s.fabric.groups.foldl (fun s (e : Nat × Group) =>
      (e.2.others.filter fun r => e.2.peer r == p).foldl (fun s r => s.removeMember e.1 r) s) s

/-- A peer leaves the down list. -/
def State.dropDown (s : State) (p : Nat) : State := { s with fabric := { s.fabric.keepRoutes with down := s.fabric.down.filter fun q => q != p } }

/-- Every link to the neighbour over a trunk is lost: it enters the down list. -/
def State.checkTrunk (s : State) (trunk : Nat) : State :=
  match s.fabric.trunkPeer trunk with
  | none => s
  | some p =>
    if p = s.fabric.own then s
    else if ((List.range 8).filter fun t => s.fabric.trunkPeer t == some p).all fun t => (s.fabric.upFibres t).isEmpty then s.addDown p
    else s

/-! ### Replay and fibres that go down (R395, R397, R400, R428) -/

/-- Every unacknowledged flit is sent again from the first, as it is stored: a replay from its SEQ to that of the next new flit. -/
def Fibre.replay (f : Fibre) : Fibre :=
  match f.held with
  | [] => f
  | x :: _ => { f with sent := f.sent ++ f.held.map (fun y => (⟨y.type, y.seq, y.ack, y.kp, 0⟩ : SentNote)), replaying := some (x.seq, f.nextSeq) }

/-- Packets that a fibre has not carried to the end leave again, each whole on the fibre of its pair among those that are up (R395). -/
def State.resendPackets (s : State) (n : Nat) : State :=
  if (s.fabric.upFibres (n / 32)).isEmpty then s
  else
    let ps := (s.fabric.fibre n).sending
    ps.foldl State.carry (s.updFibre n fun f => { f with sending := [] })

/-- A fibre goes down: its packets move to the trunk's other fibres, or wait for one; event kind 4 (R395, R400). Its buffers are given back whole
(DESIGN CHOICE, log entry 25). -/
def State.fibreDown (s : State) (n : Nat) (mask : BitVec 16) : State :=
  let s := s.updFibre n fun f =>
    { f with up := false, held := [], waiting := [], replaying := none, credits := Vector.replicate 3 4096, owed := Vector.replicate 3 0 }
  ((s.resendPackets n).fibreEvent 4 n mask).checkTrunk (n / 32)

/-- A fibre with fewer than 8 receive wavelengths goes down (R395). -/
def State.narrow (s : State) (n : Nat) : State :=
  let f := s.fabric.fibre n
  if f.up && decide ((wavesOf f.rxMask).length < 8) then s.fibreDown n f.rxMask else s

/-- A fibre that is down comes up again with 8 wavelengths in each direction; packets that wait for a fibre of the trunk leave. -/
def State.raise (s : State) (n : Nat) : State :=
  let f := s.fabric.fibre n
  if !f.up && decide (8 ≤ (wavesOf f.txMask).length) && decide (8 ≤ (wavesOf f.rxMask).length) then
    ((List.range 32).map fun i => n / 32 * 32 + i).foldl (fun s k => if (s.fabric.fibre k).up then s else s.resendPackets k)
      (s.updFibre n fun f => { f with up := true })
  else s

/-! ### Acknowledgement and credits (R397, R398, R402) -/

/-- A cumulative ACK: flits before it leave the window, and packets that are whole acknowledged with them; a replay is over once its flits are
acknowledged; the old key is retired once no flit of its phase remains; waiting frames follow. -/
def Fibre.acked (f : Fibre) (own n ack : Nat) : Fibre :=
  match f.held with
  | [] => f.fillWindow own n f.waiting.length
  | x :: _ =>
    let k := (ack % 4096 + 4096 - x.seq) % 4096
    if k = 0 ∨ f.held.length < k then f.fillWindow own n f.waiting.length
    else
      let held := f.held.drop k
      let old := !f.phase
      let left := fun (p : TxPacket) => (held.any fun y => y.packet == p.num) || f.waiting.any fun y => y.1 == p.num
      let done := match f.replaying with | some r => decide ((r.2 + 4096 - x.seq) % 4096 ≤ k) | none => true
      ({ f with
          held
          sending := f.sending.filter left
          replaying := if done then none else f.replaying
          farOld := f.farOld && !(f.held.take k).any fun y => y.kp == f.phase
          txKeys := if f.rotate || held.any (fun y => y.kp == old) then f.txKeys else vset f.txKeys old.toNat none } : Fibre).fillWindow own n f.waiting.length

/-- The credits of a type 8 flit: three 16-bit numbers of flits, by class (R398; the layout: DESIGN CHOICE, log entry 25). -/
def Fibre.credited (f : Fibre) (param : Nat) : Fibre :=
  { f with credits := Vector.ofFn fun i => vget 0 f.credits i.val + param / 2 ^ (16 * i.val) % 65536 }

/-- The parameter of the type 8 flit that gives back what is owed. -/
def Fibre.owedParam (f : Fibre) : Nat := ((List.range 3).map fun i => vget 0 f.owed i % 65536 * 2 ^ (16 * i)).foldl (· + ·) 0

/-- One replay request for the present gap (R396, R397). -/
def Fibre.askReplay (f : Fibre) : Fibre := if f.gapAsked then f else { f.control 9 f.expected with gapAsked := true }

/-! ### Receiving a flit (R393 to R399, R401, R402, R427) -/

/-- Corrected bits are counted on the wavelengths that carried them, over windows of 2^32 bits (R395, R399). -/
def Fibre.countCorrected (f : Fibre) (wrong : List Nat) : Fibre :=
  let ws := wavesOf f.rxMask
  let w := max 1 ws.length
  let per := (768 + w - 1) / w
  let f := if 2 ^ 32 ≤ f.windowBits + per then { f with windowBits := 0, corrected := Vector.replicate 16 0 } else { f with windowBits := f.windowBits + per }
  { f with corrected := wrong.foldl (fun c b => let i := ws.getD (b % w) 0; vset c i (vget 0 c i + 1)) f.corrected }

/-- The mask of a restripe flit holds from its flit on (R399); a wavelength in it is out no more. -/
def Fibre.adoptMask (f : Fibre) (seq : Nat) : Fibre :=
  match f.nextMask with
  | some (n, m) =>
    if (seq + 4096 - n) % 4096 < 2048 then { f with rxMask := m, nextMask := none, rxOut := f.rxOut.filter fun w => !(wavesOf m).contains w } else f
  | none => f

/-- A held flit in SEQ order is kept for its frame; a duplicate or a flit ahead is discarded. -/
def Fibre.keep (f : Fibre) (x : Flit) : Fibre :=
  let d := (x.seq.toNat + 4096 - f.expected) % 4096
  if d = 0 then
    { f with expected := (f.expected + 1) % 4096, gapAsked := false, ackDue := true
             frame := f.frame ++ [⟨x.header, x.kp, x.type.toNat, x.seq.toNat, x.body⟩] }
  else if d < 2048 then f.askReplay
  else { f with ackDue := true }

/-- The receive key of a phase. -/
def Fibre.rxKey (f : Fibre) (n : Nat) (phase : Bool) : Option (BitVec 128) := (vget none f.rxKeys phase.toNat).map (LinkKey.value n true)

/-- A control flit's own tag, in body bytes 64 to 79, verifies under the key of its phase (R401). -/
def Flit.tagged (x : Flit) (f : Fibre) (n : Nat) : Bool :=
  match f.rxKey n x.kp with
  | some k => x.body == controlBody k x.header (x.body.toNat % 2 ^ 512)
  | none => false

/-- A control flit of types 8 to 12 (R394, R397, R398): ACK and credits, a replay request, a restripe, a hello, a quiesce. -/
def State.receiveControl (s : State) (n : Nat) (x : Flit) : State :=
  let p := x.body.toNat % 2 ^ 512
  let s := if x.type = 8 then s else s.updFibre n fun f => f.acked s.fabric.own n x.ack.toNat
  match x.type.toNat with
  | 8 => (s.updFibre n fun f => f.credited p).post (.acknowledgement n x.ack.toNat)
  | 9 => s.post (.replayRequest n (p % 65536))
  | 10 => s.post (.restripe n (BitVec.ofNat 16 (p / 2 ^ 16)) (p % 4096))
  | 11 => s.post (.hello n (p % 2 ^ 32) (p / 2 ^ 32 % 2 ^ 18) (if n / 64 = 2 then p / 2 ^ 56 % 256 else p / 2 ^ 64 % 256))
  | 12 => s.post (.quiesce n)
  | _ => s

/-- A flit arrives on a fibre. A control flit whose tag fails is discarded with event kind 5, as a frame's is (DESIGN CHOICE, log entry 25). -/
def State.receiveFlit (s : State) (n : Nat) (x : Flit) : State :=
  if !x.whole then s.updFibre n Fibre.askReplay
  else
    let s := (s.updFibre n fun f => (f.adoptMask x.seq.toNat).countCorrected x.wrongBits).narrow n
    let ty := x.type.toNat
    if x.reserved ≠ 0 then s
    else if 13 ≤ ty then s.fibreEvent 11 n (s.fabric.fibre n).rxMask
    else if 8 ≤ ty then
      if x.tagged (s.fabric.fibre n) n then s.receiveControl n x else s.fibreEvent 5 n (s.fabric.fibre n).rxMask
    else
      let s := s.updFibre n fun f => f.acked s.fabric.own n x.ack.toNat
      if ty = 0 then s
      else
        let kept := (s.fabric.fibre n).expected = x.seq.toNat
        let s := s.updFibre n fun f => f.keep x
        if ty = 7 ∧ kept then s.post (.frameReceive n) else s

/-! ### Receiving a frame (R401, R402) -/

/-- The far end's number of a fibre: the other trunk of the pair that the link joins, and the same place in it (R390, R392). -/
def farFibre (n : Nat) : Nat := (n / 32 ^^^ 1) * 32 + n % 32

/-- A verified frame is taken; its buffers are owed to the far end. The first frame of the new phase leaves the old key to be retired with
the next ACK that leaves, or at once where none is owed: then the last flit of the old phase has been acknowledged (R398, R402). -/
def Fibre.deliver (f : Fibre) (xs rest : List RxFlit) (phase : Bool) (count : Nat) : Fibre :=
  let cls := ((xs.head?.map RxFlit.type).getD 1 - 1) / 2
  let turned := phase != f.rxPhase
  { f with
    frame := rest
    owed := vset f.owed cls (vget 0 f.owed cls + xs.length)
    rxOld := f.rxOld || (turned && f.ackDue)
    rxKeys := if turned && !f.ackDue then vset f.rxKeys f.rxPhase.toNat none else f.rxKeys
    rxPhase := phase
    rxFrames := count + 1 }

/-- One flit of a verified frame, by type and body: a head names in its bytes 0 to 5 the destination and the source of its packet, as R426 lays
them out (for the other packets DESIGN CHOICE, log entry 25); the continuations of the class follow it. A packet for this package is
delivered; one for another goes on towards it, flit by flit, under the types it came with (R391, R395). -/
def State.passFlit (s : State) (n : Nat) (x : Nat × BitVec 640) : State :=
  let cls := (x.1 - 1) / 2
  let b := x.2.toNat
  let goal : Option (Nat × Nat) :=
    if x.1 % 2 = 1 then (if b % 2 ^ 18 = s.fabric.own then none else some (b / 2 ^ 24 % 2 ^ 18, b % 2 ^ 18))
    else vget none (s.fabric.fibre n).transit cls
  let s := s.updFibre n fun f => { f with transit := vset f.transit cls goal, delivered := if goal.isNone then f.delivered ++ [x.2] else f.delivered }
  match goal with
  | some (source, dst) => s.transmitFrom source dst x.1 (leBytes 80 b)
  | none => s

/-- The oldest frame whose tag flit has come is verified under the key of its KP, with the sender's peer and fibre number: delivered, or
discarded with a replay request from its first flit. -/
def State.receiveFrame (s : State) (n : Nat) : State :=
  let f := s.fabric.fibre n
  let xs := f.frame.takeWhile fun x => x.type != 7
  match f.frame.drop xs.length with
  | [] => s
  | tag :: rest =>
    let count := if tag.kp == f.rxPhase then f.rxFrames else 0
    let iv := frameIv ((s.fabric.trunkPeer (n / 32)).getD 0) (farFibre n) count
    let ct := xs.flatMap fun x => leBytes 80 x.body.toNat
    let headers := xs.flatMap fun x => leBytes 4 x.header.toNat
    match (f.rxKey n tag.kp).filter fun k => gcmTag k iv headers ct == BitVec.ofNat 128 tag.body.toNat with
    | some key =>
      ((xs.map RxFlit.type).zip (bodiesOf (80 * xs.length + 1) (gcmOpen key iv ct))).foldl (fun s x => s.passFlit n x)
        (s.updFibre n fun f => f.deliver xs rest tag.kp count)
    | none =>
      let first := match xs with | x :: _ => x.seq | [] => tag.seq
      let s := s.updFibre n fun f => { f.control 9 first with frame := [], expected := first, gapAsked := true }
      s.fibreEvent 5 n f.rxMask

/-! ### Wavelengths and combs (R399, R400, R429) -/

/-- The parameter of a restripe flit: the first SEQ under the mask, and the mask (R394; the layout: DESIGN CHOICE, log entry 25). -/
def restripeParam (mask : BitVec 16) (seq : Nat) : Nat := seq % 4096 + 2 ^ 16 * mask.toNat

/-- The transmit mask changes at the boundary before the next new flit, which a restripe flit names (R399). -/
def Fibre.restripeTo (f : Fibre) (mask : BitVec 16) : Fibre := { f.control 10 (restripeParam mask f.nextSeq) with txMask := mask }

/-- Number of the comb that feeds a transmit wavelength of a fibre: trunk × 16 + group × 4 + comb (R392). -/
def combOf (n w : Nat) : Nat := n / 32 * 16 + n % 32 / 8 * 4 + w / 4

/-- A wavelength's corrected bits crossed the threshold: event kind 1 (R399). Of a receive direction it is out for training from now on, and
leaves the mask where the far transmitter's restripe flit says; of the transmit direction this side sends that flit, or the
fibre goes down with fewer than 8 wavelengths. -/
def State.waveOut (s : State) (n : Nat) (transmit : Bool) (w : Nat) : State :=
  let f := s.fabric.fibre n
  if transmit then
    if !f.up || !(wavesOf f.txMask).contains w then s
    else
      let m := waveMask ((wavesOf f.txMask).filter fun i => i != w)
      let s := s.updFibre n fun f => { f with txOut := w :: f.txOut.filter fun i => i != w }
      if (wavesOf m).length < 8 then (s.updFibre n fun f => { f with txMask := m }).fibreDown n m
      else (s.updFibre n fun f => f.restripeTo m).fibreEvent 1 n m
  else if (wavesOf f.rxMask).contains w && !f.rxOut.contains w && decide (s.fabric.threshold < vget 0 f.corrected w) then
    let s := s.updFibre n fun f => { f with rxOut := w :: f.rxOut, corrected := vset f.corrected w 0 }
    s.fibreEvent 1 n (waveMask ((wavesOf f.rxMask).filter fun i => i != w && !f.rxOut.contains i))
  else s

/-- Training of a wavelength that is out ends: it can come back, event kind 2, or has failed once more; after three failures it stays out. Of
a receive direction it is back in the mask where the far transmitter's restripe flit says; of the transmit direction this side sends
that flit, and a fibre with 8 wavelengths is up (R399, R400). -/
def State.waveTrained (s : State) (n : Nat) (transmit : Bool) (w : Nat) (ok : Bool) : State :=
  let f := s.fabric.fibre n
  if transmit then
    if !f.txOut.contains w || decide (3 ≤ vget 0 f.txTrainings w) || s.fabric.dark.contains (combOf n w) then s
    else if !ok then s.updFibre n fun f => { f with txTrainings := vset f.txTrainings w (vget 0 f.txTrainings w + 1) }
    else
      let m := waveMask (w :: wavesOf f.txMask)
      let s := s.updFibre n fun f => { f.restripeTo m with txOut := f.txOut.filter fun i => i != w, txTrainings := vset f.txTrainings w 0 }
      (s.fibreEvent 2 n m).raise n
  else if !f.rxOut.contains w || decide (3 ≤ vget 0 f.trainings w) then s
  else if !ok then s.updFibre n fun f => { f with trainings := vset f.trainings w (vget 0 f.trainings w + 1) }
  else
    let s := s.updFibre n fun f => { f with rxOut := f.rxOut.filter fun i => i != w, corrected := vset f.corrected w 0, trainings := vset f.trainings w 0 }
    s.fibreEvent 2 n (waveMask (w :: (wavesOf f.rxMask).filter fun i => !f.rxOut.contains i))

/-- Package fibres of a comb group (R392). -/
def combFibres (trunk group : Nat) : List Nat := (List.range 8).map fun i => trunk * 32 + group * 8 + i

/-- Wavelengths that a comb feeds. -/
def combWaves (comb : Nat) : List Nat := (List.range 4).map fun i => comb * 4 + i

/-- One fibre loses the light of a comb (R400): it goes on under the mask that is left, told four times, with a replay, or is down. -/
def State.darken (s : State) (comb n : Nat) : State :=
  let f := s.fabric.fibre n
  let m := waveMask ((wavesOf f.txMask).filter fun i => !(combWaves comb).contains i)
  let s := s.updFibre n fun f => { f with txMask := m, txOut := f.txOut.filter fun i => !(combWaves comb).contains i }
  if !f.up then s.fibreEvent 4 n m
  else if (wavesOf m).length < 8 then s.fibreDown n m
  else
    let first := match f.held with | x :: _ => x.seq | [] => f.nextSeq
    let s := s.updFibre n fun f => ((List.range 4).foldl (fun f _ => f.control 10 (restripeParam m first)) f).replay
    s.fibreEvent 3 n m (if f.held.isEmpty then 0xFFFF else first)

/-- The fibres of a comb group that can carry light: none of a trunk whose dimension has size 1 (R392). -/
def State.lightFibres (s : State) (trunk group : Nat) : List Nat :=
  (combFibres trunk group).filter fun n => s.fabric.present && s.fabric.size (n / 64) != 1

/-- A comb goes dark: the eight fibres of its group in increasing number (R400, R429). -/
def State.loseLight (s : State) (trunk group comb : Nat) : State :=
  let id := trunk * 16 + group * 4 + comb
  if 8 ≤ trunk ∨ 4 ≤ group ∨ 4 ≤ comb ∨ s.fabric.dark.contains id then s
  else
    let s := { s with fabric := { s.fabric with dark := id :: s.fabric.dark } }
    (s.lightFibres trunk group).foldl (fun s n => s.darken comb n) s

/-- A comb's light returns: its wavelengths rejoin as R399 says, each after its training, but those that have failed three (R400). -/
def State.returnLight (s : State) (trunk group comb : Nat) : State :=
  let id := trunk * 16 + group * 4 + comb
  if s.fabric.dark.contains id then
    let s := { s with fabric := { s.fabric with dark := s.fabric.dark.filter fun x => x != id } }
    (s.lightFibres trunk group).foldl (fun s n => s.updFibre n fun f =>
      { f with txOut := f.txOut ++ (combWaves comb).filter fun w => !f.txOut.contains w && decide (vget 0 f.txTrainings w < 3) }) s
  else s

/-- A restripe flit's mask, from the flit it names on (R394, R399, R400). -/
def State.restripe (s : State) (n : Nat) (m : BitVec 16) (seq : Nat) : State :=
  let s := s.updFibre n fun f => ({ f with nextMask := some (seq % 4096, m) }).adoptMask f.expected
  (s.narrow n).raise n

/-! ### Keys (R402) -/

/-- The next key goes into the idle phase. The rotation waits until both ends have retired the previous key: here its slot is empty, no flit of its
phase is held or still to be verified, and the far end has acknowledged a flit of the key in use. -/
def State.loadKey (s : State) (n : Nat) (receive : Bool) (key : BitVec 128) : State :=
  let f := s.fabric.fibre n
  if receive then
    if f.rxOld || (vget none f.rxKeys (!f.rxPhase).toNat).isSome || f.frame.any fun x => x.kp != f.rxPhase then s.post (.keyLoad n receive key)
    else s.updFibre n fun f => { f with rxKeys := vset f.rxKeys (!f.rxPhase).toNat (some (.loaded key)) }
  else if f.rotate || f.farOld || (vget none f.txKeys (!f.phase).toNat).isSome || f.held.any fun x => x.kp != f.phase then
    s.post (.keyLoad n receive key)
  else s.updFibre n fun f => { f with txKeys := vset f.txKeys (!f.phase).toNat (some (.loaded key)), rotate := true }

/-- A type 8 flit carries the acknowledgement owed and gives the credits owed back (R397, R398). -/
def State.sendAck (s : State) (n : Nat) : State :=
  s.updFibre n fun f =>
    if f.ackDue || f.owedParam != 0 then { f.control 8 f.owedParam with owed := Vector.replicate 3 0 } else f

/-- A replay request: ignored while a replay from a flit at or before it is under way (R397, R428). -/
def Fibre.answerReplay (f : Fibre) (seq : Nat) : Fibre :=
  match f.replaying with
  | some r => if (seq % 4096 + 4096 - r.1) % 4096 < 2048 then f else f.replay
  | none => f.replay

/-- A pair of peers is pinned to a fibre of a trunk, or unpinned; at most 4 pins exist (R395). -/
def State.pin (s : State) (a b trunk fibre : Nat) (pinned : Bool) : State :=
  let same := fun (x : Nat × Nat × Nat × Nat) => x.2.2.1 == trunk && ((x.1 == a && x.2.1 == b) || (x.1 == b && x.2.1 == a))
  let rest := s.fabric.pins.filter fun x => !same x
  { s with fabric := { s.fabric with pins := if pinned then (if 4 ≤ rest.length then s.fabric.pins else rest ++ [(a, b, trunk, fibre)]) else rest } }

/-! ### The events -/

/-- FLIT_RECEIVE (R393 to R397). -/
def execFlitReceive (s : State) : Host.Outcome State Fault Refusal :=
  onEvent (fun e => match e with | .flitReceive n x => some fun s => s.receiveFlit n x | _ => none) s

/-- FRAME_RECEIVE (R401). -/
def execFrameReceive (s : State) : Host.Outcome State Fault Refusal :=
  onEvent (fun e => match e with | .frameReceive n => some fun s => s.receiveFrame n | _ => none) s

/-- ACKNOWLEDGEMENT (R397, R402). -/
def execAcknowledgement (s : State) : Host.Outcome State Fault Refusal :=
  onEvent (fun e => match e with | .acknowledgement n a => some fun s => s.updFibre n fun f => f.acked s.fabric.own n a | _ => none) s

/-- ACKNOWLEDGEMENT_DUE (R397, R427). -/
def execAcknowledgementDue (s : State) : Host.Outcome State Fault Refusal :=
  onEvent (fun e => match e with | .acknowledgementDue n => some fun s => s.sendAck n | _ => none) s

/-- REPLAY_REQUEST (R397, R428). -/
def execReplayRequest (s : State) : Host.Outcome State Fault Refusal :=
  onEvent (fun e => match e with | .replayRequest n q => some fun s => s.updFibre n fun f => f.answerReplay q | _ => none) s

/-- REPLAY_TIMEOUT (R397). -/
def execReplayTimeout (s : State) : Host.Outcome State Fault Refusal :=
  onEvent (fun e => match e with | .replayTimeout n => some fun s => s.updFibre n Fibre.replay | _ => none) s

/-- RESTRIPE (R399, R400). -/
def execRestripe (s : State) : Host.Outcome State Fault Refusal :=
  onEvent (fun e => match e with | .restripe n m q => some fun s => s.restripe n m q | _ => none) s

/-- WAVELENGTH_THRESHOLD (R399). -/
def execWavelengthThreshold (s : State) : Host.Outcome State Fault Refusal :=
  onEvent (fun e => match e with | .wavelengthThreshold n t w => some fun s => s.waveOut n t w | _ => none) s

/-- WAVELENGTH_TRAINED (R399). -/
def execWavelengthTrained (s : State) : Host.Outcome State Fault Refusal :=
  onEvent (fun e => match e with | .wavelengthTrained n t w ok => some fun s => s.waveTrained n t w ok | _ => none) s

/-- LOSS_OF_LIGHT (R400, R429). -/
def execLossOfLight (s : State) : Host.Outcome State Fault Refusal :=
  onEvent (fun e => match e with | .lossOfLight t g c => some fun s => s.loseLight t g c | _ => none) s

/-- LIGHT_RETURN (R400). -/
def execLightReturn (s : State) : Host.Outcome State Fault Refusal :=
  onEvent (fun e => match e with | .lightReturn t g c => some fun s => s.returnLight t g c | _ => none) s

/-- KEY_LOAD (R402). -/
def execKeyLoad (s : State) : Host.Outcome State Fault Refusal :=
  onEvent (fun e => match e with | .keyLoad n r k => some fun s => s.loadKey n r k | _ => none) s

/-- DOWN_LIST_WRITE (R391). -/
def execDownListWrite (s : State) : Host.Outcome State Fault Refusal :=
  onEvent (fun e => match e with | .downListWrite p down => some fun s => if down then s.addDown p else s.dropDown p | _ => none) s

/-- FIBRE_PIN_WRITE (R395). -/
def execFibrePinWrite (s : State) : Host.Outcome State Fault Refusal :=
  onEvent (fun e => match e with | .fibrePinWrite a b t n pinned => some fun s => s.pin a b t n pinned | _ => none) s

/-- WAVELENGTH_THRESHOLD_WRITE (R399). -/
def execWavelengthThresholdWrite (s : State) : Host.Outcome State Fault Refusal :=
  onEvent (fun e => match e with | .wavelengthThresholdWrite v => some fun s => { s with fabric := { s.fabric with threshold := v } } | _ => none) s

end Sys2Proof.Machine
end

