-- ==== Sys2Proof/Machine/Patterns.lean ====
section
/-! DEFINITION. Pattern programs and bindings (spec/12_patterns.md): the pattern instructions and the words that the
index generators run.
Readings of the spec that this file takes: DEDUCED, log entry 21. -/

namespace Sys2Proof.Machine

/-! ### PLOAD, PBIND and PSTAT (R278 to R282) -/

/-- PLOAD (R279). -/
def execPload (b : BitVec 5) (a : BitVec 5) (s : State) : Host.Outcome State Fault Refusal :=
  runInstr (.pload b a) (do
    ports [b]
    let p ← base a
    let c ← src b
    let first := bitsAt c 16 8
    let count := bitsAt c 0 8
    require (bitsAt c 24 40 == 0 && bitsAt c 8 8 == 0 && count != 0 && decide (first + count ≤ 128)) cIllegal 0x60
    aligned p 0 4 false
    let es ← check { read := true, plain := true } [(p, 0, 4 * count)]
    let s ← get
    match s.myCore.mq.find? fun q => q.sparse && q.held with
    | some q => stop (.trap (patternFault 10 (match q.binding with | some x => x.pid.toNat | none => 0)) [])
    | none =>
      if s.myCore.mq.any MCmd.sparse then stall
      let bs := (← readExts true es).flatten
      change fun s =>
        let g := galleyOf s.me.1
        let ga := s.galley g
        let at0 := galleyIndex s.me.1 * 128 + first
        s.setGalley g { ga with
          pstore := (List.range count).foldl (fun m i => put m (at0 + i) (BitVec.ofNat 32 (recField bs (4 * i) 4))) ga.pstore }
      pure .seq) s

/-- A binding is transposable (R276). -/
def Binding.transposable (b : Binding) : Bool := b.itab != 0 || b.ient != 0xFFFF

/-- The binding of a descriptor (R280). -/
def bindingOf (bs : List Byte) (t : Bool) : Binding :=
  let f := recField bs
  { transposed := t, fent := f 0 2, ient := f 2 2, ks := f 4 4, ns := f 8 4, vstr := f 12 2, kt := f 14 2
    params := Vector.ofFn fun i => BitVec.ofNat 32 (f (16 + 4 * i.val) 4)
    itab := word (f 48 8), pid := BitVec.ofNat 32 (f 56 4) }

/-- A descriptor that does not empty its slot is well formed (R280). -/
def bindingOk (bs : List Byte) : Bool :=
  let f := recField bs
  decide (f 0 2 ≤ 127) && (decide (f 2 2 ≤ 127) || f 2 2 == 0xFFFF) && decide (f 4 4 ≤ 2 ^ 24)
    && decide (1 ≤ f 8 4) && decide (f 8 4 ≤ 2 ^ 24) && decide (1 ≤ f 12 2) && decide (f 12 2 ≤ 2048)
    && decide (32 ≤ f 14 2) && decide (f 14 2 ≤ 2048) && f 14 2 % 32 == 0
    && f 48 8 / 2 ^ 56 == 0 && f 48 8 % 8 == 0 && f 60 4 == 0

/-- PBIND and PBIND.T (R280). -/
def bindPattern (t : Bool) (b a : BitVec 5) : M Next := do
  ports [b]
  let p ← base a
  let slot ← src b
  require (decide (slot.toNat ≤ 31)) cIllegal 0x60
  aligned p 0 64 false
  let bs ← load p 0 64
  let x := bindingOf bs t
  let set := fun (o : Option Binding) => change fun s => s.updMyCore fun c => { c with pbind := vset c.pbind slot.toNat o }
  if x.ks = 0 then
    set none
    pure .seq
  else if !bindingOk bs then stop (.trap (patternFault 2 x.pid.toNat) [])
  else if t && !x.transposable then stop (.trap (patternFault 1 x.pid.toNat) [])
  else
    set (some x)
    pure .seq

/-- PBIND (R280). -/
def execPbind (b : BitVec 5) (a : BitVec 5) (s : State) : Host.Outcome State Fault Refusal :=
  runInstr (.pbind b a) (bindPattern false b a) s

/-- PBIND.T (R280). -/
def execPbindT (b : BitVec 5) (a : BitVec 5) (s : State) : Host.Outcome State Fault Refusal :=
  runInstr (.pbindT b a) (bindPattern true b a) s

/-- The status word of a binding slot (R281). -/
def bindingStatus (o : Option Binding) : Word :=
  match o with
  | none => 0
  | some b =>
    word (2 ^ 63 + (if b.transposed then 2 ^ 62 else 0) + (if b.transposable then 2 ^ 61 else 0) + b.pid.toNat * 2 ^ 24
      + b.kt % 4096 * 2 ^ 12 + b.vstr % 4096)

/-- PSTAT (R281). -/
def execPstat (b : BitVec 5) (d : BitVec 5) (s : State) : Host.Outcome State Fault Refusal :=
  runInstr (.pstat b d) (do
    ports [b]
    let slot ← src b
    require (decide (slot.toNat ≤ 31)) cIllegal 0x60
    let s ← get
    dst d (bindingStatus (vget none s.myCore.pbind slot.toNat))
    pure .seq) s

/-! ### The generators (R273, R274) -/

/-- What a word does to the generator that runs it. -/
inductive GenAct where
  /-- Registers changed; the next word is pc + step. -/
  | go (k : Vector (BitVec 32) 16) (step : Int)
  | emit (x r : Int)
  | finish
  | bad (detail : Nat)

/-- A pattern fault ends the run of generator k (R274, R283). -/
def State.genFault (s : State) (g k detail : Nat) : State :=
  match s.runningCmd g with
  | none => s
  | some (run, q) =>
    let ga := s.galley g
    let x := vget Gen.reset ga.gens k
    let pid := match q.binding with | some b => b.pid.toNat | none => 0
    let at0 := if x.pc < 0 ∨ 128 ≤ x.pc then x.lastWord else x.pc.toNat
    s.setGalley g { ga with
      gens := vset ga.gens k { x with running := false }
      running := some { run with faults := run.faults ++ [(x.col, patternFault detail pid ((q.major x.col).getD 0) at0)] } }

/-- The word executed by generator k of galley g (R274). -/
def State.genWord (s : State) (g k : Nat) (act : Gen → Binding → GenAct) : State :=
  match s.runningCmd g with
  | none => s
  | some (run, q) =>
    match q.binding with
    | none => s
    | some b =>
      let ga := s.galley g
      let x := vget Gen.reset ga.gens k
      if !x.running then s
      else
        let w := x.pc.toNat
        let bad := fun (d : Nat) => s.genFault g k d
        if 4096 ≤ x.steps then bad 6
        else
          let x1 := { x with steps := x.steps + 1, lastWord := w }
          let set := fun (y : Gen) (r : Running) => s.setGalley g { ga with gens := vset ga.gens k y, running := some r }
          match act x b with
          | .bad d => bad d
          | .go v step => set { x1 with k := v, pc := x.pc + step } run
          | .finish =>
            let s := s.setGalley g { ga with gens := vset ga.gens k { x1 with running := false }, running := some { run with columns := run.columns ++ [x.col] } }
            s.setGalley g ((s.galley g).setGen q k (x.col + 1))
          | .emit e r =>
            let lim := if b.transposed then b.ns else b.ks
            let r := if b.transposed then r else (x.count : Int)
            if e < 0 ∨ (lim : Int) ≤ e then set { x1 with pc := x.pc + 1 } run
            else if e ≤ x.last then bad 4
            else if r < 0 ∨ (b.vstr : Int) ≤ r then bad 5
            else set { x1 with pc := x.pc + 1, last := e, count := x.count + 1 } { run with yields := run.yields ++ [(x.col, e.toNat, r.toNat)] }

/-- A pattern word w: run by a generator; any other agent takes the illegal-instruction trap (R59, R273). -/
def runPattern (w : Nat) (act : Gen → Binding → GenAct) (s : State) : Host.Outcome State Fault Refusal :=
  match s.cur with
  | .generator g k => if g < 256 ∧ k < 2 then .next (s.genWord g k act) else .fault .noSuchAgent
  | .hardware => .fault .noSuchAgent
  | _ => if 8 < s.me.2 then .fault .noSuchAgent else .next (s.trapHere { code := cIllegal, val := word w })

/-- A generator register. -/
def Gen.reg (x : Gen) (r : BitVec 4) : BitVec 32 := vget 0 x.k r.toNat

/-- A generator register written, on to the next word. -/
def Gen.write (x : Gen) (d : BitVec 4) (v : BitVec 32) : GenAct := .go (vset x.k d.toNat v) 1

/-- KLDI (R273). -/
def execKldi (i : BitVec 8) (d : BitVec 4) (s : State) : Host.Outcome State Fault Refusal :=
  runPattern (0xe1 + i.toNat * 262144 + d.toNat * 256) (fun x _ => x.write d (i.signExtend 32)) s

/-- KADDI (R273). -/
def execKaddi (i : BitVec 8) (a : BitVec 4) (d : BitVec 4) (s : State) : Host.Outcome State Fault Refusal :=
  runPattern (0x400000e1 + i.toNat * 262144 + a.toNat * 16384 + d.toNat * 256) (fun x _ => x.write d (x.reg a + i.signExtend 32)) s

/-- KADD (R273). -/
def execKadd (b : BitVec 4) (a : BitVec 4) (d : BitVec 4) (s : State) : Host.Outcome State Fault Refusal :=
  runPattern (0x800000e1 + b.toNat * 67108864 + a.toNat * 16384 + d.toNat * 256) (fun x _ => x.write d (x.reg a + x.reg b)) s

/-- KSUB (R273). -/
def execKsub (b : BitVec 4) (a : BitVec 4) (d : BitVec 4) (s : State) : Host.Outcome State Fault Refusal :=
  runPattern (0xc00000e1 + b.toNat * 67108864 + a.toNat * 16384 + d.toNat * 256) (fun x _ => x.write d (x.reg a - x.reg b)) s

/-- KMUL (R273). -/
def execKmul (b : BitVec 4) (a : BitVec 4) (d : BitVec 4) (s : State) : Host.Outcome State Fault Refusal :=
  runPattern (0xe3 + b.toNat * 67108864 + a.toNat * 16384 + d.toNat * 256) (fun x _ => x.write d (x.reg a * x.reg b)) s

/-- KDIV: rounds toward −∞; a zero divisor is pattern fault 0x07 (R273, R283). -/
def execKdiv (b : BitVec 4) (a : BitVec 4) (d : BitVec 4) (s : State) : Host.Outcome State Fault Refusal :=
  runPattern (0x400000e3 + b.toNat * 67108864 + a.toNat * 16384 + d.toNat * 256) (fun x _ =>
    if x.reg b = 0 then .bad 7 else x.write d (BitVec.ofInt 32 ((x.reg a).toInt.fdiv (x.reg b).toInt))) s

/-- KMOD: takes the sign of kb (R273). -/
def execKmod (b : BitVec 4) (a : BitVec 4) (d : BitVec 4) (s : State) : Host.Outcome State Fault Refusal :=
  runPattern (0x800000e3 + b.toNat * 67108864 + a.toNat * 16384 + d.toNat * 256) (fun x _ =>
    if x.reg b = 0 then .bad 7 else x.write d (BitVec.ofInt 32 ((x.reg a).toInt.fmod (x.reg b).toInt))) s

/-- KMIN (R273). -/
def execKmin (b : BitVec 4) (a : BitVec 4) (d : BitVec 4) (s : State) : Host.Outcome State Fault Refusal :=
  runPattern (0xc00000e3 + b.toNat * 67108864 + a.toNat * 16384 + d.toNat * 256) (fun x _ => x.write d (if (x.reg b).slt (x.reg a) then x.reg b else x.reg a)) s

/-- KMAX (R273). -/
def execKmax (b : BitVec 4) (a : BitVec 4) (d : BitVec 4) (s : State) : Host.Outcome State Fault Refusal :=
  runPattern (0xe5 + b.toNat * 67108864 + a.toNat * 16384 + d.toNat * 256) (fun x _ => x.write d (if (x.reg a).slt (x.reg b) then x.reg b else x.reg a)) s

/-- KSHR (R273). -/
def execKshr (i : BitVec 5) (a : BitVec 4) (d : BitVec 4) (s : State) : Host.Outcome State Fault Refusal :=
  runPattern (0x400000e5 + i.toNat * 262144 + a.toNat * 16384 + d.toNat * 256) (fun x _ => x.write d ((x.reg a).sshiftRight i.toNat)) s

/-- hash(x, y, s) of R275. -/
def hashOf (x y p : BitVec 32) : BitVec 32 :=
  let t := x * 0x9E3779B1#32 + y * 0x85EBCA77#32 + p
  let t := t ^^^ (t >>> 15)
  let t := t * 0x2C1B3C6D#32
  t ^^^ (t >>> 13)

/-- KHASH (R273, R275). -/
def execKhash (b : BitVec 4) (a : BitVec 4) (d : BitVec 4) (s : State) : Host.Outcome State Fault Refusal :=
  runPattern (0x800000e5 + b.toNat * 67108864 + a.toNat * 16384 + d.toNat * 256) (fun x p => x.write d (hashOf (x.reg a) (x.reg b) (vget 0 p.params 7))) s

/-- KLDP (R273). -/
def execKldp (i : BitVec 3) (d : BitVec 4) (s : State) : Host.Outcome State Fault Refusal :=
  runPattern (0xc00000e5 + i.toNat * 262144 + d.toNat * 256) (fun x p => x.write d (vget 0 p.params i.toNat)) s

/-- KEMIT (R274). -/
def execKemit (b : BitVec 4) (a : BitVec 4) (s : State) : Host.Outcome State Fault Refusal :=
  runPattern (0xe7 + b.toNat * 67108864 + a.toNat * 16384) (fun x _ => .emit (x.reg a).toInt (x.reg b).toInt) s

/-- KBLT (R273). -/
def execKblt (b : BitVec 4) (i : BitVec 8) (a : BitVec 4) (s : State) : Host.Outcome State Fault Refusal :=
  runPattern (0x400000e7 + b.toNat * 67108864 + i.toNat * 262144 + a.toNat * 16384) (fun x _ => .go x.k (if (x.reg a).slt (x.reg b) then i.toInt else 1)) s

/-- KLOOP (R273). -/
def execKloop (i : BitVec 8) (a : BitVec 4) (s : State) : Host.Outcome State Fault Refusal :=
  runPattern (0x800000e7 + i.toNat * 262144 + a.toNat * 16384) (fun x _ =>
    let v := x.reg a - 1
    .go (vset x.k a.toNat v) (if 0 < v.toInt then i.toInt else 1)) s

/-- KEND (R273). -/
def execKend (s : State) : Host.Outcome State Fault Refusal :=
  runPattern (0xc00000e7) (fun _ _ => .finish) s

end Sys2Proof.Machine
end

