-- ==== Sys2Proof/Machine/StateRegs.lean ====
section
/-! DEFINITION. Reading and writing state registers (R49, R120 to R122). -/

namespace Sys2Proof.Machine

/-- MQW: the arbiter weight of the core's bind record (R127, R313). -/
def State.mqw (s : State) (core : Nat) : Word :=
  match s.bindOf core with
  | some b => word ((s.bind b).field 7 1 % 16)
  | none => 0

/-- The value SRD reads (R121, R133). -/
def State.stateReg (s : State) (n : Nat) : Word :=
  let c := s.my
  match n with
  | 0 => c.status
  | 1 => c.vtype
  | 2 => c.awc
  | 3 => c.epc
  | 4 => c.ecause
  | 5 => c.eval
  | 6 => if c.lh then c.lcv else s.hset s.me.1 s.me.2
  | 7 => s.myCore.ctag
  | 8 => c.amax
  | 9 => c.tgen
  | 10 => c.rprog
  | 11 => s.mqw s.me.1
  | n => vget 0 c.cnt (n - 16)

/-- HSET of the strand's team written (R132). -/
def State.setHset (s : State) (v : Word) : State := s.setTeam s.my.team { s.team s.my.team with hset := v }

/-- SWR: the write, or the illegal-instruction trap, which leaves the register unchanged (R121). -/
def writeStateReg (n : Nat) (v : Word) : M Unit := do
  let s ← get
  match n with
  | 0 =>
    require (statusOk v) cIllegal
    change fun s => s.updMy fun c => { c with prio := bitsAt v 32 2, arv := c.arv && bitsAt v 8 1 == 1 }
  | 1 =>
    require (vtypeOk v) cIllegal
    change fun s => s.updMy fun c => { c with vtype := v }
  | 2 =>
    require (awcOk v) cIllegal
    change fun s => s.updMy fun c => { c with awc := v }
  | 3 =>
    require (codeAddress v) cIllegal
    change fun s => s.updMy fun c => { c with epc := v }
  | 4 =>
    require (ecauseOk v) cIllegal
    change fun s => s.updMy fun c => { c with ecause := v }
  | 5 => change fun s => s.updMy fun c => { c with eval := v }
  | 6 =>
    require (hsetOk v) cIllegal
    change fun s => s.setHset v
  | 8 =>
    require (amaxOk v) cIllegal
    change fun s => s.updMy fun c => { c with amax := v }
  | 9 =>
    require (decide (v.toNat ≤ s.fabric.cgen)) cIllegal
    change fun s => s.updMy fun c => { c with tgen := v }
  | 10 => change fun s => s.updMy fun c => { c with rprog := v }
  | n =>
    -- CTAG and MQW are written by no SWR: their words are no encodings (R46)
    require (decide (16 ≤ n)) cIllegal
    change fun s => s.updMy fun c => { c with cnt := vset c.cnt (n - 16) (word (min v.toNat 0xFFFFFFFF)) }

/-- SRD (R120, R121). -/
def execSrd (b d : BitVec 5) (s : State) : Host.Outcome State Fault Refusal :=
  runInstr (.srd b d) (do
    ports [d]
    let s ← get
    dst d (s.stateReg b.toNat)
    pure .seq) s

/-- SWR from a register (R120, R121). -/
def execSwr (b a : BitVec 5) (s : State) : Host.Outcome State Fault Refusal :=
  runInstr (.swr b a) (do
    ports [a]
    let v ← src a
    writeStateReg b.toNat v
    pure .seq) s

/-- SWR of an immediate (R120, R121). -/
def execSwrImm (i : BitVec 14) (d : BitVec 5) (s : State) : Host.Outcome State Fault Refusal :=
  runInstr (.swrImm i d) (do
    writeStateReg d.toNat (i.zeroExtend 64)
    pure .seq) s

end Sys2Proof.Machine
end

