-- ==== Sys2Proof/Machine/Ports.lean ====
section
/-! DEFINITION. Binding and unbinding ports, control elements, the HSET instruction (R181 to R188). -/

namespace Sys2Proof.Machine

/-- A port field names v24 to v31 within the allocation (R125, R181). -/
def portField (d : BitVec 5) : M Unit := do
  allocated [(d, 1)]
  require (decide (24 ≤ d.toNat)) cIllegal 0x22

/-- The port must be bound, or unbound. -/
def portBound (d : BitVec 5) (want : Bool) : M Unit := do
  let s ← get
  require ((s.my.port d.toNat != .plain) == want) cIllegal 0x22

/-- A stream of its descriptor (R182). -/
def streamOf (r : List Byte) : Stream :=
  { write := recField r 30 1 % 2 == 1, mark := recField r 30 1 / 2 % 2 == 1, base := word (recField r 0 8)
    step0 := word (recField r 8 8), step1 := word (recField r 16 8), len0 := recField r 24 4, len1 := recField r 28 2 }

/-- A descriptor that R182 admits. -/
def streamOk (r : List Byte) : Bool :=
  recField r 24 4 != 0 && recField r 28 2 != 0 && decide (recField r 30 1 < 4) && recField r 31 1 == 0 && recField r 30 1 != 3

/-- SBIND (R182). -/
def execSbind (a d : BitVec 5) (s : State) : Host.Outcome State Fault Refusal :=
  runInstr (.sbind a d) (do
    portField d
    portBound d false
    let p ← base a
    aligned p 0 32 false
    let r ← load p 0 32
    require (streamOk r) cIllegal 0x23
    change fun s => s.updMy fun c => c.setPort d.toNat (.stream { streamOf r with interval := c.interval, issued := s.tick })
    pure .seq) s

/-- QBIND (R185). -/
def execQbind (b d : BitVec 5) (s : State) : Host.Outcome State Fault Refusal :=
  runInstr (.qbind b d) (do
    portField d
    ports [b]
    portBound d false
    let w ← src b
    require (bitsAt w 4 60 == 0) cIllegal 0x23
    let dir := bitsAt w 0 2
    let s ← get
    match neighbour s.me.1 dir with
    | none => raise cPerm (0x30 + dir)
    | some n =>
      require (s.bound n s.my.tenant) cPerm (0x30 + dir)
      change fun s => s.updMy fun c => c.setPort d.toNat (.queue dir (bitsAt w 2 2))
      pure .seq) s

/-- The delayed appends to a port have landed; while one has no room the instruction waits. A window that is open at the UNBIND of its
port closes for that port's appends (DESIGN CHOICE, log entry 15). -/
def landAppends (k : Nat) : M Unit := do
  let s ← get
  let due := fun (p : Pending) => match p.land with | .append j _ _ => if j = k then { p with left := 0 } else p | _ => p
  let r := (s.updMy fun c => { c with pend := c.pend.map due }).landPending s.me.1 s.me.2 false
  if r.2 then stall else set r.1

/-- UNBIND: delayed appends land, and a write stream is drained, first (R184, R186). -/
def execUnbind (d : BitVec 5) (s : State) : Host.Outcome State Fault Refusal :=
  runInstr (.unbind d) (do
    portField d
    portBound d true
    let s ← get
    if s.my.pend.any fun p => match p.land with | .append j _ _ => j == d.toNat - 24 | _ => false then landAppends (d.toNat - 24)
    let s ← get
    match s.my.port d.toNat with
    | .stream t =>
      if t.write then
        match t.fault with
        | some f => stop (.trap f [.stream (d.toNat - 24)])
        | none =>
          if !t.buf.isEmpty || s.fabric.packets.any (fun p => p.core == s.me.1 && p.agent == s.me.2) then stall
          change fun s => s.updMy fun c => c.setPort d.toNat .plain
          pure .seq
      else
        change fun s => s.updMy fun c => c.setPort d.toNat .plain
        pure .seq
    | _ =>
      change fun s => s.updMy fun c => c.setPort d.toNat .plain
      pure .seq) s

/-- QCTL: a control element appended to a queue (R187). Of a stream port and a word with bit 63 set, which R187 lists word first and the table
of R156 port first, the word raises (DESIGN CHOICE, log entry 15). -/
def execQctl (a d : BitVec 5) (s : State) : Host.Outcome State Fault Refusal :=
  runInstr (.qctl a d) (do
    portField d
    ports [a]
    let s ← get
    match s.my.port d.toNat with
    | .plain => raise cIllegal 0x22
    | .stream _ =>
      let w ← src a
      require (bitsAt w 63 1 == 0) cIllegal 0x23
      raise cIllegal 0x22
    | .queue dir ch =>
      let w ← src a
      require (bitsAt w 63 1 == 0) cIllegal 0x23
      let s ← get
      match s.sendElement s.me.1 dir ch (w.zeroExtend 4096, true) with
      | some t =>
        set t
        pure .seq
      | none => stall) s

/-- HSET: the old value is answered and the new one written (R188). -/
def execHset (a d : BitVec 5) (s : State) : Host.Outcome State Fault Refusal :=
  runInstr (.hset a d) (do
    ports [a, d]
    let v ← src a
    require (hsetOk v) cIllegal 0x23
    let s ← get
    let old := s.hset s.me.1 s.me.2
    change fun s => s.setHset v
    dst d old
    pure .seq) s

end Sys2Proof.Machine
end

