-- ==== Sys2Proof/Machine/Preempt.lean ====
section
/-! DEFINITION. Pre-emption, the save and the restore of a core (R76, R148, R189, R220, R266, R329 to R333). The image in
memory has a layout of its own; here it is a record (DESIGN CHOICE, log entry 9).
Readings of the spec that this file takes: DEDUCED, log entry 26. -/

namespace Sys2Proof.Machine

/-! ### The halt (R329) -/

/-- The AMSG of a context has not been taken, or its target core is dead: the message is withdrawn and the instruction has not
executed. A reply on its way is waited for. -/
def State.withdrawMessage (s : State) (core ctx : Nat) : State :=
  if (s.ctx core ctx).wait != .amsg none
      || s.queue.any (fun e => match e with | .amsgReply c i _ => c == core && i == ctx | _ => false) then s
  else
    let s := s.updCtx core ctx fun c => { c with wait := .none }
    match s.cores.find? fun e => e.2.amsgs.any fun m => m.sender == (core, ctx) with
    | some e => (s.updCore e.1 fun c => { c with amsgs := c.amsgs.filter fun m => m.sender != (core, ctx) }).gangOfCore e.1
    | none => s

/-- Loads still outstanding, an announced LD.SC among them, are dropped; they execute again after the restore. Atomics already sent keep
their answer. -/
def State.dropLoads (s : State) (core ctx : Nat) : State :=
  match (s.ctx core ctx).wait with
  | .sc none =>
    if s.scOps.any fun o => o.core == core && o.ctx == ctx && o.kind == 0 then
      { s with scOps := s.scOps.filter fun o => !(o.core == core && o.ctx == ctx && o.kind == 0) }.updCtx core ctx fun c => { c with wait := .none }
    else s
  | .remote ids _ =>
    let mine := s.fabric.packets.filter fun p => ids.contains p.id && p.kind == PacketKind.load
    if mine.isEmpty then s
    else
      { s with fabric := { s.fabric with packets := s.fabric.packets.filter fun p => !(ids.contains p.id && p.kind == PacketKind.load) } }.updCtx core ctx
        fun c => { c with wait := .none }
  | _ => s

/-- A read stream's fetched elements are discarded; they are fetched again after the restore (R189). -/
def Stream.rewind (t : Stream) : Stream := if t.write then t else { t with buf := [], moved := t.next, fault := none }

/-- Every pending write lands (R54): a word or element whose receiver has no room leaves, and is held by its sender from then on (R330);
an append to a write stream that holds 4 elements follows as those are drained, before the save (R128, R189). -/
def State.landAll (s : State) (core ctx : Nat) : State :=
  let r := (s.landPending core ctx true).1
  let leave := fun (s : State) (p : Pending) =>
    match p.land with
    | .send dir v =>
      (match neighbour core dir with | some n => { s with retries := s.retries ++ [.meshPortWordArrival n (opposite dir) v] } | none => s)
    | .append k v _ =>
      (match vget .plain (s.ctx core ctx).ports k with
       | .queue dir ch =>
         (match neighbour core dir with | some n => { s with retries := s.retries ++ [.queueElementArrival n (opposite dir) ch v false] } | none => s)
       | _ => s)
    | _ => s
  let later := fun (p : Pending) => match p.land with | .append k _ _ => ((r.streamAt core ctx k).isSome) | _ => false
  ((r.ctx core ctx).pend.foldl leave r).updCtx core ctx fun c => { c with pend := c.pend.filter later }

/-- A pair whose core is named compares; it is saved once, so the other context is freed. A pair whose secondary's core
alone is named goes on unpaired (R148, DESIGN CHOICE, log entry 9). -/
def State.haltPair (s : State) (core ctx : Nat) : State :=
  match (s.ctx core ctx).pair with
  | none => s
  | some p =>
    if p.primary then
      -- the held primary names no other context until it is paired again
      let t := (s.comparePair core ctx).1
      (t.updCtx p.core p.ctx Ctx.freed).updCtx core ctx fun c => { c with pair := c.pair.map fun q => { q with ctx := 9 } }
    else
      let t := (s.comparePair p.core p.ctx).1
      (t.updCtx p.core p.ctx fun c => { c with pair := none, pairBit := false }).updCtx core ctx Ctx.freed

/-- The instruction's result is on its way or has come: it does not begin again, and keeps the words that it has taken. -/
def Ctx.underWay (c : Ctx) : Bool := match c.wait with | .amsg _ | .sc _ | .phase _ | .remote _ _ => true | _ => false

/-- A context halts at its instruction boundary. -/
def State.haltCtx (s : State) (core ctx : Nat) : State :=
  if ctx < 8 ∧ (s.ctx core ctx).st = .free then s
  else
    let s := (s.withdrawMessage core ctx).dropLoads core ctx
    let s := if (s.ctx core ctx).underWay then s else s.giveBack core ctx
    -- a secondary's pending writes are the primary's, which lands them
    let second := match (s.ctx core ctx).pair with | some p => !p.primary | none => false
    let s := (if second then s else s.landAll core ctx).haltPair core ctx
    s.updCtx core ctx fun c =>
      { c with
        arrived := .none
        touched := if c.underWay then c.touched else []
        st := if c.st = .stalled then .eligible else c.st
        midway := false
        ports := c.ports.map fun (p : Port) => match p with | .stream t => .stream t.rewind | p => p }

/-- The columns of a sparse MWLD whose runs have completed, from the first that has not been counted on, are counted in ROW and their
cells kept, without any fault (R266, R285). -/
def State.keepColumns (s : State) (g core : Nat) : State :=
  match s.runningCmd g with
  | none => s
  | some (run, q) =>
    match q.binding with
    | none => s
    | some b =>
      if run.core ≠ core || q.fn ≠ 0 then s
      else
        let whole := fun c => if (q.major c).isSome then run.columns.contains c else !(b.transposed && decide (q.param 4 + c < b.ks))
        let n := (((List.range (128 - q.row)).find? fun k => !whole (q.row + k)).getD (128 - q.row))
        match weightColumns core q q.record b run n q.row (q.stage.getD (stageOf q.record b.kt)) s with
        | .ok w t => t.updCmd core q.id fun p => { p with row := q.row + n, stage := some w }
        | .stop _ t => t
        | _ => s

/-- A named core halts and refuses requests from then on (R329, R330): its transfers stop where they are, its matrix
command stops at its row, its L1 writes back and moves live records home. -/
def State.haltCore (s : State) (core : Nat) : State :=
  let c := s.core core
  if c.dead || c.evicted then s
  else
    let s := (List.range 9).foldl (fun s i => s.haltCtx core i) s
    let g := galleyOf core
    let s := s.keepColumns g core
    let s := match (s.galley g).running with
      | some r =>
        if r.core = core then
          s.setGalley g { s.galley g with running := none, gens := (s.galley g).gens.map fun (k : Gen) => { k with running := false } }
        else s
      | none => s
    let s := (s.core core).l1.foldl (fun s e => s.evict core e) s
    s.updCore core fun c => { c with evicted := true, saved := false }

/-- The named cores halt. A pair whose primary's core is named is halted from there first, so that it is saved once and paired (R148). -/
def State.preempt (s : State) (cores : List Nat) : State :=
  let primaries := cores.flatMap fun n =>
    if (s.core n).dead || (s.core n).evicted then []
    else ((List.range 8).filter fun i => match (s.ctx n i).pair with | some p => p.primary | none => false).map fun i => (n, i)
  cores.foldl (fun s n => s.haltCore n) (primaries.foldl (fun s p => s.haltCtx p.1 p.2) s)

/-! ### The save (R331) -/

/-- Something that an evicted core's instructions have already sent is still to be performed or to answer, its result going into the saved
context first; or a write stream has not been drained (R189, R329). -/
def State.saveWaits (s : State) (core : Nat) : Bool :=
  let c := s.core core
  ((List.range 9).any fun i =>
    match (c.ctx i).wait with
    | .amsg none => true
    | .sc none => true
    | .phase none => true
    | .remote ids _ => s.fabric.packets.any fun p => ids.contains p.id
    | _ => false)
    || ((List.range 8).any fun i => (c.ctx i).ports.toList.any fun p =>
      match p with | .stream t => t.write && !t.buf.isEmpty && t.fault.isNone | _ => false)
    || ((List.range 8).any fun i => (c.ctx i).pend.any fun p =>
      match p.land with | .append k _ _ => (match s.streamAt core i k with | some t => t.fault.isNone | none => false) | _ => false)
    || (s.fabric.packets.any fun p => p.core == core && (match p.kind with | .load => false | _ => true))
    || (c.copies.toList.any fun o => match o with | some p => !p.flying.isEmpty | none => false)

/-- The eight registers and the link of frame j, as the spill handler of R65 stores them. -/
def Regs.frameBytes (c : Regs) (j : Nat) : List Byte :=
  (List.range 8).flatMap (fun i => leBytes 8 (vget 0 c.rf (c.frame j + i)).toNat) ++ leBytes 8 (c.link j).toNat

/-- Older frames of a strand go to its memory stack, oldest first; if a byte fails translation they stay (R331). They stay too while a
SPILL handler shows the oldest of them in its window, which R76 resumes where it stopped (DEDUCED, log entry 26). -/
def State.saveFrames (s : State) (core ctx : Nat) : State :=
  let c := s.ctx core ctx
  if c.st = .free || c.res ≤ 2 || (c.trap && c.twin == .spill) then s
  else
    let bs := (List.range (c.res - 2)).flatMap fun k => c.toRegs.frameBytes (c.depth + 2 - c.res + k)
    let g0 := vget 0 c.tbank 0
    match checkExtent s { core, agent := ctx, interval := c.interval } (s.strandSpace core ctx) { write := true, gen := c.tgen } g0 0 bs.length {} with
    | .ok a t =>
      let t := (a.exts.foldl (fun (p : State × List Byte) e => (p.1.homeWrite e.key (p.2.take e.len), p.2.drop e.len)) (t, bs)).1
      t.updCtx core ctx fun c => { c with res := 2, tbank := vset c.tbank 0 (g0 + word bs.length) }
    -- what the walk has cached stays (R343)
    | .trap _ t | .wait t => s.updCore core fun c => { c with tlb := (t.core core).tlb }

/-- Cells of a core's local store, by offset. -/
def State.storeCells (s : State) (core : Nat) : Memory :=
  (s.mem.filter fun e => decide (storeKey core 0 ≤ e.1) && decide (e.1 < storeKey core 0 + 2 ^ 19)).map fun (e : Host.Cell) => (e.1 - storeKey core 0, e.2)

/-- Tiles that a core's names bind. -/
def State.namedTiles (s : State) (core : Nat) (second : Bool) : List (Nat × Tile) :=
  (List.range 4).filterMap fun n =>
    match vget none (s.core core).acc n with
    | none => none
    | some b => ((if second then b.second else some b.tile).bind fun i => vget none (s.galley (galleyOf core)).tiles i).map fun t => (n, t)

/-- The evicted core no longer holds what its image holds: strands, hart, queues, tags, tasks and accumulators. Its local store with the
full bits, weight slot, impositions and pattern state stay as they are until something writes them (R135; DESIGN CHOICE, log entry 9). It
stays evicted. -/
def State.emptyCore (s : State) (core : Nat) : State :=
  let s := (List.range 4).foldl (fun s n => s.releaseAcc core n) s
  s.updCore core fun c =>
    { Core.reset with
      ctxs := c.ctxs.map Ctx.freed, hart := { Core.reset.hart with interval := c.hart.interval + 1 }, cap := c.cap, tlb := c.tlb
      wslot := c.wslot, lastFmt := c.lastFmt, impo := c.impo, pbind := c.pbind, kernels := c.kernels
      evicted := true, saved := true, announced := c.announced, bad := c.bad, arrivals := c.arrivals, amsgs := c.amsgs }

/-- The image's bytes in the save area (R331), where the area lies in the package's memory. -/
def State.writeImage (s : State) (core num : Nat) : State :=
  let key := (s.bind num).field 48 8 + 2 ^ 20 * (s.bind num).rank core
  if key + 2 ^ 20 ≤ 2 ^ 39 then s.homeWrite key ((Config.imageBytes s.tick core).take (2 ^ 20)) else s

/-- Appends that a faulted stream of 4 elements kept out join it: no saved context holds a pending write (R54; DEDUCED, log entry 26). -/
def State.joinAppends (s : State) (core ctx : Nat) : State :=
  (s.ctx core ctx).pend.foldl (fun s p =>
    match p.land with
    | .append k v n =>
      (match s.streamAt core ctx k with
       | some t => s.setStream core ctx k { t with buf := t.buf ++ [v], stamps := t.stamps ++ [n], next := t.next + 1 }
       | none => s)
    | _ => s) s |>.updCtx core ctx fun c => { c with pend := [] }

/-- Bad data that the save of a core streams out: it kills the core (R150, R331). -/
def Core.badImage (c : Core) : Bool :=
  c.bad.any fun b =>
    match b with
    | .stack i | .vector i | .masks i | .context i => (c.ctx i).st != .free
    | .localStore _ => true
    | .dirty _ => false

/-- The image has been streamed out (R331); where that consumes bad data the core dies instead (R150). It takes the place of one that the same rank of the same gang has left in the save area. -/
def State.saveDone (s : State) (core : Nat) : State :=
  if !(s.core core).evicted || (s.core core).saved || s.saveWaits core then s
  else if (s.core core).badImage then s.killCore core
  else
    let s := (List.range 8).foldl (fun s i => s.joinAppends core i) s
    let s := (List.range 8).foldl (fun s i => s.saveFrames core i) s
    let s := (s.core core).l1.foldl (fun s e => s.evict core e) s
    let num := (s.bindOf core).getD 0
    let g := galleyOf core
    let c := s.core core
    let image : Image :=
      { core, gang := num, rank := (s.bind num).rank core, saved := { c with l1 := [], remote := [], tlb := [], arrivals := [], amsgs := [] }
        store := s.storeCells core
        full := (s.full.filter fun w => w / 65536 == core).map fun w => w % 65536
        tiles := s.namedTiles core false, tile2 := s.namedTiles core true
        patterns := ((s.galley g).pstore.filter fun e => e.1 / 128 == galleyIndex core).map fun (e : Nat × BitVec 32) => (e.1 % 128, e.2) }
    { (s.emptyCore core).writeImage core num with images := (s.images.filter fun m => !(m.core == core && m.gang == num)) ++ [image] }

/-! ### The restore (R332, R333) -/

/-- Contexts of an image that hold strands. -/
def Image.ctxs (m : Image) : List Nat := (List.range 8).filter fun i => (m.saved.ctx i).st != .free

/-- A binding of a queue port that R185 would refuse on a core. -/
def State.portRefused (s : State) (core tenant : Nat) (p : Port) : Bool :=
  match p with
  | .queue dir _ => (match neighbour core dir with | some n => !s.bound n tenant | none => true)
  | _ => false

/-- A restore is possible (R332): the core has the contexts, and the image's registers, tiles, frames and ports fit. A port is held to R185
on every core, the one that was saved too, whose neighbour may have left the tenant: R189 speaks of another core only (DESIGN CHOICE, log
entry 9). -/
def State.canRestore (s : State) (m : Image) (core : Nat) : Bool :=
  let c := s.core core
  let tiles := m.tiles.length + m.tile2.length
  !c.dead && s.bound core (s.bind m.gang).ten
    && decide (m.ctxs.length ≤ c.freeCtxs.length)
    && (c.arrivals.isEmpty || decide (m.ctxs.length < c.freeCtxs.length))
    && decide (c.vaUsed + m.saved.vaUsed ≤ 64)
    && decide (tiles ≤ (s.galley (galleyOf core)).tiles.toList.countP (fun t => t.isNone))
    && (m.ctxs.all fun i => decide ((m.saved.ctx i).res ≤ c.cap))
    && (m.ctxs.all fun i => (m.saved.ctx i).ports.toList.all fun p => !s.portRefused core (m.saved.ctx i).tenant p)

/-- A saved tile takes a free physical tile; the answer is its number. -/
def State.placeTile (s : State) (g : Nat) (t : Tile) : State × Nat :=
  let i := ((List.range 4).find? fun i => (vget none (s.galley g).tiles i).isNone).getD 0
  (s.setGalley g { s.galley g with tiles := vset (s.galley g).tiles i (some t) }, i)

/-- Names bound again to tiles of the new galley, claimed as before. -/
def State.placeTiles (s : State) (core : Nat) (m : Image) (seat : Nat → Nat) : State :=
  (List.range 4).foldl (fun s n =>
    match vget none m.saved.acc n, find m.tiles n with
    | some b, some t =>
      let p := s.placeTile (galleyOf core) t
      let q := match find m.tile2 n with
        | some u => let r := p.1.placeTile (galleyOf core) u; (r.1, some r.2)
        | none => (p.1, none)
      q.1.updCore core fun c => { c with acc := vset c.acc n (some { tile := p.2, second := q.2, claimer := if b.claimer < 8 then seat b.claimer else b.claimer }) }
    | _, _ => s) s

/-- A restored strand: frames counted against the new CAP, ARV on another core (R333). -/
def restoredCtx (x : Ctx) (cap interval : Nat) (moved : Bool) : Ctx :=
  let frames := (List.range x.res).map fun k => x.depth + 2 - x.res + k
  let regs := frames.foldl (fun (r : Vector Word 64) j =>
    (List.range 8).foldl (fun r i => vset r (8 * (j % cap) + i) (vget 0 x.rf (x.toRegs.frame j + i))) r) (Vector.replicate 64 0)
  let links := frames.foldl (fun (l : Vector Word 8) j => vset l (j % cap) (x.toRegs.link j)) (Vector.replicate 8 0)
  -- a FILL handler's half-loaded frame lies in the slot of DEPTH + CAP − 1 (R65)
  let regs := if x.trap && x.twin == .fill then
      (List.range 8).foldl (fun r i => vset r (8 * ((x.depth + cap - 1) % cap) + i) (vget 0 x.rf (x.toRegs.frame (x.depth + x.cap - 1) + i))) regs
    else regs
  { x with cap, rf := if cap = x.cap then x.rf else regs, links := if cap = x.cap then x.links else links
           arv := x.arv || moved, interval }

/-- The context that a saved strand takes on a core: its own number where all are free, else the lowest free ones in order. -/
def Image.place (m : Image) (c : Core) (i : Nat) : Nat :=
  if m.ctxs.all fun k => (c.ctx k).st == .free then i
  else match (m.ctxs.zip c.freeCtxs).find? fun p => p.1 == i with | some p => p.2 | none => i

/-- Records of the image's agents follow them: to their new core and contexts, and strands' and the hart's to their new intervals. -/
def State.followRecords (s : State) (m : Image) (core : Nat) (seat : Nat → Nat) : State :=
  { s with records := s.records.map fun (h : HomeRec) =>
      if h.core = m.core ∧ m.saved.recLive h.access then
        { h with core
                 access :=
                   let a := if h.access.agent < 8 then seat h.access.agent else h.access.agent
                   if h.access.agent < 8 ∧ (m.saved.ctx h.access.agent).interval = h.access.interval
                       ∨ h.access.agent = 8 ∧ hartInterval m.saved.hart.interval = h.access.interval then
                     { h.access with agent := a, interval := s.intervalOf core a }
                   else { h.access with agent := a } }
      else h }

/-- The saved program store over the core's partition, which it replaces. -/
def State.loadPatterns (s : State) (m : Image) (core : Nat) : State :=
  let g := galleyOf core
  let others := (s.galley g).pstore.filter fun e => e.1 / 128 != galleyIndex core
  s.setGalley g { s.galley g with pstore := m.patterns.foldl (fun t (e : Nat × BitVec 32) => put t (galleyIndex core * 128 + e.1) e.2) others }

/-- The image is loaded onto a core, which answers requests again. Strands, teams and commands belong to the gang of the record that holds
the core, and have the core's rank (R316, R333). -/
def State.loadImage (s : State) (m : Image) (core : Nat) : State :=
  let moved := core != m.core
  let seat := m.place (s.core core)
  let num := (s.bindOf core).getD m.gang
  let rank := (s.bind num).rank core
  let mine := (m.ctxs.map fun i => (m.saved.ctx i).team) ++ m.saved.tasks.toList.filterMap (fun t => t.map fun k => k.team)
    ++ m.saved.copies.toList.filterMap (fun o => o.map fun p => p.team) ++ m.saved.mq.map fun q => q.team
  let s := (s.joinGang num).clearStore core
  let s := { s with
    mem := m.store.foldl (fun mem (e : Host.Cell) => memPut mem (storeKey core e.1) e.2) s.mem
    full := (m.full.map fun w => core * 65536 + w) ++ s.full
    images := s.images.filter fun x => x != m
    teams := s.teams.map (fun (t : Nat × Team) => if mine.contains t.1 ∧ t.2.live then (t.1, { t.2 with core, gang := num }) else t) }
  -- the core of the image is no longer waited for
  let s := s.updCore m.core fun c => if c.saved then { c with evicted := false, saved := false } else c
  let c := s.core core
  let s := m.ctxs.foldl (fun s i => (s.repairCtx core (seat i)).updCore core fun k =>
    let x := restoredCtx (m.saved.ctx i) c.cap ((s.ctx core (seat i)).interval + 1) moved
    { k.setCtx (seat i) { x with gang := if x.gang = m.gang then num else x.gang } with skip := vset k.skip (seat i) 0 }) s
  let s := s.updCore core fun k => { k with
    hart := { m.saved.hart with interval := c.hart.interval + 1, gang := num }
    hartStopped := m.saved.hartStopped
    queue := m.saved.queue, taken := m.saved.taken, fifo := m.saved.fifo, chan := m.saved.chan, tasks := m.saved.tasks
    drawn := m.saved.drawn, returned := m.saved.returned
    ctag := m.saved.ctag
    copies := m.saved.copies.map fun o => o.map fun (p : Copy) => { p with ctx := seat p.ctx }
    kernels := m.saved.kernels
    mq := m.saved.mq.map fun q => { q with ctx := if q.ctx < 8 then seat q.ctx else q.ctx, rank }
    wslot := m.saved.wslot
    lastFmt := m.saved.lastFmt, impo := m.saved.impo, pbind := m.saved.pbind, evicted := false, saved := false }
  let s := s.followRecords m core seat
  let s := (s.placeTiles core m seat).loadPatterns m core
  (m.ctxs.foldl (fun s i => s.pairAgain core (seat i)) s).gangCheck m.gang

/-- The image of a core that a restore onto a core names: that of the gang which holds the core, if there is one. -/
def State.imageFor (s : State) (image core : Nat) : Option Image :=
  (s.images.find? fun m => m.core == image && s.bindOf core == some m.gang).or (s.images.find? fun m => m.core == image)

/-- A restore of the image of one core onto a core, or its refusal with a capacity status (R332). -/
def State.restoreImage (s : State) (image core : Nat) : State :=
  match s.imageFor image core with
  | none => s.notify (dieOf core) (.restoreRefused core)
  | some m => if s.canRestore m core then s.loadImage m core else s.notify (dieOf core) (.restoreRefused core)

/-! ### The events -/

/-- PREEMPTION (R329, R330). -/
def execPreemption (s : State) : Host.Outcome State Fault Refusal :=
  onEvent (fun e => match e with | .preemption cores => some fun s => s.preempt cores | _ => none) s

/-- PREEMPTION_SAVE_COMPLETE (R331). -/
def execPreemptionSaveComplete (s : State) : Host.Outcome State Fault Refusal :=
  onEvent (fun e => match e with | .preemptionSaveComplete core => some fun s => s.saveDone core | _ => none) s

/-- RESTORE (R332, R333). -/
def execRestore (s : State) : Host.Outcome State Fault Refusal :=
  onEvent (fun e => match e with | .restore image core => some fun s => s.restoreImage image core | _ => none) s

end Sys2Proof.Machine
end

