-- ==== Sys2Proof/Machine/Remote.lean ====
section
/-! DEFINITION. Requests and responses between packages: posted writes, loads, atomics and copies' write packets (R304,
R367, R404, R408, R409, R426).
Readings of the spec that this file takes: DEDUCED, log entry 23. -/

namespace Sys2Proof.Machine

/-! ### Requests of this package at their home -/

/-- Order of R409: no earlier packet of the agent to the same peer is still to be performed. -/
def Fabric.oldest (f : Fabric) (p : Packet) : Bool :=
  !(f.packets.any fun q => q.id < p.id && !q.performed && q.core == p.core && q.agent == p.agent && keyPeer q.key == keyPeer p.key)

def Fabric.packet (f : Fabric) (id : Nat) : Option Packet := f.packets.find? fun p => p.id == id

/-- A packet reaches its home and is performed there. -/
def State.arriveHome (s : State) (id : Nat) : State :=
  match s.fabric.packet id with
  | some p => if !p.performed && s.fabric.reachable (keyPeer p.key) && s.fabric.oldest p then s.performPacket p else s
  | none => s

def Packet.isCopy (p : Packet) : Bool := match p.kind with | .copy _ _ => true | _ => false

/-! ### Requests of another package at this home -/

/-- A write at this package's home L2: master blocks become PENDING; bytes that no write from outside may change stay
(R308, R366, R367). -/
def State.remoteWrite (s : State) (pa : Nat) (bs : List Byte) : State :=
  (runsOf (fun k => isHbm k && !s.refusesHost k) pa bs.length).foldl
    (fun s r => s.homeWrite r.1 ((bs.drop (r.1 - pa)).take r.2)) s

/-- The response to a copy's write packet: the header with the peers exchanged, OP 0x81, and bytes 18 to 31 repeated (R426). -/
def copyResponse (p : List Byte) : List Byte :=
  (p.drop 3).take 3 ++ p.take 3 ++ [0x81, 0] ++ List.replicate 10 0 ++ (p.drop 18).take 14

/-- A request at a home L2 (R404). -/
def State.remoteRequest (s : State) (r : RemoteRequest) : State :=
  match r with
  | .posted id => match s.fabric.packet id with | some p => if p.isCopy then s else s.arriveHome id | none => s
  | .load peer pa n =>
    if isHbm pa && isHbm (pa + n - 1) then (s.homeRead pa n).transmitBody peer 5 (memRead s.mem pa n) else s
  | .store peer pa bs => (s.remoteWrite pa bs).transmitBody peer 5 (Config.packetBody (2 ^ 64 + s.tick))
  | .atomic peer pa op wide y c =>
    let w := if wide then 64 else 32
    if isHbm pa && isHbm (pa + w / 8 - 1) && decide (op ≤ 10) then
      let s := (s.recallAll pa (w / 8)).homeRead pa (w / 8)
      let old := leNat (memRead s.mem pa (w / 8))
      let s := match (amoNew op w old (y.toNat % 2 ^ w) (c.toNat % 2 ^ w)).1 with
        | some v => s.remoteWrite pa (leBytes (w / 8) v)
        | none => s
      s.transmitBody peer 5 (leBytes (w / 8) old)
    else s
  | .copyWrite p =>
    (s.remoteWrite (recField p 8 8) ((p.drop 48).take (recField p 16 2 + 1))).transmit (recField p 3 3 % 2 ^ 18) 5 (copyResponse p)

/-! ### Responses -/

def State.dropPacket (s : State) (id : Nat) : State := { s with fabric := { s.fabric with packets := s.fabric.packets.filter fun p => p.id != id } }

/-- The lower of a lost byte and one more. -/
def lower (o : Option Word) (a : Word) : Option Word :=
  match o with
  | some b => some (if b.toNat ≤ a.toNat then b else a)
  | none => some a

/-- The response to a packet: an acknowledgement, data, or the packet returned as unreachable (R408). -/
def State.respond (s : State) (id : Nat) : State :=
  match s.fabric.packet id with
  | none => s
  | some p =>
    let t := (s.dropPacket id).clearBusy p.core p.key p.len
    if p.isCopy then s
    else if p.performed then
      match p.kind with
      | .load | .atomic _ _ _ _ =>
        t.updCtx p.core p.agent fun c =>
          { c with wait := match c.wait with
              | .remote ids got => if ids.contains id then .remote ids (got ++ p.bytes.zipIdx.map fun (b : Byte × Nat) => (p.key + b.2, b.1)) else c.wait
              | w => w }
      | _ => t
    else if s.fabric.reachableBy s.fabric.down (keyPeer p.key) then s
    else
      match p.kind with
      | .load | .atomic _ _ _ _ =>
        t.updCtx p.core p.agent fun c =>
          { c with wait := match c.wait with | .remote ids _ => if ids.contains id then .none else c.wait | w => w }
      | _ => if p.agent < 8 then t.updCtx p.core p.agent fun c => { c with lost := lower c.lost p.va } else t

/-- The response to a copy's write packet, or the packet returned as unreachable (R408, R426). -/
def State.respondCopy (s : State) (core tag id : Nat) : State :=
  match s.fabric.packet id with
  | none => s
  | some p =>
    if !p.isCopy || p.core ≠ core then s
    else
      let t := (s.dropPacket id).updCore core fun k => k.updCopy tag fun c =>
        { c with flying := c.flying.filter fun i => i != id, lost := if p.performed then c.lost else lower c.lost p.va }
      if p.performed || !s.fabric.reachableBy s.fabric.down (keyPeer p.key) then t else s

/-! ### The events -/

/-- REMOTE_REQUEST (R404). -/
def execRemoteRequest (s : State) : Host.Outcome State Fault Refusal :=
  onEvent (fun e => match e with | .remoteRequest r => some fun s => s.remoteRequest r | _ => none) s

/-- REMOTE_RESPONSE (R404, R408). -/
def execRemoteResponse (s : State) : Host.Outcome State Fault Refusal :=
  onEvent (fun e => match e with | .remoteResponse id => some fun s => s.respond id | _ => none) s

/-- COPY_WRITE_PACKET (R426). -/
def execCopyWritePacket (s : State) : Host.Outcome State Fault Refusal :=
  onEvent (fun e => match e with
    | .copyWritePacket id => some fun s => (match s.fabric.packet id with | some p => if p.isCopy then s.arriveHome id else s | none => s)
    | _ => none) s

/-- COPY_WRITE_RESPONSE (R426). -/
def execCopyWriteResponse (s : State) : Host.Outcome State Fault Refusal :=
  onEvent (fun e => match e with | .copyWriteResponse core tag id => some fun s => s.respondCopy core tag id | _ => none) s

end Sys2Proof.Machine
end

