-- ==== Sys2Proof/Machine/Scalar.lean ====
section
/-! DEFINITION. Integer, logic, divide and address arithmetic (R89 to R94). -/

namespace Sys2Proof.Machine

/-! ### The shapes of these instructions -/

/-- d := f(src(a), src(b)). -/
def regReg (b a d : BitVec 5) (f : Word → Word → Word) : M Next := do
  ports [a, b, d]
  let (x, y) ← src2 a b
  dst d (f x y)
  pure .seq

/-- d := f(src(a)). -/
def regOne (a d : BitVec 5) (f : Word → Word) : M Next := do
  ports [a, d]
  let x ← src a
  dst d (f x)
  pure .seq

/-- The same as regReg under lookahead (R92). -/
def regRegLa (la : BitVec 4) (b a d : BitVec 5) (f : Word → Word → Word) : M Next := do
  ports [a, b, d]
  let (x, y) ← src2 a b
  dstLa la d (f x y)
  pure .seq

/-- Signed and natural minimum and maximum of lane values. -/
def pickSigned (w : Nat) (less : Bool) (x y : Nat) : Nat := if decide (toSigned w x < toSigned w y) = less then x else y

/-- Bits [127:64] of a product of two integers (R89). -/
def highProduct (x y : Int) : Word := wordI (x * y / 2 ^ 64)

/-- Leading zero bits of a word. -/
def leadingZeros (x : Word) : Nat := 64 - bitLen x.toNat

/-- Trailing zero bits of a word; 64 for 0. -/
def trailingZeros (x : Word) : Nat := ((List.range 64).find? fun i => x.getLsbD i).getD 64

/-- One bits of a word. -/
def oneBits (x : Word) : Nat := ((List.range 64).filter fun i => x.getLsbD i).length

/-- The four divisions of R92. -/
def divSigned (x y : Word) : Word := if y = 0 then BitVec.allOnes 64 else wordI (x.toInt.tdiv y.toInt)
def divNatural (x y : Word) : Word := if y = 0 then BitVec.allOnes 64 else word (x.toNat / y.toNat)
def remSigned (x y : Word) : Word := x - y * (if y = 0 then 0 else divSigned x y)
def remNatural (x y : Word) : Word := word (x.toNat % y.toNat)

/-! ### The ALU group (R89) -/

/-- ADD (R89). -/
def execAddR (w : BitVec 2) (b : BitVec 5) (a : BitVec 5) (d : BitVec 5) (s : State) : Host.Outcome State Fault Refusal :=
  runInstr (.addR w b a d) (regReg b a d (byLanes (laneWidth w) fun x y => x + y)) s

/-- SUB (R89). -/
def execSubR (w : BitVec 2) (b : BitVec 5) (a : BitVec 5) (d : BitVec 5) (s : State) : Host.Outcome State Fault Refusal :=
  runInstr (.subR w b a d) (regReg b a d (byLanes (laneWidth w) fun x y => x + 2 ^ laneWidth w - y)) s

/-- AND (R89). -/
def execAndR (b : BitVec 5) (a : BitVec 5) (d : BitVec 5) (s : State) : Host.Outcome State Fault Refusal :=
  runInstr (.andR b a d) (regReg b a d fun x y => x &&& y) s

/-- OR (R89). -/
def execOrR (b : BitVec 5) (a : BitVec 5) (d : BitVec 5) (s : State) : Host.Outcome State Fault Refusal :=
  runInstr (.orR b a d) (regReg b a d fun x y => x ||| y) s

/-- XOR (R89). -/
def execXorR (b : BitVec 5) (a : BitVec 5) (d : BitVec 5) (s : State) : Host.Outcome State Fault Refusal :=
  runInstr (.xorR b a d) (regReg b a d fun x y => x ^^^ y) s

/-- SHL (R18, R89). -/
def execShl (w : BitVec 2) (b : BitVec 5) (a : BitVec 5) (d : BitVec 5) (s : State) : Host.Outcome State Fault Refusal :=
  runInstr (.shl w b a d) (regReg b a d (byLanes (laneWidth w) fun x y => shiftLeft (laneWidth w) x (amount y))) s

/-- SHR (R18, R89). -/
def execShr (w : BitVec 2) (b : BitVec 5) (a : BitVec 5) (d : BitVec 5) (s : State) : Host.Outcome State Fault Refusal :=
  runInstr (.shr w b a d) (regReg b a d (byLanes (laneWidth w) fun x y => shiftRight (laneWidth w) x (amount y))) s

/-- SAR (R18, R89). -/
def execSar (w : BitVec 2) (b : BitVec 5) (a : BitVec 5) (d : BitVec 5) (s : State) : Host.Outcome State Fault Refusal :=
  runInstr (.sar w b a d) (regReg b a d (byLanes (laneWidth w) fun x y => shiftSigned (laneWidth w) x (amount y))) s

/-- MIN, signed (R89). -/
def execMin (w : BitVec 2) (b : BitVec 5) (a : BitVec 5) (d : BitVec 5) (s : State) : Host.Outcome State Fault Refusal :=
  runInstr (.min w b a d) (regReg b a d (byLanes (laneWidth w) (pickSigned (laneWidth w) true))) s

/-- MAX, signed (R89). -/
def execMax (w : BitVec 2) (b : BitVec 5) (a : BitVec 5) (d : BitVec 5) (s : State) : Host.Outcome State Fault Refusal :=
  runInstr (.max w b a d) (regReg b a d (byLanes (laneWidth w) (pickSigned (laneWidth w) false))) s

/-- MINN (R89). -/
def execMinn (w : BitVec 2) (b : BitVec 5) (a : BitVec 5) (d : BitVec 5) (s : State) : Host.Outcome State Fault Refusal :=
  runInstr (.minn w b a d) (regReg b a d (byLanes (laneWidth w) Nat.min)) s

/-- MAXN (R89). -/
def execMaxn (w : BitVec 2) (b : BitVec 5) (a : BitVec 5) (d : BitVec 5) (s : State) : Host.Outcome State Fault Refusal :=
  runInstr (.maxn w b a d) (regReg b a d (byLanes (laneWidth w) Nat.max)) s

/-- CMP.cc (R89). -/
def execCmp (c : BitVec 4) (b : BitVec 5) (a : BitVec 5) (d : BitVec 5) (s : State) : Host.Outcome State Fault Refusal :=
  runInstr (.cmp c b a d) (regReg b a d fun x y => if condition c.toNat x y then 1 else 0) s

/-- SEL: x if the old value of d is non-zero, else y (R89). -/
def execSel (b a d : BitVec 5) (s : State) : Host.Outcome State Fault Refusal :=
  runInstr (.sel b a d) (do
    ports [a, b]
    let (x, y) ← src2 a b
    let old ← peek d
    dst d (if old ≠ 0 then x else y)
    pure .seq) s

/-- CLZ (R89). -/
def execClz (a : BitVec 5) (d : BitVec 5) (s : State) : Host.Outcome State Fault Refusal :=
  runInstr (.clz a d) (regOne a d fun x => word (leadingZeros x)) s

/-- CTZ (R89). -/
def execCtz (a : BitVec 5) (d : BitVec 5) (s : State) : Host.Outcome State Fault Refusal :=
  runInstr (.ctz a d) (regOne a d fun x => word (trailingZeros x)) s

/-- POPC (R89). -/
def execPopc (a : BitVec 5) (d : BitVec 5) (s : State) : Host.Outcome State Fault Refusal :=
  runInstr (.popc a d) (regOne a d fun x => word (oneBits x)) s

/-- MUL (R89). -/
def execMul (b : BitVec 5) (a : BitVec 5) (d : BitVec 5) (s : State) : Host.Outcome State Fault Refusal :=
  runInstr (.mul b a d) (regReg b a d fun x y => x * y) s

/-- MULH (R89). -/
def execMulh (b : BitVec 5) (a : BitVec 5) (d : BitVec 5) (s : State) : Host.Outcome State Fault Refusal :=
  runInstr (.mulh b a d) (regReg b a d fun x y => highProduct x.toInt y.toInt) s

/-- MULHN (R89). -/
def execMulhn (b : BitVec 5) (a : BitVec 5) (d : BitVec 5) (s : State) : Host.Outcome State Fault Refusal :=
  runInstr (.mulhn b a d) (regReg b a d fun x y => highProduct x.toNat y.toNat) s

/-! ### Immediate forms (R90, R91) -/

/-- ADD with an immediate (R90). -/
def execAddImm (i : BitVec 14) (a : BitVec 5) (d : BitVec 5) (s : State) : Host.Outcome State Fault Refusal :=
  runInstr (.addImm i a d) (regOne a d fun x => x + i.signExtend 64) s

/-- AND with an immediate (R90). -/
def execAndImm (i : BitVec 14) (a : BitVec 5) (d : BitVec 5) (s : State) : Host.Outcome State Fault Refusal :=
  runInstr (.andImm i a d) (regOne a d fun x => x &&& i.signExtend 64) s

/-- OR with an immediate (R90). -/
def execOrImm (i : BitVec 14) (a : BitVec 5) (d : BitVec 5) (s : State) : Host.Outcome State Fault Refusal :=
  runInstr (.orImm i a d) (regOne a d fun x => x ||| i.signExtend 64) s

/-- XOR with an immediate (R90). -/
def execXorImm (i : BitVec 14) (a : BitVec 5) (d : BitVec 5) (s : State) : Host.Outcome State Fault Refusal :=
  runInstr (.xorImm i a d) (regOne a d fun x => x ^^^ i.signExtend 64) s

/-- SHL with an immediate amount (R18, R90). -/
def execShlImm (w : BitVec 2) (n : BitVec 8) (a : BitVec 5) (d : BitVec 5) (s : State) : Host.Outcome State Fault Refusal :=
  runInstr (.shlImm w n a d) (regOne a d fun x => byLanes (laneWidth w) (fun e _ => shiftLeft (laneWidth w) e n.toNat) x 0) s

/-- SHR with an immediate amount (R18, R90). -/
def execShrImm (w : BitVec 2) (n : BitVec 8) (a : BitVec 5) (d : BitVec 5) (s : State) : Host.Outcome State Fault Refusal :=
  runInstr (.shrImm w n a d) (regOne a d fun x => byLanes (laneWidth w) (fun e _ => shiftRight (laneWidth w) e n.toNat) x 0) s

/-- SAR with an immediate amount (R18, R90). -/
def execSarImm (w : BitVec 2) (n : BitVec 8) (a : BitVec 5) (d : BitVec 5) (s : State) : Host.Outcome State Fault Refusal :=
  runInstr (.sarImm w n a d) (regOne a d fun x => byLanes (laneWidth w) (fun e _ => shiftSigned (laneWidth w) e n.toNat) x 0) s

/-- MOVI (R91). -/
def execMovi (i : BitVec 19) (d : BitVec 5) (s : State) : Host.Outcome State Fault Refusal :=
  runInstr (.movi i d) (do
    dst d (i.signExtend 64)
    pure .seq) s

/-- MOVH (R91). -/
def execMovh (i : BitVec 19) (d : BitVec 5) (s : State) : Host.Outcome State Fault Refusal :=
  runInstr (.movh i d) (do
    let x ← peek d
    dst d (x * word (2 ^ 19) + i.zeroExtend 64)
    pure .seq) s

/-! ### Division (R92) -/

/-- DIV (R92). -/
def execDiv (la : BitVec 4) (b : BitVec 5) (a : BitVec 5) (d : BitVec 5) (s : State) : Host.Outcome State Fault Refusal :=
  runInstr (.div la b a d) (regRegLa la b a d divSigned) s

/-- DIVN (R92). -/
def execDivn (la : BitVec 4) (b : BitVec 5) (a : BitVec 5) (d : BitVec 5) (s : State) : Host.Outcome State Fault Refusal :=
  runInstr (.divn la b a d) (regRegLa la b a d divNatural) s

/-- REM (R92). -/
def execRem (la : BitVec 4) (b : BitVec 5) (a : BitVec 5) (d : BitVec 5) (s : State) : Host.Outcome State Fault Refusal :=
  runInstr (.rem la b a d) (regRegLa la b a d remSigned) s

/-- REMN (R92). -/
def execRemn (la : BitVec 4) (b : BitVec 5) (a : BitVec 5) (d : BitVec 5) (s : State) : Host.Outcome State Fault Refusal :=
  runInstr (.remn la b a d) (regRegLa la b a d remNatural) s

/-! ### Address arithmetic (R93, R94) -/

/-- AMESH (R93). -/
def execAmesh (b : BitVec 5) (a : BitVec 5) (d : BitVec 5) (s : State) : Host.Outcome State Fault Refusal :=
  runInstr (.amesh b a d) (regReg b a d fun x y => meshOf (bitsAt x 0 6) (bitsAt x 6 5) (bitsAt y 0 19)) s

/-- APOST: advance (R93). -/
def execApost (b a d : BitVec 5) (s : State) : Host.Outcome State Fault Refusal :=
  runInstr (.apost b a d) (do
    ports [a, b, d]
    let (x, y) ← src2 a b
    let s ← get
    dst d (advance s.my.awc x y.toNat)
    pure .seq) s

/-- AWALK: the base must be a mesh pointer and the walk must fit the mesh (R67, R94). -/
def execAwalk (x : BitVec 7) (k : BitVec 5) (a : BitVec 5) (s : State) : Host.Outcome State Fault Refusal :=
  runInstr (.awalk x k a) (do
    let p ← base a
    require (bitsAt p 62 2 == 1 && bitsAt p 19 32 == 0) cAddress 0 p
    let x0 := bitsAt p 56 6
    require (decide (x0 + x.toNat ≤ 64)) cIllegal
    change fun s => (s.updMy fun c => { c with awc := awcOf (bitsAt p 51 5) 0 x.toNat x0 k.toNat }).foldPair
      (foldBytes 34 (awcOf (bitsAt p 51 5) 0 x.toNat x0 k.toNat))
    pure .seq) s

end Sys2Proof.Machine
end

