-- ==== Sys2Proof/Machine/Setup.lean ====
section
/-! DEFINITION. The slot table, the bounds records and start-up (R313 to R315, R381, R382, R389, R390).
Readings of the spec that this file takes: DEDUCED, log entry 26. -/

namespace Sys2Proof.Machine

/-! ### Bind records (R313, R314) -/

/-- Fields of a bounds record (R315). -/
def boundsField (r : BitVec 64) (lo n : Nat) : Nat := r.toNat / 2 ^ lo % 2 ^ n

/-- The bounds record of a tenant. -/
def State.boundsOf (s : State) (tenant : Nat) : Option (BitVec 64) := (s.bounds.find? fun e => boundsField e.2 0 16 == tenant).map Prod.snd

/-- Reserved fields, ranges and alignments of a record (R313, R314). -/
def recordForm (b : Bind) : Bool :=
  let f := b.field
  f 0 2 != 0
    && f 7 1 / 16 == 0 && f 7 1 != 0 && f 8 1 / 8 == 0 && f 9 1 / 2 == 0 && f 12 4 == 0 && f 56 8 == 0
    && [0, 8, 16, 32].contains (f 6 1) && f 10 2 != 0
    && decide (1 ≤ f 4 1) && decide (1 ≤ f 5 1) && decide (f 2 1 + f 4 1 ≤ 32) && decide (f 3 1 + f 5 1 ≤ 16)
    && f 16 8 % 2048 == 0 && f 16 8 / 2 ^ 56 == 0 && codeAddress (word (f 24 8)) && f 32 8 % 2048 == 0
    && f 40 8 % 16 == 0 && f 40 8 / 2 ^ 56 == 0 && f 48 8 % 2 ^ 20 == 0

/-- Cores that a tenant's committed records hold in the package, other than those of one record. -/
def State.coresHeld (s : State) (tenant num : Nat) : Nat :=
  ((s.binds.filter fun e => e.1 != num && e.2.ten == tenant).map fun e => e.2.field 4 1 * e.2.field 5 1).foldl (· + ·) 0

/-- The record keeps the bounds of its tenant (R314, R315). -/
def State.recordBounds (s : State) (num : Nat) (b : Bind) : Bool :=
  match s.boundsOf b.ten with
  | none => false
  | some r =>
    decide (s.coresHeld b.ten num + b.field 4 1 * b.field 5 1 ≤ boundsField r 16 16)
      && decide (boundsField r 32 4 ≤ b.field 7 1) && decide (b.field 7 1 ≤ boundsField r 36 4)
      && decide (b.field 6 1 ≤ boundsField r 40 8)

/-- A core of the rectangle lies in another committed record. -/
def State.recordClash (s : State) (num : Nat) (b : Bind) : Bool :=
  (List.range 2048).any fun n => b.holds num n && s.binds.any fun e => e.1 != num && e.2.holds e.1 n

/-- The record's gang has a live or a saved team (R314): a team that has not completed (R317), or strands or task slots in a saved
image. -/
def State.gangLive (s : State) (num : Nat) : Bool :=
  s.teams.any (fun t => t.2.live && t.2.gang == num)
    || s.images.any fun m => m.gang == num && (m.saved.freeCtxs.length != 8 || m.saved.tasks.toList.any Option.isSome)

/-- A core bound to a new tenant is cleared, and its hart starts (R135, R213, R236, R271, R314). -/
def State.rebind (s : State) (core : Nat) : State :=
  if (s.core core).dead then s
  else
    let s := s.clearStore core
    let g := galleyOf core
    let s := if (s.galley g).pstore.isEmpty then s
      else s.setGalley g { s.galley g with pstore := (s.galley g).pstore.filter fun e => e.1 / 128 != galleyIndex core }
    (s.updCore core fun c =>
      { c with wslot := none, lastFmt := none, impo := Vector.replicate 64 0, pbind := Vector.replicate 32 none }).startHart core

/-- Tenant of a core. -/
def State.tenantOf (s : State) (core : Nat) : Nat := match s.bindOf core with | some b => (s.bind b).ten | none => 0

/-- A record emptied, or the refusal (R314). An unbound core's hart has no program. -/
def State.emptyRecord (s : State) (die slot : Nat) : State :=
  let num := die * 64 + slot
  if s.gangLive num then s
  else
    let b := s.bind num
    let s := ((s.cores.map Prod.fst).filter fun n => b.holds num n).foldl (fun s n => s.updCore n fun c => { c with hartStopped := true }) s
    { s with binds := erase s.binds num }

/-- A commit, or its refusal; a record already committed is replaced as if it had first been emptied (R314). -/
def State.commitRecord (s : State) (die slot : Nat) (record : BitVec 512) : State :=
  let num := die * 64 + slot
  let b : Bind := { Bind.empty with record }
  if decide (4 ≤ die) || decide (64 ≤ slot) || s.gangLive num || !recordForm b || s.recordClash num b || !s.recordBounds num b then s
  else
    let e := s.emptyRecord die slot
    let t := { e with binds := put e.binds num b }
    ((List.range 2048).filter fun n => b.holds num n && e.tenantOf n != b.ten).foldl State.rebind t

/-! ### Bounds records (R315) -/

/-- A bounds record that R315 admits; TEN = 0 empties it. A reserved field that is not 0 refuses either (R10). -/
def boundsOk (r : BitVec 64) : Bool :=
  (boundsField r 0 16 == 0 && boundsField r 52 12 == 0)
    || (decide (1 ≤ boundsField r 16 16) && decide (boundsField r 16 16 ≤ 2048) && decide (1 ≤ boundsField r 32 4)
      && decide (boundsField r 32 4 ≤ boundsField r 36 4) && boundsField r 52 12 == 0 && decide (boundsField r 36 4 ≤ 15))

def State.writeBounds (s : State) (i : Nat) (r : BitVec 64) : State :=
  if decide (64 ≤ i) || !boundsOk r then s
  else if boundsField r 0 16 = 0 then { s with bounds := erase s.bounds i }
  else { s with bounds := put s.bounds i r }

/-! ### Start-up (R381, R382) -/

/-- Class of a step: 0 required, 1 alternate image, 2 optional. -/
def stepClass (i : Nat) : Nat := if i = 2 ∨ i = 5 then 1 else if i = 7 then 2 else 0

/-- The integrator's record is well formed (R389, R390). -/
def FabricRecord.ok (r : FabricRecord) : Bool :=
  let pow2 := fun (x : Nat) => (List.range 8).any fun k => 2 ^ k == x
  decide (r.own < 2 ^ 18) && decide (1 ≤ r.sa) && decide (r.sa ≤ 4) && decide (1 ≤ r.sb) && decide (r.sb ≤ 4)
    && decide (1 ≤ r.sc) && decide (r.sc ≤ 128) && decide (1 ≤ r.sd) && decide (r.sd ≤ 128)
    && pow2 r.rc && pow2 r.rd && r.sc % r.rc == 0 && r.sd % r.rd == 0
    && decide (peerA r.own < r.sa) && decide (peerB r.own < r.sb) && decide (peerC r.own < r.sc) && decide (peerD r.own < r.sd)

/-- The well-formed record of a start, where there is one. -/
def StartInput.record (x : StartInput) : Option FabricRecord := x.fabric.bind fun r => if r.ok then some r else none

/-- The event record of a step's outcome (R356). -/
def stepEvent (i status image : Nat) : List Byte := eventBytes (leBytes 1 i ++ leBytes 1 status ++ leBytes 1 image) 7

/-- A step's record and BOOTST, after a step's outcome: status is the outcome, or 0x80 + step when start-up stops. MSI-X vector 1
tells the host of the change (R352). -/
def State.setStep (s : State) (i : Nat) (r : StepRec) (status : Nat) : State :=
  let stop := if 0x80 ≤ status then 2 ^ 62 else 0
  { s with flash := vset s.flash (i - 1) r, bar0 := { s.bar0 with bootst := word (stop + i * 256 + status) }, msix := s.msix ++ [1] }

/-- The cores whose register files repair has cut take their CAP (R63): with the fuses, which step 1 reads (DESIGN CHOICE, log
entry 3). -/
def State.setCaps (s : State) (caps : List (Nat × Nat)) : State :=
  (caps.filter fun p => decide (p.1 < 2048) && (p.2 == 6 || p.2 == 4)).foldl (fun s p => s.updCore p.1 fun c => { c with cap := p.2 }) s

/-- The effect of a step whose work has succeeded (R381, R389, R390). -/
def State.stepWork (s : State) (i : Nat) (x : StartInput) : State :=
  if i = 1 then s.setCaps x.caps
  else if i = 7 then
    match x.record with
    | some r =>
      { s with fabric := { s.fabric with
          present := true, own := r.own, sizes := #v[r.sa, r.sb, r.sc, r.sd], rc := r.rc, rd := r.rd, cgen := 1 } }
    | none => s
  else if i = 8 then
    let s := { s with spanDie := x.spanDie }
    if s.fabric.present then s
    else { s with fabric := { s.fabric with own := match x.record with | some r => r.own | none => 0 } }
  else if i = 9 then { s with bar0 := { s.bar0 with bootst := word (2 ^ 63 + 9 * 256 + 1) }, msix := s.msix ++ [1] }
  else s

/-- Outcomes go to the event ring once step 6 has passed: those of steps 1 to 6 at its passing (R382). -/
def State.stepEvents (s : State) (i : Nat) : State :=
  let send := fun (s : State) (j : Nat) => let r := vget { outcome := 0, failures := 0, image := 0 } s.flash (j - 1); s.hostEvent (stepEvent j r.outcome r.image) true
  if i < 6 then s else if i = 6 then (List.range 6).foldl (fun s k => send s (k + 1)) s else send s i

/-- A firmware image is verified (R379): its header, the hash of its body, its signature under the Swifel key or, but for the root monitor's,
an enrolled owner key, and no rollback below the fused minimum, that of manufacture or one blown since. -/
def imageOk (fuses : List (Nat × Nat)) (owners : List (BitVec 512)) (kind slot : Nat) (bs : List Byte) : Bool :=
  let f := recField bs
  let body := (bs.drop 112).take (f 12 4)
  let keys := Config.swifelKey (f 6 2) :: if kind = 1 then [] else owners
  f 0 4 == 0x53574657 && f 4 1 == kind && f 5 1 == slot && body.length == f 12 4
    && (bs.drop 16).take 32 == sm3 body && decide (Config.minVersion kind ≤ f 8 4) && decide (look 0 fuses kind ≤ f 8 4)
    && keys.any fun k => sm2Verify k (bs.take 48) ((bs.drop 48).take 64)

/-- Steps 2 and 5 load the image of their kind in the slot of the step's record; an image that is missing or is not verified fails the
step (R379, R381). -/
def State.imagesOk (s : State) (i slot : Nat) : Bool :=
  let kind := if i = 2 then 1 else 2
  stepClass i != 1 ||
    match s.firmware.find? fun m => m.1 == kind && m.2.1 == slot with
    | some m => imageOk s.fuses s.ownerKeys kind slot m.2.2
    | none => false

/-- A fuse is blown: a minimum only rises (R378, R379). -/
def blowFuse (fuses : List (Nat × Nat)) (f : Nat × Nat) : List (Nat × Nat) := put fuses f.1 (max f.2 (look 0 fuses f.1))

/-- The root monitor's writes since the last start: blown fuses, enrolled owner keys, and images into the flash, each in place of that of its kind and
slot. One of kind 3, which no start-up step loads, it verifies when it writes it (DESIGN CHOICE, log entry 3). -/
def State.flashWrites (s : State) (x : StartInput) : State :=
  let s := { s with fuses := x.fuses.foldl blowFuse s.fuses, ownerKeys := s.ownerKeys ++ x.owners.filter fun k => !s.ownerKeys.contains k }
  let fit := x.images.filter fun m => m.1 != 3 || imageOk s.fuses s.ownerKeys 3 m.2.1 m.2.2
  { s with firmware := fit.foldl (fun l m => (l.filter fun n => !(n.1 == m.1 && n.2.1 == m.2.1)) ++ [m]) s.firmware }

/-- Step i runs, is skipped, takes the other image, or stops start-up (R382); then the following steps. -/
def State.startSteps (s : State) (x : StartInput) : Nat → Nat → State
  | 0, _ => s
  | n + 1, i =>
    let r := vget { outcome := 0, failures := 0, image := 0 } s.flash (i - 1)
    let bad := decide (2 ≤ r.failures)
    if bad && stepClass i == 0 then s.setStep i r (0x80 + i)
    else if bad && stepClass i == 2 then
      (((s.setStep i { r with outcome := 3 } 3).stepEvents i)).startSteps x n (i + 1)
    else
      let r := if bad then { r with image := 1 - r.image, failures := 0 } else r
      let works := x.passes.getD (i - 1) false && (i != 7 || x.record.isSome) && s.imagesOk i r.image
      -- recorded as failed when it begins
      if works then (((s.setStep i { r with outcome := 1, failures := 0 } 1).stepWork i x).stepEvents i).startSteps x n (i + 1)
      else
        let s := s.setStep i { r with outcome := 2, failures := min 3 (r.failures + 1) } 2
        if 6 < i then s.stepEvents i else s

/-- An event of the hardware's own that a start takes with it. -/
def Event.inFlight : Event → Bool
  | .migrationMessageArrival _ _ | .amsgReply _ _ _ | .decArrival _ _ _ _ _ | .meshPortWordArrival _ _ _
  | .queueElementArrival _ _ _ _ _ => true
  | _ => false

/-- A start of the package: everything but the flash, host memory, other packages and inputs still to come is as at
reset; then the nine steps (R381, DESIGN CHOICE, log entry 3). -/
def State.startUp (s : State) (x : StartInput) : State :=
  let s := s.flashWrites x
  let t := { State.reset with
    mem := s.mem.filter fun e => !(isHbm e.1 || isStore e.1)
    flash := s.flash, firmware := s.firmware, ownerKeys := s.ownerKeys, fuses := s.fuses, cycle := s.cycle, tick := s.tick, queue := s.queue.filter fun e => !e.inFlight }
  t.startSteps x 9 1

/-! ### The events -/

/-- BIND_RECORD_COMMIT (R314). -/
def execBindRecordCommit (s : State) : Host.Outcome State Fault Refusal :=
  onEvent (fun e => match e with | .bindRecordCommit die slot r => some fun s => s.commitRecord die slot r | _ => none) s

/-- BIND_RECORD_EMPTY (R314). -/
def execBindRecordEmpty (s : State) : Host.Outcome State Fault Refusal :=
  onEvent (fun e => match e with | .bindRecordEmpty die slot => some fun s => s.emptyRecord die slot | _ => none) s

/-- BOUNDS_RECORD_WRITE (R315). -/
def execBoundsRecordWrite (s : State) : Host.Outcome State Fault Refusal :=
  onEvent (fun e => match e with | .boundsRecordWrite i r => some fun s => s.writeBounds i r | _ => none) s

/-- START_UP (R381). -/
def execStartUp (s : State) : Host.Outcome State Fault Refusal :=
  onEvent (fun e => match e with | .startUp x => some fun s => s.startUp x | _ => none) s

end Sys2Proof.Machine
end

