-- ==== Sys2Proof/Machine/VectorMem.lean ====
section
/-! DEFINITION. Vector loads and stores (R177 to R180).
Readings of the spec that this file takes: DEDUCED, log entry 19. -/

namespace Sys2Proof.Machine

/-! ### Shapes -/

/-- The address form of a whole access is checked before its elements (R88, R177). -/
def wholeExtent (p : Word) (off : Int) (n : Nat) (wr : Bool) : M Unit :=
  match resolve p off n wr with
  | .ok _ => pure ()
  | .error t => stop (.trap t [])

/-- The accesses of elements folded into a pair's fingerprint, one by one (R147). -/
def noteElems (els : List (Word × Int × List Byte × Nat)) : M Unit :=
  change fun s => s.foldPair (els.flatMap fun e => leBytes 8 (e.1 + wordI e.2.1).toNat ++ leBytes 2 e.2.2.2 ++ e.2.2.1)

/-- Elements checked together, lowest first, then read (R178). -/
def readElems (els : List (Word × Int × Nat)) : M (List (List Byte)) := do
  let es ← check { read := true, plain := true } els
  let bs ← readExts true es
  noteElems (els.map fun e => (e.1, e.2.1, [], e.2.2))
  pure bs

/-- Elements written in order. -/
def writeElems : List (List Extent × List Byte) → M Unit
  | [] => pure ()
  | (es, bs) :: t => do
    writeBytes true es bs
    writeElems t

/-- Elements checked together, lowest first, then written in increasing order (R178). -/
def storeElems (els : List (Word × Int × List Byte)) : M Unit := do
  let es ← check { write := true, plain := true } (els.map fun e => (e.1, e.2.1, e.2.2.length))
  noteStore
  writeElems (es.zip (els.map fun e => e.2.2))
  noteElems (els.map fun e => (e.1, e.2.1, e.2.2, e.2.2.length))

/-- Runs of bytes of a unit-stride access that active elements of width w name. -/
def Ctx.activeRuns (c : Ctx) (m : BitVec 1) (w : Nat) : List (Nat × Nat) :=
  if m = 0#1 then [(0, 512)]
  else if w = 4 then runsOf (fun j => c.active m (2 * j) || c.active m (2 * j + 1)) 0 512
  else runsOf (fun j => c.active m (j / (w / 8))) 0 512

/-- A register with bytes laid at given places. -/
def placed (rs : List (Nat × Nat)) (bs : List (List Byte)) : Vec :=
  (rs.zip bs).foldl (fun v p => v ||| BitVec.ofNat 4096 (leNat p.2 * 2 ^ (8 * p.1.1))) 0

/-- A unit-stride load (R177). -/
def loadUnit (post : Bool) (m : BitVec 1) (la : BitVec 4) (b a d : BitVec 5) : M Next := do
  let t ← laneType anyType
  allocated [(d, 1)]
  portUse [] [d]
  ports [b]
  let p ← base a
  let x ← src b
  let off := if post then 0 else x.toInt
  if post then checkBlock p 512 false
  wholeExtent p off 512 false
  let old ← oldVec d
  let s ← get
  let runs := s.my.activeRuns m t.width
  let bs ← readElems (runs.map fun r => (p, off + (r.1 : Int), r.2))
  let v := placed runs bs
  if post then postInc la a p 512
  vdstLa la d (lanes s.my m t.width old fun i => (elemOf v t.width i, .zero)).1
  pure .seq

/-- A unit-stride store (R177); a masked store of a 4-bit type is refused with DETAIL 0x25. -/
def storeUnit (post : Bool) (m : BitVec 1) (la : BitVec 4) (b a d : BitVec 5) : M Next := do
  let t ← laneType anyType
  require (m == 0#1 || t.width != 4) cIllegal 0x25
  allocated [(d, 1)]
  portUse [d] []
  ports [b]
  let p ← base a
  let v ← vsrc d
  let x ← src b
  let off := if post then 0 else x.toInt
  if post then checkBlock p 512 true
  wholeExtent p off 512 true
  let s ← get
  let runs := s.my.activeRuns m t.width
  storeElems (runs.map fun r => (p, off + (r.1 : Int), ((vecBytes v).drop r.1).take r.2))
  if post then postInc la a p 512
  pure .seq

/-- Active elements of a register. -/
def Ctx.actives (c : Ctx) (m : BitVec 1) (w : Nat) : List Nat := (List.range (4096 / w)).filter (c.active m)

/-- An element-ordered load: the byte offset of element i by off. -/
def loadEach (m : BitVec 1) (la : BitVec 4) (d : BitVec 5) (w : Nat) (p : Word) (off : Nat → Int) : M Next := do
  let old ← oldVec d
  let s ← get
  let is := s.my.actives m w
  let bs ← readElems (is.map fun i => (p, off i, w / 8))
  let vs := is.zip (bs.map leNat)
  vdstLa la d (lanes s.my m w old fun i => (look 0 vs i, .zero)).1
  pure .seq

/-- An element-ordered store. -/
def storeEach (m : BitVec 1) (w : Nat) (v : Vec) (p : Word) (off : Nat → Int) : M Next := do
  let s ← get
  let is := s.my.actives m w
  storeElems (is.map fun i => (p, off i, leBytes (w / 8) (elemOf v w i)))
  pure .seq

/-- Types of 8 bits or more (R177). -/
def wholeBytes (t : ETy) : Bool := t.width != 4

/-! ### Planes (R179, R180) -/

/-- Fields of a format word: planes n, K, PSTR. -/
def fmtPlanes (f : Word) : Nat := bitsAt f 59 5 - 22
def fmtK (f : Word) : Nat := bitsAt f 55 4
def fmtStride (f : Word) : Nat := bitsAt f 0 32

/-- A format word that R179 admits. -/
def formatOk (store : Bool) (f : Word) : Bool :=
  let n := fmtPlanes f
  decide (24 ≤ bitsAt f 59 5) && decide (bitsAt f 59 5 ≤ 30) && bitsAt f 32 23 == 0
    && fmtStride f % 4 == 0 && decide (64 ≤ fmtStride f)
    && (fmtK f == 0 || (if store then fmtK f == n else decide (2 ≤ fmtK f) && decide (fmtK f ≤ n)))

/-- The 64-byte extents of the first k plane arrays. -/
def planeExtents (p : Word) (stride k : Nat) : List (Word × Int × Nat) :=
  (List.range k).map fun q => (p, ((q * stride : Nat) : Int), 64)

/-- Bit i of a plane. -/
def planeBit (bs : List Byte) (i : Nat) : Nat := if (bs.getD (i / 8) 0).getLsbD (i % 8) then 1 else 0

/-- Elements of a group from its first planes, the sign plane first: k-bit values, sign-extended to 8 bits (R180). -/
def fromPlanes (planes : List (List Byte)) : Vec :=
  let k := planes.length
  vecOf 8 ((List.range 512).map fun i => wrap 8 (toSigned k (planes.foldl (fun t bs => 2 * t + planeBit bs i) 0)))

/-- Plane p of a group of 8-bit elements as 64 bytes. -/
def toPlane (v : Vec) (p : Nat) : List Byte :=
  (List.range 64).map fun j => BitVec.ofNat 8 ((List.range 8).foldr (fun k a => elemOf v 8 (8 * j + k) / 2 ^ p % 2 + 2 * a) 0)

/-- VLDF in both forms. -/
def loadPlanes (post : Bool) (m : BitVec 1) (la : BitVec 4) (b a d : BitVec 5) : M Next := do
  require (m == 0#1) cIllegal 0x25
  allocated [(d, 1)]
  portUse [] [d]
  ports [b]
  let p ← base a
  let f ← src b
  require (formatOk false f) cIllegal 0x23
  if post then checkBlock p 64 false
  let bs ← readElems (planeExtents p (fmtStride f) (if fmtK f = 0 then fmtPlanes f else fmtK f))
  if post then postInc la a p 64
  vdstLa la d (fromPlanes bs)
  pure .seq

/-- VSTF in both forms. -/
def storePlanes (post : Bool) (m : BitVec 1) (la : BitVec 4) (b a d : BitVec 5) : M Next := do
  require (m == 0#1) cIllegal 0x25
  allocated [(d, 1)]
  portUse [d] []
  ports [b]
  let p ← base a
  -- DETAIL 0x23 ranks before 0x24 (R156)
  let f ← src b
  require (formatOk true f) cIllegal 0x23
  let v ← vsrc d
  if post then checkBlock p 64 true
  let n := fmtPlanes f
  storeElems ((List.range n).map fun q => (p, ((q * fmtStride f : Nat) : Int), toPlane v (n - 1 - q)))
  if post then postInc la a p 64
  pure .seq

/-! ### The meanings -/

/-- VLD (R177). -/
def execVld (m : BitVec 1) (la : BitVec 4) (b : BitVec 5) (a : BitVec 5) (d : BitVec 5) (s : State) : Host.Outcome State Fault Refusal :=
  runInstr (.vld m la b a d) (loadUnit false m la b a d) s

/-- VST (R177). -/
def execVst (m : BitVec 1) (la : BitVec 4) (b : BitVec 5) (a : BitVec 5) (d : BitVec 5) (s : State) : Host.Outcome State Fault Refusal :=
  runInstr (.vst m la b a d) (storeUnit false m la b a d) s

/-- VLDS (R177). -/
def execVlds (m : BitVec 1) (la : BitVec 4) (b : BitVec 5) (a : BitVec 5) (d : BitVec 5) (s : State) : Host.Outcome State Fault Refusal :=
  runInstr (.vlds m la b a d) (do
    let t ← laneType wholeBytes
    allocated [(d, 1)]
    portUse [] [d]
    ports [b]
    let p ← base a
    let x ← src b
    loadEach m la d t.width p fun i => (i : Int) * x.toInt) s

/-- VSTS (R177). -/
def execVsts (m : BitVec 1) (la : BitVec 4) (b : BitVec 5) (a : BitVec 5) (d : BitVec 5) (s : State) : Host.Outcome State Fault Refusal :=
  runInstr (.vsts m la b a d) (do
    let t ← laneType wholeBytes
    allocated [(d, 1)]
    portUse [d] []
    ports [b]
    let p ← base a
    let v ← vsrc d
    let x ← src b
    storeEach m t.width v p fun i => (i : Int) * x.toInt) s

/-- VLDX (R177). -/
def execVldx (m : BitVec 1) (la : BitVec 4) (b : BitVec 5) (a : BitVec 5) (d : BitVec 5) (s : State) : Host.Outcome State Fault Refusal :=
  runInstr (.vldx m la b a d) (do
    let t ← laneType wholeBytes
    allocated [(b, 1), (d, 1)]
    portUse [b] [d]
    let p ← base a
    let x ← vsrc b
    loadEach m la d t.width p fun i => ((elemOf x t.width i * (t.width / 8) : Nat) : Int)) s

/-- VSTX (R177). -/
def execVstx (m : BitVec 1) (la : BitVec 4) (b : BitVec 5) (a : BitVec 5) (d : BitVec 5) (s : State) : Host.Outcome State Fault Refusal :=
  runInstr (.vstx m la b a d) (do
    let t ← laneType wholeBytes
    allocated [(b, 1), (d, 1)]
    portUse [b, d] []
    let p ← base a
    let (x, v) ← vsrc2 b d
    storeEach m t.width v p fun i => ((elemOf x t.width i * (t.width / 8) : Nat) : Int)) s

/-- VLDF (R177, R180). -/
def execVldf (m : BitVec 1) (la : BitVec 4) (b : BitVec 5) (a : BitVec 5) (d : BitVec 5) (s : State) : Host.Outcome State Fault Refusal :=
  runInstr (.vldf m la b a d) (loadPlanes false m la b a d) s

/-- VSTF (R177, R180). -/
def execVstf (m : BitVec 1) (la : BitVec 4) (b : BitVec 5) (a : BitVec 5) (d : BitVec 5) (s : State) : Host.Outcome State Fault Refusal :=
  runInstr (.vstf m la b a d) (storePlanes false m la b a d) s

/-- VLD with post-increment (R177). -/
def execVldPost (m : BitVec 1) (la : BitVec 4) (a : BitVec 5) (d : BitVec 5) (s : State) : Host.Outcome State Fault Refusal :=
  runInstr (.vldPost m la a d) (loadUnit true m la 28#5 a d) s

/-- VST with post-increment (R177). -/
def execVstPost (m : BitVec 1) (la : BitVec 4) (a : BitVec 5) (d : BitVec 5) (s : State) : Host.Outcome State Fault Refusal :=
  runInstr (.vstPost m la a d) (storeUnit true m la 28#5 a d) s

/-- VLDF with post-increment (R177, R180). -/
def execVldfPost (m : BitVec 1) (la : BitVec 4) (b : BitVec 5) (a : BitVec 5) (d : BitVec 5) (s : State) : Host.Outcome State Fault Refusal :=
  runInstr (.vldfPost m la b a d) (loadPlanes true m la b a d) s

/-- VSTF with post-increment (R177, R180). -/
def execVstfPost (m : BitVec 1) (la : BitVec 4) (b : BitVec 5) (a : BitVec 5) (d : BitVec 5) (s : State) : Host.Outcome State Fault Refusal :=
  runInstr (.vstfPost m la b a d) (storePlanes true m la b a d) s

end Sys2Proof.Machine
end

