-- ==== Sys2Proof/Machine/Dispatch.lean ====
section
/-! DEFINITION. One arm per step of the opcode table: each calls that step's meaning. -/

namespace Sys2Proof.Machine

def exec (i : Instr) (s : State) : Host.Outcome State Fault Refusal :=
  match i with
  | .addR w b a d => Sys2Proof.Machine.execAddR w b a d s
  | .subR w b a d => Sys2Proof.Machine.execSubR w b a d s
  | .andR b a d => Sys2Proof.Machine.execAndR b a d s
  | .orR b a d => Sys2Proof.Machine.execOrR b a d s
  | .xorR b a d => Sys2Proof.Machine.execXorR b a d s
  | .shl w b a d => Sys2Proof.Machine.execShl w b a d s
  | .shr w b a d => Sys2Proof.Machine.execShr w b a d s
  | .sar w b a d => Sys2Proof.Machine.execSar w b a d s
  | .min w b a d => Sys2Proof.Machine.execMin w b a d s
  | .max w b a d => Sys2Proof.Machine.execMax w b a d s
  | .minn w b a d => Sys2Proof.Machine.execMinn w b a d s
  | .maxn w b a d => Sys2Proof.Machine.execMaxn w b a d s
  | .cmp c b a d => Sys2Proof.Machine.execCmp c b a d s
  | .sel b a d => Sys2Proof.Machine.execSel b a d s
  | .clz a d => Sys2Proof.Machine.execClz a d s
  | .ctz a d => Sys2Proof.Machine.execCtz a d s
  | .popc a d => Sys2Proof.Machine.execPopc a d s
  | .mul b a d => Sys2Proof.Machine.execMul b a d s
  | .mulh b a d => Sys2Proof.Machine.execMulh b a d s
  | .mulhn b a d => Sys2Proof.Machine.execMulhn b a d s
  | .addImm im a d => Sys2Proof.Machine.execAddImm im a d s
  | .andImm im a d => Sys2Proof.Machine.execAndImm im a d s
  | .orImm im a d => Sys2Proof.Machine.execOrImm im a d s
  | .xorImm im a d => Sys2Proof.Machine.execXorImm im a d s
  | .shlImm w n a d => Sys2Proof.Machine.execShlImm w n a d s
  | .shrImm w n a d => Sys2Proof.Machine.execShrImm w n a d s
  | .sarImm w n a d => Sys2Proof.Machine.execSarImm w n a d s
  | .movi im d => Sys2Proof.Machine.execMovi im d s
  | .movh im d => Sys2Proof.Machine.execMovh im d s
  | .div la b a d => Sys2Proof.Machine.execDiv la b a d s
  | .divn la b a d => Sys2Proof.Machine.execDivn la b a d s
  | .rem la b a d => Sys2Proof.Machine.execRem la b a d s
  | .remn la b a d => Sys2Proof.Machine.execRemn la b a d s
  | .amesh b a d => Sys2Proof.Machine.execAmesh b a d s
  | .apost b a d => Sys2Proof.Machine.execApost b a d s
  | .awalk x k a => Sys2Proof.Machine.execAwalk x k a s
  | .beq sc b a => Sys2Proof.Machine.execBeq sc b a s
  | .bne sc b a => Sys2Proof.Machine.execBne sc b a s
  | .blt sc b a => Sys2Proof.Machine.execBlt sc b a s
  | .bge sc b a => Sys2Proof.Machine.execBge sc b a s
  | .bltn sc b a => Sys2Proof.Machine.execBltn sc b a s
  | .bgen sc b a => Sys2Proof.Machine.execBgen sc b a s
  | .rep sc a => Sys2Proof.Machine.execRep sc a s
  | .jmp sc d => Sys2Proof.Machine.execJmp sc d s
  | .call sc => Sys2Proof.Machine.execCall sc s
  | .jr a d => Sys2Proof.Machine.execJr a d s
  | .callr a => Sys2Proof.Machine.execCallr a s
  | .ret => Sys2Proof.Machine.execRet s
  | .eret => Sys2Proof.Machine.execEret s
  | .yield => Sys2Proof.Machine.execYield s
  | .exit => Sys2Proof.Machine.execExit s
  | .trap t => Sys2Proof.Machine.execTrap t s
  | .ldB im a d => Sys2Proof.Machine.execLdB im a d s
  | .ldH im a d => Sys2Proof.Machine.execLdH im a d s
  | .ldW im a d => Sys2Proof.Machine.execLdW im a d s
  | .ldD im a d => Sys2Proof.Machine.execLdD im a d s
  | .ldnB im a d => Sys2Proof.Machine.execLdnB im a d s
  | .ldnH im a d => Sys2Proof.Machine.execLdnH im a d s
  | .ldnW im a d => Sys2Proof.Machine.execLdnW im a d s
  | .stB im a d => Sys2Proof.Machine.execStB im a d s
  | .stH im a d => Sys2Proof.Machine.execStH im a d s
  | .stW im a d => Sys2Proof.Machine.execStW im a d s
  | .stD im a d => Sys2Proof.Machine.execStD im a d s
  | .ldstrLoad p z la b a d => Sys2Proof.Machine.execLdstrLoad p z la b a d s
  | .ldstrStore p z la b a d => Sys2Proof.Machine.execLdstrStore p z la b a d s
  | .ldAcqW sc b a d => Sys2Proof.Machine.execLdAcqW sc b a d s
  | .ldAcqD sc b a d => Sys2Proof.Machine.execLdAcqD sc b a d s
  | .stRelW sc b a d => Sys2Proof.Machine.execStRelW sc b a d s
  | .stRelD sc b a d => Sys2Proof.Machine.execStRelD sc b a d s
  | .ldSc b a d => Sys2Proof.Machine.execLdSc b a d s
  | .stSc b a d => Sys2Proof.Machine.execStSc b a d s
  | .ldroW b a d => Sys2Proof.Machine.execLdroW b a d s
  | .ldroD b a d => Sys2Proof.Machine.execLdroD b a d s
  | .ldf b a d => Sys2Proof.Machine.execLdf b a d s
  | .pre b a => Sys2Proof.Machine.execPre b a s
  | .bmov b a d => Sys2Proof.Machine.execBmov b a d s
  | .amoAdd w sc b a d => Sys2Proof.Machine.execAmoAdd w sc b a d s
  | .amoMin w sc b a d => Sys2Proof.Machine.execAmoMin w sc b a d s
  | .amoMax w sc b a d => Sys2Proof.Machine.execAmoMax w sc b a d s
  | .amoMinn w sc b a d => Sys2Proof.Machine.execAmoMinn w sc b a d s
  | .amoMaxn w sc b a d => Sys2Proof.Machine.execAmoMaxn w sc b a d s
  | .amoAnd w sc b a d => Sys2Proof.Machine.execAmoAnd w sc b a d s
  | .amoOr w sc b a d => Sys2Proof.Machine.execAmoOr w sc b a d s
  | .amoXor w sc b a d => Sys2Proof.Machine.execAmoXor w sc b a d s
  | .amoSwp w sc b a d => Sys2Proof.Machine.execAmoSwp w sc b a d s
  | .amoCas w sc b a d => Sys2Proof.Machine.execAmoCas w sc b a d s
  | .amoFadd w sc b a d => Sys2Proof.Machine.execAmoFadd w sc b a d s
  | .fence sc => Sys2Proof.Machine.execFence sc s
  | .barT => Sys2Proof.Machine.execBarT s
  | .barG => Sys2Proof.Machine.execBarG s
  | .rflush b a => Sys2Proof.Machine.execRflush b a s
  | .rinv b a => Sys2Proof.Machine.execRinv b a s
  | .waitf b a => Sys2Proof.Machine.execWaitf b a s
  | .srd b d => Sys2Proof.Machine.execSrd b d s
  | .swr b a => Sys2Proof.Machine.execSwr b a s
  | .swrImm im d => Sys2Proof.Machine.execSwrImm im d s
  | .rfork b a d => Sys2Proof.Machine.execRfork b a d s
  | .join a => Sys2Proof.Machine.execJoin a s
  | .mig a => Sys2Proof.Machine.execMig a s
  | .amsg b a d => Sys2Proof.Machine.execAmsg b a d s
  | .hmsg b a => Sys2Proof.Machine.execHmsg b a s
  | .task a d => Sys2Proof.Machine.execTask a d s
  | .dec b a => Sys2Proof.Machine.execDec b a s
  | .pair a d => Sys2Proof.Machine.execPair a d s
  | .unpair d => Sys2Proof.Machine.execUnpair d s
  | .gstat a => Sys2Proof.Machine.execGstat a s
  | .halt => Sys2Proof.Machine.execHalt s
  | .vadd m r b a d => Sys2Proof.Machine.execVadd m r b a d s
  | .vsub m r b a d => Sys2Proof.Machine.execVsub m r b a d s
  | .vmul m r b a d => Sys2Proof.Machine.execVmul m r b a d s
  | .vmin m r b a d => Sys2Proof.Machine.execVmin m r b a d s
  | .vmax m r b a d => Sys2Proof.Machine.execVmax m r b a d s
  | .vand m r b a d => Sys2Proof.Machine.execVand m r b a d s
  | .vor m r b a d => Sys2Proof.Machine.execVor m r b a d s
  | .vxor m r b a d => Sys2Proof.Machine.execVxor m r b a d s
  | .vshl m r b a d => Sys2Proof.Machine.execVshl m r b a d s
  | .vshr m r b a d => Sys2Proof.Machine.execVshr m r b a d s
  | .vsar m r b a d => Sys2Proof.Machine.execVsar m r b a d s
  | .vmov m r b a d => Sys2Proof.Machine.execVmov m r b a d s
  | .vneg m r b a d => Sys2Proof.Machine.execVneg m r b a d s
  | .vabs m r b a d => Sys2Proof.Machine.execVabs m r b a d s
  | .vrsub m r b a d => Sys2Proof.Machine.execVrsub m r b a d s
  | .vxchg m r b a d => Sys2Proof.Machine.execVxchg m r b a d s
  | .vdiv m r b a d => Sys2Proof.Machine.execVdiv m r b a d s
  | .vsqrt m r b a d => Sys2Proof.Machine.execVsqrt m r b a d s
  | .vmulh m r b a d => Sys2Proof.Machine.execVmulh m r b a d s
  | .vadds m r b a d => Sys2Proof.Machine.execVadds m r b a d s
  | .vsubs m r b a d => Sys2Proof.Machine.execVsubs m r b a d s
  | .vabd m r b a d => Sys2Proof.Machine.execVabd m r b a d s
  | .vnot m r b a d => Sys2Proof.Machine.execVnot m r b a d s
  | .vaddLForm m sc d => Sys2Proof.Machine.execVaddLForm m sc d s
  | .vsubLForm m sc d => Sys2Proof.Machine.execVsubLForm m sc d s
  | .vmulLForm m sc d => Sys2Proof.Machine.execVmulLForm m sc d s
  | .vminLForm m sc d => Sys2Proof.Machine.execVminLForm m sc d s
  | .vmaxLForm m sc d => Sys2Proof.Machine.execVmaxLForm m sc d s
  | .vandLForm m sc d => Sys2Proof.Machine.execVandLForm m sc d s
  | .vorLForm m sc d => Sys2Proof.Machine.execVorLForm m sc d s
  | .vxorLForm m sc d => Sys2Proof.Machine.execVxorLForm m sc d s
  | .vshlLForm m sc d => Sys2Proof.Machine.execVshlLForm m sc d s
  | .vshrLForm m sc d => Sys2Proof.Machine.execVshrLForm m sc d s
  | .vsarLForm m sc d => Sys2Proof.Machine.execVsarLForm m sc d s
  | .vmovLForm m sc d => Sys2Proof.Machine.execVmovLForm m sc d s
  | .vnegLForm m sc d => Sys2Proof.Machine.execVnegLForm m sc d s
  | .vabsLForm m sc d => Sys2Proof.Machine.execVabsLForm m sc d s
  | .vrsubLForm m sc d => Sys2Proof.Machine.execVrsubLForm m sc d s
  | .vxchgLForm m sc d => Sys2Proof.Machine.execVxchgLForm m sc d s
  | .vfma m r b a d => Sys2Proof.Machine.execVfma m r b a d s
  | .vfms m r b a d => Sys2Proof.Machine.execVfms m r b a d s
  | .vfnma m r b a d => Sys2Proof.Machine.execVfnma m r b a d s
  | .vfnms m r b a d => Sys2Proof.Machine.execVfnms m r b a d s
  | .vwadd m r b a d => Sys2Proof.Machine.execVwadd m r b a d s
  | .vwsub m r b a d => Sys2Proof.Machine.execVwsub m r b a d s
  | .vwmul m r b a d => Sys2Proof.Machine.execVwmul m r b a d s
  | .vwmac m r b a d => Sys2Proof.Machine.execVwmac m r b a d s
  | .vqmac m r b a d => Sys2Proof.Machine.execVqmac m r b a d s
  | .vnshr m r b a d => Sys2Proof.Machine.execVnshr m r b a d s
  | .vcvt m x r t a d => Sys2Proof.Machine.execVcvt m x r t a d s
  | .vcvtw m x r t a d => Sys2Proof.Machine.execVcvtw m x r t a d s
  | .vcvtn m x r t a d => Sys2Proof.Machine.execVcvtn m x r t a d s
  | .vcmpEq m b a d => Sys2Proof.Machine.execVcmpEq m b a d s
  | .vcmpNe m b a d => Sys2Proof.Machine.execVcmpNe m b a d s
  | .vcmpLt m b a d => Sys2Proof.Machine.execVcmpLt m b a d s
  | .vcmpLe m b a d => Sys2Proof.Machine.execVcmpLe m b a d s
  | .vcmpGt m b a d => Sys2Proof.Machine.execVcmpGt m b a d s
  | .vcmpGe m b a d => Sys2Proof.Machine.execVcmpGe m b a d s
  | .vcmpLtn m b a d => Sys2Proof.Machine.execVcmpLtn m b a d s
  | .vcmpGen m b a d => Sys2Proof.Machine.execVcmpGen m b a d s
  | .mand b a d => Sys2Proof.Machine.execMand b a d s
  | .mor b a d => Sys2Proof.Machine.execMor b a d s
  | .mxor b a d => Sys2Proof.Machine.execMxor b a d s
  | .mnot a d => Sys2Proof.Machine.execMnot a d s
  | .mpop a d => Sys2Proof.Machine.execMpop a d s
  | .mfirst a d => Sys2Proof.Machine.execMfirst a d s
  | .mfill a d => Sys2Proof.Machine.execMfill a d s
  | .vsel b a d => Sys2Proof.Machine.execVsel b a d s
  | .vrsum m r a d => Sys2Proof.Machine.execVrsum m r a d s
  | .vrmax m r a d => Sys2Proof.Machine.execVrmax m r a d s
  | .vrmin m r a d => Sys2Proof.Machine.execVrmin m r a d s
  | .vrand m r a d => Sys2Proof.Machine.execVrand m r a d s
  | .vror m r a d => Sys2Proof.Machine.execVror m r a d s
  | .vrxor m r a d => Sys2Proof.Machine.execVrxor m r a d s
  | .vperm m b a d => Sys2Proof.Machine.execVperm m b a d s
  | .vslup m b a d => Sys2Proof.Machine.execVslup m b a d s
  | .vsldn m b a d => Sys2Proof.Machine.execVsldn m b a d s
  | .vbcast m a d => Sys2Proof.Machine.execVbcast m a d s
  | .vext m b a d => Sys2Proof.Machine.execVext m b a d s
  | .vins m b a d => Sys2Proof.Machine.execVins m b a d s
  | .vzip m b a d => Sys2Proof.Machine.execVzip m b a d s
  | .vunzip m b a d => Sys2Proof.Machine.execVunzip m b a d s
  | .vcomp m a d => Sys2Proof.Machine.execVcomp m a d s
  | .qnt r la t a d => Sys2Proof.Machine.execQnt r la t a d s
  | .dqnt r la t a d => Sys2Proof.Machine.execDqnt r la t a d s
  | .vld m la b a d => Sys2Proof.Machine.execVld m la b a d s
  | .vst m la b a d => Sys2Proof.Machine.execVst m la b a d s
  | .vlds m la b a d => Sys2Proof.Machine.execVlds m la b a d s
  | .vsts m la b a d => Sys2Proof.Machine.execVsts m la b a d s
  | .vldx m la b a d => Sys2Proof.Machine.execVldx m la b a d s
  | .vstx m la b a d => Sys2Proof.Machine.execVstx m la b a d s
  | .vldf m la b a d => Sys2Proof.Machine.execVldf m la b a d s
  | .vstf m la b a d => Sys2Proof.Machine.execVstf m la b a d s
  | .vldPost m la a d => Sys2Proof.Machine.execVldPost m la a d s
  | .vstPost m la a d => Sys2Proof.Machine.execVstPost m la a d s
  | .vldfPost m la b a d => Sys2Proof.Machine.execVldfPost m la b a d s
  | .vstfPost m la b a d => Sys2Proof.Machine.execVstfPost m la b a d s
  | .sbind a d => Sys2Proof.Machine.execSbind a d s
  | .qbind b d => Sys2Proof.Machine.execQbind b d s
  | .unbind d => Sys2Proof.Machine.execUnbind d s
  | .qctl a d => Sys2Proof.Machine.execQctl a d s
  | .hset a d => Sys2Proof.Machine.execHset a d s
  | .cpy h t b a d => Sys2Proof.Machine.execCpy h t b a d s
  | .cpyG h t b => Sys2Proof.Machine.execCpyG h t b s
  | .cpyS h t b => Sys2Proof.Machine.execCpyS h t b s
  | .cwaitAny a d => Sys2Proof.Machine.execCwaitAny a d s
  | .cwaitAll a => Sys2Proof.Machine.execCwaitAll a s
  | .cfind a d => Sys2Proof.Machine.execCfind a d s
  | .evk b a => Sys2Proof.Machine.execEvk b a s
  | .kick b a d => Sys2Proof.Machine.execKick b a d s
  | .mwld o => Sys2Proof.Machine.execMwld o s
  | .mtile o d => Sys2Proof.Machine.execMtile o d s
  | .mdrain o d => Sys2Proof.Machine.execMdrain o d s
  | .mset o a => Sys2Proof.Machine.execMset o a s
  | .mwait => Sys2Proof.Machine.execMwait s
  | .mred a => Sys2Proof.Machine.execMred a s
  | .mresume => Sys2Proof.Machine.execMresume s
  | .mlay o a => Sys2Proof.Machine.execMlay o a s
  | .mclr d => Sys2Proof.Machine.execMclr d s
  | .mstat d => Sys2Proof.Machine.execMstat d s
  | .pload b a => Sys2Proof.Machine.execPload b a s
  | .pbind b a => Sys2Proof.Machine.execPbind b a s
  | .pbindT b a => Sys2Proof.Machine.execPbindT b a s
  | .pstat b d => Sys2Proof.Machine.execPstat b d s
  | .vreg a d => Sys2Proof.Machine.execVreg a d s
  | .vdrop a => Sys2Proof.Machine.execVdrop a s
  | .vsync a => Sys2Proof.Machine.execVsync a s
  | .vstat b a d => Sys2Proof.Machine.execVstat b a d s
  | .vpol b a d => Sys2Proof.Machine.execVpol b a d s
  | .stRep b a d => Sys2Proof.Machine.execStRep b a d s
  | .reconf a d => Sys2Proof.Machine.execReconf a d s
  | .cgjoin a d => Sys2Proof.Machine.execCgjoin a d s
  | .cgleave a => Sys2Proof.Machine.execCgleave a s
  | .coll b a d => Sys2Proof.Machine.execColl b a d s
  | .clogr b a d => Sys2Proof.Machine.execClogr b a d s
  | .ctake => Sys2Proof.Machine.execCtake s
  | .cstart a => Sys2Proof.Machine.execCstart a s
  | .kldi im d => Sys2Proof.Machine.execKldi im d s
  | .kaddi im a d => Sys2Proof.Machine.execKaddi im a d s
  | .kadd b a d => Sys2Proof.Machine.execKadd b a d s
  | .ksub b a d => Sys2Proof.Machine.execKsub b a d s
  | .kmul b a d => Sys2Proof.Machine.execKmul b a d s
  | .kdiv b a d => Sys2Proof.Machine.execKdiv b a d s
  | .kmod b a d => Sys2Proof.Machine.execKmod b a d s
  | .kmin b a d => Sys2Proof.Machine.execKmin b a d s
  | .kmax b a d => Sys2Proof.Machine.execKmax b a d s
  | .kshr im a d => Sys2Proof.Machine.execKshr im a d s
  | .khash b a d => Sys2Proof.Machine.execKhash b a d s
  | .kldp im d => Sys2Proof.Machine.execKldp im d s
  | .kemit b a => Sys2Proof.Machine.execKemit b a s
  | .kblt b im a => Sys2Proof.Machine.execKblt b im a s
  | .kloop im a => Sys2Proof.Machine.execKloop im a s
  | .kend => Sys2Proof.Machine.execKend s
  | .pairComparison => Sys2Proof.Machine.execPairComparison s
  | .migrationMessageArrival => Sys2Proof.Machine.execMigrationMessageArrival s
  | .migrationResend => Sys2Proof.Machine.execMigrationResend s
  | .arrivalContextGrant => Sys2Proof.Machine.execArrivalContextGrant s
  | .activeMessageArrival => Sys2Proof.Machine.execActiveMessageArrival s
  | .amsgReply => Sys2Proof.Machine.execAmsgReply s
  | .decArrival => Sys2Proof.Machine.execDecArrival s
  | .taskSlotStart => Sys2Proof.Machine.execTaskSlotStart s
  | .meshPortWordArrival => Sys2Proof.Machine.execMeshPortWordArrival s
  | .queueElementArrival => Sys2Proof.Machine.execQueueElementArrival s
  | .streamElementFetch => Sys2Proof.Machine.execStreamElementFetch s
  | .streamElementWrite => Sys2Proof.Machine.execStreamElementWrite s
  | .copyCompletion => Sys2Proof.Machine.execCopyCompletion s
  | .copyStop => Sys2Proof.Machine.execCopyStop s
  | .hartRestart => Sys2Proof.Machine.execHartRestart s
  | .matrixCommandTake => Sys2Proof.Machine.execMatrixCommandTake s
  | .matrixCommandComplete => Sys2Proof.Machine.execMatrixCommandComplete s
  | .matrixResumableStop => Sys2Proof.Machine.execMatrixResumableStop s
  | .preemption => Sys2Proof.Machine.execPreemption s
  | .preemptionSaveComplete => Sys2Proof.Machine.execPreemptionSaveComplete s
  | .restore => Sys2Proof.Machine.execRestore s
  | .retryResend => Sys2Proof.Machine.execRetryResend s
  | .heldStrandRelease => Sys2Proof.Machine.execHeldStrandRelease s
  | .heldStrandEnd => Sys2Proof.Machine.execHeldStrandEnd s
  | .l1Fill => Sys2Proof.Machine.execL1Fill s
  | .ownershipGrant => Sys2Proof.Machine.execOwnershipGrant s
  | .forwardedRead => Sys2Proof.Machine.execForwardedRead s
  | .forwardedOwnership => Sys2Proof.Machine.execForwardedOwnership s
  | .recallRange => Sys2Proof.Machine.execRecall s
  | .recordDeletion => Sys2Proof.Machine.execRecordDeletion s
  | .l1UncorrectableError => Sys2Proof.Machine.execL1UncorrectableError s
  | .directoryError => Sys2Proof.Machine.execDirectoryError s
  | .recallTimeout => Sys2Proof.Machine.execRecallTimeout s
  | .translationWalk => Sys2Proof.Machine.execTranslationWalk s
  | .leaseExpiry => Sys2Proof.Machine.execLeaseExpiry s
  | .patrolScrub => Sys2Proof.Machine.execPatrolScrub s
  | .announcementWindowClose => Sys2Proof.Machine.execAnnouncementWindowClose s
  | .announcementDelivery => Sys2Proof.Machine.execAnnouncementDelivery s
  | .phaseStep => Sys2Proof.Machine.execPhaseStep s
  | .impressionPass => Sys2Proof.Machine.execImpressionPass s
  | .blockRecomputation => Sys2Proof.Machine.execBlockRecomputation s
  | .bar2Write => Sys2Proof.Machine.execBar2Write s
  | .bar2Read => Sys2Proof.Machine.execBar2Read s
  | .hostWindowRequest => Sys2Proof.Machine.execHostWindowRequest s
  | .backInvalidation => Sys2Proof.Machine.execBackInvalidation s
  | .launchRingEntry => Sys2Proof.Machine.execLaunchRingEntry s
  | .eventRingWrite => Sys2Proof.Machine.execEventRingWrite s
  | .winbaseWrite => Sys2Proof.Machine.execWinbaseWrite s
  | .eqbaseWrite => Sys2Proof.Machine.execEqbaseWrite s
  | .eqsizeWrite => Sys2Proof.Machine.execEqsizeWrite s
  | .eqheadWrite => Sys2Proof.Machine.execEqheadWrite s
  | .lqbaseWrite => Sys2Proof.Machine.execLqbaseWrite s
  | .lqsizeWrite => Sys2Proof.Machine.execLqsizeWrite s
  | .lqtailWrite => Sys2Proof.Machine.execLqtailWrite s
  | .lqtenWrite => Sys2Proof.Machine.execLqtenWrite s
  | .attnWrite => Sys2Proof.Machine.execAttnWrite s
  | .managementRegisterWrite => Sys2Proof.Machine.execManagementRegisterWrite s
  | .bindRecordCommit => Sys2Proof.Machine.execBindRecordCommit s
  | .bindRecordEmpty => Sys2Proof.Machine.execBindRecordEmpty s
  | .boundsRecordWrite => Sys2Proof.Machine.execBoundsRecordWrite s
  | .startUp => Sys2Proof.Machine.execStartUp s
  | .flitReceive => Sys2Proof.Machine.execFlitReceive s
  | .frameReceive => Sys2Proof.Machine.execFrameReceive s
  | .acknowledgement => Sys2Proof.Machine.execAcknowledgement s
  | .acknowledgementDue => Sys2Proof.Machine.execAcknowledgementDue s
  | .replayRequest => Sys2Proof.Machine.execReplayRequest s
  | .replayTimeout => Sys2Proof.Machine.execReplayTimeout s
  | .restripe => Sys2Proof.Machine.execRestripe s
  | .hello => Sys2Proof.Machine.execHello s
  | .quiesce => Sys2Proof.Machine.execQuiesce s
  | .wavelengthThreshold => Sys2Proof.Machine.execWavelengthThreshold s
  | .wavelengthTrained => Sys2Proof.Machine.execWavelengthTrained s
  | .lossOfLight => Sys2Proof.Machine.execLossOfLight s
  | .lightReturn => Sys2Proof.Machine.execLightReturn s
  | .keyLoad => Sys2Proof.Machine.execKeyLoad s
  | .downListWrite => Sys2Proof.Machine.execDownListWrite s
  | .remoteRequest => Sys2Proof.Machine.execRemoteRequest s
  | .remoteResponse => Sys2Proof.Machine.execRemoteResponse s
  | .copyWritePacket => Sys2Proof.Machine.execCopyWritePacket s
  | .copyWriteResponse => Sys2Proof.Machine.execCopyWriteResponse s
  | .reconfDrainComplete => Sys2Proof.Machine.execReconfDrainComplete s
  | .switchStatus => Sys2Proof.Machine.execSwitchStatus s
  | .switchStatusTimeout => Sys2Proof.Machine.execSwitchStatusTimeout s
  | .reconfTrainingComplete => Sys2Proof.Machine.execReconfTrainingComplete s
  | .reconfTimeout => Sys2Proof.Machine.execReconfTimeout s
  | .groupActive => Sys2Proof.Machine.execGroupActive s
  | .joinTimeout => Sys2Proof.Machine.execJoinTimeout s
  | .collectiveContribution => Sys2Proof.Machine.execCollectiveContribution s
  | .memberTimeout => Sys2Proof.Machine.execMemberTimeout s
  | .collectiveCompletion => Sys2Proof.Machine.execCollectiveCompletion s
  | .uncorrectableCoreError => Sys2Proof.Machine.execUncorrectableCoreError s
  | .hbmUncorrectableError => Sys2Proof.Machine.execHbmUncorrectableError s
  | .cxlCacheResponse => Sys2Proof.Machine.execCxlCacheResponse s
  | .fibrePinWrite => Sys2Proof.Machine.execFibrePinWrite s
  | .wavelengthThresholdWrite => Sys2Proof.Machine.execWavelengthThresholdWrite s

end Sys2Proof.Machine
end

