-- ==== Sys2Proof/Machine/Fetch.lean ====
section
/-! DEFINITION. Fetching and decoding the next instruction of an agent (R40 to R42), running it, the words of the index
generators (R272 to R274) and the built-in movement program (R213, R230). -/

namespace Sys2Proof.Machine

/-! ### Fetch -/

/-- How a fetch ends without its bytes: in the fetch fault, in a wait, or with the death of the agent's own core. -/
inductive NoFetch where
  | fault (t : Trap) (s : State)
  | wait (s : State)
  | dead (s : State)
  deriving DecidableEq, Repr

/-- The halfword at an address as the agent fetches it, under the conditions that bind an LDRO (R41, R42): no event, no record, X checked; a
page of mode 01 or 10 cannot be fetched from (R404). It waits where an LDRO would, for a PENDING block or a line of the window
(R358, R370), and what an LDRO would trap on, poison among it, gives the fetch fault (DEDUCED, log entry 15). Bad dirty data kills its
core (R150). A fault comes with the state that its walk and reads leave (R343, R350). -/
def State.fetchHalf (s : State) (va : Word) : Except NoFetch (Nat × State) :=
  let bad : Trap := { code := cFetch, val := va }
  match checkExtent s s.who s.space { fetch := true } va 0 2 {} with
  | .ok a t =>
    match a.exts with
    | [e] =>
      if e.mode = 1 ∨ e.mode = 2 ∨ isStore e.key then .error (.fault bad t)
      else if a.wait then .error (.wait { s with cxl := t.cxl })
      else
        match t.badData e with
        | some b => if b.core = t.me.1 then .error (.dead (t.killCore b.core)) else .error (.fault bad (t.killCore b.core))
        | none => .ok (leNat (memRead t.mem e.key 2), t.noteStaleOnce t.me.1 t.me.2 a.stale)
    | _ => .error (.fault bad t)
  | .trap _ t => .error (.fault bad t)
  | .wait t => .error (.wait { s with cxl := t.cxl })

/-- The bytes of the instruction at the agent's PC (R40, R41). -/
def State.fetch (s : State) : Except NoFetch (List Byte × State) :=
  match s.fetchHalf s.my.pc with
  | .error t => .error t
  | .ok (h, s1) =>
    if h % 2 = 0 then .ok (leBytes 2 h, s1)
    else
      match s1.fetchHalf (s.my.pc + 2) with
      | .error t => .error t
      | .ok (h2, s2) => .ok (leBytes 4 (h + 65536 * h2), s2)

/-- The trap of a word that is no instruction (R60). -/
def rejectTrap (r : Reject) (bs : List Byte) : Trap :=
  { code := cIllegal, detail := match r with | .typeCode => 0x20 | _ => 0, val := word (leNat bs) }

/-! ### Bad data of the core (R150) -/

/-- Words that read or write vector and mask registers. -/
def usesVectors (i : Instr) : Bool :=
  bytesOfInstr i == 2 || [0x38, 0x39, 0x3A, 0x3B, 0x3C, 0x3D, 0x3E, 0x3F, 0x40, 0x41].contains (opcodeOf i)

/-- The instruction consumes bad data of its context: any reads the context and the register stack, a vector instruction
the vector file and the masks (R150, DESIGN CHOICE, log entry 14). -/
def State.consumesBad (s : State) (i : Instr) : Bool :=
  s.myCore.bad.any fun b =>
    match b with
    | .stack x => x == s.me.2
    | .context x => x == s.me.2
    | .vector x => x == s.me.2 && usesVectors i
    | .masks x => x == s.me.2 && usesVectors i
    | _ => false

/-! ### The next instruction -/

/-- A decoded instruction is run; one that consumes bad data kills its core (R150). -/
def State.run (i : Instr) (s : State) : Host.Outcome State Fault Refusal :=
  if s.consumesBad i then .next (s.killCore s.me.1) else exec i s

/-- The agent's next instruction, fetched, decoded and run (R41). -/
def State.runNext (s : State) : Host.Outcome State Fault Refusal :=
  match s.fetch with
  | .error (.fault t s1) => .next (s1.trapHere t)
  | .error (.wait s1) => .next (s1.updMy fun c => { c with st := .stalled })
  | .error (.dead s1) => .next s1
  | .ok (bs, s1) =>
    match decode bs with
    | .error r => .next (s1.trapHere (rejectTrap r bs))
    | .ok (i, _) => s1.run i

/-! ### Pattern words (R272, R273) -/

/-- The meaning of a pattern word, as exec gives it to the operation the word stands for; none where the word is no
pattern word or a reserved field is not 0. -/
def patternMeaning (w : Nat) : Option (State → Host.Outcome State Fault Refusal) :=
  let b := bv w 26 4
  let a := bv w 14 4
  let d := bv w 8 4
  let i := bv w 18 8
  let plain := fld w 12 2 = 0 ∧ fld w 18 8 = 0
  match fld w 0 8, fld w 30 2 with
  | 0xE1, 0 => if fld w 12 6 = 0 ∧ fld w 26 4 = 0 then some (execKldi i d) else none
  | 0xE1, 1 => if fld w 12 2 = 0 ∧ fld w 26 4 = 0 then some (execKaddi i a d) else none
  | 0xE1, 2 => if plain then some (execKadd b a d) else none
  | 0xE1, 3 => if plain then some (execKsub b a d) else none
  | 0xE3, 0 => if plain then some (execKmul b a d) else none
  | 0xE3, 1 => if plain then some (execKdiv b a d) else none
  | 0xE3, 2 => if plain then some (execKmod b a d) else none
  | 0xE3, 3 => if plain then some (execKmin b a d) else none
  | 0xE5, 0 => if plain then some (execKmax b a d) else none
  | 0xE5, 1 => if fld w 12 2 = 0 ∧ fld w 23 3 = 0 ∧ fld w 26 4 = 0 then some (execKshr (bv w 18 5) a d) else none
  | 0xE5, 2 => if plain then some (execKhash b a d) else none
  | 0xE5, 3 => if fld w 12 6 = 0 ∧ fld w 21 5 = 0 ∧ fld w 26 4 = 0 then some (execKldp (bv w 18 3) d) else none
  | 0xE7, 0 => if fld w 8 6 = 0 ∧ fld w 18 8 = 0 then some (execKemit b a) else none
  | 0xE7, 1 => if fld w 8 6 = 0 then some (execKblt b i a) else none
  | 0xE7, 2 => if fld w 8 6 = 0 ∧ fld w 26 4 = 0 then some (execKloop i a) else none
  | 0xE7, 3 => if fld w 8 18 = 0 ∧ fld w 26 4 = 0 then some execKend else none
  | _, _ => none

/-- A generator runs the word at its word index in the partition of the core it serves (R271, R274). -/
def State.runWord (s : State) (g k : Nat) : Host.Outcome State Fault Refusal :=
  let x := vget Gen.reset (s.galley g).gens k
  match s.runningCmd g with
  | none => .next s
  | some (run, _) =>
    if !x.running then .next s
    else if x.pc < 0 ∨ 127 < x.pc then .next (s.genFault g k 3)
    else
      match patternMeaning (look 0#32 (s.galley g).pstore (galleyIndex run.core * 128 + x.pc.toNat)).toNat with
      | none => .next (s.genFault g k 3)
      | some m => m s

/-! ### The built-in movement program (R213, R230) -/

/-- The prefetches of an index-line event (R230): the indices are those of the bytes as filled; a target beyond 64 bits is none. Its kernel is
the one that the slot holds when the event is taken (DESIGN CHOICE, log entry 20). -/
def State.lineProgram (s : State) (kernel first len : Nat) (bytes : List Byte) : State :=
  match vget none s.myCore.kernels kernel with
  | none => s
  | some k =>
    let w := if k.wide then 8 else 4
    let lo := (first - k.wbase.toNat + w - 1) / w
    let hi := (first + len - k.wbase.toNat) / w
    (List.range (hi - lo)).foldl (fun s j =>
      let x := leNat ((bytes.drop (k.wbase.toNat + w * (lo + j) - first)).take w)
      let at0 := k.tbase.toNat + x * 2 ^ k.shift
      if at0 < 2 ^ 64 then s.prefetch (word at0) k.tlen else s) s

/-- The next step of the built-in program: it starts the request it has taken, or takes the oldest item. -/
def State.builtinStep (s : State) : Host.Outcome State Fault Refusal :=
  match s.myCore.taken with
  | (slot, _) :: _ => execCstart 0 (s.updMy fun c => c.setG 0 (word slot))
  | [] =>
    match s.myCore.queue with
    | .line _ k a n bs :: _ =>
      match execCtake s with
      | .next t => .next (t.lineProgram k a.toNat n.toNat bs)
      | x => x
    | _ => execCtake s

end Sys2Proof.Machine
end

