-- ==== Sys2Proof/Machine/Schedule.lean ====
section
/-! DEFINITION. Who moves next: issue selection on each core (R142), the harts, the engines and the events that are due
(DESIGN CHOICE, log entry 4).
Readings of the spec that this file takes: DEDUCED, log entry 17. -/

namespace Sys2Proof.Machine

/-! ### The start of a step -/

/-- The state in which an agent's step runs: one tick and one cycle later. -/
def State.begin (s : State) (a : Agent) : State := { s with cur := a, tick := s.tick + 1, cycle := s.cycle + 1 }

/-! ### Eligible strands (R124) -/

/-- A context that holds a strand which moves by itself: not free, not held, not the secondary of a pair, not one whose
migration is due or its message on its way (R79, R83, R124, R147). -/
def Ctx.moves (x : Ctx) : Bool :=
  (x.st == .eligible || x.st == .stalled) && (x.hot.isNone || x.midway)
    && (match x.pair with | some p => p.primary | none => true)
    && (match x.wait with | .migration _ => false | _ => true)

/-- The strand's pair compares before its next instruction, or has yet to find its partner (R124, R147, R148). -/
def Ctx.pairWaits (x : Ctx) : Bool := x.unmatched || x.compares

/-- The agent has a next instruction to attempt. One whose interval an implicit release has ended first waits for its earlier
writes (R205, R300). -/
def State.present (s : State) (n i : Nat) : Bool :=
  let c := s.core n
  !c.dead && !c.evicted && (if i = 8 then !c.hartStopped else (c.ctx i).moves && !(c.ctx i).pairWaits)
    && (!(c.ctx i).releaseDue || s.performed n i)

/-- Agent i of core n. -/
def agentOf (n i : Nat) : Agent := if i = 8 then .hart n else .strand n i

/-- The outcome of an attempt from a state is a stall that has begun nothing (R124). -/
def stallsIn (s : State) (n i : Nat) : Host.Outcome State Fault Refusal → Bool
  | .next t => decide (t = s.updCtx n i fun x => { x with st := .stalled })
  | _ => false

/-! ### Issue selection (R142) -/

/-- Insert by falling skip; equals keep their order. -/
def insertSkip (skip : Nat → Nat) (i : Nat) : List Nat → List Nat
  | [] => [i]
  | j :: t => if skip j < skip i then i :: j :: t else j :: insertSkip skip i t

/-- Contexts by skip, largest first, ties as they stand. -/
def bySkip (skip : Nat → Nat) (l : List Nat) : List Nat := l.foldl (fun a i => insertSkip skip i a) []

/-- The first of a list with the largest value. -/
def firstMax (f : Nat → Nat) (l : List Nat) : Option Nat := l.find? fun i => l.all fun j => decide (f j ≤ f i)

/-- The strand to issue among the eligible ones of a core, in round-robin order (R142). -/
def Core.select (c : Core) (e : List Nat) : Option Nat :=
  match firstMax (fun i => (c.ctx i).prio) e with
  | none => none
  | some c0 =>
    let o := bySkip (fun i => vget 0 c.skip i) (e.filter fun i => i != c0)
    if (o.zipIdx 1).any (fun p => decide (8 < vget 0 c.skip p.1 + p.2)) then firstMax (fun i => vget 0 c.skip i) e else some c0

/-- Contexts in round-robin order, after the one that issued last. -/
def Core.robin (c : Core) : List Nat := (List.range 8).map fun k => (c.lastIssue + 1 + k) % 8

/-- A migrating strand's message is on its way. -/
def Wait.migrating : Wait → Bool
  | .migration _ => true
  | _ => false

/-- What an issue does to its core: skip counts and the last issuer (R142). -/
def Core.issued (c : Core) (e : List Nat) (i : Nat) : Core :=
  { c with
    lastIssue := i
    skip := Vector.ofFn fun k => if k.val = i then 0 else if e.contains k.val then vget 0 c.skip k.val + 1 else 0 }

/-- Cycles pass for the context that issues: CNT8, and CNT9 for those it was stalled (R141, DESIGN CHOICE, log entry 7). -/
def Ctx.passTime (x : Ctx) (tick : Nat) : Ctx :=
  let idle := Config.idleCycles (2 * tick)
  (x.count 8 (1 + idle)).count 9 (Config.idleCycles (2 * tick + 1) % (idle + 1))

/-- The state in which strand i of core n attempts its next instruction. -/
def State.issue (s : State) (n i : Nat) : State :=
  let t := s.begin (agentOf n i)
  if i = 8 then (if (t.ctx n 8).releaseDue then t.updCtx n 8 fun x => { x with releaseDue := false } else t)
  else t.updCtx n i fun x => { x.passTime t.tick with st := .eligible, releaseDue := false }

/-- After the attempt of strand i, with e the eligible contexts of its core: it has issued (R142); where it has only stalled nothing has
issued, the cycle is one of its stalled ones (R141), and its skip count starts again (R143). -/
def State.charge (s : State) (n i : Nat) (e : List Nat) : State :=
  if (s.ctx n i).st = .stalled ∧ (s.ctx n i).wait.migrating = false then
    (s.updCtx n i fun x => x.count 9 1).updCore n fun c => { c with skip := vset c.skip i 0 }
  else s.updCore n fun c => c.issued e i

/-- The attempt of strand i of core n, with e the eligible contexts of the core. -/
def State.attempt (s : State) (n i : Nat) (e : List Nat) : Host.Outcome State Fault Refusal :=
  match (s.issue n i).runNext with
  | .next t => .next (t.charge n i e)
  | x => x

/-- The movement program of the agent's core is the built-in one (R213). -/
def State.builtin (s : State) : Bool :=
  s.isHart && ((s.bindOf s.me.1).any fun b => (s.bind b).field 24 8 == 0)

/-- The strands of a core whose attempt does more than stall. -/
def State.willing (s : State) (n : Nat) (ps : List Nat) : List Nat := ps.filter fun i => !stallsIn (s.issue n i) n i (s.issue n i).runNext

/-- The eligible strands of a core, in round-robin order. A lone strand is attempted without a trial. -/
def State.eligible (s : State) (n : Nat) : List Nat :=
  let ps := (s.core n).robin.filter fun i => s.present n i
  match ps with
  | [] => []
  | [i] => [i]
  | ps => s.willing n ps

/-! ### Events that are due -/

/-- The row of the opcode table that an event belongs to. -/
def Event.instr : Event → Instr
  | .pairComparison _ _ _ => .pairComparison
  | .migrationMessageArrival _ _ => .migrationMessageArrival
  | .migrationResend _ _ => .migrationResend
  | .arrivalContextGrant _ => .arrivalContextGrant
  | .activeMessageArrival _ => .activeMessageArrival
  | .amsgReply _ _ _ => .amsgReply
  | .decArrival _ _ _ _ _ => .decArrival
  | .taskSlotStart _ => .taskSlotStart
  | .meshPortWordArrival _ _ _ => .meshPortWordArrival
  | .queueElementArrival _ _ _ _ _ => .queueElementArrival
  | .streamElementFetch _ _ _ => .streamElementFetch
  | .streamElementWrite _ _ _ => .streamElementWrite
  | .copyCompletion _ _ => .copyCompletion
  | .copyStop _ _ => .copyStop
  | .hartRestart _ => .hartRestart
  | .matrixCommandTake _ => .matrixCommandTake
  | .matrixCommandComplete _ => .matrixCommandComplete
  | .matrixResumableStop _ => .matrixResumableStop
  | .preemption _ => .preemption
  | .preemptionSaveComplete _ => .preemptionSaveComplete
  | .restore _ _ => .restore
  | .retryResend _ => .retryResend
  | .heldStrandRelease _ _ => .heldStrandRelease
  | .heldStrandEnd _ _ => .heldStrandEnd
  | .l1Fill _ _ _ _ _ => .l1Fill
  | .ownershipGrant _ _ _ _ => .ownershipGrant
  | .forwardedRead _ _ _ _ _ => .forwardedRead
  | .forwardedOwnership _ _ _ _ _ => .forwardedOwnership
  | .recallRange _ _ _ _ => .recallRange
  | .recordDeletion _ _ => .recordDeletion
  | .l1UncorrectableError _ _ _ => .l1UncorrectableError
  | .directoryError _ _ => .directoryError
  | .recallTimeout _ _ => .recallTimeout
  | .translationWalk _ _ => .translationWalk
  | .leaseExpiry _ _ => .leaseExpiry
  | .patrolScrub _ => .patrolScrub
  | .announcementWindowClose => .announcementWindowClose
  | .announcementDelivery _ => .announcementDelivery
  | .phaseStep _ => .phaseStep
  | .impressionPass _ => .impressionPass
  | .blockRecomputation _ => .blockRecomputation
  | .bar2Write _ _ => .bar2Write
  | .bar2Read _ _ => .bar2Read
  | .hostWindowRequest _ _ _ => .hostWindowRequest
  | .backInvalidation _ => .backInvalidation
  | .launchRingEntry _ => .launchRingEntry
  | .eventRingWrite => .eventRingWrite
  | .winbaseWrite _ => .winbaseWrite
  | .eqbaseWrite _ => .eqbaseWrite
  | .eqsizeWrite _ => .eqsizeWrite
  | .eqheadWrite _ => .eqheadWrite
  | .lqbaseWrite _ _ => .lqbaseWrite
  | .lqsizeWrite _ _ => .lqsizeWrite
  | .lqtailWrite _ _ => .lqtailWrite
  | .lqtenWrite _ _ => .lqtenWrite
  | .attnWrite _ _ => .attnWrite
  | .managementRegisterWrite _ _ => .managementRegisterWrite
  | .bindRecordCommit _ _ _ => .bindRecordCommit
  | .bindRecordEmpty _ _ => .bindRecordEmpty
  | .boundsRecordWrite _ _ => .boundsRecordWrite
  | .startUp _ => .startUp
  | .flitReceive _ _ => .flitReceive
  | .frameReceive _ => .frameReceive
  | .acknowledgement _ _ => .acknowledgement
  | .acknowledgementDue _ => .acknowledgementDue
  | .replayRequest _ _ => .replayRequest
  | .replayTimeout _ => .replayTimeout
  | .restripe _ _ _ => .restripe
  | .hello _ _ _ _ => .hello
  | .quiesce _ => .quiesce
  | .wavelengthThreshold _ _ _ => .wavelengthThreshold
  | .wavelengthTrained _ _ _ _ => .wavelengthTrained
  | .lossOfLight _ _ _ => .lossOfLight
  | .lightReturn _ _ _ => .lightReturn
  | .keyLoad _ _ _ => .keyLoad
  | .downListWrite _ _ => .downListWrite
  | .remoteRequest _ => .remoteRequest
  | .remoteResponse _ => .remoteResponse
  | .copyWritePacket _ => .copyWritePacket
  | .copyWriteResponse _ _ _ => .copyWriteResponse
  | .reconfDrainComplete => .reconfDrainComplete
  | .switchStatus _ => .switchStatus
  | .switchStatusTimeout => .switchStatusTimeout
  | .reconfTrainingComplete => .reconfTrainingComplete
  | .reconfTimeout => .reconfTimeout
  | .groupActive _ => .groupActive
  | .joinTimeout _ _ => .joinTimeout
  | .collectiveContribution _ _ => .collectiveContribution
  | .memberTimeout _ _ => .memberTimeout
  | .collectiveCompletion _ _ => .collectiveCompletion
  | .uncorrectableCoreError _ _ => .uncorrectableCoreError
  | .hbmUncorrectableError _ => .hbmUncorrectableError
  | .cxlCacheResponse _ _ => .cxlCacheResponse
  | .fibrePinWrite _ _ _ _ _ => .fibrePinWrite
  | .wavelengthThresholdWrite _ => .wavelengthThresholdWrite

/-- A list of one element, or none. -/
def only {α : Type} (b : Bool) (x : α) : List α := if b then [x] else []

/-- A core's dispatch hardware (R83, R139, R152, R321): arrivals, then ready task slots, then active messages, a team that waits for a core
among them. -/
def State.dispatchDue (s : State) (n : Nat) : List Event :=
  let c := s.core n
  if c.dead || c.evicted then []
  else if !c.arrivals.isEmpty && !c.freeCtxs.isEmpty then [.arrivalContextGrant n]
  else if (s.readyTask n).isSome then [.taskSlotStart n]
  else only (!c.amsgs.isEmpty || (s.waitingTeam n).isSome) (.activeMessageArrival n)

/-- Refused migration messages of a core that are not on their way (R83). -/
def State.migrationsDue (s : State) (n : Nat) : List Event :=
  (List.range 8).flatMap fun i =>
    match (s.ctx n i).wait with
    | .migration _ => only (!s.queue.contains (.migrationMessageArrival n i)) (.migrationResend n i)
    | _ => []

/-- Streams of a core with an element to move (R183, R184). -/
def State.streamsDue (s : State) (n : Nat) : List Event :=
  (List.range 8).flatMap fun i => (List.range 8).flatMap fun k =>
    match s.streamAt n i k with
    | none => []
    | some t => only (s.streamStep n i k t.write).isSome (if t.write then .streamElementWrite n i k else .streamElementFetch n i k)

/-- Tags of a core whose copies have been started and have not stopped. -/
def State.tagsMoving (s : State) (n : Nat) : List Nat :=
  if (s.core n).dead || (s.core n).evicted then [] else (List.range 64).filter fun t => (s.movingCopy n t).isSome

/-- Copies of a core that stop or complete, abandoned ones among them (R217, R219, R228). -/
def State.copiesDue (s : State) (n : Nat) : List Event :=
  if (s.core n).dead || (s.core n).evicted then []
  else
    ((List.range 64).filter fun t => (vget none (s.core n).copies t).isSome).flatMap fun t =>
      if (s.copyFault n t).isSome then [.copyStop n t] else only (s.copyReady n t) (.copyCompletion n t)

/-- Pairs of a core that compare now (R147). -/
def State.pairsDue (s : State) (n : Nat) : List Event :=
  if (s.core n).dead || (s.core n).evicted then []
  else
    ((List.range 8).filter fun i => match (s.ctx n i).pair with | some p => p.primary && (s.ctx n i).compares && !(s.ctx n i).unmatched | none => false).map
      fun i => .pairComparison n i 0

/-- Expired translations of a core (R343). -/
def State.leasesDue (s : State) (n : Nat) : List Event :=
  ((s.core n).tlb.filter fun e => decide (e.expires ≤ s.cycle)).map fun e => .leaseExpiry n e.va

/-- Held requests of a core that can leave again, strands that wait to be paired with it again, and the end of its save (R148, R330, R331). -/
def State.savesDue (s : State) (n : Nat) : List Event :=
  if (s.core n).evicted then only (!s.saveWaits n && !(s.core n).saved) (.preemptionSaveComplete n)
  else only ((s.retries.any fun v => (match v.way with | some w => w.1 == n | none => false) && s.takes v) || !(s.unmatchedOn n).isEmpty)
    (.retryResend n)

/-- Records of ended intervals (R204, R337). -/
def State.recordsDue (s : State) : List Event :=
  (s.records.filter fun h => !s.recLive h.core h.access).map fun h => .recordDeletion h.core h.access.agent

/-- The matrix unit of a galley: a command taken, completed or stopped (R238, R262, R267). -/
def State.matrixDue (s : State) (g : Nat) : List Event :=
  if (s.galley g).running.isNone then
    only ((List.range 8).any fun i => s.headReady (coreInGalley g i)) (.matrixCommandTake g)
  else
    match s.matrixWork g with
    | some (_, _, .ok _ _) => [.matrixCommandComplete g]
    | some (_, _, .fault _ _) => [.matrixCommandComplete g]
    | some (_, _, .stop _ _) => [.matrixResumableStop g]
    | _ => []

/-- A die's homes and its impression engine (R301, R302, R368). -/
def State.dieDue (s : State) (die : Nat) : List Event :=
  only (s.scReady die).isSome (.announcementDelivery die)
    ++ (if (vget [] s.passes die).isEmpty then
          only (s.impressions.any fun e => decide (e.1 / 64 = die) && e.2.faulted.isNone && (List.range e.2.nb).any fun b => (e.2.block b).1 == .pending)
            (.impressionPass die)
        else [.blockRecomputation die])

/-- The announcement window, phase cells, the launch rings and the event ring (R301, R310, R354, R357). -/
def State.packageDue (s : State) : List Event :=
  only ((s.scOps.any fun o => o.window == s.windowsClosed) || s.cores.any fun e => e.2.announced) .announcementWindowClose
    ++ (s.phaseOps.map fun o => o.cell).eraseDups.map Event.phaseStep
    -- an entry that waits for its core, or for a line already asked for, is not due
    ++ ((List.range 16).filter fun k => s.ringReady k && decide (s.takeRing k ≠ s)).map Event.launchRingEntry
    ++ only ((!s.eventHold.isEmpty || s.hostMsgs.toList.any fun q => !q.isEmpty) && s.eventRoom && decide (s.writeEvent ≠ s)) .eventRingWrite

/-- A packet on its way, performed, or returned (R404, R408, R426). -/
def State.packetDue (s : State) (p : Packet) : List Event :=
  let there := s.fabric.reachable (keyPeer p.key)
  match p.kind with
  | .copy tag _ =>
    if p.performed || !there then [.copyWriteResponse p.core tag p.id] else only (s.fabric.oldest p) (.copyWritePacket p.id)
  | _ => if p.performed || !there then [.remoteResponse p.id] else only (s.fabric.oldest p) (.remoteRequest (.posted p.id))

/-- A fibre that owes an acknowledgement or credits, or has a wavelength over the threshold that is not yet out (R397 to R399). -/
def State.fibreDue (s : State) (n : Nat) : List Event :=
  let f := s.fabric.fibre n
  only (f.ackDue || f.owedParam != 0) (.acknowledgementDue n)
    ++ ((wavesOf f.rxMask).filter fun w => !f.rxOut.contains w && decide (s.fabric.threshold < vget 0 f.corrected w)).map
        fun w => .wavelengthThreshold n false w

/-- What the step in which a member's own contribution leaves brings with it: its rank alone (R419). -/
def Group.ownMark (g : Group) : Contribution :=
  { rank := g.rank, seq := g.next, desc := [], leaves := false, idle := false, asksIn := false, poisoned := false, fault := none, bytes := [] }

/-- The collective engine's work for a group: its contribution leaves, or, at the lowest live rank, the collective completes (R419). -/
def State.groupDue (s : State) (h : Nat) (g : Group) : List Event :=
  match g.queue.head? with
  | some c =>
    match g.decision with
    | some d => only (!s.dstWaits h g c) (.collectiveCompletion h (some d))
    | none =>
      if s.collWaits h g c then []
      else only g.gives (.collectiveContribution h g.ownMark) ++ only g.complete (.collectiveCompletion h none)
  | none => []

/-- The fabric controller and the collective engine (R414, R419). -/
def State.fabricDue (s : State) : List Event :=
  s.fabric.packets.flatMap s.packetDue ++ (s.fabric.fibres.map Prod.fst).flatMap s.fibreDue
    ++ (match s.fabric.reconf with
        | some r =>
          only (r.phase == .drain && s.fabric.drained r.dim) .reconfDrainComplete
            ++ only (r.phase == .train && s.fabric.trained r) .reconfTrainingComplete
        | none => [])
    ++ s.fabric.groups.flatMap fun e => s.groupDue e.1 e.2

/-- Cores and galleys that the state names. -/
def State.coreList (s : State) : List Nat := s.cores.map Prod.fst

def State.galleyList (s : State) : List Nat := (s.coreList.map galleyOf).eraseDups

/-- Every event that is due. -/
def State.due (s : State) : List Event :=
  (s.coreList.flatMap fun n =>
      s.dispatchDue n ++ s.migrationsDue n ++ s.pairsDue n ++ s.streamsDue n ++ s.copiesDue n ++ s.leasesDue n ++ s.savesDue n)
    ++ s.recordsDue ++ s.galleyList.flatMap s.matrixDue ++ (List.range 4).flatMap s.dieDue ++ s.packageDue ++ s.fabricDue

/-! ### Moves -/

/-- A step that can be taken: the oldest event of the queue, an event that is due, the next piece of a copy (R217), the
next word of a generator (R274), an automatic migration that can leave (R79), the issue of a core's strand among its eligible ones
(R142), or of its hart. -/
inductive Move where
  | queued
  | engine (e : Event)
  | transfer (core : Nat) (tag : Nat)
  | word (galley : Nat) (gen : Nat)
  | depart (core : Nat) (ctx : Nat)
  | strand (core : Nat) (ctx : Nat) (eligible : List Nat)
  | hart (core : Nat)
  deriving DecidableEq, Repr

/-- The hart of a core has something to do: the built-in program an item or a request, a program of the tenant's own its
next instruction (R213). -/
def State.hartReady (s : State) (n : Nat) : Bool :=
  s.present n 8 && (!({ s with cur := .hart n } : State).builtin || !(s.core n).queue.isEmpty || !(s.core n).taken.isEmpty)

/-- Strands of a core whose automatic migration can leave, or no longer happens (R79, R82). -/
def State.departures (s : State) (n : Nat) : List Nat :=
  if (s.core n).dead || (s.core n).evicted then []
  else (List.range 8).filter fun i => (s.ctx n i).hot.isSome && ((s.autoMigrate n i).ctx n i).hot.isNone

/-- The moves of a core's units and agents. -/
def State.coreMoves (s : State) (n : Nat) : List Move :=
  (s.tagsMoving n).map (Move.transfer n) ++ (s.departures n).map (Move.depart n)
    ++ (let e := s.eligible n
        match (s.core n).select e with
        | some i => [.strand n i e]
        | none => [])
    ++ only (s.hartReady n) (.hart n)

/-- Generators that run a word. -/
def State.genMoves (s : State) (g : Nat) : List Move :=
  if (s.galley g).running.isNone then [] else ((List.range 2).filter fun k => (vget Gen.reset (s.galley g).gens k).running).map (Move.word g)

/-- Every move. -/
def State.moves (s : State) : List Move :=
  only (!s.queue.isEmpty) .queued ++ s.due.map Move.engine ++ s.coreList.flatMap s.coreMoves ++ s.galleyList.flatMap s.genMoves

/-- A hardware event taken from the head of the queue. -/
def State.takeEvent (s : State) : Host.Outcome State Fault Refusal :=
  match s.queue with
  | [] => .next s
  | e :: _ => exec e.instr s

/-- A move made. -/
def State.play (s : State) (m : Move) : Host.Outcome State Fault Refusal :=
  match m with
  | .queued => (s.begin .hardware).takeEvent
  | .engine e => ({ s.begin .hardware with queue := e :: s.queue }).takeEvent
  | .transfer n t => .next ((s.begin .hardware).transfer n t)
  | .word g k => (s.begin (.generator g k)).runWord g k
  | .depart n i => .next ((s.begin .hardware).autoMigrate n i)
  | .strand n i e => s.attempt n i e
  | .hart n =>
    let t := s.begin (.hart n)
    if t.builtin then t.builtinStep else t.runNext

/-- Strands of a core that are not eligible restart their skip counts (R142, R143). -/
def State.restartSkips (s : State) (n : Nat) : State :=
  if (s.core n).skip.toList.all (· == 0) then s
  else
    let e := s.willing n ((s.core n).robin.filter fun i => s.present n i)
    s.updCore n fun c => { c with skip := Vector.ofFn fun k => if e.contains k.val then vget 0 c.skip k.val else 0 }

/-- Held stores of a pair whose implicit release has come are compared and performed before another agent moves (R205, R297, R300). -/
def State.performHeld (s : State) (n : Nat) : State :=
  (List.range 8).foldl (fun s i =>
    let x := s.ctx n i
    match x.pair with
    | some p => if p.primary && x.releaseDue && !p.log.isEmpty then (s.comparePair n i).1 else s
    | none => s) s

/-- The end of a step: held stores that an implicit release makes due are performed, cores that have consumed bad data die (R150), the
directory keeps its capacity (R335), arbiters with no head ready cycle (R238), and strands that are not eligible restart their skip counts. -/
def State.settled (s : State) : State :=
  let s := s.coreList.foldl State.performHeld s
  let s := ((s.coreList.filter fun n => (s.core n).doomed).foldl State.killCore s).dirTrim.cycleArbiters
  s.coreList.foldl State.restartSkips s

/-- The move made, and the end of its step. -/
def State.playOut (s : State) (m : Move) : Host.Outcome State Fault Refusal :=
  match s.play m with
  | .next t => .next t.settled
  | x => x

/-- One step: the only move there is, or one of them (DESIGN CHOICE, log entry 4); with none, a cycle passes. -/
def State.next (s : State) : Host.Outcome State Fault Refusal :=
  match s.moves with
  | [] => .next (s.begin .hardware)
  | [m] => s.playOut m
  | m :: ms => s.playOut ((m :: ms).getD (Config.choose s.tick % (ms.length + 1)) m)

end Sys2Proof.Machine
end

