-- ==== Sys2Proof/Machine/Place.lean ====
section
/-! DEFINITION. A word placed where the next step fetches it (DESIGN CHOICE, log entry 3): one strand, one hart or one generator that is
the only thing to move. -/

namespace Sys2Proof.Machine

/-- Where a placed word lies, in virtual and in physical address. -/
def placeAt : Nat := 0x10000

/-- The bind record of a placed word: tenant 1, core 0, VAMAX 32, weight 1, MIGT 65,535, and a movement program at the
placed word. -/
def placeRecord : BitVec 512 :=
  BitVec.ofNat 512 (1 + 2 ^ 32 + 2 ^ 40 + 32 * 2 ^ 48 + 2 ^ 56 + 65535 * 2 ^ 80 + placeAt * 2 ^ 192)

/-- A cached translation of the lowest 1 GiB onto itself, with every permission. -/
def placeTlb (s : State) : TlbEntry :=
  { tenant := 1, va := 0, size := 2 ^ 30, pte := word (s.fabric.own * 2 ^ 46 + 0x9D), expires := s.cycle + 65536, count := 0 }

/-- A state in which core 0 is bound and nothing moves; memory and the clocks are those of s. -/
def State.stillness (s : State) (c : Core) : State :=
  { State.reset with
    mem := s.mem
    cores := [(0, c)]
    binds := [(0, { Bind.empty with record := placeRecord, live := true })]
    bounds := [(0, BitVec.ofNat 64 (1 + 2 ^ 16 + 0xF1 * 2 ^ 32 + 32 * 2 ^ 40 + 0xF * 2 ^ 48))]
    teams := [(1, { core := 0, gang := 0, hset := 0, va := 32, launch := none, live := true, waiting := false })]
    nextTeam := 2
    nextId := s.nextId
    fabric := { Fabric.reset with own := s.fabric.own }
    flash := s.flash
    cycle := s.cycle
    tick := s.tick }

/-- The word of a strand: the strand of context 0 fetches it. -/
def State.placeStrand (s : State) (bs : List Byte) : State :=
  let x : Ctx := { Ctx.reset with st := .eligible, pc := word placeAt, tenant := 1, gang := 0, team := 1, va := 32 }
  { s with mem := memWrite s.mem placeAt bs }.stillness { Core.reset with ctxs := vset Core.reset.ctxs 0 x, tlb := [placeTlb s] }

/-- The word of a compositor hart: the hart of core 0 fetches it, with a kick item in its queue and a request taken
under handle 0. -/
def State.placeHart (s : State) (bs : List Byte) : State :=
  { s with mem := memWrite s.mem placeAt bs }.stillness
    { Core.reset with
      hart := { Core.reset.hart with pc := word placeAt, tenant := 1 }
      hartStopped := false
      queue := [.kick 1 0]
      taken := [(0, 0)]
      tlb := [placeTlb s] }

/-- The command of a placed pattern word: a sparse MWLD of one stored column. -/
def placeCommand : MCmd :=
  { id := 0, fn := 0, acc := 0, recNo := 0, ctx := 9, tenant := 1, team := 1, gen := 0, params := Vector.replicate 8 0
    redundant := false, shape := [], lay := 0
    binding := some { transposed := false, fent := 0, ient := 0xFFFF, ks := 1, ns := 1, vstr := 1, kt := 32
                      params := Vector.replicate 8 0, itab := 0, pid := 0 }
    inj := 0, fmt := none, rank := 0, row := 0, stage := none, held := false, counted := false, zeros := [], interval := 0, dec := none }

/-- A pattern word: generator 0 of galley 0 runs it for a sparse MWLD of core 0. -/
def State.placePattern (s : State) (w : Nat) : State :=
  let t := s.stillness { Core.reset with mq := [placeCommand] }
  { t with
    galleys := [(0, { Galley.reset with
      running := some { core := 0, yields := [], columns := [], faults := [] }
      pstore := [(galleyIndex 0 * 128, BitVec.ofNat 32 w)]
      gens := vset Galley.reset.gens 0 { Gen.reset with k := vset (vset Gen.reset.k 1 1) 2 1, running := true } })] }

/-- The agent that runs a word: a generator for 0x70 to 0x73, a hart for 0x74 and 0x75, else a strand. -/
def State.placed (s : State) (nbits w : Nat) : State :=
  let v := w % 2 ^ nbits
  let bs := leBytes 4 v
  match v % 256 with
  | 0xE1 => s.placePattern v
  | 0xE3 => s.placePattern v
  | 0xE5 => s.placePattern v
  | 0xE7 => s.placePattern v
  | 0xE9 => s.placeHart bs
  | 0xEB => s.placeHart bs
  | _ => s.placeStrand bs

end Sys2Proof.Machine
end

