-- ==== Sys2Proof/Safety.lean ====
section
/-! DEFINITION. What a safe step is, and the vocabulary that statements are written in: when an agent can start an
instruction, what it means that the instruction is carried out, and the operands of scalar instructions as the spec
gives them. -/

namespace Sys2Proof.Safety

open Sys2Proof.Machine

/-- The outcome is a next state: neither a fault nor a refusal. -/
def Runs (o : Host.Outcome State Fault Refusal) : Prop := ∃ t, o = .next t

/-- A property that every step keeps. -/
def Kept (p : State → Prop) : Prop := ∀ s t, p s → step s = .next t → p t

/-- A strand of context 0 to 7, or a compositor hart, has the step; it has no lookahead write pending (R52) and is no
half of a registration pair (R147). -/
def steady (s : State) : Bool :=
  (match s.cur with | .strand _ k => decide (k < 8) | .hart _ => true | _ => false) && s.my.pend.isEmpty && s.my.pair.isNone

/-- A steady agent whose set of instructions holds i, and i's word breaks no rule of R60, R61. -/
def ready (i : Instr) (s : State) : Bool := steady s && (wordError s.isHart i).isNone

/-- i is carried out at s: u is s with i's own effect, and then comes the boundary of i, where PC moves on as n says
(the boundary itself is Obligations.Boundary). -/
def Goes (i : Instr) (s u : State) (n : Next) : Prop :=
  exec i s = .next (u.finish s.me.1 s.me.2 (bytesOfInstr i) n)

/-- i takes trap x at its own address (R73), or is a hart's fault (R212). -/
def Traps (i : Instr) (s : State) (x : Trap) : Prop := exec i s = .next (s.trapHere x)

/-- i takes the illegal-instruction trap, whose EVAL is the instruction word (R60). -/
def Illegal (i : Instr) (s : State) (detail : Nat) : Prop := Traps i s { code := 0x01, detail, val := wordOfInstr i }

/-- i does not execute and waits (R124): nothing changes but that its agent is stalled. -/
def Stalls (i : Instr) (s : State) : Prop := exec i s = .next (s.updCtx s.me.1 s.me.2 fun c => { c with st := .stalled })

/-- The step's agent is a strand of one of the eight contexts of its core, or a compositor hart. -/
def hasAgent (s : State) : Bool := match s.cur with | .strand _ k => decide (k < 8) | .hart _ => true | _ => false

/-- Neither a trap handler nor a light handler runs. -/
def leaf (c : Ctx) : Bool := !c.trap && !c.lh

/-- No announced operation of the agent waits for its home (R301), and no store packet of the agent or write-back of its
core is under way (R292). -/
def writesDone (s : State) : Bool := !(s.scOps.any fun o => o.core == s.me.1 && o.ctx == s.me.2) && !s.outstanding s.who

/-- A release has nothing to wait for or to send home, and an acquire nothing to remove: no write of the agent is under way, and its L1 holds
no bytes of other packages' memory. -/
def settled (s : State) : Bool := writesDone s && s.myCore.l1.all fun e => !isPeer e.key

/-- Every earlier access of the agent has been performed: nothing announced, no packet out, no write stream draining. -/
def allDone (s : State) : Bool :=
  writesDone s && !(s.fabric.packets.any fun p => p.core == s.me.1 && p.agent == s.me.2)
    && !s.my.ports.toList.any fun p => match p with | .stream t => t.write && !t.buf.isEmpty && t.fault.isNone | _ => false

/-- All that is done, and the core's L1 holds no bytes of other packages' memory. -/
def quiet (s : State) : Bool := allDone s && s.myCore.l1.all fun e => !isPeer e.key

/-- The end of a step has nothing to do but to restart skip counts: no core is to die, no store that a pair holds is due (R300), the
directory is within its capacity (R335). -/
def restful (s : State) : Prop :=
  (∀ n ∈ s.coreList, (s.core n).doomed = false ∧
    ∀ i < 8, ∀ p, (s.ctx n i).pair = some p → p.primary = true → (s.ctx n i).releaseDue = true → p.log = []) ∧ s.dir.length ≤ 32768

/-- No byte of the extents that is kept in the package holds an uncorrectable error (R150). -/
def intact (s : State) (es : List Extent) : Bool := (es.filterMap s.badData).isEmpty

/-- The interval of the agent ended (R84). -/
def ended (s : State) : State := s.updMy fun c => { c with interval := c.interval + 1 }

/-- A shared operation of the model can be done at s: it answers a, and leaves u. -/
def Does {α : Type} (m : M α) (s : State) (a : α) (u : State) : Prop := m s = .ok (a, u)

/-! ### Scalar operands (R45, R48, R138) -/

/-- A port faces a neighbour that is bound to the agent's tenant; any other field passes. -/
def portOk (s : State) (f : BitVec 5) : Bool :=
  match portDir f with
  | none => true
  | some dir => (match neighbour s.me.1 dir with | none => false | some n => s.bound n s.space.tenant)

/-- What a scalar field reads as: a register, the oldest word of a port that faces a living core, CTAG for tb, 0 for
zr; none where it has to wait. -/
def value (s : State) (f : BitVec 5) : Option Word :=
  if f.toNat < 24 then some (s.my.reg f.toNat)
  else
    match portDir f with
    | some dir => (match neighbour s.me.1 dir with
        | none => none
        | some n => if (s.core n).dead then none else (vget [] s.myCore.fifo dir).head?)
    | none => some (if f = 29#5 then s.myCore.ctag else 0)

/-- One word is taken from each port that the fields name, however often (R48). -/
def taken (s : State) (fs : List (BitVec 5)) : State := ((fs.filterMap portDir).eraseDups).foldl State.takeWord s

/-- The state with v written through a scalar destination: a register, a word on its way to the neighbour (the agent's
context is written back as it is), or nothing for zr; none where the neighbour has no room. -/
def written (s : State) (d : BitVec 5) (v : Word) : Option State :=
  if d.toNat < 16 then some (s.updMy fun c => c.setG d.toNat v)
  else if d.toNat < 24 then some (s.updMy fun c => { c with areg := vset c.areg (d.toNat - 16) v })
  else
    match portDir d with
    | some dir => (s.updMy fun c => c).sendWord s.me.1 dir v
    | none => some s

/-- A scalar instruction: its sources in the order of reading, its destination, and its result. -/
structure ScalarOp where
  srcs : List (BitVec 5)
  dest : BitVec 5
  result : State → List Word → Word

/-- Two sources. -/
def twoSources (b a d : BitVec 5) (f : Word → Word → Word) : Option ScalarOp :=
  some ⟨[a, b], d, fun _ xs => f (xs.getD 0 0) (xs.getD 1 0)⟩

/-- One source. -/
def oneSource (a d : BitVec 5) (f : Word → Word) : Option ScalarOp := some ⟨[a], d, fun _ xs => f (xs.getD 0 0)⟩

/-- The scalar instructions that read fields and write one destination: R89 to R93, and SRD of R121. The divisions
are those without lookahead. -/
def scalarOp : Instr → Option ScalarOp
  | .addR w b a d => twoSources b a d (byLanes (laneWidth w) fun x y => x + y)
  | .subR w b a d => twoSources b a d (byLanes (laneWidth w) fun x y => x + 2 ^ laneWidth w - y)
  | .andR b a d => twoSources b a d fun x y => x &&& y
  | .orR b a d => twoSources b a d fun x y => x ||| y
  | .xorR b a d => twoSources b a d fun x y => x ^^^ y
  | .shl w b a d => twoSources b a d (byLanes (laneWidth w) fun x y => shiftLeft (laneWidth w) x (amount y))
  | .shr w b a d => twoSources b a d (byLanes (laneWidth w) fun x y => shiftRight (laneWidth w) x (amount y))
  | .sar w b a d => twoSources b a d (byLanes (laneWidth w) fun x y => shiftSigned (laneWidth w) x (amount y))
  | .min w b a d => twoSources b a d (byLanes (laneWidth w) (pickSigned (laneWidth w) true))
  | .max w b a d => twoSources b a d (byLanes (laneWidth w) (pickSigned (laneWidth w) false))
  | .minn w b a d => twoSources b a d (byLanes (laneWidth w) Nat.min)
  | .maxn w b a d => twoSources b a d (byLanes (laneWidth w) Nat.max)
  | .cmp c b a d => twoSources b a d fun x y => if condition c.toNat x y then 1 else 0
  | .sel b a d => some ⟨[a, b, d], d, fun _ xs => if xs.getD 2 0 ≠ 0 then xs.getD 0 0 else xs.getD 1 0⟩
  | .clz a d => oneSource a d fun x => word (leadingZeros x)
  | .ctz a d => oneSource a d fun x => word (trailingZeros x)
  | .popc a d => oneSource a d fun x => word (oneBits x)
  | .mul b a d => twoSources b a d fun x y => x * y
  | .mulh b a d => twoSources b a d fun x y => highProduct x.toInt y.toInt
  | .mulhn b a d => twoSources b a d fun x y => highProduct x.toNat y.toNat
  | .addImm i a d => oneSource a d fun x => x + i.signExtend 64
  | .andImm i a d => oneSource a d fun x => x &&& i.signExtend 64
  | .orImm i a d => oneSource a d fun x => x ||| i.signExtend 64
  | .xorImm i a d => oneSource a d fun x => x ^^^ i.signExtend 64
  | .shlImm w n a d => oneSource a d fun x => byLanes (laneWidth w) (fun e _ => shiftLeft (laneWidth w) e n.toNat) x 0
  | .shrImm w n a d => oneSource a d fun x => byLanes (laneWidth w) (fun e _ => shiftRight (laneWidth w) e n.toNat) x 0
  | .sarImm w n a d => oneSource a d fun x => byLanes (laneWidth w) (fun e _ => shiftSigned (laneWidth w) e n.toNat) x 0
  | .movi i d => some ⟨[], d, fun _ _ => i.signExtend 64⟩
  | .movh i d => oneSource d d fun x => x * word (2 ^ 19) + i.zeroExtend 64
  | .div la b a d => if la = 0#4 then twoSources b a d divSigned else none
  | .divn la b a d => if la = 0#4 then twoSources b a d divNatural else none
  | .rem la b a d => if la = 0#4 then twoSources b a d remSigned else none
  | .remn la b a d => if la = 0#4 then twoSources b a d remNatural else none
  | .amesh b a d => twoSources b a d fun x y => meshOf (bitsAt x 0 6) (bitsAt x 6 5) (bitsAt y 0 19)
  | .apost b a d => some ⟨[a, b], d, fun s xs => advance s.my.awc (xs.getD 0 0) (xs.getD 1 0).toNat⟩
  | .srd b d => some ⟨[], d, fun s _ => s.stateReg b.toNat⟩
  | _ => none

/-- The state with v written through a scalar destination under lookahead la: at once, or pending for la + 1 boundaries; zr takes
nothing (R51, R52). -/
def writtenLa (la : BitVec 4) (s : State) (d : BitVec 5) (v : Word) : Option State :=
  if la = 0#4 then written s d v
  else
    match landingOf d v with
    | some l => some (s.updMy fun c => { c.cancel l with pend := (c.cancel l).pend ++ [⟨la.toNat + 1, l⟩] })
    | none => some s

/-! ### Boundaries and lookahead (R52, R141) -/

/-- The agent's context after the boundary of an instruction of len bytes: PC moves on, nothing is held for the
instruction any more, and a strand's CNT7 counts it. -/
def boundary (ctx len : Nat) (n : Next) (c : Ctx) : Ctx :=
  let c := { c with operands := [], wait := .none, staleCounted := false, pc := match n with | .seq => c.pc + word len | .jump p => p }
  let c := { c with st := .eligible }
  if ctx = 8 then c else c.count 7 1

/-- A pending register write landed: a window or address register, AMAX, or a vector register; sends and appends write none. -/
def landed (l : Landing) (c : Ctx) : Option Ctx :=
  match l with
  | .gpr i v => some (c.setG i v)
  | .areg i v => some { c with areg := vset c.areg i v }
  | .amax m n => some { c with amax := amaxMerge c.amax m n }
  | .vreg i v => some { c with vregs := vset c.vregs i v }
  | .send _ _ => none
  | .append _ _ _ => none

/-- A division under lookahead: its la, b, a, d and its function (R92). -/
def lookOp : Instr → Option (BitVec 4 × BitVec 5 × BitVec 5 × BitVec 5 × (Word → Word → Word))
  | .div la b a d => some (la, b, a, d, divSigned)
  | .divn la b a d => some (la, b, a, d, divNatural)
  | .rem la b a d => some (la, b, a, d, remSigned)
  | .remn la b a d => some (la, b, a, d, remNatural)
  | _ => none

/-! ### Control flow (R95) -/

/-- A compare branch: its displacement, b, a and its condition. -/
def branchOp : Instr → Option (BitVec 14 × BitVec 5 × BitVec 5 × (Word → Word → Bool))
  | .beq s b a => some (s, b, a, fun x y => x == y)
  | .bne s b a => some (s, b, a, fun x y => x != y)
  | .blt s b a => some (s, b, a, fun x y => x.slt y)
  | .bge s b a => some (s, b, a, fun x y => !x.slt y)
  | .bltn s b a => some (s, b, a, fun x y => x.ult y)
  | .bgen s b a => some (s, b, a, fun x y => !x.ult y)
  | _ => none

/-- The call of R64: one frame down, its eight upper registers 0, and the link. -/
def called (link : Word) (c : Ctx) : Ctx :=
  (({ c with depth := c.depth + 1, res := c.res + 1 } : Ctx).clearFrame (c.depth + 2)).setLink (c.depth + 2) link

/-! ### State registers (R49, R121) -/

/-- What SWR of v to state register n does to the machine; none where it is an illegal instruction (R121, R31, R68, R71,
R126, R132). -/
def registerWritten (n : Nat) (v : Word) (s : State) : Option State :=
  match n with
  | 0 =>
    if bitsAt v 34 6 = 0 ∧ bitsAt v 22 10 = 0 ∧ bitsAt v 9 7 = 0 ∧ bitsAt v 0 5 = 0 then
      some (s.updMy fun c => { c with prio := bitsAt v 32 2, arv := c.arv && bitsAt v 8 1 == 1 })
    else none
  | 1 => if bitsAt v 5 59 = 0 ∧ (laneTyOf (bitsAt v 0 5)).isSome then some (s.updMy fun c => { c with vtype := v }) else none
  | 2 =>
    if bitsAt v 35 29 = 0 ∧ bitsAt v 5 7 = 0 ∧ bitsAt v 18 7 ≠ 0 ∧ bitsAt v 12 6 + bitsAt v 18 7 ≤ 64
        ∧ (bitsAt v 25 5 ≠ 0 → bitsAt v 30 5 + bitsAt v 25 5 ≤ 32) ∧ 3 ≤ bitsAt v 0 5 ∧ bitsAt v 0 5 ≤ 19 then
      some (s.updMy fun c => { c with awc := v })
    else none
  | 3 => if bitsAt v 0 1 = 0 ∧ bitsAt v 56 8 = 0 then some (s.updMy fun c => { c with epc := v }) else none
  | 4 => if bitsAt v 17 47 = 0 then some (s.updMy fun c => { c with ecause := v }) else none
  | 5 => some (s.updMy fun c => { c with eval := v })
  | 6 => if bitsAt v 56 8 = 0 then some (s.setTeam s.my.team { s.team s.my.team with hset := v }) else none
  | 7 => none
  | 8 =>
    if bitsAt v 32 31 = 0 ∧ bitsAt v 31 1 = 0 ∧ bitsAt v 0 32 ≤ 0x7F800000 then some (s.updMy fun c => { c with amax := v }) else none
  | 9 => if v.toNat ≤ s.fabric.cgen then some (s.updMy fun c => { c with tgen := v }) else none
  | 10 => some (s.updMy fun c => { c with rprog := v })
  | 11 => none
  | k => if 16 ≤ k then some (s.updMy fun c => { c with cnt := vset c.cnt (k - 16) (word (min v.toNat 0xFFFFFFFF)) }) else none

/-! ### Memory (R102, R103, R112, R134) -/

/-- A byte of memory lies in one of the extents of an access. -/
def within (es : List (List Extent)) (key : Nat) : Bool := es.flatten.any fun e => decide (e.key ≤ key) && decide (key < e.key + e.len)

/-- Bytes written over the extents of an access that has been checked, past any pair's log. -/
def writtenOver (plain : Bool) (s : State) (es : List Extent) (bs : List Byte) : State :=
  (es.foldl (fun (p : State × List Byte) e => (p.1.performWrite s.who plain e (p.2.take e.len), p.2.drop e.len)) (s, bs)).1

/-- Every register, state register, vector and mask of every strand and hart stands as before, but for event counters. -/
def sameRegisters (s u : State) : Prop := ∀ n k, k ≤ 8 → (u.ctx n k).toRegs = { (s.ctx n k).toRegs with cnt := (u.ctx n k).cnt }

/-- The value of an address base field (R46). -/
def baseOf (s : State) (a : BitVec 5) : Word := vget 0 s.my.areg (a.toNat - 16)

/-- The block check of R69 passes: the register is no mesh pointer, or the n bytes lie in one block. -/
def inBlock (awc p : Word) (n : Nat) : Prop :=
  bitsAt p 62 2 = 1 → n ≤ 2 ^ bitsAt awc 0 5 ∧ bitsAt p 0 19 / 2 ^ bitsAt awc 0 5 = (bitsAt p 0 19 + n - 1) / 2 ^ bitsAt awc 0 5

/-- p + off is a multiple of n. -/
def multiple (p : Word) (off : Int) (n : Nat) : Prop := (((bitsAt p 0 56 : Nat) : Int) + off) % (n : Int) = 0

/-- Bytes and sign extension of a size code of LDSTR (R56). -/
def loadSizes (z : BitVec 3) : Nat × Bool := [(1, true), (2, true), (4, true), (8, true), (1, false), (2, false), (4, false)].getD z.toNat (0, false)

/-- The key at which n bytes at p + off lie, where p is a mesh pointer to a living core of the agent's tenant that is not
evicted, and the bytes lie in its store and are none that the agent has appended to a write stream and that are not written; a write stays
below the record area. -/
def storeKeyAt (s : State) (p : Word) (off : Int) (n : Nat) (wr : Bool) : Option Nat :=
  let core := coreAt (bitsAt p 56 6) (bitsAt p 51 5)
  let o := ((bitsAt p 0 19 : Nat) : Int) + off
  if bitsAt p 62 2 = 1 ∧ bitsAt p 19 32 = 0 ∧ 0 ≤ o ∧ o + (n : Int) ≤ (if wr then 0x7F000 else 2 ^ 19) ∧ s.bound core s.space.tenant
      ∧ !(s.core core).dead ∧ !(s.core core).evicted ∧ !s.behindStream ⟨p.toNat, storeKey core o.toNat, n, 0, false⟩ then
    some (storeKey core o.toNat)
  else none

/-- No word of a local store that the n bytes at key touch holds an uncorrectable error (R150). -/
def cleanWords (s : State) (key n : Nat) : Bool :=
  !(wordsTouched key n).any fun w => (s.core ((key - 2 ^ 72) / 2 ^ 19)).bad.contains (.localStore (w % 65536))

/-- What n bytes at p + off in a local store read as, where nothing hinders reading them. -/
def storeBytes (s : State) (p : Word) (off : Int) (n : Nat) : Option (List Byte) :=
  (storeKeyAt s p off n false).bind fun k => if cleanWords s k n then some (memRead s.mem k n) else none

/-- The extent of n bytes at the flat address p + off, where they lie within 4 KiB of a page that the core's translation cache
holds: a leaf of the given mode that admits reads and writes, a mode that the tenant may use. -/
def pageAt (s : State) (mode : Nat) (p : Word) (off : Int) (n : Nat) : Option Extent :=
  let v := ((bitsAt p 0 56 : Nat) : Int) + off
  if bitsAt p 56 8 = 0 ∧ 0 ≤ v ∧ v + (n : Int) ≤ (2 ^ 56 : Int) ∧ 0 < n ∧ v.toNat % 4096 + n ≤ 4096 then
    match s.myCore.tlb.find? fun e => e.serves s.space.tenant v.toNat s.cycle with
    | some e =>
      if v.toNat + n ≤ e.va + e.size ∧ pteMode e.pte = mode ∧ pteRead e.pte = true ∧ pteWrite e.pte = true ∧ s.modes s.space.tenant / 2 ^ mode % 2 = 1 then
        some ⟨v.toNat, leafKey s.fabric.own e v.toNat, n, mode, false⟩
      else none
    | none => none
  else none

/-- Nothing hinders an access to an extent of the package's HBM: no phase window, impression, bad sector, poison, lost data or busy
entry, no announced operation, no element of a write stream and no record of another agent concerns its bytes. -/
def untouched (s : State) (e : Extent) : Bool :=
  isHbm e.key && !isHost e.key && !isStore e.key && !isPeer e.key && !inPhaseWindow e.key && s.impressions.isEmpty && (s.badData e).isNone
    && !s.lookupWaits s.me.1 s.me.2 e.key e.len && !s.scPending s.who e.key e.len && !s.behindSc e && !s.behindStream e
    && (s.badSectors.all fun k => decide (e.key + e.len ≤ k) || decide (k + 32 ≤ e.key))
    && (List.range e.len).all fun i => !s.poisonedAt s.me.1 (e.key + i) && s.conflict s.who true (e.key + i) == 0

/-- n bytes of package memory at p + off that the agent can read and write at once (R341). -/
def pageBytes (s : State) (p : Word) (off : Int) (n : Nat) : Option Extent :=
  (pageAt s 0 p off n).bind fun e => if untouched s e then some e else none

/-- A release at system scope has nothing to wait for: no posted byte was lost, and nothing is under way once the dirty bytes of
other packages' memory have left the L1 (R408, R409). -/
def drained (s : State) : Bool := s.my.lost.isNone && writesDone (s.cleanRemote s.me.1)

/-- The state after a release beyond the core that has nothing to wait for: dirty bytes of other packages' memory have left for home. -/
def released (s : State) : State := ended (s.cleanRemote s.me.1)

/-- The state after an acquire beyond the core: clean bytes of other packages' memory have left the L1 (R409). -/
def acquired (s : State) : State := ended (s.dropClean s.me.1)

/-- The state after an operation has been announced in the open window: its agent waits for it (R301). -/
def announcedBy (s : State) (o : ScOp) : State :=
  (({ s with scOps := s.scOps ++ [o] } : State).updMyCore fun c => { c with announced := true }).updMy fun c => { c with wait := .sc none }

/-- A copy request under a tag goes into the queue at once: the tag is free and complete, the topology generation is the current
one, a place is free, and the release waits for nothing (R215, R216). -/
def mayCopy (s : State) (tag slot : Nat) : Bool :=
  decide (s.fabric.cgen ≤ s.my.tgen.toNat) && (vget none s.myCore.copies tag).isNone && s.myCore.ctag.getLsbD tag
    && s.myCore.freeSlot == some slot && settled s

/-- The state after a request: its release, the tag's bit clear, the request in the queue. -/
def requested (form tag slot : Nat) (desc : List Word) (s : State) : State :=
  (ended s).updMyCore fun k =>
    { k with
      ctag := k.ctag &&& ~~~(BitVec.ofNat 64 (2 ^ tag))
      queue := k.queue ++ [.copy slot tag]
      copies := vset k.copies tag (some
        { form, desc, done := 0, tenant := s.my.tenant, team := s.my.team, ctx := s.me.2, gen := s.my.tgen, issued := s.my.tgen, counted := false
          started := false, fault := none, raised := false, interval := 0, far := false, abandoned := false, packets := 0, flying := []
          lost := none }) }

/-- A copy that stands under a tag has stopped with a fault that was raised (R219). -/
def raisedCopy (s : State) (tag : Nat) : Bool :=
  match vget none s.myCore.copies tag with | some c => c.fault.isSome && c.raised | none => false

/-- An I-form load: bytes, extension, offset, base and destination (R102). -/
def loadOp : Instr → Option (Nat × Bool × BitVec 14 × BitVec 5 × BitVec 5)
  | .ldB i a d => some (1, true, i, a, d)
  | .ldH i a d => some (2, true, i, a, d)
  | .ldW i a d => some (4, true, i, a, d)
  | .ldD i a d => some (8, true, i, a, d)
  | .ldnB i a d => some (1, false, i, a, d)
  | .ldnH i a d => some (2, false, i, a, d)
  | .ldnW i a d => some (4, false, i, a, d)
  | _ => none

/-- An I-form store: bytes, offset, base and data source (R102). -/
def storeOp : Instr → Option (Nat × BitVec 14 × BitVec 5 × BitVec 5)
  | .stB i a d => some (1, i, a, d)
  | .stH i a d => some (2, i, a, d)
  | .stW i a d => some (4, i, a, d)
  | .stD i a d => some (8, i, a, d)
  | _ => none

/-- An acquire load or a release store: bytes, scope, b, a, d (R105). -/
def acquireOp : Instr → Option (Nat × BitVec 3 × BitVec 5 × BitVec 5 × BitVec 5)
  | .ldAcqW s b a d => some (4, s, b, a, d)
  | .ldAcqD s b a d => some (8, s, b, a, d)
  | _ => none

def releaseOp : Instr → Option (Nat × BitVec 3 × BitVec 5 × BitVec 5 × BitVec 5)
  | .stRelW s b a d => some (4, s, b, a, d)
  | .stRelD s b a d => some (8, s, b, a, d)
  | _ => none

/-- An atomic: operation, width bit, scope, b, a, d (R112). -/
def amoOp : Instr → Option (Nat × BitVec 1 × BitVec 3 × BitVec 5 × BitVec 5 × BitVec 5)
  | .amoAdd w s b a d => some (0, w, s, b, a, d)
  | .amoMin w s b a d => some (1, w, s, b, a, d)
  | .amoMax w s b a d => some (2, w, s, b, a, d)
  | .amoMinn w s b a d => some (3, w, s, b, a, d)
  | .amoMaxn w s b a d => some (4, w, s, b, a, d)
  | .amoAnd w s b a d => some (5, w, s, b, a, d)
  | .amoOr w s b a d => some (6, w, s, b, a, d)
  | .amoXor w s b a d => some (7, w, s, b, a, d)
  | .amoSwp w s b a d => some (8, w, s, b, a, d)
  | .amoCas w s b a d => some (9, w, s, b, a, d)
  | .amoFadd w s b a d => some (10, w, s, b, a, d)
  | _ => none

/-! ### Vectors (R57, R160 to R170) -/

/-- A lane operation of two sources: the types it admits, its mask bit, b, a, d, and its function of two elements. -/
structure LaneOp where
  admits : ETy → Bool
  mask : BitVec 1
  b : BitVec 5
  a : BitVec 5
  d : BitVec 5
  f : ETy → Nat → Nat → Nat × Counts

/-- The lane operations of two sources (R160), and their L forms (R57, R162). -/
def laneTwo : Instr → Option LaneOp
  | .vadd m r b a d => some ⟨anyType, m, b, a, d, addElem (rmOf r)⟩
  | .vsub m r b a d => some ⟨anyType, m, b, a, d, subElem (rmOf r)⟩
  | .vmul m r b a d => some ⟨anyType, m, b, a, d, mulElem (rmOf r)⟩
  | .vmin m _ b a d => some ⟨anyType, m, b, a, d, minMaxElem false⟩
  | .vmax m _ b a d => some ⟨anyType, m, b, a, d, minMaxElem true⟩
  | .vand m _ b a d => some ⟨anyType, m, b, a, d, onBits fun _ x y => x &&& y⟩
  | .vor m _ b a d => some ⟨anyType, m, b, a, d, onBits fun _ x y => x ||| y⟩
  | .vxor m _ b a d => some ⟨anyType, m, b, a, d, onBits fun _ x y => x ^^^ y⟩
  | .vshl m _ b a d => some ⟨anyType, m, b, a, d, onBits fun w x y => shiftLeft w x (amount y)⟩
  | .vshr m _ b a d => some ⟨anyType, m, b, a, d, onBits fun w x y => shiftRight w x (amount y)⟩
  | .vsar m _ b a d => some ⟨anyType, m, b, a, d, onBits fun w x y => shiftSigned w x (amount y)⟩
  | .vrsub m r b a d => some ⟨anyType, m, b, a, d, fun t x y => subElem (rmOf r) t y x⟩
  | .vdiv m r b a d => some ⟨ETy.isFloat, m, b, a, d, arith (fun x _ => x) fun f x y => finish f (rmOf r) (exactDiv x y)⟩
  | .vmulh m _ b a d => some ⟨ETy.isInt, m, b, a, d, highElem⟩
  | .vadds m _ b a d => some ⟨ETy.isInt, m, b, a, d, satElem fun x y => x + y⟩
  | .vsubs m _ b a d => some ⟨ETy.isInt, m, b, a, d, satElem fun x y => x - y⟩
  | .vabd m r b a d => some ⟨anyType, m, b, a, d, distElem (rmOf r)⟩
  | .vaddLForm m s d => some ⟨anyType, m, s, d, d, addElem .rne⟩
  | .vsubLForm m s d => some ⟨anyType, m, s, d, d, subElem .rne⟩
  | .vmulLForm m s d => some ⟨anyType, m, s, d, d, mulElem .rne⟩
  | .vminLForm m s d => some ⟨anyType, m, s, d, d, minMaxElem false⟩
  | .vmaxLForm m s d => some ⟨anyType, m, s, d, d, minMaxElem true⟩
  | .vandLForm m s d => some ⟨anyType, m, s, d, d, onBits fun _ x y => x &&& y⟩
  | .vorLForm m s d => some ⟨anyType, m, s, d, d, onBits fun _ x y => x ||| y⟩
  | .vxorLForm m s d => some ⟨anyType, m, s, d, d, onBits fun _ x y => x ^^^ y⟩
  | .vshlLForm m s d => some ⟨anyType, m, s, d, d, onBits fun w x y => shiftLeft w x (amount y)⟩
  | .vshrLForm m s d => some ⟨anyType, m, s, d, d, onBits fun w x y => shiftRight w x (amount y)⟩
  | .vsarLForm m s d => some ⟨anyType, m, s, d, d, onBits fun w x y => shiftSigned w x (amount y)⟩
  | .vrsubLForm m s d => some ⟨anyType, m, s, d, d, fun t x y => subElem .rne t y x⟩
  | _ => none

/-- The lane operations of one source (R160) and their L forms; the field a is not used. -/
def laneOne : Instr → Option LaneOp
  | .vmov m _ b _ d => some ⟨anyType, m, b, b, d, fun _ _ y => (y, .zero)⟩
  | .vneg m _ b _ d => some ⟨anyType, m, b, b, d, fun t _ y => signElem false t y⟩
  | .vabs m _ b _ d => some ⟨anyType, m, b, b, d, fun t _ y => signElem true t y⟩
  | .vsqrt m r b _ d => some ⟨ETy.isFloat, m, b, b, d, fun t _ y => arith (fun x _ => x) (fun f x _ => finish f (rmOf r) (exactSqrt x)) t y y⟩
  | .vnot m _ b _ d => some ⟨anyType, m, b, b, d, fun t _ y => (2 ^ t.width - 1 - y, .zero)⟩
  | .vmovLForm m s d => some ⟨anyType, m, s, s, d, fun _ _ y => (y, .zero)⟩
  | .vnegLForm m s d => some ⟨anyType, m, s, s, d, fun t _ y => signElem false t y⟩
  | .vabsLForm m s d => some ⟨anyType, m, s, s, d, fun t _ y => signElem true t y⟩
  | _ => none

/-- The lane type of VTYPE, where the operation admits it (R126, R156). -/
def laneTypeOf (ok : ETy → Bool) (c : Ctx) : Option ETy :=
  match laneTyOf (bitsAt c.vtype 0 5) with
  | some t => if ok t then some t else none
  | none => none

/-- Vector fields, each with the length of its group, lie in the allocation (R125). -/
def allocatedTo (c : Ctx) (fs : List (BitVec 5 × Nat)) : Bool := c.va != 0 && fs.all fun f => decide (f.1.toNat + f.2 ≤ c.va)

/-- No write stream is read and no read stream written (R158). -/
def usable (c : Ctx) (reads writes : List (BitVec 5)) : Bool :=
  !(reads.any (fun r => match c.port r.toNat with | .stream t => t.write | _ => false)
    || writes.any fun r => match c.port r.toNat with | .stream t => !t.write | _ => false)

/-- No register of a group is a bound port (R158). -/
def unbound (c : Ctx) (f : BitVec 5) (n : Nat) : Bool := !((List.range n).any fun i => c.port (f.toNat + i) != .plain)

/-- Vector fields, each with the length of its group, are registers: they lie in the allocation and none is a bound port. -/
def registers (c : Ctx) (fs : List (BitVec 5 × Nat)) : Bool := allocatedTo c fs && fs.all fun f => unbound c f.1 f.2

/-- What a vector register holds. -/
def held (s : State) (f : BitVec 5) : Vec := vget 0 s.my.vregs f.toNat

/-- A vector register written under lookahead la: at once, or pending for la + 1 boundaries (R52). -/
def putVec (la : BitVec 4) (d : BitVec 5) (v : Vec) (s : State) : State :=
  s.updMy fun c =>
    let c := c.cancel (.vreg d.toNat v)
    if la = 0#4 then { c with vregs := vset c.vregs d.toNat v } else { c with pend := c.pend ++ [⟨la.toNat + 1, .vreg d.toNat v⟩] }

/-- The registers of a group written in order. -/
def putGroup (la : BitVec 4) (d : BitVec 5) (vs : List Vec) (s : State) : State :=
  (vs.zipIdx).foldl (fun s p => putVec la (d + BitVec.ofNat 5 p.2) p.1 s) s

/-- What the inactive elements of a destination hold: the register, or 0 on a bound port (R155). -/
def before (c : Ctx) (d : BitVec 5) : Vec := if c.port d.toNat = .plain then vget 0 c.vregs d.toNat else 0

/-- The events of an instruction counted (R33). -/
def counted (s : State) (k : Counts) : State := if k = .zero then s else s.updMy fun c => c.addCounts k

/-- AMAX after the statistics of conversions, one update for each source register (R31, R172). -/
def statistics (s : State) (x : BitVec 1) (ess : List (List FVal)) : State :=
  if x = 1#1 then
    ess.foldl (fun s es => s.updMy fun c => { c with amax := amaxMerge c.amax (upF32 (largestMag es)) (es.any FVal.isNan) }) s
  else s

/-- A fused multiply-add: negated product, negated accumulator, mask bit, rounding, b, a, d (R163). -/
def fusedOf : Instr → Option (Bool × Bool × BitVec 1 × BitVec 2 × BitVec 5 × BitVec 5 × BitVec 5)
  | .vfma m r b a d => some (false, false, m, r, b, a, d)
  | .vfms m r b a d => some (false, true, m, r, b, a, d)
  | .vfnma m r b a d => some (true, true, m, r, b, a, d)
  | .vfnms m r b a d => some (true, false, m, r, b, a, d)
  | _ => none

/-- ±(x × y) ± z, rounded once in a floating-point type, wrapped in an integer type (R163). -/
def fusedElem (negProduct negAcc : Bool) (rm : RM) (t : ETy) (x y z : Nat) : Nat × Counts :=
  match t with
  | .flt f => finish f rm (exactFma rm (if negProduct then (decodeF f x).negate else decodeF f x) (decodeF f y)
      (if negAcc then (decodeF f z).negate else decodeF f z))
  | t => (wrap t.width ((if negProduct then -(t.value x * t.value y) else t.value x * t.value y) + (if negAcc then -t.value z else t.value z)), .zero)

/-- A widening operation: its ratio, the wide type of a type, mask bit, b, a, d, and its function (R164, R165). -/
structure WideOp where
  ratio : Nat
  wide : ETy → Option ETy
  mask : BitVec 1
  b : BitVec 5
  a : BitVec 5
  d : BitVec 5
  f : ETy → ETy → Nat → Nat → Nat → Nat × Counts

def wideOp : Instr → Option WideOp
  | .vwadd m r b a d => some ⟨2, wideOf, m, b, a, d, wideElem (rmOf r) (fun x y _ => x + y) fun x y _ => exactAdd (rmOf r) x y⟩
  | .vwsub m r b a d => some ⟨2, wideOf, m, b, a, d, wideElem (rmOf r) (fun x y _ => x - y) fun x y _ => exactAdd (rmOf r) x y.negate⟩
  | .vwmul m r b a d => some ⟨2, wideOf, m, b, a, d, wideElem (rmOf r) (fun x y _ => x * y) fun x y _ => exactMul x y⟩
  | .vwmac m r b a d => some ⟨2, wideOf, m, b, a, d, wideElem (rmOf r) (fun x y z => z + x * y) fun x y z => exactFma (rmOf r) x y z⟩
  | .vqmac m r b a d =>
    if r = 0#2 then some ⟨4, quadOf, m, b, a, d, fun t u x y z => (wrap u.width (u.value z + t.value x * t.value y), .zero)⟩ else none
  | _ => none

/-- A compare: its predicate, mask bit, b, a and its mask register (R167). -/
def compareOp : Instr → Option (Nat × BitVec 1 × BitVec 5 × BitVec 5 × BitVec 5)
  | .vcmpEq m b a d => some (0, m, b, a, d)
  | .vcmpNe m b a d => some (1, m, b, a, d)
  | .vcmpLt m b a d => some (2, m, b, a, d)
  | .vcmpLe m b a d => some (3, m, b, a, d)
  | .vcmpGt m b a d => some (4, m, b, a, d)
  | .vcmpGe m b a d => some (5, m, b, a, d)
  | .vcmpLtn m b a d => some (6, m, b, a, d)
  | .vcmpGen m b a d => some (7, m, b, a, d)
  | _ => none

/-- An operation of mask registers: its result from the context, and its destination (R168). -/
def maskOp : Instr → Option ((Ctx → Mask) × BitVec 5)
  | .mand b a d => some (fun c => vget 0 c.masks a.toNat &&& vget 0 c.masks b.toNat, d)
  | .mor b a d => some (fun c => vget 0 c.masks a.toNat ||| vget 0 c.masks b.toNat, d)
  | .mxor b a d => some (fun c => vget 0 c.masks a.toNat ^^^ vget 0 c.masks b.toNat, d)
  | .mnot a d => some (fun c => ~~~vget 0 c.masks a.toNat, d)
  | _ => none

/-- A reduction: whether it is the sum, its identity, mask bit, rounding, a, d, and its function (R38, R169). -/
structure ReduceOp where
  sum : Bool
  identity : ETy → Nat
  mask : BitVec 1
  rounding : BitVec 2
  a : BitVec 5
  d : BitVec 5
  f : ETy → Nat → Nat → Nat × Counts

def reduceOp : Instr → Option ReduceOp
  | .vrsum m r a d => some ⟨true, identitySum, m, r, a, d, addElem (rmOf r)⟩
  | .vrmax m r a d => some ⟨false, identityMax, m, r, a, d, minMaxElem true⟩
  | .vrmin m r a d => some ⟨false, identityMin, m, r, a, d, minMaxElem false⟩
  | .vrand m r a d => some ⟨false, fun t => 2 ^ t.width - 1, m, r, a, d, onBits fun _ x y => x &&& y⟩
  | .vror m r a d => some ⟨false, fun _ => 0, m, r, a, d, onBits fun _ x y => x ||| y⟩
  | .vrxor m r a d => some ⟨false, fun _ => 0, m, r, a, d, onBits fun _ x y => x ^^^ y⟩
  | _ => none

/-- A permute of two vectors: mask bit, b, a, d, and element i of its result, of n elements of width w (R170). -/
def mixOp : Instr → Option (BitVec 1 × BitVec 5 × BitVec 5 × BitVec 5 × (Nat → Nat → Vec → Vec → Nat → Nat))
  | .vperm m b a d => some (m, b, a, d, fun n w x y i => if elemOf y w i < n then elemOf x w (elemOf y w i) else 0)
  | .vzip m b a d => some (m, b, a, d, fun _ w x y i => elemOf (if i % 2 = 0 then x else y) w (i / 2))
  | .vunzip m b a d => some (m, b, a, d, fun n w x y i => if 2 * i < n then elemOf x w (2 * i) else elemOf y w (2 * i - n))
  | _ => none

/-- A slide by a scalar count k: element i of its result, or none where it keeps what it was (R170). -/
def slideOp : Instr → Option (BitVec 1 × BitVec 5 × BitVec 5 × BitVec 5 × (Nat → Nat → Vec → Nat → Nat → Option Nat))
  | .vslup m b a d => some (m, b, a, d, fun _ w x k i => if k ≤ i then some (elemOf x w (i - k)) else none)
  | .vsldn m b a d => some (m, b, a, d, fun n w x k i => some (if i + k < n then elemOf x w (i + k) else 0))
  | _ => none

/-- The active elements of d from f; one where f gives none, and every inactive one, as before (R155, R170). -/
def permuted (c : Ctx) (m : BitVec 1) (w : Nat) (d : BitVec 5) (f : Nat → Option Nat) : Vec :=
  (lanes c m w (before c d) fun i => ((f i).getD (elemOf (before c d) w i), .zero)).1

/-! ### Matrix commands and pattern words -/

/-- An instruction that queues a matrix command: function, accumulator, shape record (R248, R249, R252, R253). -/
def issueOp : Instr → Option (Nat × Nat × Nat)
  | .mwld o => some (0, 0, o.toNat)
  | .mtile o d => some (1, d.toNat, o.toNat)
  | .mdrain o d => some (2, d.toNat, o.toNat)
  | .mclr d => some (8, d.toNat, 0)
  | _ => none

/-- A pattern word that writes a register: kd and its value, where it has one (R273). -/
def genResult : Instr → Option (BitVec 4 × (Gen → Binding → Option (BitVec 32)))
  | .kldi i d => some (d, fun _ _ => some (i.signExtend 32))
  | .kaddi i a d => some (d, fun x _ => some (vget 0 x.k a.toNat + i.signExtend 32))
  | .kadd b a d => some (d, fun x _ => some (vget 0 x.k a.toNat + vget 0 x.k b.toNat))
  | .ksub b a d => some (d, fun x _ => some (vget 0 x.k a.toNat - vget 0 x.k b.toNat))
  | .kmul b a d => some (d, fun x _ => some (vget 0 x.k a.toNat * vget 0 x.k b.toNat))
  | .kdiv b a d => some (d, fun x _ =>
    if vget 0 x.k b.toNat = 0 then none else some (BitVec.ofInt 32 ((vget 0 x.k a.toNat).toInt.fdiv (vget 0 x.k b.toNat).toInt)))
  | .kmod b a d => some (d, fun x _ =>
    if vget 0 x.k b.toNat = 0 then none else some (BitVec.ofInt 32 ((vget 0 x.k a.toNat).toInt.fmod (vget 0 x.k b.toNat).toInt)))
  | .kmin b a d => some (d, fun x _ =>
    some (if (vget 0 x.k a.toNat).toInt ≤ (vget 0 x.k b.toNat).toInt then vget 0 x.k a.toNat else vget 0 x.k b.toNat))
  | .kmax b a d => some (d, fun x _ =>
    some (if (vget 0 x.k b.toNat).toInt ≤ (vget 0 x.k a.toNat).toInt then vget 0 x.k a.toNat else vget 0 x.k b.toNat))
  | .kshr i a d => some (d, fun x _ => some ((vget 0 x.k a.toNat).sshiftRight i.toNat))
  | .khash b a d => some (d, fun x p => some (hashOf (vget 0 x.k a.toNat) (vget 0 x.k b.toNat) (vget 0 p.params 7)))
  | .kldp i d => some (d, fun _ p => some (vget 0 p.params i.toNat))
  | _ => none

/-- An opcode that the map of R55 marks reserved. -/
def reservedOpcode (o : Nat) : Bool :=
  [0x00, 0x07, 0x0D, 0x0E, 0x0F, 0x17, 0x1C, 0x1D, 0x1E, 0x1F, 0x27, 0x34, 0x35, 0x36, 0x37].contains o
    || (decide (0x43 ≤ o) && decide (o ≤ 0x47)) || (decide (0x4E ≤ o) && decide (o ≤ 0x6F)) || (decide (0x78 ≤ o) && decide (o ≤ 0x7F))

/-- A pattern word (R273). -/
def isPattern (i : Instr) : Bool := bytesOfInstr i == 4 && decide (0x70 ≤ opcodeOf i) && decide (opcodeOf i ≤ 0x73)

/-- Generator k of galley g runs a word for the command q, with registers x and binding b, as its 4,096th word or
earlier (R274). -/
def generating (s : State) (g k : Nat) (run : Running) (q : MCmd) (b : Binding) (x : Gen) : Prop :=
  s.cur = .generator g k ∧ g < 256 ∧ k < 2 ∧ s.runningCmd g = some (run, q) ∧ q.binding = some b ∧ vget Gen.reset (s.galley g).gens k = x ∧
    x.running = true ∧ x.steps < 4096

/-- Generator k of galley g with registers x, one word further on. -/
def genNext (s : State) (g k : Nat) (x : Gen) (step : Int) : State :=
  s.setGalley g { s.galley g with gens := vset (s.galley g).gens k { x with pc := x.pc + step, steps := x.steps + 1, lastWord := x.pc.toNat } }

/-! ### Events -/

/-- The event instruction i completes with event e at the head of the queue: e is taken from it, and f is its effect. -/
def Completes (i : Instr) (e : Event) (f : State → State) : Prop :=
  ∀ (t : List Event) (s : State), s.queue = e :: t → exec i s = .next (f { s with queue := t })

/-- What a hardware or outside event does, once it is taken from the queue. -/
def effect (s : State) : Event → State
  | .pairComparison core ctx error => s.pairEvent core ctx error
  | .migrationMessageArrival core ctx => s.migrationArrives core ctx
  | .migrationResend core ctx => s.migrationResends core ctx
  | .arrivalContextGrant core => s.grantArrival core
  | .activeMessageArrival core => s.takeMessage core
  | .amsgReply core ctx code => s.reply core ctx code
  | .decArrival core slot n from_ gang => (s.retried (.decArrival core slot n from_ gang)).getD (s.decrement core slot n from_ gang)
  | .taskSlotStart core => s.startTask core
  | .meshPortWordArrival core dir v => (s.retried (.meshPortWordArrival core dir v)).getD (s.wordArrives core dir v)
  | .queueElementArrival core dir ch v c => (s.retried (.queueElementArrival core dir ch v c)).getD (s.elementArrives core dir ch (v, c))
  | .streamElementFetch core ctx k => (s.streamStep core ctx k false).getD s
  | .streamElementWrite core ctx k => (s.streamStep core ctx k true).getD s
  | .copyCompletion core tag => s.completeCopy core tag
  | .copyStop core tag => s.stopCopy core tag
  | .hartRestart core => if (s.core core).hartStopped && !(s.core core).dead then s.startHart core else s
  | .matrixCommandTake g => s.takeCommand g
  | .matrixCommandComplete g => s.completeCommand g
  | .matrixResumableStop g => s.stopCommand g
  | .preemption cores => s.preempt cores
  | .preemptionSaveComplete core => s.saveDone core
  | .restore image core => s.restoreImage image core
  | .retryResend core => s.resend core
  | .heldStrandRelease core ctx => s.releaseHeld core ctx
  | .heldStrandEnd core ctx => s.endHeld core ctx
  | .l1Fill core agent va key n => s.fillEvent core agent va key n
  | .ownershipGrant core agent key bs => s.grantEvent core agent key bs
  | .forwardedRead core key n rc ra => if s.forwardConflict rc ra false key n then s else s.forwardedRead core key n
  | .forwardedOwnership core key n rc ra => if s.forwardConflict rc ra true key n then s else s.forwardedOwnership core key n
  | .recallRange core key n drop => s.recall core key n drop
  | .recordDeletion core agent => s.deleteRecords core agent
  | .l1UncorrectableError core key tag => s.l1Error core key tag
  | .directoryError key n => s.directoryFails key n
  | .recallTimeout key n => s.recallFails key n
  | .translationWalk core va => s.walkEvent core va
  | .leaseExpiry core va => s.leaseEnds core va
  | .patrolScrub pa => s.findBad pa
  | .announcementWindowClose => s.closeWindow
  | .announcementDelivery die => s.deliver die s.scOps.length
  | .phaseStep cell => s.stepPhase cell
  | .impressionPass die => s.startPass die
  | .blockRecomputation die => s.recomputeNext die
  | .bar2Write pa bs => s.bar2Write pa bs
  | .bar2Read pa n => s.bar2Read pa n
  | .hostWindowRequest h w bs => s.hostRequest h w bs
  | .backInvalidation h => s.backInvalidate h
  | .launchRingEntry k => s.takeRing k
  | .eventRingWrite => s.writeEvent
  | .winbaseWrite v => s.writeWinbase v
  | .eqbaseWrite v => s.writeEqbase v
  | .eqsizeWrite v => s.writeEqsize v
  | .eqheadWrite v => s.setBar0 fun b => { b with eqhead := v }
  | .lqbaseWrite k v => s.writeLqbase k v
  | .lqsizeWrite k v => s.writeLqsize k v
  | .lqtailWrite k v => s.setBar0 fun b => { b with lqtail := vset b.lqtail k v }
  | .lqtenWrite k v => s.writeLqten k v
  | .attnWrite o v => s.writeAttn o v
  | .managementRegisterWrite o v => s.writeManagement o v
  | .bindRecordCommit die slot r => s.commitRecord die slot r
  | .bindRecordEmpty die slot => s.emptyRecord die slot
  | .boundsRecordWrite i r => s.writeBounds i r
  | .startUp x => s.startUp x
  | .flitReceive n x => s.receiveFlit n x
  | .frameReceive n => s.receiveFrame n
  | .acknowledgement n a => s.updFibre n fun f => f.acked s.fabric.own n a
  | .acknowledgementDue n => s.sendAck n
  | .replayRequest n q => s.updFibre n fun f => f.answerReplay q
  | .replayTimeout n => s.updFibre n Fibre.replay
  | .restripe n m q => s.restripe n m q
  | .hello n gen peer ring => s.updFibre n fun f => { f with hello := some (gen, peer, ring) }
  | .quiesce n => s.updFibre n fun f => { f with quiesced := true }
  | .wavelengthThreshold n t w => s.waveOut n t w
  | .wavelengthTrained n t w ok => s.waveTrained n t w ok
  | .lossOfLight t g c => s.loseLight t g c
  | .lightReturn t g c => s.returnLight t g c
  | .keyLoad n r k => s.loadKey n r k
  | .downListWrite p down => if down then s.addDown p else s.dropDown p
  | .remoteRequest r => s.remoteRequest r
  | .remoteResponse id => s.respond id
  | .copyWritePacket id => (match s.fabric.packet id with | some p => if p.isCopy then s.arriveHome id else s | none => s)
  | .copyWriteResponse core tag id => s.respondCopy core tag id
  | .reconfDrainComplete => s.drainDone
  | .switchStatus b => s.switchAnswer b
  | .switchStatusTimeout => s.switchSilent
  | .reconfTrainingComplete => s.trainingDone
  | .reconfTimeout => s.reconfLate
  | .groupActive h => s.activate h
  | .joinTimeout h live => s.refuseJoin h live
  | .collectiveContribution h p => s.contribute h p
  | .memberTimeout h r => s.memberLate h r
  | .collectiveCompletion h none => s.completeColl h
  | .collectiveCompletion h (some d) => s.decided h d
  | .uncorrectableCoreError core p => s.coreError core p
  | .hbmUncorrectableError pa => s.sectorFails pa
  | .cxlCacheResponse h x => s.cxlAnswer h x
  | .fibrePinWrite a b t n pinned => s.pin a b t n pinned
  | .wavelengthThresholdWrite v => { s with fabric := { s.fabric with threshold := v } }

end Sys2Proof.Safety
end

