-- ==== Sys2Proof/Certificates/Slice0/Obligations.lean ====
section
/-! DEFINITION. The statements for the provers, by the numbered rules of spec/. -/

open Sys2Proof Sys2Proof.Machine Sys2Proof.Safety

/-! ### Scalar instructions -/

/-- R45, R48, R89 to R94, R121, R138: a scalar instruction whose ports face bound neighbours, whose operands can be read and whose
result can be written completes. One word has gone from each port it reads, however often it names it; its destination holds the
result; and nothing else has changed but by the boundary. On conditions of the state and operands alone, these complete: each
instruction that scalarOp lists, ADD to SRD. -/
def Obligations.ScalarOperations : Prop :=
  ∀ (i : Instr) (op : ScalarOp) (s u : State) (xs : List Word), scalarOp i = some op → ready i s = true →
    s.my.operands = [] → (op.srcs ++ [op.dest]).all (portOk s) = true → op.srcs.mapM (value s) = some xs →
    written (taken s op.srcs) op.dest (op.result s xs) = some u → Goes i s u .seq

/-- R77, R124, R138: where a port that it reads is empty, or its result finds no room, a scalar instruction has not executed and
waits; no port word is lost. One that names a port off the mesh, or one to a core of another tenant, takes the permission
fault; DETAIL is the specifier of the first such field in the order a, b, d, and it is raised before any wait: the order, of which R138
gives none, is the model's reading (DEDUCED, log entry 15). Nothing else is done. -/
def Obligations.ScalarPorts : Prop :=
  (∀ (i : Instr) (op : ScalarOp) (s : State), scalarOp i = some op → ready i s = true → s.my.operands = [] →
     (op.srcs ++ [op.dest]).all (portOk s) = true →
     (∀ f ∈ op.srcs, ∀ dir n, portDir f = some dir → neighbour s.me.1 dir = some n → (s.core n).dead = false) →
     (op.srcs.mapM (value s) = none ∨
       ∃ xs, op.srcs.mapM (value s) = some xs ∧ written (taken s op.srcs) op.dest (op.result s xs) = none) →
     Stalls i s) ∧
  (∀ (i : Instr) (op : ScalarOp) (s : State) (pre post : List (BitVec 5)) (f : BitVec 5), scalarOp i = some op → ready i s = true →
     op.srcs ++ [op.dest] = pre ++ f :: post → pre.all (portOk s) = true → portOk s f = false →
     Traps i s { code := 0x06, detail := f.toNat })

/-- R34, R88, R89, R155: an operation by lanes acts on each lane for itself: on the 64-, 32-, 16- or 8-bit lanes of a register, and on the
elements of a vector register, where each active element of the destination takes its own value and each inactive one keeps
what it held. -/
def Obligations.Lanes : Prop :=
  (∀ (z : BitVec 2) (f : Nat → Nat → Nat) (x y : Word) (k : Nat), k < 64 / laneWidth z →
     bitsAt (byLanes (laneWidth z) f x y) (laneWidth z * k) (laneWidth z)
       = f (bitsAt x (laneWidth z * k) (laneWidth z)) (bitsAt y (laneWidth z * k) (laneWidth z)) % 2 ^ laneWidth z) ∧
  (∀ (c : Ctx) (m : BitVec 1) (w : Nat) (old : Vec) (f : Nat → Nat × Counts) (k : Nat), w ∈ [4, 8, 16, 32, 64] → k < 4096 / w →
     elemOf (lanes c m w old f).1 w k = (if c.active m k then (f k).1 % 2 ^ w else elemOf old w k) ∧
     ((∀ i, c.active m i = false) → (lanes c m w old f).2 = .zero))

/-- R51, R52, R92: a division under lookahead reads its operands at once and leaves its result pending, due after la more
boundaries; zr discards it. A pending write that is not due comes one boundary nearer; one that is due lands with the boundary,
in the register that the division named. A later write of a register cancels the write that is pending to it, which then does
not land; a pending word for a mesh port is not cancelled. On conditions of the state and operands alone, these complete: DIV,
DIVN, REM, REMN under lookahead. -/
def Obligations.Lookahead : Prop :=
  (∀ (i : Instr) (la : BitVec 4) (b a d : BitVec 5) (f : Word → Word → Word) (s : State) (x y : Word),
    lookOp i = some (la, b, a, d, f) → la ≠ 0#4 → ready i s = true → s.my.operands = [] → [a, b, d].all (portOk s) = true →
    value s a = some x → value s b = some y →
    match landingOf d (f x y) with
    | none => Goes i s (taken s [a, b]) .seq
    | some l => Goes i s ((taken s [a, b]).updMy fun c => { c with pend := [⟨la.toNat + 1, l⟩] }) .seq) ∧
  (∀ (s : State) (core ctx len k : Nat) (l : Landing) (n : Next), ctx ≤ 8 → (s.ctx core ctx).pend = [⟨k + 1, l⟩] →
    (s.ctx core ctx).pair = none → (s.ctx core ctx).hot = none → (s.ctx core ctx).touched = [] →
    (0 < k → s.finish core ctx len n = s.updCtx core ctx fun c => { boundary ctx len n c with pend := [⟨k, l⟩] }) ∧
    (k = 0 → ∀ c', landed l (boundary ctx len n (s.ctx core ctx)) = some c' →
      s.finish core ctx len n = s.updCtx core ctx fun _ => { c' with pend := [] })) ∧
  (∀ (s u : State) (d : BitVec 5) (k : Nat) (l l' : Landing) (v : Word), s.me.2 ≤ 8 → s.my.pend = [⟨k, l⟩] → s.my.pair = none →
     landingOf d v = some l' → written s d v = some u →
     (l.same l' = true → dst d v s = .ok ((), u.updMy fun c => { c with pend := [] })) ∧
     (l.same l' = false → dst d v s = .ok ((), u)) ∧
     (∀ dir w, (Landing.send dir w).same l' = false))

/-- R41, R122, R141: the boundary of an instruction that has no access to count on a page of mode 11 moves PC past its 2 or 4 bytes, or to
where it goes; CNT7 of a strand counts it; and nothing else of the machine changes. -/
def Obligations.Boundary : Prop :=
  ∀ (s : State) (core ctx len : Nat) (n : Next), ctx ≤ 8 → (s.ctx core ctx).pend = [] → (s.ctx core ctx).pair = none →
    (s.ctx core ctx).hot = none → (s.ctx core ctx).touched = [] → s.finish core ctx len n = s.updCtx core ctx (boundary ctx len n)

/-! ### Control flow -/

/-- R44, R95, R96: a compare branch goes to PC + 2 × disp14 where its condition holds of its operands, and on where it does not; it
changes nothing else, but takes its port words. REP counts down and goes back while passes remain. On conditions of the state
and operands alone, these complete: the six compare branches and REP. -/
def Obligations.Branches : Prop :=
  (∀ (i : Instr) (disp : BitVec 14) (b a : BitVec 5) (f : Word → Word → Bool) (s : State) (x y : Word),
     branchOp i = some (disp, b, a, f) → ready i s = true → s.my.operands = [] → [a, b].all (portOk s) = true →
     value s a = some x → value s b = some y →
     Goes i s (taken s [a, b]) (if f x y then .jump (s.my.pc + wordI (2 * disp.toInt)) else .seq)) ∧
  (∀ (disp : BitVec 14) (a : BitVec 5) (s u : State), ready (.rep disp a) s = true →
     written s a (if (s.my.reg a.toNat).toNat ≤ 1 then 0 else s.my.reg a.toNat - 1) = some u →
     Goes (.rep disp a) s u (if (s.my.reg a.toNat).toNat ≤ 1 then .seq else .jump (s.my.pc + wordI (2 * disp.toInt))))

/-- R45, R97, R98, R133: J writes the address after it and goes to PC + 2 × disp19; JR goes to src(a), after writing the address
after it to d; JR zr in a light handler returns to LPC and clears LH; a target, or a link, that is no instruction address is the
address fault, with EVAL that value, and nothing is written; with d = zr too. On conditions of the state and operands alone,
these complete: J and JR. -/
def Obligations.Jumps : Prop :=
  (∀ (disp : BitVec 19) (d : BitVec 5) (s u : State), ready (.jmp disp d) s = true → portOk s d = true →
    written s d (s.my.pc + 4) = some u → Goes (.jmp disp d) s u (.jump (s.my.pc + wordI (2 * disp.toInt)))) ∧
  (∀ s : State, ready (.jr 28#5 28#5) s = true → s.my.lh = true →
    Goes (.jr 28#5 28#5) s (s.updMy fun c => { c with lh := false }) (.jump s.my.lpc)) ∧
  (∀ (a d : BitVec 5) (s : State) (x : Word), ready (.jr a d) s = true → ¬(s.my.lh = true ∧ a = 28#5 ∧ d = 28#5) →
    s.my.operands = [] → [a, d].all (portOk s) = true → value s a = some x →
    (codeAddress x = true → codeAddress (s.my.pc + 4) = true → ∀ u, written (taken s [a]) d (s.my.pc + 4) = some u →
      Goes (.jr a d) s u (.jump x)) ∧
    (codeAddress x = true → codeAddress (s.my.pc + 4) = false → Traps (.jr a d) s { code := 0x04, val := s.my.pc + 4 }) ∧
    (codeAddress x = false → Traps (.jr a d) s { code := 0x04, val := x }))

/-- R64, R98: a call at the depth limit traps and changes nothing; one with every slot resident takes SPILL; any other makes one frame of
eight zeros and its link, and goes to its target. A return at depth 0 takes RET_ZERO, one with only the window resident FILL;
any other goes to the link and drops the frame. The callee finds g8 to g15 zero. A target or link that is no instruction address is the
address fault of R98; that CALLR raises it before DEPTH_LIMIT and SPILL is the model's reading (DEDUCED, log entry 15). On conditions of the state and operands alone,
these complete: CALL, CALLR, RET. -/
def Obligations.Calls : Prop :=
  (∀ (i : Instr) (s u : State) (t : Word), ready i s = true → s.my.operands = [] → leaf s.my = true →
    ((∃ disp, i = .call disp ∧ t = s.my.pc + wordI (2 * disp.toInt) ∧ u = s) ∨
     (∃ a, i = .callr a ∧ portOk s a = true ∧ value s a = some t ∧ codeAddress t = true ∧ codeAddress (s.my.pc + 4) = true ∧
       u = taken s [a])) →
    (s.my.depth = 0xFFFF → Traps i s { code := 0x0A }) ∧
    (s.my.depth ≠ 0xFFFF → s.my.res = s.my.cap → Traps i s { code := 0x07, val := s.my.toRegs.link (s.my.depth + 2 - s.my.res) }) ∧
    (s.my.depth ≠ 0xFFFF → s.my.res < s.my.cap → Goes i s (u.updMy (called (s.my.pc + 4))) (.jump t))) ∧
  (∀ s : State, ready .ret s = true → leaf s.my = true →
    (s.my.depth = 0 → Traps .ret s { code := 0x09 }) ∧
    (s.my.depth ≠ 0 → s.my.res = 2 → Traps .ret s { code := 0x08 }) ∧
    (s.my.depth ≠ 0 → 2 < s.my.res → codeAddress (s.my.toRegs.link (s.my.depth + 1)) = true →
      Goes .ret s (s.updMy fun c => { c with depth := c.depth - 1, res := c.res - 1 }) (.jump (s.my.toRegs.link (s.my.depth + 1)))) ∧
    (s.my.depth ≠ 0 → 2 < s.my.res → codeAddress (s.my.toRegs.link (s.my.depth + 1)) = false →
      Traps .ret s { code := 0x04, val := s.my.toRegs.link (s.my.depth + 1) })) ∧
  (∀ (a : BitVec 5) (s : State) (t : Word), ready (.callr a) s = true → s.my.operands = [] → leaf s.my = true → portOk s a = true →
    value s a = some t → codeAddress t = false → Traps (.callr a) s { code := 0x04, val := t }) ∧
  (∀ (c : Ctx) (link : Word) (j : Nat), c.trap = false → 0 < c.cap → c.cap ≤ 8 → 8 ≤ j → j < 16 →
    (called link c).toRegs.g j = 0 ∧ (called link c).toRegs.link ((called link c).depth + 1) = link)

/-- R74, R75, R133: handlers are leaf code. CALL, CALLR, RET, YIELD and MIG are double traps in a trap handler, with DETAIL
0x14, and illegal instructions in a light handler, with DETAIL 0x12. That MIG in a light handler takes this trap, and not the illegal
migration of R79, is the model's choice (DESIGN CHOICE, log entry 26). -/
def Obligations.LeafCode : Prop :=
  ∀ (i : Instr) (s : State), ready i s = true →
    ((∃ disp, i = .call disp) ∨ (∃ a, i = .callr a) ∨ i = .ret ∨ i = .yield ∨ (∃ a, i = .mig a)) →
    (s.my.trap = true → Illegal i s 0x14) ∧ (s.my.trap = false → s.my.lh = true → Illegal i s 0x12)

/-- R73, R75, R101, R212: the word of TRAP #t; taking it, with ECAUSE 0x15, EVAL t and EPC the address of the next instruction (R101), at
the vector of R73; in a trap handler it is a double trap (R75). A hart that runs it faults (R212). That TRAP is not counted in CNT7, which
the exact next states show, is the model's choice (DESIGN CHOICE, log entry 15). On conditions of the state and operands alone, these
complete: TRAP. -/
def Obligations.TrapInstruction : Prop :=
  (∀ (t : BitVec 12) (s : State), ready (.trap t) s = true → s.isHart = true →
    exec (.trap t) s = .next (s.hartFault s.me.1 { code := 0x15, val := t.zeroExtend 64 })) ∧
  ∀ (t : BitVec 12) (s : State), ready (.trap t) s = true → s.isHart = false → s.my.operands = [] → s.my.st ≠ .free →
    bitsAt (s.my.pc + 4) 56 8 = 0 →
    encodeNat (.trap t) = (0x37 + t.toNat * 2 ^ 18, 4) ∧
    exec (.trap t) s = .next (s.takeTrap s.me.1 s.me.2 { code := 0x15, val := t.zeroExtend 64 } (s.my.pc + 4)) ∧
    (s.my.trap = false → ∃ c, exec (.trap t) s = .next (s.updCtx s.me.1 s.me.2 fun _ => c) ∧
      c.ecause = 0x15 ∧ c.eval = t.zeroExtend 64 ∧ c.epc = s.my.pc + 4 ∧ c.trap = true ∧ c.pc = s.my.tbase + 64 * 0x15) ∧
    (s.my.trap = true → exec (.trap t) s = .next ((s.updCtx s.me.1 s.me.2 fun c => { c with st := .held, arrived := .none, wait := .none }).notify
      (dieOf s.me.1) (.doubleTrap s.me.1 s.me.2 { code := 0x15, val := t.zeroExtend 64 })))

/-- R65, R71, R73, R75: taking a trap outside a handler writes EPC, ECAUSE and EVAL, sets TRAP, enters the trap window and goes to
TBASE + 64 × CODE, and leaves the stack, the address registers and memory alone. Within a handler it holds the strand, keeps
the saved registers and tells the overseer core. The frame that the window shows for SPILL (code 0x07) is DEPTH + 2 − RES for every RES:
R65 writes DEPTH + 2 − CAP, and for RES < CAP this is the model's reading (DEDUCED, log entry 12). -/
def Obligations.TrapTaking : Prop :=
  ∀ (s : State) (core ctx : Nat) (t : Trap) (epc : Word), ctx < 8 → (s.ctx core ctx).pend = [] → (s.ctx core ctx).pair = none →
    (s.ctx core ctx).operands = [] → (s.ctx core ctx).st ≠ .free →
    ((s.ctx core ctx).trap = false → ∃ c, s.takeTrap core ctx t epc = s.updCtx core ctx (fun _ => c) ∧
      c.epc = word (bitsAt epc 0 56) ∧ c.ecause = word ((if t.wr then 2 ^ 16 else 0) + t.detail % 256 * 256 + t.code % 256) ∧
      c.eval = t.val ∧ c.trap = true ∧ c.pc = (s.ctx core ctx).tbase + word (64 * t.code) ∧
      (∀ j < 8, c.toRegs.g j = vget 0 (s.ctx core ctx).tbank j) ∧
      (t.code ≠ 0x07 → t.code ≠ 0x08 → ∀ j, 8 ≤ j → c.toRegs.g j = (s.ctx core ctx).toRegs.g j) ∧
      (t.code = 0x07 → ∀ j, 8 ≤ j → c.toRegs.g j = vget 0 (s.ctx core ctx).rf
        (8 * (((s.ctx core ctx).depth + 2 - (s.ctx core ctx).res) % (s.ctx core ctx).cap) + (j - 8))) ∧
      (t.code = 0x08 → ∀ j, 8 ≤ j → j < 16 → c.toRegs.g j = 0) ∧
      c.areg = (s.ctx core ctx).areg ∧ c.tbank = (s.ctx core ctx).tbank ∧ c.links = (s.ctx core ctx).links ∧
      c.depth = (s.ctx core ctx).depth ∧ c.res = (s.ctx core ctx).res ∧ c.vregs = (s.ctx core ctx).vregs ∧
      (t.code ≠ 0x08 → c.rf = (s.ctx core ctx).rf)) ∧
    ((s.ctx core ctx).trap = true → s.takeTrap core ctx t epc =
      (s.updCtx core ctx fun c => { c with st := .held, arrived := .none, wait := .none }).notify (dieOf core) (.doubleTrap core ctx t))

/-- R65, R74: ERET leaves the handler for EPC, keeps ECAUSE and EVAL, and, for SPILL and FILL, frees the victim's slot or makes the
target's frame resident with EVAL as its link. Outside a handler it is an illegal instruction. Log entry 12 says when no frame
moves. On conditions of the state and operands alone, these complete: ERET. -/
def Obligations.TrapReturn : Prop :=
  ∀ s : State, ready .eret s = true →
    (s.my.trap = false → Illegal .eret s 0) ∧
    (s.my.trap = true → bitsAt s.my.ecause 0 8 ≠ 0x07 → bitsAt s.my.ecause 0 8 ≠ 0x08 →
      Goes .eret s (s.updMy fun c => { c with trap := false, twin := .interrupted, pc := c.epc }) (.jump s.my.epc)) ∧
    (s.my.trap = true → bitsAt s.my.ecause 0 8 = 0x07 → 2 < s.my.res →
      Goes .eret s (s.updMy fun c => { c with trap := false, twin := .interrupted, pc := c.epc, res := c.res - 1 }) (.jump s.my.epc)) ∧
    (s.my.trap = true → bitsAt s.my.ecause 0 8 = 0x08 → s.my.res = 2 → 0 < s.my.depth →
      Goes .eret s (s.updMy fun c => { c with trap := false, twin := .interrupted, pc := c.epc, res := c.res + 1, links := vset c.links ((c.depth - 1) % c.cap) c.eval })
        (.jump s.my.epc))

/-- R60, R61: a word outside the agent's set, one with a bad field, or one with a type code that the instruction does not
admit is an illegal instruction, whatever its operands: EVAL is the word, DETAIL 0x20 for the type code and 0 otherwise. -/
def Obligations.WordErrors : Prop :=
  ∀ (i : Instr) (s : State) (t : Trap), bytesOfInstr i ≠ 0 → hasAgent s = true → wordError s.isHart i = some t →
    Illegal i s t.detail ∧ (t.detail = 0 ∨ t.detail = 0x20)

/-! ### State registers -/

/-- R49, R120, R121: SWR writes what the table of R121 gives, from a register or from an immediate, in program order; a value or a
register that it refuses is an illegal instruction, and the register stays as it is. That an SWR of CNT7 counts itself on top of the
value it wrote, as Goes has it, is the model's choice (DESIGN CHOICE, log entry 15). On conditions of the state and operands
alone, these complete: SWR, of a register and of an immediate. -/
def Obligations.StateRegisterWrites : Prop :=
  ∀ (i : Instr) (n : Nat) (v : Word) (s u : State), ready i s = true → s.my.operands = [] →
    ((∃ b a, i = .swr b a ∧ n = b.toNat ∧ portOk s a = true ∧ value s a = some v ∧ u = taken s [a]) ∨
     (∃ (x : BitVec 14) (d : BitVec 5), i = .swrImm x d ∧ n = d.toNat ∧ v = x.zeroExtend 64 ∧ u = s)) →
    match registerWritten n v u with
    | some t => Goes i s t .seq
    | none => Illegal i s 0

/-- R121: what SRD reads after an SWR: the register written holds the value (STATUS its PRIO, ARV cleared by a bit 8 of 0, and
nothing else; a counter at most 2^32 − 1; HSET where no light handler runs), and every other register what it held. -/
def Obligations.StateRegisterReadback : Prop :=
  ∀ (s t : State) (n : Nat) (v : Word), s.me.2 ≤ 8 → n < 32 → registerWritten n v s = some t →
    (∀ m, m < 32 → m ≠ n → (m ≤ 11 ∨ 16 ≤ m) → t.stateReg m = s.stateReg m) ∧
    (n ∈ [1, 2, 3, 4, 5, 8, 9, 10] → t.stateReg n = v) ∧
    (n = 6 → s.my.lh = false → t.stateReg 6 = v) ∧
    (16 ≤ n → t.stateReg n = word (min v.toNat 0xFFFFFFFF)) ∧
    (n = 0 → t.my.prio = bitsAt v 32 2 ∧ (t.my.arv = true ↔ s.my.arv = true ∧ bitsAt v 8 1 = 1) ∧
      t.my.depth = s.my.depth ∧ t.my.res = s.my.res ∧ t.my.cap = s.my.cap ∧ t.my.va = s.my.va ∧ t.my.trap = s.my.trap ∧
      t.my.lh = s.my.lh ∧ t.my.pairBit = s.my.pairBit) ∧
    t.mem = s.mem

/-- R67, R69, R93, R94: AWALK takes the walk's block and columns from its word and its start from the base; a base that is no mesh
pointer, and one with bits [50:19] not 0, is the address fault, a walk past column 63 an illegal instruction, and AWC is left as it is. That
AWALK makes this check of R67 of a base it does not access through is log entry 15. A post-increment of n
bytes moves a flat pointer on by n; it moves a mesh pointer on within its block, or, at the block's end, back to the block's
first byte one column on: past the walk's last column to its first column, one row on; past the last row to the first. On
conditions of the state and operands alone, these complete: AWALK. -/
def Obligations.AddressWalks : Prop :=
  (∀ (x : BitVec 7) (k : BitVec 5) (a : BitVec 5) (s : State), ready (.awalk x k a) s = true →
     (bitsAt (baseOf s a) 62 2 = 1 → bitsAt (baseOf s a) 19 32 = 0 →
       (bitsAt (baseOf s a) 56 6 + x.toNat ≤ 64 →
         Goes (.awalk x k a) s (s.updMy fun c => { c with awc := word (bitsAt (baseOf s a) 51 5 * 2 ^ 30 + x.toNat * 2 ^ 18
           + bitsAt (baseOf s a) 56 6 * 2 ^ 12 + k.toNat) }) .seq) ∧
       (64 < bitsAt (baseOf s a) 56 6 + x.toNat → Illegal (.awalk x k a) s 0)) ∧
     (bitsAt (baseOf s a) 62 2 ≠ 1 ∨ bitsAt (baseOf s a) 19 32 ≠ 0 → Traps (.awalk x k a) s { code := 0x04, val := baseOf s a })) ∧
  (∀ (awc p : Word) (n : Nat), 0 < n →
     (bitsAt p 62 2 ≠ 1 → advance awc p n = p + word n) ∧
     (bitsAt p 62 2 = 1 → awcOk awc = true → inBlock awc p n →
       let b := 2 ^ bitsAt awc 0 5
       let o := bitsAt p 0 19 + n
       let x := bitsAt p 56 6
       let y := bitsAt p 51 5
       let last := bitsAt awc 12 6 + bitsAt awc 18 7 - 1
       let top := if bitsAt awc 25 5 = 0 then 31 else bitsAt awc 30 5 + bitsAt awc 25 5 - 1
       let at_ := fun (x y o : Nat) => word (2 ^ 62 + x * 2 ^ 56 + y * 2 ^ 51 + o)
       (o % b ≠ 0 → advance awc p n = at_ x y o) ∧
       (o % b = 0 → x + 1 ≤ last → advance awc p n = at_ (x + 1) y (o - b)) ∧
       (o % b = 0 → last < x + 1 → y + 1 ≤ top → advance awc p n = at_ (bitsAt awc 12 6) (y + 1) (o - b)) ∧
       (o % b = 0 → last < x + 1 → top < y + 1 → advance awc p n = at_ (bitsAt awc 12 6) (bitsAt awc 30 5) (o - b))))

/-- R188: HSET d, a sets d to HSET, and HSET to src(a), as one step; a value with any of bits [63:56] set is an illegal instruction
with DETAIL 0x23, and HSET is unchanged; with d = zr it has the effect of SWR HSET. On conditions of the state and operands
alone, these complete: HSET. -/
def Obligations.HandlerExchange : Prop :=
  ∀ (a d : BitVec 5) (s : State) (v : Word), ready (.hset a d) s = true → s.my.operands = [] → [a, d].all (portOk s) = true →
    value s a = some v →
    (bitsAt v 56 8 ≠ 0 → Illegal (.hset a d) s 0x23) ∧
    (bitsAt v 56 8 = 0 → ∀ u, written ((taken s [a]).setHset v) d (s.hset s.me.1 s.me.2) = some u →
      Goes (.hset a d) s u .seq ∧ (d = 28#5 → registerWritten 6 v (taken s [a]) = some u))

/-! ### Loads and stores -/

/-- R67, R102, R134, R138, R313: n bytes at a mesh pointer to a living core of the tenant are read as they stand, and written as
they are given, and an access of the local store changes no cache and no record; so do the loads and stores of both forms,
outright, with post-increment and under lookahead. On conditions of the state and operands alone, these complete: the seven
I-form loads, the four I-form stores, and LDSTR load and store. -/
def Obligations.LocalStoreAccess : Prop :=
  (∀ (s : State) (p : Word) (off : Int) (k : Nat), s.my.pair = none → settled s = true →
     (∀ n, storeKeyAt s p off n false = some k → cleanWords s k n = true → Does (load p off n) s (memRead s.mem k n) s) ∧
     (∀ bs, storeKeyAt s p off bs.length true = some k → Does (store p off bs) s () (s.putBytes k bs))) ∧
  (∀ (i : Instr) (n : Nat) (sg : Bool) (off : BitVec 14) (a d : BitVec 5) (s v : State) (k : Nat),
    loadOp i = some (n, sg, off, a, d) → ready i s = true → portOk s d = true → settled s = true →
    storeKeyAt s (baseOf s a) off.toInt n false = some k → cleanWords s k n = true →
    written s d (if sg then sext (leNat (memRead s.mem k n)) (8 * n) else word (leNat (memRead s.mem k n))) = some v → Goes i s v .seq) ∧
  (∀ (i : Instr) (n : Nat) (off : BitVec 14) (a d : BitVec 5) (s : State) (v : Word) (k : Nat), storeOp i = some (n, off, a, d) →
    ready i s = true → s.my.operands = [] → portOk s d = true → value s d = some v → settled s = true →
    storeKeyAt s (baseOf s a) off.toInt n true = some k → Goes i s ((taken s [d]).putBytes k (leBytes n v.toNat)) .seq) ∧
  (∀ (p : BitVec 1) (z : BitVec 3) (la : BitVec 4) (b a d : BitVec 5) (s u v : State) (x : Word) (bs : List Byte),
    ready (.ldstrLoad p z la b a d) s = true → s.my.operands = [] → [b, d].all (portOk s) = true → value s b = some x → settled s = true →
    storeBytes s (baseOf s a) (if p = 1#1 then 0 else x.toInt) (loadSizes z).1 = some bs →
    (p = 0#1 ∧ u = taken s [b] ∨ p = 1#1 ∧ inBlock s.my.awc (baseOf s a) (loadSizes z).1 ∧
      writtenLa la (taken s [b]) a (advance s.my.awc (baseOf s a) (loadSizes z).1) = some u) →
    writtenLa la u d (extend (loadSizes z).2 bs) = some v → Goes (.ldstrLoad p z la b a d) s v .seq) ∧
  (∀ (p : BitVec 1) (z : BitVec 2) (la : BitVec 4) (b a d : BitVec 5) (s u : State) (x v : Word) (k : Nat),
    ready (.ldstrStore p z la b a d) s = true → s.my.operands = [] → [b, d].all (portOk s) = true → value s b = some x →
    value s d = some v → settled s = true →
    storeKeyAt s (baseOf s a) (if p = 1#1 then 0 else x.toInt) (2 ^ z.toNat) true = some k →
    let t := (taken s [b, d]).putBytes k (leBytes (2 ^ z.toNat) v.toNat)
    (p = 0#1 ∧ u = t ∨ p = 1#1 ∧ inBlock s.my.awc (baseOf s a) (2 ^ z.toNat) ∧
      writtenLa la t a (advance s.my.awc (baseOf s a) (2 ^ z.toNat)) = some u) → Goes (.ldstrStore p z la b a d) s u .seq)

/-- R85, R102, R134, R151: an access checks, and a load reads, without changing a byte of memory, nor a register but event counters; a
store changes no such register, and no byte outside the extents that its own check gives for its address. Bytes put into memory are there, every other byte of memory is as before,
and each local-store word that a byte is written to is full; a dead core's store takes nothing. -/
def Obligations.MemoryFrame : Prop :=
  (∀ (r : Req) (l : List (Word × Int × Nat)) (s u : State) (es : List (List Extent)), Does (check r l) s es u →
    u.mem = s.mem ∧ sameRegisters s u) ∧
  (∀ (p : Word) (off : Int) (n : Nat) (s u : State) (bs : List Byte), Does (load p off n) s bs u →
    u.mem = s.mem ∧ sameRegisters s u) ∧
  (∀ (p : Word) (off : Int) (bs : List Byte) (s u v : State) (es : List (List Extent)), Does (store p off bs) s () u →
    Does (check { write := true, plain := true } [(p, off, bs.length)]) s es v →
    sameRegisters s u ∧ ∀ key, within es key = false → memByte u.mem key = memByte s.mem key) ∧
  (∀ (s : State) (k : Nat) (bs : List Byte), let t := s.putBytes k bs
     (isStore k = true → (s.core ((k - 2 ^ 72) / 2 ^ 19)).dead = true → t = s) ∧
     ((isStore k = true → (s.core ((k - 2 ^ 72) / 2 ^ 19)).dead = false) →
       (∀ j, memByte t.mem j = if k ≤ j ∧ j < k + bs.length then bs.getD (j - k) 0 else memByte s.mem j) ∧
       (isStore k = true → ∀ w, t.full.contains w = (s.full.contains w || (!bs.isEmpty && (wordsTouched k bs.length).contains w))) ∧
       (isStore k = false → t.full = s.full) ∧ (∀ n, { t.core n with bad := (s.core n).bad } = s.core n) ∧ t.records = s.records ∧ t.dir = s.dir))

/-- R47, R51, R52, R69, R102, R103: a load whose bytes can be read writes them, extended, to its destination. An I-form load
reads at base + imm14, a register-form load at base + src(b), or, with post-increment, at the base, which then moves on as
R69 gives; under lookahead both writes are pending, and the destination prevails over the base. -/
def Obligations.Loads : Prop :=
  (∀ (i : Instr) (n : Nat) (sg : Bool) (off : BitVec 14) (a d : BitVec 5) (s u v : State) (bs : List Byte),
    loadOp i = some (n, sg, off, a, d) → ready i s = true → portOk s d = true →
    Does (load (baseOf s a) off.toInt n) s bs u → steady u = true → written u d (extend sg bs) = some v → Goes i s v .seq) ∧
  (∀ (z : BitVec 3) (la : BitVec 4) (b a d : BitVec 5) (s u v : State) (bs : List Byte) (x : Word),
    ready (.ldstrLoad 0 z la b a d) s = true → s.my.operands = [] → [b, d].all (portOk s) = true → value s b = some x →
    Does (load (baseOf s a) x.toInt (loadSizes z).1) (taken s [b]) bs u → steady u = true →
    (la = 0#4 → written u d (extend (loadSizes z).2 bs) = some v → Goes (.ldstrLoad 0 z la b a d) s v .seq) ∧
    (la ≠ 0#4 → ∀ l, landingOf d (extend (loadSizes z).2 bs) = some l →
      Goes (.ldstrLoad 0 z la b a d) s (u.updMy fun c => { c with pend := [⟨la.toNat + 1, l⟩] }) .seq)) ∧
  (∀ (z : BitVec 3) (la : BitVec 4) (a d : BitVec 5) (s u : State) (bs : List Byte), let i := Instr.ldstrLoad 1 z la 28 a d
    ready i s = true → portOk s d = true →
    (¬inBlock s.my.awc (baseOf s a) (loadSizes z).1 → Traps i s { code := 0x04, val := baseOf s a }) ∧
    (inBlock s.my.awc (baseOf s a) (loadSizes z).1 → Does (load (baseOf s a) 0 (loadSizes z).1) s bs u → steady u = true →
      let q := advance u.my.awc (baseOf s a) (loadSizes z).1
      (la = 0#4 → ∀ v, written (u.updMy fun c => { c with areg := vset c.areg (a.toNat - 16) q }) d (extend (loadSizes z).2 bs) = some v →
        Goes i s v .seq) ∧
      (la ≠ 0#4 → ∀ l, landingOf d (extend (loadSizes z).2 bs) = some l →
        Goes i s (u.updMy fun c => { c with pend :=
          if d = a then [(⟨la.toNat + 1, l⟩ : Pending)] else [⟨la.toNat + 1, .areg (a.toNat - 16) q⟩, ⟨la.toNat + 1, l⟩] }) .seq)))

/-- R102, R103: a store whose bytes can be written writes the low bytes of its source at the same addresses as the loads, and
changes no register but the base of a post-increment. -/
def Obligations.Stores : Prop :=
  (∀ (i : Instr) (n : Nat) (off : BitVec 14) (a d : BitVec 5) (s u : State) (v : Word), storeOp i = some (n, off, a, d) →
    ready i s = true → s.my.operands = [] → portOk s d = true → value s d = some v →
    Does (store (baseOf s a) off.toInt (leBytes n v.toNat)) (taken s [d]) () u → steady u = true → Goes i s u .seq) ∧
  (∀ (z : BitVec 2) (la : BitVec 4) (b a d : BitVec 5) (s u : State) (x v : Word), ready (.ldstrStore 0 z la b a d) s = true →
    s.my.operands = [] → [b, d].all (portOk s) = true → value s b = some x → value s d = some v →
    Does (store (baseOf s a) x.toInt (leBytes (2 ^ z.toNat) v.toNat)) (taken s [b, d]) () u → steady u = true →
    Goes (.ldstrStore 0 z la b a d) s u .seq) ∧
  (∀ (z : BitVec 2) (la : BitVec 4) (a d : BitVec 5) (s u : State) (v : Word), let i := Instr.ldstrStore 1 z la 28 a d
    ready i s = true → s.my.operands = [] → portOk s d = true → value s d = some v →
    (¬inBlock s.my.awc (baseOf s a) (2 ^ z.toNat) → Traps i s { code := 0x04, wr := true, val := baseOf s a }) ∧
    (inBlock s.my.awc (baseOf s a) (2 ^ z.toNat) →
      Does (store (baseOf s a) 0 (leBytes (2 ^ z.toNat) v.toNat)) (taken s [d]) () u → steady u = true →
      let q := advance u.my.awc (baseOf s a) (2 ^ z.toNat)
      (la = 0#4 → Goes i s (u.updMy fun c => { c with areg := vset c.areg (a.toNat - 16) q }) .seq) ∧
      (la ≠ 0#4 → Goes i s (u.updMy fun c => { c with pend := [⟨la.toNat + 1, .areg (a.toNat - 16) q⟩] }) .seq)))

/-! ### Ordering accesses, atomics, barriers -/

/-- R84, R104, R105, R106, R206, R301, R303: an acquire load reads its aligned bytes and then ends the interval; a release store ends
the interval and then writes them, in a local store outright; an address that is no multiple of the length is the address fault
with DETAIL 0x01. LD.SC and ST.SC release at package scope, are announced once, in the window that is open, and wait; once they
are answered they complete with an acquire at package scope, LD.SC with the value it brought. That alignment is tested before the form and
bounds of the base is the model's choice (DESIGN CHOICE, log entry 15), and that the release comes before the announcement its reading
(DEDUCED, log entry 15). On conditions of the state and
operands alone, these complete: LD.ACQ.W, LD.ACQ.D, ST.REL.W, ST.REL.D, LD.SC, ST.SC. -/
def Obligations.OrderedAccesses : Prop :=
  (∀ (i : Instr) (n : Nat) (sc : BitVec 3) (b a d : BitVec 5) (s u1 u2 u3 v : State) (x : Word) (es : List (List Extent))
    (bs : List (List Byte)), acquireOp i = some (n, sc, b, a, d) → ready i s = true → s.my.operands = [] →
    [b, d].all (portOk s) = true → value s b = some x →
    (¬multiple (baseOf s a) x.toInt n → Traps i s { code := 0x04, detail := 1, val := baseOf s a }) ∧
    (multiple (baseOf s a) x.toInt n →
      Does (check { read := true, sync := true, phase := n == 8, scope := some sc.toNat } [(baseOf s a, x.toInt, n)]) (taken s [b]) es u1 →
      Does (readExts false es) u1 bs u2 → Does (acquire sc.toNat) u2 () u3 → steady u3 = true →
      written u3 d (sext (leNat bs.flatten) (8 * bs.flatten.length)) = some v → Goes i s v .seq) ∧
    (multiple (baseOf s a) x.toInt n → sc.toNat < 5 → settled s = true → ∀ m w, storeBytes s (baseOf s a) x.toInt n = some m →
      written (ended (taken s [b])) d (sext (leNat m) (8 * n)) = some w → Goes i s w .seq)) ∧
  (∀ (i : Instr) (n : Nat) (sc : BitVec 3) (b a d : BitVec 5) (s u1 u2 : State) (x v : Word) (es : List (List Extent)),
    releaseOp i = some (n, sc, b, a, d) → ready i s = true → s.my.operands = [] → [b, d].all (portOk s) = true →
    value s b = some x → value s d = some v →
    (¬multiple (baseOf s a) x.toInt n → Traps i s { code := 0x04, detail := 1, wr := true, val := baseOf s a }) ∧
    (multiple (baseOf s a) x.toInt n →
      Does (check { write := true, sync := true, scope := some sc.toNat } [(baseOf s a, x.toInt, n)]) (taken s [b, d]) es u1 →
      Does (release sc.toNat) u1 () u2 → Goes i s (writtenOver false u2 es.flatten (leBytes n v.toNat)) .seq) ∧
    (multiple (baseOf s a) x.toInt n → sc.toNat < 5 → settled s = true → ∀ k, storeKeyAt s (baseOf s a) x.toInt n true = some k →
      Goes i s ((ended (taken s [b, d])).putBytes k (leBytes n v.toNat)) .seq)) ∧
  (∀ (b a d : BitVec 5) (s : State), s.my.operands = [] →
     (∀ v u, ready (.ldSc b a d) s = true → [b, d].all (portOk s) = true → s.my.wait = .sc (some v) →
       written (acquired (s.updMy fun c => { c with wait := .none })) d v = some u → Goes (.ldSc b a d) s u .seq) ∧
     (∀ v, ready (.stSc b a d) s = true → [b, d].all (portOk s) = true → s.my.wait = .sc (some v) →
       Goes (.stSc b a d) s (acquired (s.updMy fun c => { c with wait := .none })) .seq) ∧
     (∀ (x : Word) (es : List (List Extent)) (u : State) (e : Extent), ready (.ldSc b a d) s = true → [b, d].all (portOk s) = true →
       s.my.wait = .none → value s b = some x → multiple (baseOf s a) x.toInt 8 →
       Does (check { read := true, sync := true, scope := some 6 } [(baseOf s a, x.toInt, 8)]) (taken s [b]) es u →
       es.flatten = [e] → u.badData e = none → settled u = true → u.myCore.announced = false →
       exec (.ldSc b a d) s = .next (announcedBy (ended u) ⟨u.me.1, u.me.2, u.windowsClosed, e.key, 0, 0, true, 0, 0⟩)) ∧
     (∀ (x v : Word) (e : Extent), [b, d].all (portOk s) = true → s.my.wait = .none → value s b = some x → value s d = some v →
       multiple (baseOf s a) x.toInt 8 → pageBytes s (baseOf s a) x.toInt 8 = some e →
       (s.spanDie = true → homeGalley e.key / 64 = dieOf s.me.1) → settled s = true → s.myCore.announced = false →
       (ready (.ldSc b a d) s = true → exec (.ldSc b a d) s =
         .next (announcedBy (ended (taken s [b])) ⟨s.me.1, s.me.2, s.windowsClosed, e.key, 0, 0, true, 0, 0⟩)) ∧
       (ready (.stSc b a d) s = true → exec (.stSc b a d) s =
         .next (announcedBy (ended (taken s [b, d])) ⟨s.me.1, s.me.2, s.windowsClosed, e.key, 1, 0, true, v, 0⟩))) ∧
     (ready (.ldSc b a d) s = true → [b, d].all (portOk s) = true → s.my.wait = .sc none → Stalls (.ldSc b a d) s) ∧
     (ready (.stSc b a d) s = true → [b, d].all (portOk s) = true → s.my.wait = .sc none → Stalls (.stSc b a d) s))

/-- R84, R116, R292, R409: what a release and an acquire do, at once where nothing announced and no posted store waits. At strand and core
scope the interval ends, and nothing else. Beyond the core a release first sends the dirty bytes of other packages' memory in the core's L1
home, and completes when no write packet of the agent or its core is out; an acquire drops the clean ones. A release beyond the strand's own
scope waits for announced operations and posted writes; one at system scope raises a byte that was lost. A fence is the two in turn. R409 gives the sending and the
dropping at system scope; that they are made at scopes 2 to 4 too, and that a release at scopes 1 to 4 waits for posted packets
and the core's write-backs, is the model's reading of R116, R292 and R294 (DEDUCED, log entry 15). On conditions of the state and operands
alone, these complete: FENCE, of every scope. -/
def Obligations.Fences : Prop :=
  ∀ (s : State), s.me.2 ≤ 8 →
    (∀ sc, sc < 2 → (sc = 0 ∨ writesDone s = true) → Does (release sc) s () (ended s)) ∧
    (∀ sc, 2 ≤ sc → sc < 5 → writesDone (s.cleanRemote s.me.1) = true → Does (release sc) s () (released s)) ∧
    (∀ sc, sc < 5 → settled s = true → Does (release sc) s () (ended s)) ∧
    (writesDone s = false → release 1 s = .error .stall) ∧
    (∀ sc, 2 ≤ sc → sc < 5 → s.outstanding s.who = true → release sc s = .error .stall) ∧
    (s.outstanding s.who = true → s.my.lost = none → release 5 s = .error .stall) ∧
    (∀ v, s.my.lost = some v → release 5 s = .error (.trap { code := 0x0D, detail := 0x12, wr := true, val := v } [.lostByte])) ∧
    (∀ sc, sc < 2 → Does (acquire sc) s () (ended s)) ∧ (∀ sc, 2 ≤ sc → Does (acquire sc) s () (acquired s)) ∧
    (drained s = true → Does (release 5) s () (released s)) ∧
    (∀ sc : BitVec 3, ready (.fence sc) s = true → sc.toNat < 2 → (sc = 0#3 ∨ writesDone s = true) →
      Goes (.fence sc) s (ended (ended s)) .seq) ∧
    (∀ sc : BitVec 3, ready (.fence sc) s = true → 2 ≤ sc.toNat → sc.toNat < 5 → writesDone (s.cleanRemote s.me.1) = true →
      Goes (.fence sc) s (acquired (released s)) .seq) ∧
    (ready (.fence 5) s = true → drained s = true → Goes (.fence 5) s (acquired (released s)) .seq)

/-- R117: a strand that comes to a barrier arrives, and its interval ends, with a release at core scope for BAR.T and at die scope for
BAR.G. The last one goes on, with an acquire; any other waits, with its arrival
kept, and goes on when it has been passed. On conditions of the state and operands alone, these complete: BAR.T, BAR.G. -/
def Obligations.Barriers : Prop :=
  ∀ (i : Instr) (kind : Arrival) (s : State), (i = .barT ∧ kind = .team ∨ i = .barG ∧ kind = .gang) → ready i s = true →
    let leave := fun (u : State) => if kind = .team then ended (u.updMy fun c => { c with wait := .none }) else acquired (u.updMy fun c => { c with wait := .none })
    (s.my.wait = .passed → Goes i s (leave s) .seq) ∧
    (s.my.wait ≠ .passed → s.my.arrived = kind → Stalls i s) ∧
    (s.my.wait ≠ .passed → s.my.arrived ≠ kind → writesDone (if kind = .team then s else s.cleanRemote s.me.1) = true →
      let u := (if kind = .team then ended s else released s).updMy fun c => { c with arrived := kind, barCnt := c.cnt }
      let t := if kind = .team then u.teamBarrier u.my.team else u.gangBarrier u.my.gang
      (t.my.wait = .passed → Goes i s (leave t) .seq) ∧
      (t.my.wait ≠ .passed → s.my.operands = [] → exec i s = .next t))

/-- R84, R112, R134, R206, R304: an atomic on memory of the package, checked as a read and a write, is a release, then one
indivisible step at the place of R304, then an acquire at its scope; its destination holds the old value. In a local store an
atomic, AMO.FADD too, reads the old value and writes the new one if there is one, and the intervals of its release and its
acquire end. At scope 6 it releases at package scope, is announced once, in the open window, and waits; at a phase cell it goes to the
cell's home, and at memory of another package as a request packet to that package, once no write of the bytes is under way, and waits;
answered, it completes with an acquire and the old value. That alignment is tested before the form and bounds of the base is the model's
choice (DESIGN CHOICE, log entry 15). On conditions of the state and operands alone, these complete: the eleven AMO instructions. -/
def Obligations.Atomics : Prop :=
  (∀ (i : Instr) (op : Nat) (wide : BitVec 1) (sc : BitVec 3) (b a d : BitVec 5) (s u1 u2 u3 v : State) (y c : Word)
     (es : List (List Extent)) (e : Extent), amoOp i = some (op, wide, sc, b, a, d) → ready i s = true → s.my.operands = [] →
     s.my.wait = .none → [b].all (portOk s) = true → value s b = some y → value s d = some c →
     let w := if wide = 1#1 then 64 else 32
     (¬multiple (baseOf s a) 0 (w / 8) → Traps i s { code := 0x04, detail := 1, wr := true, val := baseOf s a }) ∧
     (multiple (baseOf s a) 0 (w / 8) →
       Does (check { read := true, write := true, sync := true, atomic := true, fadd := op == 10, scope := some sc.toNat,
                     phase := w == 64 && (op == 0 || op == 8),
                     phaseBad := op == 0 && !(decide (-(2 ^ 31) ≤ y.toInt) && decide (y.toInt ≤ 2 ^ 31 - 1)) } [(baseOf s a, 0, w / 8)])
         (taken s [b, d]) es u1 →
       es.flatten = [e] → Does (consume [e]) u1 () u1 → sc ≠ 6#3 → e.cell = false → e.mode ≠ 1 → e.mode ≠ 2 →
       Does (release sc.toNat) u1 () u2 →
       let r := u2.amoAt sc.toNat op w e (y.toNat % 2 ^ w) (c.toNat % 2 ^ w)
       let t := r.2.2.returnLine e.key
       Does (acquire sc.toNat) (if r.2.1 = .zero then t else t.updMy fun c => c.addCounts r.2.1) () u3 → steady u3 = true →
       written u3 d (if op = 3 ∨ op = 4 ∨ op = 10 then word r.1 else sext r.1 w) = some v → Goes i s v .seq)) ∧
  (∀ (i : Instr) (op : Nat) (wide : BitVec 1) (sc : BitVec 3) (b a d : BitVec 5) (s v : State) (y c : Word) (k : Nat),
     amoOp i = some (op, wide, sc, b, a, d) → sc.toNat < 5 → ready i s = true → s.my.operands = [] → s.my.wait = .none →
     portOk s b = true → value s b = some y → value s d = some c → settled s = true →
     let w := if wide = 1#1 then 64 else 32
     storeKeyAt s (baseOf s a) 0 (w / 8) true = some k → multiple (baseOf s a) 0 (w / 8) → cleanWords s k (w / 8) = true →
     let old := leNat (memRead s.mem k (w / 8))
     let u := ended (taken s [b, d])
     let r := amoNew op w old (y.toNat % 2 ^ w) (c.toNat % 2 ^ w)
     let t := ended (counted (match r.1 with | some x => u.putBytes k (leBytes (w / 8) x) | none => u) r.2)
     written t d (if op = 3 ∨ op = 4 ∨ op = 10 then word old else sext old w) = some v → Goes i s v .seq) ∧
  (∀ (i : Instr) (op : Nat) (wide : BitVec 1) (sc : BitVec 3) (b a d : BitVec 5) (s u1 u2 : State) (y c : Word) (es : List (List Extent))
     (e : Extent), amoOp i = some (op, wide, sc, b, a, d) → ready i s = true → s.my.operands = [] → s.my.wait = .none →
     portOk s b = true → value s b = some y → value s d = some c →
     let w := if wide = 1#1 then 64 else 32
     multiple (baseOf s a) 0 (w / 8) →
     (Does (check { read := true, write := true, sync := true, atomic := true, fadd := op == 10, scope := some sc.toNat
                    phase := w == 64 && (op == 0 || op == 8)
                    phaseBad := op == 0 && !(decide (-(2 ^ 31) ≤ y.toInt) && decide (y.toInt ≤ 2 ^ 31 - 1)) } [(baseOf s a, 0, w / 8)])
        (taken s [b, d]) es u1 → es.flatten = [e] → u1.badData e = none →
      (sc = 6#3 → settled u1 = true → u1.myCore.announced = false → exec i s =
        .next (announcedBy (ended u1) ⟨u1.me.1, u1.me.2, u1.windowsClosed, e.key, 2, op, wide == 1#1, y, c⟩)) ∧
      (sc ≠ 6#3 → e.cell = true → Does (release sc.toNat) u1 () u2 → exec i s =
        .next (({ u2 with phaseOps := u2.phaseOps ++ [⟨u2.me.1, u2.me.2, e.key, op == 8, y⟩] } : State).updMy fun c => { c with wait := .phase none })) ∧
      (sc ≠ 6#3 → e.cell = false → (e.mode = 1 ∨ e.mode = 2) → Does (release sc.toNat) u1 () u2 →
        let t := u2.recallAll e.key (w / 8)
        t.flying [e] = false → exec i s =
          .next ((t.send u2.me.1 u2.me.2 e.key (word e.va) [] (w / 8) (.atomic op (w == 64) y c)).updMy fun c =>
            { c with wait := .remote [t.fabric.nextPacket] [] }))) ∧
     (sc = 6#3 → pageBytes s (baseOf s a) 0 (w / 8) = some e → (s.spanDie = true → homeGalley e.key / 64 = dieOf s.me.1) → settled s = true →
       s.myCore.announced = false → exec i s =
         .next (announcedBy (ended (taken s [b, d])) ⟨s.me.1, s.me.2, s.windowsClosed, e.key, 2, op, wide == 1#1, y, c⟩))) ∧
  (∀ (i : Instr) (op : Nat) (wide : BitVec 1) (sc : BitVec 3) (b a d : BitVec 5) (s u v : State) (x y c : Word) (ids : List Nat)
     (got : List Host.Cell), amoOp i = some (op, wide, sc, b, a, d) → ready i s = true → s.my.operands = [] → portOk s b = true →
     (s.my.wait = .sc none ∨ s.my.wait = .phase none → Stalls i s) ∧
     (s.my.wait = .sc (some x) → value s b = some y → value s d = some c →
       let w := if wide = 1#1 then 64 else 32
       written (acquired (counted (taken (s.updMy fun c => { c with wait := .none }) [b, d])
         (amoNew op w (x.toNat % 2 ^ w) (y.toNat % 2 ^ w) (c.toNat % 2 ^ w)).2)) d x = some v → Goes i s v .seq) ∧
     (s.my.wait = .phase (some x) → Does (acquire sc.toNat) s () u → steady u = true → written u d x = some v → Goes i s v .seq) ∧
     (s.my.wait = .remote ids got →
       ((s.fabric.packets.any fun p => ids.contains p.id) = true → Stalls i s) ∧
       ((s.fabric.packets.any fun p => ids.contains p.id) = false → value s b = some y → value s d = some c →
         let w := if wide = 1#1 then 64 else 32
         let old := leNat (got.map Prod.snd)
         Does (acquire sc.toNat) (counted (taken s [b, d]) (amoNew op w old (y.toNat % 2 ^ w) (c.toNat % 2 ^ w)).2) () u → steady u = true →
         written u d (if op = 3 ∨ op = 4 ∨ op = 10 then word old else sext old w) = some v → Goes i s v .seq)))

/-- R118, R119, R203: RFLUSH sends the dirty bytes of a range home from every L1 and leaves them clean; RINV also takes them out; a
range of no bytes does nothing; both complete when no write packet for them is out. A range within one page that nothing hinders
is done outright. On conditions of the state and operands alone, these complete: RFLUSH, RINV. -/
def Obligations.FlushInvalidate : Prop :=
  ∀ (i : Instr) (inval : Bool) (b a : BitVec 5) (s u : State) (n : Word) (es : List (List Extent)),
    (i = .rflush b a ∧ inval = false ∨ i = .rinv b a ∧ inval = true) → ready i s = true → s.my.operands = [] → portOk s b = true →
    value s b = some n →
    (n = 0 → Goes i s (taken s [b]) .seq) ∧
    (n ≠ 0 → s.my.lost = none → settled s = true → ∀ e, pageBytes s (baseOf s a) 0 n.toNat = some e →
      let w := (taken s [b]).who.overExts [e]
      let t := (taken s [b]).flushRange w e.key e.len
      let t := if inval then t.invalidateRange w e.key e.len else t
      t.flying [e] = false → Goes i s (ended t) .seq) ∧
    (n ≠ 0 → Does (checkOnly { anyPerm := true } [(baseOf s a, 0, n.toNat)]) (taken s [b]) es u → u.my.lost = none → settled u = true →
      let fs := es.flatten.filter fun e => !isStore e.key && (u.windowLine e.key).isNone
      let w := u.who.overExts fs
      let t := fs.foldl (fun t e => t.flushRange w e.key e.len) u
      let t := if inval then fs.foldl (fun t e => t.invalidateRange w e.key e.len) t else t
      t.flying fs = false → Goes i s (ended t) .seq)

/-- R107 to R111: LDRO reads without a record and without a fill; LDF takes a full word of the own store and clears its full bit,
WAITF waits for it; PRE only prefetches, and nothing at all where it may not read its length; BMOV of no bytes does nothing, of
one byte between local stores moves it and steps its three registers, and one that is done goes on. That LDRO returns the latest bytes is
the model's reading of R107, which admits older ones (DEDUCED, log entry 5), and the 16 bytes that BMOV moves in a step are its choice
(DESIGN CHOICE, log entry 4). On conditions of the state
and operands alone, these complete: LDRO.W, LDRO.D, LDF, WAITF, PRE, BMOV. -/
def Obligations.ReadOnlyAndFullBits : Prop :=
  (∀ (i : Instr) (n : Nat) (b a d : BitVec 5) (s u w v : State) (x : Word) (es : List (List Extent)) (got : List Host.Cell),
    (i = .ldroW b a d ∧ n = 4 ∨ i = .ldroD b a d ∧ n = 8) → ready i s = true → s.my.operands = [] → [b, d].all (portOk s) = true →
    value s b = some x → Does (check { read := true } [(baseOf s a, x.toInt, n)]) (taken s [b]) es u →
    Does (consume es.flatten) u () u → Does (remoteReads es.flatten) u got w → steady w = true →
    written w d (extend true (w.overlay got es.flatten (w.seenBytes es.flatten))) = some v → Goes i s v .seq) ∧
  (∀ (i : Instr) (n : Nat) (b a d : BitVec 5) (s v : State) (x : Word) (m : List Byte),
    (i = .ldroW b a d ∧ n = 4 ∨ i = .ldroD b a d ∧ n = 8) → ready i s = true → s.my.operands = [] → [b, d].all (portOk s) = true →
    value s b = some x → settled s = true → storeBytes s (baseOf s a) x.toInt n = some m →
    written (taken s [b]) d (extend true m) = some v → Goes i s v .seq) ∧
  (∀ (b a d : BitVec 5) (s : State) (x : Word) (k : Nat), s.my.operands = [] → value s b = some x → portOk s b = true → settled s = true →
    storeKeyAt s (baseOf s a) x.toInt 8 false = some k → coreAt (bitsAt (baseOf s a) 56 6) (bitsAt (baseOf s a) 51 5) = s.me.1 →
    multiple (baseOf s a) x.toInt 8 →
    (s.full.contains ((k - 2 ^ 72) / 8) = true →
      (ready (.waitf b a) s = true → Goes (.waitf b a) s (taken s [b]) .seq) ∧
      (ready (.ldf b a d) s = true → portOk s d = true → cleanWords s k 8 = true →
        ∀ v, written { taken s [b] with full := s.full.filter fun w => w != (k - 2 ^ 72) / 8 } d (word (leNat (memRead s.mem k 8))) = some v →
          Goes (.ldf b a d) s v .seq)) ∧
    (s.full.contains ((k - 2 ^ 72) / 8) = false →
      (ready (.waitf b a) s = true → Stalls (.waitf b a) s) ∧
      (ready (.ldf b a d) s = true → portOk s d = true → Stalls (.ldf b a d) s))) ∧
  (∀ (b a : BitVec 5) (s : State) (n : Word), ready (.pre b a) s = true → s.my.operands = [] → portOk s b = true → value s b = some n →
    Goes (.pre b a) s ((taken s [b]).prefetch (baseOf s a) n.toNat) .seq) ∧
  (∀ (b a : BitVec 5) (s : State), ready (.pre b a) s = true → portOk s b = false → Goes (.pre b a) s s .seq) ∧
  (∀ (b a d : BitVec 5) (s u : State), ready (.bmov b a d) s = true →
    (s.my.reg b.toNat = 0 → Goes (.bmov b a d) s s .seq) ∧
    (s.my.reg b.toNat = 1 → settled s = true → ∀ m k x y z, storeBytes s (s.my.reg a.toNat) 0 1 = some m →
      storeKeyAt s (s.my.reg d.toNat) 0 1 true = some k → written (s.putBytes k m) a (s.my.reg a.toNat + 1) = some x →
      written x d (s.my.reg d.toNat + 1) = some y → written y b 0 = some z → z.my.reg b.toNat = 0 → Goes (.bmov b a d) s z .seq) ∧
    (Does (bmovBytes b a d 16 false) s true u → Goes (.bmov b a d) s u .seq) ∧
    (Does (bmovBytes b a d 16 false) s false u → exec (.bmov b a d) s = .next u))

/-! ### The end of a turn, forks, messages, tasks -/

/-- R82, R99, R100, R133, R142, R149: YIELD only makes the strand the last of the round robin; EXIT, once everything earlier has been
performed and the dirty bytes of other packages' memory have gone home, ends its interval and the strand; HALT holds the strand at the next instruction and tells the overseer core. EXIT
waits while an earlier access is not performed, and is illegal in a light handler. On conditions of the state and operands
alone, these complete: YIELD, EXIT, HALT. -/
def Obligations.TurnEnds : Prop :=
  ∀ s : State,
    (ready .yield s = true → leaf s.my = true → Goes .yield s (s.updMyCore fun c => { c with lastIssue := s.me.2 }) .seq) ∧
    (ready .exit s = true → s.my.lh = false → quiet s = true → exec .exit s = .next ((ended s).endStrand s.me.1 s.me.2)) ∧
    (ready .exit s = true → s.my.lh = false → allDone (s.cleanRemote s.me.1) = true →
      exec .exit s = .next ((released s).endStrand s.me.1 s.me.2)) ∧
    (ready .exit s = true → s.my.lh = false → allDone s = false → Stalls .exit s) ∧
    (ready .exit s = true → s.my.lh = true → Illegal .exit s 0x12) ∧
    (ready .halt s = true → s.my.lh = false → quiet s = true →
      exec .halt s = .next (((ended s).updMy fun c => { c with pc := s.my.pc + 4, st := .held }).notify (dieOf s.me.1)
        (.halted s.me.1 s.me.2 s.my.pc)))

/-- R83, R318, R322, R323: RFORK with 1 to 64 strands wanted releases at package scope, stores the number there are at its counter,
starts the recruits it finds, and gives the forker rank 0 of that number; any other number, or a fork in a handler, is an
illegal instruction. JOIN counts down: the last strand goes on with an acquire, every other ends. Both are done outright where
the counter lies in a page that nothing hinders. On conditions of the state and operands alone, these complete: RFORK, JOIN. -/
def Obligations.ForkJoin : Prop :=
  (∀ (b a d : BitVec 5) (s u v : State) (want : Word) (es : List (List Extent)), ready (.rfork b a d) s = true → s.my.operands = [] →
    portOk s b = true → value s b = some want →
    (want = 0 ∨ 64 < want.toNat ∨ leaf s.my = false → Illegal (.rfork b a d) s 0x70) ∧
    (want ≠ 0 → want.toNat ≤ 64 → leaf s.my = true → multiple (baseOf s a) 0 8 →
      Does (check { write := true, sync := true, localOnly := true } [(baseOf s a, 0, 8)]) (taken s [b]) es u → settled u = true →
      let list := (taken s [b]).forkList s.my.gang s.me.1 s.my.va (want.toNat - 1)
      let t := 1 + list.length
      let w := writtenOver false (ended u) es.flatten (leBytes 8 t)
      let r := w.startRecruits w.my w.me.1 w.my.team (w.my.pc + 4) d t 1 list []
      steady r = true → written r d (word (t * 2 ^ 32)) = some v → Goes (.rfork b a d) s v .seq) ∧
    (want ≠ 0 → want.toNat ≤ 64 → leaf s.my = true → multiple (baseOf s a) 0 8 → settled s = true →
      ∀ e, pageBytes s (baseOf s a) 0 8 = some e →
      let list := (taken s [b]).forkList s.my.gang s.me.1 s.my.va (want.toNat - 1)
      let t := 1 + list.length
      let w := writtenOver false (ended (taken s [b])) [e] (leBytes 8 t)
      let r := w.startRecruits w.my w.me.1 w.my.team (w.my.pc + 4) d t 1 list []
      steady r = true → written r d (word (t * 2 ^ 32)) = some v → Goes (.rfork b a d) s v .seq)) ∧
  (∀ (a : BitVec 5) (s u : State) (es : List (List Extent)) (e : Extent), ready (.join a) s = true → multiple (baseOf s a) 0 8 →
    (pageBytes s (baseOf s a) 0 8 = some e ∧ u = s ∨
      Does (check { read := true, write := true, sync := true, atomic := true, localOnly := true } [(baseOf s a, 0, 8)]) s es u ∧
      es.flatten = [e]) → u.badData e = none → quiet u = true →
    let old := leNat (memRead ((u.recallAll e.key 8).homeRead e.key 8).mem e.key 8)
    let w := (((ended u).recallAll e.key 8).homeRead e.key 8).homeWrite e.key (leBytes 8 (old - 1))
    (old = 0 ∨ 2 ^ 63 ≤ old → Traps (.join a) s { code := 0x06, detail := 0x71, wr := true, val := word e.va }) ∧
    (2 ≤ old → old < 2 ^ 63 → settled w = true → exec (.join a) s = .next ((ended w).endStrand w.me.1 w.me.2)) ∧
    (old = 1 → Goes (.join a) s (acquired w) .seq))

/-- R79, R82, R326: MIG refuses a strand with vectors, a pair or matrix work, and one with frames beyond the window; to its own core
it only releases; to another bound core the strand leaves, and resumes there after the MIG; outright where its address is a
local store of the tenant. The illegal migration comes before the SPILL because R79 names it first, and R61 raises exceptions in the order of
the description. That the EVAL of MIG's SPILL is the link of frame DEPTH + 2 − RES, where R65 has CAP for RES, is the model's reading (DEDUCED, log
entry 12), and so is what MIG checks of its target (DEDUCED, log entry 18). On conditions of the state and operands alone, these complete: MIG. -/
def Obligations.Migration : Prop :=
  ∀ (a : BitVec 5) (s : State), ready (.mig a) s = true → s.my.operands = [] → leaf s.my = true → portOk s a = true →
    (s.my.va ≠ 0 ∨ s.my.pairBit = true ∨ s.matrixFree s.me.1 s.me.2 = false → Traps (.mig a) s { code := 0x0B }) ∧
    (s.my.va = 0 → s.my.pairBit = false → s.matrixFree s.me.1 s.me.2 = true →
      (2 < s.my.res → Traps (.mig a) s { code := 0x07, val := s.my.toRegs.link (s.my.depth + 2 - s.my.res) }) ∧
      (s.my.res ≤ 2 → ∀ p dest va u, value s a = some p → Does (migTarget p) (taken s [a]) (dest, va) u →
        (s.bound dest s.my.tenant = false → Traps (.mig a) s { code := 0x06, detail := 0x10, val := va }) ∧
        (s.bound dest s.my.tenant = true → u.me = s.me → quiet u = true →
          (dest = s.me.1 → Goes (.mig a) s (ended u) .seq) ∧
          (dest ≠ s.me.1 → exec (.mig a) s = .next ((ended u).migrate s.me.1 s.me.2 dest ((ended u).my.pc + 4))))) ∧
      (s.my.res ≤ 2 → quiet s = true → ∀ p k, value s a = some p → storeKeyAt s p 0 1 false = some k →
        let dest := coreAt (bitsAt p 56 6) (bitsAt p 51 5)
        s.bound dest s.my.tenant = true →
        (dest = s.me.1 → Goes (.mig a) s (ended (taken s [a])) .seq) ∧
        (dest ≠ s.me.1 → exec (.mig a) s = .next ((ended (taken s [a])).migrate s.me.1 s.me.2 dest (s.my.pc + 4)))))

/-- R319, R320, R327: AMSG sends its message once, read outright from a local store, with a release at package scope, waits, and
completes with the reply it has been given; HMSG, with a release at system scope, puts 32 bytes into the die's buffer of host
messages, and waits while the buffer is full. On conditions of the state and operands alone, these complete: AMSG, HMSG. -/
def Obligations.Messages : Prop :=
  (∀ (b a d : BitVec 5) (s : State), ready (.amsg b a d) s = true →
    (∀ r u, s.my.wait = .amsg (some r) → written (s.updMy fun c => { c with wait := .none }) d (word r) = some u →
      Goes (.amsg b a d) s u .seq) ∧
    (s.my.wait = .amsg none → Stalls (.amsg b a d) s) ∧
    (∀ (m : List Byte) (q : Word) (u : State), s.my.wait = .none → s.my.operands = [] → portOk s b = true → value s b = some q →
      multiple (baseOf s a) 0 32 → Does (load (baseOf s a) 0 32) (taken s [b]) m u → messageOk (wordsOf m 4) = true →
      bitsAt ((wordsOf m 4).getD 0 0) 36 7 = 0 → settled u = true →
      let target := coreAt (bitsAt ((wordsOf m 4).getD 0 0) 56 6) (bitsAt ((wordsOf m 4).getD 0 0) 51 5)
      u.bound target u.my.tenant = true → (u.core target).dead = false →
      exec (.amsg b a d) s = .next (((ended u).updCore target fun c =>
        { c with amsgs := c.amsgs ++ [{ msg := wordsOf m 4, recs := [], tenant := u.my.tenant, sender := u.me }] }).updMy
          fun c => { c with wait := .amsg none })) ∧
    (∀ (m : List Byte) (q : Word), s.my.wait = .none → s.my.operands = [] → portOk s b = true → value s b = some q →
      multiple (baseOf s a) 0 32 → storeBytes s (baseOf s a) 0 32 = some m → messageOk (wordsOf m 4) = true →
      bitsAt ((wordsOf m 4).getD 0 0) 36 7 = 0 → settled s = true →
      let target := coreAt (bitsAt ((wordsOf m 4).getD 0 0) 56 6) (bitsAt ((wordsOf m 4).getD 0 0) 51 5)
      s.bound target s.my.tenant = true → (s.core target).dead = false →
      exec (.amsg b a d) s = .next (((ended (taken s [b])).updCore target fun c =>
        { c with amsgs := c.amsgs ++ [{ msg := wordsOf m 4, recs := [], tenant := s.my.tenant, sender := s.me }] }).updMy
          fun c => { c with wait := .amsg none }))) ∧
  (∀ (b a : BitVec 5) (s u : State) (x y : Word), ready (.hmsg b a) s = true → s.my.operands = [] → [a, b].all (portOk s) = true →
    value s a = some x → value s b = some y → drained s = true → u = released (taken s [a, b]) →
    let die := dieOf u.me.1
    let q := vget [] u.hostMsgs die
    let body := leBytes 8 x.toNat ++ leBytes 8 y.toNat ++ leBytes 2 u.my.tenant ++ leBytes 2 u.me.1 ++ leBytes 1 u.me.2
      ++ [0x01, 0, 0] ++ leBytes 8 u.my.pc.toNat
    (q.length < 32 → Goes (.hmsg b a) s (({ u with hostMsgs := vset u.hostMsgs die (q ++ [body]) } : State).drainHost die 32) .seq) ∧
    (32 ≤ q.length → Stalls (.hmsg b a) s))

/-- R139, R324, R325: TASK fills a free slot from its descriptor, ready at once where the counter is 0, and answers 0; for a slot
that is taken it answers 1 and changes nothing else. DEC releases, and its decrement is on its way; a value that is no slot
pointer, or a count outside 1 to 65,535, is refused, and so is the core of another tenant. That DEC tests the form of its pointer, then
count and reserved bits, then the binding, where R325 lists another order, is the model's reading (DEDUCED, log entry 15). On conditions of the state and
operands alone, these complete: TASK, DEC. -/
def Obligations.Tasks : Prop :=
  (∀ (a d : BitVec 5) (s u : State) (r : List Byte), ready (.task a d) s = true → multiple (baseOf s a) 0 32 →
    (settled s = true ∧ storeBytes s (baseOf s a) 0 32 = some r ∧ u = s ∨ Does (load (baseOf s a) 0 32) s r u ∧ steady u = true) →
    codeAddress (word (recField r 0 8)) = true → recField r 26 1 < 32 →
    recField r 27 1 < 4 → recField r 28 4 = 0 →
    ((vget none u.myCore.tasks (recField r 26 1)).isSome = true → ∀ v, written u d 1 = some v → Goes (.task a d) s v .seq) ∧
    (vget none u.myCore.tasks (recField r 26 1) = none → settled u = true →
      let t : Task := { counter := recField r 24 2, prio := recField r 27 1, pc := word (recField r 0 8), arg0 := word (recField r 8 8),
                        arg1 := word (recField r 16 8), team := u.my.team,
                        ready := if recField r 24 2 = 0 then some (ended u).myCore.readyStamp else none }
      ∀ v, written ((ended u).updMyCore fun c => { c with tasks := vset c.tasks (recField r 26 1) (some t) }) d 0 = some v →
        Goes (.task a d) s v .seq)) ∧
  (∀ (b a : BitVec 5) (s : State) (x n : Word), ready (.dec b a) s = true → s.my.operands = [] → [a, b].all (portOk s) = true →
    value s a = some x → value s b = some n →
    let target := coreAt (bitsAt x 56 6) (bitsAt x 51 5)
    (bitsAt x 62 2 ≠ 1 → Traps (.dec b a) s { code := 0x04, val := x }) ∧
    (bitsAt x 62 2 = 1 → (bitsAt x 5 46 ≠ 0 ∨ n = 0 ∨ 65535 < n.toNat) → Illegal (.dec b a) s 0x70) ∧
    (bitsAt x 62 2 = 1 → bitsAt x 5 46 = 0 → n ≠ 0 → n.toNat ≤ 65535 →
      (s.bound target s.my.tenant = false → Traps (.dec b a) s { code := 0x06, detail := 0x10, val := x }) ∧
      (s.bound target s.my.tenant = true → settled s = true →
        Goes (.dec b a) s ((ended (taken s [a, b])).post (.decArrival target (bitsAt x 0 5) n.toNat s.me.1 s.my.gang)) .seq)))

/-- R146 to R148, R328: PAIR answers 3 for a strand that is paired, 1 for no neighbour of the tenant, 2 for one without room; else
it couples the strand with a context there and answers 0. PAIR in a light handler is an illegal instruction with DETAIL 0x12, in a trap
handler one with DETAIL 0 (R133, R146). UNPAIR of a pair that agrees frees the secondary's context; of a
strand that is not paired it answers 1. GSTAT stores the gang's gathered counters. That PAIR answers 2 for a dead core is the model's
choice (DESIGN CHOICE, log entry 11), and that its own retirement is the first of the pair its reading (DEDUCED, log entry 15). On conditions of the state and operands
alone, these complete: PAIR, UNPAIR, GSTAT. -/
def Obligations.Pairs : Prop :=
  (∀ (a d : BitVec 5) (s v : State) (x : Word), ready (.pair a d) s = true → s.my.operands = [] → portOk s a = true →
    value s a = some x → (3 < x.toNat → Illegal (.pair a d) s 0x13) ∧
    (x.toNat ≤ 3 → s.my.lh = true → Illegal (.pair a d) s 0x12) ∧
    (x.toNat ≤ 3 → s.my.lh = false → s.my.trap = true → Illegal (.pair a d) s 0) ∧
    (x.toNat ≤ 3 → leaf s.my = true →
      (s.my.pairBit = true → written (taken s [a]) d 3 = some v → Goes (.pair a d) s v .seq) ∧
      (s.my.pairBit = false → neighbour s.me.1 x.toNat = none → written (taken s [a]) d 1 = some v → Goes (.pair a d) s v .seq) ∧
      (∀ n, s.my.pairBit = false → neighbour s.me.1 x.toNat = some n → s.bound n s.my.tenant = false →
        written (taken s [a]) d 1 = some v → Goes (.pair a d) s v .seq) ∧
      (∀ n, s.my.pairBit = false → neighbour s.me.1 x.toNat = some n → s.bound n s.my.tenant = true →
        let c := (taken s [a]).core n
        c.evicted = false →
        ((c.dead = true ∨ 64 < c.vaUsed + s.my.va ∨ c.claimable = []) → written (taken s [a]) d 2 = some v →
          Goes (.pair a d) s v .seq) ∧
        (∀ j l, c.dead = false → c.vaUsed + s.my.va ≤ 64 → c.claimable = j :: l →
          written (taken s [a]) d 0 = some v →
          exec (.pair a d) s = .next (((v.couple n j x.toNat).finish s.me.1 s.me.2 4 .seq).checkpointPair s.me.1 s.me.2))))) ∧
  (∀ (d : BitVec 5) (s v : State), ready (.unpair d) s = true → written s d 1 = some v → Goes (.unpair d) s v .seq) ∧
  (∀ (d : BitVec 5) (s t v : State) (p : PairRole), hasAgent s = true → wordError s.isHart (.unpair d) = none → s.my.pend = [] →
    s.comparePair s.me.1 s.me.2 = (t, true) → t.me = s.me → t.my.pend = [] → t.my.pair = some p → (p.core ≠ t.me.1 ∨ p.ctx ≠ t.me.2) →
    written ((t.updCtx p.core p.ctx Ctx.freed).updMy fun c => { c with pair := none, pairBit := false }) d 0 = some v →
    Goes (.unpair d) s v .seq) ∧
  (∀ (a : BitVec 5) (s u : State) (es : List (List Extent)), ready (.gstat a) s = true → multiple (baseOf s a) 0 8 →
    Does (check { write := true, plain := true } [(baseOf s a, 0, 128)]) s es u →
    Goes (.gstat a) s (writtenOver true u es.flatten ((u.bind u.my.gang).gstat.toList.flatMap fun n => leBytes 8 n)) .seq) ∧
  (∀ (a : BitVec 5) (s : State) (k : Nat), ready (.gstat a) s = true → multiple (baseOf s a) 0 8 → settled s = true →
    storeKeyAt s (baseOf s a) 0 128 true = some k →
    Goes (.gstat a) s (s.putBytes k ((s.bind s.my.gang).gstat.toList.flatMap fun n => leBytes 8 n)) .seq)

/-! ### Bound ports -/

/-- R125, R128, R158, R181 to R187: SBIND, QBIND and UNBIND bind v24 to v31 of a full allocation; a write stream waits until its
elements are written; QCTL appends a control element. A port field beyond the allocation is the illegal-register trap, one below v24 DETAIL 0x22
(R125, R181). A port that is bound already, or is not, is DETAIL 0x22, and so is a port of QCTL that
is no queue; a bad descriptor or word DETAIL 0x23; a neighbour off the mesh or of another tenant is the permission fault. That a bad word
of QCTL at a stream port is DETAIL 0x23 is the model's choice (DESIGN CHOICE, log entry 15). On conditions of the state
and operands alone, these complete: SBIND, QBIND, UNBIND, QCTL. -/
def Obligations.PortBinding : Prop :=
  (∀ (i : Instr) (d : BitVec 5) (s : State), (∃ x, i = .sbind x d ∨ i = .qbind x d ∨ i = .qctl x d) ∨ i = .unbind d → ready i s = true →
    (s.my.va < d.toNat + 1 → Traps i s { code := 0x02, val := wordOfInstr i }) ∧
    (d.toNat + 1 ≤ s.my.va → d.toNat < 24 → Illegal i s 0x22)) ∧
  ∀ (d : BitVec 5) (s : State), s.my.operands = [] → s.my.va ≠ 0 → d.toNat + 1 ≤ s.my.va → 24 ≤ d.toNat →
    (∀ (a : BitVec 5), ready (.sbind a d) s = true →
      (s.my.port d.toNat ≠ .plain → Illegal (.sbind a d) s 0x22) ∧
      (s.my.port d.toNat = .plain → multiple (baseOf s a) 0 32 → ∀ r u, Does (load (baseOf s a) 0 32) s r u →
        (streamOk r = false → Illegal (.sbind a d) s 0x23) ∧
        (streamOk r = true → Goes (.sbind a d) s (u.updMy fun c => c.setPort d.toNat (.stream { streamOf r with interval := c.interval, issued := u.tick })) .seq)) ∧
      (s.my.port d.toNat = .plain → multiple (baseOf s a) 0 32 → settled s = true → ∀ r, storeBytes s (baseOf s a) 0 32 = some r →
        streamOk r = true →
        Goes (.sbind a d) s (s.updMy fun c => c.setPort d.toNat (.stream { streamOf r with interval := s.my.interval, issued := s.tick })) .seq)) ∧
    (∀ (b : BitVec 5) (w : Word), ready (.qbind b d) s = true → portOk s b = true → value s b = some w → s.my.port d.toNat = .plain →
      (bitsAt w 4 60 ≠ 0 → Illegal (.qbind b d) s 0x23) ∧
      (bitsAt w 4 60 = 0 → ∀ n, neighbour s.me.1 (bitsAt w 0 2) = some n → s.bound n s.my.tenant = true →
        Goes (.qbind b d) s ((taken s [b]).updMy fun c => c.setPort d.toNat (.queue (bitsAt w 0 2) (bitsAt w 2 2))) .seq) ∧
      (bitsAt w 4 60 = 0 → neighbour s.me.1 (bitsAt w 0 2) = none → Traps (.qbind b d) s { code := 0x06, detail := 0x30 + bitsAt w 0 2 }) ∧
      (bitsAt w 4 60 = 0 → ∀ n, neighbour s.me.1 (bitsAt w 0 2) = some n → s.bound n s.my.tenant = false →
        Traps (.qbind b d) s { code := 0x06, detail := 0x30 + bitsAt w 0 2 })) ∧
    (∀ b : BitVec 5, ready (.qbind b d) s = true → portOk s b = true → s.my.port d.toNat ≠ .plain → Illegal (.qbind b d) s 0x22) ∧
    (ready (.unbind d) s = true →
      (s.my.port d.toNat = .plain → Illegal (.unbind d) s 0x22) ∧
      (∀ dir ch, s.my.port d.toNat = .queue dir ch → Goes (.unbind d) s (s.updMy fun c => c.setPort d.toNat .plain) .seq) ∧
      (∀ t, s.my.port d.toNat = .stream t → (t.write = false ∨ (t.fault = none ∧ t.buf = [] ∧
        (s.fabric.packets.any fun p => p.core == s.me.1 && p.agent == s.me.2) = false)) →
        Goes (.unbind d) s (s.updMy fun c => c.setPort d.toNat .plain) .seq) ∧
      (∀ t, s.my.port d.toNat = .stream t → t.write = true → t.fault = none → t.buf ≠ [] → Stalls (.unbind d) s) ∧
      (∀ t f, s.my.port d.toNat = .stream t → t.write = true → t.fault = some f → f.code ∉ [0x01, 0x02, 0x15] →
        exec (.unbind d) s = .next (s.takeTrap s.me.1 s.me.2 f s.my.pc [.stream (d.toNat - 24)]))) ∧
    (∀ a : BitVec 5, ready (.qctl a d) s = true → portOk s a = true →
      (s.my.port d.toNat = .plain → Illegal (.qctl a d) s 0x22) ∧
      (∀ t w, s.my.port d.toNat = .stream t → value s a = some w → Illegal (.qctl a d) s (if bitsAt w 63 1 = 0 then 0x22 else 0x23))) ∧
    (∀ (a : BitVec 5) (dir ch : Nat) (w : Word), ready (.qctl a d) s = true → portOk s a = true → s.my.port d.toNat = .queue dir ch →
      value s a = some w →
      (bitsAt w 63 1 ≠ 0 → Illegal (.qctl a d) s 0x23) ∧
      (bitsAt w 63 1 = 0 → match (taken s [a]).sendElement s.me.1 dir ch (w.zeroExtend 4096, true) with
        | some t => Goes (.qctl a d) s t .seq
        | none => Stalls (.qctl a d) s))

/-! ### Copies and the compositor -/

/-- R215, R216, R219, R221, R222, R224, R226 to R228: CPY, CPY.S and CPY.G: a copy of no bytes only releases. A request under a tag
that is free, at the current topology generation, with room in the queue, releases at core scope, clears the tag's bit of CTAG
and stands in the queue; the issuing strand goes on. A descriptor may lie in a local store. A request of some bytes that names a tag whose
fault was raised resumes its copy and waits. Ranges that share a byte are the address fault with DETAIL 0x03. Its WR of 1, the slot that a
request takes, and what a copy of no bytes does besides its release are the model's readings (DEDUCED, log entry 20). CWAIT.ANY answers the lowest tag of its mask that has completed, and 64 for the
empty mask; CWAIT.ALL waits for every tag; both then acquire. CFIND answers a tag's status, and with bit 8 abandons a copy that
has stopped. On conditions of the state and operands alone, these complete: CPY, CPY.S, CPY.G, CWAIT.ANY, CWAIT.ALL, CFIND. -/
def Obligations.Copies : Prop :=
  (∀ (form tag slot : Nat) (desc : List Word) (s : State), s.me.2 ≤ 8 → mayCopy s tag slot = true →
    Does (issueCopy form tag desc) s () (requested form tag slot desc s)) ∧
  (∀ (i : Instr) (h : BitVec 2) (t : BitVec 4) (s : State),
    ((∃ b a d x, i = .cpy h t b a d ∧ s.my.operands = [] ∧ portOk s b = true ∧ value s b = some x ∧ x ≠ 0) ∨ (∃ b, i = .cpyS h t b) ∨ ∃ b, i = .cpyG h t b) →
    ready i s = true → s.my.operands = [] → raisedCopy s (h.toNat * 16 + t.toNat) = true →
    exec i s = .next (s.updMyCore fun k => k.updCopy (h.toNat * 16 + t.toNat) fun p => p.resume s.my.tgen)) ∧
  (∀ (h : BitVec 2) (t : BitVec 4) (b a d : BitVec 5) (s : State) (x : Word), let i := Instr.cpy h t b a d
    ready i s = true → s.my.operands = [] → portOk s b = true → value s b = some x → (x = 0 ∨ raisedCopy s (h.toNat * 16 + t.toNat) = false) →
    (2 ^ 48 ≤ x.toNat → Illegal i s 0x30) ∧
    (x.toNat < 2 ^ 48 → ∀ e, resolve (baseOf s a) 0 x.toNat false = .error e → Traps i s e) ∧
    (x = 0 → ∀ m n, resolve (baseOf s a) 0 0 false = .ok m → resolve (baseOf s d) 0 0 true = .ok n → settled s = true →
      Goes i s (ended (taken s [b])) .seq) ∧
    (x ≠ 0 → x.toNat < 2 ^ 48 → ∀ m n, resolve (baseOf s a) 0 x.toNat false = .ok m → resolve (baseOf s d) 0 x.toNat true = .ok n →
      (shareByte (baseOf s a) (baseOf s d) x.toNat = true → Traps i s { code := 0x04, detail := 3, wr := true, val := baseOf s d }) ∧
      (shareByte (baseOf s a) (baseOf s d) x.toNat = false → ∀ slot, mayCopy s (h.toNat * 16 + t.toNat) slot = true →
        Goes i s (requested 0 (h.toNat * 16 + t.toNat) slot [baseOf s a, baseOf s d, x] (taken s [b])) .seq) ∧
      (shareByte (baseOf s a) (baseOf s d) x.toNat = false → ∀ u,
        Does (issueCopy 0 (h.toNat * 16 + t.toNat) [baseOf s a, baseOf s d, x]) (taken s [b]) () u → Goes i s u .seq))) ∧
  (∀ (i : Instr) (h : BitVec 2) (t : BitVec 4) (b : BitVec 5) (s u v : State) (bs : List Byte),
    ready i s = true → multiple (baseOf s b) 0 64 → raisedCopy s (h.toNat * 16 + t.toNat) = false → Does (load (baseOf s b) 0 64) s bs u →
    (i = .cpyS h t b → (shapedOk bs = false → Illegal i s 0x30) ∧
      (shapedOk bs = true → Does (issueCopy 2 (h.toNat * 16 + t.toNat) (wordsOf bs 8)) u () v → Goes i s v .seq)) ∧
    (i = .cpyG h t b → (gatherOk bs = false → Illegal i s 0x30) ∧
      (gatherOk bs = true → Does (issueCopy 1 (h.toNat * 16 + t.toNat) (wordsOf bs 8)) u () v → Goes i s v .seq))) ∧
  (∀ (h : BitVec 2) (t : BitVec 4) (b : BitVec 5) (s : State) (slot : Nat) (bs : List Byte), multiple (baseOf s b) 0 64 →
    storeBytes s (baseOf s b) 0 64 = some bs → mayCopy s (h.toNat * 16 + t.toNat) slot = true →
    (ready (.cpyS h t b) s = true → shapedOk bs = true →
      Goes (.cpyS h t b) s (requested 2 (h.toNat * 16 + t.toNat) slot (wordsOf bs 8) s) .seq) ∧
    (ready (.cpyG h t b) s = true → gatherOk bs = true →
      Goes (.cpyG h t b) s (requested 1 (h.toNat * 16 + t.toNat) slot (wordsOf bs 8) s) .seq)) ∧
  (∀ (a d : BitVec 5) (s v : State) (m : Word), ready (.cwaitAny a d) s = true → s.my.operands = [] → portOk s a = true →
    value s a = some m →
    (m = 0 → written (ended (taken s [a])) d 64 = some v → Goes (.cwaitAny a d) s v .seq) ∧
    (m ≠ 0 → s.myCore.faulted m true = [] → s.myCore.faulted m false = [] →
      (∀ t, ((tagsOf m).find? fun t => s.myCore.ctag.getLsbD t) = some t → written (ended (taken s [a])) d (word t) = some v →
        Goes (.cwaitAny a d) s v .seq) ∧
      (((tagsOf m).find? fun t => s.myCore.ctag.getLsbD t) = none → Stalls (.cwaitAny a d) s))) ∧
  (∀ (a : BitVec 5) (s : State) (m : Word), ready (.cwaitAll a) s = true → s.my.operands = [] → portOk s a = true →
    value s a = some m → s.myCore.faulted m true = [] → s.myCore.faulted m false = [] →
    (s.myCore.ctag &&& m = m → Goes (.cwaitAll a) s (ended (taken s [a])) .seq) ∧
    (s.myCore.ctag &&& m ≠ m → Stalls (.cwaitAll a) s)) ∧
  (∀ (a d : BitVec 5) (s v : State) (q : Word), ready (.cfind a d) s = true → s.my.operands = [] → portOk s a = true →
    value s a = some q →
    (bitsAt q 6 2 ≠ 0 ∨ bitsAt q 9 55 ≠ 0 → Illegal (.cfind a d) s 0x30) ∧
    (bitsAt q 6 2 = 0 → bitsAt q 9 55 = 0 → written (taken s [a]) d (s.myCore.tagStatus (bitsAt q 0 6)) = some v →
      match vget none s.myCore.copies (bitsAt q 0 6) with
      | some p =>
        Goes (.cfind a d) s (if q.getLsbD 8 = true ∧ p.fault.isSome = true then (v.abandonCopy v.me.1 (bitsAt q 0 6)).gangCheck (v.team p.team).gang
          else v) .seq
      | none => Goes (.cfind a d) s v .seq))

/-- R150, R213, R214, R229, R231: EVK fills or clears one of four kernels; CTAKE gives the hart the oldest item in g0 to g2 and takes it
from the queue; CSTART starts a taken request where a transfer unit is free, and is illegal for any other handle; KICK releases
and answers the status of the engine its selector names; a kick at the matrix unit that reads a shape record with an uncorrectable error
kills the core (R150). That EVK with WLEN 0 checks no other field, and that a slot is free as freeSlot has it over queued and taken
requests, are the model's readings (DEDUCED, log entry 20). On conditions of the state and operands alone, these complete: EVK,
CTAKE, CSTART, KICK. -/
def Obligations.Compositor : Prop :=
  (∀ (b a : BitVec 5) (s u : State) (slot : Word) (bs : List Byte), ready (.evk b a) s = true → s.my.operands = [] → portOk s b = true →
    value s b = some slot →
    (4 ≤ slot.toNat → Illegal (.evk b a) s 0x30) ∧
    (slot.toNat < 4 → multiple (baseOf s a) 0 32 →
      (settled s = true ∧ storeBytes s (baseOf s a) 0 32 = some bs ∧ u = taken s [b] ∨ Does (load (baseOf s a) 0 32) (taken s [b]) bs u) →
      (recField bs 8 4 = 0 → Goes (.evk b a) s (u.updMyCore fun c => { c with kernels := vset c.kernels slot.toNat none }) .seq) ∧
      (recField bs 8 4 ≠ 0 → kernelOk bs = false → Illegal (.evk b a) s 0x30) ∧
      (recField bs 8 4 ≠ 0 → kernelOk bs = true → Goes (.evk b a) s (u.updMyCore fun c =>
        { c with kernels := vset c.kernels slot.toNat (some ⟨word (recField bs 0 8), recField bs 8 4, recField bs 12 1 == 1, recField bs 13 1,
            recField bs 14 2, word (recField bs 16 8)⟩) }) .seq))) ∧
  (∀ (s : State), ready .ctake s = true →
    (s.myCore.queue = [] → Stalls .ctake s) ∧
    (∀ i t, s.myCore.queue = i :: t → let w := itemWords s.myCore i
      Goes .ctake s ((s.updMyCore fun c => { c with queue := t, taken := match i with | .copy slot tag => c.taken ++ [(slot, tag)] | _ => c.taken }).updMy
        fun c => ((c.setG 1 w.2.1).setG 2 w.2.2).setG 0 w.1) .seq)) ∧
  (∀ (a : BitVec 5) (s : State) (h : Word), ready (.cstart a) s = true → s.my.operands = [] → portOk s a = true → value s a = some h →
    match s.myCore.taken.find? fun p => h == word p.1 with
    | none => Illegal (.cstart a) s 0
    | some (slot, tag) =>
      (4 ≤ s.myCore.unitsBusy → Stalls (.cstart a) s) ∧
      (s.myCore.unitsBusy < 4 → Goes (.cstart a) s (({ taken s [a] with nextId := s.nextId + 1 } : State).updMyCore fun c =>
        { c.updCopy tag fun p => { p with started := true, interval := s.nextId } with
          taken := c.taken.eraseP fun p => p.1 == slot }) .seq)) ∧
  (∀ (b a d : BitVec 5) (s u v : State) (w x : Word), ready (.kick b a d) s = true → s.my.operands = [] → [b, a].all (portOk s) = true →
    value s b = some w → value s a = some x →
    (4 ≤ x.toNat → Illegal (.kick b a d) s 0x30) ∧
    (x = 1 → intact s (kickedExts s.me.1 w) = false → exec (.kick b a d) s = .next ((taken s [b, a]).killCore s.me.1)) ∧
    (x.toNat < 3 → (x = 1 → intact s (kickedExts s.me.1 w) = true) → settled s = true → u = ended (taken s [b, a]) → steady (u.kick x.toNat w).2 = true →
      written (u.kick x.toNat w).2 d (word (u.kick x.toNat w).1) = some v → Goes (.kick b a d) s v .seq) ∧
    (x = 3 → ∀ q, Does (collReady w) (taken s [b, a]) () q → Does (release 4) q () u → steady (u.kick 3 w).2 = true →
      written (u.kick 3 w).2 d (word (u.kick 3 w).1) = some v → Goes (.kick b a d) s v .seq)) ∧
  (∀ (s : State) (w : Word), s.kick 2 w = (2, s) ∧ (s.myCore.freeSlot = none → s.kick 0 w = (1, s)) ∧
    (∀ slot, s.myCore.freeSlot = some slot → s.kick 0 w = (0, s.updMyCore fun c => { c with queue := c.queue ++ [.kick slot w] })))

/-! ### Vectors -/

/-- R125, R128, R130, R138, R183: a vector field reads its register; or, bound to a queue, takes the oldest element of the channel;
bound to a read stream, the oldest element fetched. A write goes to the register; to the neighbour's channel; to the end of
the write stream. An empty queue, a read stream whose next element is on its way, and a write stream that holds 4 wait. A fault that a
stream's element met is raised. Past its last element a read stream gives its end-of-stream element once, where it is marked, and DETAIL
0x24 otherwise; so does a write beyond a write stream's last. -/
def Obligations.VectorOperands : Prop :=
  ∀ (s : State) (f : BitVec 5), s.me.2 ≤ 8 → s.my.pend = [] → s.my.pair = none →
    (s.my.port f.toNat = .plain →
      Does (vsrc f) s (vget 0 s.my.vregs f.toNat) s ∧
      (∀ v, Does (vdst f v) s () (s.updMy fun c => { c with vregs := vset c.vregs f.toNat v })) ∧
      (∀ v (la : BitVec 4), la ≠ 0#4 → Does (vdstLa la f v) s () (s.updMy fun c => { c with pend := [⟨la.toNat + 1, .vreg f.toNat v⟩] }))) ∧
    (∀ dir ch, s.my.port f.toNat = .queue dir ch → s.my.operands = [] →
      (vget [] s.myCore.chan (dir * 4 + ch) = [] → vsrc f s = .error .stall) ∧
      (∀ v q, vget [] s.myCore.chan (dir * 4 + ch) = (v, false) :: q →
        Does (vsrc f) s v ((s.updMyCore fun c =>
          { c.drew (4 + (dir * 4 + ch)) 0 with chan := vset c.chan (dir * 4 + ch) ((vget [] c.chan (dir * 4 + ch)).drop 1) }).updMy
          fun c => { c with operands := put c.operands (64 + f.toNat) v, draws := put c.draws (64 + f.toNat) (s.myCore.drawNo (4 + (dir * 4 + ch))) })) ∧
      (∀ v, match (s.updMy fun c => c).sendElement s.me.1 dir ch (v, false) with
        | some t => Does (vdst f v) s () t
        | none => vdst f v s = .error .stall)) ∧
    (∀ t, s.my.port f.toNat = .stream t → s.my.operands = [] →
      (t.write = false → ∀ v q, t.buf = v :: q →
        Does (vsrc f) s v ((s.updMy fun c => c.setPort f.toNat (.stream { t with buf := q, next := t.next + 1 })).updMy
          fun c => { c with operands := put c.operands (64 + f.toNat) v, draws := put c.draws (64 + f.toNat) 0 })) ∧
      (t.write = false → t.buf = [] → ∀ e, t.fault = some e → vsrc f s = .error (.trap e [.stream (f.toNat - 24)])) ∧
      (t.write = false → t.buf = [] → t.fault = none →
        (t.next < t.total → vsrc f s = .error .stall) ∧
        (t.total ≤ t.next → (t.mark = false ∨ t.ended = true) → vsrc f s = .error (.trap { code := 0x01, detail := 0x24 } [])) ∧
        (t.total ≤ t.next → t.mark = true → t.ended = false →
          (s.my.lh = true → vsrc f s = .error (.trap { code := 0x01, detail := 0x10 } [])) ∧
          (s.my.lh = false → bitsAt (s.hset s.me.1 s.me.2) 0 1 = 0 → vsrc f s = .error (.trap { code := 0x01, detail := 0x11 } [])) ∧
          (s.my.lh = false → bitsAt (s.hset s.me.1 s.me.2) 0 1 = 1 → vsrc f s =
            .error (.light (word (0xC000000000000000 + (f.toNat - 24))) (s.updMy fun c => c.setPort f.toNat (.stream { t with ended := true })))))) ∧
      (t.write = true → ∀ e v, t.fault = some e → vdst f v s = .error (.trap e [.stream (f.toNat - 24)])) ∧
      (t.write = true → t.fault = none → t.next < t.total → 4 ≤ t.buf.length → ∀ v, vdst f v s = .error .stall) ∧
      (t.write = true → t.fault = none → t.next < t.total → t.buf.length < 4 →
        ∀ v, Does (vdst f v) s () ((s.updMy fun c => c).updMy fun c =>
          c.setPort f.toNat (.stream { t with buf := t.buf ++ [v], stamps := t.stamps ++ [(s.my.interval, s.tick)], next := t.next + 1 }))) ∧
      (t.write = true → t.fault = none → t.total ≤ t.next → ∀ v, vdst f v s = .error (.trap { code := 0x01, detail := 0x24 } [])))

/-- R130, R131, R132: a vector move that finds a control element at its port enters the light handler, where HSET.EN is 1: LPC is
the move's address, LCV the control word, LH is 1, the strand goes on at HSET.ADDR, and the control element is gone. With
HSET.EN 0 it is an illegal instruction with DETAIL 0x11, in a light handler with DETAIL 0x10. -/
def Obligations.LightHandlers : Prop :=
  ∀ (m : BitVec 1) (r : BitVec 2) (b a d : BitVec 5) (s : State) (v : Vec), ready (.vmov m r b a d) s = true → s.my.operands = [] →
    (laneTypeOf anyType s.my).isSome = true → allocatedTo s.my [(b, 1), (d, 1)] = true → usable s.my [b] [d] = true →
    s.my.port b.toNat ≠ .plain → s.portHead (b.toNat - 24) (s.my.port b.toNat) = .elem (v, true) →
    (s.my.lh = true → Illegal (.vmov m r b a d) s 0x10) ∧
    (s.my.lh = false → bitsAt (s.hset s.me.1 s.me.2) 0 1 = 0 → Illegal (.vmov m r b a d) s 0x11) ∧
    (s.my.lh = false → bitsAt (s.hset s.me.1 s.me.2) 0 1 = 1 →
      exec (.vmov m r b a d) s = .next ((s.popPort b.toNat).updMy fun c =>
        ({ c with lpc := s.my.pc, lcv := word (v.toNat % 2 ^ 64), lh := true, pc := word (bitsAt (s.hset s.me.1 s.me.2) 1 55 * 2),
                  st := .eligible, arrived := .none, wait := .none } : Ctx).count 11 1))

/-- R57, R155 to R160, R162, R163: a lane operation of two sources, of one, or of three, in its 32-bit or 16-bit form, with its lane
type admitted, its fields allocated, and operands to be read, writes the element-wise result to its destination and counts its
events; outright, where its fields are registers. VXCHG exchanges the active elements of two registers. A type that it does not
admit is an illegal instruction with DETAIL 0x20, a field beyond the allocation an illegal register. On conditions of the state
and operands alone, these complete: each instruction that laneTwo, laneOne and fusedOf list, 16-bit and 32-bit, and VXCHG in
both lengths. -/
def Obligations.LaneOperations : Prop :=
  (∀ (i : Instr) (op : LaneOp) (s : State) (t : ETy), laneTwo i = some op → ready i s = true → laneTypeOf op.admits s.my = some t →
     registers s.my [(op.a, 1), (op.b, 1), (op.d, 1)] = true →
     let r := lanes s.my op.mask t.width (held s op.d) fun k => op.f t (elemOf (held s op.a) t.width k) (elemOf (held s op.b) t.width k)
     Goes i s (counted (putVec 0 op.d r.1 s) r.2) .seq) ∧
  (∀ (i : Instr) (op : LaneOp) (s : State) (t : ETy), laneOne i = some op → ready i s = true → laneTypeOf op.admits s.my = some t →
     registers s.my [(op.b, 1), (op.d, 1)] = true →
     let r := lanes s.my op.mask t.width (held s op.d) fun k => op.f t (elemOf (held s op.b) t.width k) (elemOf (held s op.b) t.width k)
     Goes i s (counted (putVec 0 op.d r.1 s) r.2) .seq) ∧
  (∀ (i : Instr) (np na : Bool) (m : BitVec 1) (rm : BitVec 2) (b a d : BitVec 5) (s : State) (t : ETy),
     fusedOf i = some (np, na, m, rm, b, a, d) → ready i s = true → laneTypeOf anyType s.my = some t →
     registers s.my [(a, 1), (b, 1), (d, 1)] = true →
     let r := lanes s.my m t.width (held s d) fun k =>
       fusedElem np na (rmOf rm) t (elemOf (held s a) t.width k) (elemOf (held s b) t.width k) (elemOf (held s d) t.width k)
     Goes i s (counted (putVec 0 d r.1 s) r.2) .seq) ∧
  (∀ (i : Instr) (op : LaneOp) (s u v : State) (t : ETy) (x y : Vec), laneTwo i = some op → ready i s = true →
    laneTypeOf op.admits s.my = some t → allocatedTo s.my [(op.a, 1), (op.b, 1), (op.d, 1)] = true → usable s.my [op.a, op.b] [op.d] = true →
    Does (vsrc2 op.a op.b) s (x, y) u →
    let r := lanes u.my op.mask t.width (before u.my op.d) fun k => op.f t (elemOf x t.width k) (elemOf y t.width k)
    Does (vdst op.d r.1) u () v → Goes i s (counted v r.2) .seq) ∧
  (∀ (i : Instr) (op : LaneOp) (s u v : State) (t : ETy) (y : Vec), laneOne i = some op → ready i s = true →
    laneTypeOf op.admits s.my = some t → allocatedTo s.my [(op.b, 1), (op.d, 1)] = true → usable s.my [op.b] [op.d] = true →
    Does (vsrc op.b) s y u →
    let r := lanes u.my op.mask t.width (before u.my op.d) fun k => op.f t (elemOf y t.width k) (elemOf y t.width k)
    Does (vdst op.d r.1) u () v → Goes i s (counted v r.2) .seq) ∧
  (∀ (i : Instr) (np na : Bool) (m : BitVec 1) (rm : BitVec 2) (b a d : BitVec 5) (s u v : State) (t : ETy) (x y z : Vec),
    fusedOf i = some (np, na, m, rm, b, a, d) → ready i s = true → laneTypeOf anyType s.my = some t →
    allocatedTo s.my [(a, 1), (b, 1), (d, 1)] = true → usable s.my [a, b, d] [d] = true → Does (vsrc3 a b d) s (x, y, z) u →
    let r := lanes u.my m t.width (before u.my d) fun k => fusedElem np na (rmOf rm) t (elemOf x t.width k) (elemOf y t.width k) (elemOf z t.width k)
    Does (vdst d r.1) u () v → Goes i s (counted v r.2) .seq) ∧
  (∀ (i : Instr) (op : LaneOp) (s : State), (laneTwo i = some op ∨ laneOne i = some op) → ready i s = true →
    (laneTypeOf op.admits s.my = none → Illegal i s 0x20) ∧
    ((laneTypeOf op.admits s.my).isSome = true → allocatedTo s.my [(op.b, 1), (op.d, 1)] = false →
      Traps i s { code := 0x02, val := wordOfInstr i })) ∧
  (∀ (i : Instr) (m : BitVec 1) (b d : BitVec 5) (s : State) (t : ETy),
     ((∃ r a, i = .vxchg m r b a d) ∨ i = .vxchgLForm m b d) → ready i s = true → laneTypeOf anyType s.my = some t →
     allocatedTo s.my [(b, 1), (d, 1)] = true → s.my.port b.toNat = .plain → s.my.port d.toNat = .plain →
     let x := vget 0 s.my.vregs d.toNat
     let y := vget 0 s.my.vregs b.toNat
     let xd := (lanes s.my m t.width x fun k => (elemOf y t.width k, .zero)).1
     let yb := (lanes s.my m t.width y fun k => (elemOf x t.width k, .zero)).1
     (b ≠ d → Goes i s (s.updMy fun c => { c with vregs := vset (vset c.vregs d.toNat xd) b.toNat yb }) .seq) ∧
     (b = d → Goes i s (s.updMy fun c => { c with vregs := vset c.vregs d.toNat xd }) .seq))

/-- R35, R153, R164 to R166: the widening operations write a pair or quad of registers, source element i to register i mod ratio;
VNSHR narrows a pair; outright, where the fields are registers. A group that does not start at a multiple of its size is DETAIL
0x21, a rounding mode of VQMAC DETAIL 0x20. On conditions of the state and operands alone, these complete: VWADD, VWSUB, VWMUL,
VWMAC, VQMAC, VNSHR. -/
def Obligations.Widening : Prop :=
  (∀ (i : Instr) (op : WideOp) (s : State) (t w : ETy), wideOp i = some op → ready i s = true →
    laneTypeOf (fun t => (op.wide t).isSome) s.my = some t → op.wide t = some w → op.d.toNat % op.ratio = 0 →
    registers s.my [(op.a, 1), (op.b, 1), (op.d, op.ratio)] = true →
    let r := spread s.my op.mask op.d op.ratio w.width fun k =>
      op.f t w (elemOf (held s op.a) t.width k) (elemOf (held s op.b) t.width k)
        (elemOf (vget 0 s.my.vregs (op.d.toNat + k % op.ratio)) w.width (k / op.ratio))
    Goes i s (counted (putGroup 0 op.d r.1 s) r.2) .seq) ∧
  (∀ (m : BitVec 1) (r : BitVec 2) (b a d : BitVec 5) (s : State) (t w : ETy), ready (.vnshr m r b a d) s = true →
    laneTypeOf (fun t => !t.isFloat && decide (t.width ≤ 32)) s.my = some t → wideOf t = some w → a.toNat % 2 = 0 →
    registers s.my [(a, 2), (b, 1), (d, 1)] = true →
    let q := lanes s.my m t.width (held s d) fun k =>
      let e := w.value (elemOf (vget 0 s.my.vregs (a.toNat + k % 2)) w.width (k / 2))
      toIntTy t (roundToInt (rmOf r) (decide (e < 0)) e.natAbs (-((elemOf (held s b) t.width k % 256 : Nat) : Int)))
    Goes (.vnshr m r b a d) s (counted (putVec 0 d q.1 s) q.2) .seq) ∧
  (∀ (i : Instr) (op : WideOp) (s u v : State) (t w : ETy) (x y : Vec), wideOp i = some op → ready i s = true →
    laneTypeOf (fun t => (op.wide t).isSome) s.my = some t → op.wide t = some w →
    (op.d.toNat % op.ratio ≠ 0 → Illegal i s 0x21) ∧
    (op.d.toNat % op.ratio = 0 → allocatedTo s.my [(op.a, 1), (op.b, 1), (op.d, op.ratio)] = true → usable s.my [op.a, op.b] [] = true →
      unbound s.my op.d op.ratio = true → Does (vsrc2 op.a op.b) s (x, y) u →
      let r := spread u.my op.mask op.d op.ratio w.width fun k =>
        op.f t w (elemOf x t.width k) (elemOf y t.width k) (elemOf (vget 0 u.my.vregs (op.d.toNat + k % op.ratio)) w.width (k / op.ratio))
      Does (vdstGroup 0 op.d 0 r.1) u () v → Goes i s (counted v r.2) .seq)) ∧
  (∀ (m : BitVec 1) (r : BitVec 2) (b a d : BitVec 5) (s : State), ready (.vqmac m r b a d) s = true → r ≠ 0#2 → Illegal (.vqmac m r b a d) s 0x20) ∧
  (∀ (m : BitVec 1) (r : BitVec 2) (b a d : BitVec 5) (s u v : State) (t w : ETy) (y : Vec), ready (.vnshr m r b a d) s = true →
    laneTypeOf (fun t => !t.isFloat && decide (t.width ≤ 32)) s.my = some t → wideOf t = some w → a.toNat % 2 = 0 →
    allocatedTo s.my [(a, 2), (b, 1), (d, 1)] = true → usable s.my [b] [d] = true → unbound s.my a 2 = true → Does (vsrc b) s y u →
    let q := lanes u.my m t.width (before u.my d) fun k =>
      let e := w.value (elemOf (vget 0 u.my.vregs (a.toNat + k % 2)) w.width (k / 2))
      toIntTy t (roundToInt (rmOf r) (decide (e < 0)) e.natAbs (-((elemOf y t.width k % 256 : Nat) : Int)))
    Does (vdst d q.1) u () v → Goes (.vnshr m r b a d) s (counted v q.2) .seq)

/-- R29 to R31, R35, R153, R171 to R176: VCVT converts a register to a type of the same width, VCVTW to one of two or four times the
width, VCVTN to one of a half or a quarter; with the statistics bit x, AMAX takes the largest magnitude of the active source
elements, register by register. QNT reads a group of 512 wide elements and writes their codes and their 16 scales; DQNT reads
codes and scales and writes the group. Where the fields are registers, the five are done outright. On conditions of the state
and operands alone, these complete: VCVT, VCVTW, VCVTN, QNT, DQNT. -/
def Obligations.Conversions : Prop :=
  (∀ (m x : BitVec 1) (r : BitVec 2) (tc a d : BitVec 5) (s : State), 
   (∀ (t w : ETy) (e : Vec) (u v : State), ready (.vcvt m x r tc a d) s = true → laneTypeOf anyType s.my = some t →
     eTyOf tc.toNat = some w → w.width = t.width → allocatedTo s.my [(a, 1), (d, 1)] = true → usable s.my [a] [d] = true → Does (vsrc a) s e u →
     let q := lanes u.my m w.width (before u.my d) fun k => convertElem (rmOf r) t w (elemOf e t.width k)
     let es := ((List.range (4096 / t.width)).filter fun k => u.my.active m k).map fun k => exactOf t (elemOf e t.width k)
     Does (vdst d q.1) (statistics u x [es]) () v → Goes (.vcvt m x r tc a d) s (counted v q.2) .seq) ∧
   (∀ (t w : ETy), ready (.vcvt m x r tc a d) s = true → laneTypeOf anyType s.my = some t → eTyOf tc.toNat = some w → w.width = t.width →
    registers s.my [(a, 1), (d, 1)] = true →
    let q := lanes s.my m w.width (held s d) fun k => convertElem (rmOf r) t w (elemOf (held s a) t.width k)
    let es := ((List.range (4096 / t.width)).filter fun k => s.my.active m k).map fun k => exactOf t (elemOf (held s a) t.width k)
    Goes (.vcvt m x r tc a d) s (counted (putVec 0 d q.1 (statistics s x [es])) q.2) .seq) ∧
   (∀ (t w : ETy) (e : Vec) (u v : State) (k : Nat), ready (.vcvtw m x r tc a d) s = true → laneTypeOf anyType s.my = some w →
     eTyOf tc.toNat = some t → (k = 2 ∨ k = 4) → w.width = k * t.width →
     (d.toNat % k ≠ 0 → Illegal (.vcvtw m x r tc a d) s 0x21) ∧
     (d.toNat % k = 0 → allocatedTo s.my [(a, 1), (d, k)] = true → usable s.my [a] [] = true → unbound s.my d k = true →
       Does (vsrc a) s e u →
       let q := spread u.my m d k w.width fun j => convertElem (rmOf r) t w (elemOf e t.width j)
       let es := ((List.range (4096 / t.width)).filter fun j => u.my.active m j).map fun j => exactOf t (elemOf e t.width j)
       Does (vdstGroup 0 d 0 q.1) (statistics u x [es]) () v → Goes (.vcvtw m x r tc a d) s (counted v q.2) .seq) ∧
     (d.toNat % k = 0 → registers s.my [(a, 1), (d, k)] = true →
      let q := spread s.my m d k w.width fun j => convertElem (rmOf r) t w (elemOf (held s a) t.width j)
      let es := ((List.range (4096 / t.width)).filter fun j => s.my.active m j).map fun j => exactOf t (elemOf (held s a) t.width j)
      Goes (.vcvtw m x r tc a d) s (counted (putGroup 0 d q.1 (statistics s x [es])) q.2) .seq)) ∧
   (∀ (t w : ETy) (v : State) (k : Nat), ready (.vcvtn m x r tc a d) s = true → laneTypeOf anyType s.my = some t →
     eTyOf tc.toNat = some w → (k = 2 ∨ k = 4) → t.width = k * w.width →
     (a.toNat % k ≠ 0 → Illegal (.vcvtn m x r tc a d) s 0x21) ∧
     (a.toNat % k = 0 → allocatedTo s.my [(a, k), (d, 1)] = true → usable s.my [] [d] = true → unbound s.my a k = true →
       let q := lanes s.my m w.width (before s.my d) fun j =>
         convertElem (rmOf r) t w (elemOf (vget 0 s.my.vregs (a.toNat + j % k)) t.width (j / k))
       let ess := (List.range k).map fun g => ((List.range (4096 / t.width)).filter fun j => s.my.active m (k * j + g)).map fun j =>
         exactOf t (elemOf (vget 0 s.my.vregs (a.toNat + g)) t.width j)
       (Does (vdst d q.1) (statistics s x ess) () v → Goes (.vcvtn m x r tc a d) s (counted v q.2) .seq) ∧
       (registers s.my [(d, 1)] = true → Goes (.vcvtn m x r tc a d) s (counted (putVec 0 d q.1 (statistics s x ess)) q.2) .seq)))) ∧
  (∀ (r : BitVec 2) (la : BitVec 4) (tc a d : BitVec 5) (s : State) (f : FTy) (q : QFmt), ready (.qnt r la tc a d) s = true →
    laneTypeOf ETy.isFloat s.my = some (.flt f) → qFmtOf tc.toNat = some q → a.toNat % (f.width / 8) = 0 → d.toNat % 2 = 0 →
    allocatedTo s.my [(a, f.width / 8), (d, 2)] = true → unbound s.my a (f.width / 8) = true → unbound s.my d 2 = true →
    let e := 4096 / f.width
    let elem := fun k => decodeF f (elemOf (vget 0 s.my.vregs (a.toNat + k / e)) f.width (k % e))
    let blocks := (List.range 16).map fun j => qntBlock ((List.range 32).map fun k => elem (32 * j + k)) q (rmOf r)
    let mag := (blocks.map QBlock.mag).foldl max 0
    let nan := blocks.any QBlock.nan
    let v := putGroup la d [vecOf 8 (blocks.flatMap QBlock.codes), vecOf 8 (blocks.map QBlock.scale)] s
    Goes (.qnt r la tc a d) s (counted (v.updMy fun c => if la = 0#4 then { c with amax := amaxMerge c.amax mag nan }
      else { c with pend := c.pend ++ [⟨la.toNat + 1, .amax mag nan⟩] }) (sumCounts (blocks.map QBlock.counts))) .seq) ∧
  (∀ (r : BitVec 2) (la : BitVec 4) (tc a d : BitVec 5) (s : State) (f : FTy) (q : QFmt), ready (.dqnt r la tc a d) s = true →
    laneTypeOf ETy.isFloat s.my = some (.flt f) → qFmtOf tc.toNat = some q → a.toNat % 2 = 0 → d.toNat % (f.width / 8) = 0 →
    allocatedTo s.my [(a, 2), (d, f.width / 8)] = true → unbound s.my a 2 = true → unbound s.my d (f.width / 8) = true →
    let e := 4096 / f.width
    let codes := vget 0 s.my.vregs a.toNat
    let scales := vget 0 s.my.vregs (a.toNat + 1)
    let n := q.planeCount
    let kb := match q with | .planes _ => elemOf scales 8 16 | .small _ => 0
    let k := if kb = 0 then n else kb
    let one := fun j => dqntElem (match q with | .planes _ => wrap n (toSigned k (elemOf codes 8 j) * (2 ^ (n - k) : Int)) | .small _ => elemOf codes 8 j)
      (elemOf scales 8 (j / 32)) q n k f (rmOf r)
    let rs := (List.range 512).map one
    (kb ≠ 0 → (kb < 2 ∨ n < kb) → Illegal (.dqnt r la tc a d) s 0x23) ∧
    ((kb = 0 ∨ 2 ≤ kb ∧ kb ≤ n) →
      let v := putGroup la d ((List.range (f.width / 8)).map fun g => vecOf f.width (((rs.drop (g * e)).take e).map Prod.fst)) s
      Goes (.dqnt r la tc a d) s (counted v (sumCounts (rs.map Prod.snd))) .seq))

/-- R34, R155, R156, R167, R168: VCMP writes one mask bit for each active element, keeps the inactive ones, and clears the bits
beyond the elements; the mask operations act on all 1,024 bits; MPOP, MFIRST and MFILL count, find and fill the element bits of
the lane type; VSEL takes each element from a where m0 is 1, and from b where it is 0; outright, where the fields are registers.
A strand without vectors takes the illegal-register trap for a mask. On conditions of the state and operands alone, these
complete: the eight VCMP, MAND, MOR, MXOR, MNOT, MPOP, MFIRST, MFILL, VSEL. -/
def Obligations.Masks : Prop :=
  (∀ (i : Instr) (p : Nat) (m : BitVec 1) (b a d : BitVec 5) (s u : State) (t : ETy) (x y : Vec), compareOp i = some (p, m, b, a, d) →
    ready i s = true → laneTypeOf anyType s.my = some t → allocatedTo s.my [(a, 1), (b, 1)] = true → usable s.my [a, b] [] = true →
    Does (vsrc2 a b) s (x, y) u → steady u = true →
    Goes i s (u.updMy fun c => { c with masks := vset c.masks d.toNat (maskOf ((List.range (4096 / t.width)).map fun k =>
      if u.my.active m k then predicate p t (elemOf x t.width k) (elemOf y t.width k) else (vget 0 u.my.masks d.toNat).getLsbD k)) }) .seq) ∧
  (∀ (i : Instr) (p : Nat) (m : BitVec 1) (b a d : BitVec 5) (s : State) (t : ETy), compareOp i = some (p, m, b, a, d) →
    ready i s = true → laneTypeOf anyType s.my = some t → registers s.my [(a, 1), (b, 1)] = true →
    Goes i s (s.updMy fun c => { c with masks := vset c.masks d.toNat (maskOf ((List.range (4096 / t.width)).map fun k =>
      if s.my.active m k then predicate p t (elemOf (held s a) t.width k) (elemOf (held s b) t.width k)
      else (vget 0 s.my.masks d.toNat).getLsbD k)) }) .seq) ∧
  (∀ (b a d : BitVec 5) (s : State) (t : ETy), ready (.vsel b a d) s = true → laneTypeOf anyType s.my = some t →
    registers s.my [(a, 1), (b, 1), (d, 1)] = true →
    Goes (.vsel b a d) s (putVec 0 d (vecOf t.width ((List.range (4096 / t.width)).map fun k =>
      elemOf (if (vget 0 s.my.masks 0).getLsbD k then held s a else held s b) t.width k)) s) .seq) ∧
  (∀ (i : Instr) (f : Ctx → Mask) (d : BitVec 5) (s : State), maskOp i = some (f, d) → ready i s = true →
    (s.my.va ≠ 0 → Goes i s (s.updMy fun c => { c with masks := vset c.masks d.toNat (f s.my) }) .seq) ∧
    (s.my.va = 0 → Traps i s { code := 0x02, val := wordOfInstr i })) ∧
  (∀ (a d : BitVec 5) (s v : State) (t : ETy), s.my.va ≠ 0 → laneTypeOf anyType s.my = some t → portOk s d = true →
    let n := 4096 / t.width
    (ready (.mpop a d) s = true → written s d (word ((List.range n).filter fun k => (vget 0 s.my.masks a.toNat).getLsbD k).length) = some v →
      Goes (.mpop a d) s v .seq) ∧
    (ready (.mfirst a d) s = true → written s d (word (((List.range n).find? fun k => (vget 0 s.my.masks a.toNat).getLsbD k).getD n)) = some v →
      Goes (.mfirst a d) s v .seq)) ∧
  (∀ (a d : BitVec 5) (s : State) (t : ETy) (x : Word), ready (.mfill a d) s = true → s.my.va ≠ 0 → laneTypeOf anyType s.my = some t →
    s.my.operands = [] → portOk s a = true → value s a = some x →
    Goes (.mfill a d) s ((taken s [a]).updMy fun c => { c with masks := vset c.masks d.toNat (BitVec.ofNat 1024 (2 ^ min x.toNat (4096 / t.width) - 1)) }) .seq) ∧
  (∀ (b a d : BitVec 5) (s u v : State) (t : ETy) (x y : Vec), ready (.vsel b a d) s = true → laneTypeOf anyType s.my = some t →
    allocatedTo s.my [(a, 1), (b, 1), (d, 1)] = true → usable s.my [a, b] [d] = true → Does (vsrc2 a b) s (x, y) u →
    Does (vdst d (vecOf t.width ((List.range (4096 / t.width)).map fun k =>
      elemOf (if (vget 0 u.my.masks 0).getLsbD k then x else y) t.width k))) u () v → Goes (.vsel b a d) s v .seq)

/-- R38, R155, R169: a reduction combines the active elements pairwise in the fixed tree, the identity standing for inactive ones,
and writes the result, sign-extended from a signed type, to its scalar destination; outright, where its source is a register. On
conditions of the state and operands alone, these complete: the six VR instructions. -/
def Obligations.Reductions : Prop :=
  (∀ (i : Instr) (op : ReduceOp) (s u v : State) (t : ETy) (x : Vec), reduceOp i = some op → ready i s = true →
    laneTypeOf anyType s.my = some t → (op.rounding = 0#2 ∨ op.sum = true ∧ t.isFloat = true) →
    allocatedTo s.my [(op.a, 1)] = true → usable s.my [op.a] [] = true → portOk s op.d = true → Does (vsrc op.a) s x u → steady u = true →
    let r := tree (op.f t) (Nat.log2 (4096 / t.width)) ((List.range (4096 / t.width)).map fun k =>
      if u.my.active op.mask k then elemOf x t.width k else op.identity t)
    written u op.d (match t with | .int w => sext r.1 w | _ => word r.1) = some v → Goes i s (counted v r.2) .seq) ∧
  (∀ (i : Instr) (op : ReduceOp) (s v : State) (t : ETy), reduceOp i = some op → ready i s = true → laneTypeOf anyType s.my = some t →
    (op.rounding = 0#2 ∨ op.sum = true ∧ t.isFloat = true) → registers s.my [(op.a, 1)] = true → portOk s op.d = true →
    let r := tree (op.f t) (Nat.log2 (4096 / t.width)) ((List.range (4096 / t.width)).map fun k =>
      if s.my.active op.mask k then elemOf (held s op.a) t.width k else op.identity t)
    written s op.d (match t with | .int w => sext r.1 w | _ => word r.1) = some v → Goes i s (counted v r.2) .seq) ∧
  (∀ (f : Nat → Nat → Nat × Counts) (x y z w : Nat), (tree f 2 [x, y, z, w]).1 = (f (f x y).1 (f z w).1).1)

/-- R155, R156, R170: the permutes: each active element of the destination is the element the rule names, or 0 where the index lies
outside; VEXT and VINS move one element to and from a scalar register; VBCAST copies a scalar to every element; VCOMP packs the
elements that m0 selects; outright, where the vector fields are registers. A masked VEXT or VCOMP is DETAIL 0x25. Elements that VSLUP and VINS
keep read 0 where d is a bound port: the model's choice (DESIGN CHOICE, log entry 15). On conditions
of the state and operands alone, these complete: VPERM, VZIP, VUNZIP, VSLUP, VSLDN, VBCAST, VINS, VEXT, VCOMP. -/
def Obligations.Permutes : Prop :=
  (∀ (i : Instr) (m : BitVec 1) (b a d : BitVec 5) (f : Nat → Nat → Vec → Vec → Nat → Nat) (s u v : State) (t : ETy) (x y : Vec),
    mixOp i = some (m, b, a, d, f) → ready i s = true → laneTypeOf anyType s.my = some t →
    allocatedTo s.my [(a, 1), (b, 1), (d, 1)] = true → usable s.my [a, b] [d] = true → Does (vsrc2 a b) s (x, y) u →
    Does (vdst d (permuted u.my m t.width d fun k => some (f (4096 / t.width) t.width x y k))) u () v → Goes i s v .seq) ∧
  (∀ (i : Instr) (m : BitVec 1) (b a d : BitVec 5) (f : Nat → Nat → Vec → Vec → Nat → Nat) (s : State) (t : ETy),
    mixOp i = some (m, b, a, d, f) → ready i s = true → laneTypeOf anyType s.my = some t → registers s.my [(a, 1), (b, 1), (d, 1)] = true →
    Goes i s (putVec 0 d (permuted s.my m t.width d fun k => some (f (4096 / t.width) t.width (held s a) (held s b) k)) s) .seq) ∧
  (∀ (i : Instr) (m : BitVec 1) (b a d : BitVec 5) (f : Nat → Nat → Vec → Nat → Nat → Option Nat) (s : State) (t : ETy) (k : Word),
    slideOp i = some (m, b, a, d, f) → ready i s = true → laneTypeOf anyType s.my = some t → registers s.my [(a, 1), (d, 1)] = true →
    s.my.operands = [] → portOk s b = true → value s b = some k →
    Goes i s (putVec 0 d (permuted s.my m t.width d (f (4096 / t.width) t.width (held s a) k.toNat)) (taken s [b])) .seq) ∧
  (∀ (i : Instr) (m : BitVec 1) (b a d : BitVec 5) (f : Nat → Nat → Vec → Nat → Nat → Option Nat) (s u w v : State) (t : ETy) (x : Vec) (k : Word),
    slideOp i = some (m, b, a, d, f) → ready i s = true → laneTypeOf anyType s.my = some t → allocatedTo s.my [(a, 1), (d, 1)] = true →
    usable s.my [a] [d] = true → portOk s b = true → Does (vsrc a) s x u → Does (src b) u k w →
    Does (vdst d (permuted w.my m t.width d (f (4096 / t.width) t.width x k.toNat))) w () v → Goes i s v .seq) ∧
  (∀ (m : BitVec 1) (a d : BitVec 5) (s v : State) (t : ETy) (x : Word), ready (.vbcast m a d) s = true → laneTypeOf anyType s.my = some t →
    allocatedTo s.my [(d, 1)] = true → usable s.my [] [d] = true → portOk s a = true → s.my.operands = [] → value s a = some x →
    let u := taken s [a]
    let w := permuted u.my m t.width d fun _ => some (bitsAt x 0 t.width)
    (Does (vdst d w) u () v → Goes (.vbcast m a d) s v .seq) ∧
    (registers s.my [(d, 1)] = true → Goes (.vbcast m a d) s (putVec 0 d w u) .seq)) ∧
  (∀ (m : BitVec 1) (b a d : BitVec 5) (s v : State) (t : ETy) (x k : Word), ready (.vins m b a d) s = true → laneTypeOf anyType s.my = some t →
    allocatedTo s.my [(d, 1)] = true → usable s.my [] [d] = true → [a, b].all (portOk s) = true → s.my.operands = [] →
    value s a = some x → value s b = some k →
    let u := taken s [a, b]
    let w := permuted u.my m t.width d fun j => if j = k.toNat then some (bitsAt x 0 t.width) else none
    (Does (vdst d w) u () v → Goes (.vins m b a d) s v .seq) ∧
    (registers s.my [(d, 1)] = true → Goes (.vins m b a d) s (putVec 0 d w u) .seq)) ∧
  (∀ (b a d : BitVec 5) (s : State) (t : ETy), laneTypeOf anyType s.my = some t →
    (ready (.vext 1 b a d) s = true → Illegal (.vext 1 b a d) s 0x25) ∧ (ready (.vcomp 1 a d) s = true → Illegal (.vcomp 1 a d) s 0x25) ∧
    (ready (.vext 0 b a d) s = true → allocatedTo s.my [(a, 1)] = true → usable s.my [a] [] = true → [b, d].all (portOk s) = true →
      ∀ x u k w v, Does (vsrc a) s x u → Does (src b) u k w → steady w = true →
      written w d (if k.toNat < 4096 / t.width then (match t with | .int n => sext (elemOf x t.width k.toNat) n | _ => word (elemOf x t.width k.toNat)) else 0)
        = some v → Goes (.vext 0 b a d) s v .seq) ∧
    (ready (.vext 0 b a d) s = true → registers s.my [(a, 1)] = true → s.my.operands = [] → [b, d].all (portOk s) = true → ∀ k v,
      value s b = some k → written (taken s [b]) d (if k.toNat < 4096 / t.width then
        (match t with | .int n => sext (elemOf (held s a) t.width k.toNat) n | _ => word (elemOf (held s a) t.width k.toNat)) else 0) = some v →
      Goes (.vext 0 b a d) s v .seq) ∧
    (ready (.vcomp 0 a d) s = true → registers s.my [(a, 1), (d, 1)] = true →
      let n := 4096 / t.width
      let es := ((List.range n).filter fun k => (vget 0 s.my.masks 0).getLsbD k).map fun k => elemOf (held s a) t.width k
      Goes (.vcomp 0 a d) s (putVec 0 d (vecOf t.width (es ++ List.replicate (n - es.length) 0)) s) .seq) ∧
    (ready (.vcomp 0 a d) s = true → allocatedTo s.my [(a, 1), (d, 1)] = true → usable s.my [a] [d] = true → ∀ x u v, Does (vsrc a) s x u →
      let n := 4096 / t.width
      let es := ((List.range n).filter fun k => (vget 0 u.my.masks 0).getLsbD k).map fun k => elemOf x t.width k
      Does (vdst d (vecOf t.width (es ++ List.replicate (n - es.length) 0))) u () v → Goes (.vcomp 0 a d) s v .seq))

/-- R69, R155, R177, R178: VLD reads the bytes of its active elements in one run of 512 at base + src(b), or, with post-increment,
at the base; VLDS element by element at its stride, VLDX at its indexes, VLDF by planes; a byte that cannot be read is the trap of its
cause, and stops them before any effect. Under lookahead the writes are pending. From a local store into a register each form is done outright. On
conditions of the state and operands alone, these complete: VLD, VLDS, VLDX, VLDF, and VLD and VLDF with post-increment. -/
def Obligations.VectorLoads : Prop :=
  (∀ (m : BitVec 1) (la : BitVec 4) (b a d : BitVec 5) (s : State) (t : ETy) (x : Word) (k : Nat),
    ready (.vld m la b a d) s = true → laneTypeOf anyType s.my = some t → registers s.my [(d, 1)] = true → s.my.operands = [] →
    portOk s b = true → value s b = some x → settled s = true → storeKeyAt s (baseOf s a) x.toInt 512 false = some k →
    cleanWords s k 512 = true →
    let runs := s.my.activeRuns m t.width
    let v := placed runs (runs.map fun r => memRead s.mem (k + r.1) r.2)
    Goes (.vld m la b a d) s (putVec la d (lanes s.my m t.width (held s d) fun j => (elemOf v t.width j, .zero)).1 (taken s [b])) .seq) ∧
  (∀ (m : BitVec 1) (la : BitVec 4) (a d : BitVec 5) (s u : State) (t : ETy) (k : Nat),
    ready (.vldPost m la a d) s = true → laneTypeOf anyType s.my = some t → registers s.my [(d, 1)] = true → settled s = true →
    inBlock s.my.awc (baseOf s a) 512 → storeKeyAt s (baseOf s a) 0 512 false = some k → cleanWords s k 512 = true →
    writtenLa la s a (advance s.my.awc (baseOf s a) 512) = some u →
    let runs := s.my.activeRuns m t.width
    let v := placed runs (runs.map fun r => memRead s.mem (k + r.1) r.2)
    Goes (.vldPost m la a d) s (putVec la d (lanes s.my m t.width (held s d) fun j => (elemOf v t.width j, .zero)).1 u) .seq) ∧
  (∀ (m : BitVec 1) (la : BitVec 4) (b a d : BitVec 5) (s w : State) (t : ETy) (i : Instr) (off : Nat → Int) (keys : Nat → Nat),
    ready i s = true → laneTypeOf wholeBytes s.my = some t → settled s = true →
    ((∃ x, i = .vlds m la b a d ∧ registers s.my [(d, 1)] = true ∧ s.my.operands = [] ∧ portOk s b = true ∧ value s b = some x ∧
        w = taken s [b] ∧ ∀ k, off k = (k : Int) * x.toInt) ∨
     (i = .vldx m la b a d ∧ registers s.my [(b, 1), (d, 1)] = true ∧ w = s ∧
        ∀ k, off k = ((elemOf (held s b) t.width k * (t.width / 8) : Nat) : Int))) →
    (∀ k ∈ s.my.actives m t.width, storeKeyAt s (baseOf s a) (off k) (t.width / 8) false = some (keys k) ∧
      cleanWords s (keys k) (t.width / 8) = true) →
    Goes i s (putVec la d (lanes s.my m t.width (held s d) fun k => (leNat (memRead s.mem (keys k) (t.width / 8)), .zero)).1 w) .seq) ∧
  (∀ (la : BitVec 4) (b a d : BitVec 5) (s : State) (f : Word) (keys : Nat → Nat), s.my.operands = [] → portOk s b = true →
    value s b = some f → registers s.my [(d, 1)] = true → formatOk false f = true → settled s = true →
    let n := if fmtK f = 0 then fmtPlanes f else fmtK f
    (∀ q < n, storeKeyAt s (baseOf s a) ((q * fmtStride f : Nat) : Int) 64 false = some (keys q) ∧ cleanWords s (keys q) 64 = true) →
    let v := fromPlanes ((List.range n).map fun q => memRead s.mem (keys q) 64)
    (ready (.vldf 0 la b a d) s = true → Goes (.vldf 0 la b a d) s (putVec la d v (taken s [b])) .seq) ∧
    (ready (.vldfPost 0 la b a d) s = true → inBlock s.my.awc (baseOf s a) 64 → ∀ u,
      writtenLa la (taken s [b]) a (advance s.my.awc (baseOf s a) 64) = some u →
      Goes (.vldfPost 0 la b a d) s (putVec la d v u) .seq)) ∧
  (∀ (m : BitVec 1) (la : BitVec 4) (b a d : BitVec 5) (s u v : State) (t : ETy) (x : Word) (bs : List (List Byte)) (pl : Place),
    ready (.vld m la b a d) s = true → laneTypeOf anyType s.my = some t → allocatedTo s.my [(d, 1)] = true → usable s.my [] [d] = true →
    s.my.operands = [] → portOk s b = true → value s b = some x → resolve (baseOf s a) x.toInt 512 false = .ok pl →
    let w := taken s [b]
    let els := (w.my.activeRuns m t.width).map fun r => (baseOf s a, x.toInt + (r.1 : Int), r.2)
    (∀ f found, readElems els w = .error (.trap f found) → f.code ∉ [0x01, 0x02, 0x15] →
      exec (.vld m la b a d) s = .next (s.takeTrap s.me.1 s.me.2 f s.my.pc found)) ∧
    (Does (readElems els) w bs u → u.my.pair = none →
      Does (vdstLa la d (lanes w.my m t.width (before w.my d) fun k => (elemOf (placed (w.my.activeRuns m t.width) bs) t.width k, .zero)).1) u () v →
      Goes (.vld m la b a d) s v .seq)) ∧
  (∀ (m : BitVec 1) (la : BitVec 4) (a d : BitVec 5) (s u w v : State) (t : ETy) (bs : List (List Byte)) (pl : Place),
    ready (.vldPost m la a d) s = true → laneTypeOf anyType s.my = some t → allocatedTo s.my [(d, 1)] = true → usable s.my [] [d] = true →
    (¬inBlock s.my.awc (baseOf s a) 512 → Traps (.vldPost m la a d) s { code := 0x04, val := baseOf s a }) ∧
    (inBlock s.my.awc (baseOf s a) 512 → resolve (baseOf s a) 0 512 false = .ok pl → ∀ f found,
      readElems ((s.my.activeRuns m t.width).map fun r => (baseOf s a, 0 + (r.1 : Int), r.2)) s = .error (.trap f found) →
      f.code ∉ [0x01, 0x02, 0x15] → exec (.vldPost m la a d) s = .next (s.takeTrap s.me.1 s.me.2 f s.my.pc found)) ∧
    (inBlock s.my.awc (baseOf s a) 512 → resolve (baseOf s a) 0 512 false = .ok pl →
      Does (readElems ((s.my.activeRuns m t.width).map fun r => (baseOf s a, 0 + (r.1 : Int), r.2))) s bs u → u.my.pair = none →
      Does (dstLa la a (advance u.my.awc (baseOf s a) 512)) u () w →
      Does (vdstLa la d (lanes s.my m t.width (before s.my d) fun k => (elemOf (placed (s.my.activeRuns m t.width) bs) t.width k, .zero)).1) w () v →
      Goes (.vldPost m la a d) s v .seq)) ∧
  (∀ (m : BitVec 1) (la : BitVec 4) (b a d : BitVec 5) (s w u v : State) (t : ETy) (i : Instr) (off : Nat → Int) (bs : List (List Byte)),
    ready i s = true → laneTypeOf wholeBytes s.my = some t →
    ((∃ x, i = .vlds m la b a d ∧ allocatedTo s.my [(d, 1)] = true ∧ usable s.my [] [d] = true ∧ s.my.operands = [] ∧ portOk s b = true ∧
        value s b = some x ∧ w = taken s [b] ∧ ∀ k, off k = (k : Int) * x.toInt) ∨
     (∃ x, i = .vldx m la b a d ∧ allocatedTo s.my [(b, 1), (d, 1)] = true ∧ usable s.my [b] [d] = true ∧ Does (vsrc b) s x w ∧
        ∀ k, off k = ((elemOf x t.width k * (t.width / 8) : Nat) : Int))) →
    let is := (List.range (4096 / t.width)).filter (w.my.active m)
    let els := is.map fun k => (baseOf s a, off k, t.width / 8)
    (∀ f found, readElems els w = .error (.trap f found) → f.code ∉ [0x01, 0x02, 0x15] →
      exec i s = .next (s.takeTrap s.me.1 s.me.2 f s.my.pc found)) ∧
    (Does (readElems els) w bs u → u.my.pair = none →
      Does (vdstLa la d (lanes w.my m t.width (before w.my d) fun k => (look 0 (is.zip (bs.map leNat)) k, .zero)).1) u () v → Goes i s v .seq)) ∧
  (∀ (la : BitVec 4) (b a d : BitVec 5) (s u v : State) (f : Word) (bs : List (List Byte)), s.my.operands = [] → portOk s b = true →
    value s b = some f → allocatedTo s.my [(d, 1)] = true → usable s.my [] [d] = true → formatOk false f = true →
    let els := planeExtents (baseOf s a) (fmtStride f) (if fmtK f = 0 then fmtPlanes f else fmtK f)
    (∀ t found, readElems els (taken s [b]) = .error (.trap t found) → t.code ∉ [0x01, 0x02, 0x15] →
      (ready (.vldf 0 la b a d) s = true → exec (.vldf 0 la b a d) s = .next (s.takeTrap s.me.1 s.me.2 t s.my.pc found)) ∧
      (ready (.vldfPost 0 la b a d) s = true → inBlock s.my.awc (baseOf s a) 64 →
        exec (.vldfPost 0 la b a d) s = .next (s.takeTrap s.me.1 s.me.2 t s.my.pc found))) ∧
    (Does (readElems els) (taken s [b]) bs u → u.my.pair = none →
      (ready (.vldf 0 la b a d) s = true → Does (vdstLa la d (fromPlanes bs)) u () v → Goes (.vldf 0 la b a d) s v .seq) ∧
      (ready (.vldfPost 0 la b a d) s = true → inBlock s.my.awc (baseOf s a) 64 → ∀ w,
        Does (dstLa la a (advance u.my.awc (baseOf s a) 64)) u () w → Does (vdstLa la d (fromPlanes bs)) w () v →
        Goes (.vldfPost 0 la b a d) s v .seq))) ∧
  (∀ (la : BitVec 4) (b a d : BitVec 5) (s : State), (ready (.vldf 1 la b a d) s = true → Illegal (.vldf 1 la b a d) s 0x25) ∧
    (ready (.vldfPost 1 la b a d) s = true → Illegal (.vldfPost 1 la b a d) s 0x25))

/-- R69, R155, R177, R178: the vector stores write the bytes of their active elements, in increasing order, to the addresses that
the loads of the same forms read, in a local store outright; a masked store of a 4-bit type is DETAIL 0x25. On conditions of the
state and operands alone, these complete: VST, VSTS, VSTX, VSTF, and VST and VSTF with post-increment. -/
def Obligations.VectorStores : Prop :=
  (∀ (m : BitVec 1) (la : BitVec 4) (b a d : BitVec 5) (s : State) (t : ETy) (x : Word) (k : Nat),
    ready (.vst m la b a d) s = true → laneTypeOf anyType s.my = some t → (m = 0#1 ∨ t.width ≠ 4) → registers s.my [(d, 1)] = true →
    s.my.operands = [] → portOk s b = true → value s b = some x → settled s = true →
    storeKeyAt s (baseOf s a) x.toInt 512 true = some k →
    Goes (.vst m la b a d) s ((s.my.activeRuns m t.width).foldl
      (fun u r => u.putBytes (k + r.1) (((vecBytes (held s d)).drop r.1).take r.2)) (taken s [b])) .seq) ∧
  (∀ (m : BitVec 1) (la : BitVec 4) (a d : BitVec 5) (s u : State) (t : ETy) (k : Nat),
    ready (.vstPost m la a d) s = true → laneTypeOf anyType s.my = some t → (m = 0#1 ∨ t.width ≠ 4) → registers s.my [(d, 1)] = true →
    settled s = true → inBlock s.my.awc (baseOf s a) 512 → storeKeyAt s (baseOf s a) 0 512 true = some k →
    writtenLa la ((s.my.activeRuns m t.width).foldl (fun u r => u.putBytes (k + r.1) (((vecBytes (held s d)).drop r.1).take r.2)) s) a
      (advance s.my.awc (baseOf s a) 512) = some u → Goes (.vstPost m la a d) s u .seq) ∧
  (∀ (m : BitVec 1) (la : BitVec 4) (b a d : BitVec 5) (s w : State) (t : ETy) (i : Instr) (off : Nat → Int) (keys : Nat → Nat),
    ready i s = true → laneTypeOf wholeBytes s.my = some t → settled s = true →
    ((∃ x, i = .vsts m la b a d ∧ registers s.my [(d, 1)] = true ∧ s.my.operands = [] ∧ portOk s b = true ∧ value s b = some x ∧
        w = taken s [b] ∧ ∀ k, off k = (k : Int) * x.toInt) ∨
     (i = .vstx m la b a d ∧ registers s.my [(b, 1), (d, 1)] = true ∧ w = s ∧
        ∀ k, off k = ((elemOf (held s b) t.width k * (t.width / 8) : Nat) : Int))) →
    (∀ k ∈ s.my.actives m t.width, storeKeyAt s (baseOf s a) (off k) (t.width / 8) true = some (keys k)) →
    Goes i s ((s.my.actives m t.width).foldl (fun u k => u.putBytes (keys k) (leBytes (t.width / 8) (elemOf (held s d) t.width k))) w) .seq) ∧
  (∀ (la : BitVec 4) (b a d : BitVec 5) (s : State) (f : Word) (keys : Nat → Nat), s.my.operands = [] → portOk s b = true →
    value s b = some f → registers s.my [(d, 1)] = true → formatOk true f = true → settled s = true →
    (∀ q < fmtPlanes f, storeKeyAt s (baseOf s a) ((q * fmtStride f : Nat) : Int) 64 true = some (keys q)) →
    let w := (List.range (fmtPlanes f)).foldl (fun u q => u.putBytes (keys q) (toPlane (held s d) (fmtPlanes f - 1 - q))) (taken s [b])
    (ready (.vstf 0 la b a d) s = true → Goes (.vstf 0 la b a d) s w .seq) ∧
    (ready (.vstfPost 0 la b a d) s = true → inBlock s.my.awc (baseOf s a) 64 → ∀ u,
      writtenLa la w a (advance s.my.awc (baseOf s a) 64) = some u → Goes (.vstfPost 0 la b a d) s u .seq)) ∧
  (∀ (m : BitVec 1) (la : BitVec 4) (b a d : BitVec 5) (s w q u : State) (t : ETy) (x : Word) (z : Vec) (pl : Place),
    ready (.vst m la b a d) s = true → laneTypeOf anyType s.my = some t →
    (m = 1#1 → t.width = 4 → Illegal (.vst m la b a d) s 0x25) ∧
    ((m = 0#1 ∨ t.width ≠ 4) → allocatedTo s.my [(d, 1)] = true → usable s.my [d] [] = true → portOk s b = true →
      Does (vsrc d) s z w → Does (src b) w x q → resolve (baseOf s a) x.toInt 512 true = .ok pl →
      Does (storeElems ((q.my.activeRuns m t.width).map fun r => (baseOf s a, x.toInt + (r.1 : Int), ((vecBytes z).drop r.1).take r.2))) q () u →
      u.my.pair = none → Goes (.vst m la b a d) s u .seq)) ∧
  (∀ (m : BitVec 1) (la : BitVec 4) (a d : BitVec 5) (s w u v : State) (t : ETy) (z : Vec) (pl : Place),
    ready (.vstPost m la a d) s = true → laneTypeOf anyType s.my = some t → (m = 0#1 ∨ t.width ≠ 4) → allocatedTo s.my [(d, 1)] = true →
    usable s.my [d] [] = true → Does (vsrc d) s z w → inBlock w.my.awc (baseOf s a) 512 → resolve (baseOf s a) 0 512 true = .ok pl →
    Does (storeElems ((w.my.activeRuns m t.width).map fun r => (baseOf s a, 0 + (r.1 : Int), ((vecBytes z).drop r.1).take r.2))) w () u →
    u.my.pair = none → Does (dstLa la a (advance u.my.awc (baseOf s a) 512)) u () v → Goes (.vstPost m la a d) s v .seq) ∧
  (∀ (m : BitVec 1) (la : BitVec 4) (b a d : BitVec 5) (s w u : State) (t : ETy) (i : Instr) (off : Nat → Int) (z : Vec),
    ready i s = true → laneTypeOf wholeBytes s.my = some t →
    ((∃ x r, i = .vsts m la b a d ∧ allocatedTo s.my [(d, 1)] = true ∧ usable s.my [d] [] = true ∧ portOk s b = true ∧
        Does (vsrc d) s z r ∧ Does (src b) r x w ∧ ∀ k, off k = (k : Int) * x.toInt) ∨
     (∃ x, i = .vstx m la b a d ∧ allocatedTo s.my [(b, 1), (d, 1)] = true ∧ usable s.my [b, d] [] = true ∧ Does (vsrc2 b d) s (x, z) w ∧
        ∀ k, off k = ((elemOf x t.width k * (t.width / 8) : Nat) : Int))) →
    Does (storeElems (((List.range (4096 / t.width)).filter (w.my.active m)).map fun k => (baseOf s a, off k, leBytes (t.width / 8) (elemOf z t.width k)))) w () u →
    u.my.pair = none → Goes i s u .seq) ∧
  (∀ (la : BitVec 4) (b a d : BitVec 5) (s w q u : State) (f : Word) (z : Vec), allocatedTo s.my [(d, 1)] = true → usable s.my [d] [] = true →
    portOk s b = true → Does (src b) s f w → formatOk true f = true → Does (vsrc d) w z q →
    Does (storeElems ((List.range (fmtPlanes f)).map fun k => (baseOf s a, ((k * fmtStride f : Nat) : Int), toPlane z (fmtPlanes f - 1 - k)))) q () u →
    u.my.pair = none →
    (ready (.vstf 0 la b a d) s = true → Goes (.vstf 0 la b a d) s u .seq) ∧
    (ready (.vstfPost 0 la b a d) s = true → inBlock q.my.awc (baseOf s a) 64 → ∀ v,
      Does (dstLa la a (advance u.my.awc (baseOf s a) 64)) u () v → Goes (.vstfPost 0 la b a d) s v .seq)) ∧
  (∀ (la : BitVec 4) (b a d : BitVec 5) (s : State), (ready (.vstf 1 la b a d) s = true → Illegal (.vstf 1 la b a d) s 0x25) ∧
    (ready (.vstfPost 1 la b a d) s = true → Illegal (.vstfPost 1 la b a d) s 0x25))

/-! ### The matrix unit -/

/-- R150, R237, R243, R248, R249, R252, R253: an instruction that queues a command makes the checks of its record first; a pending fault
is raised next; with 16 commands in the core's queue it waits; else it releases at galley scope and its command, which captures
record, layout, binding and parameters, stands last in the queue. A record whose words hold an uncorrectable error kills the core, before
any check (R150). On conditions of the state and operands alone, these complete:
MWLD, MTILE, MDRAIN, MCLR. -/
def Obligations.MatrixIssue : Prop :=
  ∀ (i : Instr) (fn acc o : Nat) (s : State), issueOp i = some (fn, acc, o) → ready i s = true →
    (intact s (recordExts s.me.1 fn o) = false → exec i s = .next (s.killCore s.me.1)) ∧
    (∀ t, intact s (recordExts s.me.1 fn o) = true → s.commandCheck s.me.1 fn acc o = .error t → Traps i s t) ∧
    (∀ x, intact s (recordExts s.me.1 fn o) = true → s.commandCheck s.me.1 fn acc o = .ok x →
      (∀ f r l, f.code ∉ [0x01, 0x02, 0x15] → s.my.mfaults = ⟨f, r⟩ :: l → s.isHart = false →
        exec i s = .next (s.takeTrap s.me.1 s.me.2 f s.my.pc [.mfault]) ∧
        (s.my.trap = false → s.my.st ≠ .free → s.my.operands = [] →
          exec i s = .next ((s.updMy fun c => { c with mfaults := l, rprog := r.getD c.rprog }).takeTrap s.me.1 s.me.2 f s.my.pc)) ∧
        (s.my.trap = true → exec i s = .next (s.takeTrap s.me.1 s.me.2 f s.my.pc))) ∧
      (s.my.mfaults = [] → 16 ≤ s.myCore.mq.length → Stalls i s) ∧
      (s.my.mfaults = [] → s.myCore.mq.length < 16 → settled s = true → Goes i s ((ended s).queueCommand fn acc o x none) .seq))

/-- R254 to R258, R261, R265: MSET, MRED and MLAY set a matrix parameter, the redundancy bit and an imposition word to src(a), and
refuse any other value with DETAIL 0x50; MSTAT reads the status word; MWAIT raises a fault that is pending when it begins, waits
for all of the strand's commands unless one is held, raises one that is pending then, matrix fault, pattern fault or the memory fault of a
resumable stop alike, and acquires at package scope; MRESUME raises a pending fault first; it lets the held command that RPROG describes go
on, or drops it, and clears RPROG, or raises matrix fault 7. The EVAL of that fault, made of RPROG's own fields since no held command is
found, is the model's reading (DEDUCED, log entry 21). On conditions of the
state and operands alone, these complete: MSET, MRED, MLAY, MSTAT, MWAIT, MRESUME. -/
def Obligations.MatrixControl : Prop :=
  (∀ (o : BitVec 6) (a : BitVec 5) (s : State) (v : Word), s.my.operands = [] → portOk s a = true → value s a = some v →
    (ready (.mset o a) s = true →
      (paramOk o.toNat v = true → Goes (.mset o a) s ((taken s [a]).updMy fun c => { c with mset := vset c.mset o.toNat v }) .seq) ∧
      (paramOk o.toNat v = false → Illegal (.mset o a) s 0x50)) ∧
    (ready (.mred a) s = true →
      (v.toNat ≤ 1 → Goes (.mred a) s ((taken s [a]).updMy fun c => { c with mred := v == 1 }) .seq) ∧
      (1 < v.toNat → Illegal (.mred a) s 0x50)) ∧
    (ready (.mlay o a) s = true →
      (bitsAt v 8 56 = 0 → bitsAt v 3 4 = 0 → (v.getLsbD 7 = true → bitsAt v 0 3 < 4) →
        Goes (.mlay o a) s ((taken s [a]).updMyCore fun c => { c with impo := vset c.impo o.toNat v }) .seq) ∧
      (bitsAt v 8 56 ≠ 0 ∨ bitsAt v 3 4 ≠ 0 ∨ v.getLsbD 7 = true ∧ 4 ≤ bitsAt v 0 3 → Illegal (.mlay o a) s 0x50))) ∧
  (∀ (d : BitVec 5) (s u : State), ready (.mstat d) s = true → written s d (s.matrixStatus s.me.1 s.me.2) = some u → Goes (.mstat d) s u .seq) ∧
  (∀ s : State, ready .mwait s = true →
    let mine := s.myCore.mq.filter fun q => q.ctx == s.me.2
    let done := mine = [] ∨ (∃ q ∈ mine, q.held = true)
    (s.my.mfaults = [] → done → Goes .mwait s (acquired (s.updMy fun c => { c with wait := .none })) .seq) ∧
    (s.my.wait = .matrix → ¬done → Stalls .mwait s) ∧
    (s.my.wait ≠ .matrix → s.my.mfaults = [] → ¬done → exec .mwait s = .next (s.updMy fun c => { c with wait := .matrix, st := .stalled })) ∧
    (∀ f r l, f.code ∉ [0x01, 0x02, 0x15] → s.my.mfaults = ⟨f, r⟩ :: l → s.isHart = false → (s.my.wait ≠ .matrix ∨ done) →
      exec .mwait s = .next (s.takeTrap s.me.1 s.me.2 f s.my.pc [.mfault]))) ∧
  (∀ (s : State) (f : Trap) (r : Option Word) (l : List MFault), ready .mresume s = true → f.code ∉ [0x01, 0x02, 0x15] →
    s.my.mfaults = ⟨f, r⟩ :: l → s.isHart = false → exec .mresume s = .next (s.takeTrap s.me.1 s.me.2 f s.my.pc [.mfault])) ∧
  (∀ s : State, ready .mresume s = true → s.my.mfaults = [] →
    match s.myCore.mq.find? fun q => q.held && q.ctx == s.me.2 && describes s.my.rprog q with
    | none =>
      let eval := matrixEval (bitsAt s.my.rprog 52 4) (bitsAt s.my.rprog 50 2) (bitsAt s.my.rprog 44 6) (galleyIndex s.me.1)
      Traps .mresume s { code := 0x13, detail := 7, val := eval }
    | some q =>
      (s.my.rprog.getLsbD 62 = true → Goes .mresume s ((s.dropCmd s.me.1 q.id).updMy fun c => { c with rprog := 0 }) .seq) ∧
      (s.my.rprog.getLsbD 62 = false → Goes .mresume s ((s.updCmd s.me.1 q.id fun q => { q with held := false, gen := s.my.tgen }).updMy
        fun c => { c with rprog := 0 }) .seq))

/-- R271, R276, R279 to R281: PLOAD puts its words into the partition of the core's galley, and waits while a sparse command stands
in the queue; PBIND and PBIND.T fill a binding slot from a descriptor, or empty it where KS is 0; a bad descriptor, or PBIND.T
of one that cannot be transposed, is a pattern fault; PSTAT reads a slot. A slot number above 31 is DETAIL 0x60. On conditions
of the state and operands alone, these complete: PLOAD, PBIND, PBIND.T, PSTAT. -/
def Obligations.PatternInstructions : Prop :=
  (∀ (b a : BitVec 5) (s u w : State) (c : Word) (es : List (List Extent)) (bs : List (List Byte)), ready (.pload b a) s = true →
    s.my.operands = [] → portOk s b = true → value s b = some c →
    (bitsAt c 24 40 ≠ 0 ∨ bitsAt c 8 8 ≠ 0 ∨ bitsAt c 0 8 = 0 ∨ 128 < bitsAt c 16 8 + bitsAt c 0 8 → Illegal (.pload b a) s 0x60) ∧
    (bitsAt c 24 40 = 0 → bitsAt c 8 8 = 0 → bitsAt c 0 8 ≠ 0 → bitsAt c 16 8 + bitsAt c 0 8 ≤ 128 → multiple (baseOf s a) 0 4 →
      Does (check { read := true, plain := true } [(baseOf s a, 0, 4 * bitsAt c 0 8)]) (taken s [b]) es u →
      (u.myCore.mq.any MCmd.sparse = false → Does (readExts true es) u bs w →
        let g := galleyOf w.me.1
        let at0 := galleyIndex w.me.1 * 128 + bitsAt c 16 8
        let loaded := (List.range (bitsAt c 0 8)).foldl
          (fun m i => put m (at0 + i) (BitVec.ofNat 32 (recField bs.flatten (4 * i) 4))) (w.galley g).pstore
        Goes (.pload b a) s (w.setGalley g { w.galley g with pstore := loaded }) .seq) ∧
      (u.myCore.mq.any MCmd.sparse = true → (∀ q ∈ u.myCore.mq, q.held = false) → Stalls (.pload b a) s))) ∧
  (∀ (b a : BitVec 5) (s : State) (c : Word) (bs : List Byte), ready (.pload b a) s = true → s.my.operands = [] → portOk s b = true →
    value s b = some c → bitsAt c 24 40 = 0 → bitsAt c 8 8 = 0 → bitsAt c 0 8 ≠ 0 → bitsAt c 16 8 + bitsAt c 0 8 ≤ 128 →
    multiple (baseOf s a) 0 4 → settled s = true → storeBytes s (baseOf s a) 0 (4 * bitsAt c 0 8) = some bs →
    s.myCore.mq.any MCmd.sparse = false →
    let g := galleyOf s.me.1
    let at0 := galleyIndex s.me.1 * 128 + bitsAt c 16 8
    let loaded := (List.range (bitsAt c 0 8)).foldl (fun m i => put m (at0 + i) (BitVec.ofNat 32 (recField bs (4 * i) 4))) (s.galley g).pstore
    Goes (.pload b a) s ((taken s [b]).setGalley g { s.galley g with pstore := loaded }) .seq) ∧
  (∀ (i : Instr) (t : Bool) (b a : BitVec 5) (s u : State) (n : Word) (bs : List Byte),
    (i = .pbind b a ∧ t = false ∨ i = .pbindT b a ∧ t = true) → ready i s = true → s.my.operands = [] → portOk s b = true →
    value s b = some n →
    (31 < n.toNat → Illegal i s 0x60) ∧
    (n.toNat ≤ 31 → multiple (baseOf s a) 0 64 →
      (settled s = true ∧ storeBytes s (baseOf s a) 0 64 = some bs ∧ u = taken s [b] ∨ Does (load (baseOf s a) 0 64) (taken s [b]) bs u) →
      let set := fun (o : Option Binding) => u.updMyCore fun c => { c with pbind := vset c.pbind n.toNat o }
      let fault := fun (detail : Nat) => Traps i s { code := 0x14, detail, val := word (recField bs 56 4 * 2 ^ 32 + 0xFFFFFFFF) }
      (recField bs 4 4 = 0 → Goes i s (set none) .seq) ∧
      (recField bs 4 4 ≠ 0 → bindingOk bs = false → fault 2) ∧
      (recField bs 4 4 ≠ 0 → bindingOk bs = true → t = true → recField bs 48 8 = 0 → recField bs 2 2 = 0xFFFF → fault 1) ∧
      (recField bs 4 4 ≠ 0 → bindingOk bs = true → (t = false ∨ recField bs 48 8 ≠ 0 ∨ recField bs 2 2 ≠ 0xFFFF) →
        Goes i s (set (some (bindingOf bs t))) .seq))) ∧
  (∀ (b d : BitVec 5) (s u : State) (n : Word), ready (.pstat b d) s = true → s.my.operands = [] → portOk s b = true → value s b = some n →
    (31 < n.toNat → Illegal (.pstat b d) s 0x60) ∧
    (n.toNat ≤ 31 → written (taken s [b]) d (bindingStatus (vget none s.myCore.pbind n.toNat)) = some u → Goes (.pstat b d) s u .seq))

/-- R272 to R275, R283: a generator runs a word: register words write kd and go to the next word, division by 0 is pattern fault 7;
KBLT and KLOOP go to pc + imm8 or on; KEMIT yields an entry that is inside the matrix and rises, passes over one outside, and is
pattern fault 4 or 5 for one that falls or whose value index is out of range; KEND ends the column; the word after 4,096 is
pattern fault 6. Run by a strand or a hart, a pattern word is an illegal instruction. On conditions of the state and operands
alone, these complete: the sixteen pattern words. -/
def Obligations.GeneratorWords : Prop :=
  (∀ (i : Instr) (d : BitVec 4) (f : Gen → Binding → Option (BitVec 32)) (s : State) (g k : Nat) (run : Running) (q : MCmd) (b : Binding)
    (x : Gen), genResult i = some (d, f) → generating s g k run q b x →
    match f x b with
    | some v => exec i s = .next (genNext s g k { x with k := vset x.k d.toNat v } 1)
    | none => exec i s = .next (s.genFault g k 7)) ∧
  (∀ (j : BitVec 8) (b' a : BitVec 4) (s : State) (g k : Nat) (run : Running) (q : MCmd) (b : Binding) (x : Gen), generating s g k run q b x →
    exec (.kblt b' j a) s = .next (genNext s g k x (if (vget 0 x.k a.toNat).toInt < (vget 0 x.k b'.toNat).toInt then j.toInt else 1)) ∧
    (let v := vget 0 x.k a.toNat - 1
     exec (.kloop j a) s = .next (genNext s g k { x with k := vset x.k a.toNat v } (if 0 < v.toInt then j.toInt else 1))) ∧
    (let e := (vget 0 x.k a.toNat).toInt
     let r : Int := if b.transposed then (vget 0 x.k b'.toNat).toInt else x.count
     let lim := if b.transposed then b.ns else b.ks
     (e < 0 ∨ (lim : Int) ≤ e → exec (.kemit b' a) s = .next (genNext s g k x 1)) ∧
     (0 ≤ e → e < lim → e ≤ x.last → exec (.kemit b' a) s = .next (s.genFault g k 4)) ∧
     (0 ≤ e → e < lim → x.last < e → (r < 0 ∨ (b.vstr : Int) ≤ r) → exec (.kemit b' a) s = .next (s.genFault g k 5)) ∧
     (0 ≤ e → e < lim → x.last < e → 0 ≤ r → r < b.vstr →
       let t := genNext s g k { x with last := e, count := x.count + 1 } 1
       exec (.kemit b' a) s = .next (t.setGalley g { t.galley g with running := some { run with yields := run.yields ++ [(x.col, e.toNat, r.toNat)] } }))) ∧
    (let t := genNext s g k { x with running := false } 0
     let u := t.setGalley g { t.galley g with running := some { run with columns := run.columns ++ [x.col] } }
     exec .kend s = .next (u.setGalley g ((u.galley g).setGen q k (x.col + 1))))) ∧
  (∀ (i : Instr) (s : State) (g k : Nat) (run : Running) (q : MCmd) (b : Binding) (x : Gen), isPattern i = true → s.cur = .generator g k →
    g < 256 → k < 2 → s.runningCmd g = some (run, q) → q.binding = some b → vget Gen.reset (s.galley g).gens k = x → x.running = true →
    4096 ≤ x.steps → exec i s = .next (s.genFault g k 6)) ∧
  (∀ (i : Instr) (s : State), isPattern i = true → hasAgent s = true → Illegal i s 0)

/-! ### Impressions -/

/-- R364 to R366, R372 to R377: VREG registers an impression under a free handle of the die, with a release at package scope; VDROP
frees its handle; VSYNC acquires once no block is pending or being published, and waits until then; VSTAT reads a status word,
or AMAX; VPOL exchanges the policy. A handle of no impression of the tenant is DETAIL 0x92. That a watch table is full by the number of pieces
of the extents (refusal 2) is the model's reading (DEDUCED, log entry 13), and so is it that VREG's checks pass over poison (DEDUCED, log
entry 22). On conditions of the state and
operands alone, these complete: VREG, VDROP, VSYNC, VSTAT, VPOL. -/
def Obligations.Impressions : Prop :=
  (∀ (a d : BitVec 5) (s u1 u2 u3 u4 v : State) (bs : List Byte) (ms cs ss : List (List Extent)), ready (.vreg a d) s = true →
    multiple (baseOf s a) 0 64 → Does (load (baseOf s a) 0 64) s bs u1 → impressionOk bs = true →
    let m := impressionOf bs u1.my.tenant u1.my.gang
    Does (check { read := true, localOnly := true, engine := true } m.masterSpans) u1 ms u2 →
    Does (check { write := true, localOnly := true, engine := true } m.codeSpans) u2 cs u3 →
    Does (check { write := true, localOnly := true, engine := true } m.scaleSpans) u3 ss u4 →
    let m := { m with master := ms.flatten, codes := cs.flatten, scales := ss.flatten }
    anyOverlap (m.codes ++ m.scales) = false →
    (∀ x ∈ m.codes ++ m.scales, ∀ y ∈ m.master ++ u4.impressions.flatMap (fun e => e.2.extents), x.overlaps y = false) →
    settled u4 = true → steady u4 = true →
    let w := ended u4
    match (List.range 64).find? fun k => !listed w.impressions (dieOf w.me.1 * 64 + k) with
    | none => written w d (word (2 ^ 63 + 1)) = some v → Goes (.vreg a d) s v .seq
    | some k =>
      (w.watchFull m = true → written w d (word (2 ^ 63 + 2)) = some v → Goes (.vreg a d) s v .seq) ∧
      (w.watchFull m = false →
        written { w with impressions := put w.impressions (dieOf w.me.1 * 64 + k) m } d (word (dieOf w.me.1 * 64 + k)) = some v →
        Goes (.vreg a d) s v .seq)) ∧
  (∀ (a d : BitVec 5) (s v : State) (bs : List Byte) (ms cs ss : List Extent) (k : Nat), ready (.vreg a d) s = true →
    multiple (baseOf s a) 0 64 → settled s = true → storeBytes s (baseOf s a) 0 64 = some bs → impressionOk bs = true →
    let m := impressionOf bs s.my.tenant s.my.gang
    m.masterSpans.mapM (fun x => pageBytes s x.1 x.2.1 x.2.2) = some ms → m.codeSpans.mapM (fun x => pageBytes s x.1 x.2.1 x.2.2) = some cs →
    m.scaleSpans.mapM (fun x => pageBytes s x.1 x.2.1 x.2.2) = some ss →
    let m := { m with master := ms, codes := cs, scales := ss }
    anyOverlap (cs ++ ss) = false → (∀ x ∈ cs ++ ss, ∀ y ∈ ms, x.overlaps y = false) → (ended s).watchFull m = false →
    (List.range 64).find? (fun k => !listed s.impressions (dieOf s.me.1 * 64 + k)) = some k →
    written { ended s with impressions := put s.impressions (dieOf s.me.1 * 64 + k) m } d (word (dieOf s.me.1 * 64 + k)) = some v →
    Goes (.vreg a d) s v .seq) ∧
  (∀ (a : BitVec 5) (s : State) (h : Word), s.my.operands = [] → portOk s a = true → value s a = some h →
    ((∀ m, find s.impressions h.toNat = some m → m.tenant ≠ s.my.tenant) →
      (ready (.vdrop a) s = true → Illegal (.vdrop a) s 0x92) ∧ (ready (.vsync a) s = true → Illegal (.vsync a) s 0x92)) ∧
    (∀ m, find s.impressions h.toNat = some m → m.tenant = s.my.tenant →
      (ready (.vdrop a) s = true →
        (m.publishing = true → Stalls (.vdrop a) s) ∧
        (m.publishing = false → Goes (.vdrop a) s ((taken s [a]).dropImpression h.toNat) .seq)) ∧
      (ready (.vsync a) s = true →
        (∀ code val, m.faulted = some (code, val) →
          (s.my.wait = .passed → exec (.vsync a) s =
            .next (((taken s [a]).countTouched s.me.1 s.me.2).takeTrap s.me.1 s.me.2 { code := 0x10, val } s.my.pc)) ∧
          (s.my.wait ≠ .passed → settled s = true → exec (.vsync a) s =
            .next (((ended (taken s [a])).countTouched s.me.1 s.me.2).takeTrap s.me.1 s.me.2 { code := 0x10, val } s.my.pc))) ∧
        (m.faulted = none → m.pendingBlocks = 0 → m.publishing = false →
          (s.my.wait = .passed → Goes (.vsync a) s (acquired ((taken s [a]).updMy fun c => { c with wait := .none })) .seq) ∧
          (s.my.wait ≠ .passed → settled s = true →
            Goes (.vsync a) s (acquired ((ended (taken s [a])).updMy fun c => { c with wait := .none })) .seq)) ∧
        (m.faulted = none → (m.pendingBlocks ≠ 0 ∨ m.publishing = true) →
          (s.my.wait = .passed → Stalls (.vsync a) s) ∧
          (s.my.wait ≠ .passed → settled s = true →
            exec (.vsync a) s = .next ((ended (taken s [a])).updMy fun c => { c with wait := .passed })))))) ∧
  (∀ (b a d : BitVec 5) (s v : State) (q h : Word) (m : Impression), s.my.operands = [] → [b, a].all (portOk s) = true →
    value s b = some q → value s a = some h → find s.impressions h.toNat = some m → m.tenant = s.my.tenant →
    (ready (.vstat b a d) s = true → portOk s d = true →
      (bitsAt q 32 29 ≠ 0 ∨ 2 ≤ bitsAt q 61 2 ∨ bitsAt q 61 2 = 0 ∧ m.nb ≤ bitsAt q 0 32 → Illegal (.vstat b a d) s 0x93) ∧
      (bitsAt q 32 29 = 0 → (bitsAt q 61 2 = 1 ∨ bitsAt q 61 2 = 0 ∧ bitsAt q 0 32 < m.nb) →
        let w := if q.getLsbD 63 then
            { taken s [b, a] with impressions := put s.impressions h.toNat { m with stale := false, nan := false, sat := false } }
          else taken s [b, a]
        written (acquired w) d (if bitsAt q 61 2 = 1 then m.amax else m.status (bitsAt q 0 32)) = some v → Goes (.vstat b a d) s v .seq)) ∧
    (ready (.vpol b a d) s = true → portOk s d = true →
      (2 < q.toNat → Illegal (.vpol b a d) s 0x93) ∧
      (q.toNat ≤ 2 → written { taken s [b, a] with impressions := put s.impressions h.toNat { m with policy := q.toNat } } d (word m.policy) = some v →
        Goes (.vpol b a d) s v .seq)))

/-! ### The fabric -/

/-- R406 to R424: RECONF answers 1 while one runs, and otherwise releases at system scope, starts the drain and answers 0; CGJOIN
takes a free group slot and answers its handle; CGLEAVE frees it, at once, with a leave to every other live member, or after what is
queued; COLL queues a collective and answers its sequence number, and waits while 16 are queued; CLOGR writes the donor's bytes of a logged
collective to its DST extent, acquires at system scope and answers 0, and answers 1 for a collective that is not in the log, 2 for one
that cannot be copied, 3 for bytes that are not those of the log and 4 where no donor is live; ST.REP sends its bytes to every other live
member, and with SELF writes them on this package too. The donor's bytes are a free value (log entry 10). The model's readings are: a roster with
a peer number out of range is DETAIL 0xA0, before R408 and R406 are looked at; CGLEAVE with nothing queued leaves at once and tells the other members;
CLOGR answers 1 too for a collective in which the member had no part (DEDUCED, log entry 24); and the order of the checks (DEDUCED, log entry
23). On conditions of the state and
operands alone, each of the six completes, with its effect, where its descriptor and the data that it reads lie in the local store or on a
page of the package, its destinations on pages that nothing hinders, and the releases that it makes have nothing to wait for: RECONF,
CGJOIN, CGLEAVE, COLL, CLOGR, ST.REP. -/
def Obligations.Fabric : Prop :=
  (∀ (a d : BitVec 5) (s u w v : State) (bs : List Byte) (es : List (List Extent)), ready (.reconf a d) s = true →
    Does (fabricDescriptor (baseOf s a)) s bs u →
    (reconfOk u.fabric bs = false → Illegal (.reconf a d) s 0xA0) ∧
    (reconfOk u.fabric bs = true → multiple (word (recField bs 8 8)) 0 8 → Does (check { write := true } [(word (recField bs 8 8), 0, 8)]) u es w →
      w.fabric.present = true → w.fabric.cgen ≤ w.my.tgen.toNat → steady w = true →
      (w.fabric.reconf.isSome = true → written w d 1 = some v → Goes (.reconf a d) s v .seq) ∧
      (∀ x, w.fabric.reconf = none → Does (release 5) w () x → steady x = true →
        let y := ({ x with fabric := { x.fabric with
          reconf := some { gen := recField bs 0 4, dim := recField bs 4 1, ring := recField bs 5 1, mbox := es.flatten
                           swcmd := BitVec.ofNat 256 (recField bs 16 32), phase := .drain } } } : State)
        steady (y.sendControl (y.fabric.fibresOf (recField bs 4 1)) 12 0) = true →
        written (y.sendControl (y.fabric.fibresOf (recField bs 4 1)) 12 0) d 0 = some v → Goes (.reconf a d) s v .seq))) ∧
  (∀ (a d : BitVec 5) (s v : State) (bs : List Byte) (e : Extent), ready (.reconf a d) s = true → multiple (baseOf s a) 0 64 →
    settled s = true → storeBytes s (baseOf s a) 0 64 = some bs → reconfOk s.fabric bs = true → multiple (word (recField bs 8 8)) 0 8 →
    pageBytes s (word (recField bs 8 8)) 0 8 = some e → s.fabric.present = true → s.fabric.cgen ≤ s.my.tgen.toNat →
    (s.fabric.reconf.isSome = true → written s d 1 = some v → Goes (.reconf a d) s v .seq) ∧
    (s.fabric.reconf = none → drained s = true →
      let x := released s
      let y := ({ x with fabric := { x.fabric with
        reconf := some { gen := recField bs 0 4, dim := recField bs 4 1, ring := recField bs 5 1, mbox := [e]
                         swcmd := BitVec.ofNat 256 (recField bs 16 32), phase := .drain } } } : State)
      written (y.sendControl (y.fabric.fibresOf (recField bs 4 1)) 12 0) d 0 = some v → Goes (.reconf a d) s v .seq)) ∧
  (∀ (a d : BitVec 5) (s u1 u2 u3 u4 u5 v : State) (bs rs : List Byte) (es ms : List (List Extent)), ready (.cgjoin a d) s = true →
    Does (fabricDescriptor (baseOf s a)) s bs u1 →
    (joinOk bs = false → Illegal (.cgjoin a d) s 0xA0) ∧
    (joinOk bs = true → Does (load (word (recField bs 16 8)) 0 (4 * recField bs 8 2)) u1 rs u2 →
      let roster := (List.range (recField bs 8 2)).map fun i => recField rs (4 * i) 4
      ((∃ p ∈ roster, 2 ^ 18 ≤ p) → Illegal (.cgjoin a d) s 0xA0) ∧
      ((∀ p ∈ roster, p < 2 ^ 18) → Does (check { read := true, write := true, localOnly := true } [(word (recField bs 24 8), 0, 4096)]) u2 es u3 →
      Does (check { write := true } [(word (recField bs 40 8), 0, 8)]) u3 ms u4 → u4.fabric.present = true → u4.fabric.cgen ≤ u4.my.tgen.toNat →
      Does (release 5) u4 () u5 → steady u5 = true →
      match (List.range 64).find? fun k => !listed u5.fabric.groups k with
      | none => written u5 d (word (2 ^ 63 + 1)) = some v → Goes (.cgjoin a d) s v .seq
      | some k =>
        written (u5.setGroup k
          { gid := word (recField bs 0 8), tenant := u5.my.tenant, members := recField bs 8 2, rank := recField bs 10 2, roster
            area := (es.flatten.map Extent.key).headD 0, mbox := ms.flatten, tmo := recField bs 32 4, spare := recField bs 12 1 == 1
            active := false, mask := [], head := 0, since := 0, ggen := 0, leaving := false, queue := [], parts := [], given := none
            removed := [], interval := u5.tick, decision := none, leavers := [], spares := [] }) d (word k) = some v →
          Goes (.cgjoin a d) s v .seq))) ∧
  (∀ (a d : BitVec 5) (s v : State) (bs rs : List Byte) (e m : Extent), ready (.cgjoin a d) s = true → multiple (baseOf s a) 0 64 →
    settled s = true → storeBytes s (baseOf s a) 0 64 = some bs → joinOk bs = true →
    storeBytes s (word (recField bs 16 8)) 0 (4 * recField bs 8 2) = some rs →
    let roster := (List.range (recField bs 8 2)).map fun i => recField rs (4 * i) 4
    (∀ p ∈ roster, p < 2 ^ 18) → pageBytes s (word (recField bs 24 8)) 0 4096 = some e → pageBytes s (word (recField bs 40 8)) 0 8 = some m →
    s.fabric.present = true → s.fabric.cgen ≤ s.my.tgen.toNat → drained s = true →
    match (List.range 64).find? fun k => !listed s.fabric.groups k with
    | none => written (released s) d (word (2 ^ 63 + 1)) = some v → Goes (.cgjoin a d) s v .seq
    | some k =>
      written ((released s).setGroup k
        { gid := word (recField bs 0 8), tenant := s.my.tenant, members := recField bs 8 2, rank := recField bs 10 2, roster
          area := e.key, mbox := [m], tmo := recField bs 32 4, spare := recField bs 12 1 == 1, active := false, mask := [], head := 0
          since := 0, ggen := 0, leaving := false, queue := [], parts := [], given := none, removed := [], interval := (released s).tick
          decision := none, leavers := [], spares := [] })
          d (word k) = some v →
        Goes (.cgjoin a d) s v .seq) ∧
  (∀ (a : BitVec 5) (s u : State) (h : Word) (g : Group), ready (.cgleave a) s = true → s.my.operands = [] → portOk s a = true →
    value s a = some h →
    (find s.fabric.groups h.toNat = none → Illegal (.cgleave a) s 0xA1) ∧
    (find s.fabric.groups h.toNat = some g → g.tenant = s.my.tenant → Does (release 5) (taken s [a]) () u →
      find u.fabric.groups h.toNat = some g → u.my.tenant = s.my.tenant →
      Goes (.cgleave a) s (if g.queue = [] then u.departs h.toNat g else u.setGroup h.toNat { g with leaving := true }) .seq) ∧
    (find s.fabric.groups h.toNat = some g → g.tenant = s.my.tenant → drained (taken s [a]) = true →
      Goes (.cgleave a) s (if g.queue = [] then (released (taken s [a])).departs h.toNat g
        else (released (taken s [a])).setGroup h.toNat { g with leaving := true }) .seq)) ∧
  (∀ (b a d : BitVec 5) (s u w v : State) (h : Word) (g : Group) (c : Coll), ready (.coll b a d) s = true → s.my.operands = [] →
    portOk s b = true → value s b = some h → Does (collCheck (baseOf s a) h) (taken s [b]) (g, c) u →
    (16 ≤ g.queue.length → Stalls (.coll b a d) s) ∧
    (g.queue.length < 16 → (g.others.map g.peer).any u.fabric.stopped = false → Does (release 5) u () w →
      steady (w.queueColl h.toNat g c) = true → written (w.queueColl h.toNat g c) d (word c.seq) = some v → Goes (.coll b a d) s v .seq)) ∧
  (∀ (b a d : BitVec 5) (s v : State) (h : Word) (g : Group) (bs : List Byte), ready (.coll b a d) s = true → s.my.operands = [] →
    portOk s b = true → value s b = some h → s.fabric.present = true → find s.fabric.groups h.toNat = some g → g.tenant = s.my.tenant →
    multiple (baseOf s a) 0 64 → settled s = true → storeBytes s (baseOf s a) 0 64 = some bs → collOk bs g.members = true →
    let c : Coll := { desc := wordsOf bs 8, seq := g.head, core := s.me.1, tenant := s.my.tenant }
    (c.srcLen g.members g.rank = 0 ∨ (pageBytes s c.srcVa 0 (c.srcLen g.members g.rank)).isSome = true) →
    (c.dstLen g.members = 0 ∨ (pageBytes s c.dstVa 0 (c.dstLen g.members)).isSome = true) → (pageBytes s c.crecVa 0 16).isSome = true →
    s.fabric.cgen ≤ s.my.tgen.toNat → g.queue.length < 16 → (g.others.map g.peer).any s.fabric.stopped = false →
    drained (taken s [b]) = true →
    let w := (released (taken s [b])).queueColl h.toNat g c
    steady w = true → written w d (word c.seq) = some v → Goes (.coll b a d) s v .seq) ∧
  (∀ (b a d : BitVec 5) (s v : State) (q h : Word) (g : Group), ready (.clogr b a d) s = true → s.my.operands = [] →
    [b, a].all (portOk s) = true → value s b = some q → value s a = some h → s.fabric.present = true → find s.fabric.groups h.toNat = some g →
    g.tenant = s.my.tenant →
    ((q.toNat + 16 < g.head ∨ g.since ≤ q.toNat) → written (taken s [b, a]) d 1 = some v → Goes (.clogr b a d) s v .seq) ∧
    (g.head ≤ q.toNat + 16 → q.toNat < g.since →
      let en := memRead s.mem (g.area + 128 * (q.toNat % 16)) 128
      let c : Coll := { desc := wordsOf ((en.drop 16).take 64) 8, seq := q.toNat, core := s.me.1, tenant := s.my.tenant }
      let n := c.dstLen g.members
      let bs := donorBytes s.tick n
      ((2 ≤ recField en 12 1 ∨ c.op = 2 ∨ c.op = 4) → written (taken s [b, a]) d 2 = some v → Goes (.clogr b a d) s v .seq) ∧
      (recField en 12 1 < 2 → c.op ≠ 2 → c.op ≠ 4 →
        (g.others = [] → written (taken s [b, a]) d 4 = some v → Goes (.clogr b a d) s v .seq) ∧
        (g.others ≠ [] → crc64 0 bs ≠ recField en 80 8 → written (taken s [b, a]) d 3 = some v → Goes (.clogr b a d) s v .seq) ∧
        (g.others ≠ [] → crc64 0 bs = recField en 80 8 →
          (settled s = true → ∀ f, pageBytes s c.dstVa 0 n = some f →
            written (acquired (writtenOver true (taken s [b, a]) [f] bs)) d 0 = some v → Goes (.clogr b a d) s v .seq) ∧
          (settled s = true → n = 0 → written (acquired (taken s [b, a])) d 0 = some v → Goes (.clogr b a d) s v .seq) ∧
          (∀ es u w, Does (check { write := true, plain := true, localOnly := true } [(c.dstVa, 0, n)]) (taken s [b, a]) es u →
            Does (acquire 5) (writtenOver true u es.flatten bs) () w → steady w = true → written w d 0 = some v →
            Goes (.clogr b a d) s v .seq))))) ∧
  (∀ (b a d : BitVec 5) (s u0 u1 u2 u3 : State) (x : Word) (qs es ds : List (List Extent)) (g : Group) (bs : List (List Byte)),
    ready (.stRep b a d) s = true → s.my.operands = [] → portOk s b = true → value s b = some x →
    (bitsAt x 13 44 ≠ 0 ∨ bitsAt x 0 13 = 0 ∨ 4096 < bitsAt x 0 13 → Illegal (.stRep b a d) s 0xA0) ∧
    (bitsAt x 13 44 = 0 → bitsAt x 0 13 ≠ 0 → bitsAt x 0 13 ≤ 4096 → s.fabric.present = true →
      find s.fabric.groups (bitsAt x 58 6) = some g → g.tenant = s.my.tenant →
      Does (check { read := true, plain := true, localOnly := true, unread := true } [(baseOf s a, 0, bitsAt x 0 13)]) (taken s [b]) qs u0 →
      Does (check { write := true, plain := true, rep := true, posted := true } [(baseOf s d, 0, bitsAt x 0 13)]) u0 ds u1 →
      Does (onePage ds.flatten (bitsAt x 0 13)) u1 () u1 → find u1.fabric.groups (bitsAt x 58 6) = some g → g.tenant = u1.my.tenant →
      (g.others.map g.peer).all s.fabric.reachable = true → (g.others.map g.peer).any s.fabric.stopped = false →
      let own := ds.flatten.map fun e => { e with key := keyPa e.key, mode := 0 }
      (x.getLsbD 57 = true → (own.any fun e => inPhaseWindow e.key) = false ∧
        (own.any fun e => (List.range e.len).any fun i => s.isDerived (e.key + i)) = false) →
      Does (check { read := true, plain := true, localOnly := true } [(baseOf s a, 0, bitsAt x 0 13)]) u1 es u2 → Does (readExts true es) u2 bs u3 →
      let t := u3.replicate (bitsAt x 58 6) g ds.flatten bs.flatten
      (x.getLsbD 57 = false → Goes (.stRep b a d) s t .seq) ∧
      (x.getLsbD 57 = true → Goes (.stRep b a d) s (writtenOver false t own bs.flatten) .seq))) ∧
  (∀ (b a d : BitVec 5) (s : State) (x : Word) (g : Group) (e f : Extent), ready (.stRep b a d) s = true → s.my.operands = [] →
    portOk s b = true → value s b = some x → bitsAt x 13 44 = 0 → bitsAt x 0 13 ≠ 0 → bitsAt x 0 13 ≤ 4096 → s.fabric.present = true →
    find s.fabric.groups (bitsAt x 58 6) = some g → g.tenant = s.my.tenant → settled s = true →
    pageBytes s (baseOf s a) 0 (bitsAt x 0 13) = some e → pageAt s 1 (baseOf s d) 0 (bitsAt x 0 13) = some f → isPeer f.key = true →
    s.scPending s.who f.key f.len = false → s.behindStream f = false → s.fabric.cgen ≤ s.gen.toNat →
    (g.others.map g.peer).all s.fabric.reachable = true → (g.others.map g.peer).any s.fabric.stopped = false →
    let t := (taken s [b]).touchRead s.who true e
    let bs := memRead t.mem e.key e.len
    let u := t.replicate (bitsAt x 58 6) g [f] bs
    (x.getLsbD 57 = false → Goes (.stRep b a d) s u .seq) ∧
    (x.getLsbD 57 = true → inPhaseWindow (keyPa f.key) = false →
      Goes (.stRep b a d) s (writtenOver false u [{ f with key := keyPa f.key, mode := 0 }] bs) .seq))

/-! ### Events -/

/-- Chapter 2 of the opcode table, each event by the rules of its row: an event at the head of the queue is taken from it and has
its effect; and every event instruction is that of some event. So each of the 95 event instructions, named one by one below,
answers the next state of its own effect whenever its event is at the head of the queue. On conditions of the state and operands
alone, these complete: the 95 event rows. Then what effects do: to copies (R217, R219, R228), to caches, records and directory (R201,
R337, R338), to translations, sectors and windows (R343, R350, R301), to impressions (R368, R371), to groups and the down list (R415,
R422, R391) and to links (R393, R397, R428); the forms they have here are the model's readings (DEDUCED, log entries 16, 20, 22, 24 and
25). -/
def Obligations.Events : Prop :=
  (∀ (e : Event) (t : List Event) (s : State), s.queue = e :: t → exec e.instr s = .next (effect { s with queue := t } e)) ∧
  (∀ i : Instr, bytesOfInstr i = 0 → ∃ e : Event, e.instr = i) ∧
  (∀ core ctx error, Completes .pairComparison (.pairComparison core ctx error) fun s => s.pairEvent core ctx error) ∧
  (∀ core ctx, Completes .migrationMessageArrival (.migrationMessageArrival core ctx) fun s => s.migrationArrives core ctx) ∧
  (∀ core ctx, Completes .migrationResend (.migrationResend core ctx) fun s => s.migrationResends core ctx) ∧
  (∀ core, Completes .arrivalContextGrant (.arrivalContextGrant core) fun s => s.grantArrival core) ∧
  (∀ core, Completes .activeMessageArrival (.activeMessageArrival core) fun s => s.takeMessage core) ∧
  (∀ core ctx code, Completes .amsgReply (.amsgReply core ctx code) fun s => s.reply core ctx code) ∧
  (∀ core slot n from_ gang, Completes .decArrival (.decArrival core slot n from_ gang) fun s =>
    (s.retried (.decArrival core slot n from_ gang)).getD (s.decrement core slot n from_ gang)) ∧
  (∀ core, Completes .taskSlotStart (.taskSlotStart core) fun s => s.startTask core) ∧
  (∀ core dir v, Completes .meshPortWordArrival (.meshPortWordArrival core dir v) fun s =>
    (s.retried (.meshPortWordArrival core dir v)).getD (s.wordArrives core dir v)) ∧
  (∀ core dir ch v c, Completes .queueElementArrival (.queueElementArrival core dir ch v c) fun s =>
    (s.retried (.queueElementArrival core dir ch v c)).getD (s.elementArrives core dir ch (v, c))) ∧
  (∀ core ctx k, Completes .streamElementFetch (.streamElementFetch core ctx k) fun s => (s.streamStep core ctx k false).getD s) ∧
  (∀ core ctx k, Completes .streamElementWrite (.streamElementWrite core ctx k) fun s => (s.streamStep core ctx k true).getD s) ∧
  (∀ core tag, Completes .copyCompletion (.copyCompletion core tag) fun s => s.completeCopy core tag) ∧
  (∀ core tag, Completes .copyStop (.copyStop core tag) fun s => s.stopCopy core tag) ∧
  (∀ core, Completes .hartRestart (.hartRestart core) fun s =>
    if (s.core core).hartStopped && !(s.core core).dead then s.startHart core else s) ∧
  (∀ g, Completes .matrixCommandTake (.matrixCommandTake g) fun s => s.takeCommand g) ∧
  (∀ g, Completes .matrixCommandComplete (.matrixCommandComplete g) fun s => s.completeCommand g) ∧
  (∀ g, Completes .matrixResumableStop (.matrixResumableStop g) fun s => s.stopCommand g) ∧
  (∀ cores, Completes .preemption (.preemption cores) fun s => s.preempt cores) ∧
  (∀ core, Completes .preemptionSaveComplete (.preemptionSaveComplete core) fun s => s.saveDone core) ∧
  (∀ image core, Completes .restore (.restore image core) fun s => s.restoreImage image core) ∧
  (∀ core, Completes .retryResend (.retryResend core) fun s => s.resend core) ∧
  (∀ core ctx, Completes .heldStrandRelease (.heldStrandRelease core ctx) fun s => s.releaseHeld core ctx) ∧
  (∀ core ctx, Completes .heldStrandEnd (.heldStrandEnd core ctx) fun s => s.endHeld core ctx) ∧
  (∀ core agent va key n, Completes .l1Fill (.l1Fill core agent va key n) fun s => s.fillEvent core agent va key n) ∧
  (∀ core agent key bs, Completes .ownershipGrant (.ownershipGrant core agent key bs) fun s => s.grantEvent core agent key bs) ∧
  (∀ core key n rc ra, Completes .forwardedRead (.forwardedRead core key n rc ra) fun s =>
    if s.forwardConflict rc ra false key n then s else s.forwardedRead core key n) ∧
  (∀ core key n rc ra, Completes .forwardedOwnership (.forwardedOwnership core key n rc ra) fun s =>
    if s.forwardConflict rc ra true key n then s else s.forwardedOwnership core key n) ∧
  (∀ core key n drop, Completes .recallRange (.recallRange core key n drop) fun s => s.recall core key n drop) ∧
  (∀ core agent, Completes .recordDeletion (.recordDeletion core agent) fun s => s.deleteRecords core agent) ∧
  (∀ core key tag, Completes .l1UncorrectableError (.l1UncorrectableError core key tag) fun s => s.l1Error core key tag) ∧
  (∀ key n, Completes .directoryError (.directoryError key n) fun s => s.directoryFails key n) ∧
  (∀ key n, Completes .recallTimeout (.recallTimeout key n) fun s => s.recallFails key n) ∧
  (∀ core va, Completes .translationWalk (.translationWalk core va) fun s => s.walkEvent core va) ∧
  (∀ core va, Completes .leaseExpiry (.leaseExpiry core va) fun s => s.leaseEnds core va) ∧
  (∀ pa, Completes .patrolScrub (.patrolScrub pa) fun s => s.findBad pa) ∧
  Completes .announcementWindowClose .announcementWindowClose (fun s => s.closeWindow) ∧
  (∀ die, Completes .announcementDelivery (.announcementDelivery die) fun s => s.deliver die s.scOps.length) ∧
  (∀ cell, Completes .phaseStep (.phaseStep cell) fun s => s.stepPhase cell) ∧
  (∀ die, Completes .impressionPass (.impressionPass die) fun s => s.startPass die) ∧
  (∀ die, Completes .blockRecomputation (.blockRecomputation die) fun s => s.recomputeNext die) ∧
  (∀ pa bs, Completes .bar2Write (.bar2Write pa bs) fun s => s.bar2Write pa bs) ∧
  (∀ pa n, Completes .bar2Read (.bar2Read pa n) fun s => s.bar2Read pa n) ∧
  (∀ h w bs, Completes .hostWindowRequest (.hostWindowRequest h w bs) fun s => s.hostRequest h w bs) ∧
  (∀ h, Completes .backInvalidation (.backInvalidation h) fun s => s.backInvalidate h) ∧
  (∀ k, Completes .launchRingEntry (.launchRingEntry k) fun s => s.takeRing k) ∧
  Completes .eventRingWrite .eventRingWrite (fun s => s.writeEvent) ∧
  (∀ v, Completes .winbaseWrite (.winbaseWrite v) fun s => s.writeWinbase v) ∧
  (∀ v, Completes .eqbaseWrite (.eqbaseWrite v) fun s => s.writeEqbase v) ∧
  (∀ v, Completes .eqsizeWrite (.eqsizeWrite v) fun s => s.writeEqsize v) ∧
  (∀ v, Completes .eqheadWrite (.eqheadWrite v) fun s => s.setBar0 fun b => { b with eqhead := v }) ∧
  (∀ k v, Completes .lqbaseWrite (.lqbaseWrite k v) fun s => s.writeLqbase k v) ∧
  (∀ k v, Completes .lqsizeWrite (.lqsizeWrite k v) fun s => s.writeLqsize k v) ∧
  (∀ k v, Completes .lqtailWrite (.lqtailWrite k v) fun s => s.setBar0 fun b => { b with lqtail := vset b.lqtail k v }) ∧
  (∀ k v, Completes .lqtenWrite (.lqtenWrite k v) fun s => s.writeLqten k v) ∧
  (∀ o v, Completes .attnWrite (.attnWrite o v) fun s => s.writeAttn o v) ∧
  (∀ o v, Completes .managementRegisterWrite (.managementRegisterWrite o v) fun s => s.writeManagement o v) ∧
  (∀ die slot r, Completes .bindRecordCommit (.bindRecordCommit die slot r) fun s => s.commitRecord die slot r) ∧
  (∀ die slot, Completes .bindRecordEmpty (.bindRecordEmpty die slot) fun s => s.emptyRecord die slot) ∧
  (∀ i r, Completes .boundsRecordWrite (.boundsRecordWrite i r) fun s => s.writeBounds i r) ∧
  (∀ x, Completes .startUp (.startUp x) fun s => s.startUp x) ∧
  (∀ n x, Completes .flitReceive (.flitReceive n x) fun s => s.receiveFlit n x) ∧
  (∀ n, Completes .frameReceive (.frameReceive n) fun s => s.receiveFrame n) ∧
  (∀ n a, Completes .acknowledgement (.acknowledgement n a) fun s => s.updFibre n fun f => f.acked s.fabric.own n a) ∧
  (∀ n, Completes .acknowledgementDue (.acknowledgementDue n) fun s => s.sendAck n) ∧
  (∀ n q, Completes .replayRequest (.replayRequest n q) fun s => s.updFibre n fun f => f.answerReplay q) ∧
  (∀ n, Completes .replayTimeout (.replayTimeout n) fun s => s.updFibre n Fibre.replay) ∧
  (∀ n m q, Completes .restripe (.restripe n m q) fun s => s.restripe n m q) ∧
  (∀ n gen peer ring, Completes .hello (.hello n gen peer ring) fun s => s.updFibre n fun f => { f with hello := some (gen, peer, ring) }) ∧
  (∀ n, Completes .quiesce (.quiesce n) fun s => s.updFibre n fun f => { f with quiesced := true }) ∧
  (∀ n t w, Completes .wavelengthThreshold (.wavelengthThreshold n t w) fun s => s.waveOut n t w) ∧
  (∀ n t w ok, Completes .wavelengthTrained (.wavelengthTrained n t w ok) fun s => s.waveTrained n t w ok) ∧
  (∀ t g c, Completes .lossOfLight (.lossOfLight t g c) fun s => s.loseLight t g c) ∧
  (∀ t g c, Completes .lightReturn (.lightReturn t g c) fun s => s.returnLight t g c) ∧
  (∀ n r k, Completes .keyLoad (.keyLoad n r k) fun s => s.loadKey n r k) ∧
  (∀ p down, Completes .downListWrite (.downListWrite p down) fun s => if down then s.addDown p else s.dropDown p) ∧
  (∀ r, Completes .remoteRequest (.remoteRequest r) fun s => s.remoteRequest r) ∧
  (∀ id, Completes .remoteResponse (.remoteResponse id) fun s => s.respond id) ∧
  (∀ id, Completes .copyWritePacket (.copyWritePacket id) fun s =>
    (match s.fabric.packet id with | some p => if p.isCopy then s.arriveHome id else s | none => s)) ∧
  (∀ core tag id, Completes .copyWriteResponse (.copyWriteResponse core tag id) fun s => s.respondCopy core tag id) ∧
  Completes .reconfDrainComplete .reconfDrainComplete (fun s => s.drainDone) ∧
  (∀ b, Completes .switchStatus (.switchStatus b) fun s => s.switchAnswer b) ∧
  Completes .switchStatusTimeout .switchStatusTimeout (fun s => s.switchSilent) ∧
  Completes .reconfTrainingComplete .reconfTrainingComplete (fun s => s.trainingDone) ∧
  Completes .reconfTimeout .reconfTimeout (fun s => s.reconfLate) ∧
  (∀ h, Completes .groupActive (.groupActive h) fun s => s.activate h) ∧
  (∀ h live, Completes .joinTimeout (.joinTimeout h live) fun s => s.refuseJoin h live) ∧
  (∀ h p, Completes .collectiveContribution (.collectiveContribution h p) fun s => s.contribute h p) ∧
  (∀ h r, Completes .memberTimeout (.memberTimeout h r) fun s => s.memberLate h r) ∧
  (∀ h, Completes .collectiveCompletion (.collectiveCompletion h none) fun s => s.completeColl h) ∧
  (∀ h d, Completes .collectiveCompletion (.collectiveCompletion h (some d)) fun s => s.decided h d) ∧
  (∀ core p, Completes .uncorrectableCoreError (.uncorrectableCoreError core p) fun s => s.coreError core p) ∧
  (∀ pa, Completes .hbmUncorrectableError (.hbmUncorrectableError pa) fun s => s.sectorFails pa) ∧
  (∀ h x, Completes .cxlCacheResponse (.cxlCacheResponse h x) fun s => s.cxlAnswer h x) ∧
  (∀ a b t n pinned, Completes .fibrePinWrite (.fibrePinWrite a b t n pinned) fun s => s.pin a b t n pinned) ∧
  (∀ v, Completes .wavelengthThresholdWrite (.wavelengthThresholdWrite v) fun s => { s with fabric := { s.fabric with threshold := v } }) ∧
  -- a copy completes when it is ready, and only then; it stops at the fault that it meets, and only there (R217, R219, R228)
  (∀ (s : State) core tag, s.copyReady core tag = false → s.completeCopy core tag = s) ∧
  (∀ (s : State) core tag c, vget none (s.core core).copies tag = some c → s.copyReady core tag = true → c.far = false →
    s.completeCopy core tag =
      (let t := s.updCore core fun k => k.idleTag tag
       match if c.abandoned then none else c.dec with
       | some slot => (t.post (.decArrival core slot 1 core (s.team c.team).gang)).gangCheck (s.team c.team).gang
       | none => t.gangCheck (s.team c.team).gang)) ∧
  (∀ (s : State) core tag, s.copyFault core tag = none → s.stopCopy core tag = s) ∧
  (∀ (s t : State) core tag f c, s.copyFault core tag = some (t, f) → vget none (t.core core).copies tag = some c →
    s.stopCopy core tag =
      (t.updCore core fun k => k.updCopy tag fun p => { p with fault := some f, raised := false }).gangCheck (t.team c.team).gang) ∧
  -- a recall leaves no byte of its range in the L1; a forwarded read leaves none of it owned there (R201)
  (∀ (s : State) (core key n k : Nat) drop, key ≤ k → k < key + n →
    heldBy ((s.recall core key n drop).core core).l1 (fun _ => true) k = false) ∧
  (∀ (s : State) (core key n k : Nat), key ≤ k → k < key + n →
    heldBy ((s.forwardedRead core key n).core core).l1 (fun e => e.st != .s) k = false) ∧
  -- records of ended intervals are deleted, and no others (R337); a recall that is not answered poisons each byte of its range, and no
  -- entry of the directory names one (R338)
  (∀ (s : State) (core agent : Nat) h, h ∈ (s.deleteRecords core agent).records ↔
    h ∈ s.records ∧ ¬(h.core = core ∧ h.access.agent = agent ∧ s.recLive h.core h.access = false)) ∧
  (∀ (s : State) (key n i : Nat), i < n → key + i ∈ (s.recallFails key n).poison) ∧
  (∀ (s : State) (key n k : Nat), key ≤ k → k < key + n → ∀ e ∈ (s.recallFails key n).dir, ¬(e.key ≤ k ∧ k < e.key + e.len)) ∧
  -- a lease that runs out takes its translations (R343); a sector that fails is bad from then on (R350)
  (∀ (s : State) (core va : Nat) e, e ∈ ((s.leaseEnds core va).core core).tlb ↔ e ∈ (s.core core).tlb ∧ ¬(e.va ≤ va ∧ va < e.va + e.size)) ∧
  (∀ (s : State) (pa k : Nat), k ∈ (s.sectorFails pa).badSectors ↔ k ∈ s.badSectors ∨ (isHbm pa = true ∧ k = pa / 32 * 32)) ∧
  -- a window that closes lets every core announce again (R301)
  (∀ s : State, s.closeWindow.windowsClosed = s.windowsClosed + 1 ∧ ∀ n, (s.closeWindow.core n).announced = false) ∧
  -- a pass takes the blocks that are PENDING at its start; each is recomputed if it is eligible then, and else skipped (R368); a check that
  -- fails makes the impression FAULTED and writes no byte (R371)
  (∀ (s : State) die, vget [] s.passes die ≠ [] → s.startPass die = s) ∧
  (∀ (s : State) die h b, die < 4 → vget [] s.passes die = [] →
    ((h, b) ∈ vget [] (s.startPass die).passes die ↔
      ∃ m, (h, m) ∈ s.impressions ∧ h / 64 = die ∧ m.faulted = none ∧ b < m.nb ∧ (m.block b).1 = .pending)) ∧
  (∀ (s : State) die, vget [] s.passes die = [] → s.recomputeNext die = s) ∧
  (∀ (s : State) die h b t m, vget [] s.passes die = (h, b) :: t → find s.impressions h = some m →
    ({ s with passes := vset s.passes die t } : State).eligibleBlock m b = true → m.faulted = none → (m.block b).1 = .pending →
    s.recomputeNext die = ({ s with passes := vset s.passes die t } : State).recompute h b m) ∧
  (∀ (s : State) die h b t m, vget [] s.passes die = (h, b) :: t → find s.impressions h = some m →
    (({ s with passes := vset s.passes die t } : State).eligibleBlock m b = false ∨ m.faulted ≠ none ∨ (m.block b).1 ≠ .pending) →
    s.recomputeNext die = { s with passes := vset s.passes die t }) ∧
  (∀ (s u : State) h blk m t,
    s.engineCheck m false [spanAt m.mbase (m.masterVa (blk / m.bpr) (32 * (blk % m.bpr)) 0) (32 * m.eb)] = (.error t, u) →
    (s.recompute h blk m).mem = s.mem ∧ find (s.recompute h blk m).impressions h = some { m with faulted := some (t.code, t.val) }) ∧
  -- a group becomes active once, with every rank live and GGEN 1, and writes its area and MBOX (R415); one refused is free again (R415, R422)
  (∀ (s : State) h g, find s.fabric.groups h = some g → g.active = true → s.activate h = s ∧ ∀ live, s.refuseJoin h live = s) ∧
  (∀ (s : State) h g, find s.fabric.groups h = some g → g.active = false → g.spare = false →
    s.activate h = ((s.keepGroup h { g with active := true, mask := List.range g.members, ggen := 1 }).homeWrite (g.area + 2574)
      (List.replicate 1522 0)).writeOver g.mbox (leBytes 8 1)) ∧
  (∀ (s : State) h g live, find s.fabric.groups h = some g → g.active = false →
    s.refuseJoin h live = (s.writeOver g.mbox (leBytes 8 (2 ^ 63 + if live && g.spare then 3 else 2))).freeGroup h ∧
    find (s.refuseJoin h live).fabric.groups h = none) ∧
  -- the down list holds a peer once, and at most 64 (R391)
  (∀ (s : State) p, s.fabric.down.contains p = true ∨ 64 ≤ s.fabric.down.length → s.addDown p = s) ∧
  (∀ (s : State) p q, q ∈ (s.dropDown p).fabric.down ↔ q ∈ s.fabric.down ∧ q ≠ p) ∧
  -- a link's own state is no memory and no register; a flit that cannot be corrected asks for a replay; one in order, and no other, is kept
  -- and acknowledged (R393, R397); a replay request is answered by every flit held, or ignored while such a replay goes on (R397, R428)
  (∀ (s : State) n g, (s.updFibre n g).mem = s.mem ∧ sameRegisters s (s.updFibre n g)) ∧
  (∀ (s : State) n (x : Flit), x.whole = false → s.receiveFlit n x = s.updFibre n Fibre.askReplay) ∧
  (∀ (f : Fibre) (x : Flit), (x.seq.toNat + 4096 - f.expected) % 4096 = 0 →
    (f.keep x).expected = (f.expected + 1) % 4096 ∧ (f.keep x).ackDue = true ∧
      (f.keep x).frame = f.frame ++ [⟨x.header, x.kp, x.type.toNat, x.seq.toNat, x.body⟩]) ∧
  (∀ (f : Fibre) (x : Flit), (x.seq.toNat + 4096 - f.expected) % 4096 ≠ 0 → (f.keep x).expected = f.expected ∧ (f.keep x).frame = f.frame) ∧
  (∀ (f : Fibre) q r, f.replaying = some r → (q % 4096 + 4096 - r.1) % 4096 < 2048 → f.answerReplay q = f) ∧
  (∀ (f : Fibre) q x t, f.replaying = none → f.held = x :: t →
    f.answerReplay q =
      { f with sent := f.sent ++ f.held.map (fun y => ⟨y.type, y.seq, y.ack, y.kp, 0⟩), replaying := some (x.seq, f.nextSeq) })

/-! ### The step -/

/-- R40, R41, R42, R60: the step of an agent that fetches is exec of the instruction that its bytes decode to. With nothing to do a cycle
passes; else one of the moves is made, and the step ends: both are the model's choice (DESIGN CHOICE, log entry 4). A strand's attempt is charged
to its core and its counters, and changes no byte and no other register by that; nor does the end of a step where no core is to die, no
held store of a pair is due and the directory is not too full. A fetch returns the latest bytes, where R42 admits older ones (DEDUCED, log entry 5). One
that is refused, and a word that is no instruction, take the trap; one that has to wait makes its agent wait. That a fetch waits where an LDRO
would, and is refused with 0x03 where an LDRO would trap, is the model's reading (DEDUCED, log entry 15). -/
def Obligations.StepRunsDecoded : Prop :=
  (∀ s : State, s.moves = [] → step s = .next (s.begin .hardware)) ∧
  (∀ s : State, s.moves ≠ [] → ∃ m ∈ s.moves, step s = s.playOut m) ∧
  (∀ (s t : State) (m : Move), s.play m = .next t → s.playOut m = .next t.settled) ∧
  (∀ s : State, restful s → s.settled.mem = s.mem ∧ sameRegisters s s.settled) ∧
  (∀ s : State, restful s → (∀ n ∈ s.coreList, ((s.core n).skip.toList.all fun k => k == 0) = true) →
    (∀ e ∈ s.galleys, s.cycles e.1 = true → e.2.arbIdle = true) → s.settled = s) ∧
  (∀ (s t : State) (n i : Nat) (e : List Nat), (s.issue n i).runNext = .next t → s.play (.strand n i e) = .next (t.charge n i e)) ∧
  (∀ (s : State) (n i : Nat) (e : List Nat), (s.charge n i e).mem = s.mem ∧ sameRegisters s (s.charge n i e)) ∧
  (∀ (s : State) (n : Nat), (s.begin (.hart n)).builtin = false → s.play (.hart n) = (s.begin (.hart n)).runNext) ∧
  (∀ (s u : State) (bs rest : List Byte) (i : Instr), s.fetch = .ok (bs, u) → decode bs = .ok (i, rest) → u.consumesBad i = false →
    s.runNext = exec i u) ∧
  (∀ (s u : State) (bs : List Byte), s.fetch = .ok (bs, u) →
    (decode bs = .error .illegal → s.runNext = .next (u.trapHere { code := 0x01, val := word (leNat bs) })) ∧
    (decode bs = .error .typeCode → s.runNext = .next (u.trapHere { code := 0x01, detail := 0x20, val := word (leNat bs) }))) ∧
  (∀ (s u : State) (t : Trap), s.fetch = .error (.fault t u) → t.code = 0x03 ∧ s.runNext = .next (u.trapHere t)) ∧
  (∀ (s u : State), s.fetch = .error (.wait u) → s.runNext = .next (u.updMy fun c => { c with st := .stalled })) ∧
  (∀ (s u : State), s.fetch = .error (.dead u) → s.runNext = .next u) ∧
  (∀ (s : State) (va : Word) (h : Nat) (u : State), s.fetchHalf va = .ok (h, u) →
    ∃ a e t, checkExtent s s.who s.space { fetch := true } va 0 2 {} = .ok a t ∧ a.exts = [e] ∧ a.wait = false ∧ t.badData e = none ∧
      h = leNat (memRead t.mem e.key 2) ∧ u = t.noteStaleOnce t.me.1 t.me.2 a.stale) ∧
  (∀ (e : Event) (t : List Event) (s : State), s.queue = e :: t → s.play .queued = exec e.instr (s.begin .hardware)) ∧
  (∀ (s : State) (e : Event), s.play (.engine e) = exec e.instr { s.begin .hardware with queue := e :: s.queue })

/-- R58, R55: the halfword 0x0000 is no instruction: fetching it takes the illegal-instruction trap. Unmasked VADD v0, v0 has no
16-bit word, but a 32-bit one. A word with a reserved opcode, such as 0xFFFF_FFFF, whose opcode is 0x7F, takes the trap too. -/
def Obligations.NotInstructions : Prop :=
  (∀ s u : State, s.fetchHalf s.my.pc = .ok (0x0000, u) → s.runNext = .next (u.trapHere { code := 0x01, val := 0 })) ∧
  (∀ i : Instr, WellFormed i = true → encode i ≠ [0x00, 0x00]) ∧
  WellFormed (.vaddLForm 0 0 0) = false ∧ (encodeNat (.vaddLForm 0 0 0)).1 = 0x0000 ∧
  decode (encode (.vadd 0 0 0 0 0)) = .ok (.vadd 0 0 0 0 0, []) ∧ (encode (.vadd 0 0 0 0 0)).length = 4 ∧
  reservedOpcode 0x7F = true ∧ 0xFFFFFFFF / 2 % 128 = 0x7F ∧
  (∀ (s u v : State) (h k : Nat), h < 65536 → k < 65536 → h % 2 = 1 → reservedOpcode (h / 2 % 128) = true →
    s.fetchHalf s.my.pc = .ok (h, u) → u.fetchHalf (s.my.pc + 2) = .ok (k, v) →
    s.runNext = .next (v.trapHere { code := 0x01, val := word (h + 65536 * k) }))

/-- R40, R43 to R57: words written out field by field from the encodings of the spec, and the instructions they stand for. The
three last are words that the spec itself works out. -/
def Obligations.DecodeWords : Prop :=
  -- f5 = 1, f4 = 2, b = 3, a = 1, d = 2, opcode 0x01: SUB.L16 g2, g1, g3
  decode (natToBytes 4 (0x01 * 2 + 1 + 2 * 2 ^ 8 + 1 * 2 ^ 13 + 3 * 2 ^ 18 + 2 * 2 ^ 23 + 1 * 2 ^ 27)) = .ok (.subR 2 3 1 2, []) ∧
  -- disp14 = −2, b = 5, a = 4, opcode 0x12: BLT
  decode (natToBytes 4 (0x12 * 2 + 1 + 4 * 2 ^ 8 + 5 * 2 ^ 13 + 0x3FFE * 2 ^ 18)) = .ok (.blt 0x3FFE 5 4, []) ∧
  -- disp19 = 4, d = 28, opcode 0x18: J
  decode (natToBytes 4 (0x18 * 2 + 1 + 28 * 2 ^ 8 + 4 * 2 ^ 13)) = .ok (.jmp 4 28, []) ∧
  -- op4 = 2, vd = 7, vs = 6, masked: the 16-bit VMUL v7, v6
  decode (natToBytes 2 (2 * 2 + 7 * 2 ^ 5 + 6 * 2 ^ 10 + 2 ^ 15)) = .ok (.vmulLForm 1 6 7, []) ∧
  -- R54: LD.D g3, [a1] with la = 2; ADD g4, g3, #1; ADD g6, g3, #0
  decode (natToBytes 4 0x19722359) = .ok (.ldstrLoad 0 3 2 28 17 3, []) ∧
  decode (natToBytes 4 0x00046405) = .ok (.addImm 1 3 4, []) ∧
  decode (natToBytes 4 0x00006605) = .ok (.addImm 0 3 6, [])

/-- Chapter 1 of the encodings: for every well-formed instruction that has a word, at every value of its operands, decoding the
encoded word gives the instruction back and leaves the bytes after it; a pattern word read by a generator means what exec says
of its instruction; and no two instructions share a word. -/
def Obligations.EncodeDecode : Prop :=
  (∀ (i : Instr) (rest : List Byte), WellFormed i = true → bytesOfInstr i ≠ 0 → isPattern i = false → decode (encode i ++ rest) = .ok (i, rest)) ∧
  (∀ i : Instr, WellFormed i = true → isPattern i = true →
    rawPattern (encodeNat i).1 = some i ∧ ∃ f, patternMeaning (encodeNat i).1 = some f ∧ ∀ s, f s = exec i s) ∧
  (∀ i j : Instr, WellFormed i = true → WellFormed j = true → bytesOfInstr i ≠ 0 → encode i = encode j → i = j)

/-! ### The whole machine -/

/-- The memory keeps its canonical form in every step, from every state that has it (the model's own form, log entry 1). -/
def Obligations.MemoryInvariant : Prop := Kept fun s => Memory.wf s.mem = true

/-- R60, R73: every instruction of an agent that exists answers a next state, its own effect or a trap, and every event does;
nothing stops the machine. -/
def Obligations.EveryInstructionRuns : Prop :=
  ∀ (i : Instr) (s : State), (hasAgent s = true ∨ bytesOfInstr i = 0) → Runs (exec i s)

/-- R4, R134, R313, R358, R378: the machine right after reset: no core is bound, no context is taken, memory is empty and in canonical
form, no line of the host window is held and no impression is registered. The reset values that the spec leaves open are in
log entries 1 to 3; that memory then reads as 0 is the model's choice (log entry 1). -/
def Obligations.ResetState : Prop :=
  Memory.wf State.reset.mem = true ∧ (∀ k, memByte State.reset.mem k = 0) ∧ State.reset.full = [] ∧ State.reset.binds = [] ∧
  (∀ n k, k < 8 → (State.reset.ctx n k).st = .free) ∧ State.reset.impressions = [] ∧ State.reset.winLines = [] ∧ State.reset.queue = []
end

