-- ==== Sys2Proof/Laws/Sparse.lean ====
section
/-! SUPPORT. Laws of sparse tables, of vectors with a default, and of byte order. -/

namespace Sys2Proof.Machine

variable {α : Type}

/-! ### Sparse tables -/

@[simp] theorem look_put (d : α) (m : Sparse α) (n : Nat) (v : α) : look d (put m n v) n = v := by
  induction m with
  | nil => simp [put, look]
  | cons e t ih =>
    obtain ⟨k, w⟩ := e
    by_cases h : n = k
    · simp [put, look, h]
    · by_cases g : n < k <;> simp [put, look, h, g, ih]

theorem look_put_ne (d : α) (m : Sparse α) {n k : Nat} (h : k ≠ n) (v : α) : look d (put m n v) k = look d m k := by
  induction m with
  | nil => simp [put, look, h]
  | cons e t ih =>
    obtain ⟨j, w⟩ := e
    by_cases g : n = j
    · subst g; simp [put, look, h]
    · by_cases l : n < j
      · simp [put, look, h, g, l]
      · by_cases q : k = j <;> simp [put, look, g, l, q, ih]

@[simp] theorem put_put (m : Sparse α) (n : Nat) (v w : α) : put (put m n v) n w = put m n w := by
  induction m with
  | nil => simp [put]
  | cons e t ih =>
    obtain ⟨j, u⟩ := e
    by_cases g : n = j
    · simp [put, g]
    · by_cases l : n < j <;> simp [put, g, l, ih]

@[simp] theorem find_put (m : Sparse α) (n : Nat) (v : α) : find (put m n v) n = some v := by
  induction m with
  | nil => simp [put, find]
  | cons e t ih =>
    obtain ⟨k, w⟩ := e
    by_cases h : n = k
    · simp [put, find, h]
    · by_cases g : n < k <;> simp [put, find, h, g, ih]

theorem find_put_ne (m : Sparse α) {n k : Nat} (h : k ≠ n) (v : α) : find (put m n v) k = find m k := by
  induction m with
  | nil => simp [put, find, h]
  | cons e t ih =>
    obtain ⟨j, w⟩ := e
    by_cases g : n = j
    · subst g; simp [put, find, h]
    · by_cases l : n < j
      · simp [put, find, h, g, l]
      · by_cases q : k = j <;> simp [put, find, g, l, q, ih]

/-- A table read with a default is the listed entry or the default. -/
theorem look_eq_find (d : α) (m : Sparse α) (n : Nat) : look d m n = (find m n).getD d := by
  induction m with
  | nil => rfl
  | cons e t ih =>
    obtain ⟨k, v⟩ := e
    by_cases h : n = k <;> simp [look, find, h, ih]

@[simp] theorem find_erase (m : Sparse α) (n : Nat) : find (erase m n) n = none := by
  induction m with
  | nil => rfl
  | cons e t ih =>
    obtain ⟨k, v⟩ := e
    by_cases h : k = n
    · simpa [erase, h] using ih
    · have g : ¬ n = k := fun q => h q.symm
      simpa [erase, find, h, g] using ih

theorem find_erase_ne (m : Sparse α) {n k : Nat} (h : k ≠ n) : find (erase m n) k = find m k := by
  induction m with
  | nil => rfl
  | cons e t ih =>
    obtain ⟨j, v⟩ := e
    by_cases g : j = n
    · subst g
      simp [find, h] at ih ⊢
      simpa [erase] using ih
    · by_cases q : k = j
      · subst q; simp [erase, find, g]
      · have : find (erase t n) k = find t k := ih
        simpa [erase, find, g, q] using this

theorem look_erase (d : α) (m : Sparse α) (n : Nat) : look d (erase m n) n = d := by simp [look_eq_find]

theorem look_erase_ne (d : α) (m : Sparse α) {n k : Nat} (h : k ≠ n) : look d (erase m n) k = look d m k := by
  simp [look_eq_find, find_erase_ne m h]

/-! ### Vectors -/

theorem vget_vset {n : Nat} (d : α) (v : Vector α n) {i : Nat} (h : i < n) (x : α) : vget d (vset v i x) i = x := by
  simp [vget, vset, h]

theorem vget_vset_ne {n : Nat} (d : α) (v : Vector α n) {i j : Nat} (h : j ≠ i) (x : α) : vget d (vset v i x) j = vget d v j := by
  simp [vget, vset, Ne.symm h]

/-! ### Byte order (R8) -/

@[simp] theorem length_leBytes (n v : Nat) : (leBytes n v).length = n := by
  induction n generalizing v with
  | zero => rfl
  | succ n ih => simp [leBytes, ih]

/-- The bytes of a number, least significant first, are the number again. -/
theorem leNat_leBytes (n v : Nat) : leNat (leBytes n v) = v % 256 ^ n := by
  induction n generalizing v with
  | zero => simp [leBytes, leNat, Nat.mod_one]
  | succ n ih =>
    simp only [leBytes, leNat, ih, BitVec.toNat_ofNat, Nat.reducePow]
    rw [Nat.pow_succ, Nat.mul_comm (256 ^ n) 256, Nat.mod_mul]

theorem leNat_lt (bs : List Byte) : leNat bs < 256 ^ bs.length := by
  induction bs with
  | nil => simp [leNat]
  | cons b t ih =>
    have hb : b.toNat < 256 := b.isLt
    simp only [leNat, List.length_cons, Nat.pow_succ]
    omega

/-- Byte i of a number's bytes. -/
theorem getD_leBytes (n v i : Nat) (h : i < n) : (leBytes n v).getD i 0 = BitVec.ofNat 8 (v / 256 ^ i) := by
  induction n generalizing v i with
  | zero => omega
  | succ n ih =>
    cases i with
    | zero => simp [leBytes]
    | succ i =>
      simp only [leBytes, List.getD_cons_succ]
      rw [ih (v / 256) i (by omega), Nat.div_div_eq_div_mul, Nat.pow_succ, Nat.mul_comm 256]

end Sys2Proof.Machine
end

