-- ==== Sys2Proof/Laws/State.lean ====
section
/-! SUPPORT. What each named update of the state leaves in each field: one lemma for each field and update, so that no
later proof unfolds a record update. -/

namespace Sys2Proof.Machine

/-! ### setCore -/

@[simp] theorem State.setCore_mem (s : State) (n : Nat) (c : Core) : (s.setCore n c).mem = s.mem := rfl
@[simp] theorem State.setCore_poison (s : State) (n : Nat) (c : Core) : (s.setCore n c).poison = s.poison := rfl
@[simp] theorem State.setCore_badSectors (s : State) (n : Nat) (c : Core) : (s.setCore n c).badSectors = s.badSectors := rfl
@[simp] theorem State.setCore_full (s : State) (n : Nat) (c : Core) : (s.setCore n c).full = s.full := rfl
@[simp] theorem State.setCore_galleys (s : State) (n : Nat) (c : Core) : (s.setCore n c).galleys = s.galleys := rfl
@[simp] theorem State.setCore_binds (s : State) (n : Nat) (c : Core) : (s.setCore n c).binds = s.binds := rfl
@[simp] theorem State.setCore_bounds (s : State) (n : Nat) (c : Core) : (s.setCore n c).bounds = s.bounds := rfl
@[simp] theorem State.setCore_teams (s : State) (n : Nat) (c : Core) : (s.setCore n c).teams = s.teams := rfl
@[simp] theorem State.setCore_nextTeam (s : State) (n : Nat) (c : Core) : (s.setCore n c).nextTeam = s.nextTeam := rfl
@[simp] theorem State.setCore_nextId (s : State) (n : Nat) (c : Core) : (s.setCore n c).nextId = s.nextId := rfl
@[simp] theorem State.setCore_dir (s : State) (n : Nat) (c : Core) : (s.setCore n c).dir = s.dir := rfl
@[simp] theorem State.setCore_l2 (s : State) (n : Nat) (c : Core) : (s.setCore n c).l2 = s.l2 := rfl
@[simp] theorem State.setCore_records (s : State) (n : Nat) (c : Core) : (s.setCore n c).records = s.records := rfl
@[simp] theorem State.setCore_hostMsgs (s : State) (n : Nat) (c : Core) : (s.setCore n c).hostMsgs = s.hostMsgs := rfl
@[simp] theorem State.setCore_notices (s : State) (n : Nat) (c : Core) : (s.setCore n c).notices = s.notices := rfl
@[simp] theorem State.setCore_impressions (s : State) (n : Nat) (c : Core) : (s.setCore n c).impressions = s.impressions := rfl
@[simp] theorem State.setCore_passes (s : State) (n : Nat) (c : Core) : (s.setCore n c).passes = s.passes := rfl
@[simp] theorem State.setCore_winLines (s : State) (n : Nat) (c : Core) : (s.setCore n c).winLines = s.winLines := rfl
@[simp] theorem State.setCore_cxl (s : State) (n : Nat) (c : Core) : (s.setCore n c).cxl = s.cxl := rfl
@[simp] theorem State.setCore_mailWrites (s : State) (n : Nat) (c : Core) : (s.setCore n c).mailWrites = s.mailWrites := rfl
@[simp] theorem State.setCore_spanDie (s : State) (n : Nat) (c : Core) : (s.setCore n c).spanDie = s.spanDie := rfl
@[simp] theorem State.setCore_scOps (s : State) (n : Nat) (c : Core) : (s.setCore n c).scOps = s.scOps := rfl
@[simp] theorem State.setCore_phaseOps (s : State) (n : Nat) (c : Core) : (s.setCore n c).phaseOps = s.phaseOps := rfl
@[simp] theorem State.setCore_windowsClosed (s : State) (n : Nat) (c : Core) : (s.setCore n c).windowsClosed = s.windowsClosed := rfl
@[simp] theorem State.setCore_bar0 (s : State) (n : Nat) (c : Core) : (s.setCore n c).bar0 = s.bar0 := rfl
@[simp] theorem State.setCore_eventHold (s : State) (n : Nat) (c : Core) : (s.setCore n c).eventHold = s.eventHold := rfl
@[simp] theorem State.setCore_eventWait (s : State) (n : Nat) (c : Core) : (s.setCore n c).eventWait = s.eventWait := rfl
@[simp] theorem State.setCore_msix (s : State) (n : Nat) (c : Core) : (s.setCore n c).msix = s.msix := rfl
@[simp] theorem State.setCore_flash (s : State) (n : Nat) (c : Core) : (s.setCore n c).flash = s.flash := rfl
@[simp] theorem State.setCore_firmware (s : State) (n : Nat) (c : Core) : (s.setCore n c).firmware = s.firmware := rfl
@[simp] theorem State.setCore_ownerKeys (s : State) (n : Nat) (c : Core) : (s.setCore n c).ownerKeys = s.ownerKeys := rfl
@[simp] theorem State.setCore_fuses (s : State) (n : Nat) (c : Core) : (s.setCore n c).fuses = s.fuses := rfl
@[simp] theorem State.setCore_monitor (s : State) (n : Nat) (c : Core) : (s.setCore n c).monitor = s.monitor := rfl
@[simp] theorem State.setCore_overseers (s : State) (n : Nat) (c : Core) : (s.setCore n c).overseers = s.overseers := rfl
@[simp] theorem State.setCore_images (s : State) (n : Nat) (c : Core) : (s.setCore n c).images = s.images := rfl
@[simp] theorem State.setCore_fabric (s : State) (n : Nat) (c : Core) : (s.setCore n c).fabric = s.fabric := rfl
@[simp] theorem State.setCore_cycle (s : State) (n : Nat) (c : Core) : (s.setCore n c).cycle = s.cycle := rfl
@[simp] theorem State.setCore_tick (s : State) (n : Nat) (c : Core) : (s.setCore n c).tick = s.tick := rfl
@[simp] theorem State.setCore_cur (s : State) (n : Nat) (c : Core) : (s.setCore n c).cur = s.cur := rfl
@[simp] theorem State.setCore_retries (s : State) (n : Nat) (c : Core) : (s.setCore n c).retries = s.retries := rfl
@[simp] theorem State.setCore_queue (s : State) (n : Nat) (c : Core) : (s.setCore n c).queue = s.queue := rfl

/-! ### updCore -/

@[simp] theorem State.updCore_mem (s : State) (n : Nat) (f : Core → Core) : (s.updCore n f).mem = s.mem := rfl
@[simp] theorem State.updCore_poison (s : State) (n : Nat) (f : Core → Core) : (s.updCore n f).poison = s.poison := rfl
@[simp] theorem State.updCore_badSectors (s : State) (n : Nat) (f : Core → Core) : (s.updCore n f).badSectors = s.badSectors := rfl
@[simp] theorem State.updCore_full (s : State) (n : Nat) (f : Core → Core) : (s.updCore n f).full = s.full := rfl
@[simp] theorem State.updCore_galleys (s : State) (n : Nat) (f : Core → Core) : (s.updCore n f).galleys = s.galleys := rfl
@[simp] theorem State.updCore_binds (s : State) (n : Nat) (f : Core → Core) : (s.updCore n f).binds = s.binds := rfl
@[simp] theorem State.updCore_bounds (s : State) (n : Nat) (f : Core → Core) : (s.updCore n f).bounds = s.bounds := rfl
@[simp] theorem State.updCore_teams (s : State) (n : Nat) (f : Core → Core) : (s.updCore n f).teams = s.teams := rfl
@[simp] theorem State.updCore_nextTeam (s : State) (n : Nat) (f : Core → Core) : (s.updCore n f).nextTeam = s.nextTeam := rfl
@[simp] theorem State.updCore_nextId (s : State) (n : Nat) (f : Core → Core) : (s.updCore n f).nextId = s.nextId := rfl
@[simp] theorem State.updCore_dir (s : State) (n : Nat) (f : Core → Core) : (s.updCore n f).dir = s.dir := rfl
@[simp] theorem State.updCore_l2 (s : State) (n : Nat) (f : Core → Core) : (s.updCore n f).l2 = s.l2 := rfl
@[simp] theorem State.updCore_records (s : State) (n : Nat) (f : Core → Core) : (s.updCore n f).records = s.records := rfl
@[simp] theorem State.updCore_hostMsgs (s : State) (n : Nat) (f : Core → Core) : (s.updCore n f).hostMsgs = s.hostMsgs := rfl
@[simp] theorem State.updCore_notices (s : State) (n : Nat) (f : Core → Core) : (s.updCore n f).notices = s.notices := rfl
@[simp] theorem State.updCore_impressions (s : State) (n : Nat) (f : Core → Core) : (s.updCore n f).impressions = s.impressions := rfl
@[simp] theorem State.updCore_passes (s : State) (n : Nat) (f : Core → Core) : (s.updCore n f).passes = s.passes := rfl
@[simp] theorem State.updCore_winLines (s : State) (n : Nat) (f : Core → Core) : (s.updCore n f).winLines = s.winLines := rfl
@[simp] theorem State.updCore_cxl (s : State) (n : Nat) (f : Core → Core) : (s.updCore n f).cxl = s.cxl := rfl
@[simp] theorem State.updCore_mailWrites (s : State) (n : Nat) (f : Core → Core) : (s.updCore n f).mailWrites = s.mailWrites := rfl
@[simp] theorem State.updCore_spanDie (s : State) (n : Nat) (f : Core → Core) : (s.updCore n f).spanDie = s.spanDie := rfl
@[simp] theorem State.updCore_scOps (s : State) (n : Nat) (f : Core → Core) : (s.updCore n f).scOps = s.scOps := rfl
@[simp] theorem State.updCore_phaseOps (s : State) (n : Nat) (f : Core → Core) : (s.updCore n f).phaseOps = s.phaseOps := rfl
@[simp] theorem State.updCore_windowsClosed (s : State) (n : Nat) (f : Core → Core) : (s.updCore n f).windowsClosed = s.windowsClosed := rfl
@[simp] theorem State.updCore_bar0 (s : State) (n : Nat) (f : Core → Core) : (s.updCore n f).bar0 = s.bar0 := rfl
@[simp] theorem State.updCore_eventHold (s : State) (n : Nat) (f : Core → Core) : (s.updCore n f).eventHold = s.eventHold := rfl
@[simp] theorem State.updCore_eventWait (s : State) (n : Nat) (f : Core → Core) : (s.updCore n f).eventWait = s.eventWait := rfl
@[simp] theorem State.updCore_msix (s : State) (n : Nat) (f : Core → Core) : (s.updCore n f).msix = s.msix := rfl
@[simp] theorem State.updCore_flash (s : State) (n : Nat) (f : Core → Core) : (s.updCore n f).flash = s.flash := rfl
@[simp] theorem State.updCore_firmware (s : State) (n : Nat) (f : Core → Core) : (s.updCore n f).firmware = s.firmware := rfl
@[simp] theorem State.updCore_ownerKeys (s : State) (n : Nat) (f : Core → Core) : (s.updCore n f).ownerKeys = s.ownerKeys := rfl
@[simp] theorem State.updCore_fuses (s : State) (n : Nat) (f : Core → Core) : (s.updCore n f).fuses = s.fuses := rfl
@[simp] theorem State.updCore_monitor (s : State) (n : Nat) (f : Core → Core) : (s.updCore n f).monitor = s.monitor := rfl
@[simp] theorem State.updCore_overseers (s : State) (n : Nat) (f : Core → Core) : (s.updCore n f).overseers = s.overseers := rfl
@[simp] theorem State.updCore_images (s : State) (n : Nat) (f : Core → Core) : (s.updCore n f).images = s.images := rfl
@[simp] theorem State.updCore_fabric (s : State) (n : Nat) (f : Core → Core) : (s.updCore n f).fabric = s.fabric := rfl
@[simp] theorem State.updCore_cycle (s : State) (n : Nat) (f : Core → Core) : (s.updCore n f).cycle = s.cycle := rfl
@[simp] theorem State.updCore_tick (s : State) (n : Nat) (f : Core → Core) : (s.updCore n f).tick = s.tick := rfl
@[simp] theorem State.updCore_cur (s : State) (n : Nat) (f : Core → Core) : (s.updCore n f).cur = s.cur := rfl
@[simp] theorem State.updCore_retries (s : State) (n : Nat) (f : Core → Core) : (s.updCore n f).retries = s.retries := rfl
@[simp] theorem State.updCore_queue (s : State) (n : Nat) (f : Core → Core) : (s.updCore n f).queue = s.queue := rfl

/-! ### setCtx -/

@[simp] theorem State.setCtx_mem (s : State) (n i : Nat) (x : Ctx) : (s.setCtx n i x).mem = s.mem := rfl
@[simp] theorem State.setCtx_poison (s : State) (n i : Nat) (x : Ctx) : (s.setCtx n i x).poison = s.poison := rfl
@[simp] theorem State.setCtx_badSectors (s : State) (n i : Nat) (x : Ctx) : (s.setCtx n i x).badSectors = s.badSectors := rfl
@[simp] theorem State.setCtx_full (s : State) (n i : Nat) (x : Ctx) : (s.setCtx n i x).full = s.full := rfl
@[simp] theorem State.setCtx_galleys (s : State) (n i : Nat) (x : Ctx) : (s.setCtx n i x).galleys = s.galleys := rfl
@[simp] theorem State.setCtx_binds (s : State) (n i : Nat) (x : Ctx) : (s.setCtx n i x).binds = s.binds := rfl
@[simp] theorem State.setCtx_bounds (s : State) (n i : Nat) (x : Ctx) : (s.setCtx n i x).bounds = s.bounds := rfl
@[simp] theorem State.setCtx_teams (s : State) (n i : Nat) (x : Ctx) : (s.setCtx n i x).teams = s.teams := rfl
@[simp] theorem State.setCtx_nextTeam (s : State) (n i : Nat) (x : Ctx) : (s.setCtx n i x).nextTeam = s.nextTeam := rfl
@[simp] theorem State.setCtx_nextId (s : State) (n i : Nat) (x : Ctx) : (s.setCtx n i x).nextId = s.nextId := rfl
@[simp] theorem State.setCtx_dir (s : State) (n i : Nat) (x : Ctx) : (s.setCtx n i x).dir = s.dir := rfl
@[simp] theorem State.setCtx_l2 (s : State) (n i : Nat) (x : Ctx) : (s.setCtx n i x).l2 = s.l2 := rfl
@[simp] theorem State.setCtx_records (s : State) (n i : Nat) (x : Ctx) : (s.setCtx n i x).records = s.records := rfl
@[simp] theorem State.setCtx_hostMsgs (s : State) (n i : Nat) (x : Ctx) : (s.setCtx n i x).hostMsgs = s.hostMsgs := rfl
@[simp] theorem State.setCtx_notices (s : State) (n i : Nat) (x : Ctx) : (s.setCtx n i x).notices = s.notices := rfl
@[simp] theorem State.setCtx_impressions (s : State) (n i : Nat) (x : Ctx) : (s.setCtx n i x).impressions = s.impressions := rfl
@[simp] theorem State.setCtx_passes (s : State) (n i : Nat) (x : Ctx) : (s.setCtx n i x).passes = s.passes := rfl
@[simp] theorem State.setCtx_winLines (s : State) (n i : Nat) (x : Ctx) : (s.setCtx n i x).winLines = s.winLines := rfl
@[simp] theorem State.setCtx_cxl (s : State) (n i : Nat) (x : Ctx) : (s.setCtx n i x).cxl = s.cxl := rfl
@[simp] theorem State.setCtx_mailWrites (s : State) (n i : Nat) (x : Ctx) : (s.setCtx n i x).mailWrites = s.mailWrites := rfl
@[simp] theorem State.setCtx_spanDie (s : State) (n i : Nat) (x : Ctx) : (s.setCtx n i x).spanDie = s.spanDie := rfl
@[simp] theorem State.setCtx_scOps (s : State) (n i : Nat) (x : Ctx) : (s.setCtx n i x).scOps = s.scOps := rfl
@[simp] theorem State.setCtx_phaseOps (s : State) (n i : Nat) (x : Ctx) : (s.setCtx n i x).phaseOps = s.phaseOps := rfl
@[simp] theorem State.setCtx_windowsClosed (s : State) (n i : Nat) (x : Ctx) : (s.setCtx n i x).windowsClosed = s.windowsClosed := rfl
@[simp] theorem State.setCtx_bar0 (s : State) (n i : Nat) (x : Ctx) : (s.setCtx n i x).bar0 = s.bar0 := rfl
@[simp] theorem State.setCtx_eventHold (s : State) (n i : Nat) (x : Ctx) : (s.setCtx n i x).eventHold = s.eventHold := rfl
@[simp] theorem State.setCtx_eventWait (s : State) (n i : Nat) (x : Ctx) : (s.setCtx n i x).eventWait = s.eventWait := rfl
@[simp] theorem State.setCtx_msix (s : State) (n i : Nat) (x : Ctx) : (s.setCtx n i x).msix = s.msix := rfl
@[simp] theorem State.setCtx_flash (s : State) (n i : Nat) (x : Ctx) : (s.setCtx n i x).flash = s.flash := rfl
@[simp] theorem State.setCtx_firmware (s : State) (n i : Nat) (x : Ctx) : (s.setCtx n i x).firmware = s.firmware := rfl
@[simp] theorem State.setCtx_ownerKeys (s : State) (n i : Nat) (x : Ctx) : (s.setCtx n i x).ownerKeys = s.ownerKeys := rfl
@[simp] theorem State.setCtx_fuses (s : State) (n i : Nat) (x : Ctx) : (s.setCtx n i x).fuses = s.fuses := rfl
@[simp] theorem State.setCtx_monitor (s : State) (n i : Nat) (x : Ctx) : (s.setCtx n i x).monitor = s.monitor := rfl
@[simp] theorem State.setCtx_overseers (s : State) (n i : Nat) (x : Ctx) : (s.setCtx n i x).overseers = s.overseers := rfl
@[simp] theorem State.setCtx_images (s : State) (n i : Nat) (x : Ctx) : (s.setCtx n i x).images = s.images := rfl
@[simp] theorem State.setCtx_fabric (s : State) (n i : Nat) (x : Ctx) : (s.setCtx n i x).fabric = s.fabric := rfl
@[simp] theorem State.setCtx_cycle (s : State) (n i : Nat) (x : Ctx) : (s.setCtx n i x).cycle = s.cycle := rfl
@[simp] theorem State.setCtx_tick (s : State) (n i : Nat) (x : Ctx) : (s.setCtx n i x).tick = s.tick := rfl
@[simp] theorem State.setCtx_cur (s : State) (n i : Nat) (x : Ctx) : (s.setCtx n i x).cur = s.cur := rfl
@[simp] theorem State.setCtx_retries (s : State) (n i : Nat) (x : Ctx) : (s.setCtx n i x).retries = s.retries := rfl
@[simp] theorem State.setCtx_queue (s : State) (n i : Nat) (x : Ctx) : (s.setCtx n i x).queue = s.queue := rfl

/-! ### updCtx -/

@[simp] theorem State.updCtx_mem (s : State) (n i : Nat) (f : Ctx → Ctx) : (s.updCtx n i f).mem = s.mem := rfl
@[simp] theorem State.updCtx_poison (s : State) (n i : Nat) (f : Ctx → Ctx) : (s.updCtx n i f).poison = s.poison := rfl
@[simp] theorem State.updCtx_badSectors (s : State) (n i : Nat) (f : Ctx → Ctx) : (s.updCtx n i f).badSectors = s.badSectors := rfl
@[simp] theorem State.updCtx_full (s : State) (n i : Nat) (f : Ctx → Ctx) : (s.updCtx n i f).full = s.full := rfl
@[simp] theorem State.updCtx_galleys (s : State) (n i : Nat) (f : Ctx → Ctx) : (s.updCtx n i f).galleys = s.galleys := rfl
@[simp] theorem State.updCtx_binds (s : State) (n i : Nat) (f : Ctx → Ctx) : (s.updCtx n i f).binds = s.binds := rfl
@[simp] theorem State.updCtx_bounds (s : State) (n i : Nat) (f : Ctx → Ctx) : (s.updCtx n i f).bounds = s.bounds := rfl
@[simp] theorem State.updCtx_teams (s : State) (n i : Nat) (f : Ctx → Ctx) : (s.updCtx n i f).teams = s.teams := rfl
@[simp] theorem State.updCtx_nextTeam (s : State) (n i : Nat) (f : Ctx → Ctx) : (s.updCtx n i f).nextTeam = s.nextTeam := rfl
@[simp] theorem State.updCtx_nextId (s : State) (n i : Nat) (f : Ctx → Ctx) : (s.updCtx n i f).nextId = s.nextId := rfl
@[simp] theorem State.updCtx_dir (s : State) (n i : Nat) (f : Ctx → Ctx) : (s.updCtx n i f).dir = s.dir := rfl
@[simp] theorem State.updCtx_l2 (s : State) (n i : Nat) (f : Ctx → Ctx) : (s.updCtx n i f).l2 = s.l2 := rfl
@[simp] theorem State.updCtx_records (s : State) (n i : Nat) (f : Ctx → Ctx) : (s.updCtx n i f).records = s.records := rfl
@[simp] theorem State.updCtx_hostMsgs (s : State) (n i : Nat) (f : Ctx → Ctx) : (s.updCtx n i f).hostMsgs = s.hostMsgs := rfl
@[simp] theorem State.updCtx_notices (s : State) (n i : Nat) (f : Ctx → Ctx) : (s.updCtx n i f).notices = s.notices := rfl
@[simp] theorem State.updCtx_impressions (s : State) (n i : Nat) (f : Ctx → Ctx) : (s.updCtx n i f).impressions = s.impressions := rfl
@[simp] theorem State.updCtx_passes (s : State) (n i : Nat) (f : Ctx → Ctx) : (s.updCtx n i f).passes = s.passes := rfl
@[simp] theorem State.updCtx_winLines (s : State) (n i : Nat) (f : Ctx → Ctx) : (s.updCtx n i f).winLines = s.winLines := rfl
@[simp] theorem State.updCtx_cxl (s : State) (n i : Nat) (f : Ctx → Ctx) : (s.updCtx n i f).cxl = s.cxl := rfl
@[simp] theorem State.updCtx_mailWrites (s : State) (n i : Nat) (f : Ctx → Ctx) : (s.updCtx n i f).mailWrites = s.mailWrites := rfl
@[simp] theorem State.updCtx_spanDie (s : State) (n i : Nat) (f : Ctx → Ctx) : (s.updCtx n i f).spanDie = s.spanDie := rfl
@[simp] theorem State.updCtx_scOps (s : State) (n i : Nat) (f : Ctx → Ctx) : (s.updCtx n i f).scOps = s.scOps := rfl
@[simp] theorem State.updCtx_phaseOps (s : State) (n i : Nat) (f : Ctx → Ctx) : (s.updCtx n i f).phaseOps = s.phaseOps := rfl
@[simp] theorem State.updCtx_windowsClosed (s : State) (n i : Nat) (f : Ctx → Ctx) : (s.updCtx n i f).windowsClosed = s.windowsClosed := rfl
@[simp] theorem State.updCtx_bar0 (s : State) (n i : Nat) (f : Ctx → Ctx) : (s.updCtx n i f).bar0 = s.bar0 := rfl
@[simp] theorem State.updCtx_eventHold (s : State) (n i : Nat) (f : Ctx → Ctx) : (s.updCtx n i f).eventHold = s.eventHold := rfl
@[simp] theorem State.updCtx_eventWait (s : State) (n i : Nat) (f : Ctx → Ctx) : (s.updCtx n i f).eventWait = s.eventWait := rfl
@[simp] theorem State.updCtx_msix (s : State) (n i : Nat) (f : Ctx → Ctx) : (s.updCtx n i f).msix = s.msix := rfl
@[simp] theorem State.updCtx_flash (s : State) (n i : Nat) (f : Ctx → Ctx) : (s.updCtx n i f).flash = s.flash := rfl
@[simp] theorem State.updCtx_firmware (s : State) (n i : Nat) (f : Ctx → Ctx) : (s.updCtx n i f).firmware = s.firmware := rfl
@[simp] theorem State.updCtx_ownerKeys (s : State) (n i : Nat) (f : Ctx → Ctx) : (s.updCtx n i f).ownerKeys = s.ownerKeys := rfl
@[simp] theorem State.updCtx_fuses (s : State) (n i : Nat) (f : Ctx → Ctx) : (s.updCtx n i f).fuses = s.fuses := rfl
@[simp] theorem State.updCtx_monitor (s : State) (n i : Nat) (f : Ctx → Ctx) : (s.updCtx n i f).monitor = s.monitor := rfl
@[simp] theorem State.updCtx_overseers (s : State) (n i : Nat) (f : Ctx → Ctx) : (s.updCtx n i f).overseers = s.overseers := rfl
@[simp] theorem State.updCtx_images (s : State) (n i : Nat) (f : Ctx → Ctx) : (s.updCtx n i f).images = s.images := rfl
@[simp] theorem State.updCtx_fabric (s : State) (n i : Nat) (f : Ctx → Ctx) : (s.updCtx n i f).fabric = s.fabric := rfl
@[simp] theorem State.updCtx_cycle (s : State) (n i : Nat) (f : Ctx → Ctx) : (s.updCtx n i f).cycle = s.cycle := rfl
@[simp] theorem State.updCtx_tick (s : State) (n i : Nat) (f : Ctx → Ctx) : (s.updCtx n i f).tick = s.tick := rfl
@[simp] theorem State.updCtx_cur (s : State) (n i : Nat) (f : Ctx → Ctx) : (s.updCtx n i f).cur = s.cur := rfl
@[simp] theorem State.updCtx_retries (s : State) (n i : Nat) (f : Ctx → Ctx) : (s.updCtx n i f).retries = s.retries := rfl
@[simp] theorem State.updCtx_queue (s : State) (n i : Nat) (f : Ctx → Ctx) : (s.updCtx n i f).queue = s.queue := rfl

/-! ### updMy -/

@[simp] theorem State.updMy_mem (s : State) (f : Ctx → Ctx) : (s.updMy f).mem = s.mem := rfl
@[simp] theorem State.updMy_poison (s : State) (f : Ctx → Ctx) : (s.updMy f).poison = s.poison := rfl
@[simp] theorem State.updMy_badSectors (s : State) (f : Ctx → Ctx) : (s.updMy f).badSectors = s.badSectors := rfl
@[simp] theorem State.updMy_full (s : State) (f : Ctx → Ctx) : (s.updMy f).full = s.full := rfl
@[simp] theorem State.updMy_galleys (s : State) (f : Ctx → Ctx) : (s.updMy f).galleys = s.galleys := rfl
@[simp] theorem State.updMy_binds (s : State) (f : Ctx → Ctx) : (s.updMy f).binds = s.binds := rfl
@[simp] theorem State.updMy_bounds (s : State) (f : Ctx → Ctx) : (s.updMy f).bounds = s.bounds := rfl
@[simp] theorem State.updMy_teams (s : State) (f : Ctx → Ctx) : (s.updMy f).teams = s.teams := rfl
@[simp] theorem State.updMy_nextTeam (s : State) (f : Ctx → Ctx) : (s.updMy f).nextTeam = s.nextTeam := rfl
@[simp] theorem State.updMy_nextId (s : State) (f : Ctx → Ctx) : (s.updMy f).nextId = s.nextId := rfl
@[simp] theorem State.updMy_dir (s : State) (f : Ctx → Ctx) : (s.updMy f).dir = s.dir := rfl
@[simp] theorem State.updMy_l2 (s : State) (f : Ctx → Ctx) : (s.updMy f).l2 = s.l2 := rfl
@[simp] theorem State.updMy_records (s : State) (f : Ctx → Ctx) : (s.updMy f).records = s.records := rfl
@[simp] theorem State.updMy_hostMsgs (s : State) (f : Ctx → Ctx) : (s.updMy f).hostMsgs = s.hostMsgs := rfl
@[simp] theorem State.updMy_notices (s : State) (f : Ctx → Ctx) : (s.updMy f).notices = s.notices := rfl
@[simp] theorem State.updMy_impressions (s : State) (f : Ctx → Ctx) : (s.updMy f).impressions = s.impressions := rfl
@[simp] theorem State.updMy_passes (s : State) (f : Ctx → Ctx) : (s.updMy f).passes = s.passes := rfl
@[simp] theorem State.updMy_winLines (s : State) (f : Ctx → Ctx) : (s.updMy f).winLines = s.winLines := rfl
@[simp] theorem State.updMy_cxl (s : State) (f : Ctx → Ctx) : (s.updMy f).cxl = s.cxl := rfl
@[simp] theorem State.updMy_mailWrites (s : State) (f : Ctx → Ctx) : (s.updMy f).mailWrites = s.mailWrites := rfl
@[simp] theorem State.updMy_spanDie (s : State) (f : Ctx → Ctx) : (s.updMy f).spanDie = s.spanDie := rfl
@[simp] theorem State.updMy_scOps (s : State) (f : Ctx → Ctx) : (s.updMy f).scOps = s.scOps := rfl
@[simp] theorem State.updMy_phaseOps (s : State) (f : Ctx → Ctx) : (s.updMy f).phaseOps = s.phaseOps := rfl
@[simp] theorem State.updMy_windowsClosed (s : State) (f : Ctx → Ctx) : (s.updMy f).windowsClosed = s.windowsClosed := rfl
@[simp] theorem State.updMy_bar0 (s : State) (f : Ctx → Ctx) : (s.updMy f).bar0 = s.bar0 := rfl
@[simp] theorem State.updMy_eventHold (s : State) (f : Ctx → Ctx) : (s.updMy f).eventHold = s.eventHold := rfl
@[simp] theorem State.updMy_eventWait (s : State) (f : Ctx → Ctx) : (s.updMy f).eventWait = s.eventWait := rfl
@[simp] theorem State.updMy_msix (s : State) (f : Ctx → Ctx) : (s.updMy f).msix = s.msix := rfl
@[simp] theorem State.updMy_flash (s : State) (f : Ctx → Ctx) : (s.updMy f).flash = s.flash := rfl
@[simp] theorem State.updMy_firmware (s : State) (f : Ctx → Ctx) : (s.updMy f).firmware = s.firmware := rfl
@[simp] theorem State.updMy_ownerKeys (s : State) (f : Ctx → Ctx) : (s.updMy f).ownerKeys = s.ownerKeys := rfl
@[simp] theorem State.updMy_fuses (s : State) (f : Ctx → Ctx) : (s.updMy f).fuses = s.fuses := rfl
@[simp] theorem State.updMy_monitor (s : State) (f : Ctx → Ctx) : (s.updMy f).monitor = s.monitor := rfl
@[simp] theorem State.updMy_overseers (s : State) (f : Ctx → Ctx) : (s.updMy f).overseers = s.overseers := rfl
@[simp] theorem State.updMy_images (s : State) (f : Ctx → Ctx) : (s.updMy f).images = s.images := rfl
@[simp] theorem State.updMy_fabric (s : State) (f : Ctx → Ctx) : (s.updMy f).fabric = s.fabric := rfl
@[simp] theorem State.updMy_cycle (s : State) (f : Ctx → Ctx) : (s.updMy f).cycle = s.cycle := rfl
@[simp] theorem State.updMy_tick (s : State) (f : Ctx → Ctx) : (s.updMy f).tick = s.tick := rfl
@[simp] theorem State.updMy_cur (s : State) (f : Ctx → Ctx) : (s.updMy f).cur = s.cur := rfl
@[simp] theorem State.updMy_retries (s : State) (f : Ctx → Ctx) : (s.updMy f).retries = s.retries := rfl
@[simp] theorem State.updMy_queue (s : State) (f : Ctx → Ctx) : (s.updMy f).queue = s.queue := rfl

/-! ### updMyCore -/

@[simp] theorem State.updMyCore_mem (s : State) (f : Core → Core) : (s.updMyCore f).mem = s.mem := rfl
@[simp] theorem State.updMyCore_poison (s : State) (f : Core → Core) : (s.updMyCore f).poison = s.poison := rfl
@[simp] theorem State.updMyCore_badSectors (s : State) (f : Core → Core) : (s.updMyCore f).badSectors = s.badSectors := rfl
@[simp] theorem State.updMyCore_full (s : State) (f : Core → Core) : (s.updMyCore f).full = s.full := rfl
@[simp] theorem State.updMyCore_galleys (s : State) (f : Core → Core) : (s.updMyCore f).galleys = s.galleys := rfl
@[simp] theorem State.updMyCore_binds (s : State) (f : Core → Core) : (s.updMyCore f).binds = s.binds := rfl
@[simp] theorem State.updMyCore_bounds (s : State) (f : Core → Core) : (s.updMyCore f).bounds = s.bounds := rfl
@[simp] theorem State.updMyCore_teams (s : State) (f : Core → Core) : (s.updMyCore f).teams = s.teams := rfl
@[simp] theorem State.updMyCore_nextTeam (s : State) (f : Core → Core) : (s.updMyCore f).nextTeam = s.nextTeam := rfl
@[simp] theorem State.updMyCore_nextId (s : State) (f : Core → Core) : (s.updMyCore f).nextId = s.nextId := rfl
@[simp] theorem State.updMyCore_dir (s : State) (f : Core → Core) : (s.updMyCore f).dir = s.dir := rfl
@[simp] theorem State.updMyCore_l2 (s : State) (f : Core → Core) : (s.updMyCore f).l2 = s.l2 := rfl
@[simp] theorem State.updMyCore_records (s : State) (f : Core → Core) : (s.updMyCore f).records = s.records := rfl
@[simp] theorem State.updMyCore_hostMsgs (s : State) (f : Core → Core) : (s.updMyCore f).hostMsgs = s.hostMsgs := rfl
@[simp] theorem State.updMyCore_notices (s : State) (f : Core → Core) : (s.updMyCore f).notices = s.notices := rfl
@[simp] theorem State.updMyCore_impressions (s : State) (f : Core → Core) : (s.updMyCore f).impressions = s.impressions := rfl
@[simp] theorem State.updMyCore_passes (s : State) (f : Core → Core) : (s.updMyCore f).passes = s.passes := rfl
@[simp] theorem State.updMyCore_winLines (s : State) (f : Core → Core) : (s.updMyCore f).winLines = s.winLines := rfl
@[simp] theorem State.updMyCore_cxl (s : State) (f : Core → Core) : (s.updMyCore f).cxl = s.cxl := rfl
@[simp] theorem State.updMyCore_mailWrites (s : State) (f : Core → Core) : (s.updMyCore f).mailWrites = s.mailWrites := rfl
@[simp] theorem State.updMyCore_spanDie (s : State) (f : Core → Core) : (s.updMyCore f).spanDie = s.spanDie := rfl
@[simp] theorem State.updMyCore_scOps (s : State) (f : Core → Core) : (s.updMyCore f).scOps = s.scOps := rfl
@[simp] theorem State.updMyCore_phaseOps (s : State) (f : Core → Core) : (s.updMyCore f).phaseOps = s.phaseOps := rfl
@[simp] theorem State.updMyCore_windowsClosed (s : State) (f : Core → Core) : (s.updMyCore f).windowsClosed = s.windowsClosed := rfl
@[simp] theorem State.updMyCore_bar0 (s : State) (f : Core → Core) : (s.updMyCore f).bar0 = s.bar0 := rfl
@[simp] theorem State.updMyCore_eventHold (s : State) (f : Core → Core) : (s.updMyCore f).eventHold = s.eventHold := rfl
@[simp] theorem State.updMyCore_eventWait (s : State) (f : Core → Core) : (s.updMyCore f).eventWait = s.eventWait := rfl
@[simp] theorem State.updMyCore_msix (s : State) (f : Core → Core) : (s.updMyCore f).msix = s.msix := rfl
@[simp] theorem State.updMyCore_flash (s : State) (f : Core → Core) : (s.updMyCore f).flash = s.flash := rfl
@[simp] theorem State.updMyCore_firmware (s : State) (f : Core → Core) : (s.updMyCore f).firmware = s.firmware := rfl
@[simp] theorem State.updMyCore_ownerKeys (s : State) (f : Core → Core) : (s.updMyCore f).ownerKeys = s.ownerKeys := rfl
@[simp] theorem State.updMyCore_fuses (s : State) (f : Core → Core) : (s.updMyCore f).fuses = s.fuses := rfl
@[simp] theorem State.updMyCore_monitor (s : State) (f : Core → Core) : (s.updMyCore f).monitor = s.monitor := rfl
@[simp] theorem State.updMyCore_overseers (s : State) (f : Core → Core) : (s.updMyCore f).overseers = s.overseers := rfl
@[simp] theorem State.updMyCore_images (s : State) (f : Core → Core) : (s.updMyCore f).images = s.images := rfl
@[simp] theorem State.updMyCore_fabric (s : State) (f : Core → Core) : (s.updMyCore f).fabric = s.fabric := rfl
@[simp] theorem State.updMyCore_cycle (s : State) (f : Core → Core) : (s.updMyCore f).cycle = s.cycle := rfl
@[simp] theorem State.updMyCore_tick (s : State) (f : Core → Core) : (s.updMyCore f).tick = s.tick := rfl
@[simp] theorem State.updMyCore_cur (s : State) (f : Core → Core) : (s.updMyCore f).cur = s.cur := rfl
@[simp] theorem State.updMyCore_retries (s : State) (f : Core → Core) : (s.updMyCore f).retries = s.retries := rfl
@[simp] theorem State.updMyCore_queue (s : State) (f : Core → Core) : (s.updMyCore f).queue = s.queue := rfl

/-! ### setGalley -/

@[simp] theorem State.setGalley_mem (s : State) (g : Nat) (x : Galley) : (s.setGalley g x).mem = s.mem := rfl
@[simp] theorem State.setGalley_poison (s : State) (g : Nat) (x : Galley) : (s.setGalley g x).poison = s.poison := rfl
@[simp] theorem State.setGalley_badSectors (s : State) (g : Nat) (x : Galley) : (s.setGalley g x).badSectors = s.badSectors := rfl
@[simp] theorem State.setGalley_full (s : State) (g : Nat) (x : Galley) : (s.setGalley g x).full = s.full := rfl
@[simp] theorem State.setGalley_cores (s : State) (g : Nat) (x : Galley) : (s.setGalley g x).cores = s.cores := rfl
@[simp] theorem State.setGalley_binds (s : State) (g : Nat) (x : Galley) : (s.setGalley g x).binds = s.binds := rfl
@[simp] theorem State.setGalley_bounds (s : State) (g : Nat) (x : Galley) : (s.setGalley g x).bounds = s.bounds := rfl
@[simp] theorem State.setGalley_teams (s : State) (g : Nat) (x : Galley) : (s.setGalley g x).teams = s.teams := rfl
@[simp] theorem State.setGalley_nextTeam (s : State) (g : Nat) (x : Galley) : (s.setGalley g x).nextTeam = s.nextTeam := rfl
@[simp] theorem State.setGalley_nextId (s : State) (g : Nat) (x : Galley) : (s.setGalley g x).nextId = s.nextId := rfl
@[simp] theorem State.setGalley_dir (s : State) (g : Nat) (x : Galley) : (s.setGalley g x).dir = s.dir := rfl
@[simp] theorem State.setGalley_l2 (s : State) (g : Nat) (x : Galley) : (s.setGalley g x).l2 = s.l2 := rfl
@[simp] theorem State.setGalley_records (s : State) (g : Nat) (x : Galley) : (s.setGalley g x).records = s.records := rfl
@[simp] theorem State.setGalley_hostMsgs (s : State) (g : Nat) (x : Galley) : (s.setGalley g x).hostMsgs = s.hostMsgs := rfl
@[simp] theorem State.setGalley_notices (s : State) (g : Nat) (x : Galley) : (s.setGalley g x).notices = s.notices := rfl
@[simp] theorem State.setGalley_impressions (s : State) (g : Nat) (x : Galley) : (s.setGalley g x).impressions = s.impressions := rfl
@[simp] theorem State.setGalley_passes (s : State) (g : Nat) (x : Galley) : (s.setGalley g x).passes = s.passes := rfl
@[simp] theorem State.setGalley_winLines (s : State) (g : Nat) (x : Galley) : (s.setGalley g x).winLines = s.winLines := rfl
@[simp] theorem State.setGalley_cxl (s : State) (g : Nat) (x : Galley) : (s.setGalley g x).cxl = s.cxl := rfl
@[simp] theorem State.setGalley_mailWrites (s : State) (g : Nat) (x : Galley) : (s.setGalley g x).mailWrites = s.mailWrites := rfl
@[simp] theorem State.setGalley_spanDie (s : State) (g : Nat) (x : Galley) : (s.setGalley g x).spanDie = s.spanDie := rfl
@[simp] theorem State.setGalley_scOps (s : State) (g : Nat) (x : Galley) : (s.setGalley g x).scOps = s.scOps := rfl
@[simp] theorem State.setGalley_phaseOps (s : State) (g : Nat) (x : Galley) : (s.setGalley g x).phaseOps = s.phaseOps := rfl
@[simp] theorem State.setGalley_windowsClosed (s : State) (g : Nat) (x : Galley) : (s.setGalley g x).windowsClosed = s.windowsClosed := rfl
@[simp] theorem State.setGalley_bar0 (s : State) (g : Nat) (x : Galley) : (s.setGalley g x).bar0 = s.bar0 := rfl
@[simp] theorem State.setGalley_eventHold (s : State) (g : Nat) (x : Galley) : (s.setGalley g x).eventHold = s.eventHold := rfl
@[simp] theorem State.setGalley_eventWait (s : State) (g : Nat) (x : Galley) : (s.setGalley g x).eventWait = s.eventWait := rfl
@[simp] theorem State.setGalley_msix (s : State) (g : Nat) (x : Galley) : (s.setGalley g x).msix = s.msix := rfl
@[simp] theorem State.setGalley_flash (s : State) (g : Nat) (x : Galley) : (s.setGalley g x).flash = s.flash := rfl
@[simp] theorem State.setGalley_firmware (s : State) (g : Nat) (x : Galley) : (s.setGalley g x).firmware = s.firmware := rfl
@[simp] theorem State.setGalley_ownerKeys (s : State) (g : Nat) (x : Galley) : (s.setGalley g x).ownerKeys = s.ownerKeys := rfl
@[simp] theorem State.setGalley_fuses (s : State) (g : Nat) (x : Galley) : (s.setGalley g x).fuses = s.fuses := rfl
@[simp] theorem State.setGalley_monitor (s : State) (g : Nat) (x : Galley) : (s.setGalley g x).monitor = s.monitor := rfl
@[simp] theorem State.setGalley_overseers (s : State) (g : Nat) (x : Galley) : (s.setGalley g x).overseers = s.overseers := rfl
@[simp] theorem State.setGalley_images (s : State) (g : Nat) (x : Galley) : (s.setGalley g x).images = s.images := rfl
@[simp] theorem State.setGalley_fabric (s : State) (g : Nat) (x : Galley) : (s.setGalley g x).fabric = s.fabric := rfl
@[simp] theorem State.setGalley_cycle (s : State) (g : Nat) (x : Galley) : (s.setGalley g x).cycle = s.cycle := rfl
@[simp] theorem State.setGalley_tick (s : State) (g : Nat) (x : Galley) : (s.setGalley g x).tick = s.tick := rfl
@[simp] theorem State.setGalley_cur (s : State) (g : Nat) (x : Galley) : (s.setGalley g x).cur = s.cur := rfl
@[simp] theorem State.setGalley_retries (s : State) (g : Nat) (x : Galley) : (s.setGalley g x).retries = s.retries := rfl
@[simp] theorem State.setGalley_queue (s : State) (g : Nat) (x : Galley) : (s.setGalley g x).queue = s.queue := rfl

/-! ### setTeam -/

@[simp] theorem State.setTeam_mem (s : State) (n : Nat) (t : Team) : (s.setTeam n t).mem = s.mem := rfl
@[simp] theorem State.setTeam_poison (s : State) (n : Nat) (t : Team) : (s.setTeam n t).poison = s.poison := rfl
@[simp] theorem State.setTeam_badSectors (s : State) (n : Nat) (t : Team) : (s.setTeam n t).badSectors = s.badSectors := rfl
@[simp] theorem State.setTeam_full (s : State) (n : Nat) (t : Team) : (s.setTeam n t).full = s.full := rfl
@[simp] theorem State.setTeam_cores (s : State) (n : Nat) (t : Team) : (s.setTeam n t).cores = s.cores := rfl
@[simp] theorem State.setTeam_galleys (s : State) (n : Nat) (t : Team) : (s.setTeam n t).galleys = s.galleys := rfl
@[simp] theorem State.setTeam_binds (s : State) (n : Nat) (t : Team) : (s.setTeam n t).binds = s.binds := rfl
@[simp] theorem State.setTeam_bounds (s : State) (n : Nat) (t : Team) : (s.setTeam n t).bounds = s.bounds := rfl
@[simp] theorem State.setTeam_nextTeam (s : State) (n : Nat) (t : Team) : (s.setTeam n t).nextTeam = s.nextTeam := rfl
@[simp] theorem State.setTeam_nextId (s : State) (n : Nat) (t : Team) : (s.setTeam n t).nextId = s.nextId := rfl
@[simp] theorem State.setTeam_dir (s : State) (n : Nat) (t : Team) : (s.setTeam n t).dir = s.dir := rfl
@[simp] theorem State.setTeam_l2 (s : State) (n : Nat) (t : Team) : (s.setTeam n t).l2 = s.l2 := rfl
@[simp] theorem State.setTeam_records (s : State) (n : Nat) (t : Team) : (s.setTeam n t).records = s.records := rfl
@[simp] theorem State.setTeam_hostMsgs (s : State) (n : Nat) (t : Team) : (s.setTeam n t).hostMsgs = s.hostMsgs := rfl
@[simp] theorem State.setTeam_notices (s : State) (n : Nat) (t : Team) : (s.setTeam n t).notices = s.notices := rfl
@[simp] theorem State.setTeam_impressions (s : State) (n : Nat) (t : Team) : (s.setTeam n t).impressions = s.impressions := rfl
@[simp] theorem State.setTeam_passes (s : State) (n : Nat) (t : Team) : (s.setTeam n t).passes = s.passes := rfl
@[simp] theorem State.setTeam_winLines (s : State) (n : Nat) (t : Team) : (s.setTeam n t).winLines = s.winLines := rfl
@[simp] theorem State.setTeam_cxl (s : State) (n : Nat) (t : Team) : (s.setTeam n t).cxl = s.cxl := rfl
@[simp] theorem State.setTeam_mailWrites (s : State) (n : Nat) (t : Team) : (s.setTeam n t).mailWrites = s.mailWrites := rfl
@[simp] theorem State.setTeam_spanDie (s : State) (n : Nat) (t : Team) : (s.setTeam n t).spanDie = s.spanDie := rfl
@[simp] theorem State.setTeam_scOps (s : State) (n : Nat) (t : Team) : (s.setTeam n t).scOps = s.scOps := rfl
@[simp] theorem State.setTeam_phaseOps (s : State) (n : Nat) (t : Team) : (s.setTeam n t).phaseOps = s.phaseOps := rfl
@[simp] theorem State.setTeam_windowsClosed (s : State) (n : Nat) (t : Team) : (s.setTeam n t).windowsClosed = s.windowsClosed := rfl
@[simp] theorem State.setTeam_bar0 (s : State) (n : Nat) (t : Team) : (s.setTeam n t).bar0 = s.bar0 := rfl
@[simp] theorem State.setTeam_eventHold (s : State) (n : Nat) (t : Team) : (s.setTeam n t).eventHold = s.eventHold := rfl
@[simp] theorem State.setTeam_eventWait (s : State) (n : Nat) (t : Team) : (s.setTeam n t).eventWait = s.eventWait := rfl
@[simp] theorem State.setTeam_msix (s : State) (n : Nat) (t : Team) : (s.setTeam n t).msix = s.msix := rfl
@[simp] theorem State.setTeam_flash (s : State) (n : Nat) (t : Team) : (s.setTeam n t).flash = s.flash := rfl
@[simp] theorem State.setTeam_firmware (s : State) (n : Nat) (t : Team) : (s.setTeam n t).firmware = s.firmware := rfl
@[simp] theorem State.setTeam_ownerKeys (s : State) (n : Nat) (t : Team) : (s.setTeam n t).ownerKeys = s.ownerKeys := rfl
@[simp] theorem State.setTeam_fuses (s : State) (n : Nat) (t : Team) : (s.setTeam n t).fuses = s.fuses := rfl
@[simp] theorem State.setTeam_monitor (s : State) (n : Nat) (t : Team) : (s.setTeam n t).monitor = s.monitor := rfl
@[simp] theorem State.setTeam_overseers (s : State) (n : Nat) (t : Team) : (s.setTeam n t).overseers = s.overseers := rfl
@[simp] theorem State.setTeam_images (s : State) (n : Nat) (t : Team) : (s.setTeam n t).images = s.images := rfl
@[simp] theorem State.setTeam_fabric (s : State) (n : Nat) (t : Team) : (s.setTeam n t).fabric = s.fabric := rfl
@[simp] theorem State.setTeam_cycle (s : State) (n : Nat) (t : Team) : (s.setTeam n t).cycle = s.cycle := rfl
@[simp] theorem State.setTeam_tick (s : State) (n : Nat) (t : Team) : (s.setTeam n t).tick = s.tick := rfl
@[simp] theorem State.setTeam_cur (s : State) (n : Nat) (t : Team) : (s.setTeam n t).cur = s.cur := rfl
@[simp] theorem State.setTeam_retries (s : State) (n : Nat) (t : Team) : (s.setTeam n t).retries = s.retries := rfl
@[simp] theorem State.setTeam_queue (s : State) (n : Nat) (t : Team) : (s.setTeam n t).queue = s.queue := rfl

/-! ### notify -/

@[simp] theorem State.notify_mem (s : State) (d : Nat) (n : Notice) : (s.notify d n).mem = s.mem := rfl
@[simp] theorem State.notify_poison (s : State) (d : Nat) (n : Notice) : (s.notify d n).poison = s.poison := rfl
@[simp] theorem State.notify_badSectors (s : State) (d : Nat) (n : Notice) : (s.notify d n).badSectors = s.badSectors := rfl
@[simp] theorem State.notify_full (s : State) (d : Nat) (n : Notice) : (s.notify d n).full = s.full := rfl
@[simp] theorem State.notify_cores (s : State) (d : Nat) (n : Notice) : (s.notify d n).cores = s.cores := rfl
@[simp] theorem State.notify_galleys (s : State) (d : Nat) (n : Notice) : (s.notify d n).galleys = s.galleys := rfl
@[simp] theorem State.notify_binds (s : State) (d : Nat) (n : Notice) : (s.notify d n).binds = s.binds := rfl
@[simp] theorem State.notify_bounds (s : State) (d : Nat) (n : Notice) : (s.notify d n).bounds = s.bounds := rfl
@[simp] theorem State.notify_teams (s : State) (d : Nat) (n : Notice) : (s.notify d n).teams = s.teams := rfl
@[simp] theorem State.notify_nextTeam (s : State) (d : Nat) (n : Notice) : (s.notify d n).nextTeam = s.nextTeam := rfl
@[simp] theorem State.notify_nextId (s : State) (d : Nat) (n : Notice) : (s.notify d n).nextId = s.nextId := rfl
@[simp] theorem State.notify_dir (s : State) (d : Nat) (n : Notice) : (s.notify d n).dir = s.dir := rfl
@[simp] theorem State.notify_l2 (s : State) (d : Nat) (n : Notice) : (s.notify d n).l2 = s.l2 := rfl
@[simp] theorem State.notify_records (s : State) (d : Nat) (n : Notice) : (s.notify d n).records = s.records := rfl
@[simp] theorem State.notify_hostMsgs (s : State) (d : Nat) (n : Notice) : (s.notify d n).hostMsgs = s.hostMsgs := rfl
@[simp] theorem State.notify_impressions (s : State) (d : Nat) (n : Notice) : (s.notify d n).impressions = s.impressions := rfl
@[simp] theorem State.notify_passes (s : State) (d : Nat) (n : Notice) : (s.notify d n).passes = s.passes := rfl
@[simp] theorem State.notify_winLines (s : State) (d : Nat) (n : Notice) : (s.notify d n).winLines = s.winLines := rfl
@[simp] theorem State.notify_cxl (s : State) (d : Nat) (n : Notice) : (s.notify d n).cxl = s.cxl := rfl
@[simp] theorem State.notify_mailWrites (s : State) (d : Nat) (n : Notice) : (s.notify d n).mailWrites = s.mailWrites := rfl
@[simp] theorem State.notify_spanDie (s : State) (d : Nat) (n : Notice) : (s.notify d n).spanDie = s.spanDie := rfl
@[simp] theorem State.notify_scOps (s : State) (d : Nat) (n : Notice) : (s.notify d n).scOps = s.scOps := rfl
@[simp] theorem State.notify_phaseOps (s : State) (d : Nat) (n : Notice) : (s.notify d n).phaseOps = s.phaseOps := rfl
@[simp] theorem State.notify_windowsClosed (s : State) (d : Nat) (n : Notice) : (s.notify d n).windowsClosed = s.windowsClosed := rfl
@[simp] theorem State.notify_bar0 (s : State) (d : Nat) (n : Notice) : (s.notify d n).bar0 = s.bar0 := rfl
@[simp] theorem State.notify_eventHold (s : State) (d : Nat) (n : Notice) : (s.notify d n).eventHold = s.eventHold := rfl
@[simp] theorem State.notify_eventWait (s : State) (d : Nat) (n : Notice) : (s.notify d n).eventWait = s.eventWait := rfl
@[simp] theorem State.notify_msix (s : State) (d : Nat) (n : Notice) : (s.notify d n).msix = s.msix := rfl
@[simp] theorem State.notify_flash (s : State) (d : Nat) (n : Notice) : (s.notify d n).flash = s.flash := rfl
@[simp] theorem State.notify_firmware (s : State) (d : Nat) (n : Notice) : (s.notify d n).firmware = s.firmware := rfl
@[simp] theorem State.notify_ownerKeys (s : State) (d : Nat) (n : Notice) : (s.notify d n).ownerKeys = s.ownerKeys := rfl
@[simp] theorem State.notify_fuses (s : State) (d : Nat) (n : Notice) : (s.notify d n).fuses = s.fuses := rfl
@[simp] theorem State.notify_monitor (s : State) (d : Nat) (n : Notice) : (s.notify d n).monitor = s.monitor := rfl
@[simp] theorem State.notify_overseers (s : State) (d : Nat) (n : Notice) : (s.notify d n).overseers = s.overseers := rfl
@[simp] theorem State.notify_images (s : State) (d : Nat) (n : Notice) : (s.notify d n).images = s.images := rfl
@[simp] theorem State.notify_fabric (s : State) (d : Nat) (n : Notice) : (s.notify d n).fabric = s.fabric := rfl
@[simp] theorem State.notify_cycle (s : State) (d : Nat) (n : Notice) : (s.notify d n).cycle = s.cycle := rfl
@[simp] theorem State.notify_tick (s : State) (d : Nat) (n : Notice) : (s.notify d n).tick = s.tick := rfl
@[simp] theorem State.notify_cur (s : State) (d : Nat) (n : Notice) : (s.notify d n).cur = s.cur := rfl
@[simp] theorem State.notify_retries (s : State) (d : Nat) (n : Notice) : (s.notify d n).retries = s.retries := rfl
@[simp] theorem State.notify_queue (s : State) (d : Nat) (n : Notice) : (s.notify d n).queue = s.queue := rfl

/-! ### hostEvent -/

@[simp] theorem State.hostEvent_mem (s : State) (b : List Byte) (u : Bool) : (s.hostEvent b u).mem = s.mem := rfl
@[simp] theorem State.hostEvent_poison (s : State) (b : List Byte) (u : Bool) : (s.hostEvent b u).poison = s.poison := rfl
@[simp] theorem State.hostEvent_badSectors (s : State) (b : List Byte) (u : Bool) : (s.hostEvent b u).badSectors = s.badSectors := rfl
@[simp] theorem State.hostEvent_full (s : State) (b : List Byte) (u : Bool) : (s.hostEvent b u).full = s.full := rfl
@[simp] theorem State.hostEvent_cores (s : State) (b : List Byte) (u : Bool) : (s.hostEvent b u).cores = s.cores := rfl
@[simp] theorem State.hostEvent_galleys (s : State) (b : List Byte) (u : Bool) : (s.hostEvent b u).galleys = s.galleys := rfl
@[simp] theorem State.hostEvent_binds (s : State) (b : List Byte) (u : Bool) : (s.hostEvent b u).binds = s.binds := rfl
@[simp] theorem State.hostEvent_bounds (s : State) (b : List Byte) (u : Bool) : (s.hostEvent b u).bounds = s.bounds := rfl
@[simp] theorem State.hostEvent_teams (s : State) (b : List Byte) (u : Bool) : (s.hostEvent b u).teams = s.teams := rfl
@[simp] theorem State.hostEvent_nextTeam (s : State) (b : List Byte) (u : Bool) : (s.hostEvent b u).nextTeam = s.nextTeam := rfl
@[simp] theorem State.hostEvent_nextId (s : State) (b : List Byte) (u : Bool) : (s.hostEvent b u).nextId = s.nextId := rfl
@[simp] theorem State.hostEvent_dir (s : State) (b : List Byte) (u : Bool) : (s.hostEvent b u).dir = s.dir := rfl
@[simp] theorem State.hostEvent_l2 (s : State) (b : List Byte) (u : Bool) : (s.hostEvent b u).l2 = s.l2 := rfl
@[simp] theorem State.hostEvent_records (s : State) (b : List Byte) (u : Bool) : (s.hostEvent b u).records = s.records := rfl
@[simp] theorem State.hostEvent_hostMsgs (s : State) (b : List Byte) (u : Bool) : (s.hostEvent b u).hostMsgs = s.hostMsgs := rfl
@[simp] theorem State.hostEvent_notices (s : State) (b : List Byte) (u : Bool) : (s.hostEvent b u).notices = s.notices := rfl
@[simp] theorem State.hostEvent_impressions (s : State) (b : List Byte) (u : Bool) : (s.hostEvent b u).impressions = s.impressions := rfl
@[simp] theorem State.hostEvent_passes (s : State) (b : List Byte) (u : Bool) : (s.hostEvent b u).passes = s.passes := rfl
@[simp] theorem State.hostEvent_winLines (s : State) (b : List Byte) (u : Bool) : (s.hostEvent b u).winLines = s.winLines := rfl
@[simp] theorem State.hostEvent_cxl (s : State) (b : List Byte) (u : Bool) : (s.hostEvent b u).cxl = s.cxl := rfl
@[simp] theorem State.hostEvent_mailWrites (s : State) (b : List Byte) (u : Bool) : (s.hostEvent b u).mailWrites = s.mailWrites := rfl
@[simp] theorem State.hostEvent_spanDie (s : State) (b : List Byte) (u : Bool) : (s.hostEvent b u).spanDie = s.spanDie := rfl
@[simp] theorem State.hostEvent_scOps (s : State) (b : List Byte) (u : Bool) : (s.hostEvent b u).scOps = s.scOps := rfl
@[simp] theorem State.hostEvent_phaseOps (s : State) (b : List Byte) (u : Bool) : (s.hostEvent b u).phaseOps = s.phaseOps := rfl
@[simp] theorem State.hostEvent_windowsClosed (s : State) (b : List Byte) (u : Bool) : (s.hostEvent b u).windowsClosed = s.windowsClosed := rfl
@[simp] theorem State.hostEvent_bar0 (s : State) (b : List Byte) (u : Bool) : (s.hostEvent b u).bar0 = s.bar0 := rfl
@[simp] theorem State.hostEvent_msix (s : State) (b : List Byte) (u : Bool) : (s.hostEvent b u).msix = s.msix := rfl
@[simp] theorem State.hostEvent_flash (s : State) (b : List Byte) (u : Bool) : (s.hostEvent b u).flash = s.flash := rfl
@[simp] theorem State.hostEvent_firmware (s : State) (b : List Byte) (u : Bool) : (s.hostEvent b u).firmware = s.firmware := rfl
@[simp] theorem State.hostEvent_ownerKeys (s : State) (b : List Byte) (u : Bool) : (s.hostEvent b u).ownerKeys = s.ownerKeys := rfl
@[simp] theorem State.hostEvent_fuses (s : State) (b : List Byte) (u : Bool) : (s.hostEvent b u).fuses = s.fuses := rfl
@[simp] theorem State.hostEvent_monitor (s : State) (b : List Byte) (u : Bool) : (s.hostEvent b u).monitor = s.monitor := rfl
@[simp] theorem State.hostEvent_overseers (s : State) (b : List Byte) (u : Bool) : (s.hostEvent b u).overseers = s.overseers := rfl
@[simp] theorem State.hostEvent_images (s : State) (b : List Byte) (u : Bool) : (s.hostEvent b u).images = s.images := rfl
@[simp] theorem State.hostEvent_fabric (s : State) (b : List Byte) (u : Bool) : (s.hostEvent b u).fabric = s.fabric := rfl
@[simp] theorem State.hostEvent_cycle (s : State) (b : List Byte) (u : Bool) : (s.hostEvent b u).cycle = s.cycle := rfl
@[simp] theorem State.hostEvent_tick (s : State) (b : List Byte) (u : Bool) : (s.hostEvent b u).tick = s.tick := rfl
@[simp] theorem State.hostEvent_cur (s : State) (b : List Byte) (u : Bool) : (s.hostEvent b u).cur = s.cur := rfl
@[simp] theorem State.hostEvent_retries (s : State) (b : List Byte) (u : Bool) : (s.hostEvent b u).retries = s.retries := rfl
@[simp] theorem State.hostEvent_queue (s : State) (b : List Byte) (u : Bool) : (s.hostEvent b u).queue = s.queue := rfl

/-! ### post -/

@[simp] theorem State.post_mem (s : State) (e : Event) : (s.post e).mem = s.mem := rfl
@[simp] theorem State.post_poison (s : State) (e : Event) : (s.post e).poison = s.poison := rfl
@[simp] theorem State.post_badSectors (s : State) (e : Event) : (s.post e).badSectors = s.badSectors := rfl
@[simp] theorem State.post_full (s : State) (e : Event) : (s.post e).full = s.full := rfl
@[simp] theorem State.post_cores (s : State) (e : Event) : (s.post e).cores = s.cores := rfl
@[simp] theorem State.post_galleys (s : State) (e : Event) : (s.post e).galleys = s.galleys := rfl
@[simp] theorem State.post_binds (s : State) (e : Event) : (s.post e).binds = s.binds := rfl
@[simp] theorem State.post_bounds (s : State) (e : Event) : (s.post e).bounds = s.bounds := rfl
@[simp] theorem State.post_teams (s : State) (e : Event) : (s.post e).teams = s.teams := rfl
@[simp] theorem State.post_nextTeam (s : State) (e : Event) : (s.post e).nextTeam = s.nextTeam := rfl
@[simp] theorem State.post_nextId (s : State) (e : Event) : (s.post e).nextId = s.nextId := rfl
@[simp] theorem State.post_dir (s : State) (e : Event) : (s.post e).dir = s.dir := rfl
@[simp] theorem State.post_l2 (s : State) (e : Event) : (s.post e).l2 = s.l2 := rfl
@[simp] theorem State.post_records (s : State) (e : Event) : (s.post e).records = s.records := rfl
@[simp] theorem State.post_hostMsgs (s : State) (e : Event) : (s.post e).hostMsgs = s.hostMsgs := rfl
@[simp] theorem State.post_notices (s : State) (e : Event) : (s.post e).notices = s.notices := rfl
@[simp] theorem State.post_impressions (s : State) (e : Event) : (s.post e).impressions = s.impressions := rfl
@[simp] theorem State.post_passes (s : State) (e : Event) : (s.post e).passes = s.passes := rfl
@[simp] theorem State.post_winLines (s : State) (e : Event) : (s.post e).winLines = s.winLines := rfl
@[simp] theorem State.post_cxl (s : State) (e : Event) : (s.post e).cxl = s.cxl := rfl
@[simp] theorem State.post_mailWrites (s : State) (e : Event) : (s.post e).mailWrites = s.mailWrites := rfl
@[simp] theorem State.post_spanDie (s : State) (e : Event) : (s.post e).spanDie = s.spanDie := rfl
@[simp] theorem State.post_scOps (s : State) (e : Event) : (s.post e).scOps = s.scOps := rfl
@[simp] theorem State.post_phaseOps (s : State) (e : Event) : (s.post e).phaseOps = s.phaseOps := rfl
@[simp] theorem State.post_windowsClosed (s : State) (e : Event) : (s.post e).windowsClosed = s.windowsClosed := rfl
@[simp] theorem State.post_bar0 (s : State) (e : Event) : (s.post e).bar0 = s.bar0 := rfl
@[simp] theorem State.post_eventHold (s : State) (e : Event) : (s.post e).eventHold = s.eventHold := rfl
@[simp] theorem State.post_eventWait (s : State) (e : Event) : (s.post e).eventWait = s.eventWait := rfl
@[simp] theorem State.post_msix (s : State) (e : Event) : (s.post e).msix = s.msix := rfl
@[simp] theorem State.post_flash (s : State) (e : Event) : (s.post e).flash = s.flash := rfl
@[simp] theorem State.post_firmware (s : State) (e : Event) : (s.post e).firmware = s.firmware := rfl
@[simp] theorem State.post_ownerKeys (s : State) (e : Event) : (s.post e).ownerKeys = s.ownerKeys := rfl
@[simp] theorem State.post_fuses (s : State) (e : Event) : (s.post e).fuses = s.fuses := rfl
@[simp] theorem State.post_monitor (s : State) (e : Event) : (s.post e).monitor = s.monitor := rfl
@[simp] theorem State.post_overseers (s : State) (e : Event) : (s.post e).overseers = s.overseers := rfl
@[simp] theorem State.post_images (s : State) (e : Event) : (s.post e).images = s.images := rfl
@[simp] theorem State.post_fabric (s : State) (e : Event) : (s.post e).fabric = s.fabric := rfl
@[simp] theorem State.post_cycle (s : State) (e : Event) : (s.post e).cycle = s.cycle := rfl
@[simp] theorem State.post_tick (s : State) (e : Event) : (s.post e).tick = s.tick := rfl
@[simp] theorem State.post_cur (s : State) (e : Event) : (s.post e).cur = s.cur := rfl
@[simp] theorem State.post_retries (s : State) (e : Event) : (s.post e).retries = s.retries := rfl

/-- Cancelling writes changes nothing but the pending list. -/
theorem Ctx.cancel_eq (c : Ctx) (l : Landing) : ∃ q, c.cancel l = { c with pend := q } := by
  unfold Ctx.cancel
  split
  · exact ⟨c.pend, rfl⟩
  · exact ⟨_, rfl⟩

/-! ### count -/

@[simp] theorem Ctx.count_pc (c : Ctx) (i n : Nat) : (c.count i n).pc = c.pc := rfl
@[simp] theorem Ctx.count_rf (c : Ctx) (i n : Nat) : (c.count i n).rf = c.rf := rfl
@[simp] theorem Ctx.count_links (c : Ctx) (i n : Nat) : (c.count i n).links = c.links := rfl
@[simp] theorem Ctx.count_tbank (c : Ctx) (i n : Nat) : (c.count i n).tbank = c.tbank := rfl
@[simp] theorem Ctx.count_areg (c : Ctx) (i n : Nat) : (c.count i n).areg = c.areg := rfl
@[simp] theorem Ctx.count_depth (c : Ctx) (i n : Nat) : (c.count i n).depth = c.depth := rfl
@[simp] theorem Ctx.count_res (c : Ctx) (i n : Nat) : (c.count i n).res = c.res := rfl
@[simp] theorem Ctx.count_cap (c : Ctx) (i n : Nat) : (c.count i n).cap = c.cap := rfl
@[simp] theorem Ctx.count_prio (c : Ctx) (i n : Nat) : (c.count i n).prio = c.prio := rfl
@[simp] theorem Ctx.count_va (c : Ctx) (i n : Nat) : (c.count i n).va = c.va := rfl
@[simp] theorem Ctx.count_arv (c : Ctx) (i n : Nat) : (c.count i n).arv = c.arv := rfl
@[simp] theorem Ctx.count_trap (c : Ctx) (i n : Nat) : (c.count i n).trap = c.trap := rfl
@[simp] theorem Ctx.count_lh (c : Ctx) (i n : Nat) : (c.count i n).lh = c.lh := rfl
@[simp] theorem Ctx.count_pairBit (c : Ctx) (i n : Nat) : (c.count i n).pairBit = c.pairBit := rfl
@[simp] theorem Ctx.count_twin (c : Ctx) (i n : Nat) : (c.count i n).twin = c.twin := rfl
@[simp] theorem Ctx.count_awc (c : Ctx) (i n : Nat) : (c.count i n).awc = c.awc := rfl
@[simp] theorem Ctx.count_epc (c : Ctx) (i n : Nat) : (c.count i n).epc = c.epc := rfl
@[simp] theorem Ctx.count_ecause (c : Ctx) (i n : Nat) : (c.count i n).ecause = c.ecause := rfl
@[simp] theorem Ctx.count_eval (c : Ctx) (i n : Nat) : (c.count i n).eval = c.eval := rfl
@[simp] theorem Ctx.count_amax (c : Ctx) (i n : Nat) : (c.count i n).amax = c.amax := rfl
@[simp] theorem Ctx.count_vtype (c : Ctx) (i n : Nat) : (c.count i n).vtype = c.vtype := rfl
@[simp] theorem Ctx.count_tgen (c : Ctx) (i n : Nat) : (c.count i n).tgen = c.tgen := rfl
@[simp] theorem Ctx.count_rprog (c : Ctx) (i n : Nat) : (c.count i n).rprog = c.rprog := rfl
@[simp] theorem Ctx.count_lpc (c : Ctx) (i n : Nat) : (c.count i n).lpc = c.lpc := rfl
@[simp] theorem Ctx.count_lcv (c : Ctx) (i n : Nat) : (c.count i n).lcv = c.lcv := rfl
@[simp] theorem Ctx.count_vregs (c : Ctx) (i n : Nat) : (c.count i n).vregs = c.vregs := rfl
@[simp] theorem Ctx.count_masks (c : Ctx) (i n : Nat) : (c.count i n).masks = c.masks := rfl
@[simp] theorem Ctx.count_pend (c : Ctx) (i n : Nat) : (c.count i n).pend = c.pend := rfl
@[simp] theorem Ctx.count_st (c : Ctx) (i n : Nat) : (c.count i n).st = c.st := rfl
@[simp] theorem Ctx.count_tenant (c : Ctx) (i n : Nat) : (c.count i n).tenant = c.tenant := rfl
@[simp] theorem Ctx.count_gang (c : Ctx) (i n : Nat) : (c.count i n).gang = c.gang := rfl
@[simp] theorem Ctx.count_tbase (c : Ctx) (i n : Nat) : (c.count i n).tbase = c.tbase := rfl
@[simp] theorem Ctx.count_team (c : Ctx) (i n : Nat) : (c.count i n).team = c.team := rfl
@[simp] theorem Ctx.count_interval (c : Ctx) (i n : Nat) : (c.count i n).interval = c.interval := rfl
@[simp] theorem Ctx.count_ports (c : Ctx) (i n : Nat) : (c.count i n).ports = c.ports := rfl
@[simp] theorem Ctx.count_mset (c : Ctx) (i n : Nat) : (c.count i n).mset = c.mset := rfl
@[simp] theorem Ctx.count_mred (c : Ctx) (i n : Nat) : (c.count i n).mred = c.mred := rfl
@[simp] theorem Ctx.count_mfaults (c : Ctx) (i n : Nat) : (c.count i n).mfaults = c.mfaults := rfl
@[simp] theorem Ctx.count_lost (c : Ctx) (i n : Nat) : (c.count i n).lost = c.lost := rfl
@[simp] theorem Ctx.count_arrived (c : Ctx) (i n : Nat) : (c.count i n).arrived = c.arrived := rfl
@[simp] theorem Ctx.count_barCnt (c : Ctx) (i n : Nat) : (c.count i n).barCnt = c.barCnt := rfl
@[simp] theorem Ctx.count_releaseDue (c : Ctx) (i n : Nat) : (c.count i n).releaseDue = c.releaseDue := rfl
@[simp] theorem Ctx.count_pair (c : Ctx) (i n : Nat) : (c.count i n).pair = c.pair := rfl
@[simp] theorem Ctx.count_wait (c : Ctx) (i n : Nat) : (c.count i n).wait = c.wait := rfl
@[simp] theorem Ctx.count_staleCounted (c : Ctx) (i n : Nat) : (c.count i n).staleCounted = c.staleCounted := rfl
@[simp] theorem Ctx.count_touched (c : Ctx) (i n : Nat) : (c.count i n).touched = c.touched := rfl
@[simp] theorem Ctx.count_hot (c : Ctx) (i n : Nat) : (c.count i n).hot = c.hot := rfl
@[simp] theorem Ctx.count_midway (c : Ctx) (i n : Nat) : (c.count i n).midway = c.midway := rfl
@[simp] theorem Ctx.count_operands (c : Ctx) (i n : Nat) : (c.count i n).operands = c.operands := rfl
@[simp] theorem Ctx.count_draws (c : Ctx) (i n : Nat) : (c.count i n).draws = c.draws := rfl

/-! ### setLink -/

@[simp] theorem Ctx.setLink_pc (c : Ctx) (j : Nat) (v : Word) : (c.setLink j v).pc = c.pc := rfl
@[simp] theorem Ctx.setLink_rf (c : Ctx) (j : Nat) (v : Word) : (c.setLink j v).rf = c.rf := rfl
@[simp] theorem Ctx.setLink_tbank (c : Ctx) (j : Nat) (v : Word) : (c.setLink j v).tbank = c.tbank := rfl
@[simp] theorem Ctx.setLink_areg (c : Ctx) (j : Nat) (v : Word) : (c.setLink j v).areg = c.areg := rfl
@[simp] theorem Ctx.setLink_depth (c : Ctx) (j : Nat) (v : Word) : (c.setLink j v).depth = c.depth := rfl
@[simp] theorem Ctx.setLink_res (c : Ctx) (j : Nat) (v : Word) : (c.setLink j v).res = c.res := rfl
@[simp] theorem Ctx.setLink_cap (c : Ctx) (j : Nat) (v : Word) : (c.setLink j v).cap = c.cap := rfl
@[simp] theorem Ctx.setLink_prio (c : Ctx) (j : Nat) (v : Word) : (c.setLink j v).prio = c.prio := rfl
@[simp] theorem Ctx.setLink_va (c : Ctx) (j : Nat) (v : Word) : (c.setLink j v).va = c.va := rfl
@[simp] theorem Ctx.setLink_arv (c : Ctx) (j : Nat) (v : Word) : (c.setLink j v).arv = c.arv := rfl
@[simp] theorem Ctx.setLink_trap (c : Ctx) (j : Nat) (v : Word) : (c.setLink j v).trap = c.trap := rfl
@[simp] theorem Ctx.setLink_lh (c : Ctx) (j : Nat) (v : Word) : (c.setLink j v).lh = c.lh := rfl
@[simp] theorem Ctx.setLink_pairBit (c : Ctx) (j : Nat) (v : Word) : (c.setLink j v).pairBit = c.pairBit := rfl
@[simp] theorem Ctx.setLink_twin (c : Ctx) (j : Nat) (v : Word) : (c.setLink j v).twin = c.twin := rfl
@[simp] theorem Ctx.setLink_awc (c : Ctx) (j : Nat) (v : Word) : (c.setLink j v).awc = c.awc := rfl
@[simp] theorem Ctx.setLink_epc (c : Ctx) (j : Nat) (v : Word) : (c.setLink j v).epc = c.epc := rfl
@[simp] theorem Ctx.setLink_ecause (c : Ctx) (j : Nat) (v : Word) : (c.setLink j v).ecause = c.ecause := rfl
@[simp] theorem Ctx.setLink_eval (c : Ctx) (j : Nat) (v : Word) : (c.setLink j v).eval = c.eval := rfl
@[simp] theorem Ctx.setLink_amax (c : Ctx) (j : Nat) (v : Word) : (c.setLink j v).amax = c.amax := rfl
@[simp] theorem Ctx.setLink_vtype (c : Ctx) (j : Nat) (v : Word) : (c.setLink j v).vtype = c.vtype := rfl
@[simp] theorem Ctx.setLink_tgen (c : Ctx) (j : Nat) (v : Word) : (c.setLink j v).tgen = c.tgen := rfl
@[simp] theorem Ctx.setLink_rprog (c : Ctx) (j : Nat) (v : Word) : (c.setLink j v).rprog = c.rprog := rfl
@[simp] theorem Ctx.setLink_lpc (c : Ctx) (j : Nat) (v : Word) : (c.setLink j v).lpc = c.lpc := rfl
@[simp] theorem Ctx.setLink_lcv (c : Ctx) (j : Nat) (v : Word) : (c.setLink j v).lcv = c.lcv := rfl
@[simp] theorem Ctx.setLink_vregs (c : Ctx) (j : Nat) (v : Word) : (c.setLink j v).vregs = c.vregs := rfl
@[simp] theorem Ctx.setLink_masks (c : Ctx) (j : Nat) (v : Word) : (c.setLink j v).masks = c.masks := rfl
@[simp] theorem Ctx.setLink_cnt (c : Ctx) (j : Nat) (v : Word) : (c.setLink j v).cnt = c.cnt := rfl
@[simp] theorem Ctx.setLink_pend (c : Ctx) (j : Nat) (v : Word) : (c.setLink j v).pend = c.pend := rfl
@[simp] theorem Ctx.setLink_st (c : Ctx) (j : Nat) (v : Word) : (c.setLink j v).st = c.st := rfl
@[simp] theorem Ctx.setLink_tenant (c : Ctx) (j : Nat) (v : Word) : (c.setLink j v).tenant = c.tenant := rfl
@[simp] theorem Ctx.setLink_gang (c : Ctx) (j : Nat) (v : Word) : (c.setLink j v).gang = c.gang := rfl
@[simp] theorem Ctx.setLink_tbase (c : Ctx) (j : Nat) (v : Word) : (c.setLink j v).tbase = c.tbase := rfl
@[simp] theorem Ctx.setLink_team (c : Ctx) (j : Nat) (v : Word) : (c.setLink j v).team = c.team := rfl
@[simp] theorem Ctx.setLink_interval (c : Ctx) (j : Nat) (v : Word) : (c.setLink j v).interval = c.interval := rfl
@[simp] theorem Ctx.setLink_ports (c : Ctx) (j : Nat) (v : Word) : (c.setLink j v).ports = c.ports := rfl
@[simp] theorem Ctx.setLink_mset (c : Ctx) (j : Nat) (v : Word) : (c.setLink j v).mset = c.mset := rfl
@[simp] theorem Ctx.setLink_mred (c : Ctx) (j : Nat) (v : Word) : (c.setLink j v).mred = c.mred := rfl
@[simp] theorem Ctx.setLink_mfaults (c : Ctx) (j : Nat) (v : Word) : (c.setLink j v).mfaults = c.mfaults := rfl
@[simp] theorem Ctx.setLink_lost (c : Ctx) (j : Nat) (v : Word) : (c.setLink j v).lost = c.lost := rfl
@[simp] theorem Ctx.setLink_arrived (c : Ctx) (j : Nat) (v : Word) : (c.setLink j v).arrived = c.arrived := rfl
@[simp] theorem Ctx.setLink_barCnt (c : Ctx) (j : Nat) (v : Word) : (c.setLink j v).barCnt = c.barCnt := rfl
@[simp] theorem Ctx.setLink_releaseDue (c : Ctx) (j : Nat) (v : Word) : (c.setLink j v).releaseDue = c.releaseDue := rfl
@[simp] theorem Ctx.setLink_pair (c : Ctx) (j : Nat) (v : Word) : (c.setLink j v).pair = c.pair := rfl
@[simp] theorem Ctx.setLink_wait (c : Ctx) (j : Nat) (v : Word) : (c.setLink j v).wait = c.wait := rfl
@[simp] theorem Ctx.setLink_staleCounted (c : Ctx) (j : Nat) (v : Word) : (c.setLink j v).staleCounted = c.staleCounted := rfl
@[simp] theorem Ctx.setLink_touched (c : Ctx) (j : Nat) (v : Word) : (c.setLink j v).touched = c.touched := rfl
@[simp] theorem Ctx.setLink_hot (c : Ctx) (j : Nat) (v : Word) : (c.setLink j v).hot = c.hot := rfl
@[simp] theorem Ctx.setLink_midway (c : Ctx) (j : Nat) (v : Word) : (c.setLink j v).midway = c.midway := rfl
@[simp] theorem Ctx.setLink_operands (c : Ctx) (j : Nat) (v : Word) : (c.setLink j v).operands = c.operands := rfl
@[simp] theorem Ctx.setLink_draws (c : Ctx) (j : Nat) (v : Word) : (c.setLink j v).draws = c.draws := rfl

/-! ### clearFrame -/

@[simp] theorem Ctx.clearFrame_pc (c : Ctx) (j : Nat) : (c.clearFrame j).pc = c.pc := by unfold Ctx.clearFrame; rfl
@[simp] theorem Ctx.clearFrame_links (c : Ctx) (j : Nat) : (c.clearFrame j).links = c.links := by unfold Ctx.clearFrame; rfl
@[simp] theorem Ctx.clearFrame_tbank (c : Ctx) (j : Nat) : (c.clearFrame j).tbank = c.tbank := by unfold Ctx.clearFrame; rfl
@[simp] theorem Ctx.clearFrame_areg (c : Ctx) (j : Nat) : (c.clearFrame j).areg = c.areg := by unfold Ctx.clearFrame; rfl
@[simp] theorem Ctx.clearFrame_depth (c : Ctx) (j : Nat) : (c.clearFrame j).depth = c.depth := by unfold Ctx.clearFrame; rfl
@[simp] theorem Ctx.clearFrame_res (c : Ctx) (j : Nat) : (c.clearFrame j).res = c.res := by unfold Ctx.clearFrame; rfl
@[simp] theorem Ctx.clearFrame_cap (c : Ctx) (j : Nat) : (c.clearFrame j).cap = c.cap := by unfold Ctx.clearFrame; rfl
@[simp] theorem Ctx.clearFrame_prio (c : Ctx) (j : Nat) : (c.clearFrame j).prio = c.prio := by unfold Ctx.clearFrame; rfl
@[simp] theorem Ctx.clearFrame_va (c : Ctx) (j : Nat) : (c.clearFrame j).va = c.va := by unfold Ctx.clearFrame; rfl
@[simp] theorem Ctx.clearFrame_arv (c : Ctx) (j : Nat) : (c.clearFrame j).arv = c.arv := by unfold Ctx.clearFrame; rfl
@[simp] theorem Ctx.clearFrame_trap (c : Ctx) (j : Nat) : (c.clearFrame j).trap = c.trap := by unfold Ctx.clearFrame; rfl
@[simp] theorem Ctx.clearFrame_lh (c : Ctx) (j : Nat) : (c.clearFrame j).lh = c.lh := by unfold Ctx.clearFrame; rfl
@[simp] theorem Ctx.clearFrame_pairBit (c : Ctx) (j : Nat) : (c.clearFrame j).pairBit = c.pairBit := by unfold Ctx.clearFrame; rfl
@[simp] theorem Ctx.clearFrame_twin (c : Ctx) (j : Nat) : (c.clearFrame j).twin = c.twin := by unfold Ctx.clearFrame; rfl
@[simp] theorem Ctx.clearFrame_awc (c : Ctx) (j : Nat) : (c.clearFrame j).awc = c.awc := by unfold Ctx.clearFrame; rfl
@[simp] theorem Ctx.clearFrame_epc (c : Ctx) (j : Nat) : (c.clearFrame j).epc = c.epc := by unfold Ctx.clearFrame; rfl
@[simp] theorem Ctx.clearFrame_ecause (c : Ctx) (j : Nat) : (c.clearFrame j).ecause = c.ecause := by unfold Ctx.clearFrame; rfl
@[simp] theorem Ctx.clearFrame_eval (c : Ctx) (j : Nat) : (c.clearFrame j).eval = c.eval := by unfold Ctx.clearFrame; rfl
@[simp] theorem Ctx.clearFrame_amax (c : Ctx) (j : Nat) : (c.clearFrame j).amax = c.amax := by unfold Ctx.clearFrame; rfl
@[simp] theorem Ctx.clearFrame_vtype (c : Ctx) (j : Nat) : (c.clearFrame j).vtype = c.vtype := by unfold Ctx.clearFrame; rfl
@[simp] theorem Ctx.clearFrame_tgen (c : Ctx) (j : Nat) : (c.clearFrame j).tgen = c.tgen := by unfold Ctx.clearFrame; rfl
@[simp] theorem Ctx.clearFrame_rprog (c : Ctx) (j : Nat) : (c.clearFrame j).rprog = c.rprog := by unfold Ctx.clearFrame; rfl
@[simp] theorem Ctx.clearFrame_lpc (c : Ctx) (j : Nat) : (c.clearFrame j).lpc = c.lpc := by unfold Ctx.clearFrame; rfl
@[simp] theorem Ctx.clearFrame_lcv (c : Ctx) (j : Nat) : (c.clearFrame j).lcv = c.lcv := by unfold Ctx.clearFrame; rfl
@[simp] theorem Ctx.clearFrame_vregs (c : Ctx) (j : Nat) : (c.clearFrame j).vregs = c.vregs := by unfold Ctx.clearFrame; rfl
@[simp] theorem Ctx.clearFrame_masks (c : Ctx) (j : Nat) : (c.clearFrame j).masks = c.masks := by unfold Ctx.clearFrame; rfl
@[simp] theorem Ctx.clearFrame_cnt (c : Ctx) (j : Nat) : (c.clearFrame j).cnt = c.cnt := by unfold Ctx.clearFrame; rfl
@[simp] theorem Ctx.clearFrame_pend (c : Ctx) (j : Nat) : (c.clearFrame j).pend = c.pend := by unfold Ctx.clearFrame; rfl
@[simp] theorem Ctx.clearFrame_st (c : Ctx) (j : Nat) : (c.clearFrame j).st = c.st := by unfold Ctx.clearFrame; rfl
@[simp] theorem Ctx.clearFrame_tenant (c : Ctx) (j : Nat) : (c.clearFrame j).tenant = c.tenant := by unfold Ctx.clearFrame; rfl
@[simp] theorem Ctx.clearFrame_gang (c : Ctx) (j : Nat) : (c.clearFrame j).gang = c.gang := by unfold Ctx.clearFrame; rfl
@[simp] theorem Ctx.clearFrame_tbase (c : Ctx) (j : Nat) : (c.clearFrame j).tbase = c.tbase := by unfold Ctx.clearFrame; rfl
@[simp] theorem Ctx.clearFrame_team (c : Ctx) (j : Nat) : (c.clearFrame j).team = c.team := by unfold Ctx.clearFrame; rfl
@[simp] theorem Ctx.clearFrame_interval (c : Ctx) (j : Nat) : (c.clearFrame j).interval = c.interval := by unfold Ctx.clearFrame; rfl
@[simp] theorem Ctx.clearFrame_ports (c : Ctx) (j : Nat) : (c.clearFrame j).ports = c.ports := by unfold Ctx.clearFrame; rfl
@[simp] theorem Ctx.clearFrame_mset (c : Ctx) (j : Nat) : (c.clearFrame j).mset = c.mset := by unfold Ctx.clearFrame; rfl
@[simp] theorem Ctx.clearFrame_mred (c : Ctx) (j : Nat) : (c.clearFrame j).mred = c.mred := by unfold Ctx.clearFrame; rfl
@[simp] theorem Ctx.clearFrame_mfaults (c : Ctx) (j : Nat) : (c.clearFrame j).mfaults = c.mfaults := by unfold Ctx.clearFrame; rfl
@[simp] theorem Ctx.clearFrame_lost (c : Ctx) (j : Nat) : (c.clearFrame j).lost = c.lost := by unfold Ctx.clearFrame; rfl
@[simp] theorem Ctx.clearFrame_arrived (c : Ctx) (j : Nat) : (c.clearFrame j).arrived = c.arrived := by unfold Ctx.clearFrame; rfl
@[simp] theorem Ctx.clearFrame_barCnt (c : Ctx) (j : Nat) : (c.clearFrame j).barCnt = c.barCnt := by unfold Ctx.clearFrame; rfl
@[simp] theorem Ctx.clearFrame_releaseDue (c : Ctx) (j : Nat) : (c.clearFrame j).releaseDue = c.releaseDue := by unfold Ctx.clearFrame; rfl
@[simp] theorem Ctx.clearFrame_pair (c : Ctx) (j : Nat) : (c.clearFrame j).pair = c.pair := by unfold Ctx.clearFrame; rfl
@[simp] theorem Ctx.clearFrame_wait (c : Ctx) (j : Nat) : (c.clearFrame j).wait = c.wait := by unfold Ctx.clearFrame; rfl
@[simp] theorem Ctx.clearFrame_staleCounted (c : Ctx) (j : Nat) : (c.clearFrame j).staleCounted = c.staleCounted := by unfold Ctx.clearFrame; rfl
@[simp] theorem Ctx.clearFrame_touched (c : Ctx) (j : Nat) : (c.clearFrame j).touched = c.touched := by unfold Ctx.clearFrame; rfl
@[simp] theorem Ctx.clearFrame_hot (c : Ctx) (j : Nat) : (c.clearFrame j).hot = c.hot := by unfold Ctx.clearFrame; rfl
@[simp] theorem Ctx.clearFrame_midway (c : Ctx) (j : Nat) : (c.clearFrame j).midway = c.midway := by unfold Ctx.clearFrame; rfl
@[simp] theorem Ctx.clearFrame_operands (c : Ctx) (j : Nat) : (c.clearFrame j).operands = c.operands := by unfold Ctx.clearFrame; rfl
@[simp] theorem Ctx.clearFrame_draws (c : Ctx) (j : Nat) : (c.clearFrame j).draws = c.draws := by unfold Ctx.clearFrame; rfl

/-! ### setPort -/

@[simp] theorem Ctx.setPort_pc (c : Ctx) (r : Nat) (p : Port) : (c.setPort r p).pc = c.pc := rfl
@[simp] theorem Ctx.setPort_rf (c : Ctx) (r : Nat) (p : Port) : (c.setPort r p).rf = c.rf := rfl
@[simp] theorem Ctx.setPort_links (c : Ctx) (r : Nat) (p : Port) : (c.setPort r p).links = c.links := rfl
@[simp] theorem Ctx.setPort_tbank (c : Ctx) (r : Nat) (p : Port) : (c.setPort r p).tbank = c.tbank := rfl
@[simp] theorem Ctx.setPort_areg (c : Ctx) (r : Nat) (p : Port) : (c.setPort r p).areg = c.areg := rfl
@[simp] theorem Ctx.setPort_depth (c : Ctx) (r : Nat) (p : Port) : (c.setPort r p).depth = c.depth := rfl
@[simp] theorem Ctx.setPort_res (c : Ctx) (r : Nat) (p : Port) : (c.setPort r p).res = c.res := rfl
@[simp] theorem Ctx.setPort_cap (c : Ctx) (r : Nat) (p : Port) : (c.setPort r p).cap = c.cap := rfl
@[simp] theorem Ctx.setPort_prio (c : Ctx) (r : Nat) (p : Port) : (c.setPort r p).prio = c.prio := rfl
@[simp] theorem Ctx.setPort_va (c : Ctx) (r : Nat) (p : Port) : (c.setPort r p).va = c.va := rfl
@[simp] theorem Ctx.setPort_arv (c : Ctx) (r : Nat) (p : Port) : (c.setPort r p).arv = c.arv := rfl
@[simp] theorem Ctx.setPort_trap (c : Ctx) (r : Nat) (p : Port) : (c.setPort r p).trap = c.trap := rfl
@[simp] theorem Ctx.setPort_lh (c : Ctx) (r : Nat) (p : Port) : (c.setPort r p).lh = c.lh := rfl
@[simp] theorem Ctx.setPort_pairBit (c : Ctx) (r : Nat) (p : Port) : (c.setPort r p).pairBit = c.pairBit := rfl
@[simp] theorem Ctx.setPort_twin (c : Ctx) (r : Nat) (p : Port) : (c.setPort r p).twin = c.twin := rfl
@[simp] theorem Ctx.setPort_awc (c : Ctx) (r : Nat) (p : Port) : (c.setPort r p).awc = c.awc := rfl
@[simp] theorem Ctx.setPort_epc (c : Ctx) (r : Nat) (p : Port) : (c.setPort r p).epc = c.epc := rfl
@[simp] theorem Ctx.setPort_ecause (c : Ctx) (r : Nat) (p : Port) : (c.setPort r p).ecause = c.ecause := rfl
@[simp] theorem Ctx.setPort_eval (c : Ctx) (r : Nat) (p : Port) : (c.setPort r p).eval = c.eval := rfl
@[simp] theorem Ctx.setPort_amax (c : Ctx) (r : Nat) (p : Port) : (c.setPort r p).amax = c.amax := rfl
@[simp] theorem Ctx.setPort_vtype (c : Ctx) (r : Nat) (p : Port) : (c.setPort r p).vtype = c.vtype := rfl
@[simp] theorem Ctx.setPort_tgen (c : Ctx) (r : Nat) (p : Port) : (c.setPort r p).tgen = c.tgen := rfl
@[simp] theorem Ctx.setPort_rprog (c : Ctx) (r : Nat) (p : Port) : (c.setPort r p).rprog = c.rprog := rfl
@[simp] theorem Ctx.setPort_lpc (c : Ctx) (r : Nat) (p : Port) : (c.setPort r p).lpc = c.lpc := rfl
@[simp] theorem Ctx.setPort_lcv (c : Ctx) (r : Nat) (p : Port) : (c.setPort r p).lcv = c.lcv := rfl
@[simp] theorem Ctx.setPort_vregs (c : Ctx) (r : Nat) (p : Port) : (c.setPort r p).vregs = c.vregs := rfl
@[simp] theorem Ctx.setPort_masks (c : Ctx) (r : Nat) (p : Port) : (c.setPort r p).masks = c.masks := rfl
@[simp] theorem Ctx.setPort_cnt (c : Ctx) (r : Nat) (p : Port) : (c.setPort r p).cnt = c.cnt := rfl
@[simp] theorem Ctx.setPort_pend (c : Ctx) (r : Nat) (p : Port) : (c.setPort r p).pend = c.pend := rfl
@[simp] theorem Ctx.setPort_st (c : Ctx) (r : Nat) (p : Port) : (c.setPort r p).st = c.st := rfl
@[simp] theorem Ctx.setPort_tenant (c : Ctx) (r : Nat) (p : Port) : (c.setPort r p).tenant = c.tenant := rfl
@[simp] theorem Ctx.setPort_gang (c : Ctx) (r : Nat) (p : Port) : (c.setPort r p).gang = c.gang := rfl
@[simp] theorem Ctx.setPort_tbase (c : Ctx) (r : Nat) (p : Port) : (c.setPort r p).tbase = c.tbase := rfl
@[simp] theorem Ctx.setPort_team (c : Ctx) (r : Nat) (p : Port) : (c.setPort r p).team = c.team := rfl
@[simp] theorem Ctx.setPort_interval (c : Ctx) (r : Nat) (p : Port) : (c.setPort r p).interval = c.interval := rfl
@[simp] theorem Ctx.setPort_mset (c : Ctx) (r : Nat) (p : Port) : (c.setPort r p).mset = c.mset := rfl
@[simp] theorem Ctx.setPort_mred (c : Ctx) (r : Nat) (p : Port) : (c.setPort r p).mred = c.mred := rfl
@[simp] theorem Ctx.setPort_mfaults (c : Ctx) (r : Nat) (p : Port) : (c.setPort r p).mfaults = c.mfaults := rfl
@[simp] theorem Ctx.setPort_lost (c : Ctx) (r : Nat) (p : Port) : (c.setPort r p).lost = c.lost := rfl
@[simp] theorem Ctx.setPort_arrived (c : Ctx) (r : Nat) (p : Port) : (c.setPort r p).arrived = c.arrived := rfl
@[simp] theorem Ctx.setPort_barCnt (c : Ctx) (r : Nat) (p : Port) : (c.setPort r p).barCnt = c.barCnt := rfl
@[simp] theorem Ctx.setPort_releaseDue (c : Ctx) (r : Nat) (p : Port) : (c.setPort r p).releaseDue = c.releaseDue := rfl
@[simp] theorem Ctx.setPort_pair (c : Ctx) (r : Nat) (p : Port) : (c.setPort r p).pair = c.pair := rfl
@[simp] theorem Ctx.setPort_wait (c : Ctx) (r : Nat) (p : Port) : (c.setPort r p).wait = c.wait := rfl
@[simp] theorem Ctx.setPort_staleCounted (c : Ctx) (r : Nat) (p : Port) : (c.setPort r p).staleCounted = c.staleCounted := rfl
@[simp] theorem Ctx.setPort_touched (c : Ctx) (r : Nat) (p : Port) : (c.setPort r p).touched = c.touched := rfl
@[simp] theorem Ctx.setPort_hot (c : Ctx) (r : Nat) (p : Port) : (c.setPort r p).hot = c.hot := rfl
@[simp] theorem Ctx.setPort_midway (c : Ctx) (r : Nat) (p : Port) : (c.setPort r p).midway = c.midway := rfl
@[simp] theorem Ctx.setPort_operands (c : Ctx) (r : Nat) (p : Port) : (c.setPort r p).operands = c.operands := rfl
@[simp] theorem Ctx.setPort_draws (c : Ctx) (r : Nat) (p : Port) : (c.setPort r p).draws = c.draws := rfl

/-! ### addCounts -/

@[simp] theorem Ctx.addCounts_pc (c : Ctx) (k : Counts) : (c.addCounts k).pc = c.pc := by simp only [Ctx.addCounts, Ctx.count_pc]
@[simp] theorem Ctx.addCounts_rf (c : Ctx) (k : Counts) : (c.addCounts k).rf = c.rf := by simp only [Ctx.addCounts, Ctx.count_rf]
@[simp] theorem Ctx.addCounts_links (c : Ctx) (k : Counts) : (c.addCounts k).links = c.links := by simp only [Ctx.addCounts, Ctx.count_links]
@[simp] theorem Ctx.addCounts_tbank (c : Ctx) (k : Counts) : (c.addCounts k).tbank = c.tbank := by simp only [Ctx.addCounts, Ctx.count_tbank]
@[simp] theorem Ctx.addCounts_areg (c : Ctx) (k : Counts) : (c.addCounts k).areg = c.areg := by simp only [Ctx.addCounts, Ctx.count_areg]
@[simp] theorem Ctx.addCounts_depth (c : Ctx) (k : Counts) : (c.addCounts k).depth = c.depth := by simp only [Ctx.addCounts, Ctx.count_depth]
@[simp] theorem Ctx.addCounts_res (c : Ctx) (k : Counts) : (c.addCounts k).res = c.res := by simp only [Ctx.addCounts, Ctx.count_res]
@[simp] theorem Ctx.addCounts_cap (c : Ctx) (k : Counts) : (c.addCounts k).cap = c.cap := by simp only [Ctx.addCounts, Ctx.count_cap]
@[simp] theorem Ctx.addCounts_prio (c : Ctx) (k : Counts) : (c.addCounts k).prio = c.prio := by simp only [Ctx.addCounts, Ctx.count_prio]
@[simp] theorem Ctx.addCounts_va (c : Ctx) (k : Counts) : (c.addCounts k).va = c.va := by simp only [Ctx.addCounts, Ctx.count_va]
@[simp] theorem Ctx.addCounts_arv (c : Ctx) (k : Counts) : (c.addCounts k).arv = c.arv := by simp only [Ctx.addCounts, Ctx.count_arv]
@[simp] theorem Ctx.addCounts_trap (c : Ctx) (k : Counts) : (c.addCounts k).trap = c.trap := by simp only [Ctx.addCounts, Ctx.count_trap]
@[simp] theorem Ctx.addCounts_lh (c : Ctx) (k : Counts) : (c.addCounts k).lh = c.lh := by simp only [Ctx.addCounts, Ctx.count_lh]
@[simp] theorem Ctx.addCounts_pairBit (c : Ctx) (k : Counts) : (c.addCounts k).pairBit = c.pairBit := by simp only [Ctx.addCounts, Ctx.count_pairBit]
@[simp] theorem Ctx.addCounts_twin (c : Ctx) (k : Counts) : (c.addCounts k).twin = c.twin := by simp only [Ctx.addCounts, Ctx.count_twin]
@[simp] theorem Ctx.addCounts_awc (c : Ctx) (k : Counts) : (c.addCounts k).awc = c.awc := by simp only [Ctx.addCounts, Ctx.count_awc]
@[simp] theorem Ctx.addCounts_epc (c : Ctx) (k : Counts) : (c.addCounts k).epc = c.epc := by simp only [Ctx.addCounts, Ctx.count_epc]
@[simp] theorem Ctx.addCounts_ecause (c : Ctx) (k : Counts) : (c.addCounts k).ecause = c.ecause := by simp only [Ctx.addCounts, Ctx.count_ecause]
@[simp] theorem Ctx.addCounts_eval (c : Ctx) (k : Counts) : (c.addCounts k).eval = c.eval := by simp only [Ctx.addCounts, Ctx.count_eval]
@[simp] theorem Ctx.addCounts_amax (c : Ctx) (k : Counts) : (c.addCounts k).amax = c.amax := by simp only [Ctx.addCounts, Ctx.count_amax]
@[simp] theorem Ctx.addCounts_vtype (c : Ctx) (k : Counts) : (c.addCounts k).vtype = c.vtype := by simp only [Ctx.addCounts, Ctx.count_vtype]
@[simp] theorem Ctx.addCounts_tgen (c : Ctx) (k : Counts) : (c.addCounts k).tgen = c.tgen := by simp only [Ctx.addCounts, Ctx.count_tgen]
@[simp] theorem Ctx.addCounts_rprog (c : Ctx) (k : Counts) : (c.addCounts k).rprog = c.rprog := by simp only [Ctx.addCounts, Ctx.count_rprog]
@[simp] theorem Ctx.addCounts_lpc (c : Ctx) (k : Counts) : (c.addCounts k).lpc = c.lpc := by simp only [Ctx.addCounts, Ctx.count_lpc]
@[simp] theorem Ctx.addCounts_lcv (c : Ctx) (k : Counts) : (c.addCounts k).lcv = c.lcv := by simp only [Ctx.addCounts, Ctx.count_lcv]
@[simp] theorem Ctx.addCounts_vregs (c : Ctx) (k : Counts) : (c.addCounts k).vregs = c.vregs := by simp only [Ctx.addCounts, Ctx.count_vregs]
@[simp] theorem Ctx.addCounts_masks (c : Ctx) (k : Counts) : (c.addCounts k).masks = c.masks := by simp only [Ctx.addCounts, Ctx.count_masks]
@[simp] theorem Ctx.addCounts_pend (c : Ctx) (k : Counts) : (c.addCounts k).pend = c.pend := by simp only [Ctx.addCounts, Ctx.count_pend]
@[simp] theorem Ctx.addCounts_st (c : Ctx) (k : Counts) : (c.addCounts k).st = c.st := by simp only [Ctx.addCounts, Ctx.count_st]
@[simp] theorem Ctx.addCounts_tenant (c : Ctx) (k : Counts) : (c.addCounts k).tenant = c.tenant := by simp only [Ctx.addCounts, Ctx.count_tenant]
@[simp] theorem Ctx.addCounts_gang (c : Ctx) (k : Counts) : (c.addCounts k).gang = c.gang := by simp only [Ctx.addCounts, Ctx.count_gang]
@[simp] theorem Ctx.addCounts_tbase (c : Ctx) (k : Counts) : (c.addCounts k).tbase = c.tbase := by simp only [Ctx.addCounts, Ctx.count_tbase]
@[simp] theorem Ctx.addCounts_team (c : Ctx) (k : Counts) : (c.addCounts k).team = c.team := by simp only [Ctx.addCounts, Ctx.count_team]
@[simp] theorem Ctx.addCounts_interval (c : Ctx) (k : Counts) : (c.addCounts k).interval = c.interval := by simp only [Ctx.addCounts, Ctx.count_interval]
@[simp] theorem Ctx.addCounts_ports (c : Ctx) (k : Counts) : (c.addCounts k).ports = c.ports := by simp only [Ctx.addCounts, Ctx.count_ports]
@[simp] theorem Ctx.addCounts_mset (c : Ctx) (k : Counts) : (c.addCounts k).mset = c.mset := by simp only [Ctx.addCounts, Ctx.count_mset]
@[simp] theorem Ctx.addCounts_mred (c : Ctx) (k : Counts) : (c.addCounts k).mred = c.mred := by simp only [Ctx.addCounts, Ctx.count_mred]
@[simp] theorem Ctx.addCounts_mfaults (c : Ctx) (k : Counts) : (c.addCounts k).mfaults = c.mfaults := by simp only [Ctx.addCounts, Ctx.count_mfaults]
@[simp] theorem Ctx.addCounts_lost (c : Ctx) (k : Counts) : (c.addCounts k).lost = c.lost := by simp only [Ctx.addCounts, Ctx.count_lost]
@[simp] theorem Ctx.addCounts_arrived (c : Ctx) (k : Counts) : (c.addCounts k).arrived = c.arrived := by simp only [Ctx.addCounts, Ctx.count_arrived]
@[simp] theorem Ctx.addCounts_barCnt (c : Ctx) (k : Counts) : (c.addCounts k).barCnt = c.barCnt := by simp only [Ctx.addCounts, Ctx.count_barCnt]
@[simp] theorem Ctx.addCounts_releaseDue (c : Ctx) (k : Counts) : (c.addCounts k).releaseDue = c.releaseDue := by simp only [Ctx.addCounts, Ctx.count_releaseDue]
@[simp] theorem Ctx.addCounts_pair (c : Ctx) (k : Counts) : (c.addCounts k).pair = c.pair := by simp only [Ctx.addCounts, Ctx.count_pair]
@[simp] theorem Ctx.addCounts_wait (c : Ctx) (k : Counts) : (c.addCounts k).wait = c.wait := by simp only [Ctx.addCounts, Ctx.count_wait]
@[simp] theorem Ctx.addCounts_staleCounted (c : Ctx) (k : Counts) : (c.addCounts k).staleCounted = c.staleCounted := by simp only [Ctx.addCounts, Ctx.count_staleCounted]
@[simp] theorem Ctx.addCounts_touched (c : Ctx) (k : Counts) : (c.addCounts k).touched = c.touched := by simp only [Ctx.addCounts, Ctx.count_touched]
@[simp] theorem Ctx.addCounts_hot (c : Ctx) (k : Counts) : (c.addCounts k).hot = c.hot := by simp only [Ctx.addCounts, Ctx.count_hot]
@[simp] theorem Ctx.addCounts_midway (c : Ctx) (k : Counts) : (c.addCounts k).midway = c.midway := by simp only [Ctx.addCounts, Ctx.count_midway]
@[simp] theorem Ctx.addCounts_operands (c : Ctx) (k : Counts) : (c.addCounts k).operands = c.operands := by simp only [Ctx.addCounts, Ctx.count_operands]
@[simp] theorem Ctx.addCounts_draws (c : Ctx) (k : Counts) : (c.addCounts k).draws = c.draws := by simp only [Ctx.addCounts, Ctx.count_draws]

/-! ### setG -/

@[simp] theorem Ctx.setG_pc (c : Ctx) (i : Nat) (v : Word) : (c.setG i v).pc = c.pc := by unfold Ctx.setG; split <;> (try split) <;> rfl
@[simp] theorem Ctx.setG_links (c : Ctx) (i : Nat) (v : Word) : (c.setG i v).links = c.links := by unfold Ctx.setG; split <;> (try split) <;> rfl
@[simp] theorem Ctx.setG_areg (c : Ctx) (i : Nat) (v : Word) : (c.setG i v).areg = c.areg := by unfold Ctx.setG; split <;> (try split) <;> rfl
@[simp] theorem Ctx.setG_depth (c : Ctx) (i : Nat) (v : Word) : (c.setG i v).depth = c.depth := by unfold Ctx.setG; split <;> (try split) <;> rfl
@[simp] theorem Ctx.setG_res (c : Ctx) (i : Nat) (v : Word) : (c.setG i v).res = c.res := by unfold Ctx.setG; split <;> (try split) <;> rfl
@[simp] theorem Ctx.setG_cap (c : Ctx) (i : Nat) (v : Word) : (c.setG i v).cap = c.cap := by unfold Ctx.setG; split <;> (try split) <;> rfl
@[simp] theorem Ctx.setG_prio (c : Ctx) (i : Nat) (v : Word) : (c.setG i v).prio = c.prio := by unfold Ctx.setG; split <;> (try split) <;> rfl
@[simp] theorem Ctx.setG_va (c : Ctx) (i : Nat) (v : Word) : (c.setG i v).va = c.va := by unfold Ctx.setG; split <;> (try split) <;> rfl
@[simp] theorem Ctx.setG_arv (c : Ctx) (i : Nat) (v : Word) : (c.setG i v).arv = c.arv := by unfold Ctx.setG; split <;> (try split) <;> rfl
@[simp] theorem Ctx.setG_trap (c : Ctx) (i : Nat) (v : Word) : (c.setG i v).trap = c.trap := by unfold Ctx.setG; split <;> (try split) <;> rfl
@[simp] theorem Ctx.setG_lh (c : Ctx) (i : Nat) (v : Word) : (c.setG i v).lh = c.lh := by unfold Ctx.setG; split <;> (try split) <;> rfl
@[simp] theorem Ctx.setG_pairBit (c : Ctx) (i : Nat) (v : Word) : (c.setG i v).pairBit = c.pairBit := by unfold Ctx.setG; split <;> (try split) <;> rfl
@[simp] theorem Ctx.setG_twin (c : Ctx) (i : Nat) (v : Word) : (c.setG i v).twin = c.twin := by unfold Ctx.setG; split <;> (try split) <;> rfl
@[simp] theorem Ctx.setG_awc (c : Ctx) (i : Nat) (v : Word) : (c.setG i v).awc = c.awc := by unfold Ctx.setG; split <;> (try split) <;> rfl
@[simp] theorem Ctx.setG_epc (c : Ctx) (i : Nat) (v : Word) : (c.setG i v).epc = c.epc := by unfold Ctx.setG; split <;> (try split) <;> rfl
@[simp] theorem Ctx.setG_ecause (c : Ctx) (i : Nat) (v : Word) : (c.setG i v).ecause = c.ecause := by unfold Ctx.setG; split <;> (try split) <;> rfl
@[simp] theorem Ctx.setG_eval (c : Ctx) (i : Nat) (v : Word) : (c.setG i v).eval = c.eval := by unfold Ctx.setG; split <;> (try split) <;> rfl
@[simp] theorem Ctx.setG_amax (c : Ctx) (i : Nat) (v : Word) : (c.setG i v).amax = c.amax := by unfold Ctx.setG; split <;> (try split) <;> rfl
@[simp] theorem Ctx.setG_vtype (c : Ctx) (i : Nat) (v : Word) : (c.setG i v).vtype = c.vtype := by unfold Ctx.setG; split <;> (try split) <;> rfl
@[simp] theorem Ctx.setG_tgen (c : Ctx) (i : Nat) (v : Word) : (c.setG i v).tgen = c.tgen := by unfold Ctx.setG; split <;> (try split) <;> rfl
@[simp] theorem Ctx.setG_rprog (c : Ctx) (i : Nat) (v : Word) : (c.setG i v).rprog = c.rprog := by unfold Ctx.setG; split <;> (try split) <;> rfl
@[simp] theorem Ctx.setG_lpc (c : Ctx) (i : Nat) (v : Word) : (c.setG i v).lpc = c.lpc := by unfold Ctx.setG; split <;> (try split) <;> rfl
@[simp] theorem Ctx.setG_lcv (c : Ctx) (i : Nat) (v : Word) : (c.setG i v).lcv = c.lcv := by unfold Ctx.setG; split <;> (try split) <;> rfl
@[simp] theorem Ctx.setG_vregs (c : Ctx) (i : Nat) (v : Word) : (c.setG i v).vregs = c.vregs := by unfold Ctx.setG; split <;> (try split) <;> rfl
@[simp] theorem Ctx.setG_masks (c : Ctx) (i : Nat) (v : Word) : (c.setG i v).masks = c.masks := by unfold Ctx.setG; split <;> (try split) <;> rfl
@[simp] theorem Ctx.setG_cnt (c : Ctx) (i : Nat) (v : Word) : (c.setG i v).cnt = c.cnt := by unfold Ctx.setG; split <;> (try split) <;> rfl
@[simp] theorem Ctx.setG_pend (c : Ctx) (i : Nat) (v : Word) : (c.setG i v).pend = c.pend := by unfold Ctx.setG; split <;> (try split) <;> rfl
@[simp] theorem Ctx.setG_st (c : Ctx) (i : Nat) (v : Word) : (c.setG i v).st = c.st := by unfold Ctx.setG; split <;> (try split) <;> rfl
@[simp] theorem Ctx.setG_tenant (c : Ctx) (i : Nat) (v : Word) : (c.setG i v).tenant = c.tenant := by unfold Ctx.setG; split <;> (try split) <;> rfl
@[simp] theorem Ctx.setG_gang (c : Ctx) (i : Nat) (v : Word) : (c.setG i v).gang = c.gang := by unfold Ctx.setG; split <;> (try split) <;> rfl
@[simp] theorem Ctx.setG_tbase (c : Ctx) (i : Nat) (v : Word) : (c.setG i v).tbase = c.tbase := by unfold Ctx.setG; split <;> (try split) <;> rfl
@[simp] theorem Ctx.setG_team (c : Ctx) (i : Nat) (v : Word) : (c.setG i v).team = c.team := by unfold Ctx.setG; split <;> (try split) <;> rfl
@[simp] theorem Ctx.setG_interval (c : Ctx) (i : Nat) (v : Word) : (c.setG i v).interval = c.interval := by unfold Ctx.setG; split <;> (try split) <;> rfl
@[simp] theorem Ctx.setG_ports (c : Ctx) (i : Nat) (v : Word) : (c.setG i v).ports = c.ports := by unfold Ctx.setG; split <;> (try split) <;> rfl
@[simp] theorem Ctx.setG_mset (c : Ctx) (i : Nat) (v : Word) : (c.setG i v).mset = c.mset := by unfold Ctx.setG; split <;> (try split) <;> rfl
@[simp] theorem Ctx.setG_mred (c : Ctx) (i : Nat) (v : Word) : (c.setG i v).mred = c.mred := by unfold Ctx.setG; split <;> (try split) <;> rfl
@[simp] theorem Ctx.setG_mfaults (c : Ctx) (i : Nat) (v : Word) : (c.setG i v).mfaults = c.mfaults := by unfold Ctx.setG; split <;> (try split) <;> rfl
@[simp] theorem Ctx.setG_lost (c : Ctx) (i : Nat) (v : Word) : (c.setG i v).lost = c.lost := by unfold Ctx.setG; split <;> (try split) <;> rfl
@[simp] theorem Ctx.setG_arrived (c : Ctx) (i : Nat) (v : Word) : (c.setG i v).arrived = c.arrived := by unfold Ctx.setG; split <;> (try split) <;> rfl
@[simp] theorem Ctx.setG_barCnt (c : Ctx) (i : Nat) (v : Word) : (c.setG i v).barCnt = c.barCnt := by unfold Ctx.setG; split <;> (try split) <;> rfl
@[simp] theorem Ctx.setG_releaseDue (c : Ctx) (i : Nat) (v : Word) : (c.setG i v).releaseDue = c.releaseDue := by unfold Ctx.setG; split <;> (try split) <;> rfl
@[simp] theorem Ctx.setG_pair (c : Ctx) (i : Nat) (v : Word) : (c.setG i v).pair = c.pair := by unfold Ctx.setG; split <;> (try split) <;> rfl
@[simp] theorem Ctx.setG_wait (c : Ctx) (i : Nat) (v : Word) : (c.setG i v).wait = c.wait := by unfold Ctx.setG; split <;> (try split) <;> rfl
@[simp] theorem Ctx.setG_staleCounted (c : Ctx) (i : Nat) (v : Word) : (c.setG i v).staleCounted = c.staleCounted := by unfold Ctx.setG; split <;> (try split) <;> rfl
@[simp] theorem Ctx.setG_touched (c : Ctx) (i : Nat) (v : Word) : (c.setG i v).touched = c.touched := by unfold Ctx.setG; split <;> (try split) <;> rfl
@[simp] theorem Ctx.setG_hot (c : Ctx) (i : Nat) (v : Word) : (c.setG i v).hot = c.hot := by unfold Ctx.setG; split <;> (try split) <;> rfl
@[simp] theorem Ctx.setG_midway (c : Ctx) (i : Nat) (v : Word) : (c.setG i v).midway = c.midway := by unfold Ctx.setG; split <;> (try split) <;> rfl
@[simp] theorem Ctx.setG_operands (c : Ctx) (i : Nat) (v : Word) : (c.setG i v).operands = c.operands := by unfold Ctx.setG; split <;> (try split) <;> rfl
@[simp] theorem Ctx.setG_draws (c : Ctx) (i : Nat) (v : Word) : (c.setG i v).draws = c.draws := by unfold Ctx.setG; split <;> (try split) <;> rfl

/-! ### cancel -/

@[simp] theorem Ctx.cancel_pc (c : Ctx) (l : Landing) : (c.cancel l).pc = c.pc := by obtain ⟨q, h⟩ := c.cancel_eq l; rw [h]
@[simp] theorem Ctx.cancel_rf (c : Ctx) (l : Landing) : (c.cancel l).rf = c.rf := by obtain ⟨q, h⟩ := c.cancel_eq l; rw [h]
@[simp] theorem Ctx.cancel_links (c : Ctx) (l : Landing) : (c.cancel l).links = c.links := by obtain ⟨q, h⟩ := c.cancel_eq l; rw [h]
@[simp] theorem Ctx.cancel_tbank (c : Ctx) (l : Landing) : (c.cancel l).tbank = c.tbank := by obtain ⟨q, h⟩ := c.cancel_eq l; rw [h]
@[simp] theorem Ctx.cancel_areg (c : Ctx) (l : Landing) : (c.cancel l).areg = c.areg := by obtain ⟨q, h⟩ := c.cancel_eq l; rw [h]
@[simp] theorem Ctx.cancel_depth (c : Ctx) (l : Landing) : (c.cancel l).depth = c.depth := by obtain ⟨q, h⟩ := c.cancel_eq l; rw [h]
@[simp] theorem Ctx.cancel_res (c : Ctx) (l : Landing) : (c.cancel l).res = c.res := by obtain ⟨q, h⟩ := c.cancel_eq l; rw [h]
@[simp] theorem Ctx.cancel_cap (c : Ctx) (l : Landing) : (c.cancel l).cap = c.cap := by obtain ⟨q, h⟩ := c.cancel_eq l; rw [h]
@[simp] theorem Ctx.cancel_prio (c : Ctx) (l : Landing) : (c.cancel l).prio = c.prio := by obtain ⟨q, h⟩ := c.cancel_eq l; rw [h]
@[simp] theorem Ctx.cancel_va (c : Ctx) (l : Landing) : (c.cancel l).va = c.va := by obtain ⟨q, h⟩ := c.cancel_eq l; rw [h]
@[simp] theorem Ctx.cancel_arv (c : Ctx) (l : Landing) : (c.cancel l).arv = c.arv := by obtain ⟨q, h⟩ := c.cancel_eq l; rw [h]
@[simp] theorem Ctx.cancel_trap (c : Ctx) (l : Landing) : (c.cancel l).trap = c.trap := by obtain ⟨q, h⟩ := c.cancel_eq l; rw [h]
@[simp] theorem Ctx.cancel_lh (c : Ctx) (l : Landing) : (c.cancel l).lh = c.lh := by obtain ⟨q, h⟩ := c.cancel_eq l; rw [h]
@[simp] theorem Ctx.cancel_pairBit (c : Ctx) (l : Landing) : (c.cancel l).pairBit = c.pairBit := by obtain ⟨q, h⟩ := c.cancel_eq l; rw [h]
@[simp] theorem Ctx.cancel_twin (c : Ctx) (l : Landing) : (c.cancel l).twin = c.twin := by obtain ⟨q, h⟩ := c.cancel_eq l; rw [h]
@[simp] theorem Ctx.cancel_awc (c : Ctx) (l : Landing) : (c.cancel l).awc = c.awc := by obtain ⟨q, h⟩ := c.cancel_eq l; rw [h]
@[simp] theorem Ctx.cancel_epc (c : Ctx) (l : Landing) : (c.cancel l).epc = c.epc := by obtain ⟨q, h⟩ := c.cancel_eq l; rw [h]
@[simp] theorem Ctx.cancel_ecause (c : Ctx) (l : Landing) : (c.cancel l).ecause = c.ecause := by obtain ⟨q, h⟩ := c.cancel_eq l; rw [h]
@[simp] theorem Ctx.cancel_eval (c : Ctx) (l : Landing) : (c.cancel l).eval = c.eval := by obtain ⟨q, h⟩ := c.cancel_eq l; rw [h]
@[simp] theorem Ctx.cancel_amax (c : Ctx) (l : Landing) : (c.cancel l).amax = c.amax := by obtain ⟨q, h⟩ := c.cancel_eq l; rw [h]
@[simp] theorem Ctx.cancel_vtype (c : Ctx) (l : Landing) : (c.cancel l).vtype = c.vtype := by obtain ⟨q, h⟩ := c.cancel_eq l; rw [h]
@[simp] theorem Ctx.cancel_tgen (c : Ctx) (l : Landing) : (c.cancel l).tgen = c.tgen := by obtain ⟨q, h⟩ := c.cancel_eq l; rw [h]
@[simp] theorem Ctx.cancel_rprog (c : Ctx) (l : Landing) : (c.cancel l).rprog = c.rprog := by obtain ⟨q, h⟩ := c.cancel_eq l; rw [h]
@[simp] theorem Ctx.cancel_lpc (c : Ctx) (l : Landing) : (c.cancel l).lpc = c.lpc := by obtain ⟨q, h⟩ := c.cancel_eq l; rw [h]
@[simp] theorem Ctx.cancel_lcv (c : Ctx) (l : Landing) : (c.cancel l).lcv = c.lcv := by obtain ⟨q, h⟩ := c.cancel_eq l; rw [h]
@[simp] theorem Ctx.cancel_vregs (c : Ctx) (l : Landing) : (c.cancel l).vregs = c.vregs := by obtain ⟨q, h⟩ := c.cancel_eq l; rw [h]
@[simp] theorem Ctx.cancel_masks (c : Ctx) (l : Landing) : (c.cancel l).masks = c.masks := by obtain ⟨q, h⟩ := c.cancel_eq l; rw [h]
@[simp] theorem Ctx.cancel_cnt (c : Ctx) (l : Landing) : (c.cancel l).cnt = c.cnt := by obtain ⟨q, h⟩ := c.cancel_eq l; rw [h]
@[simp] theorem Ctx.cancel_st (c : Ctx) (l : Landing) : (c.cancel l).st = c.st := by obtain ⟨q, h⟩ := c.cancel_eq l; rw [h]
@[simp] theorem Ctx.cancel_tenant (c : Ctx) (l : Landing) : (c.cancel l).tenant = c.tenant := by obtain ⟨q, h⟩ := c.cancel_eq l; rw [h]
@[simp] theorem Ctx.cancel_gang (c : Ctx) (l : Landing) : (c.cancel l).gang = c.gang := by obtain ⟨q, h⟩ := c.cancel_eq l; rw [h]
@[simp] theorem Ctx.cancel_tbase (c : Ctx) (l : Landing) : (c.cancel l).tbase = c.tbase := by obtain ⟨q, h⟩ := c.cancel_eq l; rw [h]
@[simp] theorem Ctx.cancel_team (c : Ctx) (l : Landing) : (c.cancel l).team = c.team := by obtain ⟨q, h⟩ := c.cancel_eq l; rw [h]
@[simp] theorem Ctx.cancel_interval (c : Ctx) (l : Landing) : (c.cancel l).interval = c.interval := by obtain ⟨q, h⟩ := c.cancel_eq l; rw [h]
@[simp] theorem Ctx.cancel_ports (c : Ctx) (l : Landing) : (c.cancel l).ports = c.ports := by obtain ⟨q, h⟩ := c.cancel_eq l; rw [h]
@[simp] theorem Ctx.cancel_mset (c : Ctx) (l : Landing) : (c.cancel l).mset = c.mset := by obtain ⟨q, h⟩ := c.cancel_eq l; rw [h]
@[simp] theorem Ctx.cancel_mred (c : Ctx) (l : Landing) : (c.cancel l).mred = c.mred := by obtain ⟨q, h⟩ := c.cancel_eq l; rw [h]
@[simp] theorem Ctx.cancel_mfaults (c : Ctx) (l : Landing) : (c.cancel l).mfaults = c.mfaults := by obtain ⟨q, h⟩ := c.cancel_eq l; rw [h]
@[simp] theorem Ctx.cancel_lost (c : Ctx) (l : Landing) : (c.cancel l).lost = c.lost := by obtain ⟨q, h⟩ := c.cancel_eq l; rw [h]
@[simp] theorem Ctx.cancel_arrived (c : Ctx) (l : Landing) : (c.cancel l).arrived = c.arrived := by obtain ⟨q, h⟩ := c.cancel_eq l; rw [h]
@[simp] theorem Ctx.cancel_barCnt (c : Ctx) (l : Landing) : (c.cancel l).barCnt = c.barCnt := by obtain ⟨q, h⟩ := c.cancel_eq l; rw [h]
@[simp] theorem Ctx.cancel_releaseDue (c : Ctx) (l : Landing) : (c.cancel l).releaseDue = c.releaseDue := by obtain ⟨q, h⟩ := c.cancel_eq l; rw [h]
@[simp] theorem Ctx.cancel_pair (c : Ctx) (l : Landing) : (c.cancel l).pair = c.pair := by obtain ⟨q, h⟩ := c.cancel_eq l; rw [h]
@[simp] theorem Ctx.cancel_wait (c : Ctx) (l : Landing) : (c.cancel l).wait = c.wait := by obtain ⟨q, h⟩ := c.cancel_eq l; rw [h]
@[simp] theorem Ctx.cancel_staleCounted (c : Ctx) (l : Landing) : (c.cancel l).staleCounted = c.staleCounted := by obtain ⟨q, h⟩ := c.cancel_eq l; rw [h]
@[simp] theorem Ctx.cancel_touched (c : Ctx) (l : Landing) : (c.cancel l).touched = c.touched := by obtain ⟨q, h⟩ := c.cancel_eq l; rw [h]
@[simp] theorem Ctx.cancel_hot (c : Ctx) (l : Landing) : (c.cancel l).hot = c.hot := by obtain ⟨q, h⟩ := c.cancel_eq l; rw [h]
@[simp] theorem Ctx.cancel_midway (c : Ctx) (l : Landing) : (c.cancel l).midway = c.midway := by obtain ⟨q, h⟩ := c.cancel_eq l; rw [h]
@[simp] theorem Ctx.cancel_operands (c : Ctx) (l : Landing) : (c.cancel l).operands = c.operands := by obtain ⟨q, h⟩ := c.cancel_eq l; rw [h]
@[simp] theorem Ctx.cancel_draws (c : Ctx) (l : Landing) : (c.cancel l).draws = c.draws := by obtain ⟨q, h⟩ := c.cancel_eq l; rw [h]

end Sys2Proof.Machine
end

