-- ==== Sys2Proof/Laws/Frame.lean ====
section
/-! SUPPORT. What the shared operations do, once each: reading and writing the agent's context, sequencing, and the frame
every strand instruction runs in. -/

namespace Sys2Proof.Machine

open Sys2Proof.Safety

/-! ### Sequencing -/

variable {α β : Type}

@[simp] theorem M.get_bind (f : State → M α) (s : State) : (get >>= f) s = f s s := rfl
@[simp] theorem M.change_bind (g : State → State) (f : Unit → M α) (s : State) : (change g >>= f) s = f () (g s) := rfl
@[simp] theorem M.ask_bind (g : State → β) (f : β → M α) (s : State) : (ask g >>= f) s = f (g s) s := rfl
@[simp] theorem M.set_bind (t : State) (f : PUnit → M α) (s : State) : (set t >>= f) s = f ⟨⟩ t := rfl
@[simp] theorem M.pure_apply (a : α) (s : State) : (pure a : M α) s = .ok (a, s) := rfl
@[simp] theorem M.change_apply (g : State → State) (s : State) : change g s = .ok ((), g s) := rfl
@[simp] theorem M.stop_bind (x : Stop) (f : β → M α) (s : State) : (stop x >>= f) s = .error x := rfl
@[simp] theorem M.stop_apply (x : Stop) (s : State) : (stop x : M α) s = .error x := rfl

theorem M.bind_of {m : M β} {f : β → M α} {s u : State} {b : β} (h : m s = .ok (b, u)) : (m >>= f) s = f b u := by
  show (m s >>= fun p => f p.1 p.2) = f b u
  rw [h]; rfl

theorem M.bind_error {m : M β} {f : β → M α} {s : State} {x : Stop} (h : m s = .error x) : (m >>= f) s = .error x := by
  show (m s >>= fun p => f p.1 p.2) = .error x
  rw [h]; rfl

@[simp] theorem require_true (b : Bool) (h : b = true) (code detail : Nat) (val : Word) (wr : Bool) :
    require b code detail val wr = pure () := by simp [require, h]

theorem require_apply {b : Bool} (h : b = true) (code detail : Nat) (val : Word) (wr : Bool) (s : State) :
    require b code detail val wr s = .ok ((), s) := by subst h; rfl

/-! ### Cores and contexts -/

@[simp] theorem State.core_updCore (s : State) (n : Nat) (f : Core → Core) : (s.updCore n f).core n = f (s.core n) := by
  simp [State.core, State.updCore, State.setCore]

theorem State.core_updCore_ne (s : State) {n k : Nat} (h : k ≠ n) (f : Core → Core) : (s.updCore n f).core k = s.core k := by
  simp [State.core, State.updCore, State.setCore, look_put_ne _ _ h]

@[simp] theorem State.updCore_updCore (s : State) (n : Nat) (f g : Core → Core) :
    (s.updCore n f).updCore n g = s.updCore n fun c => g (f c) := by
  simp [State.core, State.updCore, State.setCore]

theorem Core.ctx_setCtx (c : Core) {i : Nat} (h : i ≤ 8) (x : Ctx) : (c.setCtx i x).ctx i = x := by
  unfold Core.ctx Core.setCtx
  split
  · rfl
  · exact vget_vset _ _ (by omega) _

theorem Core.ctx_setCtx_ne (c : Core) {i j : Nat} (h : j ≠ i) (x : Ctx) : (c.setCtx i x).ctx j = c.ctx j := by
  unfold Core.ctx Core.setCtx
  split <;> split <;> first | rfl | (exfalso; omega) | exact vget_vset_ne _ _ h _

@[simp] theorem Core.setCtx_setCtx (c : Core) (i : Nat) (x y : Ctx) : (c.setCtx i x).setCtx i y = c.setCtx i y := by
  unfold Core.setCtx
  split
  · rfl
  · simp [vset]

theorem State.ctx_updCtx (s : State) {n i : Nat} (h : i ≤ 8) (f : Ctx → Ctx) : (s.updCtx n i f).ctx n i = f (s.ctx n i) := by
  simp [State.updCtx, State.setCtx, State.ctx, Core.ctx_setCtx _ h]

theorem State.updCtx_updCtx (s : State) {n i : Nat} (h : i ≤ 8) (f g : Ctx → Ctx) :
    (s.updCtx n i f).updCtx n i g = s.updCtx n i fun c => g (f c) := by
  simp [State.updCtx, State.setCtx, State.ctx, Core.ctx_setCtx _ h]

theorem State.ctx_updCtx_core_ne (s : State) {n i m j : Nat} (h : m ≠ n) (f : Ctx → Ctx) : (s.updCtx n i f).ctx m j = s.ctx m j := by
  simp [State.updCtx, State.setCtx, State.ctx, State.core_updCore_ne _ h]

theorem State.ctx_updCtx_ctx_ne (s : State) {n i j : Nat} (h : j ≠ i) (f : Ctx → Ctx) : (s.updCtx n i f).ctx n j = s.ctx n j := by
  simp [State.updCtx, State.setCtx, State.ctx, Core.ctx_setCtx_ne _ h]

/-! ### The agent -/

theorem State.me_of_cur {s t : State} (h : t.cur = s.cur) : t.me = s.me := by unfold State.me; rw [h]

theorem State.isHart_of_cur {s t : State} (h : t.cur = s.cur) : t.isHart = s.isHart := by unfold State.isHart; rw [h]

@[simp] theorem State.me_updCore (s : State) (n : Nat) (f : Core → Core) : (s.updCore n f).me = s.me := rfl
@[simp] theorem State.me_updCtx (s : State) (n i : Nat) (f : Ctx → Ctx) : (s.updCtx n i f).me = s.me := rfl
@[simp] theorem State.me_updMy (s : State) (f : Ctx → Ctx) : (s.updMy f).me = s.me := rfl
@[simp] theorem State.me_updMyCore (s : State) (f : Core → Core) : (s.updMyCore f).me = s.me := rfl
@[simp] theorem State.me_post (s : State) (e : Event) : (s.post e).me = s.me := rfl
@[simp] theorem State.me_setTeam (s : State) (n : Nat) (t : Team) : (s.setTeam n t).me = s.me := rfl

theorem State.updMy_eq (s : State) (f : Ctx → Ctx) : s.updMy f = s.updCtx s.me.1 s.me.2 f := rfl

theorem State.my_eq (s : State) : s.my = s.ctx s.me.1 s.me.2 := rfl

theorem State.my_updMy (s : State) (h : s.me.2 ≤ 8) (f : Ctx → Ctx) : (s.updMy f).my = f s.my := s.ctx_updCtx h f

theorem State.updMy_updMy (s : State) (h : s.me.2 ≤ 8) (f g : Ctx → Ctx) :
    (s.updMy f).updMy g = s.updMy fun c => g (f c) := s.updCtx_updCtx h f g

theorem State.my_updMyCore (s : State) (f : Core → Core) : (s.updMyCore f).my = (f s.myCore).ctx s.me.2 := by
  show ((s.updCore s.me.1 f).core s.me.1).ctx s.me.2 = _
  rw [State.core_updCore]; rfl

theorem State.myCore_updMyCore (s : State) (f : Core → Core) : (s.updMyCore f).myCore = f s.myCore := by
  show (s.updCore s.me.1 f).core s.me.1 = _
  rw [State.core_updCore]; rfl

/-- The agent's context changed and then, by number, changed again. -/
theorem State.updMy_updCtx (s : State) (h : s.me.2 ≤ 8) (f g : Ctx → Ctx) :
    (s.updMy f).updCtx s.me.1 s.me.2 g = s.updMy fun c => g (f c) := s.updCtx_updCtx h f g

/-! ### A steady agent -/

theorem steady_le {s : State} (h : steady s = true) : s.me.2 ≤ 8 := by
  unfold steady at h
  unfold State.me
  cases hc : s.cur <;> simp_all
  all_goals omega

theorem steady_pend {s : State} (h : steady s = true) : s.my.pend = [] := by
  unfold steady at h
  simp at h
  exact h.1.2

theorem steady_pair {s : State} (h : steady s = true) : s.my.pair = none := by
  unfold steady at h
  simp at h
  exact h.2

theorem ready_steady {i : Instr} {s : State} (h : ready i s = true) : steady s = true := by
  unfold ready at h
  simp at h
  exact h.1

theorem ready_word {i : Instr} {s : State} (h : ready i s = true) : wordError s.isHart i = none := by
  unfold ready at h
  simp at h
  exact h.2

theorem ready_fields {i : Instr} {s : State} (h : ready i s = true) : fieldsOk i = true := by
  have hw := ready_word h
  unfold wordError at hw
  cases hf : fieldsOk i
  · simp [hf] at hw
  · rfl

theorem State.landPending_empty (s : State) {core ctx : Nat} (all : Bool) (h : (s.ctx core ctx).pend = []) :
    s.landPending core ctx all = (s, false) := by
  unfold State.landPending
  rw [h]; rfl

theorem State.comparePair_none (s : State) {core ctx : Nat} (h : (s.ctx core ctx).pair = none) :
    s.comparePair core ctx = (s, true) := by
  unfold State.comparePair
  rw [h]

/-- A strand or hart that is steady runs the meaning m of an instruction as it stands, and the boundary follows. -/
theorem runInstr_ok {i : Instr} {s u : State} {m : M Next} {n : Next} (h : ready i s = true) (hm : m s = .ok (n, u)) :
    runInstr i m s = .next (u.finish s.me.1 s.me.2 (bytesOfInstr i) n) := by
  have hs := ready_steady h
  have hw := ready_word h
  have hl : ¬ 8 < s.me.2 := by have := steady_le hs; omega
  have hp : s.landPending s.me.1 s.me.2 (closesWindow i) = (s, false) := s.landPending_empty _ (steady_pend hs)
  have hc : s.comparePair s.me.1 s.me.2 = (s, true) := s.comparePair_none (steady_pair hs)
  have key : (match s.cur with
      | .generator _ _ | .hardware => false
      | _ => true) = true := by
    unfold steady at hs
    cases hq : s.cur <;> simp_all
  unfold runInstr
  cases hq : s.cur <;> simp only [hq] at key <;> try contradiction
  all_goals
    simp only [if_neg hl, hw, hp, hc, ite_self, Bool.not_true, Bool.false_eq_true, if_false, hm]

/-- The same where the meaning stops. -/
theorem runInstr_stop {i : Instr} {s : State} {m : M Next} {x : Stop} (h : ready i s = true) (hm : m s = .error x) :
    runInstr i m s = .next (s.afterStop s.me.1 s.me.2 i x) := by
  have hs := ready_steady h
  have hw := ready_word h
  have hl : ¬ 8 < s.me.2 := by have := steady_le hs; omega
  have hp : s.landPending s.me.1 s.me.2 (closesWindow i) = (s, false) := s.landPending_empty _ (steady_pend hs)
  have hc : s.comparePair s.me.1 s.me.2 = (s, true) := s.comparePair_none (steady_pair hs)
  have key : (match s.cur with
      | .generator _ _ | .hardware => false
      | _ => true) = true := by
    unfold steady at hs
    cases hq : s.cur <;> simp_all
  unfold runInstr
  cases hq : s.cur <;> simp only [hq] at key <;> try contradiction
  all_goals
    simp only [if_neg hl, hw, hp, hc, ite_self, Bool.not_true, Bool.false_eq_true, if_false, hm]

/-! ### Stops -/

theorem steady_hart {s : State} (h : steady s = true) : s.isHart = decide (s.me.2 = 8) := by
  unfold steady at h
  unfold State.isHart State.me
  cases hc : s.cur <;> simp_all
  all_goals omega

/-- What a trap of an instruction comes to: the trap at its own address, with the word as EVAL of an illegal one. -/
theorem State.afterStop_trap {s : State} (i : Instr) {t : Trap} (h : s.isHart = decide (s.me.2 = 8)) (ht : t.code ≠ 0x15) :
    s.afterStop s.me.1 s.me.2 i (.trap t []) = s.trapHere (if t.code = cIllegal ∨ t.code = cIllegalReg then { t with val := wordOfInstr i } else t) := by
  unfold State.afterStop State.trapHere
  rw [h]
  have : t.code ≠ cSoft := ht
  by_cases h8 : s.me.2 = 8
  · simp [h8]
  · simp [h8, this]
    rfl

/-- An instruction that raises a trap takes it at its own address. -/
theorem runInstr_trap {i : Instr} {s : State} {m : M Next} {t : Trap} (h : ready i s = true) (hm : m s = .error (.trap t []))
    (h1 : t.code ≠ cIllegal) (h2 : t.code ≠ cIllegalReg) (h3 : t.code ≠ 0x15) : runInstr i m s = .next (s.trapHere t) := by
  rw [runInstr_stop h hm, State.afterStop_trap i (steady_hart (ready_steady h)) h3, if_neg (by simp [h1, h2])]

/-- An illegal instruction reports its word. -/
theorem runInstr_illegal {i : Instr} {s : State} {m : M Next} {detail : Nat} {wr : Bool} {v : Word} (h : ready i s = true)
    (hm : m s = .error (.trap { code := cIllegal, detail, wr, val := v } [])) :
    runInstr i m s = .next (s.trapHere { code := cIllegal, detail, wr, val := wordOfInstr i }) := by
  rw [runInstr_stop h hm, State.afterStop_trap i (steady_hart (ready_steady h)) (show (1 : Nat) ≠ 21 by decide)]
  simp

/-- An instruction that stalls has changed nothing. -/
theorem runInstr_stall {i : Instr} {s : State} {m : M Next} (h : ready i s = true) (hm : m s = .error .stall) :
    runInstr i m s = .next (s.updCtx s.me.1 s.me.2 fun c => { c with st := .stalled }) := by
  rw [runInstr_stop h hm]; rfl

theorem require_false {b : Bool} (h : b = false) (code detail : Nat) (val : Word) (wr : Bool) (s : State) :
    require b code detail val wr s = .error (.trap { code, detail, wr, val } []) := by subst h; rfl

end Sys2Proof.Machine
end

