-- ==== Sys2Proof/Laws/Operands.lean ====
section
/-! SUPPORT. What reading and writing the operand fields does, once for each form. -/

namespace Sys2Proof.Machine

open Sys2Proof.Safety

/-! ### Scalar sources -/

theorem ports_ok {s : State} : ∀ {fs : List (BitVec 5)}, fs.all (portOk s) = true → ports fs s = .ok ((), s)
  | [], _ => rfl
  | f :: t, h => by
    simp only [List.all_cons, Bool.and_eq_true] at h
    have ih := ports_ok h.2
    unfold ports
    have h1 := h.1
    unfold portOk at h1
    cases hd : portDir f with
    | none => exact ih
    | some dir =>
      rw [hd] at h1
      dsimp only at h1
      cases hn : neighbour s.me.1 dir with
      | none => rw [hn] at h1; cases h1
      | some n =>
        rw [hn] at h1
        simp only [M.get_bind, hn, require_true _ h1]
        exact ih

theorem peek_ok {s : State} {f : BitVec 5} {x : Word} (h0 : s.my.operands = []) (h : value s f = some x) :
    peek f s = .ok (x, s) := by
  unfold peek
  unfold value at h
  simp only [M.get_bind]
  split at h
  · rename_i hf; rw [if_pos hf]; cases h; rfl
  · rename_i hf
    rw [if_neg hf]
    cases hd : portDir f with
    | none => rw [hd] at h; cases h; rfl
    | some dir =>
      rw [hd] at h
      dsimp only at h ⊢
      cases hn : neighbour s.me.1 dir with
      | none => rw [hn] at h; cases h
      | some n =>
        rw [hn] at h
        dsimp only at h ⊢
        rw [h0]
        simp only [find]
        split at h
        · cases h
        · rename_i hdead
          rw [if_neg hdead, h]
          rfl

theorem takePorts_ok (s : State) (fs : List (BitVec 5)) : takePorts fs s = .ok ((), taken s fs) := by
  unfold takePorts taken
  cases h : (fs.filterMap portDir).eraseDups.isEmpty
  · rfl
  · rw [List.isEmpty_iff.1 h]; rfl

theorem src_ok {s : State} {a : BitVec 5} {x : Word} (h0 : s.my.operands = []) (ha : value s a = some x) :
    src a s = .ok (x, taken s [a]) := by
  unfold src
  rw [M.bind_of (peek_ok h0 ha), M.bind_of (takePorts_ok s [a])]
  rfl

theorem src2_ok {s : State} {a b : BitVec 5} {x y : Word} (h0 : s.my.operands = []) (ha : value s a = some x) (hb : value s b = some y) :
    src2 a b s = .ok ((x, y), taken s [a, b]) := by
  unfold src2
  rw [M.bind_of (peek_ok h0 ha), M.bind_of (peek_ok h0 hb), M.bind_of (takePorts_ok s [a, b])]
  rfl

/-! ### Words taken -/

theorem State.takeWord_me (s : State) (dir : Nat) : (s.takeWord dir).me = s.me := by
  unfold State.takeWord; split <;> rfl

theorem Core.drew_ctx (c : Core) (k i n : Nat) : (c.drew k i).ctx n = c.ctx n := by
  unfold Core.drew; split <;> rfl

theorem State.takeWord_my (s : State) (h : s.me.2 ≤ 8) (dir : Nat) :
    ∃ o n, (s.takeWord dir).my = { s.my with operands := o, draws := n } := by
  unfold State.takeWord
  split
  · exact ⟨s.my.operands, s.my.draws, rfl⟩
  · have e : (s.updMyCore fun c => { c.drew dir 0 with fifo := vset c.fifo dir ((vget [] s.myCore.fifo dir).drop 1) }).my = s.my := by
      rw [State.my_updMyCore]; exact s.myCore.drew_ctx dir 0 s.me.2
    exact ⟨_, _, (State.my_updMy _ (by exact h) _).trans (by rw [e])⟩

theorem taken_me (s : State) (fs : List (BitVec 5)) : (taken s fs).me = s.me := by
  unfold taken
  generalize (fs.filterMap portDir).eraseDups = l
  induction l generalizing s with
  | nil => rfl
  | cons d t ih => rw [List.foldl_cons, ih, State.takeWord_me]

theorem taken_my (s : State) (h : s.me.2 ≤ 8) (fs : List (BitVec 5)) : ∃ o n, (taken s fs).my = { s.my with operands := o, draws := n } := by
  unfold taken
  generalize (fs.filterMap portDir).eraseDups = l
  induction l generalizing s with
  | nil => exact ⟨_, _, rfl⟩
  | cons d t ih =>
    obtain ⟨o, n, ho⟩ := s.takeWord_my h d
    obtain ⟨p, m, hp⟩ := ih (s.takeWord d) (by rw [State.takeWord_me]; exact h)
    exact ⟨p, m, by rw [List.foldl_cons, hp, ho]⟩

/-! ### Scalar destinations -/

theorem State.foldPair_none {s : State} (h : s.my.pair = none) (bs : List Byte) : s.foldPair bs = s := by
  unfold State.foldPair; rw [h]

theorem Ctx.cancel_empty {c : Ctx} (h : c.pend = []) (l : Landing) : c.cancel l = c := by
  unfold Ctx.cancel; rw [h]; rfl

theorem State.updMy_congr (s : State) {f g : Ctx → Ctx} (h : f s.my = g s.my) : s.updMy f = s.updMy g := by
  unfold State.updMy; rw [h]

theorem State.sendWord_frame {s u : State} {core dir : Nat} {v : Word} (h : s.sendWord core dir v = some u) :
    u.me = s.me ∧ u.cores = s.cores := by
  unfold State.sendWord at h
  split at h
  · cases h
  · dsimp only at h; split at h <;> cases h; exact ⟨rfl, rfl⟩

theorem State.my_of_cores {s t : State} (hm : t.me = s.me) (hc : t.cores = s.cores) : t.my = s.my := by
  simp only [State.my_eq, State.ctx, State.core, hm, hc]

theorem dst_ok {s u : State} {d : BitVec 5} {v : Word} (hk : s.me.2 ≤ 8) (hp : s.my.pend = []) (hr : s.my.pair = none)
    (h : written s d v = some u) : dst d v s = .ok ((), u) := by
  unfold written at h
  unfold dst landingOf
  split at h
  · rename_i h1
    rw [if_pos h1]
    cases h
    have e : (s.updMy fun c => c.cancel (.gpr d.toNat v)).land s.me.1 s.me.2 (.gpr d.toNat v) = some (s.updMy fun c => c.setG d.toNat v) := by
      unfold State.land
      dsimp only
      rw [State.updMy_updCtx _ hk]
      exact congrArg some (s.updMy_congr (by rw [Ctx.cancel_empty hp]))
    simp only [State.me_updMy, e]
    rw [State.foldPair_none (by rw [State.my_updMy _ hk]; simpa using hr)]
  · rename_i h1
    rw [if_neg h1]
    split at h
    · rename_i h2
      rw [if_pos h2]
      cases h
      have e : (s.updMy fun c => c.cancel (.areg (d.toNat - 16) v)).land s.me.1 s.me.2 (.areg (d.toNat - 16) v)
          = some (s.updMy fun c => { c with areg := vset c.areg (d.toNat - 16) v }) := by
        unfold State.land
        dsimp only
        rw [State.updMy_updCtx _ hk]
        exact congrArg some (s.updMy_congr (by rw [Ctx.cancel_empty hp]))
      simp only [State.me_updMy, e]
      rw [State.foldPair_none (by rw [State.my_updMy _ hk]; exact hr)]
    · rename_i h2
      rw [if_neg h2]
      cases hd : portDir d with
      | none => rw [hd] at h; cases h; rfl
      | some dir =>
        rw [hd] at h
        dsimp only at h
        have e0 : (s.updMy fun c => c.cancel (.send dir v)) = s.updMy fun c => c := s.updMy_congr (Ctx.cancel_empty hp _)
        have e : (s.updMy fun c => c.cancel (.send dir v)).land s.me.1 s.me.2 (.send dir v) = some u := by rw [e0]; exact h
        simp only [Option.map_some, State.me_updMy, e]
        obtain ⟨h3, h4⟩ := State.sendWord_frame h
        rw [State.foldPair_none (by rw [State.my_of_cores h3 h4, State.my_updMy _ hk]; exact hr)]

end Sys2Proof.Machine
end

