-- ==== Sys2Proof/Laws/Scalar.lean ====
section
/-! SUPPORT. What the shared shapes of scalar instructions do: reading, waiting, faulting and writing. -/

namespace Sys2Proof.Machine

open Sys2Proof.Safety

/-! ### Destinations after the sources have been taken -/

theorem taken_nil (s : State) : taken s [] = s := rfl

theorem taken_noPort {s : State} {fs : List (BitVec 5)} (h : ∀ f ∈ fs, portDir f = none) : taken s fs = s := by
  have : fs.filterMap portDir = [] := by
    rw [List.filterMap_eq_nil_iff]; exact h
  unfold taken; rw [this]; rfl

theorem dst_taken {s u : State} {fs : List (BitVec 5)} {d : BitVec 5} {v : Word} (h : steady s = true)
    (hw : written (taken s fs) d v = some u) : dst d v (taken s fs) = .ok ((), u) := by
  obtain ⟨o, n, ho⟩ := taken_my s (steady_le h) fs
  refine dst_ok (by rw [taken_me]; exact steady_le h) ?_ ?_ hw
  · rw [ho]; exact steady_pend h
  · rw [ho]; exact steady_pair h

theorem dst_steady {s u : State} {d : BitVec 5} {v : Word} (h : steady s = true) (hw : written s d v = some u) :
    dst d v s = .ok ((), u) := dst_ok (steady_le h) (steady_pend h) (steady_pair h) hw

/-- A result that finds no room makes the instruction wait. -/
theorem dst_stall {s : State} {d : BitVec 5} {v : Word} (hp : s.my.pend = []) (h : written s d v = none) :
    dst d v s = .error .stall := by
  unfold written at h
  unfold dst landingOf
  split at h
  · cases h
  · rename_i h1
    rw [if_neg h1]
    split at h
    · cases h
    · rename_i h2
      rw [if_neg h2]
      cases hd : portDir d with
      | none => rw [hd] at h; cases h
      | some dir =>
        rw [hd] at h
        dsimp only at h
        have e0 : (s.updMy fun c => c.cancel (.send dir v)) = s.updMy fun c => c := s.updMy_congr (Ctx.cancel_empty hp _)
        have e : (s.updMy fun c => c.cancel (.send dir v)).land s.me.1 s.me.2 (.send dir v) = none := by rw [e0]; exact h
        simp only [Option.map_some, State.me_updMy, e]

/-- A source that has nothing to give makes the instruction wait. -/
theorem peek_stall {s : State} {f : BitVec 5} (h0 : s.my.operands = []) (hp : portOk s f = true)
    (hd : ∀ dir n, portDir f = some dir → neighbour s.me.1 dir = some n → (s.core n).dead = false) (h : value s f = none) :
    peek f s = .error .stall := by
  unfold peek
  unfold value at h
  unfold portOk at hp
  simp only [M.get_bind]
  split at h
  · cases h
  · rename_i hf
    rw [if_neg hf]
    cases hdir : portDir f with
    | none => rw [hdir] at h; cases h
    | some dir =>
      rw [hdir] at h hp
      dsimp only at h hp ⊢
      cases hn : neighbour s.me.1 dir with
      | none => rw [hn] at hp; cases hp
      | some n =>
        rw [hn] at h
        dsimp only at h ⊢
        have hdead := hd dir n hdir hn
        rw [if_neg (by simp [hdead])] at h
        rw [h0]
        simp only [find]
        rw [if_neg (by simp [hdead]), h]
        rfl

/-- A port off the mesh, or to a core of another tenant (R138). -/
theorem ports_fault {s : State} : ∀ {pre post : List (BitVec 5)} {f : BitVec 5}, pre.all (portOk s) = true → portOk s f = false →
    ports (pre ++ f :: post) s = .error (.trap { code := cPerm, detail := f.toNat } [])
  | [], post, f, _, h => by
    unfold ports
    unfold portOk at h
    cases hd : portDir f with
    | none => rw [hd] at h; cases h
    | some dir =>
      rw [hd] at h
      dsimp only at h
      simp only [List.nil_append, hd]
      cases hn : neighbour s.me.1 dir with
      | none => simp only [M.get_bind, hn]; exact M.bind_error rfl
      | some n =>
        rw [hn] at h
        dsimp only at h
        simp only [M.get_bind, hn]
        exact M.bind_error (require_false h _ _ _ _ s)
  | g :: t, post, f, hp, h => by
    simp only [List.all_cons, Bool.and_eq_true] at hp
    have ih := ports_fault (post := post) hp.2 h
    have h1 := hp.1
    unfold portOk at h1
    simp only [List.cons_append]
    unfold ports
    cases hd : portDir g with
    | none => exact ih
    | some dir =>
      rw [hd] at h1
      dsimp only at h1
      cases hn : neighbour s.me.1 dir with
      | none => rw [hn] at h1; cases h1
      | some n =>
        rw [hn] at h1
        simp only [M.get_bind, hn, require_true _ h1]
        exact ih

theorem src_stall {s : State} {a : BitVec 5} (h : peek a s = .error .stall) : src a s = .error .stall := by
  unfold src; exact M.bind_error h

theorem src2_stall {s : State} {a b : BitVec 5} (h : peek a s = .error .stall ∨ (∃ x, peek a s = .ok (x, s)) ∧ peek b s = .error .stall) :
    src2 a b s = .error .stall := by
  unfold src2
  rcases h with h | ⟨⟨x, hx⟩, h⟩
  · exact M.bind_error h
  · rw [M.bind_of hx]; exact M.bind_error h

/-! ### The shapes -/

theorem regReg_ok {s u : State} {b a d : BitVec 5} {f : Word → Word → Word} {x y : Word} (h : steady s = true)
    (h0 : s.my.operands = []) (hp : [a, b, d].all (portOk s) = true) (ha : value s a = some x) (hb : value s b = some y)
    (hw : written (taken s [a, b]) d (f x y) = some u) : regReg b a d f s = .ok (.seq, u) := by
  unfold regReg
  rw [M.bind_of (ports_ok hp), M.bind_of (src2_ok h0 ha hb)]
  dsimp only
  rw [M.bind_of (dst_taken h hw)]
  rfl

theorem regRegLa_ok {s u : State} {b a d : BitVec 5} {f : Word → Word → Word} {x y : Word} (h : steady s = true)
    (h0 : s.my.operands = []) (hp : [a, b, d].all (portOk s) = true) (ha : value s a = some x) (hb : value s b = some y)
    (hw : written (taken s [a, b]) d (f x y) = some u) : regRegLa 0#4 b a d f s = .ok (.seq, u) := by
  unfold regRegLa dstLa
  rw [M.bind_of (ports_ok hp), M.bind_of (src2_ok h0 ha hb)]
  dsimp only
  rw [if_pos rfl, M.bind_of (dst_taken h hw)]
  rfl

theorem regOne_ok {s u : State} {a d : BitVec 5} {f : Word → Word} {x : Word} (h : steady s = true)
    (h0 : s.my.operands = []) (hp : [a, d].all (portOk s) = true) (ha : value s a = some x)
    (hw : written (taken s [a]) d (f x) = some u) : regOne a d f s = .ok (.seq, u) := by
  unfold regOne
  rw [M.bind_of (ports_ok hp), M.bind_of (src_ok h0 ha)]
  rw [M.bind_of (dst_taken h hw)]
  rfl

theorem peek_reg {s : State} {f : BitVec 5} (h : f.toNat < 24) : peek f s = .ok (s.my.reg f.toNat, s) := by
  unfold peek; simp only [M.get_bind, if_pos h]; rfl

theorem value_reg {s : State} {f : BitVec 5} (h : f.toNat < 24) : value s f = some (s.my.reg f.toNat) := by
  unfold value; rw [if_pos h]

theorem portDir_reg {f : BitVec 5} (h : f.toNat < 24) : portDir f = none := by unfold portDir; rw [if_neg (by omega)]

theorem portDir_none {d : BitVec 5} (h : scalarDestNoPort d = true) : portDir d = none := by
  unfold scalarDestNoPort at h
  unfold portDir
  rw [if_neg]
  simp at h
  omega

theorem base_apply (a : BitVec 5) (s : State) : base a s = .ok (vget 0 s.my.areg (a.toNat - 16), s) := rfl

end Sys2Proof.Machine
end

