-- ==== Sys2Proof/Laws/Control.lean ====
section
/-! SUPPORT. What the shared operations of calls, handlers and waits do. -/

namespace Sys2Proof.Machine

open Sys2Proof.Safety

/-! ### Leaf code (R74, R133) -/

theorem leafOnly_ok {s : State} (h : leaf s.my = true) : leafOnly s = .ok ((), s) := by
  unfold leaf at h
  simp at h
  unfold leafOnly
  simp [h.1, h.2]

theorem leafOnly_trap {s : State} (h : s.my.trap = true) :
    leafOnly s = .error (.trap { code := cIllegal, detail := 0x14 } []) := by
  unfold leafOnly
  simp only [M.get_bind]
  exact M.bind_error (require_false (by simp [h]) _ _ _ _ s)

theorem leafOnly_light {s : State} (h0 : s.my.trap = false) (h : s.my.lh = true) :
    leafOnly s = .error (.trap { code := cIllegal, detail := 0x12 } []) := by
  unfold leafOnly
  simp only [M.get_bind]
  rw [M.bind_of (require_apply (by simp [h0]) _ _ _ _ s)]
  exact require_false (by simp [h]) _ _ _ _ s

/-! ### Calls (R64) -/

theorem callTo_ok {s : State} {t link : Word} (h1 : s.my.depth ≠ 0xFFFF) (h2 : s.my.res < s.my.cap) :
    callTo t link s = .ok (.jump t, s.updMy (called link)) := by
  unfold callTo
  simp only [M.get_bind]
  rw [M.bind_of (require_apply (by simpa using h1) _ _ _ _ s), M.bind_of (require_apply (by simpa using h2) _ _ _ _ s)]
  rfl

theorem callTo_spill {s : State} {t link : Word} (h1 : s.my.depth ≠ 0xFFFF) (h2 : ¬ s.my.res < s.my.cap) :
    callTo t link s = .error (.trap { code := cSpill, val := s.my.toRegs.victimLink } []) := by
  unfold callTo
  simp only [M.get_bind]
  rw [M.bind_of (require_apply (by simpa using h1) _ _ _ _ s)]
  exact M.bind_error (require_false (by simpa using h2) _ _ _ _ s)

theorem callTo_deep {s : State} {t link : Word} (h1 : s.my.depth = 0xFFFF) :
    callTo t link s = .error (.trap { code := cDepth } []) := by
  unfold callTo
  simp only [M.get_bind]
  exact M.bind_error (require_false (by simp [h1]) _ _ _ _ s)

/-! ### Releases and acquires (R84, R408, R409) -/

theorem writesDone_spec {s : State} (h : writesDone s = true) :
    s.outstanding s.who = false ∧ s.scOps.any (fun o => o.core == s.me.1 && o.ctx == s.me.2) = false := by
  unfold writesDone at h
  simp only [Bool.and_eq_true, Bool.not_eq_true'] at h
  exact ⟨h.2, h.1⟩

theorem settled_writes {s : State} (h : settled s = true) : writesDone s = true := by
  unfold settled at h
  exact (Bool.and_eq_true_iff.1 h).1

/-- With no bytes of other packages' memory in its L1 there is nothing to send home or to remove. -/
theorem settled_own {s : State} (h : settled s = true) : s.cleanRemote s.me.1 = s ∧ s.dropClean s.me.1 = s := by
  unfold settled at h
  have hl := (Bool.and_eq_true_iff.1 h).2
  rw [List.all_eq_true] at hl
  have no : ∀ q : L1Entry → Bool, (s.core s.me.1).l1.filter (fun e => isPeer e.key && q e) = [] := fun q => by
    rw [List.filter_eq_nil_iff]
    intro e he
    have := hl e he
    simp_all
  unfold State.cleanRemote State.dropClean
  rw [no, no]
  exact ⟨rfl, rfl⟩

/-- What sending packets and write-backs leave alone: memory, announced operations, contexts, whose step it is. -/
def SameButFabric (s t : State) : Prop := t.cur = s.cur ∧ t.scOps = s.scOps ∧ t.mem = s.mem ∧ ∀ n k, t.ctx n k = s.ctx n k

theorem SameButFabric.refl (s : State) : SameButFabric s s := ⟨rfl, rfl, rfl, fun _ _ => rfl⟩

theorem SameButFabric.trans {s t u : State} (h : SameButFabric s t) (k : SameButFabric t u) : SameButFabric s u :=
  ⟨k.1.trans h.1, k.2.1.trans h.2.1, k.2.2.1.trans h.2.2.1, fun n i => (k.2.2.2 n i).trans (h.2.2.2 n i)⟩

theorem SameButFabric.foldl {α : Type} {f : State → α → State} (hf : ∀ s x, SameButFabric s (f s x)) :
    ∀ (l : List α) (s : State), SameButFabric s (l.foldl f s)
  | [], s => .refl s
  | x :: t, s => (hf s x).trans (SameButFabric.foldl hf t (f s x))

/-- A change of a core that leaves its contexts. -/
theorem SameButFabric.updCore (s : State) (n : Nat) {f : Core → Core} (h : ∀ k, (f (s.core n)).ctx k = (s.core n).ctx k) :
    SameButFabric s (s.updCore n f) := by
  refine ⟨rfl, rfl, rfl, fun m k => ?_⟩
  unfold State.ctx
  by_cases hm : m = n
  · subst hm; rw [State.core_updCore]; exact h k
  · rw [State.core_updCore_ne _ hm]

theorem State.transmit_same (s : State) (peer head : Nat) (bs : List Byte) : SameButFabric s (s.transmit peer head bs) := by
  unfold State.transmit State.transmitFrom State.carry
  split <;> exact ⟨rfl, rfl, rfl, fun _ _ => rfl⟩

theorem State.send_same (s : State) (core agent key : Nat) (va : Word) (bytes : List Byte) (len : Nat) (kind : PacketKind) :
    SameButFabric s (s.send core agent key va bytes len kind) := by
  unfold State.send
  dsimp only
  have h : SameButFabric s { s with fabric := { s.fabric with
      packets := s.fabric.packets ++ [(⟨s.fabric.nextPacket, core, agent, key, va, bytes, len, kind, false⟩ : Packet)]
      nextPacket := s.fabric.nextPacket + 1 } } := ⟨rfl, rfl, rfl, fun _ _ => rfl⟩
  split
  · exact h
  · exact h.trans (State.transmit_same ..)
  · exact h.trans (State.transmit_same ..)

theorem State.l2Write_same (s : State) (a n : Nat) : SameButFabric s (s.l2Write a n) := by
  unfold State.l2Write
  split
  · exact .refl s
  · exact ⟨rfl, rfl, rfl, fun _ _ => rfl⟩

theorem State.poisonRange_same (s : State) (a n : Nat) : SameButFabric s (s.poisonRange a n) := by
  unfold State.poisonRange
  refine SameButFabric.trans (t := if isPeer a || isStore a then s else _) ?_ ⟨rfl, rfl, rfl, fun _ _ => rfl⟩
  split
  · exact .refl s
  · refine SameButFabric.foldl (fun s r => ?_) _ s
    split
    · exact ⟨rfl, rfl, rfl, fun _ _ => rfl⟩
    · exact .refl s

theorem State.sendDirty_same (core : Nat) (es : List L1Entry) (s : State) : SameButFabric s (s.sendDirty core es) := by
  unfold State.sendDirty
  refine SameButFabric.foldl (fun s e => ?_) es s
  split
  · exact .refl s
  · dsimp only
    have hw : SameButFabric s (if isPeer e.key = true
        then (runsOf (fun k => !((s.core core).badDirty e.key e.len).contains k) e.key e.len).foldl
          (fun s r => s.send core 8 r.1 0 (memRead (s.core core).remote r.1 r.2) r.2 .store) s
        else s.l2Write e.key e.len) := by
      split
      · exact SameButFabric.foldl (fun s r => s.send_same ..) _ s
      · exact s.l2Write_same ..
    split
    · exact hw
    · exact (hw.trans (SameButFabric.updCore _ _ fun _ => rfl)).trans (SameButFabric.foldl (fun s k => s.poisonRange_same k 1) _ _)

/-- Write-backs leave memory, contexts and announced operations alone. -/
theorem State.cleanRemote_same (s : State) (core : Nat) :
    (s.cleanRemote core).cur = s.cur ∧ (s.cleanRemote core).scOps = s.scOps ∧ (s.cleanRemote core).mem = s.mem ∧
      ∀ n k, (s.cleanRemote core).ctx n k = s.ctx n k := by
  unfold State.cleanRemote
  dsimp only
  split
  · exact SameButFabric.refl s
  · exact (State.sendDirty_same core _ s).trans (SameButFabric.updCore _ _ fun _ => rfl)

/-- A release within the core. -/
theorem release_near {s : State} {sc : Nat} (h : sc < 2) (hu : sc = 0 ∨ writesDone s = true) : release sc s = .ok ((), ended s) := by
  have hn : (decide (sc ≥ 1) && s.outstanding s.who) = false ∧
      (decide (sc ≥ 1) && s.scOps.any (fun o => o.core == s.me.1 && o.ctx == s.me.2)) = false := by
    rcases hu with rfl | hu
    · exact ⟨rfl, rfl⟩
    · simp only [writesDone_spec hu, Bool.and_false, and_self]
  unfold release
  simp only [M.get_bind]
  rw [if_neg (by omega), if_neg (by simpa using hn.1)]
  show (if (decide (sc ≥ 1) && s.scOps.any (fun o => o.core == s.me.1 && o.ctx == s.me.2)) = true then _ else _ : M Unit) s = _
  rw [if_neg (by simpa using hn.2)]
  rfl

/-- A release beyond the core. -/
theorem release_far {s : State} {sc : Nat} (h : 2 ≤ sc) (hl : sc = 5 → s.my.lost = none) (hs : writesDone (s.cleanRemote s.me.1) = true) :
    release sc s = .ok ((), released s) := by
  obtain ⟨h1, h2⟩ := writesDone_spec hs
  obtain ⟨c1, c2, _, _⟩ := s.cleanRemote_same s.me.1
  have hm : (s.cleanRemote s.me.1).me = s.me := State.me_of_cur c1
  have ho : (s.cleanRemote s.me.1).outstanding s.who = false := by
    rw [← h1]
    unfold State.outstanding State.who
    rw [hm]
  rw [c2, hm] at h2
  have hn : (if sc = 5 then s.my.lost else none) = none := by split <;> first | exact hl ‹_› | rfl
  unfold release
  simp only [M.get_bind]
  rw [if_pos h, hn]
  dsimp only
  rw [if_neg (by rw [ho]; exact Bool.false_ne_true), M.set_bind, if_neg (by rw [h2]; simp)]
  rfl

theorem release_drained {s : State} (h : drained s = true) : release 5 s = .ok ((), released s) := by
  unfold drained at h
  simp only [Bool.and_eq_true, Option.isNone_iff_eq_none] at h
  exact release_far (by decide) (fun _ => h.1) h.2

theorem release_ended {s : State} {sc : Nat} (h : sc ≠ 5) (hu : sc = 0 ∨ settled s = true) : release sc s = .ok ((), ended s) := by
  by_cases h2 : sc < 2
  · exact release_near h2 (hu.imp_right settled_writes)
  · have hs : settled s = true := hu.resolve_left (by omega)
    have ho := (settled_own hs).1
    have hf := release_far (s := s) (by omega) (fun e => absurd e h) (by rw [ho]; exact settled_writes hs)
    rw [hf]
    unfold released
    rw [ho]

theorem acquire_near {s : State} {sc : Nat} (h : sc < 2) : acquire sc s = .ok ((), ended s) := by
  unfold acquire
  rw [if_neg (by simpa using h)]
  rfl

theorem acquire_far {s : State} {sc : Nat} (h : 2 ≤ sc) : acquire sc s = .ok ((), acquired s) := by
  unfold acquire
  rw [if_pos (by simpa using h)]
  rfl

theorem acquire_ended {s : State} {sc : Nat} (hu : sc < 2 ∨ settled s = true) : acquire sc s = .ok ((), ended s) := by
  by_cases h2 : sc < 2
  · exact acquire_near h2
  · rw [acquire_far (by omega)]
    unfold acquired
    rw [(settled_own (hu.resolve_left h2)).2]

theorem released_steady {s : State} (h : steady s = true) : steady (released s) = true := by
  obtain ⟨a, _, _, d⟩ := s.cleanRemote_same s.me.1
  have hm : (s.cleanRemote s.me.1).me = s.me := State.me_of_cur a
  have e2 : (released s).my = { s.my with interval := s.my.interval + 1 } := by
    unfold released ended
    rw [State.my_updMy _ (by rw [hm]; exact steady_le h), State.my_eq (s.cleanRemote s.me.1), hm, d]
    rfl
  unfold steady at h ⊢
  rw [show (released s).cur = s.cur from a, e2]
  exact h

theorem acquire_acquired (s : State) : acquire 5 s = .ok ((), acquired s) := acquire_far (by decide)

end Sys2Proof.Machine
end

