-- ==== Sys2Proof/Laws/Memory.lean ====
section
/-! SUPPORT. Laws of memory: read after write, and the canonical form that every memory operation keeps (log entry 1). -/

namespace Sys2Proof.Machine

/-! ### Read after write -/

@[simp] theorem memByte_memPut (m : Memory) (k : Nat) (b : Byte) : memByte (memPut m k b) k = b := by
  unfold memByte memPut
  split
  · next h => rw [look_erase, h]
  · simp

theorem memByte_memPut_ne (m : Memory) {k j : Nat} (h : j ≠ k) (b : Byte) : memByte (memPut m k b) j = memByte m j := by
  unfold memByte memPut
  split
  · exact look_erase_ne 0 m h
  · exact look_put_ne 0 m h b

theorem memByte_memWrite_out (bs : List Byte) (m : Memory) (k j : Nat) (h : j < k ∨ k + bs.length ≤ j) :
    memByte (memWrite m k bs) j = memByte m j := by
  induction bs generalizing m k with
  | nil => rfl
  | cons b t ih =>
    simp only [List.length_cons] at h
    rw [memWrite, ih _ _ (by omega), memByte_memPut_ne _ (by omega)]

theorem memByte_memWrite_in (bs : List Byte) (m : Memory) (k i : Nat) (h : i < bs.length) :
    memByte (memWrite m k bs) (k + i) = bs.getD i 0 := by
  induction bs generalizing m k i with
  | nil => simp at h
  | cons b t ih =>
    cases i with
    | zero => rw [memWrite, memByte_memWrite_out _ _ _ _ (by omega)]; simp
    | succ i =>
      simp only [List.length_cons, Nat.add_lt_add_iff_right] at h
      rw [memWrite, show k + (i + 1) = k + 1 + i by omega, ih _ _ _ h]; simp

/-- Bytes written read back. -/
theorem memRead_memWrite (bs : List Byte) (m : Memory) (k : Nat) : memRead (memWrite m k bs) k bs.length = bs := by
  suffices h : ∀ (n i : Nat), i + n = bs.length → memRead (memWrite m k bs) (k + i) n = bs.drop i by
    simpa using h bs.length 0 (by omega)
  intro n
  induction n with
  | zero => intro i h; simp [memRead, show i = bs.length by omega]
  | succ n ih =>
    intro i h
    have hi : i < bs.length := by omega
    rw [memRead, memByte_memWrite_in _ _ _ _ hi, show k + i + 1 = k + (i + 1) by omega, ih (i + 1) (by omega),
      List.drop_eq_getElem_cons hi]
    simp [List.getD, hi]

/-- Reading away from what was written gives what was there. -/
theorem memRead_memWrite_out (bs : List Byte) (m : Memory) (k j n : Nat) (h : j + n ≤ k ∨ k + bs.length ≤ j) :
    memRead (memWrite m k bs) j n = memRead m j n := by
  induction n generalizing j with
  | zero => rfl
  | succ n ih => rw [memRead, memRead, ih (j + 1) (by omega), memByte_memWrite_out _ _ _ _ (by omega)]

theorem length_memRead (m : Memory) (k n : Nat) : (memRead m k n).length = n := by
  induction n generalizing k with
  | zero => rfl
  | succ n ih => simp [memRead, ih]

theorem getD_memRead (m : Memory) (k n i : Nat) (h : i < n) : (memRead m k n).getD i 0 = memByte m (k + i) := by
  induction n generalizing k i with
  | zero => omega
  | succ n ih =>
    cases i with
    | zero => simp [memRead]
    | succ i => rw [memRead, List.getD_cons_succ, ih (k + 1) i (by omega)]; congr 1; omega

theorem memByte_memClear (m : Memory) (k n j : Nat) :
    memByte (memClear m k n) j = if k ≤ j ∧ j < k + n then 0 else memByte m j := by
  induction m with
  | nil => simp [memClear, memByte, look]
  | cons e t ih =>
    obtain ⟨i, b⟩ := e
    simp only [memClear, memByte] at ih ⊢
    by_cases c : k ≤ i ∧ i < k + n
    · rw [List.filter_cons_of_neg (by simpa using c), ih]
      by_cases q : j = i
      · subst q; simp [c]
      · simp [look, q]
    · rw [List.filter_cons_of_pos (by simp; omega)]
      by_cases q : j = i
      · subst q; simp [look, c]
      · simp only [look, q, if_false, ih]

/-! ### The canonical form -/

/-- Every key of a table is above k. -/
def Above (k : Nat) (m : Memory) : Prop := ∀ e ∈ m, k < e.1

theorem wf_cons {k : Nat} {b : Byte} {t : Memory} : Memory.wf ((k, b) :: t) = true ↔ b ≠ 0 ∧ Above k t ∧ Memory.wf t = true := by
  simp [Memory.wf, Above, and_assoc]

@[simp] theorem wf_nil : Memory.wf [] = true := rfl

theorem wf_filter (p : Host.Cell → Bool) (m : Memory) (h : Memory.wf m = true) : Memory.wf (m.filter p) = true := by
  induction m with
  | nil => rfl
  | cons e t ih =>
    obtain ⟨k, b⟩ := e
    obtain ⟨h0, h1, h2⟩ := wf_cons.mp h
    rw [List.filter_cons]
    split
    · exact wf_cons.mpr ⟨h0, fun e he => h1 e (List.mem_filter.mp he).1, ih h2⟩
    · exact ih h2

theorem above_put {j k : Nat} {b : Byte} {m : Memory} (hk : j < k) (h : Above j m) : Above j (put m k b) := by
  induction m with
  | nil => intro e he; simp [put] at he; subst he; exact hk
  | cons e t ih =>
    obtain ⟨i, c⟩ := e
    have hi : j < i := h (i, c) (by simp)
    have ht : Above j t := fun e he => h e (by simp [he])
    unfold put
    split
    · intro e he
      rcases List.mem_cons.mp he with rfl | he
      · exact hk
      · exact ht e he
    · split
      · intro e he
        rcases List.mem_cons.mp he with rfl | he
        · exact hk
        · exact h e he
      · intro e he
        rcases List.mem_cons.mp he with rfl | he
        · exact hi
        · exact ih ht e he

theorem wf_put (m : Memory) (k : Nat) (b : Byte) (hb : b ≠ 0) (h : Memory.wf m = true) : Memory.wf (put m k b) = true := by
  induction m with
  | nil => exact wf_cons.mpr ⟨hb, fun e he => by simp at he, rfl⟩
  | cons e t ih =>
    obtain ⟨i, c⟩ := e
    obtain ⟨h0, h1, h2⟩ := wf_cons.mp h
    unfold put
    split
    · next q => exact wf_cons.mpr ⟨hb, q ▸ h1, h2⟩
    · next q =>
      split
      · next l =>
        refine wf_cons.mpr ⟨hb, fun e he => ?_, h⟩
        rcases List.mem_cons.mp he with rfl | he
        · exact l
        · exact Nat.lt_trans l (h1 e he)
      · next l => exact wf_cons.mpr ⟨h0, above_put (by omega) h1, ih h2⟩

theorem wf_memPut (m : Memory) (k : Nat) (b : Byte) (h : Memory.wf m = true) : Memory.wf (memPut m k b) = true := by
  unfold memPut
  split
  · exact wf_filter _ _ h
  · next q => exact wf_put _ _ _ q h

theorem wf_memWrite (bs : List Byte) (m : Memory) (k : Nat) (h : Memory.wf m = true) : Memory.wf (memWrite m k bs) = true := by
  induction bs generalizing m k with
  | nil => exact h
  | cons b t ih => exact ih _ _ (wf_memPut m k b h)

theorem wf_memClear (m : Memory) (k n : Nat) (h : Memory.wf m = true) : Memory.wf (memClear m k n) = true := wf_filter _ _ h

/-- Memories in canonical form with equal bytes are equal. -/
theorem memory_ext (m n : Memory) (hm : Memory.wf m = true) (hn : Memory.wf n = true) (h : ∀ k, memByte m k = memByte n k) : m = n := by
  have low : ∀ (k : Nat) (t : Memory), Above k t → memByte t k = 0 := by
    intro k t
    induction t with
    | nil => intro; rfl
    | cons e t ih =>
      obtain ⟨i, b⟩ := e
      intro ha
      have hi : k < i := ha (i, b) (by simp)
      have : memByte t k = 0 := ih fun e he => ha e (by simp [he])
      simpa [memByte, look, show ¬ k = i by omega] using this
  induction m generalizing n with
  | nil =>
    cases n with
    | nil => rfl
    | cons e t =>
      obtain ⟨k, b⟩ := e
      obtain ⟨h0, _, _⟩ := wf_cons.mp hn
      exact absurd (by simpa [memByte, look] using (h k).symm) h0
  | cons e t ih =>
    obtain ⟨k, b⟩ := e
    obtain ⟨h0, h1, h2⟩ := wf_cons.mp hm
    cases n with
    | nil => exact absurd (by simpa [memByte, look] using h k) h0
    | cons f u =>
      obtain ⟨j, c⟩ := f
      obtain ⟨g0, g1, g2⟩ := wf_cons.mp hn
      have hk := h k
      have hj := h j
      have hkj : k = j := by
        rcases Nat.lt_trichotomy k j with l | l | l
        · have := low k ((j, c) :: u) fun e he => by
            rcases List.mem_cons.mp he with rfl | he
            · exact l
            · exact Nat.lt_trans l (g1 e he)
          rw [this] at hk
          exact absurd (by simpa [memByte, look] using hk) h0
        · exact l
        · have := low j ((k, b) :: t) fun e he => by
            rcases List.mem_cons.mp he with rfl | he
            · exact l
            · exact Nat.lt_trans l (h1 e he)
          rw [this] at hj
          exact absurd (by simpa [memByte, look] using hj.symm) g0
      subst hkj
      have hbc : b = c := by simpa [memByte, look] using hk
      subst hbc
      have : t = u := ih u h2 g2 fun i => by
        by_cases q : i = k
        · subst q; rw [low i t h1, low i u g1]
        · simpa [memByte, look, q] using h i
      rw [this]

end Sys2Proof.Machine
end

