-- ==== Sys2Proof/Laws/Access.lean ====
section
/-! SUPPORT. What an access does where nothing hinders it, once each: the check, a read and a write of a local store, and the check of a
page of the package. -/

namespace Sys2Proof.Machine

open Sys2Proof.Safety

theorem foldl_same {α β : Type} {f : β → α → β} {b : β} : ∀ {l : List α}, (∀ x ∈ l, f b x = b) → l.foldl f b = b
  | [], _ => rfl
  | x :: t, h => by
    rw [List.foldl_cons, h x (List.mem_cons_self ..)]
    exact foldl_same fun y hy => h y (List.mem_cons_of_mem _ hy)

/-! ### What a check does after its extents are known -/

theorem settled_announced {s : State} (h : settled s = true) (e : Extent) : s.behindSc e = false := by
  have h := (writesDone_spec (settled_writes h)).2
  simp only [List.any_eq_false] at h
  unfold State.behindSc State.afterSc
  simp only [List.any_eq_false]
  intro o ho hb
  simp only [Bool.and_eq_true] at hb
  exact h o ho (by simp [hb.1.1.1.2, hb.1.1.2])

/-- Bytes of a local store, or of a package with no impressions, wait for no recomputation. -/
theorem masterWaits_ok {s : State} {es : List Extent} (h : ∀ e ∈ es, isStore e.key = true ∨ s.impressions = []) :
    masterWaits es s = .ok ((), s) := by
  have hn : ∀ own, es.any (s.behindMaster own) = false := fun own => by
    rw [List.any_eq_false]
    intro e he
    unfold State.behindMaster
    rcases h e he with h | h <;> simp [h]
  unfold masterWaits
  simp only [M.get_bind]
  rw [hn, hn]
  rfl

/-- Extents on no page of mode 11 have nothing to count. -/
theorem State.touch_of_mode {s : State} (es : List Extent) (h : ∀ e ∈ es, e.mode ≠ 3) : s.touch [es] = s := by
  unfold State.touch
  have : (es.any fun e => e.mode == 3) = false := by
    rw [List.any_eq_false]; intro e he; simpa using h e he
  simp [this]

/-- A check of one extent that changes nothing. -/
theorem checkOnly_one {s : State} {r : Req} {p : Word} {off : Int} {n : Nat} {es : List Extent} (hs : settled s = true)
    (hb : ∀ e ∈ es, s.behindStream e = false ∧ (isStore e.key = true ∨ s.impressions = []))
    (h : checkExtent s s.who s.space { r with gen := s.gen, sent := true } p off n {} = .ok { exts := es } s) :
    checkOnly r [(p, off, n)] s = .ok ([es], s) := by
  unfold checkOnly
  simp only [M.get_bind]
  have hc : checkMany s.who s.space { r with gen := s.gen, sent := true } [(p, off, n)] s {} [] = .ok ([es], { exts := es }) s := by
    unfold checkMany
    rw [h]
    rfl
  rw [M.bind_of (show runCheck (fun t => checkMany t.who t.space { r with gen := t.gen, sent := true } [(p, off, n)] t {} []) s
      = .ok (([es], { exts := es }), s) by
    unfold runCheck; dsimp only; rw [hc])]
  have hbs : es.any s.behindStream = false := by rw [List.any_eq_false]; intro e he; simp [(hb e he).1]
  rw [if_neg (by simp [settled_announced hs]), if_neg (by simp [hbs])]
  split
  · have hm : masterWaits ([es], ({ exts := es } : Sofar)).1.flatten s = .ok ((), s) :=
      masterWaits_ok fun e he => (hb e (by simpa using he)).2
    rw [M.bind_of hm]
    rfl
  · rfl

theorem check_one {s : State} {r : Req} {p : Word} {off : Int} {n : Nat} {es : List Extent} (hs : settled s = true)
    (hb : ∀ e ∈ es, s.behindStream e = false ∧ (isStore e.key = true ∨ s.impressions = [])) (hm : ∀ e ∈ es, e.mode ≠ 3)
    (h : checkExtent s s.who s.space { r with gen := s.gen, sent := true } p off n {} = .ok { exts := es } s) :
    check r [(p, off, n)] s = .ok ([es], s) := by
  unfold check
  rw [M.bind_of (checkOnly_one hs hb h)]
  simp only [M.change_bind, State.touch_of_mode es hm]
  rfl

theorem aligned_ok {s : State} {p : Word} {off : Int} {n : Nat} {wr : Bool} (h : multiple p off n) : aligned p off n wr s = .ok ((), s) := by
  unfold aligned
  exact require_apply (by unfold isAligned; simpa [multiple] using h) _ _ _ _ _

/-! ### A local store -/

/-- The extent of n bytes of a local store. -/
def storeExtent (key n : Nat) : Extent :=
  ⟨(meshPointer ((key - 2 ^ 72) / 2 ^ 19) ((key - 2 ^ 72) % 2 ^ 19)).toNat, key, n, 0, false⟩

@[simp] theorem storeExtent_key (k n : Nat) : (storeExtent k n).key = k := rfl
@[simp] theorem storeExtent_len (k n : Nat) : (storeExtent k n).len = n := rfl
@[simp] theorem storeExtent_mode (k n : Nat) : (storeExtent k n).mode = 0 := rfl
@[simp] theorem storeExtent_cell (k n : Nat) : (storeExtent k n).cell = false := rfl

theorem isStore_storeKey (core off : Nat) : isStore (storeKey core off) = true := by
  unfold isStore storeKey; simp only [decide_eq_true_eq]; omega

theorem storeKeyAt_isStore {s : State} {p : Word} {off : Int} {n k : Nat} {wr : Bool} (h : storeKeyAt s p off n wr = some k) :
    isStore k = true := by
  simp only [storeKeyAt, Option.ite_none_right_eq_some, Option.some.injEq] at h
  rw [← h.2]
  exact isStore_storeKey _ _

/-- R184: whether an access waits for a write stream depends on its bytes alone. -/
theorem State.behindStream_congr {s : State} {e e' : Extent} (hk : e.key = e'.key) (hl : e.len = e'.len) : s.behindStream e = s.behindStream e' := by
  unfold State.behindStream
  rw [hk, hl]

/-- The extent is behind no element of a write stream. -/
theorem storeKeyAt_behind {s : State} {p : Word} {off : Int} {n k : Nat} {wr : Bool} (h : storeKeyAt s p off n wr = some k) :
    s.behindStream (storeExtent k n) = false := by
  simp only [storeKeyAt, Option.ite_none_right_eq_some, Option.some.injEq] at h
  rw [← h.2]
  have hb := h.1.2.2.2.2.2.2.2
  simp only [Bool.not_eq_true'] at hb
  rw [← hb]
  exact State.behindStream_congr rfl rfl

/-- The checks of an access to a local store find its extent and change nothing. -/
theorem checkExtent_store {s : State} {w : Who} {r : Req} {p : Word} {off : Int} {n k : Nat} (hn : n ≠ 0)
    (h : storeKeyAt s p off n r.write = some k) (hl : r.localOnly = false) (hp : r.rep = false) (hx : r.matrix = false) (hsc : r.scope ≠ some 6) :
    checkExtent s w s.space r p off n {} = .ok { exts := [storeExtent k n] } s := by
  simp only [storeKeyAt, Option.ite_none_right_eq_some, Option.some.injEq] at h
  obtain ⟨⟨h1, h2, h3, h4, h5, h6, h7, _⟩, h⟩ := h
  subst h
  ·
    have h8 : ¬ bitsAt p 56 8 = 0 := by
      unfold bitsAt at h1 ⊢
      omega
    have h9 : ¬ (((bitsAt p 0 19 : Nat) : Int) + off < 0 ∨ (2 ^ 19 : Int) < ((bitsAt p 0 19 : Nat) : Int) + off + (n : Int)) := by
      split at h4 <;> omega
    obtain ⟨o, ho⟩ : ∃ o : Nat, ((bitsAt p 0 19 : Nat) : Int) + off = o := ⟨_, (Int.toNat_of_nonneg h3).symm⟩
    rw [ho] at h3 h4 h9 ⊢
    unfold checkExtent
    rw [if_neg hn]
    unfold resolve
    simp only [if_neg h8, h1, h2, and_self, if_true, ho, if_neg h9, Int.toNat_natCast]
    unfold meshCheck
    have hoff : o < 2 ^ 19 := by omega
    have hwr : ¬ (r.write = true ∧ 0x7F000 < o + n) := by
      rintro ⟨a, b⟩; rw [a] at h4; simp only [if_true] at h4; omega
    have hk : storeKey (coreAt (bitsAt p 56 6) (bitsAt p 51 5)) o - 2 ^ 72 = coreAt (bitsAt p 56 6) (bitsAt p 51 5) * 2 ^ 19 + o := by
      unfold storeKey; omega
    have hsf : scopeFault s w.core 0 (storeKey (coreAt (bitsAt p 56 6) (bitsAt p 51 5)) o) false r = none := by
      unfold scopeFault
      simp only [hl, hp, hx, Bool.false_and, Bool.false_eq_true, if_false]
      cases hs : r.scope with
      | none => rfl
      | some sc => simp only [isStore_storeKey, if_true]; rw [if_neg (by rintro rfl; exact hsc hs)]
    simp only [h5, Bool.not_true, Bool.false_eq_true, if_false, if_neg hwr, hsf]
    simp only [Bool.not_eq_true'] at h6 h7
    simp only [h6, h7, Bool.false_and, Bool.false_eq_true, if_false, Bool.or_false, List.nil_append]
    unfold storeExtent
    rw [hk, Nat.mul_comm, Nat.mul_add_div (by decide), Nat.mul_add_mod, Nat.div_eq_of_lt hoff, Nat.mod_eq_of_lt hoff, Nat.add_zero]

theorem check_store {s : State} {r : Req} {p : Word} {off : Int} {n k : Nat} (hn : n ≠ 0) (hs : settled s = true)
    (h : storeKeyAt s p off n r.write = some k) (hl : r.localOnly = false) (hp : r.rep = false) (hx : r.matrix = false) (hsc : r.scope ≠ some 6) :
    check r [(p, off, n)] s = .ok ([[storeExtent k n]], s) :=
  check_one hs (by simpa using ⟨storeKeyAt_behind h, .inl (storeKeyAt_isStore h)⟩) (by simp) (checkExtent_store (r := { r with gen := s.gen, sent := true }) hn h hl hp hx hsc)

theorem memRead_eq_map (m : Memory) (k n : Nat) : memRead m k n = (List.range n).map fun i => memByte m (k + i) := by
  apply List.ext_getElem
  · simp [length_memRead]
  · intro i h1 h2
    rw [length_memRead] at h1
    have := getD_memRead m k n i h1
    rw [List.getD_eq_getElem?_getD, List.getElem?_eq_getElem (by rw [length_memRead]; exact h1)] at this
    simpa using this

/-- A read of clean bytes of local stores gives them as they stand and changes nothing. -/
theorem readExts_store {s : State} {plain : Bool} {els : List (List Extent)} (hpr : s.my.pair = none)
    (h : ∀ e ∈ els.flatten, isStore e.key = true ∧ e.mode = 0 ∧ cleanWords s e.key e.len = true) :
    readExts plain els s = .ok (els.map fun es => es.flatMap fun e => memRead s.mem e.key e.len, s) := by
  unfold readExts
  have hb : els.flatten.filterMap s.badData = [] := by
    rw [List.filterMap_eq_nil_iff]
    intro e he
    obtain ⟨h1, _, h3⟩ := h e he
    unfold State.badData
    rw [if_pos h1]
    unfold cleanWords at h3
    simp only [Bool.not_eq_true', List.any_eq_false] at h3
    dsimp only
    rw [Option.map_eq_none_iff, List.find?_eq_none]
    exact h3
  have hc : consume els.flatten s = .ok ((), s) := by
    unfold consume; simp only [M.get_bind, hb]; rfl
  have hr : remoteReads els.flatten s = .ok ([], s) := by
    unfold remoteReads
    have : els.flatten.filter (fun e => e.mode == 1) = [] := by
      rw [List.filter_eq_nil_iff]; intro e he; simp [(h e he).2.1]
    dsimp only
    rw [this]; rfl
  have ht : els.flatten.foldl (fun t e => t.touchRead (s.who.overExts els.flatten) plain e) s = s :=
    foldl_same fun e he => by unfold State.touchRead; rw [if_pos (by simp [(h e he).1])]
  rw [M.bind_of hc, M.bind_of hr]
  simp only [M.change_bind, M.get_bind, ht]
  have hseen : ∀ es ∈ els, s.overlay [] es (s.seenBytes es) = es.flatMap fun e => memRead s.mem e.key e.len := by
    intro es hes
    unfold State.overlay
    rw [List.isEmpty_nil, if_pos rfl]
    unfold State.seenBytes
    rw [List.flatMap_def, List.flatMap_def]
    refine congrArg List.flatten (List.map_congr_left fun e he => ?_)
    rw [memRead_eq_map]
    refine List.map_congr_left fun i _ => ?_
    have hm := (h e (List.mem_flatten.2 ⟨es, hes, he⟩)).2.1
    unfold State.seenByte State.logged
    rw [hpr]
    simp only [List.reverse_nil, List.find?_nil, Option.map_none, hm]
    rfl
  show Except.ok (els.map _, s) = _
  rw [List.map_congr_left hseen]

/-- R67, R102: a plain read of n bytes in a local store. -/
theorem load_store {s : State} {p : Word} {off : Int} {n k : Nat} (hpr : s.my.pair = none) (hs : settled s = true)
    (h : storeKeyAt s p off n false = some k) (hc : cleanWords s k n = true) : load p off n s = .ok (memRead s.mem k n, s) := by
  unfold load
  rcases Nat.eq_zero_or_pos n with rfl | hn
  · rw [M.bind_of (check_one (es := []) hs (by simp) (by simp) (by unfold checkExtent; rfl))]
    rw [M.bind_of (readExts_store (els := [[]]) hpr (by simp))]
    rfl
  · rw [M.bind_of (check_store (by omega) hs h rfl rfl rfl (by simp))]
    rw [M.bind_of (readExts_store hpr (by simpa using ⟨storeKeyAt_isStore h, hc⟩))]
    simp

theorem load_storeBytes {s : State} {p : Word} {off : Int} {n : Nat} {bs : List Byte} (hpr : s.my.pair = none) (hs : settled s = true)
    (h : storeBytes s p off n = some bs) : load p off n s = .ok (bs, s) := by
  obtain ⟨k, hk, h2⟩ := Option.bind_eq_some_iff.1 h
  obtain ⟨hc, h3⟩ := Option.ite_none_right_eq_some.1 h2
  rw [load_store hpr hs hk hc]
  exact congrArg (fun b => Except.ok (b, s)) (Option.some.inj h3)

/-- A write of the agent's over one extent of a local store. -/
theorem writeBytes_store {s : State} {plain : Bool} {k n : Nat} {bs : List Byte} (hpr : s.my.pair = none) (h : isStore k = true)
    (hl : bs.length = n) : writeBytes plain [storeExtent k n] bs s = .ok ((), s.putBytes k bs) := by
  show Except.ok ((), s.writeExts s.who plain [storeExtent k n] bs) = _
  have : s.writeExts s.who plain [storeExtent k n] bs = s.putBytes k bs := by
    show s.writeExt s.who plain (storeExtent k n) (bs.take n) = _
    unfold State.writeExt
    rw [hpr]
    dsimp only
    unfold State.performWrite
    rw [storeExtent_key, if_pos h, ← hl, List.take_length]
  rw [this]

/-- R67, R102, R134: a plain write in a local store. -/
theorem store_store {s : State} {p : Word} {off : Int} {k : Nat} {bs : List Byte} (hpr : s.my.pair = none) (hs : settled s = true)
    (h : storeKeyAt s p off bs.length true = some k) : store p off bs s = .ok ((), s.putBytes k bs) := by
  have hn : noteStore s = .ok ((), s) := by
    unfold noteStore
    rw [M.change_apply, hpr]
  unfold store
  rcases Nat.eq_zero_or_pos bs.length with hz | hz
  · rw [List.length_eq_zero_iff.1 hz]
    rw [M.bind_of (check_one (es := []) hs (by simp) (by simp) (by unfold checkExtent; rfl)), M.bind_of hn]
    rfl
  · rw [M.bind_of (check_store (by omega) hs h rfl rfl rfl (by simp)), M.bind_of hn]
    exact writeBytes_store hpr (storeKeyAt_isStore h) rfl

/-! ### A page of the package -/

theorem pageAt_spec {s : State} {mode : Nat} {p : Word} {off : Int} {n : Nat} {e : Extent} (h : pageAt s mode p off n = some e) :
    ∃ t : TlbEntry, bitsAt p 56 8 = 0 ∧ 0 ≤ ((bitsAt p 0 56 : Nat) : Int) + off ∧ ((bitsAt p 0 56 : Nat) : Int) + off + (n : Int) ≤ (2 ^ 56 : Int) ∧
      0 < n ∧ (((bitsAt p 0 56 : Nat) : Int) + off).toNat % 4096 + n ≤ 4096 ∧
      (s.myCore.tlb.find? fun e => e.serves s.space.tenant (((bitsAt p 0 56 : Nat) : Int) + off).toNat s.cycle) = some t ∧
      (((bitsAt p 0 56 : Nat) : Int) + off).toNat + n ≤ t.va + t.size ∧
      pteMode t.pte = mode ∧ pteRead t.pte = true ∧ pteWrite t.pte = true ∧ s.modes s.space.tenant / 2 ^ mode % 2 = 1 ∧
      e = ⟨(((bitsAt p 0 56 : Nat) : Int) + off).toNat, leafKey s.fabric.own t (((bitsAt p 0 56 : Nat) : Int) + off).toNat, n, mode, false⟩ := by
  simp only [pageAt] at h
  obtain ⟨⟨h1, h2, h3, h4, h5⟩, h6⟩ := Option.ite_none_right_eq_some.1 h
  split at h6
  · rename_i t ht
    obtain ⟨⟨h7, h8, h9, h10, h11⟩, h12⟩ := Option.ite_none_right_eq_some.1 h6
    exact ⟨t, h1, h2, h3, h4, h5, ht, h7, h8, h9, h10, h11, (Option.some.inj h12).symm⟩
  · cases h6

theorem space_tlb (s : State) : s.space.tlb = .core s.me.1 := by unfold State.space; split <;> rfl

theorem translate_cached {s : State} {va : Nat} {t : TlbEntry} (h : (s.myCore.tlb.find? fun e => e.serves s.space.tenant va s.cycle) = some t) :
    s.translate s.space va = (.ok t, s) := by
  have hq : ((s.tlbOf s.space.tlb).find? fun e => e.serves s.space.tenant va s.cycle) = some t := by
    rw [space_tlb]; exact h
  unfold State.translate
  rw [hq]

/-- What of an extent hinders no access. -/
theorem untouched_spec {s : State} {e : Extent} (h : untouched s e = true) :
    isHbm e.key = true ∧ isHost e.key = false ∧ isStore e.key = false ∧ isPeer e.key = false ∧ inPhaseWindow e.key = false ∧ s.impressions = [] ∧
      s.badData e = none ∧ s.lookupWaits s.me.1 s.me.2 e.key e.len = false ∧ s.scPending s.who e.key e.len = false ∧
      s.behindSc e = false ∧ s.behindStream e = false ∧
      (∀ k ∈ s.badSectors, e.key + e.len ≤ k ∨ k + 32 ≤ e.key) ∧
      ∀ i < e.len, s.poisonedAt s.me.1 (e.key + i) = false ∧ s.conflict s.who true (e.key + i) = 0 := by
  simp only [untouched, Bool.and_eq_true, Bool.not_eq_true', List.all_eq_true, Bool.or_eq_true, decide_eq_true_eq, List.mem_range,
    List.isEmpty_iff, Option.isNone_iff_eq_none, beq_iff_eq] at h
  obtain ⟨⟨⟨⟨⟨⟨⟨⟨⟨⟨⟨⟨h1, h2⟩, h3⟩, h4⟩, h5⟩, h6⟩, h7⟩, h8⟩, h9⟩, ha⟩, hb⟩, h10⟩, h11⟩ := h
  exact ⟨h1, h2, h3, h4, h5, h6, h7, h8, h9, ha, hb, h10, h11⟩

/-- A read meets no record where a write meets none. -/
theorem State.conflict_read {s : State} {w : Who} {key : Nat} (h : s.conflict w true key = 0) (b : Bool) : s.conflict w b key = 0 := by
  cases b
  · unfold State.conflict at h ⊢
    cases h2 : (s.othersOn w key).2 <;> simp_all
  · exact h

/-- The bytes of an extent that nothing hinders pass every check. -/
theorem byteScan_ok {s : State} {r : Req} (ha : s.me.2 < 9) (hi : s.impressions = []) {va : Nat} : ∀ {n key : Nat} {a : Sofar},
    (∀ i < n, s.poisonedAt s.me.1 (key + i) = false ∧ s.conflict s.who true (key + i) = 0) → byteScan s s.who r va key n a = .ok a
  | 0, _, _, _ => rfl
  | n + 1, key, a, h => by
    have hf : s.byteFresh r key = [] := by
      have : s.freshness key = [] := by unfold State.freshness; rw [hi]; rfl
      unfold State.byteFresh
      rw [this, ite_self]
    have h0 := h 0 (by omega)
    rw [Nat.add_zero] at h0
    have hc : byteCause s s.who r key = none := by
      unfold byteCause
      simp only [hf]
      have hp : (if s.who.agent < 9 then s.poisonedAt s.who.core key else s.poisonedHome key) = false := by
        rw [if_pos (show s.who.agent < 9 from ha)]; exact h0.1
      rw [hp]
      simp only [List.contains_nil, Bool.and_false, Bool.or_self, Bool.false_eq_true, if_false, h0.2, State.conflict_read h0.2, ite_self]
    unfold byteScan
    rw [hc]
    dsimp only
    rw [hf]
    have := byteScan_ok (va := va + 1) (r := r) ha hi (n := n) (key := key + 1) (a := a) fun i hin => by
      have := h (i + 1) (by omega)
      rwa [show key + (i + 1) = key + 1 + i by omega] at this
    simpa using this

/-- The checks of an access to a page of the package that nothing hinders find its extent and change nothing. -/
theorem checkExtent_page {s : State} {r : Req} {p : Word} {off : Int} {n : Nat} {e : Extent} (ha : s.me.2 < 9)
    (h : pageBytes s p off n = some e) (hf : r.fetch = false) (hp : r.rep = false) (hx : r.matrix = false) (hsc : r.scope = none) :
    checkExtent s s.who s.space r p off n {} = .ok { exts := [e] } s := by
  obtain ⟨e', h1, h2⟩ := Option.bind_eq_some_iff.1 h
  obtain ⟨hu, h3⟩ := Option.ite_none_right_eq_some.1 h2
  cases Option.some.inj h3
  obtain ⟨t, q1, q2, q3, q4, q5, q6, q7, q8, q9, q10, q11, q12⟩ := pageAt_spec h1
  obtain ⟨u1, u2, u3, u4, u5, u6, u7, u8, u9, _, _, u10, u11⟩ := untouched_spec hu
  generalize hv : (((bitsAt p 0 56 : Nat) : Int) + off).toNat = v at *
  have hk : e.key = leafKey s.fabric.own t v := by rw [q12]
  have hl : e.len = n := by rw [q12]
  rw [hk] at u1 u2 u3 u4 u5 u8 u9 u10 u11
  rw [hl] at u8 u9 u10 u11
  unfold checkExtent
  rw [if_neg (by omega)]
  have hr : resolve p off n r.write = .ok (.flat v) := by
    unfold resolve
    simp only [q1, if_true, if_neg (show ¬ ((bitsAt p 0 56 : Nat) : Int) + off < 0 by omega),
      if_neg (show ¬ (2 ^ 56 : Int) < ((bitsAt p 0 56 : Nat) : Int) + off + (n : Int) by omega), hv]
  rw [hr]
  dsimp only
  rw [show n / 4096 * 2 + n + 2 = (n / 4096 * 2 + n) + 1 + 1 by omega]
  have hm : min n (4096 - v % 4096) = n := by omega
  have hcut : cutDerived s s.space r v n = n := by
    unfold cutDerived
    rw [u6]
    simp
  have hpiece : flatPiece s s.who s.space r v n {} = .ok { exts := [e] } s := by
    have hperm : permFault s s.space r t.pte = none := by
      unfold permFault Req.allowed
      rw [hf, q9, q10, q8]
      simpa using q11
    have hcell : isCell t (leafKey s.fabric.own t v) = false := by unfold isCell; rw [u5]; simp
    have hder : s.isDerived (leafKey s.fabric.own t v) = false := by unfold State.isDerived; rw [u6]; rfl
    have hscope : scopeFault s s.who.core 0 (leafKey s.fabric.own t v) false r = none := by
      unfold scopeFault
      simp only [u2, u3, hp, hx, hsc, bne_self_eq_false, Bool.or_self, Bool.and_false, Bool.false_and, Bool.false_eq_true, if_false]
    have hlost : ∀ q, lostFetch s s.who.core 0 (leafKey s.fabric.own t v) n q = none := by
      intro q
      unfold lostFetch
      rw [if_neg (by simp)]
    have hfind : (if ((r.read || r.fetch) && isHbm (leafKey s.fabric.own t v)) = true then
        s.findBadIn (if s.who.agent < 9 then some s.who.core else none) (leafKey s.fabric.own t v) n else s) = s := by
      have : ∀ c, s.findBadIn c (leafKey s.fabric.own t v) n = s := by
        intro c
        unfold State.findBadIn
        dsimp only
        rw [List.filter_eq_nil_iff.2]
        · rfl
        · intro k hkb
          have := u10 k hkb
          simp only [Bool.and_eq_true, decide_eq_true_eq]
          rintro ⟨⟨a, b⟩, _⟩
          omega
      rw [this, ite_self]
    unfold flatPiece
    rw [translate_cached q6]
    simp only [q8, hperm, hcell, hder, hscope, hlost, hfind, Bool.false_and, Bool.and_false, Bool.false_eq_true, if_false, u2, false_and,
      Option.getD_none, reduceCtorEq, Nat.zero_ne_one, show ¬ (0 : Nat) = 2 by decide, or_self, byteScan_ok ha u6 u11]
    have hlw : s.lookupWaits s.who.core s.who.agent (leafKey s.fabric.own t v) n = false := u8
    rw [q12]
    simp [hlw, u9]
  have hrest : ∀ f x a, flatCheck s.who s.space r f s x 0 a = .ok a s := by
    intro f x a
    cases f
    · rfl
    · unfold flatCheck; rw [if_pos rfl]
  unfold flatCheck
  rw [if_neg (by omega), hm, hcut]
  dsimp only
  rw [hpiece]
  dsimp only
  rw [Nat.sub_self, hrest]

theorem check_page {s : State} {r : Req} {p : Word} {off : Int} {n : Nat} {e : Extent} (ha : s.me.2 < 9) (hs : settled s = true)
    (h : pageBytes s p off n = some e) (hf : r.fetch = false) (hp : r.rep = false) (hx : r.matrix = false) (hsc : r.scope = none) :
    check r [(p, off, n)] s = .ok ([[e]], s) := by
  have he := h
  obtain ⟨e', h1, h2⟩ := Option.bind_eq_some_iff.1 h
  have hu := (Option.ite_none_right_eq_some.1 h2).1
  cases Option.some.inj (Option.ite_none_right_eq_some.1 h2).2
  obtain ⟨_, _, _, _, _, ui, _, _, _, _, ub, _⟩ := untouched_spec hu
  refine check_one hs (by simpa using ⟨ub, .inr ui⟩) ?_ (checkExtent_page (r := { r with gen := s.gen, sent := true }) ha he hf hp hx hsc)
  obtain ⟨t, _, _, _, _, _, _, _, _, _, _, _, q⟩ := pageAt_spec h1
  rw [q]
  simp

end Sys2Proof.Machine
end

