-- ==== Sys2Proof/Laws/Cache.lean ====
section
/-! SUPPORT. What the range operations of the L1s and the directory do, once each: a range cut out of a list of entries (R193, R201), a range
of the directory that no L1 holds any more (R335), and a range of memory that is poisoned (R207). -/

namespace Sys2Proof.Machine

/-! ### Ranges of entries -/

theorem L1Entry.meets_iff (e : L1Entry) (a b : Nat) : e.meets a b = true ↔ a < e.key + e.len ∧ e.key < b := by
  unfold L1Entry.meets L1Entry.stop
  simp

/-- A part of an entry holds the bytes that it is cut to. -/
theorem L1Entry.meets_of_part {e x : L1Entry} {a b : Nat} (k : Nat) (h : x ∈ e.part a b) :
    x.meets k (k + 1) = (decide (a ≤ k) && decide (k < b)) := by
  unfold L1Entry.part at h
  split at h
  · simp only [List.mem_singleton] at h
    subst h
    rw [Bool.eq_iff_iff, L1Entry.meets_iff]
    simp
    omega
  · simp at h

/-- Where no entry has a part inside a range, none holds a byte of it. -/
theorem State.heldBy_of_partsIn {s : State} {core a n k : Nat} (h : s.partsIn core a n = []) (h1 : a ≤ k) (h2 : k < a + n) (p : L1Entry → Bool) :
    heldBy (s.core core).l1 p k = false := by
  unfold State.partsIn at h
  rw [List.flatMap_eq_nil_iff] at h
  simp only [heldBy, List.any_eq_false, Bool.and_eq_true, L1Entry.meets_iff]
  intro e he hm
  have c : e.meets a (a + n) = true := by rw [L1Entry.meets_iff]; omega
  have := h e he
  rw [if_pos c] at this
  unfold L1Entry.inside L1Entry.part at this
  split at this
  · simp at this
  · unfold L1Entry.stop at *; omega

/-- After a range has been cut out and its parts changed by f, an entry that holds a byte of it is one of those that f gives. -/
theorem heldBy_splitMap {l : List L1Entry} {a b k : Nat} {f : L1Entry → List L1Entry} {p : L1Entry → Bool} (h1 : a ≤ k) (h2 : k < b)
    (hf : ∀ e, ∀ x ∈ f e, p x = false) : heldBy (splitMap l a b f) p k = false := by
  simp only [heldBy, List.any_eq_false, splitMap, List.mem_flatMap, Bool.and_eq_true]
  rintro e ⟨g, -, he⟩ ⟨hp, hm⟩
  split at he
  · simp only [List.mem_append, List.mem_flatMap, L1Entry.outside] at he
    rcases he with ⟨q, -, he⟩ | he | he
    · simp [hf q e he] at hp
    · rw [L1Entry.meets_of_part k he] at hm; simp at hm; omega
    · rw [L1Entry.meets_of_part k he] at hm; simp at hm; omega
  · rename_i c
    simp only [List.mem_singleton] at he
    subst he
    apply c
    rw [L1Entry.meets_iff] at hm ⊢
    omega

/-! ### The directory -/

/-- An entry names no byte of a range. -/
def DirEntry.clear (a b : Nat) (e : DirEntry) : Prop := e.key + e.len ≤ a ∨ b ≤ e.key

theorem dirAbsorb_clear {a b : Nat} (h : a < b) {e : DirEntry} (he : e.clear a b) :
    ∀ (l : List DirEntry) r, (∀ x ∈ l, x.clear a b) → dirAbsorb e l = some r → r.1.clear a b ∧ ∀ x ∈ r.2, x.clear a b := by
  intro l
  induction l with
  | nil => intro r _ h; simp [dirAbsorb] at h
  | cons f t ih =>
    intro r hl hr
    have hf := hl f (by simp)
    have ht : ∀ x ∈ t, x.clear a b := fun x hx => hl x (by simp [hx])
    unfold dirAbsorb at hr
    split at hr
    · rename_i g
      simp [DirEntry.mergeable] at g
      cases hr
      exact ⟨by unfold DirEntry.clear at *; dsimp only; omega, ht⟩
    · split at hr
      · rename_i g
        simp [DirEntry.mergeable] at g
        cases hr
        exact ⟨by unfold DirEntry.clear at *; dsimp only; omega, ht⟩
      · cases hq : dirAbsorb e t with
        | none => rw [hq] at hr; simp at hr
        | some q =>
          rw [hq] at hr
          simp at hr
          subst hr
          refine ⟨(ih q ht hq).1, fun x hx => ?_⟩
          rcases List.mem_cons.mp hx with rfl | hx
          · exact hf
          · exact (ih q ht hq).2 x hx

theorem dirCoalesce_clear {a b : Nat} (h : a < b) : ∀ n (l : List DirEntry), (∀ x ∈ l, x.clear a b) → ∀ x ∈ dirCoalesce n l, x.clear a b := by
  intro n
  induction n with
  | zero => intro l hl; simpa [dirCoalesce] using hl
  | succ n ih =>
    intro l hl
    cases l with
    | nil => simp [dirCoalesce]
    | cons e t =>
      have ht : ∀ x ∈ t, x.clear a b := fun x hx => hl x (by simp [hx])
      unfold dirCoalesce
      split
      · rename_i g t' hq
        obtain ⟨h1, h2⟩ := dirAbsorb_clear h (hl e (by simp)) t _ ht hq
        exact ih _ fun x hx => (List.mem_cons.mp hx).elim (fun q => q ▸ h1) (h2 x)
      · intro x hx
        rcases List.mem_cons.mp hx with rfl | hx
        · exact hl _ (by simp)
        · exact ih t ht x hx

/-- A range that no L1 holds is named by no entry of the directory. -/
theorem dirEdit_clear (d : List DirEntry) {a n : Nat} (h : 0 < n) : ∀ x ∈ dirEdit d a n (fun _ => ([], none)), x.clear a (a + n) := by
  intro x hx
  unfold dirEdit at hx
  have fm : ∀ (l : List DirEntry), (l.flatMap fun _ => ([] : List DirEntry)) = [] := by intro l; simp
  have fr : ∀ (l : List (Nat × Nat)), (l.flatMap fun _ => ([] : List DirEntry)) = [] := by intro l; simp
  simp only [List.isEmpty_nil, Option.isNone_none, Bool.and_self, if_true, fm, fr, List.nil_append] at hx
  rw [List.mem_append] at hx
  rcases hx with hx | hx
  · refine dirCoalesce_clear (by omega) _ _ ?_ x hx
    intro y hy
    simp only [List.mem_flatMap] at hy
    obtain ⟨e, he, hy⟩ := hy
    simp only [List.mem_append] at hy
    rcases hy with hy | hy <;> split at hy <;> simp at hy
    all_goals subst hy; unfold DirEntry.clear; dsimp only; omega
  · simp at hx
    unfold DirEntry.clear
    omega

/-! ### Poison -/

/-- Poisoning a range changes nothing of the directory. -/
theorem State.poisonRange_dir (s : State) (a n : Nat) : (s.poisonRange a n).dir = s.dir := by
  unfold State.poisonRange
  dsimp only
  split
  · rfl
  · generalize regions a n = l
    induction l generalizing s with
    | nil => rfl
    | cons r l ih =>
      refine (ih _).trans ?_
      dsimp only
      split <;> rfl

theorem mem_foldl_insert (a : Nat) (l : List Nat) : ∀ (p : List Nat) k,
    k ∈ l.foldl (fun p i => if p.contains (a + i) then p else (a + i) :: p) p ↔ k ∈ p ∨ ∃ i ∈ l, k = a + i := by
  induction l with
  | nil => simp
  | cons x t ih =>
    intro p k
    rw [List.foldl_cons, ih]
    by_cases h : p.contains (a + x)
    · simp only [h, if_true, List.mem_cons, exists_eq_or_imp]
      constructor
      · rintro (h | h) <;> simp_all
      · rintro (g | g | g) <;> simp_all
    · simp only [h]
      simp [or_assoc, or_left_comm]

/-- Every byte of a poisoned range is poisoned. -/
theorem State.mem_poisonRange (s : State) (a : Nat) {n i : Nat} (h : i < n) : a + i ∈ (s.poisonRange a n).poison := by
  unfold State.poisonRange
  dsimp only
  rw [mem_foldl_insert]
  exact Or.inr ⟨i, by simpa using h, rfl⟩

end Sys2Proof.Machine
end

