-- ==== Sys2Proof/Laws/Dispatch.lean ====
section
/-! SUPPORT. exec at each constructor is that instruction's meaning. -/

namespace Sys2Proof.Machine

theorem exec_addR w b a d (s : State) : exec (.addR w b a d) s = execAddR w b a d s := rfl
theorem exec_subR w b a d (s : State) : exec (.subR w b a d) s = execSubR w b a d s := rfl
theorem exec_andR b a d (s : State) : exec (.andR b a d) s = execAndR b a d s := rfl
theorem exec_orR b a d (s : State) : exec (.orR b a d) s = execOrR b a d s := rfl
theorem exec_xorR b a d (s : State) : exec (.xorR b a d) s = execXorR b a d s := rfl
theorem exec_shl w b a d (s : State) : exec (.shl w b a d) s = execShl w b a d s := rfl
theorem exec_shr w b a d (s : State) : exec (.shr w b a d) s = execShr w b a d s := rfl
theorem exec_sar w b a d (s : State) : exec (.sar w b a d) s = execSar w b a d s := rfl
theorem exec_min w b a d (s : State) : exec (.min w b a d) s = execMin w b a d s := rfl
theorem exec_max w b a d (s : State) : exec (.max w b a d) s = execMax w b a d s := rfl
theorem exec_minn w b a d (s : State) : exec (.minn w b a d) s = execMinn w b a d s := rfl
theorem exec_maxn w b a d (s : State) : exec (.maxn w b a d) s = execMaxn w b a d s := rfl
theorem exec_cmp c b a d (s : State) : exec (.cmp c b a d) s = execCmp c b a d s := rfl
theorem exec_sel b a d (s : State) : exec (.sel b a d) s = execSel b a d s := rfl
theorem exec_clz a d (s : State) : exec (.clz a d) s = execClz a d s := rfl
theorem exec_ctz a d (s : State) : exec (.ctz a d) s = execCtz a d s := rfl
theorem exec_popc a d (s : State) : exec (.popc a d) s = execPopc a d s := rfl
theorem exec_mul b a d (s : State) : exec (.mul b a d) s = execMul b a d s := rfl
theorem exec_mulh b a d (s : State) : exec (.mulh b a d) s = execMulh b a d s := rfl
theorem exec_mulhn b a d (s : State) : exec (.mulhn b a d) s = execMulhn b a d s := rfl
theorem exec_addImm im a d (s : State) : exec (.addImm im a d) s = execAddImm im a d s := rfl
theorem exec_andImm im a d (s : State) : exec (.andImm im a d) s = execAndImm im a d s := rfl
theorem exec_orImm im a d (s : State) : exec (.orImm im a d) s = execOrImm im a d s := rfl
theorem exec_xorImm im a d (s : State) : exec (.xorImm im a d) s = execXorImm im a d s := rfl
theorem exec_shlImm w n a d (s : State) : exec (.shlImm w n a d) s = execShlImm w n a d s := rfl
theorem exec_shrImm w n a d (s : State) : exec (.shrImm w n a d) s = execShrImm w n a d s := rfl
theorem exec_sarImm w n a d (s : State) : exec (.sarImm w n a d) s = execSarImm w n a d s := rfl
theorem exec_movi im d (s : State) : exec (.movi im d) s = execMovi im d s := rfl
theorem exec_movh im d (s : State) : exec (.movh im d) s = execMovh im d s := rfl
theorem exec_div la b a d (s : State) : exec (.div la b a d) s = execDiv la b a d s := rfl
theorem exec_divn la b a d (s : State) : exec (.divn la b a d) s = execDivn la b a d s := rfl
theorem exec_rem la b a d (s : State) : exec (.rem la b a d) s = execRem la b a d s := rfl
theorem exec_remn la b a d (s : State) : exec (.remn la b a d) s = execRemn la b a d s := rfl
theorem exec_amesh b a d (s : State) : exec (.amesh b a d) s = execAmesh b a d s := rfl
theorem exec_apost b a d (s : State) : exec (.apost b a d) s = execApost b a d s := rfl
theorem exec_awalk x k a (s : State) : exec (.awalk x k a) s = execAwalk x k a s := rfl
theorem exec_beq sc b a (s : State) : exec (.beq sc b a) s = execBeq sc b a s := rfl
theorem exec_bne sc b a (s : State) : exec (.bne sc b a) s = execBne sc b a s := rfl
theorem exec_blt sc b a (s : State) : exec (.blt sc b a) s = execBlt sc b a s := rfl
theorem exec_bge sc b a (s : State) : exec (.bge sc b a) s = execBge sc b a s := rfl
theorem exec_bltn sc b a (s : State) : exec (.bltn sc b a) s = execBltn sc b a s := rfl
theorem exec_bgen sc b a (s : State) : exec (.bgen sc b a) s = execBgen sc b a s := rfl
theorem exec_rep sc a (s : State) : exec (.rep sc a) s = execRep sc a s := rfl
theorem exec_jmp sc d (s : State) : exec (.jmp sc d) s = execJmp sc d s := rfl
theorem exec_call sc (s : State) : exec (.call sc) s = execCall sc s := rfl
theorem exec_jr a d (s : State) : exec (.jr a d) s = execJr a d s := rfl
theorem exec_callr a (s : State) : exec (.callr a) s = execCallr a s := rfl
theorem exec_ret (s : State) : exec (.ret) s = execRet s := rfl
theorem exec_eret (s : State) : exec (.eret) s = execEret s := rfl
theorem exec_yield (s : State) : exec (.yield) s = execYield s := rfl
theorem exec_exit (s : State) : exec (.exit) s = execExit s := rfl
theorem exec_trap t (s : State) : exec (.trap t) s = execTrap t s := rfl
theorem exec_ldB im a d (s : State) : exec (.ldB im a d) s = execLdB im a d s := rfl
theorem exec_ldH im a d (s : State) : exec (.ldH im a d) s = execLdH im a d s := rfl
theorem exec_ldW im a d (s : State) : exec (.ldW im a d) s = execLdW im a d s := rfl
theorem exec_ldD im a d (s : State) : exec (.ldD im a d) s = execLdD im a d s := rfl
theorem exec_ldnB im a d (s : State) : exec (.ldnB im a d) s = execLdnB im a d s := rfl
theorem exec_ldnH im a d (s : State) : exec (.ldnH im a d) s = execLdnH im a d s := rfl
theorem exec_ldnW im a d (s : State) : exec (.ldnW im a d) s = execLdnW im a d s := rfl
theorem exec_stB im a d (s : State) : exec (.stB im a d) s = execStB im a d s := rfl
theorem exec_stH im a d (s : State) : exec (.stH im a d) s = execStH im a d s := rfl
theorem exec_stW im a d (s : State) : exec (.stW im a d) s = execStW im a d s := rfl
theorem exec_stD im a d (s : State) : exec (.stD im a d) s = execStD im a d s := rfl
theorem exec_ldstrLoad p z la b a d (s : State) : exec (.ldstrLoad p z la b a d) s = execLdstrLoad p z la b a d s := rfl
theorem exec_ldstrStore p z la b a d (s : State) : exec (.ldstrStore p z la b a d) s = execLdstrStore p z la b a d s := rfl
theorem exec_ldAcqW sc b a d (s : State) : exec (.ldAcqW sc b a d) s = execLdAcqW sc b a d s := rfl
theorem exec_ldAcqD sc b a d (s : State) : exec (.ldAcqD sc b a d) s = execLdAcqD sc b a d s := rfl
theorem exec_stRelW sc b a d (s : State) : exec (.stRelW sc b a d) s = execStRelW sc b a d s := rfl
theorem exec_stRelD sc b a d (s : State) : exec (.stRelD sc b a d) s = execStRelD sc b a d s := rfl
theorem exec_ldSc b a d (s : State) : exec (.ldSc b a d) s = execLdSc b a d s := rfl
theorem exec_stSc b a d (s : State) : exec (.stSc b a d) s = execStSc b a d s := rfl
theorem exec_ldroW b a d (s : State) : exec (.ldroW b a d) s = execLdroW b a d s := rfl
theorem exec_ldroD b a d (s : State) : exec (.ldroD b a d) s = execLdroD b a d s := rfl
theorem exec_ldf b a d (s : State) : exec (.ldf b a d) s = execLdf b a d s := rfl
theorem exec_pre b a (s : State) : exec (.pre b a) s = execPre b a s := rfl
theorem exec_bmov b a d (s : State) : exec (.bmov b a d) s = execBmov b a d s := rfl
theorem exec_amoAdd w sc b a d (s : State) : exec (.amoAdd w sc b a d) s = execAmoAdd w sc b a d s := rfl
theorem exec_amoMin w sc b a d (s : State) : exec (.amoMin w sc b a d) s = execAmoMin w sc b a d s := rfl
theorem exec_amoMax w sc b a d (s : State) : exec (.amoMax w sc b a d) s = execAmoMax w sc b a d s := rfl
theorem exec_amoMinn w sc b a d (s : State) : exec (.amoMinn w sc b a d) s = execAmoMinn w sc b a d s := rfl
theorem exec_amoMaxn w sc b a d (s : State) : exec (.amoMaxn w sc b a d) s = execAmoMaxn w sc b a d s := rfl
theorem exec_amoAnd w sc b a d (s : State) : exec (.amoAnd w sc b a d) s = execAmoAnd w sc b a d s := rfl
theorem exec_amoOr w sc b a d (s : State) : exec (.amoOr w sc b a d) s = execAmoOr w sc b a d s := rfl
theorem exec_amoXor w sc b a d (s : State) : exec (.amoXor w sc b a d) s = execAmoXor w sc b a d s := rfl
theorem exec_amoSwp w sc b a d (s : State) : exec (.amoSwp w sc b a d) s = execAmoSwp w sc b a d s := rfl
theorem exec_amoCas w sc b a d (s : State) : exec (.amoCas w sc b a d) s = execAmoCas w sc b a d s := rfl
theorem exec_amoFadd w sc b a d (s : State) : exec (.amoFadd w sc b a d) s = execAmoFadd w sc b a d s := rfl
theorem exec_fence sc (s : State) : exec (.fence sc) s = execFence sc s := rfl
theorem exec_barT (s : State) : exec (.barT) s = execBarT s := rfl
theorem exec_barG (s : State) : exec (.barG) s = execBarG s := rfl
theorem exec_rflush b a (s : State) : exec (.rflush b a) s = execRflush b a s := rfl
theorem exec_rinv b a (s : State) : exec (.rinv b a) s = execRinv b a s := rfl
theorem exec_waitf b a (s : State) : exec (.waitf b a) s = execWaitf b a s := rfl
theorem exec_srd b d (s : State) : exec (.srd b d) s = execSrd b d s := rfl
theorem exec_swr b a (s : State) : exec (.swr b a) s = execSwr b a s := rfl
theorem exec_swrImm im d (s : State) : exec (.swrImm im d) s = execSwrImm im d s := rfl
theorem exec_rfork b a d (s : State) : exec (.rfork b a d) s = execRfork b a d s := rfl
theorem exec_join a (s : State) : exec (.join a) s = execJoin a s := rfl
theorem exec_mig a (s : State) : exec (.mig a) s = execMig a s := rfl
theorem exec_amsg b a d (s : State) : exec (.amsg b a d) s = execAmsg b a d s := rfl
theorem exec_hmsg b a (s : State) : exec (.hmsg b a) s = execHmsg b a s := rfl
theorem exec_task a d (s : State) : exec (.task a d) s = execTask a d s := rfl
theorem exec_dec b a (s : State) : exec (.dec b a) s = execDec b a s := rfl
theorem exec_pair a d (s : State) : exec (.pair a d) s = execPair a d s := rfl
theorem exec_unpair d (s : State) : exec (.unpair d) s = execUnpair d s := rfl
theorem exec_gstat a (s : State) : exec (.gstat a) s = execGstat a s := rfl
theorem exec_halt (s : State) : exec (.halt) s = execHalt s := rfl
theorem exec_vadd m r b a d (s : State) : exec (.vadd m r b a d) s = execVadd m r b a d s := rfl
theorem exec_vsub m r b a d (s : State) : exec (.vsub m r b a d) s = execVsub m r b a d s := rfl
theorem exec_vmul m r b a d (s : State) : exec (.vmul m r b a d) s = execVmul m r b a d s := rfl
theorem exec_vmin m r b a d (s : State) : exec (.vmin m r b a d) s = execVmin m r b a d s := rfl
theorem exec_vmax m r b a d (s : State) : exec (.vmax m r b a d) s = execVmax m r b a d s := rfl
theorem exec_vand m r b a d (s : State) : exec (.vand m r b a d) s = execVand m r b a d s := rfl
theorem exec_vor m r b a d (s : State) : exec (.vor m r b a d) s = execVor m r b a d s := rfl
theorem exec_vxor m r b a d (s : State) : exec (.vxor m r b a d) s = execVxor m r b a d s := rfl
theorem exec_vshl m r b a d (s : State) : exec (.vshl m r b a d) s = execVshl m r b a d s := rfl
theorem exec_vshr m r b a d (s : State) : exec (.vshr m r b a d) s = execVshr m r b a d s := rfl
theorem exec_vsar m r b a d (s : State) : exec (.vsar m r b a d) s = execVsar m r b a d s := rfl
theorem exec_vmov m r b a d (s : State) : exec (.vmov m r b a d) s = execVmov m r b a d s := rfl
theorem exec_vneg m r b a d (s : State) : exec (.vneg m r b a d) s = execVneg m r b a d s := rfl
theorem exec_vabs m r b a d (s : State) : exec (.vabs m r b a d) s = execVabs m r b a d s := rfl
theorem exec_vrsub m r b a d (s : State) : exec (.vrsub m r b a d) s = execVrsub m r b a d s := rfl
theorem exec_vxchg m r b a d (s : State) : exec (.vxchg m r b a d) s = execVxchg m r b a d s := rfl
theorem exec_vdiv m r b a d (s : State) : exec (.vdiv m r b a d) s = execVdiv m r b a d s := rfl
theorem exec_vsqrt m r b a d (s : State) : exec (.vsqrt m r b a d) s = execVsqrt m r b a d s := rfl
theorem exec_vmulh m r b a d (s : State) : exec (.vmulh m r b a d) s = execVmulh m r b a d s := rfl
theorem exec_vadds m r b a d (s : State) : exec (.vadds m r b a d) s = execVadds m r b a d s := rfl
theorem exec_vsubs m r b a d (s : State) : exec (.vsubs m r b a d) s = execVsubs m r b a d s := rfl
theorem exec_vabd m r b a d (s : State) : exec (.vabd m r b a d) s = execVabd m r b a d s := rfl
theorem exec_vnot m r b a d (s : State) : exec (.vnot m r b a d) s = execVnot m r b a d s := rfl
theorem exec_vaddLForm m sc d (s : State) : exec (.vaddLForm m sc d) s = execVaddLForm m sc d s := rfl
theorem exec_vsubLForm m sc d (s : State) : exec (.vsubLForm m sc d) s = execVsubLForm m sc d s := rfl
theorem exec_vmulLForm m sc d (s : State) : exec (.vmulLForm m sc d) s = execVmulLForm m sc d s := rfl
theorem exec_vminLForm m sc d (s : State) : exec (.vminLForm m sc d) s = execVminLForm m sc d s := rfl
theorem exec_vmaxLForm m sc d (s : State) : exec (.vmaxLForm m sc d) s = execVmaxLForm m sc d s := rfl
theorem exec_vandLForm m sc d (s : State) : exec (.vandLForm m sc d) s = execVandLForm m sc d s := rfl
theorem exec_vorLForm m sc d (s : State) : exec (.vorLForm m sc d) s = execVorLForm m sc d s := rfl
theorem exec_vxorLForm m sc d (s : State) : exec (.vxorLForm m sc d) s = execVxorLForm m sc d s := rfl
theorem exec_vshlLForm m sc d (s : State) : exec (.vshlLForm m sc d) s = execVshlLForm m sc d s := rfl
theorem exec_vshrLForm m sc d (s : State) : exec (.vshrLForm m sc d) s = execVshrLForm m sc d s := rfl
theorem exec_vsarLForm m sc d (s : State) : exec (.vsarLForm m sc d) s = execVsarLForm m sc d s := rfl
theorem exec_vmovLForm m sc d (s : State) : exec (.vmovLForm m sc d) s = execVmovLForm m sc d s := rfl
theorem exec_vnegLForm m sc d (s : State) : exec (.vnegLForm m sc d) s = execVnegLForm m sc d s := rfl
theorem exec_vabsLForm m sc d (s : State) : exec (.vabsLForm m sc d) s = execVabsLForm m sc d s := rfl
theorem exec_vrsubLForm m sc d (s : State) : exec (.vrsubLForm m sc d) s = execVrsubLForm m sc d s := rfl
theorem exec_vxchgLForm m sc d (s : State) : exec (.vxchgLForm m sc d) s = execVxchgLForm m sc d s := rfl
theorem exec_vfma m r b a d (s : State) : exec (.vfma m r b a d) s = execVfma m r b a d s := rfl
theorem exec_vfms m r b a d (s : State) : exec (.vfms m r b a d) s = execVfms m r b a d s := rfl
theorem exec_vfnma m r b a d (s : State) : exec (.vfnma m r b a d) s = execVfnma m r b a d s := rfl
theorem exec_vfnms m r b a d (s : State) : exec (.vfnms m r b a d) s = execVfnms m r b a d s := rfl
theorem exec_vwadd m r b a d (s : State) : exec (.vwadd m r b a d) s = execVwadd m r b a d s := rfl
theorem exec_vwsub m r b a d (s : State) : exec (.vwsub m r b a d) s = execVwsub m r b a d s := rfl
theorem exec_vwmul m r b a d (s : State) : exec (.vwmul m r b a d) s = execVwmul m r b a d s := rfl
theorem exec_vwmac m r b a d (s : State) : exec (.vwmac m r b a d) s = execVwmac m r b a d s := rfl
theorem exec_vqmac m r b a d (s : State) : exec (.vqmac m r b a d) s = execVqmac m r b a d s := rfl
theorem exec_vnshr m r b a d (s : State) : exec (.vnshr m r b a d) s = execVnshr m r b a d s := rfl
theorem exec_vcvt m x r t a d (s : State) : exec (.vcvt m x r t a d) s = execVcvt m x r t a d s := rfl
theorem exec_vcvtw m x r t a d (s : State) : exec (.vcvtw m x r t a d) s = execVcvtw m x r t a d s := rfl
theorem exec_vcvtn m x r t a d (s : State) : exec (.vcvtn m x r t a d) s = execVcvtn m x r t a d s := rfl
theorem exec_vcmpEq m b a d (s : State) : exec (.vcmpEq m b a d) s = execVcmpEq m b a d s := rfl
theorem exec_vcmpNe m b a d (s : State) : exec (.vcmpNe m b a d) s = execVcmpNe m b a d s := rfl
theorem exec_vcmpLt m b a d (s : State) : exec (.vcmpLt m b a d) s = execVcmpLt m b a d s := rfl
theorem exec_vcmpLe m b a d (s : State) : exec (.vcmpLe m b a d) s = execVcmpLe m b a d s := rfl
theorem exec_vcmpGt m b a d (s : State) : exec (.vcmpGt m b a d) s = execVcmpGt m b a d s := rfl
theorem exec_vcmpGe m b a d (s : State) : exec (.vcmpGe m b a d) s = execVcmpGe m b a d s := rfl
theorem exec_vcmpLtn m b a d (s : State) : exec (.vcmpLtn m b a d) s = execVcmpLtn m b a d s := rfl
theorem exec_vcmpGen m b a d (s : State) : exec (.vcmpGen m b a d) s = execVcmpGen m b a d s := rfl
theorem exec_mand b a d (s : State) : exec (.mand b a d) s = execMand b a d s := rfl
theorem exec_mor b a d (s : State) : exec (.mor b a d) s = execMor b a d s := rfl
theorem exec_mxor b a d (s : State) : exec (.mxor b a d) s = execMxor b a d s := rfl
theorem exec_mnot a d (s : State) : exec (.mnot a d) s = execMnot a d s := rfl
theorem exec_mpop a d (s : State) : exec (.mpop a d) s = execMpop a d s := rfl
theorem exec_mfirst a d (s : State) : exec (.mfirst a d) s = execMfirst a d s := rfl
theorem exec_mfill a d (s : State) : exec (.mfill a d) s = execMfill a d s := rfl
theorem exec_vsel b a d (s : State) : exec (.vsel b a d) s = execVsel b a d s := rfl
theorem exec_vrsum m r a d (s : State) : exec (.vrsum m r a d) s = execVrsum m r a d s := rfl
theorem exec_vrmax m r a d (s : State) : exec (.vrmax m r a d) s = execVrmax m r a d s := rfl
theorem exec_vrmin m r a d (s : State) : exec (.vrmin m r a d) s = execVrmin m r a d s := rfl
theorem exec_vrand m r a d (s : State) : exec (.vrand m r a d) s = execVrand m r a d s := rfl
theorem exec_vror m r a d (s : State) : exec (.vror m r a d) s = execVror m r a d s := rfl
theorem exec_vrxor m r a d (s : State) : exec (.vrxor m r a d) s = execVrxor m r a d s := rfl
theorem exec_vperm m b a d (s : State) : exec (.vperm m b a d) s = execVperm m b a d s := rfl
theorem exec_vslup m b a d (s : State) : exec (.vslup m b a d) s = execVslup m b a d s := rfl
theorem exec_vsldn m b a d (s : State) : exec (.vsldn m b a d) s = execVsldn m b a d s := rfl
theorem exec_vbcast m a d (s : State) : exec (.vbcast m a d) s = execVbcast m a d s := rfl
theorem exec_vext m b a d (s : State) : exec (.vext m b a d) s = execVext m b a d s := rfl
theorem exec_vins m b a d (s : State) : exec (.vins m b a d) s = execVins m b a d s := rfl
theorem exec_vzip m b a d (s : State) : exec (.vzip m b a d) s = execVzip m b a d s := rfl
theorem exec_vunzip m b a d (s : State) : exec (.vunzip m b a d) s = execVunzip m b a d s := rfl
theorem exec_vcomp m a d (s : State) : exec (.vcomp m a d) s = execVcomp m a d s := rfl
theorem exec_qnt r la t a d (s : State) : exec (.qnt r la t a d) s = execQnt r la t a d s := rfl
theorem exec_dqnt r la t a d (s : State) : exec (.dqnt r la t a d) s = execDqnt r la t a d s := rfl
theorem exec_vld m la b a d (s : State) : exec (.vld m la b a d) s = execVld m la b a d s := rfl
theorem exec_vst m la b a d (s : State) : exec (.vst m la b a d) s = execVst m la b a d s := rfl
theorem exec_vlds m la b a d (s : State) : exec (.vlds m la b a d) s = execVlds m la b a d s := rfl
theorem exec_vsts m la b a d (s : State) : exec (.vsts m la b a d) s = execVsts m la b a d s := rfl
theorem exec_vldx m la b a d (s : State) : exec (.vldx m la b a d) s = execVldx m la b a d s := rfl
theorem exec_vstx m la b a d (s : State) : exec (.vstx m la b a d) s = execVstx m la b a d s := rfl
theorem exec_vldf m la b a d (s : State) : exec (.vldf m la b a d) s = execVldf m la b a d s := rfl
theorem exec_vstf m la b a d (s : State) : exec (.vstf m la b a d) s = execVstf m la b a d s := rfl
theorem exec_vldPost m la a d (s : State) : exec (.vldPost m la a d) s = execVldPost m la a d s := rfl
theorem exec_vstPost m la a d (s : State) : exec (.vstPost m la a d) s = execVstPost m la a d s := rfl
theorem exec_vldfPost m la b a d (s : State) : exec (.vldfPost m la b a d) s = execVldfPost m la b a d s := rfl
theorem exec_vstfPost m la b a d (s : State) : exec (.vstfPost m la b a d) s = execVstfPost m la b a d s := rfl
theorem exec_sbind a d (s : State) : exec (.sbind a d) s = execSbind a d s := rfl
theorem exec_qbind b d (s : State) : exec (.qbind b d) s = execQbind b d s := rfl
theorem exec_unbind d (s : State) : exec (.unbind d) s = execUnbind d s := rfl
theorem exec_qctl a d (s : State) : exec (.qctl a d) s = execQctl a d s := rfl
theorem exec_hset a d (s : State) : exec (.hset a d) s = execHset a d s := rfl
theorem exec_cpy h t b a d (s : State) : exec (.cpy h t b a d) s = execCpy h t b a d s := rfl
theorem exec_cpyG h t b (s : State) : exec (.cpyG h t b) s = execCpyG h t b s := rfl
theorem exec_cpyS h t b (s : State) : exec (.cpyS h t b) s = execCpyS h t b s := rfl
theorem exec_cwaitAny a d (s : State) : exec (.cwaitAny a d) s = execCwaitAny a d s := rfl
theorem exec_cwaitAll a (s : State) : exec (.cwaitAll a) s = execCwaitAll a s := rfl
theorem exec_cfind a d (s : State) : exec (.cfind a d) s = execCfind a d s := rfl
theorem exec_evk b a (s : State) : exec (.evk b a) s = execEvk b a s := rfl
theorem exec_kick b a d (s : State) : exec (.kick b a d) s = execKick b a d s := rfl
theorem exec_mwld o (s : State) : exec (.mwld o) s = execMwld o s := rfl
theorem exec_mtile o d (s : State) : exec (.mtile o d) s = execMtile o d s := rfl
theorem exec_mdrain o d (s : State) : exec (.mdrain o d) s = execMdrain o d s := rfl
theorem exec_mset o a (s : State) : exec (.mset o a) s = execMset o a s := rfl
theorem exec_mwait (s : State) : exec (.mwait) s = execMwait s := rfl
theorem exec_mred a (s : State) : exec (.mred a) s = execMred a s := rfl
theorem exec_mresume (s : State) : exec (.mresume) s = execMresume s := rfl
theorem exec_mlay o a (s : State) : exec (.mlay o a) s = execMlay o a s := rfl
theorem exec_mclr d (s : State) : exec (.mclr d) s = execMclr d s := rfl
theorem exec_mstat d (s : State) : exec (.mstat d) s = execMstat d s := rfl
theorem exec_pload b a (s : State) : exec (.pload b a) s = execPload b a s := rfl
theorem exec_pbind b a (s : State) : exec (.pbind b a) s = execPbind b a s := rfl
theorem exec_pbindT b a (s : State) : exec (.pbindT b a) s = execPbindT b a s := rfl
theorem exec_pstat b d (s : State) : exec (.pstat b d) s = execPstat b d s := rfl
theorem exec_vreg a d (s : State) : exec (.vreg a d) s = execVreg a d s := rfl
theorem exec_vdrop a (s : State) : exec (.vdrop a) s = execVdrop a s := rfl
theorem exec_vsync a (s : State) : exec (.vsync a) s = execVsync a s := rfl
theorem exec_vstat b a d (s : State) : exec (.vstat b a d) s = execVstat b a d s := rfl
theorem exec_vpol b a d (s : State) : exec (.vpol b a d) s = execVpol b a d s := rfl
theorem exec_stRep b a d (s : State) : exec (.stRep b a d) s = execStRep b a d s := rfl
theorem exec_reconf a d (s : State) : exec (.reconf a d) s = execReconf a d s := rfl
theorem exec_cgjoin a d (s : State) : exec (.cgjoin a d) s = execCgjoin a d s := rfl
theorem exec_cgleave a (s : State) : exec (.cgleave a) s = execCgleave a s := rfl
theorem exec_coll b a d (s : State) : exec (.coll b a d) s = execColl b a d s := rfl
theorem exec_clogr b a d (s : State) : exec (.clogr b a d) s = execClogr b a d s := rfl
theorem exec_ctake (s : State) : exec (.ctake) s = execCtake s := rfl
theorem exec_cstart a (s : State) : exec (.cstart a) s = execCstart a s := rfl
theorem exec_kldi im d (s : State) : exec (.kldi im d) s = execKldi im d s := rfl
theorem exec_kaddi im a d (s : State) : exec (.kaddi im a d) s = execKaddi im a d s := rfl
theorem exec_kadd b a d (s : State) : exec (.kadd b a d) s = execKadd b a d s := rfl
theorem exec_ksub b a d (s : State) : exec (.ksub b a d) s = execKsub b a d s := rfl
theorem exec_kmul b a d (s : State) : exec (.kmul b a d) s = execKmul b a d s := rfl
theorem exec_kdiv b a d (s : State) : exec (.kdiv b a d) s = execKdiv b a d s := rfl
theorem exec_kmod b a d (s : State) : exec (.kmod b a d) s = execKmod b a d s := rfl
theorem exec_kmin b a d (s : State) : exec (.kmin b a d) s = execKmin b a d s := rfl
theorem exec_kmax b a d (s : State) : exec (.kmax b a d) s = execKmax b a d s := rfl
theorem exec_kshr im a d (s : State) : exec (.kshr im a d) s = execKshr im a d s := rfl
theorem exec_khash b a d (s : State) : exec (.khash b a d) s = execKhash b a d s := rfl
theorem exec_kldp im d (s : State) : exec (.kldp im d) s = execKldp im d s := rfl
theorem exec_kemit b a (s : State) : exec (.kemit b a) s = execKemit b a s := rfl
theorem exec_kblt b im a (s : State) : exec (.kblt b im a) s = execKblt b im a s := rfl
theorem exec_kloop im a (s : State) : exec (.kloop im a) s = execKloop im a s := rfl
theorem exec_kend (s : State) : exec (.kend) s = execKend s := rfl
theorem exec_pairComparison (s : State) : exec (.pairComparison) s = execPairComparison s := rfl
theorem exec_migrationMessageArrival (s : State) : exec (.migrationMessageArrival) s = execMigrationMessageArrival s := rfl
theorem exec_migrationResend (s : State) : exec (.migrationResend) s = execMigrationResend s := rfl
theorem exec_arrivalContextGrant (s : State) : exec (.arrivalContextGrant) s = execArrivalContextGrant s := rfl
theorem exec_activeMessageArrival (s : State) : exec (.activeMessageArrival) s = execActiveMessageArrival s := rfl
theorem exec_amsgReply (s : State) : exec (.amsgReply) s = execAmsgReply s := rfl
theorem exec_decArrival (s : State) : exec (.decArrival) s = execDecArrival s := rfl
theorem exec_taskSlotStart (s : State) : exec (.taskSlotStart) s = execTaskSlotStart s := rfl
theorem exec_meshPortWordArrival (s : State) : exec (.meshPortWordArrival) s = execMeshPortWordArrival s := rfl
theorem exec_queueElementArrival (s : State) : exec (.queueElementArrival) s = execQueueElementArrival s := rfl
theorem exec_streamElementFetch (s : State) : exec (.streamElementFetch) s = execStreamElementFetch s := rfl
theorem exec_streamElementWrite (s : State) : exec (.streamElementWrite) s = execStreamElementWrite s := rfl
theorem exec_copyCompletion (s : State) : exec (.copyCompletion) s = execCopyCompletion s := rfl
theorem exec_copyStop (s : State) : exec (.copyStop) s = execCopyStop s := rfl
theorem exec_hartRestart (s : State) : exec (.hartRestart) s = execHartRestart s := rfl
theorem exec_matrixCommandTake (s : State) : exec (.matrixCommandTake) s = execMatrixCommandTake s := rfl
theorem exec_matrixCommandComplete (s : State) : exec (.matrixCommandComplete) s = execMatrixCommandComplete s := rfl
theorem exec_matrixResumableStop (s : State) : exec (.matrixResumableStop) s = execMatrixResumableStop s := rfl
theorem exec_preemption (s : State) : exec (.preemption) s = execPreemption s := rfl
theorem exec_preemptionSaveComplete (s : State) : exec (.preemptionSaveComplete) s = execPreemptionSaveComplete s := rfl
theorem exec_restore (s : State) : exec (.restore) s = execRestore s := rfl
theorem exec_retryResend (s : State) : exec (.retryResend) s = execRetryResend s := rfl
theorem exec_heldStrandRelease (s : State) : exec (.heldStrandRelease) s = execHeldStrandRelease s := rfl
theorem exec_heldStrandEnd (s : State) : exec (.heldStrandEnd) s = execHeldStrandEnd s := rfl
theorem exec_l1Fill (s : State) : exec (.l1Fill) s = execL1Fill s := rfl
theorem exec_ownershipGrant (s : State) : exec (.ownershipGrant) s = execOwnershipGrant s := rfl
theorem exec_forwardedRead (s : State) : exec (.forwardedRead) s = execForwardedRead s := rfl
theorem exec_forwardedOwnership (s : State) : exec (.forwardedOwnership) s = execForwardedOwnership s := rfl
theorem exec_recallRange (s : State) : exec (.recallRange) s = execRecall s := rfl
theorem exec_recordDeletion (s : State) : exec (.recordDeletion) s = execRecordDeletion s := rfl
theorem exec_l1UncorrectableError (s : State) : exec (.l1UncorrectableError) s = execL1UncorrectableError s := rfl
theorem exec_directoryError (s : State) : exec (.directoryError) s = execDirectoryError s := rfl
theorem exec_recallTimeout (s : State) : exec (.recallTimeout) s = execRecallTimeout s := rfl
theorem exec_translationWalk (s : State) : exec (.translationWalk) s = execTranslationWalk s := rfl
theorem exec_leaseExpiry (s : State) : exec (.leaseExpiry) s = execLeaseExpiry s := rfl
theorem exec_patrolScrub (s : State) : exec (.patrolScrub) s = execPatrolScrub s := rfl
theorem exec_announcementWindowClose (s : State) : exec (.announcementWindowClose) s = execAnnouncementWindowClose s := rfl
theorem exec_announcementDelivery (s : State) : exec (.announcementDelivery) s = execAnnouncementDelivery s := rfl
theorem exec_phaseStep (s : State) : exec (.phaseStep) s = execPhaseStep s := rfl
theorem exec_impressionPass (s : State) : exec (.impressionPass) s = execImpressionPass s := rfl
theorem exec_blockRecomputation (s : State) : exec (.blockRecomputation) s = execBlockRecomputation s := rfl
theorem exec_bar2Write (s : State) : exec (.bar2Write) s = execBar2Write s := rfl
theorem exec_bar2Read (s : State) : exec (.bar2Read) s = execBar2Read s := rfl
theorem exec_hostWindowRequest (s : State) : exec (.hostWindowRequest) s = execHostWindowRequest s := rfl
theorem exec_backInvalidation (s : State) : exec (.backInvalidation) s = execBackInvalidation s := rfl
theorem exec_launchRingEntry (s : State) : exec (.launchRingEntry) s = execLaunchRingEntry s := rfl
theorem exec_eventRingWrite (s : State) : exec (.eventRingWrite) s = execEventRingWrite s := rfl
theorem exec_winbaseWrite (s : State) : exec (.winbaseWrite) s = execWinbaseWrite s := rfl
theorem exec_eqbaseWrite (s : State) : exec (.eqbaseWrite) s = execEqbaseWrite s := rfl
theorem exec_eqsizeWrite (s : State) : exec (.eqsizeWrite) s = execEqsizeWrite s := rfl
theorem exec_eqheadWrite (s : State) : exec (.eqheadWrite) s = execEqheadWrite s := rfl
theorem exec_lqbaseWrite (s : State) : exec (.lqbaseWrite) s = execLqbaseWrite s := rfl
theorem exec_lqsizeWrite (s : State) : exec (.lqsizeWrite) s = execLqsizeWrite s := rfl
theorem exec_lqtailWrite (s : State) : exec (.lqtailWrite) s = execLqtailWrite s := rfl
theorem exec_lqtenWrite (s : State) : exec (.lqtenWrite) s = execLqtenWrite s := rfl
theorem exec_attnWrite (s : State) : exec (.attnWrite) s = execAttnWrite s := rfl
theorem exec_managementRegisterWrite (s : State) : exec (.managementRegisterWrite) s = execManagementRegisterWrite s := rfl
theorem exec_bindRecordCommit (s : State) : exec (.bindRecordCommit) s = execBindRecordCommit s := rfl
theorem exec_bindRecordEmpty (s : State) : exec (.bindRecordEmpty) s = execBindRecordEmpty s := rfl
theorem exec_boundsRecordWrite (s : State) : exec (.boundsRecordWrite) s = execBoundsRecordWrite s := rfl
theorem exec_startUp (s : State) : exec (.startUp) s = execStartUp s := rfl
theorem exec_flitReceive (s : State) : exec (.flitReceive) s = execFlitReceive s := rfl
theorem exec_frameReceive (s : State) : exec (.frameReceive) s = execFrameReceive s := rfl
theorem exec_acknowledgement (s : State) : exec (.acknowledgement) s = execAcknowledgement s := rfl
theorem exec_acknowledgementDue (s : State) : exec (.acknowledgementDue) s = execAcknowledgementDue s := rfl
theorem exec_replayRequest (s : State) : exec (.replayRequest) s = execReplayRequest s := rfl
theorem exec_replayTimeout (s : State) : exec (.replayTimeout) s = execReplayTimeout s := rfl
theorem exec_restripe (s : State) : exec (.restripe) s = execRestripe s := rfl
theorem exec_hello (s : State) : exec (.hello) s = execHello s := rfl
theorem exec_quiesce (s : State) : exec (.quiesce) s = execQuiesce s := rfl
theorem exec_wavelengthThreshold (s : State) : exec (.wavelengthThreshold) s = execWavelengthThreshold s := rfl
theorem exec_wavelengthTrained (s : State) : exec (.wavelengthTrained) s = execWavelengthTrained s := rfl
theorem exec_lossOfLight (s : State) : exec (.lossOfLight) s = execLossOfLight s := rfl
theorem exec_lightReturn (s : State) : exec (.lightReturn) s = execLightReturn s := rfl
theorem exec_keyLoad (s : State) : exec (.keyLoad) s = execKeyLoad s := rfl
theorem exec_downListWrite (s : State) : exec (.downListWrite) s = execDownListWrite s := rfl
theorem exec_remoteRequest (s : State) : exec (.remoteRequest) s = execRemoteRequest s := rfl
theorem exec_remoteResponse (s : State) : exec (.remoteResponse) s = execRemoteResponse s := rfl
theorem exec_copyWritePacket (s : State) : exec (.copyWritePacket) s = execCopyWritePacket s := rfl
theorem exec_copyWriteResponse (s : State) : exec (.copyWriteResponse) s = execCopyWriteResponse s := rfl
theorem exec_reconfDrainComplete (s : State) : exec (.reconfDrainComplete) s = execReconfDrainComplete s := rfl
theorem exec_switchStatus (s : State) : exec (.switchStatus) s = execSwitchStatus s := rfl
theorem exec_switchStatusTimeout (s : State) : exec (.switchStatusTimeout) s = execSwitchStatusTimeout s := rfl
theorem exec_reconfTrainingComplete (s : State) : exec (.reconfTrainingComplete) s = execReconfTrainingComplete s := rfl
theorem exec_reconfTimeout (s : State) : exec (.reconfTimeout) s = execReconfTimeout s := rfl
theorem exec_groupActive (s : State) : exec (.groupActive) s = execGroupActive s := rfl
theorem exec_joinTimeout (s : State) : exec (.joinTimeout) s = execJoinTimeout s := rfl
theorem exec_collectiveContribution (s : State) : exec (.collectiveContribution) s = execCollectiveContribution s := rfl
theorem exec_memberTimeout (s : State) : exec (.memberTimeout) s = execMemberTimeout s := rfl
theorem exec_collectiveCompletion (s : State) : exec (.collectiveCompletion) s = execCollectiveCompletion s := rfl
theorem exec_uncorrectableCoreError (s : State) : exec (.uncorrectableCoreError) s = execUncorrectableCoreError s := rfl
theorem exec_hbmUncorrectableError (s : State) : exec (.hbmUncorrectableError) s = execHbmUncorrectableError s := rfl
theorem exec_cxlCacheResponse (s : State) : exec (.cxlCacheResponse) s = execCxlCacheResponse s := rfl
theorem exec_fibrePinWrite (s : State) : exec (.fibrePinWrite) s = execFibrePinWrite s := rfl
theorem exec_wavelengthThresholdWrite (s : State) : exec (.wavelengthThresholdWrite) s = execWavelengthThresholdWrite s := rfl

end Sys2Proof.Machine
end

