-- ==== Sys2Proof/Laws/Lanes.lean ====
section
/-! SUPPORT. Numbers packed side by side: lanes of a word, elements of a vector register. -/

namespace Sys2Proof.Machine

/-- Numbers of w bits packed, the first lowest. -/
def packed (w : Nat) (es : List Nat) : Nat := es.foldr (fun e a => e % 2 ^ w + 2 ^ w * a) 0

theorem packed_lt (w : Nat) (es : List Nat) : packed w es < 2 ^ (w * es.length) := by
  induction es with
  | nil => simp [packed]
  | cons e t ih =>
    have h1 : e % 2 ^ w < 2 ^ w := Nat.mod_lt _ (Nat.two_pow_pos w)
    have h2 : packed w (e :: t) = e % 2 ^ w + 2 ^ w * packed w t := rfl
    rw [h2, List.length_cons, Nat.mul_succ, Nat.pow_add, Nat.mul_comm (2 ^ (w * t.length))]
    calc e % 2 ^ w + 2 ^ w * packed w t < 2 ^ w + 2 ^ w * packed w t := by omega
      _ = 2 ^ w * (packed w t + 1) := by rw [Nat.mul_add, Nat.mul_one, Nat.add_comm]
      _ ≤ 2 ^ w * 2 ^ (w * t.length) := Nat.mul_le_mul_left _ ih

theorem packed_get (w : Nat) : ∀ (es : List Nat) (i : Nat), i < es.length → packed w es / 2 ^ (w * i) % 2 ^ w = es.getD i 0 % 2 ^ w
  | [], i, h => absurd h (by simp)
  | e :: t, 0, _ => by
    show (e % 2 ^ w + 2 ^ w * packed w t) / 2 ^ (w * 0) % 2 ^ w = _
    simp [Nat.add_mul_mod_self_left]
  | e :: t, i + 1, h => by
    have h1 : (e % 2 ^ w + 2 ^ w * packed w t) / 2 ^ w = packed w t := by
      rw [Nat.add_mul_div_left _ _ (Nat.two_pow_pos w), Nat.div_eq_of_lt (Nat.mod_lt _ (Nat.two_pow_pos w)), Nat.zero_add]
    show (e % 2 ^ w + 2 ^ w * packed w t) / 2 ^ (w * (i + 1)) % 2 ^ w = _
    rw [Nat.mul_succ, Nat.add_comm (w * i), Nat.pow_add, ← Nat.div_div_eq_div_mul, h1, packed_get w t i (by simpa using h)]
    rfl

/-- Element i of a register made of its elements. -/
theorem elemOf_vecOf {w : Nat} {es : List Nat} {i : Nat} (hl : w * es.length ≤ 4096) (hi : i < es.length) :
    elemOf (vecOf w es) w i = es.getD i 0 % 2 ^ w := by
  have h : packed w es < 2 ^ 4096 := Nat.lt_of_lt_of_le (packed_lt w es) (Nat.pow_le_pow_right (by omega) hl)
  show (BitVec.ofNat 4096 (packed w es)).toNat / 2 ^ (w * i) % 2 ^ w = _
  rw [BitVec.toNat_ofNat, Nat.mod_eq_of_lt h, packed_get w es i hi]

end Sys2Proof.Machine
end

