-- ==== Sys2Proof/Laws/PerInstr.lean ====
section
/-! SUPPORT. RoundTrip: the word of every instruction, read by the decoder's tables, is that instruction, with every
operand at every value; one lemma for each constructor. -/

namespace Sys2Proof.Laws.RoundTrip

set_option Elab.async false

open Sys2Proof

/-- A word of n bytes read by the tables of 16-bit words, of 32-bit words, and, where no agent but a generator runs it, of
pattern words. -/
noncomputable def readsAs (n w : Nat) : Option Instr :=
  if n = 2 then raw16 w
  else
    match raw32 w with
    | some i => some i
    | none => rawPattern w

/-- The number of an instruction's word fits its bytes, says its length by its lowest bit, and reads as the instruction; an
event has no word. -/
def Statement (i : Instr) : Prop :=
  (encodeNat i).2 = 0 ∨
    ((encodeNat i).1 < 2 ^ (8 * (encodeNat i).2) ∧ (encodeNat i).1 % 2 = (if (encodeNat i).2 = 4 then 1 else 0) ∧
      readsAs (encodeNat i).2 (encodeNat i).1 = some i)

/-! ### Fields of a word put together from its parts, lowest first -/

theorem fld_skip {x y k n v : Nat} (lo : Nat) (h : x < 2 ^ k) (hy : fld y lo n = v) : fld (x + 2 ^ k * y) (k + lo) n = v := by
  unfold fld at *
  rw [Nat.pow_add, ← Nat.div_div_eq_div_mul, Nat.add_mul_div_left _ _ (Nat.two_pow_pos k), Nat.div_eq_of_lt h, Nat.zero_add, hy]

theorem fld_here {x y n : Nat} (h : x < 2 ^ n) : fld (x + 2 ^ n * y) 0 n = x := by
  unfold fld
  rw [Nat.pow_zero, Nat.div_one, Nat.add_mul_mod_self_left, Nat.mod_eq_of_lt h]

theorem fld_all {x n : Nat} (h : x < 2 ^ n) : fld x 0 n = x := by
  unfold fld
  rw [Nat.pow_zero, Nat.div_one, Nat.mod_eq_of_lt h]

theorem under {x y k m : Nat} (hx : x < 2 ^ k) (hy : y < 2 ^ m) : x + 2 ^ k * y < 2 ^ (k + m) := by
  rw [Nat.pow_add]
  calc x + 2 ^ k * y < 2 ^ k + 2 ^ k * y := by omega
    _ = 2 ^ k * (y + 1) := by rw [Nat.mul_add, Nat.mul_one, Nat.add_comm]
    _ ≤ 2 ^ k * 2 ^ m := Nat.mul_le_mul_left _ hy

theorem odd_low (x y : Nat) (h : x % 2 = 1 := by decide) : (x + 2 ^ 8 * y) % 2 = if 4 = 4 then 1 else 0 := by
  simp; omega

theorem even_low (x y : Nat) (h : x % 2 = 0 := by decide) : (x + 2 ^ 5 * y) % 2 = if 2 = 4 then 1 else 0 := by
  simp; omega

theorem word_eq {p : Nat × Nat} {N M n : Nat} (hN : N = M) (h : p.1 = M) (hn : p.2 = n := by rfl) : p = (N, n) :=
  Prod.ext (h.trans hN.symm) hn

theorem of_word {i : Instr} {N n : Nat} (h : encodeNat i = (N, n)) (hb : N < 2 ^ (8 * n)) (hp : N % 2 = if n = 4 then 1 else 0)
    (hr : readsAs n N = some i) : Statement i := by
  unfold Statement
  rw [h]
  exact .inr ⟨hb, hp, hr⟩

theorem read03 {w : Nat} {i : Instr} (h : fld w 0 8 = 0x03) (hr : raw03 w = some i) : readsAs 4 w = some i := by
  have h1 : raw32 w = some i := by unfold raw32; rw [h]; exact hr
  simp [readsAs, h1]

theorem read05 {w : Nat} {i : Instr} (h : fld w 0 8 = 0x05) (hr : raw05 w = some i) : readsAs 4 w = some i := by
  have h1 : raw32 w = some i := by unfold raw32; rw [h]; exact hr
  simp [readsAs, h1]

theorem read07 {w : Nat} {i : Instr} (h : fld w 0 8 = 0x07) (hr : raw07 w = some i) : readsAs 4 w = some i := by
  have h1 : raw32 w = some i := by unfold raw32; rw [h]; exact hr
  simp [readsAs, h1]

theorem read09 {w : Nat} {i : Instr} (h : fld w 0 8 = 0x09) (hr : raw09 w = some i) : readsAs 4 w = some i := by
  have h1 : raw32 w = some i := by unfold raw32; rw [h]; exact hr
  simp [readsAs, h1]

theorem read0B {w : Nat} {i : Instr} (h : fld w 0 8 = 0x0B) (hr : raw0B w = some i) : readsAs 4 w = some i := by
  have h1 : raw32 w = some i := by unfold raw32; rw [h]; exact hr
  simp [readsAs, h1]

theorem read0D {w : Nat} {i : Instr} (h : fld w 0 8 = 0x0D) (hr : raw0D w = some i) : readsAs 4 w = some i := by
  have h1 : raw32 w = some i := by unfold raw32; rw [h]; exact hr
  simp [readsAs, h1]

theorem read11 {w : Nat} {i : Instr} (h : fld w 0 8 = 0x11) (hr : raw11 w = some i) : readsAs 4 w = some i := by
  have h1 : raw32 w = some i := by unfold raw32; rw [h]; exact hr
  simp [readsAs, h1]

theorem read13 {w : Nat} {i : Instr} (h : fld w 0 8 = 0x13) (hr : raw13 w = some i) : readsAs 4 w = some i := by
  have h1 : raw32 w = some i := by unfold raw32; rw [h]; exact hr
  simp [readsAs, h1]

theorem read15 {w : Nat} {i : Instr} (h : fld w 0 8 = 0x15) (hr : raw15 w = some i) : readsAs 4 w = some i := by
  have h1 : raw32 w = some i := by unfold raw32; rw [h]; exact hr
  simp [readsAs, h1]

theorem read17 {w : Nat} {i : Instr} (h : fld w 0 8 = 0x17) (hr : raw17 w = some i) : readsAs 4 w = some i := by
  have h1 : raw32 w = some i := by unfold raw32; rw [h]; exact hr
  simp [readsAs, h1]

theorem read19 {w : Nat} {i : Instr} (h : fld w 0 8 = 0x19) (hr : raw19 w = some i) : readsAs 4 w = some i := by
  have h1 : raw32 w = some i := by unfold raw32; rw [h]; exact hr
  simp [readsAs, h1]

theorem read21 {w : Nat} {i : Instr} (h : fld w 0 8 = 0x21) (hr : raw21 w = some i) : readsAs 4 w = some i := by
  have h1 : raw32 w = some i := by unfold raw32; rw [h]; exact hr
  simp [readsAs, h1]

theorem read23 {w : Nat} {i : Instr} (h : fld w 0 8 = 0x23) (hr : raw23 w = some i) : readsAs 4 w = some i := by
  have h1 : raw32 w = some i := by unfold raw32; rw [h]; exact hr
  simp [readsAs, h1]

theorem read25 {w : Nat} {i : Instr} (h : fld w 0 8 = 0x25) (hr : raw25 w = some i) : readsAs 4 w = some i := by
  have h1 : raw32 w = some i := by unfold raw32; rw [h]; exact hr
  simp [readsAs, h1]

theorem read27 {w : Nat} {i : Instr} (h : fld w 0 8 = 0x27) (hr : raw27 w = some i) : readsAs 4 w = some i := by
  have h1 : raw32 w = some i := by unfold raw32; rw [h]; exact hr
  simp [readsAs, h1]

theorem read29 {w : Nat} {i : Instr} (h : fld w 0 8 = 0x29) (hr : raw29 w = some i) : readsAs 4 w = some i := by
  have h1 : raw32 w = some i := by unfold raw32; rw [h]; exact hr
  simp [readsAs, h1]

theorem read2B {w : Nat} {i : Instr} (h : fld w 0 8 = 0x2B) (hr : raw2B w = some i) : readsAs 4 w = some i := by
  have h1 : raw32 w = some i := by unfold raw32; rw [h]; exact hr
  simp [readsAs, h1]

theorem read2D {w : Nat} {i : Instr} (h : fld w 0 8 = 0x2D) (hr : raw2D w = some i) : readsAs 4 w = some i := by
  have h1 : raw32 w = some i := by unfold raw32; rw [h]; exact hr
  simp [readsAs, h1]

theorem read31 {w : Nat} {i : Instr} (h : fld w 0 8 = 0x31) (hr : raw31 w = some i) : readsAs 4 w = some i := by
  have h1 : raw32 w = some i := by unfold raw32; rw [h]; exact hr
  simp [readsAs, h1]

theorem read33 {w : Nat} {i : Instr} (h : fld w 0 8 = 0x33) (hr : raw33 w = some i) : readsAs 4 w = some i := by
  have h1 : raw32 w = some i := by unfold raw32; rw [h]; exact hr
  simp [readsAs, h1]

theorem read35 {w : Nat} {i : Instr} (h : fld w 0 8 = 0x35) (hr : raw35 w = some i) : readsAs 4 w = some i := by
  have h1 : raw32 w = some i := by unfold raw32; rw [h]; exact hr
  simp [readsAs, h1]

theorem read37 {w : Nat} {i : Instr} (h : fld w 0 8 = 0x37) (hr : raw37 w = some i) : readsAs 4 w = some i := by
  have h1 : raw32 w = some i := by unfold raw32; rw [h]; exact hr
  simp [readsAs, h1]

theorem read41 {w : Nat} {i : Instr} (h : fld w 0 8 = 0x41) (hr : raw41 w = some i) : readsAs 4 w = some i := by
  have h1 : raw32 w = some i := by unfold raw32; rw [h]; exact hr
  simp [readsAs, h1]

theorem read43 {w : Nat} {i : Instr} (h : fld w 0 8 = 0x43) (hr : raw43 w = some i) : readsAs 4 w = some i := by
  have h1 : raw32 w = some i := by unfold raw32; rw [h]; exact hr
  simp [readsAs, h1]

theorem read45 {w : Nat} {i : Instr} (h : fld w 0 8 = 0x45) (hr : raw45 w = some i) : readsAs 4 w = some i := by
  have h1 : raw32 w = some i := by unfold raw32; rw [h]; exact hr
  simp [readsAs, h1]

theorem read47 {w : Nat} {i : Instr} (h : fld w 0 8 = 0x47) (hr : raw47 w = some i) : readsAs 4 w = some i := by
  have h1 : raw32 w = some i := by unfold raw32; rw [h]; exact hr
  simp [readsAs, h1]

theorem read49 {w : Nat} {i : Instr} (h : fld w 0 8 = 0x49) (hr : raw49 w = some i) : readsAs 4 w = some i := by
  have h1 : raw32 w = some i := by unfold raw32; rw [h]; exact hr
  simp [readsAs, h1]

theorem read4B {w : Nat} {i : Instr} (h : fld w 0 8 = 0x4B) (hr : raw4B w = some i) : readsAs 4 w = some i := by
  have h1 : raw32 w = some i := by unfold raw32; rw [h]; exact hr
  simp [readsAs, h1]

theorem read4D {w : Nat} {i : Instr} (h : fld w 0 8 = 0x4D) (hr : raw4D w = some i) : readsAs 4 w = some i := by
  have h1 : raw32 w = some i := by unfold raw32; rw [h]; exact hr
  simp [readsAs, h1]

theorem read51 {w : Nat} {i : Instr} (h : fld w 0 8 = 0x51) (hr : raw51 w = some i) : readsAs 4 w = some i := by
  have h1 : raw32 w = some i := by unfold raw32; rw [h]; exact hr
  simp [readsAs, h1]

theorem read53 {w : Nat} {i : Instr} (h : fld w 0 8 = 0x53) (hr : raw53 w = some i) : readsAs 4 w = some i := by
  have h1 : raw32 w = some i := by unfold raw32; rw [h]; exact hr
  simp [readsAs, h1]

theorem read55 {w : Nat} {i : Instr} (h : fld w 0 8 = 0x55) (hr : raw55 w = some i) : readsAs 4 w = some i := by
  have h1 : raw32 w = some i := by unfold raw32; rw [h]; exact hr
  simp [readsAs, h1]

theorem read57 {w : Nat} {i : Instr} (h : fld w 0 8 = 0x57) (hr : raw57 w = some i) : readsAs 4 w = some i := by
  have h1 : raw32 w = some i := by unfold raw32; rw [h]; exact hr
  simp [readsAs, h1]

theorem read59 {w : Nat} {i : Instr} (h : fld w 0 8 = 0x59) (hr : raw59 w = some i) : readsAs 4 w = some i := by
  have h1 : raw32 w = some i := by unfold raw32; rw [h]; exact hr
  simp [readsAs, h1]

theorem read5B {w : Nat} {i : Instr} (h : fld w 0 8 = 0x5B) (hr : raw5B w = some i) : readsAs 4 w = some i := by
  have h1 : raw32 w = some i := by unfold raw32; rw [h]; exact hr
  simp [readsAs, h1]

theorem read5D {w : Nat} {i : Instr} (h : fld w 0 8 = 0x5D) (hr : raw5D w = some i) : readsAs 4 w = some i := by
  have h1 : raw32 w = some i := by unfold raw32; rw [h]; exact hr
  simp [readsAs, h1]

theorem read5F {w : Nat} {i : Instr} (h : fld w 0 8 = 0x5F) (hr : raw5F w = some i) : readsAs 4 w = some i := by
  have h1 : raw32 w = some i := by unfold raw32; rw [h]; exact hr
  simp [readsAs, h1]

theorem read61 {w : Nat} {i : Instr} (h : fld w 0 8 = 0x61) (hr : raw61 w = some i) : readsAs 4 w = some i := by
  have h1 : raw32 w = some i := by unfold raw32; rw [h]; exact hr
  simp [readsAs, h1]

theorem read63 {w : Nat} {i : Instr} (h : fld w 0 8 = 0x63) (hr : raw63 w = some i) : readsAs 4 w = some i := by
  have h1 : raw32 w = some i := by unfold raw32; rw [h]; exact hr
  simp [readsAs, h1]

theorem read65 {w : Nat} {i : Instr} (h : fld w 0 8 = 0x65) (hr : raw65 w = some i) : readsAs 4 w = some i := by
  have h1 : raw32 w = some i := by unfold raw32; rw [h]; exact hr
  simp [readsAs, h1]

theorem read67 {w : Nat} {i : Instr} (h : fld w 0 8 = 0x67) (hr : raw67 w = some i) : readsAs 4 w = some i := by
  have h1 : raw32 w = some i := by unfold raw32; rw [h]; exact hr
  simp [readsAs, h1]

theorem read71 {w : Nat} {i : Instr} (h : fld w 0 8 = 0x71) (hr : raw71 w = some i) : readsAs 4 w = some i := by
  have h1 : raw32 w = some i := by unfold raw32; rw [h]; exact hr
  simp [readsAs, h1]

theorem read73 {w : Nat} {i : Instr} (h : fld w 0 8 = 0x73) (hr : raw73 w = some i) : readsAs 4 w = some i := by
  have h1 : raw32 w = some i := by unfold raw32; rw [h]; exact hr
  simp [readsAs, h1]

theorem read75 {w : Nat} {i : Instr} (h : fld w 0 8 = 0x75) (hr : raw75 w = some i) : readsAs 4 w = some i := by
  have h1 : raw32 w = some i := by unfold raw32; rw [h]; exact hr
  simp [readsAs, h1]

theorem read77 {w : Nat} {i : Instr} (h : fld w 0 8 = 0x77) (hr : raw77 w = some i) : readsAs 4 w = some i := by
  have h1 : raw32 w = some i := by unfold raw32; rw [h]; exact hr
  simp [readsAs, h1]

theorem read79 {w : Nat} {i : Instr} (h : fld w 0 8 = 0x79) (hr : raw79 w = some i) : readsAs 4 w = some i := by
  have h1 : raw32 w = some i := by unfold raw32; rw [h]; exact hr
  simp [readsAs, h1]

theorem read7B {w : Nat} {i : Instr} (h : fld w 0 8 = 0x7B) (hr : raw7B w = some i) : readsAs 4 w = some i := by
  have h1 : raw32 w = some i := by unfold raw32; rw [h]; exact hr
  simp [readsAs, h1]

theorem read7D {w : Nat} {i : Instr} (h : fld w 0 8 = 0x7D) (hr : raw7D w = some i) : readsAs 4 w = some i := by
  have h1 : raw32 w = some i := by unfold raw32; rw [h]; exact hr
  simp [readsAs, h1]

theorem read7F {w : Nat} {i : Instr} (h : fld w 0 8 = 0x7F) (hr : raw7F w = some i) : readsAs 4 w = some i := by
  have h1 : raw32 w = some i := by unfold raw32; rw [h]; exact hr
  simp [readsAs, h1]

theorem read81 {w : Nat} {i : Instr} (h : fld w 0 8 = 0x81) (hr : raw81 w = some i) : readsAs 4 w = some i := by
  have h1 : raw32 w = some i := by unfold raw32; rw [h]; exact hr
  simp [readsAs, h1]

theorem read83 {w : Nat} {i : Instr} (h : fld w 0 8 = 0x83) (hr : raw83 w = some i) : readsAs 4 w = some i := by
  have h1 : raw32 w = some i := by unfold raw32; rw [h]; exact hr
  simp [readsAs, h1]

theorem read85 {w : Nat} {i : Instr} (h : fld w 0 8 = 0x85) (hr : raw85 w = some i) : readsAs 4 w = some i := by
  have h1 : raw32 w = some i := by unfold raw32; rw [h]; exact hr
  simp [readsAs, h1]

theorem read91 {w : Nat} {i : Instr} (h : fld w 0 8 = 0x91) (hr : raw91 w = some i) : readsAs 4 w = some i := by
  have h1 : raw32 w = some i := by unfold raw32; rw [h]; exact hr
  simp [readsAs, h1]

theorem read93 {w : Nat} {i : Instr} (h : fld w 0 8 = 0x93) (hr : raw93 w = some i) : readsAs 4 w = some i := by
  have h1 : raw32 w = some i := by unfold raw32; rw [h]; exact hr
  simp [readsAs, h1]

theorem read95 {w : Nat} {i : Instr} (h : fld w 0 8 = 0x95) (hr : raw95 w = some i) : readsAs 4 w = some i := by
  have h1 : raw32 w = some i := by unfold raw32; rw [h]; exact hr
  simp [readsAs, h1]

theorem read97 {w : Nat} {i : Instr} (h : fld w 0 8 = 0x97) (hr : raw97 w = some i) : readsAs 4 w = some i := by
  have h1 : raw32 w = some i := by unfold raw32; rw [h]; exact hr
  simp [readsAs, h1]

theorem read99 {w : Nat} {i : Instr} (h : fld w 0 8 = 0x99) (hr : raw99 w = some i) : readsAs 4 w = some i := by
  have h1 : raw32 w = some i := by unfold raw32; rw [h]; exact hr
  simp [readsAs, h1]

theorem read9B {w : Nat} {i : Instr} (h : fld w 0 8 = 0x9B) (hr : raw9B w = some i) : readsAs 4 w = some i := by
  have h1 : raw32 w = some i := by unfold raw32; rw [h]; exact hr
  simp [readsAs, h1]

theorem readE1 {w : Nat} {i : Instr} (h : fld w 0 8 = 0xE1) (hr : rawE1 w = some i) : readsAs 4 w = some i := by
  have h1 : raw32 w = none := by unfold raw32; rw [h]; rfl
  have h2 : rawPattern w = some i := by unfold rawPattern; rw [h]; exact hr
  simp [readsAs, h1, h2]

theorem readE3 {w : Nat} {i : Instr} (h : fld w 0 8 = 0xE3) (hr : rawE3 w = some i) : readsAs 4 w = some i := by
  have h1 : raw32 w = none := by unfold raw32; rw [h]; rfl
  have h2 : rawPattern w = some i := by unfold rawPattern; rw [h]; exact hr
  simp [readsAs, h1, h2]

theorem readE5 {w : Nat} {i : Instr} (h : fld w 0 8 = 0xE5) (hr : rawE5 w = some i) : readsAs 4 w = some i := by
  have h1 : raw32 w = none := by unfold raw32; rw [h]; rfl
  have h2 : rawPattern w = some i := by unfold rawPattern; rw [h]; exact hr
  simp [readsAs, h1, h2]

theorem readE7 {w : Nat} {i : Instr} (h : fld w 0 8 = 0xE7) (hr : rawE7 w = some i) : readsAs 4 w = some i := by
  have h1 : raw32 w = none := by unfold raw32; rw [h]; rfl
  have h2 : rawPattern w = some i := by unfold rawPattern; rw [h]; exact hr
  simp [readsAs, h1, h2]

theorem readEB {w : Nat} {i : Instr} (h : fld w 0 8 = 0xEB) (hr : rawEB w = some i) : readsAs 4 w = some i := by
  have h1 : raw32 w = some i := by unfold raw32; rw [h]; exact hr
  simp [readsAs, h1]

theorem addR (w : BitVec 2) (b : BitVec 5) (a : BitVec 5) (d : BitVec 5) : Statement (.addR w b a d) := by
  obtain ⟨N, hN⟩ : ∃ N, N = 0x3 + 2 ^ 8 * (d.toNat + 2 ^ 5 * (a.toNat + 2 ^ 5 * (b.toNat + 2 ^ 5 * (w.toNat + 2 ^ 2 * 0x0)))) := ⟨_, rfl⟩
  have e0 : fld N 0 8 = 3 := hN ▸ (fld_here (by decide))
  have e1 : fld N 25 7 = 0 := hN ▸ (fld_skip 17 (by decide) (fld_skip 12 d.isLt (fld_skip 7 a.isLt (fld_skip 2 b.isLt (fld_skip 0 w.isLt (fld_all (by decide)))))))
  have e2 : fld N 23 2 = w.toNat := hN ▸ (fld_skip 15 (by decide) (fld_skip 10 d.isLt (fld_skip 5 a.isLt (fld_skip 0 b.isLt (fld_here w.isLt)))))
  have e3 : fld N 18 5 = b.toNat := hN ▸ (fld_skip 10 (by decide) (fld_skip 5 d.isLt (fld_skip 0 a.isLt (fld_here b.isLt))))
  have e4 : fld N 13 5 = a.toNat := hN ▸ (fld_skip 5 (by decide) (fld_skip 0 d.isLt (fld_here a.isLt)))
  have e5 : fld N 8 5 = d.toNat := hN ▸ (fld_skip 0 (by decide) (fld_here d.isLt))
  exact of_word (word_eq hN (by show 0x3 + w.toNat * 8388608 + b.toNat * 262144 + a.toNat * 8192 + d.toNat * 256 = _; omega) : encodeNat (.addR w b a d) = (N, 4)) (hN ▸ (show 0x3 + 2 ^ 8 * (d.toNat + 2 ^ 5 * (a.toNat + 2 ^ 5 * (b.toNat + 2 ^ 5 * (w.toNat + 2 ^ 2 * 0x0)))) < 2 ^ 32 from (under (m := 24) (by decide) (under (m := 19) d.isLt (under (m := 14) a.isLt (under (m := 9) b.isLt (under (m := 7) w.isLt (by decide)))))))) (hN ▸ odd_low _ _) (read03 e0 (by simp [raw03, bv, e1, e2, e3, e4, e5]))

theorem subR (w : BitVec 2) (b : BitVec 5) (a : BitVec 5) (d : BitVec 5) : Statement (.subR w b a d) := by
  obtain ⟨N, hN⟩ : ∃ N, N = 0x3 + 2 ^ 8 * (d.toNat + 2 ^ 5 * (a.toNat + 2 ^ 5 * (b.toNat + 2 ^ 5 * (w.toNat + 2 ^ 2 * 0x4)))) := ⟨_, rfl⟩
  have e0 : fld N 0 8 = 3 := hN ▸ (fld_here (by decide))
  have e1 : fld N 25 7 = 4 := hN ▸ (fld_skip 17 (by decide) (fld_skip 12 d.isLt (fld_skip 7 a.isLt (fld_skip 2 b.isLt (fld_skip 0 w.isLt (fld_all (by decide)))))))
  have e2 : fld N 23 2 = w.toNat := hN ▸ (fld_skip 15 (by decide) (fld_skip 10 d.isLt (fld_skip 5 a.isLt (fld_skip 0 b.isLt (fld_here w.isLt)))))
  have e3 : fld N 18 5 = b.toNat := hN ▸ (fld_skip 10 (by decide) (fld_skip 5 d.isLt (fld_skip 0 a.isLt (fld_here b.isLt))))
  have e4 : fld N 13 5 = a.toNat := hN ▸ (fld_skip 5 (by decide) (fld_skip 0 d.isLt (fld_here a.isLt)))
  have e5 : fld N 8 5 = d.toNat := hN ▸ (fld_skip 0 (by decide) (fld_here d.isLt))
  exact of_word (word_eq hN (by show 0x8000003 + w.toNat * 8388608 + b.toNat * 262144 + a.toNat * 8192 + d.toNat * 256 = _; omega) : encodeNat (.subR w b a d) = (N, 4)) (hN ▸ (show 0x3 + 2 ^ 8 * (d.toNat + 2 ^ 5 * (a.toNat + 2 ^ 5 * (b.toNat + 2 ^ 5 * (w.toNat + 2 ^ 2 * 0x4)))) < 2 ^ 32 from (under (m := 24) (by decide) (under (m := 19) d.isLt (under (m := 14) a.isLt (under (m := 9) b.isLt (under (m := 7) w.isLt (by decide)))))))) (hN ▸ odd_low _ _) (read03 e0 (by simp [raw03, bv, e1, e2, e3, e4, e5]))

theorem andR (b : BitVec 5) (a : BitVec 5) (d : BitVec 5) : Statement (.andR b a d) := by
  obtain ⟨N, hN⟩ : ∃ N, N = 0x3 + 2 ^ 8 * (d.toNat + 2 ^ 5 * (a.toNat + 2 ^ 5 * (b.toNat + 2 ^ 5 * 0x20))) := ⟨_, rfl⟩
  have e0 : fld N 0 8 = 3 := hN ▸ (fld_here (by decide))
  have e1 : fld N 25 7 = 8 := hN ▸ (fld_skip 17 (by decide) (fld_skip 12 d.isLt (fld_skip 7 a.isLt (fld_skip 2 b.isLt (by decide)))))
  have e2 : fld N 23 9 = 32 := hN ▸ (fld_skip 15 (by decide) (fld_skip 10 d.isLt (fld_skip 5 a.isLt (fld_skip 0 b.isLt (fld_all (by decide))))))
  have e3 : fld N 18 5 = b.toNat := hN ▸ (fld_skip 10 (by decide) (fld_skip 5 d.isLt (fld_skip 0 a.isLt (fld_here b.isLt))))
  have e4 : fld N 13 5 = a.toNat := hN ▸ (fld_skip 5 (by decide) (fld_skip 0 d.isLt (fld_here a.isLt)))
  have e5 : fld N 8 5 = d.toNat := hN ▸ (fld_skip 0 (by decide) (fld_here d.isLt))
  exact of_word (word_eq hN (by show 0x10000003 + b.toNat * 262144 + a.toNat * 8192 + d.toNat * 256 = _; omega) : encodeNat (.andR b a d) = (N, 4)) (hN ▸ (show 0x3 + 2 ^ 8 * (d.toNat + 2 ^ 5 * (a.toNat + 2 ^ 5 * (b.toNat + 2 ^ 5 * 0x20))) < 2 ^ 32 from (under (m := 24) (by decide) (under (m := 19) d.isLt (under (m := 14) a.isLt (under (m := 9) b.isLt (by decide))))))) (hN ▸ odd_low _ _) (read03 e0 (by simp [raw03, bv, e1, e2, e3, e4, e5]))

theorem orR (b : BitVec 5) (a : BitVec 5) (d : BitVec 5) : Statement (.orR b a d) := by
  obtain ⟨N, hN⟩ : ∃ N, N = 0x3 + 2 ^ 8 * (d.toNat + 2 ^ 5 * (a.toNat + 2 ^ 5 * (b.toNat + 2 ^ 5 * 0x30))) := ⟨_, rfl⟩
  have e0 : fld N 0 8 = 3 := hN ▸ (fld_here (by decide))
  have e1 : fld N 25 7 = 12 := hN ▸ (fld_skip 17 (by decide) (fld_skip 12 d.isLt (fld_skip 7 a.isLt (fld_skip 2 b.isLt (by decide)))))
  have e2 : fld N 23 9 = 48 := hN ▸ (fld_skip 15 (by decide) (fld_skip 10 d.isLt (fld_skip 5 a.isLt (fld_skip 0 b.isLt (fld_all (by decide))))))
  have e3 : fld N 18 5 = b.toNat := hN ▸ (fld_skip 10 (by decide) (fld_skip 5 d.isLt (fld_skip 0 a.isLt (fld_here b.isLt))))
  have e4 : fld N 13 5 = a.toNat := hN ▸ (fld_skip 5 (by decide) (fld_skip 0 d.isLt (fld_here a.isLt)))
  have e5 : fld N 8 5 = d.toNat := hN ▸ (fld_skip 0 (by decide) (fld_here d.isLt))
  exact of_word (word_eq hN (by show 0x18000003 + b.toNat * 262144 + a.toNat * 8192 + d.toNat * 256 = _; omega) : encodeNat (.orR b a d) = (N, 4)) (hN ▸ (show 0x3 + 2 ^ 8 * (d.toNat + 2 ^ 5 * (a.toNat + 2 ^ 5 * (b.toNat + 2 ^ 5 * 0x30))) < 2 ^ 32 from (under (m := 24) (by decide) (under (m := 19) d.isLt (under (m := 14) a.isLt (under (m := 9) b.isLt (by decide))))))) (hN ▸ odd_low _ _) (read03 e0 (by simp [raw03, bv, e1, e2, e3, e4, e5]))

theorem xorR (b : BitVec 5) (a : BitVec 5) (d : BitVec 5) : Statement (.xorR b a d) := by
  obtain ⟨N, hN⟩ : ∃ N, N = 0x3 + 2 ^ 8 * (d.toNat + 2 ^ 5 * (a.toNat + 2 ^ 5 * (b.toNat + 2 ^ 5 * 0x40))) := ⟨_, rfl⟩
  have e0 : fld N 0 8 = 3 := hN ▸ (fld_here (by decide))
  have e1 : fld N 25 7 = 16 := hN ▸ (fld_skip 17 (by decide) (fld_skip 12 d.isLt (fld_skip 7 a.isLt (fld_skip 2 b.isLt (by decide)))))
  have e2 : fld N 23 9 = 64 := hN ▸ (fld_skip 15 (by decide) (fld_skip 10 d.isLt (fld_skip 5 a.isLt (fld_skip 0 b.isLt (fld_all (by decide))))))
  have e3 : fld N 18 5 = b.toNat := hN ▸ (fld_skip 10 (by decide) (fld_skip 5 d.isLt (fld_skip 0 a.isLt (fld_here b.isLt))))
  have e4 : fld N 13 5 = a.toNat := hN ▸ (fld_skip 5 (by decide) (fld_skip 0 d.isLt (fld_here a.isLt)))
  have e5 : fld N 8 5 = d.toNat := hN ▸ (fld_skip 0 (by decide) (fld_here d.isLt))
  exact of_word (word_eq hN (by show 0x20000003 + b.toNat * 262144 + a.toNat * 8192 + d.toNat * 256 = _; omega) : encodeNat (.xorR b a d) = (N, 4)) (hN ▸ (show 0x3 + 2 ^ 8 * (d.toNat + 2 ^ 5 * (a.toNat + 2 ^ 5 * (b.toNat + 2 ^ 5 * 0x40))) < 2 ^ 32 from (under (m := 24) (by decide) (under (m := 19) d.isLt (under (m := 14) a.isLt (under (m := 9) b.isLt (by decide))))))) (hN ▸ odd_low _ _) (read03 e0 (by simp [raw03, bv, e1, e2, e3, e4, e5]))

theorem shl (w : BitVec 2) (b : BitVec 5) (a : BitVec 5) (d : BitVec 5) : Statement (.shl w b a d) := by
  obtain ⟨N, hN⟩ : ∃ N, N = 0x3 + 2 ^ 8 * (d.toNat + 2 ^ 5 * (a.toNat + 2 ^ 5 * (b.toNat + 2 ^ 5 * (w.toNat + 2 ^ 2 * 0x14)))) := ⟨_, rfl⟩
  have hw := w.isLt; have hb := b.isLt; have ha := a.isLt; have hd := d.isLt
  have e0 : fld N 0 8 = 3 := hN ▸ (fld_here (by decide))
  have e1 : fld N 25 7 = 20 := hN ▸ (fld_skip 17 (by decide) (fld_skip 12 d.isLt (fld_skip 7 a.isLt (fld_skip 2 b.isLt (fld_skip 0 w.isLt (fld_all (by decide)))))))
  have e2 : fld N 23 9 ≠ 32 := by subst hN; unfold fld; omega
  have e3 : fld N 23 9 ≠ 48 := by subst hN; unfold fld; omega
  have e4 : fld N 23 9 ≠ 64 := by subst hN; unfold fld; omega
  have e5 : fld N 23 2 = w.toNat := hN ▸ (fld_skip 15 (by decide) (fld_skip 10 d.isLt (fld_skip 5 a.isLt (fld_skip 0 b.isLt (fld_here w.isLt)))))
  have e6 : fld N 18 5 = b.toNat := hN ▸ (fld_skip 10 (by decide) (fld_skip 5 d.isLt (fld_skip 0 a.isLt (fld_here b.isLt))))
  have e7 : fld N 13 5 = a.toNat := hN ▸ (fld_skip 5 (by decide) (fld_skip 0 d.isLt (fld_here a.isLt)))
  have e8 : fld N 8 5 = d.toNat := hN ▸ (fld_skip 0 (by decide) (fld_here d.isLt))
  exact of_word (word_eq hN (by show 0x28000003 + w.toNat * 8388608 + b.toNat * 262144 + a.toNat * 8192 + d.toNat * 256 = _; omega) : encodeNat (.shl w b a d) = (N, 4)) (hN ▸ (show 0x3 + 2 ^ 8 * (d.toNat + 2 ^ 5 * (a.toNat + 2 ^ 5 * (b.toNat + 2 ^ 5 * (w.toNat + 2 ^ 2 * 0x14)))) < 2 ^ 32 from (under (m := 24) (by decide) (under (m := 19) d.isLt (under (m := 14) a.isLt (under (m := 9) b.isLt (under (m := 7) w.isLt (by decide)))))))) (hN ▸ odd_low _ _) (read03 e0 (by simp [raw03, bv, e1, e2, e3, e4, e5, e6, e7, e8]))

theorem shr (w : BitVec 2) (b : BitVec 5) (a : BitVec 5) (d : BitVec 5) : Statement (.shr w b a d) := by
  obtain ⟨N, hN⟩ : ∃ N, N = 0x3 + 2 ^ 8 * (d.toNat + 2 ^ 5 * (a.toNat + 2 ^ 5 * (b.toNat + 2 ^ 5 * (w.toNat + 2 ^ 2 * 0x18)))) := ⟨_, rfl⟩
  have hw := w.isLt; have hb := b.isLt; have ha := a.isLt; have hd := d.isLt
  have e0 : fld N 0 8 = 3 := hN ▸ (fld_here (by decide))
  have e1 : fld N 25 7 = 24 := hN ▸ (fld_skip 17 (by decide) (fld_skip 12 d.isLt (fld_skip 7 a.isLt (fld_skip 2 b.isLt (fld_skip 0 w.isLt (fld_all (by decide)))))))
  have e2 : fld N 23 9 ≠ 32 := by subst hN; unfold fld; omega
  have e3 : fld N 23 9 ≠ 48 := by subst hN; unfold fld; omega
  have e4 : fld N 23 9 ≠ 64 := by subst hN; unfold fld; omega
  have e5 : fld N 23 2 = w.toNat := hN ▸ (fld_skip 15 (by decide) (fld_skip 10 d.isLt (fld_skip 5 a.isLt (fld_skip 0 b.isLt (fld_here w.isLt)))))
  have e6 : fld N 18 5 = b.toNat := hN ▸ (fld_skip 10 (by decide) (fld_skip 5 d.isLt (fld_skip 0 a.isLt (fld_here b.isLt))))
  have e7 : fld N 13 5 = a.toNat := hN ▸ (fld_skip 5 (by decide) (fld_skip 0 d.isLt (fld_here a.isLt)))
  have e8 : fld N 8 5 = d.toNat := hN ▸ (fld_skip 0 (by decide) (fld_here d.isLt))
  exact of_word (word_eq hN (by show 0x30000003 + w.toNat * 8388608 + b.toNat * 262144 + a.toNat * 8192 + d.toNat * 256 = _; omega) : encodeNat (.shr w b a d) = (N, 4)) (hN ▸ (show 0x3 + 2 ^ 8 * (d.toNat + 2 ^ 5 * (a.toNat + 2 ^ 5 * (b.toNat + 2 ^ 5 * (w.toNat + 2 ^ 2 * 0x18)))) < 2 ^ 32 from (under (m := 24) (by decide) (under (m := 19) d.isLt (under (m := 14) a.isLt (under (m := 9) b.isLt (under (m := 7) w.isLt (by decide)))))))) (hN ▸ odd_low _ _) (read03 e0 (by simp [raw03, bv, e1, e2, e3, e4, e5, e6, e7, e8]))

theorem sar (w : BitVec 2) (b : BitVec 5) (a : BitVec 5) (d : BitVec 5) : Statement (.sar w b a d) := by
  obtain ⟨N, hN⟩ : ∃ N, N = 0x3 + 2 ^ 8 * (d.toNat + 2 ^ 5 * (a.toNat + 2 ^ 5 * (b.toNat + 2 ^ 5 * (w.toNat + 2 ^ 2 * 0x1c)))) := ⟨_, rfl⟩
  have hw := w.isLt; have hb := b.isLt; have ha := a.isLt; have hd := d.isLt
  have e0 : fld N 0 8 = 3 := hN ▸ (fld_here (by decide))
  have e1 : fld N 25 7 = 28 := hN ▸ (fld_skip 17 (by decide) (fld_skip 12 d.isLt (fld_skip 7 a.isLt (fld_skip 2 b.isLt (fld_skip 0 w.isLt (fld_all (by decide)))))))
  have e2 : fld N 23 9 ≠ 32 := by subst hN; unfold fld; omega
  have e3 : fld N 23 9 ≠ 48 := by subst hN; unfold fld; omega
  have e4 : fld N 23 9 ≠ 64 := by subst hN; unfold fld; omega
  have e5 : fld N 23 2 = w.toNat := hN ▸ (fld_skip 15 (by decide) (fld_skip 10 d.isLt (fld_skip 5 a.isLt (fld_skip 0 b.isLt (fld_here w.isLt)))))
  have e6 : fld N 18 5 = b.toNat := hN ▸ (fld_skip 10 (by decide) (fld_skip 5 d.isLt (fld_skip 0 a.isLt (fld_here b.isLt))))
  have e7 : fld N 13 5 = a.toNat := hN ▸ (fld_skip 5 (by decide) (fld_skip 0 d.isLt (fld_here a.isLt)))
  have e8 : fld N 8 5 = d.toNat := hN ▸ (fld_skip 0 (by decide) (fld_here d.isLt))
  exact of_word (word_eq hN (by show 0x38000003 + w.toNat * 8388608 + b.toNat * 262144 + a.toNat * 8192 + d.toNat * 256 = _; omega) : encodeNat (.sar w b a d) = (N, 4)) (hN ▸ (show 0x3 + 2 ^ 8 * (d.toNat + 2 ^ 5 * (a.toNat + 2 ^ 5 * (b.toNat + 2 ^ 5 * (w.toNat + 2 ^ 2 * 0x1c)))) < 2 ^ 32 from (under (m := 24) (by decide) (under (m := 19) d.isLt (under (m := 14) a.isLt (under (m := 9) b.isLt (under (m := 7) w.isLt (by decide)))))))) (hN ▸ odd_low _ _) (read03 e0 (by simp [raw03, bv, e1, e2, e3, e4, e5, e6, e7, e8]))

theorem min (w : BitVec 2) (b : BitVec 5) (a : BitVec 5) (d : BitVec 5) : Statement (.min w b a d) := by
  obtain ⟨N, hN⟩ : ∃ N, N = 0x3 + 2 ^ 8 * (d.toNat + 2 ^ 5 * (a.toNat + 2 ^ 5 * (b.toNat + 2 ^ 5 * (w.toNat + 2 ^ 2 * 0x20)))) := ⟨_, rfl⟩
  have hw := w.isLt; have hb := b.isLt; have ha := a.isLt; have hd := d.isLt
  have e0 : fld N 0 8 = 3 := hN ▸ (fld_here (by decide))
  have e1 : fld N 25 7 = 32 := hN ▸ (fld_skip 17 (by decide) (fld_skip 12 d.isLt (fld_skip 7 a.isLt (fld_skip 2 b.isLt (fld_skip 0 w.isLt (fld_all (by decide)))))))
  have e2 : fld N 23 9 ≠ 32 := by subst hN; unfold fld; omega
  have e3 : fld N 23 9 ≠ 48 := by subst hN; unfold fld; omega
  have e4 : fld N 23 9 ≠ 64 := by subst hN; unfold fld; omega
  have e5 : fld N 23 2 = w.toNat := hN ▸ (fld_skip 15 (by decide) (fld_skip 10 d.isLt (fld_skip 5 a.isLt (fld_skip 0 b.isLt (fld_here w.isLt)))))
  have e6 : fld N 18 5 = b.toNat := hN ▸ (fld_skip 10 (by decide) (fld_skip 5 d.isLt (fld_skip 0 a.isLt (fld_here b.isLt))))
  have e7 : fld N 13 5 = a.toNat := hN ▸ (fld_skip 5 (by decide) (fld_skip 0 d.isLt (fld_here a.isLt)))
  have e8 : fld N 8 5 = d.toNat := hN ▸ (fld_skip 0 (by decide) (fld_here d.isLt))
  exact of_word (word_eq hN (by show 0x40000003 + w.toNat * 8388608 + b.toNat * 262144 + a.toNat * 8192 + d.toNat * 256 = _; omega) : encodeNat (.min w b a d) = (N, 4)) (hN ▸ (show 0x3 + 2 ^ 8 * (d.toNat + 2 ^ 5 * (a.toNat + 2 ^ 5 * (b.toNat + 2 ^ 5 * (w.toNat + 2 ^ 2 * 0x20)))) < 2 ^ 32 from (under (m := 24) (by decide) (under (m := 19) d.isLt (under (m := 14) a.isLt (under (m := 9) b.isLt (under (m := 7) w.isLt (by decide)))))))) (hN ▸ odd_low _ _) (read03 e0 (by simp [raw03, bv, e1, e2, e3, e4, e5, e6, e7, e8]))

theorem max (w : BitVec 2) (b : BitVec 5) (a : BitVec 5) (d : BitVec 5) : Statement (.max w b a d) := by
  obtain ⟨N, hN⟩ : ∃ N, N = 0x3 + 2 ^ 8 * (d.toNat + 2 ^ 5 * (a.toNat + 2 ^ 5 * (b.toNat + 2 ^ 5 * (w.toNat + 2 ^ 2 * 0x24)))) := ⟨_, rfl⟩
  have hw := w.isLt; have hb := b.isLt; have ha := a.isLt; have hd := d.isLt
  have e0 : fld N 0 8 = 3 := hN ▸ (fld_here (by decide))
  have e1 : fld N 25 7 = 36 := hN ▸ (fld_skip 17 (by decide) (fld_skip 12 d.isLt (fld_skip 7 a.isLt (fld_skip 2 b.isLt (fld_skip 0 w.isLt (fld_all (by decide)))))))
  have e2 : fld N 23 9 ≠ 32 := by subst hN; unfold fld; omega
  have e3 : fld N 23 9 ≠ 48 := by subst hN; unfold fld; omega
  have e4 : fld N 23 9 ≠ 64 := by subst hN; unfold fld; omega
  have e5 : fld N 23 2 = w.toNat := hN ▸ (fld_skip 15 (by decide) (fld_skip 10 d.isLt (fld_skip 5 a.isLt (fld_skip 0 b.isLt (fld_here w.isLt)))))
  have e6 : fld N 18 5 = b.toNat := hN ▸ (fld_skip 10 (by decide) (fld_skip 5 d.isLt (fld_skip 0 a.isLt (fld_here b.isLt))))
  have e7 : fld N 13 5 = a.toNat := hN ▸ (fld_skip 5 (by decide) (fld_skip 0 d.isLt (fld_here a.isLt)))
  have e8 : fld N 8 5 = d.toNat := hN ▸ (fld_skip 0 (by decide) (fld_here d.isLt))
  exact of_word (word_eq hN (by show 0x48000003 + w.toNat * 8388608 + b.toNat * 262144 + a.toNat * 8192 + d.toNat * 256 = _; omega) : encodeNat (.max w b a d) = (N, 4)) (hN ▸ (show 0x3 + 2 ^ 8 * (d.toNat + 2 ^ 5 * (a.toNat + 2 ^ 5 * (b.toNat + 2 ^ 5 * (w.toNat + 2 ^ 2 * 0x24)))) < 2 ^ 32 from (under (m := 24) (by decide) (under (m := 19) d.isLt (under (m := 14) a.isLt (under (m := 9) b.isLt (under (m := 7) w.isLt (by decide)))))))) (hN ▸ odd_low _ _) (read03 e0 (by simp [raw03, bv, e1, e2, e3, e4, e5, e6, e7, e8]))

theorem minn (w : BitVec 2) (b : BitVec 5) (a : BitVec 5) (d : BitVec 5) : Statement (.minn w b a d) := by
  obtain ⟨N, hN⟩ : ∃ N, N = 0x3 + 2 ^ 8 * (d.toNat + 2 ^ 5 * (a.toNat + 2 ^ 5 * (b.toNat + 2 ^ 5 * (w.toNat + 2 ^ 2 * 0x28)))) := ⟨_, rfl⟩
  have hw := w.isLt; have hb := b.isLt; have ha := a.isLt; have hd := d.isLt
  have e0 : fld N 0 8 = 3 := hN ▸ (fld_here (by decide))
  have e1 : fld N 25 7 = 40 := hN ▸ (fld_skip 17 (by decide) (fld_skip 12 d.isLt (fld_skip 7 a.isLt (fld_skip 2 b.isLt (fld_skip 0 w.isLt (fld_all (by decide)))))))
  have e2 : fld N 23 9 ≠ 32 := by subst hN; unfold fld; omega
  have e3 : fld N 23 9 ≠ 48 := by subst hN; unfold fld; omega
  have e4 : fld N 23 9 ≠ 64 := by subst hN; unfold fld; omega
  have e5 : fld N 23 2 = w.toNat := hN ▸ (fld_skip 15 (by decide) (fld_skip 10 d.isLt (fld_skip 5 a.isLt (fld_skip 0 b.isLt (fld_here w.isLt)))))
  have e6 : fld N 18 5 = b.toNat := hN ▸ (fld_skip 10 (by decide) (fld_skip 5 d.isLt (fld_skip 0 a.isLt (fld_here b.isLt))))
  have e7 : fld N 13 5 = a.toNat := hN ▸ (fld_skip 5 (by decide) (fld_skip 0 d.isLt (fld_here a.isLt)))
  have e8 : fld N 8 5 = d.toNat := hN ▸ (fld_skip 0 (by decide) (fld_here d.isLt))
  exact of_word (word_eq hN (by show 0x50000003 + w.toNat * 8388608 + b.toNat * 262144 + a.toNat * 8192 + d.toNat * 256 = _; omega) : encodeNat (.minn w b a d) = (N, 4)) (hN ▸ (show 0x3 + 2 ^ 8 * (d.toNat + 2 ^ 5 * (a.toNat + 2 ^ 5 * (b.toNat + 2 ^ 5 * (w.toNat + 2 ^ 2 * 0x28)))) < 2 ^ 32 from (under (m := 24) (by decide) (under (m := 19) d.isLt (under (m := 14) a.isLt (under (m := 9) b.isLt (under (m := 7) w.isLt (by decide)))))))) (hN ▸ odd_low _ _) (read03 e0 (by simp [raw03, bv, e1, e2, e3, e4, e5, e6, e7, e8]))

theorem maxn (w : BitVec 2) (b : BitVec 5) (a : BitVec 5) (d : BitVec 5) : Statement (.maxn w b a d) := by
  obtain ⟨N, hN⟩ : ∃ N, N = 0x3 + 2 ^ 8 * (d.toNat + 2 ^ 5 * (a.toNat + 2 ^ 5 * (b.toNat + 2 ^ 5 * (w.toNat + 2 ^ 2 * 0x2c)))) := ⟨_, rfl⟩
  have hw := w.isLt; have hb := b.isLt; have ha := a.isLt; have hd := d.isLt
  have e0 : fld N 0 8 = 3 := hN ▸ (fld_here (by decide))
  have e1 : fld N 25 7 = 44 := hN ▸ (fld_skip 17 (by decide) (fld_skip 12 d.isLt (fld_skip 7 a.isLt (fld_skip 2 b.isLt (fld_skip 0 w.isLt (fld_all (by decide)))))))
  have e2 : fld N 23 9 ≠ 32 := by subst hN; unfold fld; omega
  have e3 : fld N 23 9 ≠ 48 := by subst hN; unfold fld; omega
  have e4 : fld N 23 9 ≠ 64 := by subst hN; unfold fld; omega
  have e5 : fld N 23 2 = w.toNat := hN ▸ (fld_skip 15 (by decide) (fld_skip 10 d.isLt (fld_skip 5 a.isLt (fld_skip 0 b.isLt (fld_here w.isLt)))))
  have e6 : fld N 18 5 = b.toNat := hN ▸ (fld_skip 10 (by decide) (fld_skip 5 d.isLt (fld_skip 0 a.isLt (fld_here b.isLt))))
  have e7 : fld N 13 5 = a.toNat := hN ▸ (fld_skip 5 (by decide) (fld_skip 0 d.isLt (fld_here a.isLt)))
  have e8 : fld N 8 5 = d.toNat := hN ▸ (fld_skip 0 (by decide) (fld_here d.isLt))
  exact of_word (word_eq hN (by show 0x58000003 + w.toNat * 8388608 + b.toNat * 262144 + a.toNat * 8192 + d.toNat * 256 = _; omega) : encodeNat (.maxn w b a d) = (N, 4)) (hN ▸ (show 0x3 + 2 ^ 8 * (d.toNat + 2 ^ 5 * (a.toNat + 2 ^ 5 * (b.toNat + 2 ^ 5 * (w.toNat + 2 ^ 2 * 0x2c)))) < 2 ^ 32 from (under (m := 24) (by decide) (under (m := 19) d.isLt (under (m := 14) a.isLt (under (m := 9) b.isLt (under (m := 7) w.isLt (by decide)))))))) (hN ▸ odd_low _ _) (read03 e0 (by simp [raw03, bv, e1, e2, e3, e4, e5, e6, e7, e8]))

theorem cmp (c : BitVec 4) (b : BitVec 5) (a : BitVec 5) (d : BitVec 5) : Statement (.cmp c b a d) := by
  obtain ⟨N, hN⟩ : ∃ N, N = 0x3 + 2 ^ 8 * (d.toNat + 2 ^ 5 * (a.toNat + 2 ^ 5 * (b.toNat + 2 ^ 5 * (c.toNat + 2 ^ 4 * 0xc)))) := ⟨_, rfl⟩
  have hc := c.isLt; have hb := b.isLt; have ha := a.isLt; have hd := d.isLt
  have e0 : fld N 0 8 = 3 := hN ▸ (fld_here (by decide))
  have e1 : fld N 27 5 = 12 := hN ▸ (fld_skip 19 (by decide) (fld_skip 14 d.isLt (fld_skip 9 a.isLt (fld_skip 4 b.isLt (fld_skip 0 c.isLt (fld_all (by decide)))))))
  have e2 : fld N 25 7 ≠ 0 := by subst hN; unfold fld; omega
  have e3 : fld N 25 7 ≠ 4 := by subst hN; unfold fld; omega
  have e4 : fld N 23 9 ≠ 32 := by subst hN; unfold fld; omega
  have e5 : fld N 23 9 ≠ 48 := by subst hN; unfold fld; omega
  have e6 : fld N 23 9 ≠ 64 := by subst hN; unfold fld; omega
  have e7 : fld N 25 7 ≠ 20 := by subst hN; unfold fld; omega
  have e8 : fld N 25 7 ≠ 24 := by subst hN; unfold fld; omega
  have e9 : fld N 25 7 ≠ 28 := by subst hN; unfold fld; omega
  have e10 : fld N 25 7 ≠ 32 := by subst hN; unfold fld; omega
  have e11 : fld N 25 7 ≠ 36 := by subst hN; unfold fld; omega
  have e12 : fld N 25 7 ≠ 40 := by subst hN; unfold fld; omega
  have e13 : fld N 25 7 ≠ 44 := by subst hN; unfold fld; omega
  have e14 : fld N 23 4 = c.toNat := hN ▸ (fld_skip 15 (by decide) (fld_skip 10 d.isLt (fld_skip 5 a.isLt (fld_skip 0 b.isLt (fld_here c.isLt)))))
  have e15 : fld N 18 5 = b.toNat := hN ▸ (fld_skip 10 (by decide) (fld_skip 5 d.isLt (fld_skip 0 a.isLt (fld_here b.isLt))))
  have e16 : fld N 13 5 = a.toNat := hN ▸ (fld_skip 5 (by decide) (fld_skip 0 d.isLt (fld_here a.isLt)))
  have e17 : fld N 8 5 = d.toNat := hN ▸ (fld_skip 0 (by decide) (fld_here d.isLt))
  exact of_word (word_eq hN (by show 0x60000003 + c.toNat * 8388608 + b.toNat * 262144 + a.toNat * 8192 + d.toNat * 256 = _; omega) : encodeNat (.cmp c b a d) = (N, 4)) (hN ▸ (show 0x3 + 2 ^ 8 * (d.toNat + 2 ^ 5 * (a.toNat + 2 ^ 5 * (b.toNat + 2 ^ 5 * (c.toNat + 2 ^ 4 * 0xc)))) < 2 ^ 32 from (under (m := 24) (by decide) (under (m := 19) d.isLt (under (m := 14) a.isLt (under (m := 9) b.isLt (under (m := 5) c.isLt (by decide)))))))) (hN ▸ odd_low _ _) (read03 e0 (by simp [raw03, bv, e1, e2, e3, e4, e5, e6, e7, e8, e9, e10, e11, e12, e13, e14, e15, e16, e17]))

theorem sel (b : BitVec 5) (a : BitVec 5) (d : BitVec 5) : Statement (.sel b a d) := by
  obtain ⟨N, hN⟩ : ∃ N, N = 0x3 + 2 ^ 8 * (d.toNat + 2 ^ 5 * (a.toNat + 2 ^ 5 * (b.toNat + 2 ^ 5 * 0xd0))) := ⟨_, rfl⟩
  have e0 : fld N 0 8 = 3 := hN ▸ (fld_here (by decide))
  have e1 : fld N 25 7 = 52 := hN ▸ (fld_skip 17 (by decide) (fld_skip 12 d.isLt (fld_skip 7 a.isLt (fld_skip 2 b.isLt (by decide)))))
  have e2 : fld N 23 9 = 208 := hN ▸ (fld_skip 15 (by decide) (fld_skip 10 d.isLt (fld_skip 5 a.isLt (fld_skip 0 b.isLt (fld_all (by decide))))))
  have e3 : fld N 27 5 = 13 := hN ▸ (fld_skip 19 (by decide) (fld_skip 14 d.isLt (fld_skip 9 a.isLt (fld_skip 4 b.isLt (by decide)))))
  have e4 : fld N 18 5 = b.toNat := hN ▸ (fld_skip 10 (by decide) (fld_skip 5 d.isLt (fld_skip 0 a.isLt (fld_here b.isLt))))
  have e5 : fld N 13 5 = a.toNat := hN ▸ (fld_skip 5 (by decide) (fld_skip 0 d.isLt (fld_here a.isLt)))
  have e6 : fld N 8 5 = d.toNat := hN ▸ (fld_skip 0 (by decide) (fld_here d.isLt))
  exact of_word (word_eq hN (by show 0x68000003 + b.toNat * 262144 + a.toNat * 8192 + d.toNat * 256 = _; omega) : encodeNat (.sel b a d) = (N, 4)) (hN ▸ (show 0x3 + 2 ^ 8 * (d.toNat + 2 ^ 5 * (a.toNat + 2 ^ 5 * (b.toNat + 2 ^ 5 * 0xd0))) < 2 ^ 32 from (under (m := 24) (by decide) (under (m := 19) d.isLt (under (m := 14) a.isLt (under (m := 9) b.isLt (by decide))))))) (hN ▸ odd_low _ _) (read03 e0 (by simp [raw03, bv, e1, e2, e3, e4, e5, e6]))

theorem clz (a : BitVec 5) (d : BitVec 5) : Statement (.clz a d) := by
  obtain ⟨N, hN⟩ : ∃ N, N = 0x3 + 2 ^ 8 * (d.toNat + 2 ^ 5 * (a.toNat + 2 ^ 5 * 0x1c00)) := ⟨_, rfl⟩
  have e0 : fld N 0 8 = 3 := hN ▸ (fld_here (by decide))
  have e1 : fld N 25 7 = 56 := hN ▸ (fld_skip 17 (by decide) (fld_skip 12 d.isLt (fld_skip 7 a.isLt (by decide))))
  have e2 : fld N 23 9 = 224 := hN ▸ (fld_skip 15 (by decide) (fld_skip 10 d.isLt (fld_skip 5 a.isLt (by decide))))
  have e3 : fld N 27 5 = 14 := hN ▸ (fld_skip 19 (by decide) (fld_skip 14 d.isLt (fld_skip 9 a.isLt (by decide))))
  have e4 : fld N 18 14 = 7168 := hN ▸ (fld_skip 10 (by decide) (fld_skip 5 d.isLt (fld_skip 0 a.isLt (fld_all (by decide)))))
  have e5 : fld N 13 5 = a.toNat := hN ▸ (fld_skip 5 (by decide) (fld_skip 0 d.isLt (fld_here a.isLt)))
  have e6 : fld N 8 5 = d.toNat := hN ▸ (fld_skip 0 (by decide) (fld_here d.isLt))
  exact of_word (word_eq hN (by show 0x70000003 + a.toNat * 8192 + d.toNat * 256 = _; omega) : encodeNat (.clz a d) = (N, 4)) (hN ▸ (show 0x3 + 2 ^ 8 * (d.toNat + 2 ^ 5 * (a.toNat + 2 ^ 5 * 0x1c00)) < 2 ^ 32 from (under (m := 24) (by decide) (under (m := 19) d.isLt (under (m := 14) a.isLt (by decide)))))) (hN ▸ odd_low _ _) (read03 e0 (by simp [raw03, bv, e1, e2, e3, e4, e5, e6]))

theorem ctz (a : BitVec 5) (d : BitVec 5) : Statement (.ctz a d) := by
  obtain ⟨N, hN⟩ : ∃ N, N = 0x3 + 2 ^ 8 * (d.toNat + 2 ^ 5 * (a.toNat + 2 ^ 5 * 0x1e00)) := ⟨_, rfl⟩
  have e0 : fld N 0 8 = 3 := hN ▸ (fld_here (by decide))
  have e1 : fld N 25 7 = 60 := hN ▸ (fld_skip 17 (by decide) (fld_skip 12 d.isLt (fld_skip 7 a.isLt (by decide))))
  have e2 : fld N 23 9 = 240 := hN ▸ (fld_skip 15 (by decide) (fld_skip 10 d.isLt (fld_skip 5 a.isLt (by decide))))
  have e3 : fld N 27 5 = 15 := hN ▸ (fld_skip 19 (by decide) (fld_skip 14 d.isLt (fld_skip 9 a.isLt (by decide))))
  have e4 : fld N 18 14 = 7680 := hN ▸ (fld_skip 10 (by decide) (fld_skip 5 d.isLt (fld_skip 0 a.isLt (fld_all (by decide)))))
  have e5 : fld N 13 5 = a.toNat := hN ▸ (fld_skip 5 (by decide) (fld_skip 0 d.isLt (fld_here a.isLt)))
  have e6 : fld N 8 5 = d.toNat := hN ▸ (fld_skip 0 (by decide) (fld_here d.isLt))
  exact of_word (word_eq hN (by show 0x78000003 + a.toNat * 8192 + d.toNat * 256 = _; omega) : encodeNat (.ctz a d) = (N, 4)) (hN ▸ (show 0x3 + 2 ^ 8 * (d.toNat + 2 ^ 5 * (a.toNat + 2 ^ 5 * 0x1e00)) < 2 ^ 32 from (under (m := 24) (by decide) (under (m := 19) d.isLt (under (m := 14) a.isLt (by decide)))))) (hN ▸ odd_low _ _) (read03 e0 (by simp [raw03, bv, e1, e2, e3, e4, e5, e6]))

theorem popc (a : BitVec 5) (d : BitVec 5) : Statement (.popc a d) := by
  obtain ⟨N, hN⟩ : ∃ N, N = 0x3 + 2 ^ 8 * (d.toNat + 2 ^ 5 * (a.toNat + 2 ^ 5 * 0x2000)) := ⟨_, rfl⟩
  have e0 : fld N 0 8 = 3 := hN ▸ (fld_here (by decide))
  have e1 : fld N 25 7 = 64 := hN ▸ (fld_skip 17 (by decide) (fld_skip 12 d.isLt (fld_skip 7 a.isLt (by decide))))
  have e2 : fld N 23 9 = 256 := hN ▸ (fld_skip 15 (by decide) (fld_skip 10 d.isLt (fld_skip 5 a.isLt (by decide))))
  have e3 : fld N 27 5 = 16 := hN ▸ (fld_skip 19 (by decide) (fld_skip 14 d.isLt (fld_skip 9 a.isLt (by decide))))
  have e4 : fld N 18 14 = 8192 := hN ▸ (fld_skip 10 (by decide) (fld_skip 5 d.isLt (fld_skip 0 a.isLt (fld_all (by decide)))))
  have e5 : fld N 13 5 = a.toNat := hN ▸ (fld_skip 5 (by decide) (fld_skip 0 d.isLt (fld_here a.isLt)))
  have e6 : fld N 8 5 = d.toNat := hN ▸ (fld_skip 0 (by decide) (fld_here d.isLt))
  exact of_word (word_eq hN (by show 0x80000003 + a.toNat * 8192 + d.toNat * 256 = _; omega) : encodeNat (.popc a d) = (N, 4)) (hN ▸ (show 0x3 + 2 ^ 8 * (d.toNat + 2 ^ 5 * (a.toNat + 2 ^ 5 * 0x2000)) < 2 ^ 32 from (under (m := 24) (by decide) (under (m := 19) d.isLt (under (m := 14) a.isLt (by decide)))))) (hN ▸ odd_low _ _) (read03 e0 (by simp [raw03, bv, e1, e2, e3, e4, e5, e6]))

theorem mul (b : BitVec 5) (a : BitVec 5) (d : BitVec 5) : Statement (.mul b a d) := by
  obtain ⟨N, hN⟩ : ∃ N, N = 0x3 + 2 ^ 8 * (d.toNat + 2 ^ 5 * (a.toNat + 2 ^ 5 * (b.toNat + 2 ^ 5 * 0x110))) := ⟨_, rfl⟩
  have hb := b.isLt; have ha := a.isLt; have hd := d.isLt
  have e0 : fld N 0 8 = 3 := hN ▸ (fld_here (by decide))
  have e1 : fld N 25 7 = 68 := hN ▸ (fld_skip 17 (by decide) (fld_skip 12 d.isLt (fld_skip 7 a.isLt (fld_skip 2 b.isLt (by decide)))))
  have e2 : fld N 23 9 = 272 := hN ▸ (fld_skip 15 (by decide) (fld_skip 10 d.isLt (fld_skip 5 a.isLt (fld_skip 0 b.isLt (fld_all (by decide))))))
  have e3 : fld N 27 5 = 17 := hN ▸ (fld_skip 19 (by decide) (fld_skip 14 d.isLt (fld_skip 9 a.isLt (fld_skip 4 b.isLt (by decide)))))
  have e4 : fld N 18 14 ≠ 7168 := by subst hN; unfold fld; omega
  have e5 : fld N 18 14 ≠ 7680 := by subst hN; unfold fld; omega
  have e6 : fld N 18 14 ≠ 8192 := by subst hN; unfold fld; omega
  have e7 : fld N 18 5 = b.toNat := hN ▸ (fld_skip 10 (by decide) (fld_skip 5 d.isLt (fld_skip 0 a.isLt (fld_here b.isLt))))
  have e8 : fld N 13 5 = a.toNat := hN ▸ (fld_skip 5 (by decide) (fld_skip 0 d.isLt (fld_here a.isLt)))
  have e9 : fld N 8 5 = d.toNat := hN ▸ (fld_skip 0 (by decide) (fld_here d.isLt))
  exact of_word (word_eq hN (by show 0x88000003 + b.toNat * 262144 + a.toNat * 8192 + d.toNat * 256 = _; omega) : encodeNat (.mul b a d) = (N, 4)) (hN ▸ (show 0x3 + 2 ^ 8 * (d.toNat + 2 ^ 5 * (a.toNat + 2 ^ 5 * (b.toNat + 2 ^ 5 * 0x110))) < 2 ^ 32 from (under (m := 24) (by decide) (under (m := 19) d.isLt (under (m := 14) a.isLt (under (m := 9) b.isLt (by decide))))))) (hN ▸ odd_low _ _) (read03 e0 (by simp [raw03, bv, e1, e2, e3, e4, e5, e6, e7, e8, e9]))

theorem mulh (b : BitVec 5) (a : BitVec 5) (d : BitVec 5) : Statement (.mulh b a d) := by
  obtain ⟨N, hN⟩ : ∃ N, N = 0x3 + 2 ^ 8 * (d.toNat + 2 ^ 5 * (a.toNat + 2 ^ 5 * (b.toNat + 2 ^ 5 * 0x120))) := ⟨_, rfl⟩
  have hb := b.isLt; have ha := a.isLt; have hd := d.isLt
  have e0 : fld N 0 8 = 3 := hN ▸ (fld_here (by decide))
  have e1 : fld N 25 7 = 72 := hN ▸ (fld_skip 17 (by decide) (fld_skip 12 d.isLt (fld_skip 7 a.isLt (fld_skip 2 b.isLt (by decide)))))
  have e2 : fld N 23 9 = 288 := hN ▸ (fld_skip 15 (by decide) (fld_skip 10 d.isLt (fld_skip 5 a.isLt (fld_skip 0 b.isLt (fld_all (by decide))))))
  have e3 : fld N 27 5 = 18 := hN ▸ (fld_skip 19 (by decide) (fld_skip 14 d.isLt (fld_skip 9 a.isLt (fld_skip 4 b.isLt (by decide)))))
  have e4 : fld N 18 14 ≠ 7168 := by subst hN; unfold fld; omega
  have e5 : fld N 18 14 ≠ 7680 := by subst hN; unfold fld; omega
  have e6 : fld N 18 14 ≠ 8192 := by subst hN; unfold fld; omega
  have e7 : fld N 18 5 = b.toNat := hN ▸ (fld_skip 10 (by decide) (fld_skip 5 d.isLt (fld_skip 0 a.isLt (fld_here b.isLt))))
  have e8 : fld N 13 5 = a.toNat := hN ▸ (fld_skip 5 (by decide) (fld_skip 0 d.isLt (fld_here a.isLt)))
  have e9 : fld N 8 5 = d.toNat := hN ▸ (fld_skip 0 (by decide) (fld_here d.isLt))
  exact of_word (word_eq hN (by show 0x90000003 + b.toNat * 262144 + a.toNat * 8192 + d.toNat * 256 = _; omega) : encodeNat (.mulh b a d) = (N, 4)) (hN ▸ (show 0x3 + 2 ^ 8 * (d.toNat + 2 ^ 5 * (a.toNat + 2 ^ 5 * (b.toNat + 2 ^ 5 * 0x120))) < 2 ^ 32 from (under (m := 24) (by decide) (under (m := 19) d.isLt (under (m := 14) a.isLt (under (m := 9) b.isLt (by decide))))))) (hN ▸ odd_low _ _) (read03 e0 (by simp [raw03, bv, e1, e2, e3, e4, e5, e6, e7, e8, e9]))

theorem mulhn (b : BitVec 5) (a : BitVec 5) (d : BitVec 5) : Statement (.mulhn b a d) := by
  obtain ⟨N, hN⟩ : ∃ N, N = 0x3 + 2 ^ 8 * (d.toNat + 2 ^ 5 * (a.toNat + 2 ^ 5 * (b.toNat + 2 ^ 5 * 0x130))) := ⟨_, rfl⟩
  have hb := b.isLt; have ha := a.isLt; have hd := d.isLt
  have e0 : fld N 0 8 = 3 := hN ▸ (fld_here (by decide))
  have e1 : fld N 25 7 = 76 := hN ▸ (fld_skip 17 (by decide) (fld_skip 12 d.isLt (fld_skip 7 a.isLt (fld_skip 2 b.isLt (by decide)))))
  have e2 : fld N 23 9 = 304 := hN ▸ (fld_skip 15 (by decide) (fld_skip 10 d.isLt (fld_skip 5 a.isLt (fld_skip 0 b.isLt (fld_all (by decide))))))
  have e3 : fld N 27 5 = 19 := hN ▸ (fld_skip 19 (by decide) (fld_skip 14 d.isLt (fld_skip 9 a.isLt (fld_skip 4 b.isLt (by decide)))))
  have e4 : fld N 18 14 ≠ 7168 := by subst hN; unfold fld; omega
  have e5 : fld N 18 14 ≠ 7680 := by subst hN; unfold fld; omega
  have e6 : fld N 18 14 ≠ 8192 := by subst hN; unfold fld; omega
  have e7 : fld N 18 5 = b.toNat := hN ▸ (fld_skip 10 (by decide) (fld_skip 5 d.isLt (fld_skip 0 a.isLt (fld_here b.isLt))))
  have e8 : fld N 13 5 = a.toNat := hN ▸ (fld_skip 5 (by decide) (fld_skip 0 d.isLt (fld_here a.isLt)))
  have e9 : fld N 8 5 = d.toNat := hN ▸ (fld_skip 0 (by decide) (fld_here d.isLt))
  exact of_word (word_eq hN (by show 0x98000003 + b.toNat * 262144 + a.toNat * 8192 + d.toNat * 256 = _; omega) : encodeNat (.mulhn b a d) = (N, 4)) (hN ▸ (show 0x3 + 2 ^ 8 * (d.toNat + 2 ^ 5 * (a.toNat + 2 ^ 5 * (b.toNat + 2 ^ 5 * 0x130))) < 2 ^ 32 from (under (m := 24) (by decide) (under (m := 19) d.isLt (under (m := 14) a.isLt (under (m := 9) b.isLt (by decide))))))) (hN ▸ odd_low _ _) (read03 e0 (by simp [raw03, bv, e1, e2, e3, e4, e5, e6, e7, e8, e9]))

theorem addImm (i : BitVec 14) (a : BitVec 5) (d : BitVec 5) : Statement (.addImm i a d) := by
  obtain ⟨N, hN⟩ : ∃ N, N = 0x5 + 2 ^ 8 * (d.toNat + 2 ^ 5 * (a.toNat + 2 ^ 5 * i.toNat)) := ⟨_, rfl⟩
  have e0 : fld N 0 8 = 5 := hN ▸ (fld_here (by decide))
  have e1 : fld N 18 14 = i.toNat := hN ▸ (fld_skip 10 (by decide) (fld_skip 5 d.isLt (fld_skip 0 a.isLt (fld_all i.isLt))))
  have e2 : fld N 13 5 = a.toNat := hN ▸ (fld_skip 5 (by decide) (fld_skip 0 d.isLt (fld_here a.isLt)))
  have e3 : fld N 8 5 = d.toNat := hN ▸ (fld_skip 0 (by decide) (fld_here d.isLt))
  exact of_word (word_eq hN (by show 0x5 + i.toNat * 262144 + a.toNat * 8192 + d.toNat * 256 = _; omega) : encodeNat (.addImm i a d) = (N, 4)) (hN ▸ (show 0x5 + 2 ^ 8 * (d.toNat + 2 ^ 5 * (a.toNat + 2 ^ 5 * i.toNat)) < 2 ^ 32 from (under (m := 24) (by decide) (under (m := 19) d.isLt (under (m := 14) a.isLt i.isLt))))) (hN ▸ odd_low _ _) (read05 e0 (by simp [raw05, bv, e1, e2, e3]))

theorem andImm (i : BitVec 14) (a : BitVec 5) (d : BitVec 5) : Statement (.andImm i a d) := by
  obtain ⟨N, hN⟩ : ∃ N, N = 0x7 + 2 ^ 8 * (d.toNat + 2 ^ 5 * (a.toNat + 2 ^ 5 * i.toNat)) := ⟨_, rfl⟩
  have e0 : fld N 0 8 = 7 := hN ▸ (fld_here (by decide))
  have e1 : fld N 18 14 = i.toNat := hN ▸ (fld_skip 10 (by decide) (fld_skip 5 d.isLt (fld_skip 0 a.isLt (fld_all i.isLt))))
  have e2 : fld N 13 5 = a.toNat := hN ▸ (fld_skip 5 (by decide) (fld_skip 0 d.isLt (fld_here a.isLt)))
  have e3 : fld N 8 5 = d.toNat := hN ▸ (fld_skip 0 (by decide) (fld_here d.isLt))
  exact of_word (word_eq hN (by show 0x7 + i.toNat * 262144 + a.toNat * 8192 + d.toNat * 256 = _; omega) : encodeNat (.andImm i a d) = (N, 4)) (hN ▸ (show 0x7 + 2 ^ 8 * (d.toNat + 2 ^ 5 * (a.toNat + 2 ^ 5 * i.toNat)) < 2 ^ 32 from (under (m := 24) (by decide) (under (m := 19) d.isLt (under (m := 14) a.isLt i.isLt))))) (hN ▸ odd_low _ _) (read07 e0 (by simp [raw07, bv, e1, e2, e3]))

theorem orImm (i : BitVec 14) (a : BitVec 5) (d : BitVec 5) : Statement (.orImm i a d) := by
  obtain ⟨N, hN⟩ : ∃ N, N = 0x9 + 2 ^ 8 * (d.toNat + 2 ^ 5 * (a.toNat + 2 ^ 5 * i.toNat)) := ⟨_, rfl⟩
  have e0 : fld N 0 8 = 9 := hN ▸ (fld_here (by decide))
  have e1 : fld N 18 14 = i.toNat := hN ▸ (fld_skip 10 (by decide) (fld_skip 5 d.isLt (fld_skip 0 a.isLt (fld_all i.isLt))))
  have e2 : fld N 13 5 = a.toNat := hN ▸ (fld_skip 5 (by decide) (fld_skip 0 d.isLt (fld_here a.isLt)))
  have e3 : fld N 8 5 = d.toNat := hN ▸ (fld_skip 0 (by decide) (fld_here d.isLt))
  exact of_word (word_eq hN (by show 0x9 + i.toNat * 262144 + a.toNat * 8192 + d.toNat * 256 = _; omega) : encodeNat (.orImm i a d) = (N, 4)) (hN ▸ (show 0x9 + 2 ^ 8 * (d.toNat + 2 ^ 5 * (a.toNat + 2 ^ 5 * i.toNat)) < 2 ^ 32 from (under (m := 24) (by decide) (under (m := 19) d.isLt (under (m := 14) a.isLt i.isLt))))) (hN ▸ odd_low _ _) (read09 e0 (by simp [raw09, bv, e1, e2, e3]))

theorem xorImm (i : BitVec 14) (a : BitVec 5) (d : BitVec 5) : Statement (.xorImm i a d) := by
  obtain ⟨N, hN⟩ : ∃ N, N = 0xb + 2 ^ 8 * (d.toNat + 2 ^ 5 * (a.toNat + 2 ^ 5 * i.toNat)) := ⟨_, rfl⟩
  have e0 : fld N 0 8 = 11 := hN ▸ (fld_here (by decide))
  have e1 : fld N 18 14 = i.toNat := hN ▸ (fld_skip 10 (by decide) (fld_skip 5 d.isLt (fld_skip 0 a.isLt (fld_all i.isLt))))
  have e2 : fld N 13 5 = a.toNat := hN ▸ (fld_skip 5 (by decide) (fld_skip 0 d.isLt (fld_here a.isLt)))
  have e3 : fld N 8 5 = d.toNat := hN ▸ (fld_skip 0 (by decide) (fld_here d.isLt))
  exact of_word (word_eq hN (by show 0xb + i.toNat * 262144 + a.toNat * 8192 + d.toNat * 256 = _; omega) : encodeNat (.xorImm i a d) = (N, 4)) (hN ▸ (show 0xb + 2 ^ 8 * (d.toNat + 2 ^ 5 * (a.toNat + 2 ^ 5 * i.toNat)) < 2 ^ 32 from (under (m := 24) (by decide) (under (m := 19) d.isLt (under (m := 14) a.isLt i.isLt))))) (hN ▸ odd_low _ _) (read0B e0 (by simp [raw0B, bv, e1, e2, e3]))

theorem shlImm (w : BitVec 2) (n : BitVec 8) (a : BitVec 5) (d : BitVec 5) : Statement (.shlImm w n a d) := by
  obtain ⟨N, hN⟩ : ∃ N, N = 0xd + 2 ^ 8 * (d.toNat + 2 ^ 5 * (a.toNat + 2 ^ 5 * (n.toNat + 2 ^ 8 * (0x0 + 2 ^ 2 * (w.toNat + 2 ^ 2 * 0x0))))) := ⟨_, rfl⟩
  have e0 : fld N 0 8 = 13 := hN ▸ (fld_here (by decide))
  have e1 : fld N 26 2 = 0 := hN ▸ (fld_skip 18 (by decide) (fld_skip 13 d.isLt (fld_skip 8 a.isLt (fld_skip 0 n.isLt (fld_here (by decide))))))
  have e2 : fld N 30 2 = 0 := hN ▸ (fld_skip 22 (by decide) (fld_skip 17 d.isLt (fld_skip 12 a.isLt (fld_skip 4 n.isLt (fld_skip 2 (by decide) (fld_skip 0 w.isLt (fld_all (by decide))))))))
  have e3 : fld N 28 2 = w.toNat := hN ▸ (fld_skip 20 (by decide) (fld_skip 15 d.isLt (fld_skip 10 a.isLt (fld_skip 2 n.isLt (fld_skip 0 (by decide) (fld_here w.isLt))))))
  have e4 : fld N 18 8 = n.toNat := hN ▸ (fld_skip 10 (by decide) (fld_skip 5 d.isLt (fld_skip 0 a.isLt (fld_here n.isLt))))
  have e5 : fld N 13 5 = a.toNat := hN ▸ (fld_skip 5 (by decide) (fld_skip 0 d.isLt (fld_here a.isLt)))
  have e6 : fld N 8 5 = d.toNat := hN ▸ (fld_skip 0 (by decide) (fld_here d.isLt))
  exact of_word (word_eq hN (by show 0xd + w.toNat * 268435456 + n.toNat * 262144 + a.toNat * 8192 + d.toNat * 256 = _; omega) : encodeNat (.shlImm w n a d) = (N, 4)) (hN ▸ (show 0xd + 2 ^ 8 * (d.toNat + 2 ^ 5 * (a.toNat + 2 ^ 5 * (n.toNat + 2 ^ 8 * (0x0 + 2 ^ 2 * (w.toNat + 2 ^ 2 * 0x0))))) < 2 ^ 32 from (under (m := 24) (by decide) (under (m := 19) d.isLt (under (m := 14) a.isLt (under (m := 6) n.isLt (under (m := 4) (by decide) (under (m := 2) w.isLt (by decide))))))))) (hN ▸ odd_low _ _) (read0D e0 (by simp [raw0D, bv, e1, e2, e3, e4, e5, e6]))

theorem shrImm (w : BitVec 2) (n : BitVec 8) (a : BitVec 5) (d : BitVec 5) : Statement (.shrImm w n a d) := by
  obtain ⟨N, hN⟩ : ∃ N, N = 0xd + 2 ^ 8 * (d.toNat + 2 ^ 5 * (a.toNat + 2 ^ 5 * (n.toNat + 2 ^ 8 * (0x0 + 2 ^ 2 * (w.toNat + 2 ^ 2 * 0x1))))) := ⟨_, rfl⟩
  have e0 : fld N 0 8 = 13 := hN ▸ (fld_here (by decide))
  have e1 : fld N 26 2 = 0 := hN ▸ (fld_skip 18 (by decide) (fld_skip 13 d.isLt (fld_skip 8 a.isLt (fld_skip 0 n.isLt (fld_here (by decide))))))
  have e2 : fld N 30 2 = 1 := hN ▸ (fld_skip 22 (by decide) (fld_skip 17 d.isLt (fld_skip 12 a.isLt (fld_skip 4 n.isLt (fld_skip 2 (by decide) (fld_skip 0 w.isLt (fld_all (by decide))))))))
  have e3 : fld N 28 2 = w.toNat := hN ▸ (fld_skip 20 (by decide) (fld_skip 15 d.isLt (fld_skip 10 a.isLt (fld_skip 2 n.isLt (fld_skip 0 (by decide) (fld_here w.isLt))))))
  have e4 : fld N 18 8 = n.toNat := hN ▸ (fld_skip 10 (by decide) (fld_skip 5 d.isLt (fld_skip 0 a.isLt (fld_here n.isLt))))
  have e5 : fld N 13 5 = a.toNat := hN ▸ (fld_skip 5 (by decide) (fld_skip 0 d.isLt (fld_here a.isLt)))
  have e6 : fld N 8 5 = d.toNat := hN ▸ (fld_skip 0 (by decide) (fld_here d.isLt))
  exact of_word (word_eq hN (by show 0x4000000d + w.toNat * 268435456 + n.toNat * 262144 + a.toNat * 8192 + d.toNat * 256 = _; omega) : encodeNat (.shrImm w n a d) = (N, 4)) (hN ▸ (show 0xd + 2 ^ 8 * (d.toNat + 2 ^ 5 * (a.toNat + 2 ^ 5 * (n.toNat + 2 ^ 8 * (0x0 + 2 ^ 2 * (w.toNat + 2 ^ 2 * 0x1))))) < 2 ^ 32 from (under (m := 24) (by decide) (under (m := 19) d.isLt (under (m := 14) a.isLt (under (m := 6) n.isLt (under (m := 4) (by decide) (under (m := 2) w.isLt (by decide))))))))) (hN ▸ odd_low _ _) (read0D e0 (by simp [raw0D, bv, e1, e2, e3, e4, e5, e6]))

theorem sarImm (w : BitVec 2) (n : BitVec 8) (a : BitVec 5) (d : BitVec 5) : Statement (.sarImm w n a d) := by
  obtain ⟨N, hN⟩ : ∃ N, N = 0xd + 2 ^ 8 * (d.toNat + 2 ^ 5 * (a.toNat + 2 ^ 5 * (n.toNat + 2 ^ 8 * (0x0 + 2 ^ 2 * (w.toNat + 2 ^ 2 * 0x2))))) := ⟨_, rfl⟩
  have e0 : fld N 0 8 = 13 := hN ▸ (fld_here (by decide))
  have e1 : fld N 26 2 = 0 := hN ▸ (fld_skip 18 (by decide) (fld_skip 13 d.isLt (fld_skip 8 a.isLt (fld_skip 0 n.isLt (fld_here (by decide))))))
  have e2 : fld N 30 2 = 2 := hN ▸ (fld_skip 22 (by decide) (fld_skip 17 d.isLt (fld_skip 12 a.isLt (fld_skip 4 n.isLt (fld_skip 2 (by decide) (fld_skip 0 w.isLt (fld_all (by decide))))))))
  have e3 : fld N 28 2 = w.toNat := hN ▸ (fld_skip 20 (by decide) (fld_skip 15 d.isLt (fld_skip 10 a.isLt (fld_skip 2 n.isLt (fld_skip 0 (by decide) (fld_here w.isLt))))))
  have e4 : fld N 18 8 = n.toNat := hN ▸ (fld_skip 10 (by decide) (fld_skip 5 d.isLt (fld_skip 0 a.isLt (fld_here n.isLt))))
  have e5 : fld N 13 5 = a.toNat := hN ▸ (fld_skip 5 (by decide) (fld_skip 0 d.isLt (fld_here a.isLt)))
  have e6 : fld N 8 5 = d.toNat := hN ▸ (fld_skip 0 (by decide) (fld_here d.isLt))
  exact of_word (word_eq hN (by show 0x8000000d + w.toNat * 268435456 + n.toNat * 262144 + a.toNat * 8192 + d.toNat * 256 = _; omega) : encodeNat (.sarImm w n a d) = (N, 4)) (hN ▸ (show 0xd + 2 ^ 8 * (d.toNat + 2 ^ 5 * (a.toNat + 2 ^ 5 * (n.toNat + 2 ^ 8 * (0x0 + 2 ^ 2 * (w.toNat + 2 ^ 2 * 0x2))))) < 2 ^ 32 from (under (m := 24) (by decide) (under (m := 19) d.isLt (under (m := 14) a.isLt (under (m := 6) n.isLt (under (m := 4) (by decide) (under (m := 2) w.isLt (by decide))))))))) (hN ▸ odd_low _ _) (read0D e0 (by simp [raw0D, bv, e1, e2, e3, e4, e5, e6]))

theorem movi (i : BitVec 19) (d : BitVec 5) : Statement (.movi i d) := by
  obtain ⟨N, hN⟩ : ∃ N, N = 0x11 + 2 ^ 8 * (d.toNat + 2 ^ 5 * i.toNat) := ⟨_, rfl⟩
  have e0 : fld N 0 8 = 17 := hN ▸ (fld_here (by decide))
  have e1 : fld N 13 19 = i.toNat := hN ▸ (fld_skip 5 (by decide) (fld_skip 0 d.isLt (fld_all i.isLt)))
  have e2 : fld N 8 5 = d.toNat := hN ▸ (fld_skip 0 (by decide) (fld_here d.isLt))
  exact of_word (word_eq hN (by show 0x11 + i.toNat * 8192 + d.toNat * 256 = _; omega) : encodeNat (.movi i d) = (N, 4)) (hN ▸ (show 0x11 + 2 ^ 8 * (d.toNat + 2 ^ 5 * i.toNat) < 2 ^ 32 from (under (m := 24) (by decide) (under (m := 19) d.isLt i.isLt)))) (hN ▸ odd_low _ _) (read11 e0 (by simp [raw11, bv, e1, e2]))

theorem movh (i : BitVec 19) (d : BitVec 5) : Statement (.movh i d) := by
  obtain ⟨N, hN⟩ : ∃ N, N = 0x13 + 2 ^ 8 * (d.toNat + 2 ^ 5 * i.toNat) := ⟨_, rfl⟩
  have e0 : fld N 0 8 = 19 := hN ▸ (fld_here (by decide))
  have e1 : fld N 13 19 = i.toNat := hN ▸ (fld_skip 5 (by decide) (fld_skip 0 d.isLt (fld_all i.isLt)))
  have e2 : fld N 8 5 = d.toNat := hN ▸ (fld_skip 0 (by decide) (fld_here d.isLt))
  exact of_word (word_eq hN (by show 0x13 + i.toNat * 8192 + d.toNat * 256 = _; omega) : encodeNat (.movh i d) = (N, 4)) (hN ▸ (show 0x13 + 2 ^ 8 * (d.toNat + 2 ^ 5 * i.toNat) < 2 ^ 32 from (under (m := 24) (by decide) (under (m := 19) d.isLt i.isLt)))) (hN ▸ odd_low _ _) (read13 e0 (by simp [raw13, bv, e1, e2]))

theorem div (la : BitVec 4) (b : BitVec 5) (a : BitVec 5) (d : BitVec 5) : Statement (.div la b a d) := by
  obtain ⟨N, hN⟩ : ∃ N, N = 0x15 + 2 ^ 8 * (d.toNat + 2 ^ 5 * (a.toNat + 2 ^ 5 * (b.toNat + 2 ^ 5 * (la.toNat + 2 ^ 4 * 0x0)))) := ⟨_, rfl⟩
  have e0 : fld N 0 8 = 21 := hN ▸ (fld_here (by decide))
  have e1 : fld N 27 5 = 0 := hN ▸ (fld_skip 19 (by decide) (fld_skip 14 d.isLt (fld_skip 9 a.isLt (fld_skip 4 b.isLt (fld_skip 0 la.isLt (fld_all (by decide)))))))
  have e2 : fld N 23 4 = la.toNat := hN ▸ (fld_skip 15 (by decide) (fld_skip 10 d.isLt (fld_skip 5 a.isLt (fld_skip 0 b.isLt (fld_here la.isLt)))))
  have e3 : fld N 18 5 = b.toNat := hN ▸ (fld_skip 10 (by decide) (fld_skip 5 d.isLt (fld_skip 0 a.isLt (fld_here b.isLt))))
  have e4 : fld N 13 5 = a.toNat := hN ▸ (fld_skip 5 (by decide) (fld_skip 0 d.isLt (fld_here a.isLt)))
  have e5 : fld N 8 5 = d.toNat := hN ▸ (fld_skip 0 (by decide) (fld_here d.isLt))
  exact of_word (word_eq hN (by show 0x15 + la.toNat * 8388608 + b.toNat * 262144 + a.toNat * 8192 + d.toNat * 256 = _; omega) : encodeNat (.div la b a d) = (N, 4)) (hN ▸ (show 0x15 + 2 ^ 8 * (d.toNat + 2 ^ 5 * (a.toNat + 2 ^ 5 * (b.toNat + 2 ^ 5 * (la.toNat + 2 ^ 4 * 0x0)))) < 2 ^ 32 from (under (m := 24) (by decide) (under (m := 19) d.isLt (under (m := 14) a.isLt (under (m := 9) b.isLt (under (m := 5) la.isLt (by decide)))))))) (hN ▸ odd_low _ _) (read15 e0 (by simp [raw15, bv, e1, e2, e3, e4, e5]))

theorem divn (la : BitVec 4) (b : BitVec 5) (a : BitVec 5) (d : BitVec 5) : Statement (.divn la b a d) := by
  obtain ⟨N, hN⟩ : ∃ N, N = 0x15 + 2 ^ 8 * (d.toNat + 2 ^ 5 * (a.toNat + 2 ^ 5 * (b.toNat + 2 ^ 5 * (la.toNat + 2 ^ 4 * 0x1)))) := ⟨_, rfl⟩
  have e0 : fld N 0 8 = 21 := hN ▸ (fld_here (by decide))
  have e1 : fld N 27 5 = 1 := hN ▸ (fld_skip 19 (by decide) (fld_skip 14 d.isLt (fld_skip 9 a.isLt (fld_skip 4 b.isLt (fld_skip 0 la.isLt (fld_all (by decide)))))))
  have e2 : fld N 23 4 = la.toNat := hN ▸ (fld_skip 15 (by decide) (fld_skip 10 d.isLt (fld_skip 5 a.isLt (fld_skip 0 b.isLt (fld_here la.isLt)))))
  have e3 : fld N 18 5 = b.toNat := hN ▸ (fld_skip 10 (by decide) (fld_skip 5 d.isLt (fld_skip 0 a.isLt (fld_here b.isLt))))
  have e4 : fld N 13 5 = a.toNat := hN ▸ (fld_skip 5 (by decide) (fld_skip 0 d.isLt (fld_here a.isLt)))
  have e5 : fld N 8 5 = d.toNat := hN ▸ (fld_skip 0 (by decide) (fld_here d.isLt))
  exact of_word (word_eq hN (by show 0x8000015 + la.toNat * 8388608 + b.toNat * 262144 + a.toNat * 8192 + d.toNat * 256 = _; omega) : encodeNat (.divn la b a d) = (N, 4)) (hN ▸ (show 0x15 + 2 ^ 8 * (d.toNat + 2 ^ 5 * (a.toNat + 2 ^ 5 * (b.toNat + 2 ^ 5 * (la.toNat + 2 ^ 4 * 0x1)))) < 2 ^ 32 from (under (m := 24) (by decide) (under (m := 19) d.isLt (under (m := 14) a.isLt (under (m := 9) b.isLt (under (m := 5) la.isLt (by decide)))))))) (hN ▸ odd_low _ _) (read15 e0 (by simp [raw15, bv, e1, e2, e3, e4, e5]))

theorem rem (la : BitVec 4) (b : BitVec 5) (a : BitVec 5) (d : BitVec 5) : Statement (.rem la b a d) := by
  obtain ⟨N, hN⟩ : ∃ N, N = 0x15 + 2 ^ 8 * (d.toNat + 2 ^ 5 * (a.toNat + 2 ^ 5 * (b.toNat + 2 ^ 5 * (la.toNat + 2 ^ 4 * 0x2)))) := ⟨_, rfl⟩
  have e0 : fld N 0 8 = 21 := hN ▸ (fld_here (by decide))
  have e1 : fld N 27 5 = 2 := hN ▸ (fld_skip 19 (by decide) (fld_skip 14 d.isLt (fld_skip 9 a.isLt (fld_skip 4 b.isLt (fld_skip 0 la.isLt (fld_all (by decide)))))))
  have e2 : fld N 23 4 = la.toNat := hN ▸ (fld_skip 15 (by decide) (fld_skip 10 d.isLt (fld_skip 5 a.isLt (fld_skip 0 b.isLt (fld_here la.isLt)))))
  have e3 : fld N 18 5 = b.toNat := hN ▸ (fld_skip 10 (by decide) (fld_skip 5 d.isLt (fld_skip 0 a.isLt (fld_here b.isLt))))
  have e4 : fld N 13 5 = a.toNat := hN ▸ (fld_skip 5 (by decide) (fld_skip 0 d.isLt (fld_here a.isLt)))
  have e5 : fld N 8 5 = d.toNat := hN ▸ (fld_skip 0 (by decide) (fld_here d.isLt))
  exact of_word (word_eq hN (by show 0x10000015 + la.toNat * 8388608 + b.toNat * 262144 + a.toNat * 8192 + d.toNat * 256 = _; omega) : encodeNat (.rem la b a d) = (N, 4)) (hN ▸ (show 0x15 + 2 ^ 8 * (d.toNat + 2 ^ 5 * (a.toNat + 2 ^ 5 * (b.toNat + 2 ^ 5 * (la.toNat + 2 ^ 4 * 0x2)))) < 2 ^ 32 from (under (m := 24) (by decide) (under (m := 19) d.isLt (under (m := 14) a.isLt (under (m := 9) b.isLt (under (m := 5) la.isLt (by decide)))))))) (hN ▸ odd_low _ _) (read15 e0 (by simp [raw15, bv, e1, e2, e3, e4, e5]))

theorem remn (la : BitVec 4) (b : BitVec 5) (a : BitVec 5) (d : BitVec 5) : Statement (.remn la b a d) := by
  obtain ⟨N, hN⟩ : ∃ N, N = 0x15 + 2 ^ 8 * (d.toNat + 2 ^ 5 * (a.toNat + 2 ^ 5 * (b.toNat + 2 ^ 5 * (la.toNat + 2 ^ 4 * 0x3)))) := ⟨_, rfl⟩
  have e0 : fld N 0 8 = 21 := hN ▸ (fld_here (by decide))
  have e1 : fld N 27 5 = 3 := hN ▸ (fld_skip 19 (by decide) (fld_skip 14 d.isLt (fld_skip 9 a.isLt (fld_skip 4 b.isLt (fld_skip 0 la.isLt (fld_all (by decide)))))))
  have e2 : fld N 23 4 = la.toNat := hN ▸ (fld_skip 15 (by decide) (fld_skip 10 d.isLt (fld_skip 5 a.isLt (fld_skip 0 b.isLt (fld_here la.isLt)))))
  have e3 : fld N 18 5 = b.toNat := hN ▸ (fld_skip 10 (by decide) (fld_skip 5 d.isLt (fld_skip 0 a.isLt (fld_here b.isLt))))
  have e4 : fld N 13 5 = a.toNat := hN ▸ (fld_skip 5 (by decide) (fld_skip 0 d.isLt (fld_here a.isLt)))
  have e5 : fld N 8 5 = d.toNat := hN ▸ (fld_skip 0 (by decide) (fld_here d.isLt))
  exact of_word (word_eq hN (by show 0x18000015 + la.toNat * 8388608 + b.toNat * 262144 + a.toNat * 8192 + d.toNat * 256 = _; omega) : encodeNat (.remn la b a d) = (N, 4)) (hN ▸ (show 0x15 + 2 ^ 8 * (d.toNat + 2 ^ 5 * (a.toNat + 2 ^ 5 * (b.toNat + 2 ^ 5 * (la.toNat + 2 ^ 4 * 0x3)))) < 2 ^ 32 from (under (m := 24) (by decide) (under (m := 19) d.isLt (under (m := 14) a.isLt (under (m := 9) b.isLt (under (m := 5) la.isLt (by decide)))))))) (hN ▸ odd_low _ _) (read15 e0 (by simp [raw15, bv, e1, e2, e3, e4, e5]))

theorem amesh (b : BitVec 5) (a : BitVec 5) (d : BitVec 5) : Statement (.amesh b a d) := by
  obtain ⟨N, hN⟩ : ∃ N, N = 0x17 + 2 ^ 8 * (d.toNat + 2 ^ 5 * (a.toNat + 2 ^ 5 * (b.toNat + 2 ^ 5 * 0x0))) := ⟨_, rfl⟩
  have e0 : fld N 0 8 = 23 := hN ▸ (fld_here (by decide))
  have e1 : fld N 23 9 = 0 := hN ▸ (fld_skip 15 (by decide) (fld_skip 10 d.isLt (fld_skip 5 a.isLt (fld_skip 0 b.isLt (fld_all (by decide))))))
  have e2 : fld N 18 5 = b.toNat := hN ▸ (fld_skip 10 (by decide) (fld_skip 5 d.isLt (fld_skip 0 a.isLt (fld_here b.isLt))))
  have e3 : fld N 13 5 = a.toNat := hN ▸ (fld_skip 5 (by decide) (fld_skip 0 d.isLt (fld_here a.isLt)))
  have e4 : fld N 8 5 = d.toNat := hN ▸ (fld_skip 0 (by decide) (fld_here d.isLt))
  exact of_word (word_eq hN (by show 0x17 + b.toNat * 262144 + a.toNat * 8192 + d.toNat * 256 = _; omega) : encodeNat (.amesh b a d) = (N, 4)) (hN ▸ (show 0x17 + 2 ^ 8 * (d.toNat + 2 ^ 5 * (a.toNat + 2 ^ 5 * (b.toNat + 2 ^ 5 * 0x0))) < 2 ^ 32 from (under (m := 24) (by decide) (under (m := 19) d.isLt (under (m := 14) a.isLt (under (m := 9) b.isLt (by decide))))))) (hN ▸ odd_low _ _) (read17 e0 (by simp [raw17, bv, e1, e2, e3, e4]))

theorem apost (b : BitVec 5) (a : BitVec 5) (d : BitVec 5) : Statement (.apost b a d) := by
  obtain ⟨N, hN⟩ : ∃ N, N = 0x17 + 2 ^ 8 * (d.toNat + 2 ^ 5 * (a.toNat + 2 ^ 5 * (b.toNat + 2 ^ 5 * 0x10))) := ⟨_, rfl⟩
  have e0 : fld N 0 8 = 23 := hN ▸ (fld_here (by decide))
  have e1 : fld N 23 9 = 16 := hN ▸ (fld_skip 15 (by decide) (fld_skip 10 d.isLt (fld_skip 5 a.isLt (fld_skip 0 b.isLt (fld_all (by decide))))))
  have e2 : fld N 18 5 = b.toNat := hN ▸ (fld_skip 10 (by decide) (fld_skip 5 d.isLt (fld_skip 0 a.isLt (fld_here b.isLt))))
  have e3 : fld N 13 5 = a.toNat := hN ▸ (fld_skip 5 (by decide) (fld_skip 0 d.isLt (fld_here a.isLt)))
  have e4 : fld N 8 5 = d.toNat := hN ▸ (fld_skip 0 (by decide) (fld_here d.isLt))
  exact of_word (word_eq hN (by show 0x8000017 + b.toNat * 262144 + a.toNat * 8192 + d.toNat * 256 = _; omega) : encodeNat (.apost b a d) = (N, 4)) (hN ▸ (show 0x17 + 2 ^ 8 * (d.toNat + 2 ^ 5 * (a.toNat + 2 ^ 5 * (b.toNat + 2 ^ 5 * 0x10))) < 2 ^ 32 from (under (m := 24) (by decide) (under (m := 19) d.isLt (under (m := 14) a.isLt (under (m := 9) b.isLt (by decide))))))) (hN ▸ odd_low _ _) (read17 e0 (by simp [raw17, bv, e1, e2, e3, e4]))

theorem awalk (x : BitVec 7) (k : BitVec 5) (a : BitVec 5) : Statement (.awalk x k a) := by
  obtain ⟨N, hN⟩ : ∃ N, N = 0x19 + 2 ^ 8 * (0x0 + 2 ^ 5 * (a.toNat + 2 ^ 5 * (k.toNat + 2 ^ 5 * (0x0 + 2 ^ 2 * x.toNat)))) := ⟨_, rfl⟩
  have e0 : fld N 0 8 = 25 := hN ▸ (fld_here (by decide))
  have e1 : fld N 8 5 = 0 := hN ▸ (fld_skip 0 (by decide) (fld_here (by decide)))
  have e2 : fld N 23 2 = 0 := hN ▸ (fld_skip 15 (by decide) (fld_skip 10 (by decide) (fld_skip 5 a.isLt (fld_skip 0 k.isLt (fld_here (by decide))))))
  have e3 : fld N 25 7 = x.toNat := hN ▸ (fld_skip 17 (by decide) (fld_skip 12 (by decide) (fld_skip 7 a.isLt (fld_skip 2 k.isLt (fld_skip 0 (by decide) (fld_all x.isLt))))))
  have e4 : fld N 18 5 = k.toNat := hN ▸ (fld_skip 10 (by decide) (fld_skip 5 (by decide) (fld_skip 0 a.isLt (fld_here k.isLt))))
  have e5 : fld N 13 5 = a.toNat := hN ▸ (fld_skip 5 (by decide) (fld_skip 0 (by decide) (fld_here a.isLt)))
  exact of_word (word_eq hN (by show 0x19 + x.toNat * 33554432 + k.toNat * 262144 + a.toNat * 8192 = _; omega) : encodeNat (.awalk x k a) = (N, 4)) (hN ▸ (show 0x19 + 2 ^ 8 * (0x0 + 2 ^ 5 * (a.toNat + 2 ^ 5 * (k.toNat + 2 ^ 5 * (0x0 + 2 ^ 2 * x.toNat)))) < 2 ^ 32 from (under (m := 24) (by decide) (under (m := 19) (by decide) (under (m := 14) a.isLt (under (m := 9) k.isLt (under (m := 7) (by decide) x.isLt))))))) (hN ▸ odd_low _ _) (read19 e0 (by simp [raw19, bv, e1, e2, e3, e4, e5]))

theorem beq (s : BitVec 14) (b : BitVec 5) (a : BitVec 5) : Statement (.beq s b a) := by
  obtain ⟨N, hN⟩ : ∃ N, N = 0x21 + 2 ^ 8 * (a.toNat + 2 ^ 5 * (b.toNat + 2 ^ 5 * s.toNat)) := ⟨_, rfl⟩
  have e0 : fld N 0 8 = 33 := hN ▸ (fld_here (by decide))
  have e1 : fld N 18 14 = s.toNat := hN ▸ (fld_skip 10 (by decide) (fld_skip 5 a.isLt (fld_skip 0 b.isLt (fld_all s.isLt))))
  have e2 : fld N 13 5 = b.toNat := hN ▸ (fld_skip 5 (by decide) (fld_skip 0 a.isLt (fld_here b.isLt)))
  have e3 : fld N 8 5 = a.toNat := hN ▸ (fld_skip 0 (by decide) (fld_here a.isLt))
  exact of_word (word_eq hN (by show 0x21 + s.toNat * 262144 + b.toNat * 8192 + a.toNat * 256 = _; omega) : encodeNat (.beq s b a) = (N, 4)) (hN ▸ (show 0x21 + 2 ^ 8 * (a.toNat + 2 ^ 5 * (b.toNat + 2 ^ 5 * s.toNat)) < 2 ^ 32 from (under (m := 24) (by decide) (under (m := 19) a.isLt (under (m := 14) b.isLt s.isLt))))) (hN ▸ odd_low _ _) (read21 e0 (by simp [raw21, bv, e1, e2, e3]))

theorem bne (s : BitVec 14) (b : BitVec 5) (a : BitVec 5) : Statement (.bne s b a) := by
  obtain ⟨N, hN⟩ : ∃ N, N = 0x23 + 2 ^ 8 * (a.toNat + 2 ^ 5 * (b.toNat + 2 ^ 5 * s.toNat)) := ⟨_, rfl⟩
  have e0 : fld N 0 8 = 35 := hN ▸ (fld_here (by decide))
  have e1 : fld N 18 14 = s.toNat := hN ▸ (fld_skip 10 (by decide) (fld_skip 5 a.isLt (fld_skip 0 b.isLt (fld_all s.isLt))))
  have e2 : fld N 13 5 = b.toNat := hN ▸ (fld_skip 5 (by decide) (fld_skip 0 a.isLt (fld_here b.isLt)))
  have e3 : fld N 8 5 = a.toNat := hN ▸ (fld_skip 0 (by decide) (fld_here a.isLt))
  exact of_word (word_eq hN (by show 0x23 + s.toNat * 262144 + b.toNat * 8192 + a.toNat * 256 = _; omega) : encodeNat (.bne s b a) = (N, 4)) (hN ▸ (show 0x23 + 2 ^ 8 * (a.toNat + 2 ^ 5 * (b.toNat + 2 ^ 5 * s.toNat)) < 2 ^ 32 from (under (m := 24) (by decide) (under (m := 19) a.isLt (under (m := 14) b.isLt s.isLt))))) (hN ▸ odd_low _ _) (read23 e0 (by simp [raw23, bv, e1, e2, e3]))

theorem blt (s : BitVec 14) (b : BitVec 5) (a : BitVec 5) : Statement (.blt s b a) := by
  obtain ⟨N, hN⟩ : ∃ N, N = 0x25 + 2 ^ 8 * (a.toNat + 2 ^ 5 * (b.toNat + 2 ^ 5 * s.toNat)) := ⟨_, rfl⟩
  have e0 : fld N 0 8 = 37 := hN ▸ (fld_here (by decide))
  have e1 : fld N 18 14 = s.toNat := hN ▸ (fld_skip 10 (by decide) (fld_skip 5 a.isLt (fld_skip 0 b.isLt (fld_all s.isLt))))
  have e2 : fld N 13 5 = b.toNat := hN ▸ (fld_skip 5 (by decide) (fld_skip 0 a.isLt (fld_here b.isLt)))
  have e3 : fld N 8 5 = a.toNat := hN ▸ (fld_skip 0 (by decide) (fld_here a.isLt))
  exact of_word (word_eq hN (by show 0x25 + s.toNat * 262144 + b.toNat * 8192 + a.toNat * 256 = _; omega) : encodeNat (.blt s b a) = (N, 4)) (hN ▸ (show 0x25 + 2 ^ 8 * (a.toNat + 2 ^ 5 * (b.toNat + 2 ^ 5 * s.toNat)) < 2 ^ 32 from (under (m := 24) (by decide) (under (m := 19) a.isLt (under (m := 14) b.isLt s.isLt))))) (hN ▸ odd_low _ _) (read25 e0 (by simp [raw25, bv, e1, e2, e3]))

theorem bge (s : BitVec 14) (b : BitVec 5) (a : BitVec 5) : Statement (.bge s b a) := by
  obtain ⟨N, hN⟩ : ∃ N, N = 0x27 + 2 ^ 8 * (a.toNat + 2 ^ 5 * (b.toNat + 2 ^ 5 * s.toNat)) := ⟨_, rfl⟩
  have e0 : fld N 0 8 = 39 := hN ▸ (fld_here (by decide))
  have e1 : fld N 18 14 = s.toNat := hN ▸ (fld_skip 10 (by decide) (fld_skip 5 a.isLt (fld_skip 0 b.isLt (fld_all s.isLt))))
  have e2 : fld N 13 5 = b.toNat := hN ▸ (fld_skip 5 (by decide) (fld_skip 0 a.isLt (fld_here b.isLt)))
  have e3 : fld N 8 5 = a.toNat := hN ▸ (fld_skip 0 (by decide) (fld_here a.isLt))
  exact of_word (word_eq hN (by show 0x27 + s.toNat * 262144 + b.toNat * 8192 + a.toNat * 256 = _; omega) : encodeNat (.bge s b a) = (N, 4)) (hN ▸ (show 0x27 + 2 ^ 8 * (a.toNat + 2 ^ 5 * (b.toNat + 2 ^ 5 * s.toNat)) < 2 ^ 32 from (under (m := 24) (by decide) (under (m := 19) a.isLt (under (m := 14) b.isLt s.isLt))))) (hN ▸ odd_low _ _) (read27 e0 (by simp [raw27, bv, e1, e2, e3]))

theorem bltn (s : BitVec 14) (b : BitVec 5) (a : BitVec 5) : Statement (.bltn s b a) := by
  obtain ⟨N, hN⟩ : ∃ N, N = 0x29 + 2 ^ 8 * (a.toNat + 2 ^ 5 * (b.toNat + 2 ^ 5 * s.toNat)) := ⟨_, rfl⟩
  have e0 : fld N 0 8 = 41 := hN ▸ (fld_here (by decide))
  have e1 : fld N 18 14 = s.toNat := hN ▸ (fld_skip 10 (by decide) (fld_skip 5 a.isLt (fld_skip 0 b.isLt (fld_all s.isLt))))
  have e2 : fld N 13 5 = b.toNat := hN ▸ (fld_skip 5 (by decide) (fld_skip 0 a.isLt (fld_here b.isLt)))
  have e3 : fld N 8 5 = a.toNat := hN ▸ (fld_skip 0 (by decide) (fld_here a.isLt))
  exact of_word (word_eq hN (by show 0x29 + s.toNat * 262144 + b.toNat * 8192 + a.toNat * 256 = _; omega) : encodeNat (.bltn s b a) = (N, 4)) (hN ▸ (show 0x29 + 2 ^ 8 * (a.toNat + 2 ^ 5 * (b.toNat + 2 ^ 5 * s.toNat)) < 2 ^ 32 from (under (m := 24) (by decide) (under (m := 19) a.isLt (under (m := 14) b.isLt s.isLt))))) (hN ▸ odd_low _ _) (read29 e0 (by simp [raw29, bv, e1, e2, e3]))

theorem bgen (s : BitVec 14) (b : BitVec 5) (a : BitVec 5) : Statement (.bgen s b a) := by
  obtain ⟨N, hN⟩ : ∃ N, N = 0x2b + 2 ^ 8 * (a.toNat + 2 ^ 5 * (b.toNat + 2 ^ 5 * s.toNat)) := ⟨_, rfl⟩
  have e0 : fld N 0 8 = 43 := hN ▸ (fld_here (by decide))
  have e1 : fld N 18 14 = s.toNat := hN ▸ (fld_skip 10 (by decide) (fld_skip 5 a.isLt (fld_skip 0 b.isLt (fld_all s.isLt))))
  have e2 : fld N 13 5 = b.toNat := hN ▸ (fld_skip 5 (by decide) (fld_skip 0 a.isLt (fld_here b.isLt)))
  have e3 : fld N 8 5 = a.toNat := hN ▸ (fld_skip 0 (by decide) (fld_here a.isLt))
  exact of_word (word_eq hN (by show 0x2b + s.toNat * 262144 + b.toNat * 8192 + a.toNat * 256 = _; omega) : encodeNat (.bgen s b a) = (N, 4)) (hN ▸ (show 0x2b + 2 ^ 8 * (a.toNat + 2 ^ 5 * (b.toNat + 2 ^ 5 * s.toNat)) < 2 ^ 32 from (under (m := 24) (by decide) (under (m := 19) a.isLt (under (m := 14) b.isLt s.isLt))))) (hN ▸ odd_low _ _) (read2B e0 (by simp [raw2B, bv, e1, e2, e3]))

theorem rep (s : BitVec 14) (a : BitVec 5) : Statement (.rep s a) := by
  obtain ⟨N, hN⟩ : ∃ N, N = 0x2d + 2 ^ 8 * (a.toNat + 2 ^ 5 * (0x0 + 2 ^ 5 * s.toNat)) := ⟨_, rfl⟩
  have e0 : fld N 0 8 = 45 := hN ▸ (fld_here (by decide))
  have e1 : fld N 13 5 = 0 := hN ▸ (fld_skip 5 (by decide) (fld_skip 0 a.isLt (fld_here (by decide))))
  have e2 : fld N 18 14 = s.toNat := hN ▸ (fld_skip 10 (by decide) (fld_skip 5 a.isLt (fld_skip 0 (by decide) (fld_all s.isLt))))
  have e3 : fld N 8 5 = a.toNat := hN ▸ (fld_skip 0 (by decide) (fld_here a.isLt))
  exact of_word (word_eq hN (by show 0x2d + s.toNat * 262144 + a.toNat * 256 = _; omega) : encodeNat (.rep s a) = (N, 4)) (hN ▸ (show 0x2d + 2 ^ 8 * (a.toNat + 2 ^ 5 * (0x0 + 2 ^ 5 * s.toNat)) < 2 ^ 32 from (under (m := 24) (by decide) (under (m := 19) a.isLt (under (m := 14) (by decide) s.isLt))))) (hN ▸ odd_low _ _) (read2D e0 (by simp [raw2D, bv, e1, e2, e3]))

theorem jmp (s : BitVec 19) (d : BitVec 5) : Statement (.jmp s d) := by
  obtain ⟨N, hN⟩ : ∃ N, N = 0x31 + 2 ^ 8 * (d.toNat + 2 ^ 5 * s.toNat) := ⟨_, rfl⟩
  have e0 : fld N 0 8 = 49 := hN ▸ (fld_here (by decide))
  have e1 : fld N 13 19 = s.toNat := hN ▸ (fld_skip 5 (by decide) (fld_skip 0 d.isLt (fld_all s.isLt)))
  have e2 : fld N 8 5 = d.toNat := hN ▸ (fld_skip 0 (by decide) (fld_here d.isLt))
  exact of_word (word_eq hN (by show 0x31 + s.toNat * 8192 + d.toNat * 256 = _; omega) : encodeNat (.jmp s d) = (N, 4)) (hN ▸ (show 0x31 + 2 ^ 8 * (d.toNat + 2 ^ 5 * s.toNat) < 2 ^ 32 from (under (m := 24) (by decide) (under (m := 19) d.isLt s.isLt)))) (hN ▸ odd_low _ _) (read31 e0 (by simp [raw31, bv, e1, e2]))

theorem call (s : BitVec 19) : Statement (.call s) := by
  obtain ⟨N, hN⟩ : ∃ N, N = 0x33 + 2 ^ 8 * (0x0 + 2 ^ 5 * s.toNat) := ⟨_, rfl⟩
  have e0 : fld N 0 8 = 51 := hN ▸ (fld_here (by decide))
  have e1 : fld N 8 5 = 0 := hN ▸ (fld_skip 0 (by decide) (fld_here (by decide)))
  have e2 : fld N 13 19 = s.toNat := hN ▸ (fld_skip 5 (by decide) (fld_skip 0 (by decide) (fld_all s.isLt)))
  exact of_word (word_eq hN (by show 0x33 + s.toNat * 8192 = _; omega) : encodeNat (.call s) = (N, 4)) (hN ▸ (show 0x33 + 2 ^ 8 * (0x0 + 2 ^ 5 * s.toNat) < 2 ^ 32 from (under (m := 24) (by decide) (under (m := 19) (by decide) s.isLt)))) (hN ▸ odd_low _ _) (read33 e0 (by simp [raw33, bv, e1, e2]))

theorem jr (a : BitVec 5) (d : BitVec 5) : Statement (.jr a d) := by
  obtain ⟨N, hN⟩ : ∃ N, N = 0x35 + 2 ^ 8 * (d.toNat + 2 ^ 5 * (a.toNat + 2 ^ 5 * 0x0)) := ⟨_, rfl⟩
  have e0 : fld N 0 8 = 53 := hN ▸ (fld_here (by decide))
  have e1 : fld N 18 14 = 0 := hN ▸ (fld_skip 10 (by decide) (fld_skip 5 d.isLt (fld_skip 0 a.isLt (fld_all (by decide)))))
  have e2 : fld N 13 5 = a.toNat := hN ▸ (fld_skip 5 (by decide) (fld_skip 0 d.isLt (fld_here a.isLt)))
  have e3 : fld N 8 5 = d.toNat := hN ▸ (fld_skip 0 (by decide) (fld_here d.isLt))
  exact of_word (word_eq hN (by show 0x35 + a.toNat * 8192 + d.toNat * 256 = _; omega) : encodeNat (.jr a d) = (N, 4)) (hN ▸ (show 0x35 + 2 ^ 8 * (d.toNat + 2 ^ 5 * (a.toNat + 2 ^ 5 * 0x0)) < 2 ^ 32 from (under (m := 24) (by decide) (under (m := 19) d.isLt (under (m := 14) a.isLt (by decide)))))) (hN ▸ odd_low _ _) (read35 e0 (by simp [raw35, bv, e1, e2, e3]))

theorem callr (a : BitVec 5) : Statement (.callr a) := by
  obtain ⟨N, hN⟩ : ∃ N, N = 0x35 + 2 ^ 8 * (0x0 + 2 ^ 5 * (a.toNat + 2 ^ 5 * 0x200)) := ⟨_, rfl⟩
  have e0 : fld N 0 8 = 53 := hN ▸ (fld_here (by decide))
  have e1 : fld N 18 14 = 512 := hN ▸ (fld_skip 10 (by decide) (fld_skip 5 (by decide) (fld_skip 0 a.isLt (fld_all (by decide)))))
  have e2 : fld N 8 5 = 0 := hN ▸ (fld_skip 0 (by decide) (fld_here (by decide)))
  have e3 : fld N 13 5 = a.toNat := hN ▸ (fld_skip 5 (by decide) (fld_skip 0 (by decide) (fld_here a.isLt)))
  exact of_word (word_eq hN (by show 0x8000035 + a.toNat * 8192 = _; omega) : encodeNat (.callr a) = (N, 4)) (hN ▸ (show 0x35 + 2 ^ 8 * (0x0 + 2 ^ 5 * (a.toNat + 2 ^ 5 * 0x200)) < 2 ^ 32 from (under (m := 24) (by decide) (under (m := 19) (by decide) (under (m := 14) a.isLt (by decide)))))) (hN ▸ odd_low _ _) (read35 e0 (by simp [raw35, bv, e1, e2, e3]))

theorem ret : Statement .ret := .inr (by decide)

theorem eret : Statement .eret := .inr (by decide)

theorem yield : Statement .yield := .inr (by decide)

theorem exit : Statement .exit := .inr (by decide)

theorem trap (t : BitVec 12) : Statement (.trap t) := by
  obtain ⟨N, hN⟩ : ∃ N, N = 0x37 + 2 ^ 8 * (0x0 + 2 ^ 10 * (t.toNat + 2 ^ 12 * 0x0)) := ⟨_, rfl⟩
  have e0 : fld N 0 8 = 55 := hN ▸ (fld_here (by decide))
  have e1 : fld N 8 10 = 0 := hN ▸ (fld_skip 0 (by decide) (fld_here (by decide)))
  have e2 : fld N 30 2 = 0 := hN ▸ (fld_skip 22 (by decide) (fld_skip 12 (by decide) (fld_skip 0 t.isLt (fld_all (by decide)))))
  have e3 : fld N 18 12 = t.toNat := hN ▸ (fld_skip 10 (by decide) (fld_skip 0 (by decide) (fld_here t.isLt)))
  exact of_word (word_eq hN (by show 0x37 + t.toNat * 262144 = _; omega) : encodeNat (.trap t) = (N, 4)) (hN ▸ (show 0x37 + 2 ^ 8 * (0x0 + 2 ^ 10 * (t.toNat + 2 ^ 12 * 0x0)) < 2 ^ 32 from (under (m := 24) (by decide) (under (m := 14) (by decide) (under (m := 2) t.isLt (by decide)))))) (hN ▸ odd_low _ _) (read37 e0 (by simp [raw37, bv, e1, e2, e3]))

theorem ldB (i : BitVec 14) (a : BitVec 5) (d : BitVec 5) : Statement (.ldB i a d) := by
  obtain ⟨N, hN⟩ : ∃ N, N = 0x41 + 2 ^ 8 * (d.toNat + 2 ^ 5 * (a.toNat + 2 ^ 5 * i.toNat)) := ⟨_, rfl⟩
  have e0 : fld N 0 8 = 65 := hN ▸ (fld_here (by decide))
  have e1 : fld N 18 14 = i.toNat := hN ▸ (fld_skip 10 (by decide) (fld_skip 5 d.isLt (fld_skip 0 a.isLt (fld_all i.isLt))))
  have e2 : fld N 13 5 = a.toNat := hN ▸ (fld_skip 5 (by decide) (fld_skip 0 d.isLt (fld_here a.isLt)))
  have e3 : fld N 8 5 = d.toNat := hN ▸ (fld_skip 0 (by decide) (fld_here d.isLt))
  exact of_word (word_eq hN (by show 0x41 + i.toNat * 262144 + a.toNat * 8192 + d.toNat * 256 = _; omega) : encodeNat (.ldB i a d) = (N, 4)) (hN ▸ (show 0x41 + 2 ^ 8 * (d.toNat + 2 ^ 5 * (a.toNat + 2 ^ 5 * i.toNat)) < 2 ^ 32 from (under (m := 24) (by decide) (under (m := 19) d.isLt (under (m := 14) a.isLt i.isLt))))) (hN ▸ odd_low _ _) (read41 e0 (by simp [raw41, bv, e1, e2, e3]))

theorem ldH (i : BitVec 14) (a : BitVec 5) (d : BitVec 5) : Statement (.ldH i a d) := by
  obtain ⟨N, hN⟩ : ∃ N, N = 0x43 + 2 ^ 8 * (d.toNat + 2 ^ 5 * (a.toNat + 2 ^ 5 * i.toNat)) := ⟨_, rfl⟩
  have e0 : fld N 0 8 = 67 := hN ▸ (fld_here (by decide))
  have e1 : fld N 18 14 = i.toNat := hN ▸ (fld_skip 10 (by decide) (fld_skip 5 d.isLt (fld_skip 0 a.isLt (fld_all i.isLt))))
  have e2 : fld N 13 5 = a.toNat := hN ▸ (fld_skip 5 (by decide) (fld_skip 0 d.isLt (fld_here a.isLt)))
  have e3 : fld N 8 5 = d.toNat := hN ▸ (fld_skip 0 (by decide) (fld_here d.isLt))
  exact of_word (word_eq hN (by show 0x43 + i.toNat * 262144 + a.toNat * 8192 + d.toNat * 256 = _; omega) : encodeNat (.ldH i a d) = (N, 4)) (hN ▸ (show 0x43 + 2 ^ 8 * (d.toNat + 2 ^ 5 * (a.toNat + 2 ^ 5 * i.toNat)) < 2 ^ 32 from (under (m := 24) (by decide) (under (m := 19) d.isLt (under (m := 14) a.isLt i.isLt))))) (hN ▸ odd_low _ _) (read43 e0 (by simp [raw43, bv, e1, e2, e3]))

theorem ldW (i : BitVec 14) (a : BitVec 5) (d : BitVec 5) : Statement (.ldW i a d) := by
  obtain ⟨N, hN⟩ : ∃ N, N = 0x45 + 2 ^ 8 * (d.toNat + 2 ^ 5 * (a.toNat + 2 ^ 5 * i.toNat)) := ⟨_, rfl⟩
  have e0 : fld N 0 8 = 69 := hN ▸ (fld_here (by decide))
  have e1 : fld N 18 14 = i.toNat := hN ▸ (fld_skip 10 (by decide) (fld_skip 5 d.isLt (fld_skip 0 a.isLt (fld_all i.isLt))))
  have e2 : fld N 13 5 = a.toNat := hN ▸ (fld_skip 5 (by decide) (fld_skip 0 d.isLt (fld_here a.isLt)))
  have e3 : fld N 8 5 = d.toNat := hN ▸ (fld_skip 0 (by decide) (fld_here d.isLt))
  exact of_word (word_eq hN (by show 0x45 + i.toNat * 262144 + a.toNat * 8192 + d.toNat * 256 = _; omega) : encodeNat (.ldW i a d) = (N, 4)) (hN ▸ (show 0x45 + 2 ^ 8 * (d.toNat + 2 ^ 5 * (a.toNat + 2 ^ 5 * i.toNat)) < 2 ^ 32 from (under (m := 24) (by decide) (under (m := 19) d.isLt (under (m := 14) a.isLt i.isLt))))) (hN ▸ odd_low _ _) (read45 e0 (by simp [raw45, bv, e1, e2, e3]))

theorem ldD (i : BitVec 14) (a : BitVec 5) (d : BitVec 5) : Statement (.ldD i a d) := by
  obtain ⟨N, hN⟩ : ∃ N, N = 0x47 + 2 ^ 8 * (d.toNat + 2 ^ 5 * (a.toNat + 2 ^ 5 * i.toNat)) := ⟨_, rfl⟩
  have e0 : fld N 0 8 = 71 := hN ▸ (fld_here (by decide))
  have e1 : fld N 18 14 = i.toNat := hN ▸ (fld_skip 10 (by decide) (fld_skip 5 d.isLt (fld_skip 0 a.isLt (fld_all i.isLt))))
  have e2 : fld N 13 5 = a.toNat := hN ▸ (fld_skip 5 (by decide) (fld_skip 0 d.isLt (fld_here a.isLt)))
  have e3 : fld N 8 5 = d.toNat := hN ▸ (fld_skip 0 (by decide) (fld_here d.isLt))
  exact of_word (word_eq hN (by show 0x47 + i.toNat * 262144 + a.toNat * 8192 + d.toNat * 256 = _; omega) : encodeNat (.ldD i a d) = (N, 4)) (hN ▸ (show 0x47 + 2 ^ 8 * (d.toNat + 2 ^ 5 * (a.toNat + 2 ^ 5 * i.toNat)) < 2 ^ 32 from (under (m := 24) (by decide) (under (m := 19) d.isLt (under (m := 14) a.isLt i.isLt))))) (hN ▸ odd_low _ _) (read47 e0 (by simp [raw47, bv, e1, e2, e3]))

theorem ldnB (i : BitVec 14) (a : BitVec 5) (d : BitVec 5) : Statement (.ldnB i a d) := by
  obtain ⟨N, hN⟩ : ∃ N, N = 0x49 + 2 ^ 8 * (d.toNat + 2 ^ 5 * (a.toNat + 2 ^ 5 * i.toNat)) := ⟨_, rfl⟩
  have e0 : fld N 0 8 = 73 := hN ▸ (fld_here (by decide))
  have e1 : fld N 18 14 = i.toNat := hN ▸ (fld_skip 10 (by decide) (fld_skip 5 d.isLt (fld_skip 0 a.isLt (fld_all i.isLt))))
  have e2 : fld N 13 5 = a.toNat := hN ▸ (fld_skip 5 (by decide) (fld_skip 0 d.isLt (fld_here a.isLt)))
  have e3 : fld N 8 5 = d.toNat := hN ▸ (fld_skip 0 (by decide) (fld_here d.isLt))
  exact of_word (word_eq hN (by show 0x49 + i.toNat * 262144 + a.toNat * 8192 + d.toNat * 256 = _; omega) : encodeNat (.ldnB i a d) = (N, 4)) (hN ▸ (show 0x49 + 2 ^ 8 * (d.toNat + 2 ^ 5 * (a.toNat + 2 ^ 5 * i.toNat)) < 2 ^ 32 from (under (m := 24) (by decide) (under (m := 19) d.isLt (under (m := 14) a.isLt i.isLt))))) (hN ▸ odd_low _ _) (read49 e0 (by simp [raw49, bv, e1, e2, e3]))

theorem ldnH (i : BitVec 14) (a : BitVec 5) (d : BitVec 5) : Statement (.ldnH i a d) := by
  obtain ⟨N, hN⟩ : ∃ N, N = 0x4b + 2 ^ 8 * (d.toNat + 2 ^ 5 * (a.toNat + 2 ^ 5 * i.toNat)) := ⟨_, rfl⟩
  have e0 : fld N 0 8 = 75 := hN ▸ (fld_here (by decide))
  have e1 : fld N 18 14 = i.toNat := hN ▸ (fld_skip 10 (by decide) (fld_skip 5 d.isLt (fld_skip 0 a.isLt (fld_all i.isLt))))
  have e2 : fld N 13 5 = a.toNat := hN ▸ (fld_skip 5 (by decide) (fld_skip 0 d.isLt (fld_here a.isLt)))
  have e3 : fld N 8 5 = d.toNat := hN ▸ (fld_skip 0 (by decide) (fld_here d.isLt))
  exact of_word (word_eq hN (by show 0x4b + i.toNat * 262144 + a.toNat * 8192 + d.toNat * 256 = _; omega) : encodeNat (.ldnH i a d) = (N, 4)) (hN ▸ (show 0x4b + 2 ^ 8 * (d.toNat + 2 ^ 5 * (a.toNat + 2 ^ 5 * i.toNat)) < 2 ^ 32 from (under (m := 24) (by decide) (under (m := 19) d.isLt (under (m := 14) a.isLt i.isLt))))) (hN ▸ odd_low _ _) (read4B e0 (by simp [raw4B, bv, e1, e2, e3]))

theorem ldnW (i : BitVec 14) (a : BitVec 5) (d : BitVec 5) : Statement (.ldnW i a d) := by
  obtain ⟨N, hN⟩ : ∃ N, N = 0x4d + 2 ^ 8 * (d.toNat + 2 ^ 5 * (a.toNat + 2 ^ 5 * i.toNat)) := ⟨_, rfl⟩
  have e0 : fld N 0 8 = 77 := hN ▸ (fld_here (by decide))
  have e1 : fld N 18 14 = i.toNat := hN ▸ (fld_skip 10 (by decide) (fld_skip 5 d.isLt (fld_skip 0 a.isLt (fld_all i.isLt))))
  have e2 : fld N 13 5 = a.toNat := hN ▸ (fld_skip 5 (by decide) (fld_skip 0 d.isLt (fld_here a.isLt)))
  have e3 : fld N 8 5 = d.toNat := hN ▸ (fld_skip 0 (by decide) (fld_here d.isLt))
  exact of_word (word_eq hN (by show 0x4d + i.toNat * 262144 + a.toNat * 8192 + d.toNat * 256 = _; omega) : encodeNat (.ldnW i a d) = (N, 4)) (hN ▸ (show 0x4d + 2 ^ 8 * (d.toNat + 2 ^ 5 * (a.toNat + 2 ^ 5 * i.toNat)) < 2 ^ 32 from (under (m := 24) (by decide) (under (m := 19) d.isLt (under (m := 14) a.isLt i.isLt))))) (hN ▸ odd_low _ _) (read4D e0 (by simp [raw4D, bv, e1, e2, e3]))

theorem stB (i : BitVec 14) (a : BitVec 5) (d : BitVec 5) : Statement (.stB i a d) := by
  obtain ⟨N, hN⟩ : ∃ N, N = 0x51 + 2 ^ 8 * (d.toNat + 2 ^ 5 * (a.toNat + 2 ^ 5 * i.toNat)) := ⟨_, rfl⟩
  have e0 : fld N 0 8 = 81 := hN ▸ (fld_here (by decide))
  have e1 : fld N 18 14 = i.toNat := hN ▸ (fld_skip 10 (by decide) (fld_skip 5 d.isLt (fld_skip 0 a.isLt (fld_all i.isLt))))
  have e2 : fld N 13 5 = a.toNat := hN ▸ (fld_skip 5 (by decide) (fld_skip 0 d.isLt (fld_here a.isLt)))
  have e3 : fld N 8 5 = d.toNat := hN ▸ (fld_skip 0 (by decide) (fld_here d.isLt))
  exact of_word (word_eq hN (by show 0x51 + i.toNat * 262144 + a.toNat * 8192 + d.toNat * 256 = _; omega) : encodeNat (.stB i a d) = (N, 4)) (hN ▸ (show 0x51 + 2 ^ 8 * (d.toNat + 2 ^ 5 * (a.toNat + 2 ^ 5 * i.toNat)) < 2 ^ 32 from (under (m := 24) (by decide) (under (m := 19) d.isLt (under (m := 14) a.isLt i.isLt))))) (hN ▸ odd_low _ _) (read51 e0 (by simp [raw51, bv, e1, e2, e3]))

theorem stH (i : BitVec 14) (a : BitVec 5) (d : BitVec 5) : Statement (.stH i a d) := by
  obtain ⟨N, hN⟩ : ∃ N, N = 0x53 + 2 ^ 8 * (d.toNat + 2 ^ 5 * (a.toNat + 2 ^ 5 * i.toNat)) := ⟨_, rfl⟩
  have e0 : fld N 0 8 = 83 := hN ▸ (fld_here (by decide))
  have e1 : fld N 18 14 = i.toNat := hN ▸ (fld_skip 10 (by decide) (fld_skip 5 d.isLt (fld_skip 0 a.isLt (fld_all i.isLt))))
  have e2 : fld N 13 5 = a.toNat := hN ▸ (fld_skip 5 (by decide) (fld_skip 0 d.isLt (fld_here a.isLt)))
  have e3 : fld N 8 5 = d.toNat := hN ▸ (fld_skip 0 (by decide) (fld_here d.isLt))
  exact of_word (word_eq hN (by show 0x53 + i.toNat * 262144 + a.toNat * 8192 + d.toNat * 256 = _; omega) : encodeNat (.stH i a d) = (N, 4)) (hN ▸ (show 0x53 + 2 ^ 8 * (d.toNat + 2 ^ 5 * (a.toNat + 2 ^ 5 * i.toNat)) < 2 ^ 32 from (under (m := 24) (by decide) (under (m := 19) d.isLt (under (m := 14) a.isLt i.isLt))))) (hN ▸ odd_low _ _) (read53 e0 (by simp [raw53, bv, e1, e2, e3]))

theorem stW (i : BitVec 14) (a : BitVec 5) (d : BitVec 5) : Statement (.stW i a d) := by
  obtain ⟨N, hN⟩ : ∃ N, N = 0x55 + 2 ^ 8 * (d.toNat + 2 ^ 5 * (a.toNat + 2 ^ 5 * i.toNat)) := ⟨_, rfl⟩
  have e0 : fld N 0 8 = 85 := hN ▸ (fld_here (by decide))
  have e1 : fld N 18 14 = i.toNat := hN ▸ (fld_skip 10 (by decide) (fld_skip 5 d.isLt (fld_skip 0 a.isLt (fld_all i.isLt))))
  have e2 : fld N 13 5 = a.toNat := hN ▸ (fld_skip 5 (by decide) (fld_skip 0 d.isLt (fld_here a.isLt)))
  have e3 : fld N 8 5 = d.toNat := hN ▸ (fld_skip 0 (by decide) (fld_here d.isLt))
  exact of_word (word_eq hN (by show 0x55 + i.toNat * 262144 + a.toNat * 8192 + d.toNat * 256 = _; omega) : encodeNat (.stW i a d) = (N, 4)) (hN ▸ (show 0x55 + 2 ^ 8 * (d.toNat + 2 ^ 5 * (a.toNat + 2 ^ 5 * i.toNat)) < 2 ^ 32 from (under (m := 24) (by decide) (under (m := 19) d.isLt (under (m := 14) a.isLt i.isLt))))) (hN ▸ odd_low _ _) (read55 e0 (by simp [raw55, bv, e1, e2, e3]))

theorem stD (i : BitVec 14) (a : BitVec 5) (d : BitVec 5) : Statement (.stD i a d) := by
  obtain ⟨N, hN⟩ : ∃ N, N = 0x57 + 2 ^ 8 * (d.toNat + 2 ^ 5 * (a.toNat + 2 ^ 5 * i.toNat)) := ⟨_, rfl⟩
  have e0 : fld N 0 8 = 87 := hN ▸ (fld_here (by decide))
  have e1 : fld N 18 14 = i.toNat := hN ▸ (fld_skip 10 (by decide) (fld_skip 5 d.isLt (fld_skip 0 a.isLt (fld_all i.isLt))))
  have e2 : fld N 13 5 = a.toNat := hN ▸ (fld_skip 5 (by decide) (fld_skip 0 d.isLt (fld_here a.isLt)))
  have e3 : fld N 8 5 = d.toNat := hN ▸ (fld_skip 0 (by decide) (fld_here d.isLt))
  exact of_word (word_eq hN (by show 0x57 + i.toNat * 262144 + a.toNat * 8192 + d.toNat * 256 = _; omega) : encodeNat (.stD i a d) = (N, 4)) (hN ▸ (show 0x57 + 2 ^ 8 * (d.toNat + 2 ^ 5 * (a.toNat + 2 ^ 5 * i.toNat)) < 2 ^ 32 from (under (m := 24) (by decide) (under (m := 19) d.isLt (under (m := 14) a.isLt i.isLt))))) (hN ▸ odd_low _ _) (read57 e0 (by simp [raw57, bv, e1, e2, e3]))

theorem ldstrLoad (p : BitVec 1) (z : BitVec 3) (la : BitVec 4) (b : BitVec 5) (a : BitVec 5) (d : BitVec 5) : Statement (.ldstrLoad p z la b a d) := by
  obtain ⟨N, hN⟩ : ∃ N, N = 0x59 + 2 ^ 8 * (d.toNat + 2 ^ 5 * (a.toNat + 2 ^ 5 * (b.toNat + 2 ^ 5 * (la.toNat + 2 ^ 4 * (z.toNat + 2 ^ 3 * (p.toNat + 2 ^ 1 * 0x0)))))) := ⟨_, rfl⟩
  have e0 : fld N 0 8 = 89 := hN ▸ (fld_here (by decide))
  have e1 : fld N 31 1 = 0 := hN ▸ (fld_skip 23 (by decide) (fld_skip 18 d.isLt (fld_skip 13 a.isLt (fld_skip 8 b.isLt (fld_skip 4 la.isLt (fld_skip 1 z.isLt (fld_skip 0 p.isLt (fld_all (by decide)))))))))
  have e2 : fld N 30 1 = p.toNat := hN ▸ (fld_skip 22 (by decide) (fld_skip 17 d.isLt (fld_skip 12 a.isLt (fld_skip 7 b.isLt (fld_skip 3 la.isLt (fld_skip 0 z.isLt (fld_here p.isLt)))))))
  have e3 : fld N 27 3 = z.toNat := hN ▸ (fld_skip 19 (by decide) (fld_skip 14 d.isLt (fld_skip 9 a.isLt (fld_skip 4 b.isLt (fld_skip 0 la.isLt (fld_here z.isLt))))))
  have e4 : fld N 23 4 = la.toNat := hN ▸ (fld_skip 15 (by decide) (fld_skip 10 d.isLt (fld_skip 5 a.isLt (fld_skip 0 b.isLt (fld_here la.isLt)))))
  have e5 : fld N 18 5 = b.toNat := hN ▸ (fld_skip 10 (by decide) (fld_skip 5 d.isLt (fld_skip 0 a.isLt (fld_here b.isLt))))
  have e6 : fld N 13 5 = a.toNat := hN ▸ (fld_skip 5 (by decide) (fld_skip 0 d.isLt (fld_here a.isLt)))
  have e7 : fld N 8 5 = d.toNat := hN ▸ (fld_skip 0 (by decide) (fld_here d.isLt))
  exact of_word (word_eq hN (by show 0x59 + p.toNat * 1073741824 + z.toNat * 134217728 + la.toNat * 8388608 + b.toNat * 262144 + a.toNat * 8192 + d.toNat * 256 = _; omega) : encodeNat (.ldstrLoad p z la b a d) = (N, 4)) (hN ▸ (show 0x59 + 2 ^ 8 * (d.toNat + 2 ^ 5 * (a.toNat + 2 ^ 5 * (b.toNat + 2 ^ 5 * (la.toNat + 2 ^ 4 * (z.toNat + 2 ^ 3 * (p.toNat + 2 ^ 1 * 0x0)))))) < 2 ^ 32 from (under (m := 24) (by decide) (under (m := 19) d.isLt (under (m := 14) a.isLt (under (m := 9) b.isLt (under (m := 5) la.isLt (under (m := 2) z.isLt (under (m := 1) p.isLt (by decide)))))))))) (hN ▸ odd_low _ _) (read59 e0 (by simp [raw59, bv, e1, e2, e3, e4, e5, e6, e7]))

theorem ldstrStore (p : BitVec 1) (z : BitVec 2) (la : BitVec 4) (b : BitVec 5) (a : BitVec 5) (d : BitVec 5) : Statement (.ldstrStore p z la b a d) := by
  obtain ⟨N, hN⟩ : ∃ N, N = 0x59 + 2 ^ 8 * (d.toNat + 2 ^ 5 * (a.toNat + 2 ^ 5 * (b.toNat + 2 ^ 5 * (la.toNat + 2 ^ 4 * (z.toNat + 2 ^ 2 * (0x0 + 2 ^ 1 * (p.toNat + 2 ^ 1 * 0x1))))))) := ⟨_, rfl⟩
  have e0 : fld N 0 8 = 89 := hN ▸ (fld_here (by decide))
  have e1 : fld N 31 1 = 1 := hN ▸ (fld_skip 23 (by decide) (fld_skip 18 d.isLt (fld_skip 13 a.isLt (fld_skip 8 b.isLt (fld_skip 4 la.isLt (fld_skip 2 z.isLt (fld_skip 1 (by decide) (fld_skip 0 p.isLt (fld_all (by decide))))))))))
  have e2 : fld N 29 1 = 0 := hN ▸ (fld_skip 21 (by decide) (fld_skip 16 d.isLt (fld_skip 11 a.isLt (fld_skip 6 b.isLt (fld_skip 2 la.isLt (fld_skip 0 z.isLt (fld_here (by decide))))))))
  have e3 : fld N 30 1 = p.toNat := hN ▸ (fld_skip 22 (by decide) (fld_skip 17 d.isLt (fld_skip 12 a.isLt (fld_skip 7 b.isLt (fld_skip 3 la.isLt (fld_skip 1 z.isLt (fld_skip 0 (by decide) (fld_here p.isLt))))))))
  have e4 : fld N 27 2 = z.toNat := hN ▸ (fld_skip 19 (by decide) (fld_skip 14 d.isLt (fld_skip 9 a.isLt (fld_skip 4 b.isLt (fld_skip 0 la.isLt (fld_here z.isLt))))))
  have e5 : fld N 23 4 = la.toNat := hN ▸ (fld_skip 15 (by decide) (fld_skip 10 d.isLt (fld_skip 5 a.isLt (fld_skip 0 b.isLt (fld_here la.isLt)))))
  have e6 : fld N 18 5 = b.toNat := hN ▸ (fld_skip 10 (by decide) (fld_skip 5 d.isLt (fld_skip 0 a.isLt (fld_here b.isLt))))
  have e7 : fld N 13 5 = a.toNat := hN ▸ (fld_skip 5 (by decide) (fld_skip 0 d.isLt (fld_here a.isLt)))
  have e8 : fld N 8 5 = d.toNat := hN ▸ (fld_skip 0 (by decide) (fld_here d.isLt))
  exact of_word (word_eq hN (by show 0x80000059 + p.toNat * 1073741824 + z.toNat * 134217728 + la.toNat * 8388608 + b.toNat * 262144 + a.toNat * 8192 + d.toNat * 256 = _; omega) : encodeNat (.ldstrStore p z la b a d) = (N, 4)) (hN ▸ (show 0x59 + 2 ^ 8 * (d.toNat + 2 ^ 5 * (a.toNat + 2 ^ 5 * (b.toNat + 2 ^ 5 * (la.toNat + 2 ^ 4 * (z.toNat + 2 ^ 2 * (0x0 + 2 ^ 1 * (p.toNat + 2 ^ 1 * 0x1))))))) < 2 ^ 32 from (under (m := 24) (by decide) (under (m := 19) d.isLt (under (m := 14) a.isLt (under (m := 9) b.isLt (under (m := 5) la.isLt (under (m := 3) z.isLt (under (m := 2) (by decide) (under (m := 1) p.isLt (by decide))))))))))) (hN ▸ odd_low _ _) (read59 e0 (by simp [raw59, bv, e1, e2, e3, e4, e5, e6, e7, e8]))

theorem ldAcqW (s : BitVec 3) (b : BitVec 5) (a : BitVec 5) (d : BitVec 5) : Statement (.ldAcqW s b a d) := by
  obtain ⟨N, hN⟩ : ∃ N, N = 0x5b + 2 ^ 8 * (d.toNat + 2 ^ 5 * (a.toNat + 2 ^ 5 * (b.toNat + 2 ^ 5 * (s.toNat + 2 ^ 3 * 0x0)))) := ⟨_, rfl⟩
  have e0 : fld N 0 8 = 91 := hN ▸ (fld_here (by decide))
  have e1 : fld N 26 6 = 0 := hN ▸ (fld_skip 18 (by decide) (fld_skip 13 d.isLt (fld_skip 8 a.isLt (fld_skip 3 b.isLt (fld_skip 0 s.isLt (fld_all (by decide)))))))
  have e2 : fld N 23 3 = s.toNat := hN ▸ (fld_skip 15 (by decide) (fld_skip 10 d.isLt (fld_skip 5 a.isLt (fld_skip 0 b.isLt (fld_here s.isLt)))))
  have e3 : fld N 18 5 = b.toNat := hN ▸ (fld_skip 10 (by decide) (fld_skip 5 d.isLt (fld_skip 0 a.isLt (fld_here b.isLt))))
  have e4 : fld N 13 5 = a.toNat := hN ▸ (fld_skip 5 (by decide) (fld_skip 0 d.isLt (fld_here a.isLt)))
  have e5 : fld N 8 5 = d.toNat := hN ▸ (fld_skip 0 (by decide) (fld_here d.isLt))
  exact of_word (word_eq hN (by show 0x5b + s.toNat * 8388608 + b.toNat * 262144 + a.toNat * 8192 + d.toNat * 256 = _; omega) : encodeNat (.ldAcqW s b a d) = (N, 4)) (hN ▸ (show 0x5b + 2 ^ 8 * (d.toNat + 2 ^ 5 * (a.toNat + 2 ^ 5 * (b.toNat + 2 ^ 5 * (s.toNat + 2 ^ 3 * 0x0)))) < 2 ^ 32 from (under (m := 24) (by decide) (under (m := 19) d.isLt (under (m := 14) a.isLt (under (m := 9) b.isLt (under (m := 6) s.isLt (by decide)))))))) (hN ▸ odd_low _ _) (read5B e0 (by simp [raw5B, bv, e1, e2, e3, e4, e5]))

theorem ldAcqD (s : BitVec 3) (b : BitVec 5) (a : BitVec 5) (d : BitVec 5) : Statement (.ldAcqD s b a d) := by
  obtain ⟨N, hN⟩ : ∃ N, N = 0x5b + 2 ^ 8 * (d.toNat + 2 ^ 5 * (a.toNat + 2 ^ 5 * (b.toNat + 2 ^ 5 * (s.toNat + 2 ^ 3 * 0x2)))) := ⟨_, rfl⟩
  have e0 : fld N 0 8 = 91 := hN ▸ (fld_here (by decide))
  have e1 : fld N 26 6 = 2 := hN ▸ (fld_skip 18 (by decide) (fld_skip 13 d.isLt (fld_skip 8 a.isLt (fld_skip 3 b.isLt (fld_skip 0 s.isLt (fld_all (by decide)))))))
  have e2 : fld N 23 3 = s.toNat := hN ▸ (fld_skip 15 (by decide) (fld_skip 10 d.isLt (fld_skip 5 a.isLt (fld_skip 0 b.isLt (fld_here s.isLt)))))
  have e3 : fld N 18 5 = b.toNat := hN ▸ (fld_skip 10 (by decide) (fld_skip 5 d.isLt (fld_skip 0 a.isLt (fld_here b.isLt))))
  have e4 : fld N 13 5 = a.toNat := hN ▸ (fld_skip 5 (by decide) (fld_skip 0 d.isLt (fld_here a.isLt)))
  have e5 : fld N 8 5 = d.toNat := hN ▸ (fld_skip 0 (by decide) (fld_here d.isLt))
  exact of_word (word_eq hN (by show 0x800005b + s.toNat * 8388608 + b.toNat * 262144 + a.toNat * 8192 + d.toNat * 256 = _; omega) : encodeNat (.ldAcqD s b a d) = (N, 4)) (hN ▸ (show 0x5b + 2 ^ 8 * (d.toNat + 2 ^ 5 * (a.toNat + 2 ^ 5 * (b.toNat + 2 ^ 5 * (s.toNat + 2 ^ 3 * 0x2)))) < 2 ^ 32 from (under (m := 24) (by decide) (under (m := 19) d.isLt (under (m := 14) a.isLt (under (m := 9) b.isLt (under (m := 6) s.isLt (by decide)))))))) (hN ▸ odd_low _ _) (read5B e0 (by simp [raw5B, bv, e1, e2, e3, e4, e5]))

theorem stRelW (s : BitVec 3) (b : BitVec 5) (a : BitVec 5) (d : BitVec 5) : Statement (.stRelW s b a d) := by
  obtain ⟨N, hN⟩ : ∃ N, N = 0x5b + 2 ^ 8 * (d.toNat + 2 ^ 5 * (a.toNat + 2 ^ 5 * (b.toNat + 2 ^ 5 * (s.toNat + 2 ^ 3 * 0x4)))) := ⟨_, rfl⟩
  have e0 : fld N 0 8 = 91 := hN ▸ (fld_here (by decide))
  have e1 : fld N 26 6 = 4 := hN ▸ (fld_skip 18 (by decide) (fld_skip 13 d.isLt (fld_skip 8 a.isLt (fld_skip 3 b.isLt (fld_skip 0 s.isLt (fld_all (by decide)))))))
  have e2 : fld N 23 3 = s.toNat := hN ▸ (fld_skip 15 (by decide) (fld_skip 10 d.isLt (fld_skip 5 a.isLt (fld_skip 0 b.isLt (fld_here s.isLt)))))
  have e3 : fld N 18 5 = b.toNat := hN ▸ (fld_skip 10 (by decide) (fld_skip 5 d.isLt (fld_skip 0 a.isLt (fld_here b.isLt))))
  have e4 : fld N 13 5 = a.toNat := hN ▸ (fld_skip 5 (by decide) (fld_skip 0 d.isLt (fld_here a.isLt)))
  have e5 : fld N 8 5 = d.toNat := hN ▸ (fld_skip 0 (by decide) (fld_here d.isLt))
  exact of_word (word_eq hN (by show 0x1000005b + s.toNat * 8388608 + b.toNat * 262144 + a.toNat * 8192 + d.toNat * 256 = _; omega) : encodeNat (.stRelW s b a d) = (N, 4)) (hN ▸ (show 0x5b + 2 ^ 8 * (d.toNat + 2 ^ 5 * (a.toNat + 2 ^ 5 * (b.toNat + 2 ^ 5 * (s.toNat + 2 ^ 3 * 0x4)))) < 2 ^ 32 from (under (m := 24) (by decide) (under (m := 19) d.isLt (under (m := 14) a.isLt (under (m := 9) b.isLt (under (m := 6) s.isLt (by decide)))))))) (hN ▸ odd_low _ _) (read5B e0 (by simp [raw5B, bv, e1, e2, e3, e4, e5]))

theorem stRelD (s : BitVec 3) (b : BitVec 5) (a : BitVec 5) (d : BitVec 5) : Statement (.stRelD s b a d) := by
  obtain ⟨N, hN⟩ : ∃ N, N = 0x5b + 2 ^ 8 * (d.toNat + 2 ^ 5 * (a.toNat + 2 ^ 5 * (b.toNat + 2 ^ 5 * (s.toNat + 2 ^ 3 * 0x6)))) := ⟨_, rfl⟩
  have e0 : fld N 0 8 = 91 := hN ▸ (fld_here (by decide))
  have e1 : fld N 26 6 = 6 := hN ▸ (fld_skip 18 (by decide) (fld_skip 13 d.isLt (fld_skip 8 a.isLt (fld_skip 3 b.isLt (fld_skip 0 s.isLt (fld_all (by decide)))))))
  have e2 : fld N 23 3 = s.toNat := hN ▸ (fld_skip 15 (by decide) (fld_skip 10 d.isLt (fld_skip 5 a.isLt (fld_skip 0 b.isLt (fld_here s.isLt)))))
  have e3 : fld N 18 5 = b.toNat := hN ▸ (fld_skip 10 (by decide) (fld_skip 5 d.isLt (fld_skip 0 a.isLt (fld_here b.isLt))))
  have e4 : fld N 13 5 = a.toNat := hN ▸ (fld_skip 5 (by decide) (fld_skip 0 d.isLt (fld_here a.isLt)))
  have e5 : fld N 8 5 = d.toNat := hN ▸ (fld_skip 0 (by decide) (fld_here d.isLt))
  exact of_word (word_eq hN (by show 0x1800005b + s.toNat * 8388608 + b.toNat * 262144 + a.toNat * 8192 + d.toNat * 256 = _; omega) : encodeNat (.stRelD s b a d) = (N, 4)) (hN ▸ (show 0x5b + 2 ^ 8 * (d.toNat + 2 ^ 5 * (a.toNat + 2 ^ 5 * (b.toNat + 2 ^ 5 * (s.toNat + 2 ^ 3 * 0x6)))) < 2 ^ 32 from (under (m := 24) (by decide) (under (m := 19) d.isLt (under (m := 14) a.isLt (under (m := 9) b.isLt (under (m := 6) s.isLt (by decide)))))))) (hN ▸ odd_low _ _) (read5B e0 (by simp [raw5B, bv, e1, e2, e3, e4, e5]))

theorem ldSc (b : BitVec 5) (a : BitVec 5) (d : BitVec 5) : Statement (.ldSc b a d) := by
  obtain ⟨N, hN⟩ : ∃ N, N = 0x5b + 2 ^ 8 * (d.toNat + 2 ^ 5 * (a.toNat + 2 ^ 5 * (b.toNat + 2 ^ 5 * 0x40))) := ⟨_, rfl⟩
  have e0 : fld N 0 8 = 91 := hN ▸ (fld_here (by decide))
  have e1 : fld N 26 6 = 8 := hN ▸ (fld_skip 18 (by decide) (fld_skip 13 d.isLt (fld_skip 8 a.isLt (fld_skip 3 b.isLt (by decide)))))
  have e2 : fld N 23 9 = 64 := hN ▸ (fld_skip 15 (by decide) (fld_skip 10 d.isLt (fld_skip 5 a.isLt (fld_skip 0 b.isLt (fld_all (by decide))))))
  have e3 : fld N 18 5 = b.toNat := hN ▸ (fld_skip 10 (by decide) (fld_skip 5 d.isLt (fld_skip 0 a.isLt (fld_here b.isLt))))
  have e4 : fld N 13 5 = a.toNat := hN ▸ (fld_skip 5 (by decide) (fld_skip 0 d.isLt (fld_here a.isLt)))
  have e5 : fld N 8 5 = d.toNat := hN ▸ (fld_skip 0 (by decide) (fld_here d.isLt))
  exact of_word (word_eq hN (by show 0x2000005b + b.toNat * 262144 + a.toNat * 8192 + d.toNat * 256 = _; omega) : encodeNat (.ldSc b a d) = (N, 4)) (hN ▸ (show 0x5b + 2 ^ 8 * (d.toNat + 2 ^ 5 * (a.toNat + 2 ^ 5 * (b.toNat + 2 ^ 5 * 0x40))) < 2 ^ 32 from (under (m := 24) (by decide) (under (m := 19) d.isLt (under (m := 14) a.isLt (under (m := 9) b.isLt (by decide))))))) (hN ▸ odd_low _ _) (read5B e0 (by simp [raw5B, bv, e1, e2, e3, e4, e5]))

theorem stSc (b : BitVec 5) (a : BitVec 5) (d : BitVec 5) : Statement (.stSc b a d) := by
  obtain ⟨N, hN⟩ : ∃ N, N = 0x5b + 2 ^ 8 * (d.toNat + 2 ^ 5 * (a.toNat + 2 ^ 5 * (b.toNat + 2 ^ 5 * 0x50))) := ⟨_, rfl⟩
  have e0 : fld N 0 8 = 91 := hN ▸ (fld_here (by decide))
  have e1 : fld N 26 6 = 10 := hN ▸ (fld_skip 18 (by decide) (fld_skip 13 d.isLt (fld_skip 8 a.isLt (fld_skip 3 b.isLt (by decide)))))
  have e2 : fld N 23 9 = 80 := hN ▸ (fld_skip 15 (by decide) (fld_skip 10 d.isLt (fld_skip 5 a.isLt (fld_skip 0 b.isLt (fld_all (by decide))))))
  have e3 : fld N 18 5 = b.toNat := hN ▸ (fld_skip 10 (by decide) (fld_skip 5 d.isLt (fld_skip 0 a.isLt (fld_here b.isLt))))
  have e4 : fld N 13 5 = a.toNat := hN ▸ (fld_skip 5 (by decide) (fld_skip 0 d.isLt (fld_here a.isLt)))
  have e5 : fld N 8 5 = d.toNat := hN ▸ (fld_skip 0 (by decide) (fld_here d.isLt))
  exact of_word (word_eq hN (by show 0x2800005b + b.toNat * 262144 + a.toNat * 8192 + d.toNat * 256 = _; omega) : encodeNat (.stSc b a d) = (N, 4)) (hN ▸ (show 0x5b + 2 ^ 8 * (d.toNat + 2 ^ 5 * (a.toNat + 2 ^ 5 * (b.toNat + 2 ^ 5 * 0x50))) < 2 ^ 32 from (under (m := 24) (by decide) (under (m := 19) d.isLt (under (m := 14) a.isLt (under (m := 9) b.isLt (by decide))))))) (hN ▸ odd_low _ _) (read5B e0 (by simp [raw5B, bv, e1, e2, e3, e4, e5]))

theorem ldroW (b : BitVec 5) (a : BitVec 5) (d : BitVec 5) : Statement (.ldroW b a d) := by
  obtain ⟨N, hN⟩ : ∃ N, N = 0x5b + 2 ^ 8 * (d.toNat + 2 ^ 5 * (a.toNat + 2 ^ 5 * (b.toNat + 2 ^ 5 * 0x60))) := ⟨_, rfl⟩
  have e0 : fld N 0 8 = 91 := hN ▸ (fld_here (by decide))
  have e1 : fld N 26 6 = 12 := hN ▸ (fld_skip 18 (by decide) (fld_skip 13 d.isLt (fld_skip 8 a.isLt (fld_skip 3 b.isLt (by decide)))))
  have e2 : fld N 23 9 = 96 := hN ▸ (fld_skip 15 (by decide) (fld_skip 10 d.isLt (fld_skip 5 a.isLt (fld_skip 0 b.isLt (fld_all (by decide))))))
  have e3 : fld N 18 5 = b.toNat := hN ▸ (fld_skip 10 (by decide) (fld_skip 5 d.isLt (fld_skip 0 a.isLt (fld_here b.isLt))))
  have e4 : fld N 13 5 = a.toNat := hN ▸ (fld_skip 5 (by decide) (fld_skip 0 d.isLt (fld_here a.isLt)))
  have e5 : fld N 8 5 = d.toNat := hN ▸ (fld_skip 0 (by decide) (fld_here d.isLt))
  exact of_word (word_eq hN (by show 0x3000005b + b.toNat * 262144 + a.toNat * 8192 + d.toNat * 256 = _; omega) : encodeNat (.ldroW b a d) = (N, 4)) (hN ▸ (show 0x5b + 2 ^ 8 * (d.toNat + 2 ^ 5 * (a.toNat + 2 ^ 5 * (b.toNat + 2 ^ 5 * 0x60))) < 2 ^ 32 from (under (m := 24) (by decide) (under (m := 19) d.isLt (under (m := 14) a.isLt (under (m := 9) b.isLt (by decide))))))) (hN ▸ odd_low _ _) (read5B e0 (by simp [raw5B, bv, e1, e2, e3, e4, e5]))

theorem ldroD (b : BitVec 5) (a : BitVec 5) (d : BitVec 5) : Statement (.ldroD b a d) := by
  obtain ⟨N, hN⟩ : ∃ N, N = 0x5b + 2 ^ 8 * (d.toNat + 2 ^ 5 * (a.toNat + 2 ^ 5 * (b.toNat + 2 ^ 5 * 0x70))) := ⟨_, rfl⟩
  have e0 : fld N 0 8 = 91 := hN ▸ (fld_here (by decide))
  have e1 : fld N 26 6 = 14 := hN ▸ (fld_skip 18 (by decide) (fld_skip 13 d.isLt (fld_skip 8 a.isLt (fld_skip 3 b.isLt (by decide)))))
  have e2 : fld N 23 9 = 112 := hN ▸ (fld_skip 15 (by decide) (fld_skip 10 d.isLt (fld_skip 5 a.isLt (fld_skip 0 b.isLt (fld_all (by decide))))))
  have e3 : fld N 18 5 = b.toNat := hN ▸ (fld_skip 10 (by decide) (fld_skip 5 d.isLt (fld_skip 0 a.isLt (fld_here b.isLt))))
  have e4 : fld N 13 5 = a.toNat := hN ▸ (fld_skip 5 (by decide) (fld_skip 0 d.isLt (fld_here a.isLt)))
  have e5 : fld N 8 5 = d.toNat := hN ▸ (fld_skip 0 (by decide) (fld_here d.isLt))
  exact of_word (word_eq hN (by show 0x3800005b + b.toNat * 262144 + a.toNat * 8192 + d.toNat * 256 = _; omega) : encodeNat (.ldroD b a d) = (N, 4)) (hN ▸ (show 0x5b + 2 ^ 8 * (d.toNat + 2 ^ 5 * (a.toNat + 2 ^ 5 * (b.toNat + 2 ^ 5 * 0x70))) < 2 ^ 32 from (under (m := 24) (by decide) (under (m := 19) d.isLt (under (m := 14) a.isLt (under (m := 9) b.isLt (by decide))))))) (hN ▸ odd_low _ _) (read5B e0 (by simp [raw5B, bv, e1, e2, e3, e4, e5]))

theorem ldf (b : BitVec 5) (a : BitVec 5) (d : BitVec 5) : Statement (.ldf b a d) := by
  obtain ⟨N, hN⟩ : ∃ N, N = 0x5b + 2 ^ 8 * (d.toNat + 2 ^ 5 * (a.toNat + 2 ^ 5 * (b.toNat + 2 ^ 5 * 0x80))) := ⟨_, rfl⟩
  have e0 : fld N 0 8 = 91 := hN ▸ (fld_here (by decide))
  have e1 : fld N 26 6 = 16 := hN ▸ (fld_skip 18 (by decide) (fld_skip 13 d.isLt (fld_skip 8 a.isLt (fld_skip 3 b.isLt (by decide)))))
  have e2 : fld N 23 9 = 128 := hN ▸ (fld_skip 15 (by decide) (fld_skip 10 d.isLt (fld_skip 5 a.isLt (fld_skip 0 b.isLt (fld_all (by decide))))))
  have e3 : fld N 18 5 = b.toNat := hN ▸ (fld_skip 10 (by decide) (fld_skip 5 d.isLt (fld_skip 0 a.isLt (fld_here b.isLt))))
  have e4 : fld N 13 5 = a.toNat := hN ▸ (fld_skip 5 (by decide) (fld_skip 0 d.isLt (fld_here a.isLt)))
  have e5 : fld N 8 5 = d.toNat := hN ▸ (fld_skip 0 (by decide) (fld_here d.isLt))
  exact of_word (word_eq hN (by show 0x4000005b + b.toNat * 262144 + a.toNat * 8192 + d.toNat * 256 = _; omega) : encodeNat (.ldf b a d) = (N, 4)) (hN ▸ (show 0x5b + 2 ^ 8 * (d.toNat + 2 ^ 5 * (a.toNat + 2 ^ 5 * (b.toNat + 2 ^ 5 * 0x80))) < 2 ^ 32 from (under (m := 24) (by decide) (under (m := 19) d.isLt (under (m := 14) a.isLt (under (m := 9) b.isLt (by decide))))))) (hN ▸ odd_low _ _) (read5B e0 (by simp [raw5B, bv, e1, e2, e3, e4, e5]))

theorem pre (b : BitVec 5) (a : BitVec 5) : Statement (.pre b a) := by
  obtain ⟨N, hN⟩ : ∃ N, N = 0x5b + 2 ^ 8 * (0x0 + 2 ^ 5 * (a.toNat + 2 ^ 5 * (b.toNat + 2 ^ 5 * 0x90))) := ⟨_, rfl⟩
  have e0 : fld N 0 8 = 91 := hN ▸ (fld_here (by decide))
  have e1 : fld N 26 6 = 18 := hN ▸ (fld_skip 18 (by decide) (fld_skip 13 (by decide) (fld_skip 8 a.isLt (fld_skip 3 b.isLt (by decide)))))
  have e2 : fld N 23 9 = 144 := hN ▸ (fld_skip 15 (by decide) (fld_skip 10 (by decide) (fld_skip 5 a.isLt (fld_skip 0 b.isLt (fld_all (by decide))))))
  have e3 : fld N 8 5 = 0 := hN ▸ (fld_skip 0 (by decide) (fld_here (by decide)))
  have e4 : fld N 18 5 = b.toNat := hN ▸ (fld_skip 10 (by decide) (fld_skip 5 (by decide) (fld_skip 0 a.isLt (fld_here b.isLt))))
  have e5 : fld N 13 5 = a.toNat := hN ▸ (fld_skip 5 (by decide) (fld_skip 0 (by decide) (fld_here a.isLt)))
  exact of_word (word_eq hN (by show 0x4800005b + b.toNat * 262144 + a.toNat * 8192 = _; omega) : encodeNat (.pre b a) = (N, 4)) (hN ▸ (show 0x5b + 2 ^ 8 * (0x0 + 2 ^ 5 * (a.toNat + 2 ^ 5 * (b.toNat + 2 ^ 5 * 0x90))) < 2 ^ 32 from (under (m := 24) (by decide) (under (m := 19) (by decide) (under (m := 14) a.isLt (under (m := 9) b.isLt (by decide))))))) (hN ▸ odd_low _ _) (read5B e0 (by simp [raw5B, bv, e1, e2, e3, e4, e5]))

theorem bmov (b : BitVec 5) (a : BitVec 5) (d : BitVec 5) : Statement (.bmov b a d) := by
  obtain ⟨N, hN⟩ : ∃ N, N = 0x5b + 2 ^ 8 * (d.toNat + 2 ^ 5 * (a.toNat + 2 ^ 5 * (b.toNat + 2 ^ 5 * 0xa0))) := ⟨_, rfl⟩
  have e0 : fld N 0 8 = 91 := hN ▸ (fld_here (by decide))
  have e1 : fld N 26 6 = 20 := hN ▸ (fld_skip 18 (by decide) (fld_skip 13 d.isLt (fld_skip 8 a.isLt (fld_skip 3 b.isLt (by decide)))))
  have e2 : fld N 23 9 = 160 := hN ▸ (fld_skip 15 (by decide) (fld_skip 10 d.isLt (fld_skip 5 a.isLt (fld_skip 0 b.isLt (fld_all (by decide))))))
  have e3 : fld N 18 5 = b.toNat := hN ▸ (fld_skip 10 (by decide) (fld_skip 5 d.isLt (fld_skip 0 a.isLt (fld_here b.isLt))))
  have e4 : fld N 13 5 = a.toNat := hN ▸ (fld_skip 5 (by decide) (fld_skip 0 d.isLt (fld_here a.isLt)))
  have e5 : fld N 8 5 = d.toNat := hN ▸ (fld_skip 0 (by decide) (fld_here d.isLt))
  exact of_word (word_eq hN (by show 0x5000005b + b.toNat * 262144 + a.toNat * 8192 + d.toNat * 256 = _; omega) : encodeNat (.bmov b a d) = (N, 4)) (hN ▸ (show 0x5b + 2 ^ 8 * (d.toNat + 2 ^ 5 * (a.toNat + 2 ^ 5 * (b.toNat + 2 ^ 5 * 0xa0))) < 2 ^ 32 from (under (m := 24) (by decide) (under (m := 19) d.isLt (under (m := 14) a.isLt (under (m := 9) b.isLt (by decide))))))) (hN ▸ odd_low _ _) (read5B e0 (by simp [raw5B, bv, e1, e2, e3, e4, e5]))

theorem amoAdd (w : BitVec 1) (s : BitVec 3) (b : BitVec 5) (a : BitVec 5) (d : BitVec 5) : Statement (.amoAdd w s b a d) := by
  obtain ⟨N, hN⟩ : ∃ N, N = 0x5d + 2 ^ 8 * (d.toNat + 2 ^ 5 * (a.toNat + 2 ^ 5 * (b.toNat + 2 ^ 5 * (s.toNat + 2 ^ 3 * (w.toNat + 2 ^ 1 * 0x0))))) := ⟨_, rfl⟩
  have e0 : fld N 0 8 = 93 := hN ▸ (fld_here (by decide))
  have e1 : fld N 27 5 = 0 := hN ▸ (fld_skip 19 (by decide) (fld_skip 14 d.isLt (fld_skip 9 a.isLt (fld_skip 4 b.isLt (fld_skip 1 s.isLt (fld_skip 0 w.isLt (fld_all (by decide))))))))
  have e2 : fld N 26 1 = w.toNat := hN ▸ (fld_skip 18 (by decide) (fld_skip 13 d.isLt (fld_skip 8 a.isLt (fld_skip 3 b.isLt (fld_skip 0 s.isLt (fld_here w.isLt))))))
  have e3 : fld N 23 3 = s.toNat := hN ▸ (fld_skip 15 (by decide) (fld_skip 10 d.isLt (fld_skip 5 a.isLt (fld_skip 0 b.isLt (fld_here s.isLt)))))
  have e4 : fld N 18 5 = b.toNat := hN ▸ (fld_skip 10 (by decide) (fld_skip 5 d.isLt (fld_skip 0 a.isLt (fld_here b.isLt))))
  have e5 : fld N 13 5 = a.toNat := hN ▸ (fld_skip 5 (by decide) (fld_skip 0 d.isLt (fld_here a.isLt)))
  have e6 : fld N 8 5 = d.toNat := hN ▸ (fld_skip 0 (by decide) (fld_here d.isLt))
  exact of_word (word_eq hN (by show 0x5d + w.toNat * 67108864 + s.toNat * 8388608 + b.toNat * 262144 + a.toNat * 8192 + d.toNat * 256 = _; omega) : encodeNat (.amoAdd w s b a d) = (N, 4)) (hN ▸ (show 0x5d + 2 ^ 8 * (d.toNat + 2 ^ 5 * (a.toNat + 2 ^ 5 * (b.toNat + 2 ^ 5 * (s.toNat + 2 ^ 3 * (w.toNat + 2 ^ 1 * 0x0))))) < 2 ^ 32 from (under (m := 24) (by decide) (under (m := 19) d.isLt (under (m := 14) a.isLt (under (m := 9) b.isLt (under (m := 6) s.isLt (under (m := 5) w.isLt (by decide))))))))) (hN ▸ odd_low _ _) (read5D e0 (by simp [raw5D, bv, e1, e2, e3, e4, e5, e6]))

theorem amoMin (w : BitVec 1) (s : BitVec 3) (b : BitVec 5) (a : BitVec 5) (d : BitVec 5) : Statement (.amoMin w s b a d) := by
  obtain ⟨N, hN⟩ : ∃ N, N = 0x5d + 2 ^ 8 * (d.toNat + 2 ^ 5 * (a.toNat + 2 ^ 5 * (b.toNat + 2 ^ 5 * (s.toNat + 2 ^ 3 * (w.toNat + 2 ^ 1 * 0x1))))) := ⟨_, rfl⟩
  have e0 : fld N 0 8 = 93 := hN ▸ (fld_here (by decide))
  have e1 : fld N 27 5 = 1 := hN ▸ (fld_skip 19 (by decide) (fld_skip 14 d.isLt (fld_skip 9 a.isLt (fld_skip 4 b.isLt (fld_skip 1 s.isLt (fld_skip 0 w.isLt (fld_all (by decide))))))))
  have e2 : fld N 26 1 = w.toNat := hN ▸ (fld_skip 18 (by decide) (fld_skip 13 d.isLt (fld_skip 8 a.isLt (fld_skip 3 b.isLt (fld_skip 0 s.isLt (fld_here w.isLt))))))
  have e3 : fld N 23 3 = s.toNat := hN ▸ (fld_skip 15 (by decide) (fld_skip 10 d.isLt (fld_skip 5 a.isLt (fld_skip 0 b.isLt (fld_here s.isLt)))))
  have e4 : fld N 18 5 = b.toNat := hN ▸ (fld_skip 10 (by decide) (fld_skip 5 d.isLt (fld_skip 0 a.isLt (fld_here b.isLt))))
  have e5 : fld N 13 5 = a.toNat := hN ▸ (fld_skip 5 (by decide) (fld_skip 0 d.isLt (fld_here a.isLt)))
  have e6 : fld N 8 5 = d.toNat := hN ▸ (fld_skip 0 (by decide) (fld_here d.isLt))
  exact of_word (word_eq hN (by show 0x800005d + w.toNat * 67108864 + s.toNat * 8388608 + b.toNat * 262144 + a.toNat * 8192 + d.toNat * 256 = _; omega) : encodeNat (.amoMin w s b a d) = (N, 4)) (hN ▸ (show 0x5d + 2 ^ 8 * (d.toNat + 2 ^ 5 * (a.toNat + 2 ^ 5 * (b.toNat + 2 ^ 5 * (s.toNat + 2 ^ 3 * (w.toNat + 2 ^ 1 * 0x1))))) < 2 ^ 32 from (under (m := 24) (by decide) (under (m := 19) d.isLt (under (m := 14) a.isLt (under (m := 9) b.isLt (under (m := 6) s.isLt (under (m := 5) w.isLt (by decide))))))))) (hN ▸ odd_low _ _) (read5D e0 (by simp [raw5D, bv, e1, e2, e3, e4, e5, e6]))

theorem amoMax (w : BitVec 1) (s : BitVec 3) (b : BitVec 5) (a : BitVec 5) (d : BitVec 5) : Statement (.amoMax w s b a d) := by
  obtain ⟨N, hN⟩ : ∃ N, N = 0x5d + 2 ^ 8 * (d.toNat + 2 ^ 5 * (a.toNat + 2 ^ 5 * (b.toNat + 2 ^ 5 * (s.toNat + 2 ^ 3 * (w.toNat + 2 ^ 1 * 0x2))))) := ⟨_, rfl⟩
  have e0 : fld N 0 8 = 93 := hN ▸ (fld_here (by decide))
  have e1 : fld N 27 5 = 2 := hN ▸ (fld_skip 19 (by decide) (fld_skip 14 d.isLt (fld_skip 9 a.isLt (fld_skip 4 b.isLt (fld_skip 1 s.isLt (fld_skip 0 w.isLt (fld_all (by decide))))))))
  have e2 : fld N 26 1 = w.toNat := hN ▸ (fld_skip 18 (by decide) (fld_skip 13 d.isLt (fld_skip 8 a.isLt (fld_skip 3 b.isLt (fld_skip 0 s.isLt (fld_here w.isLt))))))
  have e3 : fld N 23 3 = s.toNat := hN ▸ (fld_skip 15 (by decide) (fld_skip 10 d.isLt (fld_skip 5 a.isLt (fld_skip 0 b.isLt (fld_here s.isLt)))))
  have e4 : fld N 18 5 = b.toNat := hN ▸ (fld_skip 10 (by decide) (fld_skip 5 d.isLt (fld_skip 0 a.isLt (fld_here b.isLt))))
  have e5 : fld N 13 5 = a.toNat := hN ▸ (fld_skip 5 (by decide) (fld_skip 0 d.isLt (fld_here a.isLt)))
  have e6 : fld N 8 5 = d.toNat := hN ▸ (fld_skip 0 (by decide) (fld_here d.isLt))
  exact of_word (word_eq hN (by show 0x1000005d + w.toNat * 67108864 + s.toNat * 8388608 + b.toNat * 262144 + a.toNat * 8192 + d.toNat * 256 = _; omega) : encodeNat (.amoMax w s b a d) = (N, 4)) (hN ▸ (show 0x5d + 2 ^ 8 * (d.toNat + 2 ^ 5 * (a.toNat + 2 ^ 5 * (b.toNat + 2 ^ 5 * (s.toNat + 2 ^ 3 * (w.toNat + 2 ^ 1 * 0x2))))) < 2 ^ 32 from (under (m := 24) (by decide) (under (m := 19) d.isLt (under (m := 14) a.isLt (under (m := 9) b.isLt (under (m := 6) s.isLt (under (m := 5) w.isLt (by decide))))))))) (hN ▸ odd_low _ _) (read5D e0 (by simp [raw5D, bv, e1, e2, e3, e4, e5, e6]))

theorem amoMinn (w : BitVec 1) (s : BitVec 3) (b : BitVec 5) (a : BitVec 5) (d : BitVec 5) : Statement (.amoMinn w s b a d) := by
  obtain ⟨N, hN⟩ : ∃ N, N = 0x5d + 2 ^ 8 * (d.toNat + 2 ^ 5 * (a.toNat + 2 ^ 5 * (b.toNat + 2 ^ 5 * (s.toNat + 2 ^ 3 * (w.toNat + 2 ^ 1 * 0x3))))) := ⟨_, rfl⟩
  have e0 : fld N 0 8 = 93 := hN ▸ (fld_here (by decide))
  have e1 : fld N 27 5 = 3 := hN ▸ (fld_skip 19 (by decide) (fld_skip 14 d.isLt (fld_skip 9 a.isLt (fld_skip 4 b.isLt (fld_skip 1 s.isLt (fld_skip 0 w.isLt (fld_all (by decide))))))))
  have e2 : fld N 26 1 = w.toNat := hN ▸ (fld_skip 18 (by decide) (fld_skip 13 d.isLt (fld_skip 8 a.isLt (fld_skip 3 b.isLt (fld_skip 0 s.isLt (fld_here w.isLt))))))
  have e3 : fld N 23 3 = s.toNat := hN ▸ (fld_skip 15 (by decide) (fld_skip 10 d.isLt (fld_skip 5 a.isLt (fld_skip 0 b.isLt (fld_here s.isLt)))))
  have e4 : fld N 18 5 = b.toNat := hN ▸ (fld_skip 10 (by decide) (fld_skip 5 d.isLt (fld_skip 0 a.isLt (fld_here b.isLt))))
  have e5 : fld N 13 5 = a.toNat := hN ▸ (fld_skip 5 (by decide) (fld_skip 0 d.isLt (fld_here a.isLt)))
  have e6 : fld N 8 5 = d.toNat := hN ▸ (fld_skip 0 (by decide) (fld_here d.isLt))
  exact of_word (word_eq hN (by show 0x1800005d + w.toNat * 67108864 + s.toNat * 8388608 + b.toNat * 262144 + a.toNat * 8192 + d.toNat * 256 = _; omega) : encodeNat (.amoMinn w s b a d) = (N, 4)) (hN ▸ (show 0x5d + 2 ^ 8 * (d.toNat + 2 ^ 5 * (a.toNat + 2 ^ 5 * (b.toNat + 2 ^ 5 * (s.toNat + 2 ^ 3 * (w.toNat + 2 ^ 1 * 0x3))))) < 2 ^ 32 from (under (m := 24) (by decide) (under (m := 19) d.isLt (under (m := 14) a.isLt (under (m := 9) b.isLt (under (m := 6) s.isLt (under (m := 5) w.isLt (by decide))))))))) (hN ▸ odd_low _ _) (read5D e0 (by simp [raw5D, bv, e1, e2, e3, e4, e5, e6]))

theorem amoMaxn (w : BitVec 1) (s : BitVec 3) (b : BitVec 5) (a : BitVec 5) (d : BitVec 5) : Statement (.amoMaxn w s b a d) := by
  obtain ⟨N, hN⟩ : ∃ N, N = 0x5d + 2 ^ 8 * (d.toNat + 2 ^ 5 * (a.toNat + 2 ^ 5 * (b.toNat + 2 ^ 5 * (s.toNat + 2 ^ 3 * (w.toNat + 2 ^ 1 * 0x4))))) := ⟨_, rfl⟩
  have e0 : fld N 0 8 = 93 := hN ▸ (fld_here (by decide))
  have e1 : fld N 27 5 = 4 := hN ▸ (fld_skip 19 (by decide) (fld_skip 14 d.isLt (fld_skip 9 a.isLt (fld_skip 4 b.isLt (fld_skip 1 s.isLt (fld_skip 0 w.isLt (fld_all (by decide))))))))
  have e2 : fld N 26 1 = w.toNat := hN ▸ (fld_skip 18 (by decide) (fld_skip 13 d.isLt (fld_skip 8 a.isLt (fld_skip 3 b.isLt (fld_skip 0 s.isLt (fld_here w.isLt))))))
  have e3 : fld N 23 3 = s.toNat := hN ▸ (fld_skip 15 (by decide) (fld_skip 10 d.isLt (fld_skip 5 a.isLt (fld_skip 0 b.isLt (fld_here s.isLt)))))
  have e4 : fld N 18 5 = b.toNat := hN ▸ (fld_skip 10 (by decide) (fld_skip 5 d.isLt (fld_skip 0 a.isLt (fld_here b.isLt))))
  have e5 : fld N 13 5 = a.toNat := hN ▸ (fld_skip 5 (by decide) (fld_skip 0 d.isLt (fld_here a.isLt)))
  have e6 : fld N 8 5 = d.toNat := hN ▸ (fld_skip 0 (by decide) (fld_here d.isLt))
  exact of_word (word_eq hN (by show 0x2000005d + w.toNat * 67108864 + s.toNat * 8388608 + b.toNat * 262144 + a.toNat * 8192 + d.toNat * 256 = _; omega) : encodeNat (.amoMaxn w s b a d) = (N, 4)) (hN ▸ (show 0x5d + 2 ^ 8 * (d.toNat + 2 ^ 5 * (a.toNat + 2 ^ 5 * (b.toNat + 2 ^ 5 * (s.toNat + 2 ^ 3 * (w.toNat + 2 ^ 1 * 0x4))))) < 2 ^ 32 from (under (m := 24) (by decide) (under (m := 19) d.isLt (under (m := 14) a.isLt (under (m := 9) b.isLt (under (m := 6) s.isLt (under (m := 5) w.isLt (by decide))))))))) (hN ▸ odd_low _ _) (read5D e0 (by simp [raw5D, bv, e1, e2, e3, e4, e5, e6]))

theorem amoAnd (w : BitVec 1) (s : BitVec 3) (b : BitVec 5) (a : BitVec 5) (d : BitVec 5) : Statement (.amoAnd w s b a d) := by
  obtain ⟨N, hN⟩ : ∃ N, N = 0x5d + 2 ^ 8 * (d.toNat + 2 ^ 5 * (a.toNat + 2 ^ 5 * (b.toNat + 2 ^ 5 * (s.toNat + 2 ^ 3 * (w.toNat + 2 ^ 1 * 0x5))))) := ⟨_, rfl⟩
  have e0 : fld N 0 8 = 93 := hN ▸ (fld_here (by decide))
  have e1 : fld N 27 5 = 5 := hN ▸ (fld_skip 19 (by decide) (fld_skip 14 d.isLt (fld_skip 9 a.isLt (fld_skip 4 b.isLt (fld_skip 1 s.isLt (fld_skip 0 w.isLt (fld_all (by decide))))))))
  have e2 : fld N 26 1 = w.toNat := hN ▸ (fld_skip 18 (by decide) (fld_skip 13 d.isLt (fld_skip 8 a.isLt (fld_skip 3 b.isLt (fld_skip 0 s.isLt (fld_here w.isLt))))))
  have e3 : fld N 23 3 = s.toNat := hN ▸ (fld_skip 15 (by decide) (fld_skip 10 d.isLt (fld_skip 5 a.isLt (fld_skip 0 b.isLt (fld_here s.isLt)))))
  have e4 : fld N 18 5 = b.toNat := hN ▸ (fld_skip 10 (by decide) (fld_skip 5 d.isLt (fld_skip 0 a.isLt (fld_here b.isLt))))
  have e5 : fld N 13 5 = a.toNat := hN ▸ (fld_skip 5 (by decide) (fld_skip 0 d.isLt (fld_here a.isLt)))
  have e6 : fld N 8 5 = d.toNat := hN ▸ (fld_skip 0 (by decide) (fld_here d.isLt))
  exact of_word (word_eq hN (by show 0x2800005d + w.toNat * 67108864 + s.toNat * 8388608 + b.toNat * 262144 + a.toNat * 8192 + d.toNat * 256 = _; omega) : encodeNat (.amoAnd w s b a d) = (N, 4)) (hN ▸ (show 0x5d + 2 ^ 8 * (d.toNat + 2 ^ 5 * (a.toNat + 2 ^ 5 * (b.toNat + 2 ^ 5 * (s.toNat + 2 ^ 3 * (w.toNat + 2 ^ 1 * 0x5))))) < 2 ^ 32 from (under (m := 24) (by decide) (under (m := 19) d.isLt (under (m := 14) a.isLt (under (m := 9) b.isLt (under (m := 6) s.isLt (under (m := 5) w.isLt (by decide))))))))) (hN ▸ odd_low _ _) (read5D e0 (by simp [raw5D, bv, e1, e2, e3, e4, e5, e6]))

theorem amoOr (w : BitVec 1) (s : BitVec 3) (b : BitVec 5) (a : BitVec 5) (d : BitVec 5) : Statement (.amoOr w s b a d) := by
  obtain ⟨N, hN⟩ : ∃ N, N = 0x5d + 2 ^ 8 * (d.toNat + 2 ^ 5 * (a.toNat + 2 ^ 5 * (b.toNat + 2 ^ 5 * (s.toNat + 2 ^ 3 * (w.toNat + 2 ^ 1 * 0x6))))) := ⟨_, rfl⟩
  have e0 : fld N 0 8 = 93 := hN ▸ (fld_here (by decide))
  have e1 : fld N 27 5 = 6 := hN ▸ (fld_skip 19 (by decide) (fld_skip 14 d.isLt (fld_skip 9 a.isLt (fld_skip 4 b.isLt (fld_skip 1 s.isLt (fld_skip 0 w.isLt (fld_all (by decide))))))))
  have e2 : fld N 26 1 = w.toNat := hN ▸ (fld_skip 18 (by decide) (fld_skip 13 d.isLt (fld_skip 8 a.isLt (fld_skip 3 b.isLt (fld_skip 0 s.isLt (fld_here w.isLt))))))
  have e3 : fld N 23 3 = s.toNat := hN ▸ (fld_skip 15 (by decide) (fld_skip 10 d.isLt (fld_skip 5 a.isLt (fld_skip 0 b.isLt (fld_here s.isLt)))))
  have e4 : fld N 18 5 = b.toNat := hN ▸ (fld_skip 10 (by decide) (fld_skip 5 d.isLt (fld_skip 0 a.isLt (fld_here b.isLt))))
  have e5 : fld N 13 5 = a.toNat := hN ▸ (fld_skip 5 (by decide) (fld_skip 0 d.isLt (fld_here a.isLt)))
  have e6 : fld N 8 5 = d.toNat := hN ▸ (fld_skip 0 (by decide) (fld_here d.isLt))
  exact of_word (word_eq hN (by show 0x3000005d + w.toNat * 67108864 + s.toNat * 8388608 + b.toNat * 262144 + a.toNat * 8192 + d.toNat * 256 = _; omega) : encodeNat (.amoOr w s b a d) = (N, 4)) (hN ▸ (show 0x5d + 2 ^ 8 * (d.toNat + 2 ^ 5 * (a.toNat + 2 ^ 5 * (b.toNat + 2 ^ 5 * (s.toNat + 2 ^ 3 * (w.toNat + 2 ^ 1 * 0x6))))) < 2 ^ 32 from (under (m := 24) (by decide) (under (m := 19) d.isLt (under (m := 14) a.isLt (under (m := 9) b.isLt (under (m := 6) s.isLt (under (m := 5) w.isLt (by decide))))))))) (hN ▸ odd_low _ _) (read5D e0 (by simp [raw5D, bv, e1, e2, e3, e4, e5, e6]))

theorem amoXor (w : BitVec 1) (s : BitVec 3) (b : BitVec 5) (a : BitVec 5) (d : BitVec 5) : Statement (.amoXor w s b a d) := by
  obtain ⟨N, hN⟩ : ∃ N, N = 0x5d + 2 ^ 8 * (d.toNat + 2 ^ 5 * (a.toNat + 2 ^ 5 * (b.toNat + 2 ^ 5 * (s.toNat + 2 ^ 3 * (w.toNat + 2 ^ 1 * 0x7))))) := ⟨_, rfl⟩
  have e0 : fld N 0 8 = 93 := hN ▸ (fld_here (by decide))
  have e1 : fld N 27 5 = 7 := hN ▸ (fld_skip 19 (by decide) (fld_skip 14 d.isLt (fld_skip 9 a.isLt (fld_skip 4 b.isLt (fld_skip 1 s.isLt (fld_skip 0 w.isLt (fld_all (by decide))))))))
  have e2 : fld N 26 1 = w.toNat := hN ▸ (fld_skip 18 (by decide) (fld_skip 13 d.isLt (fld_skip 8 a.isLt (fld_skip 3 b.isLt (fld_skip 0 s.isLt (fld_here w.isLt))))))
  have e3 : fld N 23 3 = s.toNat := hN ▸ (fld_skip 15 (by decide) (fld_skip 10 d.isLt (fld_skip 5 a.isLt (fld_skip 0 b.isLt (fld_here s.isLt)))))
  have e4 : fld N 18 5 = b.toNat := hN ▸ (fld_skip 10 (by decide) (fld_skip 5 d.isLt (fld_skip 0 a.isLt (fld_here b.isLt))))
  have e5 : fld N 13 5 = a.toNat := hN ▸ (fld_skip 5 (by decide) (fld_skip 0 d.isLt (fld_here a.isLt)))
  have e6 : fld N 8 5 = d.toNat := hN ▸ (fld_skip 0 (by decide) (fld_here d.isLt))
  exact of_word (word_eq hN (by show 0x3800005d + w.toNat * 67108864 + s.toNat * 8388608 + b.toNat * 262144 + a.toNat * 8192 + d.toNat * 256 = _; omega) : encodeNat (.amoXor w s b a d) = (N, 4)) (hN ▸ (show 0x5d + 2 ^ 8 * (d.toNat + 2 ^ 5 * (a.toNat + 2 ^ 5 * (b.toNat + 2 ^ 5 * (s.toNat + 2 ^ 3 * (w.toNat + 2 ^ 1 * 0x7))))) < 2 ^ 32 from (under (m := 24) (by decide) (under (m := 19) d.isLt (under (m := 14) a.isLt (under (m := 9) b.isLt (under (m := 6) s.isLt (under (m := 5) w.isLt (by decide))))))))) (hN ▸ odd_low _ _) (read5D e0 (by simp [raw5D, bv, e1, e2, e3, e4, e5, e6]))

theorem amoSwp (w : BitVec 1) (s : BitVec 3) (b : BitVec 5) (a : BitVec 5) (d : BitVec 5) : Statement (.amoSwp w s b a d) := by
  obtain ⟨N, hN⟩ : ∃ N, N = 0x5d + 2 ^ 8 * (d.toNat + 2 ^ 5 * (a.toNat + 2 ^ 5 * (b.toNat + 2 ^ 5 * (s.toNat + 2 ^ 3 * (w.toNat + 2 ^ 1 * 0x8))))) := ⟨_, rfl⟩
  have e0 : fld N 0 8 = 93 := hN ▸ (fld_here (by decide))
  have e1 : fld N 27 5 = 8 := hN ▸ (fld_skip 19 (by decide) (fld_skip 14 d.isLt (fld_skip 9 a.isLt (fld_skip 4 b.isLt (fld_skip 1 s.isLt (fld_skip 0 w.isLt (fld_all (by decide))))))))
  have e2 : fld N 26 1 = w.toNat := hN ▸ (fld_skip 18 (by decide) (fld_skip 13 d.isLt (fld_skip 8 a.isLt (fld_skip 3 b.isLt (fld_skip 0 s.isLt (fld_here w.isLt))))))
  have e3 : fld N 23 3 = s.toNat := hN ▸ (fld_skip 15 (by decide) (fld_skip 10 d.isLt (fld_skip 5 a.isLt (fld_skip 0 b.isLt (fld_here s.isLt)))))
  have e4 : fld N 18 5 = b.toNat := hN ▸ (fld_skip 10 (by decide) (fld_skip 5 d.isLt (fld_skip 0 a.isLt (fld_here b.isLt))))
  have e5 : fld N 13 5 = a.toNat := hN ▸ (fld_skip 5 (by decide) (fld_skip 0 d.isLt (fld_here a.isLt)))
  have e6 : fld N 8 5 = d.toNat := hN ▸ (fld_skip 0 (by decide) (fld_here d.isLt))
  exact of_word (word_eq hN (by show 0x4000005d + w.toNat * 67108864 + s.toNat * 8388608 + b.toNat * 262144 + a.toNat * 8192 + d.toNat * 256 = _; omega) : encodeNat (.amoSwp w s b a d) = (N, 4)) (hN ▸ (show 0x5d + 2 ^ 8 * (d.toNat + 2 ^ 5 * (a.toNat + 2 ^ 5 * (b.toNat + 2 ^ 5 * (s.toNat + 2 ^ 3 * (w.toNat + 2 ^ 1 * 0x8))))) < 2 ^ 32 from (under (m := 24) (by decide) (under (m := 19) d.isLt (under (m := 14) a.isLt (under (m := 9) b.isLt (under (m := 6) s.isLt (under (m := 5) w.isLt (by decide))))))))) (hN ▸ odd_low _ _) (read5D e0 (by simp [raw5D, bv, e1, e2, e3, e4, e5, e6]))

theorem amoCas (w : BitVec 1) (s : BitVec 3) (b : BitVec 5) (a : BitVec 5) (d : BitVec 5) : Statement (.amoCas w s b a d) := by
  obtain ⟨N, hN⟩ : ∃ N, N = 0x5d + 2 ^ 8 * (d.toNat + 2 ^ 5 * (a.toNat + 2 ^ 5 * (b.toNat + 2 ^ 5 * (s.toNat + 2 ^ 3 * (w.toNat + 2 ^ 1 * 0x9))))) := ⟨_, rfl⟩
  have e0 : fld N 0 8 = 93 := hN ▸ (fld_here (by decide))
  have e1 : fld N 27 5 = 9 := hN ▸ (fld_skip 19 (by decide) (fld_skip 14 d.isLt (fld_skip 9 a.isLt (fld_skip 4 b.isLt (fld_skip 1 s.isLt (fld_skip 0 w.isLt (fld_all (by decide))))))))
  have e2 : fld N 26 1 = w.toNat := hN ▸ (fld_skip 18 (by decide) (fld_skip 13 d.isLt (fld_skip 8 a.isLt (fld_skip 3 b.isLt (fld_skip 0 s.isLt (fld_here w.isLt))))))
  have e3 : fld N 23 3 = s.toNat := hN ▸ (fld_skip 15 (by decide) (fld_skip 10 d.isLt (fld_skip 5 a.isLt (fld_skip 0 b.isLt (fld_here s.isLt)))))
  have e4 : fld N 18 5 = b.toNat := hN ▸ (fld_skip 10 (by decide) (fld_skip 5 d.isLt (fld_skip 0 a.isLt (fld_here b.isLt))))
  have e5 : fld N 13 5 = a.toNat := hN ▸ (fld_skip 5 (by decide) (fld_skip 0 d.isLt (fld_here a.isLt)))
  have e6 : fld N 8 5 = d.toNat := hN ▸ (fld_skip 0 (by decide) (fld_here d.isLt))
  exact of_word (word_eq hN (by show 0x4800005d + w.toNat * 67108864 + s.toNat * 8388608 + b.toNat * 262144 + a.toNat * 8192 + d.toNat * 256 = _; omega) : encodeNat (.amoCas w s b a d) = (N, 4)) (hN ▸ (show 0x5d + 2 ^ 8 * (d.toNat + 2 ^ 5 * (a.toNat + 2 ^ 5 * (b.toNat + 2 ^ 5 * (s.toNat + 2 ^ 3 * (w.toNat + 2 ^ 1 * 0x9))))) < 2 ^ 32 from (under (m := 24) (by decide) (under (m := 19) d.isLt (under (m := 14) a.isLt (under (m := 9) b.isLt (under (m := 6) s.isLt (under (m := 5) w.isLt (by decide))))))))) (hN ▸ odd_low _ _) (read5D e0 (by simp [raw5D, bv, e1, e2, e3, e4, e5, e6]))

theorem amoFadd (w : BitVec 1) (s : BitVec 3) (b : BitVec 5) (a : BitVec 5) (d : BitVec 5) : Statement (.amoFadd w s b a d) := by
  obtain ⟨N, hN⟩ : ∃ N, N = 0x5d + 2 ^ 8 * (d.toNat + 2 ^ 5 * (a.toNat + 2 ^ 5 * (b.toNat + 2 ^ 5 * (s.toNat + 2 ^ 3 * (w.toNat + 2 ^ 1 * 0xa))))) := ⟨_, rfl⟩
  have e0 : fld N 0 8 = 93 := hN ▸ (fld_here (by decide))
  have e1 : fld N 27 5 = 10 := hN ▸ (fld_skip 19 (by decide) (fld_skip 14 d.isLt (fld_skip 9 a.isLt (fld_skip 4 b.isLt (fld_skip 1 s.isLt (fld_skip 0 w.isLt (fld_all (by decide))))))))
  have e2 : fld N 26 1 = w.toNat := hN ▸ (fld_skip 18 (by decide) (fld_skip 13 d.isLt (fld_skip 8 a.isLt (fld_skip 3 b.isLt (fld_skip 0 s.isLt (fld_here w.isLt))))))
  have e3 : fld N 23 3 = s.toNat := hN ▸ (fld_skip 15 (by decide) (fld_skip 10 d.isLt (fld_skip 5 a.isLt (fld_skip 0 b.isLt (fld_here s.isLt)))))
  have e4 : fld N 18 5 = b.toNat := hN ▸ (fld_skip 10 (by decide) (fld_skip 5 d.isLt (fld_skip 0 a.isLt (fld_here b.isLt))))
  have e5 : fld N 13 5 = a.toNat := hN ▸ (fld_skip 5 (by decide) (fld_skip 0 d.isLt (fld_here a.isLt)))
  have e6 : fld N 8 5 = d.toNat := hN ▸ (fld_skip 0 (by decide) (fld_here d.isLt))
  exact of_word (word_eq hN (by show 0x5000005d + w.toNat * 67108864 + s.toNat * 8388608 + b.toNat * 262144 + a.toNat * 8192 + d.toNat * 256 = _; omega) : encodeNat (.amoFadd w s b a d) = (N, 4)) (hN ▸ (show 0x5d + 2 ^ 8 * (d.toNat + 2 ^ 5 * (a.toNat + 2 ^ 5 * (b.toNat + 2 ^ 5 * (s.toNat + 2 ^ 3 * (w.toNat + 2 ^ 1 * 0xa))))) < 2 ^ 32 from (under (m := 24) (by decide) (under (m := 19) d.isLt (under (m := 14) a.isLt (under (m := 9) b.isLt (under (m := 6) s.isLt (under (m := 5) w.isLt (by decide))))))))) (hN ▸ odd_low _ _) (read5D e0 (by simp [raw5D, bv, e1, e2, e3, e4, e5, e6]))

theorem fence (s : BitVec 3) : Statement (.fence s) := by
  obtain ⟨N, hN⟩ : ∃ N, N = 0x5f + 2 ^ 8 * (0x0 + 2 ^ 15 * (s.toNat + 2 ^ 3 * 0x0)) := ⟨_, rfl⟩
  have e0 : fld N 0 8 = 95 := hN ▸ (fld_here (by decide))
  have e1 : fld N 8 15 = 0 := hN ▸ (fld_skip 0 (by decide) (fld_here (by decide)))
  have e2 : fld N 26 6 = 0 := hN ▸ (fld_skip 18 (by decide) (fld_skip 3 (by decide) (fld_skip 0 s.isLt (fld_all (by decide)))))
  have e3 : fld N 23 3 = s.toNat := hN ▸ (fld_skip 15 (by decide) (fld_skip 0 (by decide) (fld_here s.isLt)))
  exact of_word (word_eq hN (by show 0x5f + s.toNat * 8388608 = _; omega) : encodeNat (.fence s) = (N, 4)) (hN ▸ (show 0x5f + 2 ^ 8 * (0x0 + 2 ^ 15 * (s.toNat + 2 ^ 3 * 0x0)) < 2 ^ 32 from (under (m := 24) (by decide) (under (m := 9) (by decide) (under (m := 6) s.isLt (by decide)))))) (hN ▸ odd_low _ _) (read5F e0 (by simp [raw5F, bv, e1, e2, e3]))

theorem barT : Statement .barT := .inr (by decide)

theorem barG : Statement .barG := .inr (by decide)

theorem rflush (b : BitVec 5) (a : BitVec 5) : Statement (.rflush b a) := by
  obtain ⟨N, hN⟩ : ∃ N, N = 0x5f + 2 ^ 8 * (0x0 + 2 ^ 5 * (a.toNat + 2 ^ 5 * (b.toNat + 2 ^ 5 * 0x30))) := ⟨_, rfl⟩
  have hb := b.isLt; have ha := a.isLt
  have e0 : fld N 0 8 = 95 := hN ▸ (fld_here (by decide))
  have e1 : fld N 26 6 = 6 := hN ▸ (fld_skip 18 (by decide) (fld_skip 13 (by decide) (fld_skip 8 a.isLt (fld_skip 3 b.isLt (by decide)))))
  have e2 : fld N 8 5 = 0 := hN ▸ (fld_skip 0 (by decide) (fld_here (by decide)))
  have e3 : fld N 23 9 = 48 := hN ▸ (fld_skip 15 (by decide) (fld_skip 10 (by decide) (fld_skip 5 a.isLt (fld_skip 0 b.isLt (fld_all (by decide))))))
  have e4 : fld N 8 24 ≠ 524288 := by subst hN; unfold fld; omega
  have e5 : fld N 8 24 ≠ 1048576 := by subst hN; unfold fld; omega
  have e6 : fld N 18 5 = b.toNat := hN ▸ (fld_skip 10 (by decide) (fld_skip 5 (by decide) (fld_skip 0 a.isLt (fld_here b.isLt))))
  have e7 : fld N 13 5 = a.toNat := hN ▸ (fld_skip 5 (by decide) (fld_skip 0 (by decide) (fld_here a.isLt)))
  exact of_word (word_eq hN (by show 0x1800005f + b.toNat * 262144 + a.toNat * 8192 = _; omega) : encodeNat (.rflush b a) = (N, 4)) (hN ▸ (show 0x5f + 2 ^ 8 * (0x0 + 2 ^ 5 * (a.toNat + 2 ^ 5 * (b.toNat + 2 ^ 5 * 0x30))) < 2 ^ 32 from (under (m := 24) (by decide) (under (m := 19) (by decide) (under (m := 14) a.isLt (under (m := 9) b.isLt (by decide))))))) (hN ▸ odd_low _ _) (read5F e0 (by simp [raw5F, bv, e1, e2, e3, e4, e5, e6, e7]))

theorem rinv (b : BitVec 5) (a : BitVec 5) : Statement (.rinv b a) := by
  obtain ⟨N, hN⟩ : ∃ N, N = 0x5f + 2 ^ 8 * (0x0 + 2 ^ 5 * (a.toNat + 2 ^ 5 * (b.toNat + 2 ^ 5 * 0x40))) := ⟨_, rfl⟩
  have hb := b.isLt; have ha := a.isLt
  have e0 : fld N 0 8 = 95 := hN ▸ (fld_here (by decide))
  have e1 : fld N 26 6 = 8 := hN ▸ (fld_skip 18 (by decide) (fld_skip 13 (by decide) (fld_skip 8 a.isLt (fld_skip 3 b.isLt (by decide)))))
  have e2 : fld N 8 5 = 0 := hN ▸ (fld_skip 0 (by decide) (fld_here (by decide)))
  have e3 : fld N 23 9 = 64 := hN ▸ (fld_skip 15 (by decide) (fld_skip 10 (by decide) (fld_skip 5 a.isLt (fld_skip 0 b.isLt (fld_all (by decide))))))
  have e4 : fld N 8 24 ≠ 524288 := by subst hN; unfold fld; omega
  have e5 : fld N 8 24 ≠ 1048576 := by subst hN; unfold fld; omega
  have e6 : fld N 18 5 = b.toNat := hN ▸ (fld_skip 10 (by decide) (fld_skip 5 (by decide) (fld_skip 0 a.isLt (fld_here b.isLt))))
  have e7 : fld N 13 5 = a.toNat := hN ▸ (fld_skip 5 (by decide) (fld_skip 0 (by decide) (fld_here a.isLt)))
  exact of_word (word_eq hN (by show 0x2000005f + b.toNat * 262144 + a.toNat * 8192 = _; omega) : encodeNat (.rinv b a) = (N, 4)) (hN ▸ (show 0x5f + 2 ^ 8 * (0x0 + 2 ^ 5 * (a.toNat + 2 ^ 5 * (b.toNat + 2 ^ 5 * 0x40))) < 2 ^ 32 from (under (m := 24) (by decide) (under (m := 19) (by decide) (under (m := 14) a.isLt (under (m := 9) b.isLt (by decide))))))) (hN ▸ odd_low _ _) (read5F e0 (by simp [raw5F, bv, e1, e2, e3, e4, e5, e6, e7]))

theorem waitf (b : BitVec 5) (a : BitVec 5) : Statement (.waitf b a) := by
  obtain ⟨N, hN⟩ : ∃ N, N = 0x5f + 2 ^ 8 * (0x0 + 2 ^ 5 * (a.toNat + 2 ^ 5 * (b.toNat + 2 ^ 5 * 0x50))) := ⟨_, rfl⟩
  have hb := b.isLt; have ha := a.isLt
  have e0 : fld N 0 8 = 95 := hN ▸ (fld_here (by decide))
  have e1 : fld N 26 6 = 10 := hN ▸ (fld_skip 18 (by decide) (fld_skip 13 (by decide) (fld_skip 8 a.isLt (fld_skip 3 b.isLt (by decide)))))
  have e2 : fld N 8 5 = 0 := hN ▸ (fld_skip 0 (by decide) (fld_here (by decide)))
  have e3 : fld N 23 9 = 80 := hN ▸ (fld_skip 15 (by decide) (fld_skip 10 (by decide) (fld_skip 5 a.isLt (fld_skip 0 b.isLt (fld_all (by decide))))))
  have e4 : fld N 8 24 ≠ 524288 := by subst hN; unfold fld; omega
  have e5 : fld N 8 24 ≠ 1048576 := by subst hN; unfold fld; omega
  have e6 : fld N 18 5 = b.toNat := hN ▸ (fld_skip 10 (by decide) (fld_skip 5 (by decide) (fld_skip 0 a.isLt (fld_here b.isLt))))
  have e7 : fld N 13 5 = a.toNat := hN ▸ (fld_skip 5 (by decide) (fld_skip 0 (by decide) (fld_here a.isLt)))
  exact of_word (word_eq hN (by show 0x2800005f + b.toNat * 262144 + a.toNat * 8192 = _; omega) : encodeNat (.waitf b a) = (N, 4)) (hN ▸ (show 0x5f + 2 ^ 8 * (0x0 + 2 ^ 5 * (a.toNat + 2 ^ 5 * (b.toNat + 2 ^ 5 * 0x50))) < 2 ^ 32 from (under (m := 24) (by decide) (under (m := 19) (by decide) (under (m := 14) a.isLt (under (m := 9) b.isLt (by decide))))))) (hN ▸ odd_low _ _) (read5F e0 (by simp [raw5F, bv, e1, e2, e3, e4, e5, e6, e7]))

theorem srd (b : BitVec 5) (d : BitVec 5) : Statement (.srd b d) := by
  obtain ⟨N, hN⟩ : ∃ N, N = 0x61 + 2 ^ 8 * (d.toNat + 2 ^ 5 * (0x0 + 2 ^ 5 * (b.toNat + 2 ^ 5 * 0x0))) := ⟨_, rfl⟩
  have e0 : fld N 0 8 = 97 := hN ▸ (fld_here (by decide))
  have e1 : fld N 13 5 = 0 := hN ▸ (fld_skip 5 (by decide) (fld_skip 0 d.isLt (fld_here (by decide))))
  have e2 : fld N 23 9 = 0 := hN ▸ (fld_skip 15 (by decide) (fld_skip 10 d.isLt (fld_skip 5 (by decide) (fld_skip 0 b.isLt (fld_all (by decide))))))
  have e3 : fld N 18 5 = b.toNat := hN ▸ (fld_skip 10 (by decide) (fld_skip 5 d.isLt (fld_skip 0 (by decide) (fld_here b.isLt))))
  have e4 : fld N 8 5 = d.toNat := hN ▸ (fld_skip 0 (by decide) (fld_here d.isLt))
  exact of_word (word_eq hN (by show 0x61 + b.toNat * 262144 + d.toNat * 256 = _; omega) : encodeNat (.srd b d) = (N, 4)) (hN ▸ (show 0x61 + 2 ^ 8 * (d.toNat + 2 ^ 5 * (0x0 + 2 ^ 5 * (b.toNat + 2 ^ 5 * 0x0))) < 2 ^ 32 from (under (m := 24) (by decide) (under (m := 19) d.isLt (under (m := 14) (by decide) (under (m := 9) b.isLt (by decide))))))) (hN ▸ odd_low _ _) (read61 e0 (by simp [raw61, bv, e1, e2, e3, e4]))

theorem swr (b : BitVec 5) (a : BitVec 5) : Statement (.swr b a) := by
  obtain ⟨N, hN⟩ : ∃ N, N = 0x61 + 2 ^ 8 * (0x0 + 2 ^ 5 * (a.toNat + 2 ^ 5 * (b.toNat + 2 ^ 5 * 0x10))) := ⟨_, rfl⟩
  have e0 : fld N 0 8 = 97 := hN ▸ (fld_here (by decide))
  have e1 : fld N 23 9 = 16 := hN ▸ (fld_skip 15 (by decide) (fld_skip 10 (by decide) (fld_skip 5 a.isLt (fld_skip 0 b.isLt (fld_all (by decide))))))
  have e2 : fld N 8 5 = 0 := hN ▸ (fld_skip 0 (by decide) (fld_here (by decide)))
  have e3 : fld N 18 5 = b.toNat := hN ▸ (fld_skip 10 (by decide) (fld_skip 5 (by decide) (fld_skip 0 a.isLt (fld_here b.isLt))))
  have e4 : fld N 13 5 = a.toNat := hN ▸ (fld_skip 5 (by decide) (fld_skip 0 (by decide) (fld_here a.isLt)))
  exact of_word (word_eq hN (by show 0x8000061 + b.toNat * 262144 + a.toNat * 8192 = _; omega) : encodeNat (.swr b a) = (N, 4)) (hN ▸ (show 0x61 + 2 ^ 8 * (0x0 + 2 ^ 5 * (a.toNat + 2 ^ 5 * (b.toNat + 2 ^ 5 * 0x10))) < 2 ^ 32 from (under (m := 24) (by decide) (under (m := 19) (by decide) (under (m := 14) a.isLt (under (m := 9) b.isLt (by decide))))))) (hN ▸ odd_low _ _) (read61 e0 (by simp [raw61, bv, e1, e2, e3, e4]))

theorem swrImm (i : BitVec 14) (d : BitVec 5) : Statement (.swrImm i d) := by
  obtain ⟨N, hN⟩ : ∃ N, N = 0x63 + 2 ^ 8 * (d.toNat + 2 ^ 5 * (0x0 + 2 ^ 5 * i.toNat)) := ⟨_, rfl⟩
  have e0 : fld N 0 8 = 99 := hN ▸ (fld_here (by decide))
  have e1 : fld N 13 5 = 0 := hN ▸ (fld_skip 5 (by decide) (fld_skip 0 d.isLt (fld_here (by decide))))
  have e2 : fld N 18 14 = i.toNat := hN ▸ (fld_skip 10 (by decide) (fld_skip 5 d.isLt (fld_skip 0 (by decide) (fld_all i.isLt))))
  have e3 : fld N 8 5 = d.toNat := hN ▸ (fld_skip 0 (by decide) (fld_here d.isLt))
  exact of_word (word_eq hN (by show 0x63 + i.toNat * 262144 + d.toNat * 256 = _; omega) : encodeNat (.swrImm i d) = (N, 4)) (hN ▸ (show 0x63 + 2 ^ 8 * (d.toNat + 2 ^ 5 * (0x0 + 2 ^ 5 * i.toNat)) < 2 ^ 32 from (under (m := 24) (by decide) (under (m := 19) d.isLt (under (m := 14) (by decide) i.isLt))))) (hN ▸ odd_low _ _) (read63 e0 (by simp [raw63, bv, e1, e2, e3]))

theorem rfork (b : BitVec 5) (a : BitVec 5) (d : BitVec 5) : Statement (.rfork b a d) := by
  obtain ⟨N, hN⟩ : ∃ N, N = 0x65 + 2 ^ 8 * (d.toNat + 2 ^ 5 * (a.toNat + 2 ^ 5 * (b.toNat + 2 ^ 5 * 0x0))) := ⟨_, rfl⟩
  have e0 : fld N 0 8 = 101 := hN ▸ (fld_here (by decide))
  have e1 : fld N 23 9 = 0 := hN ▸ (fld_skip 15 (by decide) (fld_skip 10 d.isLt (fld_skip 5 a.isLt (fld_skip 0 b.isLt (fld_all (by decide))))))
  have e2 : fld N 18 5 = b.toNat := hN ▸ (fld_skip 10 (by decide) (fld_skip 5 d.isLt (fld_skip 0 a.isLt (fld_here b.isLt))))
  have e3 : fld N 13 5 = a.toNat := hN ▸ (fld_skip 5 (by decide) (fld_skip 0 d.isLt (fld_here a.isLt)))
  have e4 : fld N 8 5 = d.toNat := hN ▸ (fld_skip 0 (by decide) (fld_here d.isLt))
  exact of_word (word_eq hN (by show 0x65 + b.toNat * 262144 + a.toNat * 8192 + d.toNat * 256 = _; omega) : encodeNat (.rfork b a d) = (N, 4)) (hN ▸ (show 0x65 + 2 ^ 8 * (d.toNat + 2 ^ 5 * (a.toNat + 2 ^ 5 * (b.toNat + 2 ^ 5 * 0x0))) < 2 ^ 32 from (under (m := 24) (by decide) (under (m := 19) d.isLt (under (m := 14) a.isLt (under (m := 9) b.isLt (by decide))))))) (hN ▸ odd_low _ _) (read65 e0 (by simp [raw65, bv, e1, e2, e3, e4]))

theorem join (a : BitVec 5) : Statement (.join a) := by
  obtain ⟨N, hN⟩ : ∃ N, N = 0x65 + 2 ^ 8 * (0x0 + 2 ^ 5 * (a.toNat + 2 ^ 5 * 0x200)) := ⟨_, rfl⟩
  have e0 : fld N 0 8 = 101 := hN ▸ (fld_here (by decide))
  have e1 : fld N 23 9 = 16 := hN ▸ (fld_skip 15 (by decide) (fld_skip 10 (by decide) (fld_skip 5 a.isLt (by decide))))
  have e2 : fld N 8 5 = 0 := hN ▸ (fld_skip 0 (by decide) (fld_here (by decide)))
  have e3 : fld N 18 14 = 512 := hN ▸ (fld_skip 10 (by decide) (fld_skip 5 (by decide) (fld_skip 0 a.isLt (fld_all (by decide)))))
  have e4 : fld N 13 5 = a.toNat := hN ▸ (fld_skip 5 (by decide) (fld_skip 0 (by decide) (fld_here a.isLt)))
  exact of_word (word_eq hN (by show 0x8000065 + a.toNat * 8192 = _; omega) : encodeNat (.join a) = (N, 4)) (hN ▸ (show 0x65 + 2 ^ 8 * (0x0 + 2 ^ 5 * (a.toNat + 2 ^ 5 * 0x200)) < 2 ^ 32 from (under (m := 24) (by decide) (under (m := 19) (by decide) (under (m := 14) a.isLt (by decide)))))) (hN ▸ odd_low _ _) (read65 e0 (by simp [raw65, bv, e1, e2, e3, e4]))

theorem mig (a : BitVec 5) : Statement (.mig a) := by
  obtain ⟨N, hN⟩ : ∃ N, N = 0x65 + 2 ^ 8 * (0x0 + 2 ^ 5 * (a.toNat + 2 ^ 5 * 0x400)) := ⟨_, rfl⟩
  have e0 : fld N 0 8 = 101 := hN ▸ (fld_here (by decide))
  have e1 : fld N 23 9 = 32 := hN ▸ (fld_skip 15 (by decide) (fld_skip 10 (by decide) (fld_skip 5 a.isLt (by decide))))
  have e2 : fld N 8 5 = 0 := hN ▸ (fld_skip 0 (by decide) (fld_here (by decide)))
  have e3 : fld N 18 14 = 1024 := hN ▸ (fld_skip 10 (by decide) (fld_skip 5 (by decide) (fld_skip 0 a.isLt (fld_all (by decide)))))
  have e4 : fld N 13 5 = a.toNat := hN ▸ (fld_skip 5 (by decide) (fld_skip 0 (by decide) (fld_here a.isLt)))
  exact of_word (word_eq hN (by show 0x10000065 + a.toNat * 8192 = _; omega) : encodeNat (.mig a) = (N, 4)) (hN ▸ (show 0x65 + 2 ^ 8 * (0x0 + 2 ^ 5 * (a.toNat + 2 ^ 5 * 0x400)) < 2 ^ 32 from (under (m := 24) (by decide) (under (m := 19) (by decide) (under (m := 14) a.isLt (by decide)))))) (hN ▸ odd_low _ _) (read65 e0 (by simp [raw65, bv, e1, e2, e3, e4]))

theorem amsg (b : BitVec 5) (a : BitVec 5) (d : BitVec 5) : Statement (.amsg b a d) := by
  obtain ⟨N, hN⟩ : ∃ N, N = 0x65 + 2 ^ 8 * (d.toNat + 2 ^ 5 * (a.toNat + 2 ^ 5 * (b.toNat + 2 ^ 5 * 0x30))) := ⟨_, rfl⟩
  have hb := b.isLt; have ha := a.isLt; have hd := d.isLt
  have e0 : fld N 0 8 = 101 := hN ▸ (fld_here (by decide))
  have e1 : fld N 23 9 = 48 := hN ▸ (fld_skip 15 (by decide) (fld_skip 10 d.isLt (fld_skip 5 a.isLt (fld_skip 0 b.isLt (fld_all (by decide))))))
  have e2 : fld N 18 14 ≠ 512 := by subst hN; unfold fld; omega
  have e3 : fld N 18 14 ≠ 1024 := by subst hN; unfold fld; omega
  have e4 : fld N 18 5 = b.toNat := hN ▸ (fld_skip 10 (by decide) (fld_skip 5 d.isLt (fld_skip 0 a.isLt (fld_here b.isLt))))
  have e5 : fld N 13 5 = a.toNat := hN ▸ (fld_skip 5 (by decide) (fld_skip 0 d.isLt (fld_here a.isLt)))
  have e6 : fld N 8 5 = d.toNat := hN ▸ (fld_skip 0 (by decide) (fld_here d.isLt))
  exact of_word (word_eq hN (by show 0x18000065 + b.toNat * 262144 + a.toNat * 8192 + d.toNat * 256 = _; omega) : encodeNat (.amsg b a d) = (N, 4)) (hN ▸ (show 0x65 + 2 ^ 8 * (d.toNat + 2 ^ 5 * (a.toNat + 2 ^ 5 * (b.toNat + 2 ^ 5 * 0x30))) < 2 ^ 32 from (under (m := 24) (by decide) (under (m := 19) d.isLt (under (m := 14) a.isLt (under (m := 9) b.isLt (by decide))))))) (hN ▸ odd_low _ _) (read65 e0 (by simp [raw65, bv, e1, e2, e3, e4, e5, e6]))

theorem hmsg (b : BitVec 5) (a : BitVec 5) : Statement (.hmsg b a) := by
  obtain ⟨N, hN⟩ : ∃ N, N = 0x65 + 2 ^ 8 * (0x0 + 2 ^ 5 * (a.toNat + 2 ^ 5 * (b.toNat + 2 ^ 5 * 0x40))) := ⟨_, rfl⟩
  have hb := b.isLt; have ha := a.isLt
  have e0 : fld N 0 8 = 101 := hN ▸ (fld_here (by decide))
  have e1 : fld N 23 9 = 64 := hN ▸ (fld_skip 15 (by decide) (fld_skip 10 (by decide) (fld_skip 5 a.isLt (fld_skip 0 b.isLt (fld_all (by decide))))))
  have e2 : fld N 8 5 = 0 := hN ▸ (fld_skip 0 (by decide) (fld_here (by decide)))
  have e3 : fld N 18 14 ≠ 512 := by subst hN; unfold fld; omega
  have e4 : fld N 18 14 ≠ 1024 := by subst hN; unfold fld; omega
  have e5 : fld N 18 5 = b.toNat := hN ▸ (fld_skip 10 (by decide) (fld_skip 5 (by decide) (fld_skip 0 a.isLt (fld_here b.isLt))))
  have e6 : fld N 13 5 = a.toNat := hN ▸ (fld_skip 5 (by decide) (fld_skip 0 (by decide) (fld_here a.isLt)))
  exact of_word (word_eq hN (by show 0x20000065 + b.toNat * 262144 + a.toNat * 8192 = _; omega) : encodeNat (.hmsg b a) = (N, 4)) (hN ▸ (show 0x65 + 2 ^ 8 * (0x0 + 2 ^ 5 * (a.toNat + 2 ^ 5 * (b.toNat + 2 ^ 5 * 0x40))) < 2 ^ 32 from (under (m := 24) (by decide) (under (m := 19) (by decide) (under (m := 14) a.isLt (under (m := 9) b.isLt (by decide))))))) (hN ▸ odd_low _ _) (read65 e0 (by simp [raw65, bv, e1, e2, e3, e4, e5, e6]))

theorem task (a : BitVec 5) (d : BitVec 5) : Statement (.task a d) := by
  obtain ⟨N, hN⟩ : ∃ N, N = 0x65 + 2 ^ 8 * (d.toNat + 2 ^ 5 * (a.toNat + 2 ^ 5 * 0xa00)) := ⟨_, rfl⟩
  have e0 : fld N 0 8 = 101 := hN ▸ (fld_here (by decide))
  have e1 : fld N 23 9 = 80 := hN ▸ (fld_skip 15 (by decide) (fld_skip 10 d.isLt (fld_skip 5 a.isLt (by decide))))
  have e2 : fld N 18 14 = 2560 := hN ▸ (fld_skip 10 (by decide) (fld_skip 5 d.isLt (fld_skip 0 a.isLt (fld_all (by decide)))))
  have e3 : fld N 13 5 = a.toNat := hN ▸ (fld_skip 5 (by decide) (fld_skip 0 d.isLt (fld_here a.isLt)))
  have e4 : fld N 8 5 = d.toNat := hN ▸ (fld_skip 0 (by decide) (fld_here d.isLt))
  exact of_word (word_eq hN (by show 0x28000065 + a.toNat * 8192 + d.toNat * 256 = _; omega) : encodeNat (.task a d) = (N, 4)) (hN ▸ (show 0x65 + 2 ^ 8 * (d.toNat + 2 ^ 5 * (a.toNat + 2 ^ 5 * 0xa00)) < 2 ^ 32 from (under (m := 24) (by decide) (under (m := 19) d.isLt (under (m := 14) a.isLt (by decide)))))) (hN ▸ odd_low _ _) (read65 e0 (by simp [raw65, bv, e1, e2, e3, e4]))

theorem dec (b : BitVec 5) (a : BitVec 5) : Statement (.dec b a) := by
  obtain ⟨N, hN⟩ : ∃ N, N = 0x65 + 2 ^ 8 * (0x0 + 2 ^ 5 * (a.toNat + 2 ^ 5 * (b.toNat + 2 ^ 5 * 0x60))) := ⟨_, rfl⟩
  have hb := b.isLt; have ha := a.isLt
  have e0 : fld N 0 8 = 101 := hN ▸ (fld_here (by decide))
  have e1 : fld N 23 9 = 96 := hN ▸ (fld_skip 15 (by decide) (fld_skip 10 (by decide) (fld_skip 5 a.isLt (fld_skip 0 b.isLt (fld_all (by decide))))))
  have e2 : fld N 8 5 = 0 := hN ▸ (fld_skip 0 (by decide) (fld_here (by decide)))
  have e3 : fld N 18 14 ≠ 512 := by subst hN; unfold fld; omega
  have e4 : fld N 18 14 ≠ 1024 := by subst hN; unfold fld; omega
  have e5 : fld N 18 14 ≠ 2560 := by subst hN; unfold fld; omega
  have e6 : fld N 18 5 = b.toNat := hN ▸ (fld_skip 10 (by decide) (fld_skip 5 (by decide) (fld_skip 0 a.isLt (fld_here b.isLt))))
  have e7 : fld N 13 5 = a.toNat := hN ▸ (fld_skip 5 (by decide) (fld_skip 0 (by decide) (fld_here a.isLt)))
  exact of_word (word_eq hN (by show 0x30000065 + b.toNat * 262144 + a.toNat * 8192 = _; omega) : encodeNat (.dec b a) = (N, 4)) (hN ▸ (show 0x65 + 2 ^ 8 * (0x0 + 2 ^ 5 * (a.toNat + 2 ^ 5 * (b.toNat + 2 ^ 5 * 0x60))) < 2 ^ 32 from (under (m := 24) (by decide) (under (m := 19) (by decide) (under (m := 14) a.isLt (under (m := 9) b.isLt (by decide))))))) (hN ▸ odd_low _ _) (read65 e0 (by simp [raw65, bv, e1, e2, e3, e4, e5, e6, e7]))

theorem pair (a : BitVec 5) (d : BitVec 5) : Statement (.pair a d) := by
  obtain ⟨N, hN⟩ : ∃ N, N = 0x67 + 2 ^ 8 * (d.toNat + 2 ^ 5 * (a.toNat + 2 ^ 5 * 0x0)) := ⟨_, rfl⟩
  have e0 : fld N 0 8 = 103 := hN ▸ (fld_here (by decide))
  have e1 : fld N 18 14 = 0 := hN ▸ (fld_skip 10 (by decide) (fld_skip 5 d.isLt (fld_skip 0 a.isLt (fld_all (by decide)))))
  have e2 : fld N 13 5 = a.toNat := hN ▸ (fld_skip 5 (by decide) (fld_skip 0 d.isLt (fld_here a.isLt)))
  have e3 : fld N 8 5 = d.toNat := hN ▸ (fld_skip 0 (by decide) (fld_here d.isLt))
  exact of_word (word_eq hN (by show 0x67 + a.toNat * 8192 + d.toNat * 256 = _; omega) : encodeNat (.pair a d) = (N, 4)) (hN ▸ (show 0x67 + 2 ^ 8 * (d.toNat + 2 ^ 5 * (a.toNat + 2 ^ 5 * 0x0)) < 2 ^ 32 from (under (m := 24) (by decide) (under (m := 19) d.isLt (under (m := 14) a.isLt (by decide)))))) (hN ▸ odd_low _ _) (read67 e0 (by simp [raw67, bv, e1, e2, e3]))

theorem unpair (d : BitVec 5) : Statement (.unpair d) := by
  obtain ⟨N, hN⟩ : ∃ N, N = 0x67 + 2 ^ 8 * (d.toNat + 2 ^ 5 * 0x4000) := ⟨_, rfl⟩
  have e0 : fld N 0 8 = 103 := hN ▸ (fld_here (by decide))
  have e1 : fld N 18 14 = 512 := hN ▸ (fld_skip 10 (by decide) (fld_skip 5 d.isLt (by decide)))
  have e2 : fld N 13 19 = 16384 := hN ▸ (fld_skip 5 (by decide) (fld_skip 0 d.isLt (fld_all (by decide))))
  have e3 : fld N 8 5 = d.toNat := hN ▸ (fld_skip 0 (by decide) (fld_here d.isLt))
  exact of_word (word_eq hN (by show 0x8000067 + d.toNat * 256 = _; omega) : encodeNat (.unpair d) = (N, 4)) (hN ▸ (show 0x67 + 2 ^ 8 * (d.toNat + 2 ^ 5 * 0x4000) < 2 ^ 32 from (under (m := 24) (by decide) (under (m := 19) d.isLt (by decide))))) (hN ▸ odd_low _ _) (read67 e0 (by simp [raw67, bv, e1, e2, e3]))

theorem gstat (a : BitVec 5) : Statement (.gstat a) := by
  obtain ⟨N, hN⟩ : ∃ N, N = 0x67 + 2 ^ 8 * (0x0 + 2 ^ 5 * (a.toNat + 2 ^ 5 * 0x400)) := ⟨_, rfl⟩
  have ha := a.isLt
  have e0 : fld N 0 8 = 103 := hN ▸ (fld_here (by decide))
  have e1 : fld N 18 14 = 1024 := hN ▸ (fld_skip 10 (by decide) (fld_skip 5 (by decide) (fld_skip 0 a.isLt (fld_all (by decide)))))
  have e2 : fld N 8 5 = 0 := hN ▸ (fld_skip 0 (by decide) (fld_here (by decide)))
  have e3 : fld N 13 19 ≠ 16384 := by subst hN; unfold fld; omega
  have e4 : fld N 13 5 = a.toNat := hN ▸ (fld_skip 5 (by decide) (fld_skip 0 (by decide) (fld_here a.isLt)))
  exact of_word (word_eq hN (by show 0x10000067 + a.toNat * 8192 = _; omega) : encodeNat (.gstat a) = (N, 4)) (hN ▸ (show 0x67 + 2 ^ 8 * (0x0 + 2 ^ 5 * (a.toNat + 2 ^ 5 * 0x400)) < 2 ^ 32 from (under (m := 24) (by decide) (under (m := 19) (by decide) (under (m := 14) a.isLt (by decide)))))) (hN ▸ odd_low _ _) (read67 e0 (by simp [raw67, bv, e1, e2, e3, e4]))

theorem halt : Statement .halt := .inr (by decide)

theorem vadd (m : BitVec 1) (r : BitVec 2) (b : BitVec 5) (a : BitVec 5) (d : BitVec 5) : Statement (.vadd m r b a d) := by
  obtain ⟨N, hN⟩ : ∃ N, N = 0x71 + 2 ^ 8 * (d.toNat + 2 ^ 5 * (a.toNat + 2 ^ 5 * (b.toNat + 2 ^ 5 * (r.toNat + 2 ^ 2 * (0x0 + 2 ^ 1 * (m.toNat + 2 ^ 1 * 0x0)))))) := ⟨_, rfl⟩
  have e0 : fld N 0 8 = 113 := hN ▸ (fld_here (by decide))
  have e1 : fld N 25 1 = 0 := hN ▸ (fld_skip 17 (by decide) (fld_skip 12 d.isLt (fld_skip 7 a.isLt (fld_skip 2 b.isLt (fld_skip 0 r.isLt (fld_here (by decide)))))))
  have e2 : fld N 27 5 = 0 := hN ▸ (fld_skip 19 (by decide) (fld_skip 14 d.isLt (fld_skip 9 a.isLt (fld_skip 4 b.isLt (fld_skip 2 r.isLt (fld_skip 1 (by decide) (fld_skip 0 m.isLt (fld_all (by decide)))))))))
  have e3 : fld N 26 1 = m.toNat := hN ▸ (fld_skip 18 (by decide) (fld_skip 13 d.isLt (fld_skip 8 a.isLt (fld_skip 3 b.isLt (fld_skip 1 r.isLt (fld_skip 0 (by decide) (fld_here m.isLt)))))))
  have e4 : fld N 23 2 = r.toNat := hN ▸ (fld_skip 15 (by decide) (fld_skip 10 d.isLt (fld_skip 5 a.isLt (fld_skip 0 b.isLt (fld_here r.isLt)))))
  have e5 : fld N 18 5 = b.toNat := hN ▸ (fld_skip 10 (by decide) (fld_skip 5 d.isLt (fld_skip 0 a.isLt (fld_here b.isLt))))
  have e6 : fld N 13 5 = a.toNat := hN ▸ (fld_skip 5 (by decide) (fld_skip 0 d.isLt (fld_here a.isLt)))
  have e7 : fld N 8 5 = d.toNat := hN ▸ (fld_skip 0 (by decide) (fld_here d.isLt))
  exact of_word (word_eq hN (by show 0x71 + m.toNat * 67108864 + r.toNat * 8388608 + b.toNat * 262144 + a.toNat * 8192 + d.toNat * 256 = _; omega) : encodeNat (.vadd m r b a d) = (N, 4)) (hN ▸ (show 0x71 + 2 ^ 8 * (d.toNat + 2 ^ 5 * (a.toNat + 2 ^ 5 * (b.toNat + 2 ^ 5 * (r.toNat + 2 ^ 2 * (0x0 + 2 ^ 1 * (m.toNat + 2 ^ 1 * 0x0)))))) < 2 ^ 32 from (under (m := 24) (by decide) (under (m := 19) d.isLt (under (m := 14) a.isLt (under (m := 9) b.isLt (under (m := 7) r.isLt (under (m := 6) (by decide) (under (m := 5) m.isLt (by decide)))))))))) (hN ▸ odd_low _ _) (read71 e0 (by simp [raw71, bv, e1, e2, e3, e4, e5, e6, e7]))

theorem vsub (m : BitVec 1) (r : BitVec 2) (b : BitVec 5) (a : BitVec 5) (d : BitVec 5) : Statement (.vsub m r b a d) := by
  obtain ⟨N, hN⟩ : ∃ N, N = 0x71 + 2 ^ 8 * (d.toNat + 2 ^ 5 * (a.toNat + 2 ^ 5 * (b.toNat + 2 ^ 5 * (r.toNat + 2 ^ 2 * (0x0 + 2 ^ 1 * (m.toNat + 2 ^ 1 * 0x1)))))) := ⟨_, rfl⟩
  have e0 : fld N 0 8 = 113 := hN ▸ (fld_here (by decide))
  have e1 : fld N 25 1 = 0 := hN ▸ (fld_skip 17 (by decide) (fld_skip 12 d.isLt (fld_skip 7 a.isLt (fld_skip 2 b.isLt (fld_skip 0 r.isLt (fld_here (by decide)))))))
  have e2 : fld N 27 5 = 1 := hN ▸ (fld_skip 19 (by decide) (fld_skip 14 d.isLt (fld_skip 9 a.isLt (fld_skip 4 b.isLt (fld_skip 2 r.isLt (fld_skip 1 (by decide) (fld_skip 0 m.isLt (fld_all (by decide)))))))))
  have e3 : fld N 26 1 = m.toNat := hN ▸ (fld_skip 18 (by decide) (fld_skip 13 d.isLt (fld_skip 8 a.isLt (fld_skip 3 b.isLt (fld_skip 1 r.isLt (fld_skip 0 (by decide) (fld_here m.isLt)))))))
  have e4 : fld N 23 2 = r.toNat := hN ▸ (fld_skip 15 (by decide) (fld_skip 10 d.isLt (fld_skip 5 a.isLt (fld_skip 0 b.isLt (fld_here r.isLt)))))
  have e5 : fld N 18 5 = b.toNat := hN ▸ (fld_skip 10 (by decide) (fld_skip 5 d.isLt (fld_skip 0 a.isLt (fld_here b.isLt))))
  have e6 : fld N 13 5 = a.toNat := hN ▸ (fld_skip 5 (by decide) (fld_skip 0 d.isLt (fld_here a.isLt)))
  have e7 : fld N 8 5 = d.toNat := hN ▸ (fld_skip 0 (by decide) (fld_here d.isLt))
  exact of_word (word_eq hN (by show 0x8000071 + m.toNat * 67108864 + r.toNat * 8388608 + b.toNat * 262144 + a.toNat * 8192 + d.toNat * 256 = _; omega) : encodeNat (.vsub m r b a d) = (N, 4)) (hN ▸ (show 0x71 + 2 ^ 8 * (d.toNat + 2 ^ 5 * (a.toNat + 2 ^ 5 * (b.toNat + 2 ^ 5 * (r.toNat + 2 ^ 2 * (0x0 + 2 ^ 1 * (m.toNat + 2 ^ 1 * 0x1)))))) < 2 ^ 32 from (under (m := 24) (by decide) (under (m := 19) d.isLt (under (m := 14) a.isLt (under (m := 9) b.isLt (under (m := 7) r.isLt (under (m := 6) (by decide) (under (m := 5) m.isLt (by decide)))))))))) (hN ▸ odd_low _ _) (read71 e0 (by simp [raw71, bv, e1, e2, e3, e4, e5, e6, e7]))

theorem vmul (m : BitVec 1) (r : BitVec 2) (b : BitVec 5) (a : BitVec 5) (d : BitVec 5) : Statement (.vmul m r b a d) := by
  obtain ⟨N, hN⟩ : ∃ N, N = 0x71 + 2 ^ 8 * (d.toNat + 2 ^ 5 * (a.toNat + 2 ^ 5 * (b.toNat + 2 ^ 5 * (r.toNat + 2 ^ 2 * (0x0 + 2 ^ 1 * (m.toNat + 2 ^ 1 * 0x2)))))) := ⟨_, rfl⟩
  have e0 : fld N 0 8 = 113 := hN ▸ (fld_here (by decide))
  have e1 : fld N 25 1 = 0 := hN ▸ (fld_skip 17 (by decide) (fld_skip 12 d.isLt (fld_skip 7 a.isLt (fld_skip 2 b.isLt (fld_skip 0 r.isLt (fld_here (by decide)))))))
  have e2 : fld N 27 5 = 2 := hN ▸ (fld_skip 19 (by decide) (fld_skip 14 d.isLt (fld_skip 9 a.isLt (fld_skip 4 b.isLt (fld_skip 2 r.isLt (fld_skip 1 (by decide) (fld_skip 0 m.isLt (fld_all (by decide)))))))))
  have e3 : fld N 26 1 = m.toNat := hN ▸ (fld_skip 18 (by decide) (fld_skip 13 d.isLt (fld_skip 8 a.isLt (fld_skip 3 b.isLt (fld_skip 1 r.isLt (fld_skip 0 (by decide) (fld_here m.isLt)))))))
  have e4 : fld N 23 2 = r.toNat := hN ▸ (fld_skip 15 (by decide) (fld_skip 10 d.isLt (fld_skip 5 a.isLt (fld_skip 0 b.isLt (fld_here r.isLt)))))
  have e5 : fld N 18 5 = b.toNat := hN ▸ (fld_skip 10 (by decide) (fld_skip 5 d.isLt (fld_skip 0 a.isLt (fld_here b.isLt))))
  have e6 : fld N 13 5 = a.toNat := hN ▸ (fld_skip 5 (by decide) (fld_skip 0 d.isLt (fld_here a.isLt)))
  have e7 : fld N 8 5 = d.toNat := hN ▸ (fld_skip 0 (by decide) (fld_here d.isLt))
  exact of_word (word_eq hN (by show 0x10000071 + m.toNat * 67108864 + r.toNat * 8388608 + b.toNat * 262144 + a.toNat * 8192 + d.toNat * 256 = _; omega) : encodeNat (.vmul m r b a d) = (N, 4)) (hN ▸ (show 0x71 + 2 ^ 8 * (d.toNat + 2 ^ 5 * (a.toNat + 2 ^ 5 * (b.toNat + 2 ^ 5 * (r.toNat + 2 ^ 2 * (0x0 + 2 ^ 1 * (m.toNat + 2 ^ 1 * 0x2)))))) < 2 ^ 32 from (under (m := 24) (by decide) (under (m := 19) d.isLt (under (m := 14) a.isLt (under (m := 9) b.isLt (under (m := 7) r.isLt (under (m := 6) (by decide) (under (m := 5) m.isLt (by decide)))))))))) (hN ▸ odd_low _ _) (read71 e0 (by simp [raw71, bv, e1, e2, e3, e4, e5, e6, e7]))

theorem vmin (m : BitVec 1) (r : BitVec 2) (b : BitVec 5) (a : BitVec 5) (d : BitVec 5) : Statement (.vmin m r b a d) := by
  obtain ⟨N, hN⟩ : ∃ N, N = 0x71 + 2 ^ 8 * (d.toNat + 2 ^ 5 * (a.toNat + 2 ^ 5 * (b.toNat + 2 ^ 5 * (r.toNat + 2 ^ 2 * (0x0 + 2 ^ 1 * (m.toNat + 2 ^ 1 * 0x3)))))) := ⟨_, rfl⟩
  have e0 : fld N 0 8 = 113 := hN ▸ (fld_here (by decide))
  have e1 : fld N 25 1 = 0 := hN ▸ (fld_skip 17 (by decide) (fld_skip 12 d.isLt (fld_skip 7 a.isLt (fld_skip 2 b.isLt (fld_skip 0 r.isLt (fld_here (by decide)))))))
  have e2 : fld N 27 5 = 3 := hN ▸ (fld_skip 19 (by decide) (fld_skip 14 d.isLt (fld_skip 9 a.isLt (fld_skip 4 b.isLt (fld_skip 2 r.isLt (fld_skip 1 (by decide) (fld_skip 0 m.isLt (fld_all (by decide)))))))))
  have e3 : fld N 26 1 = m.toNat := hN ▸ (fld_skip 18 (by decide) (fld_skip 13 d.isLt (fld_skip 8 a.isLt (fld_skip 3 b.isLt (fld_skip 1 r.isLt (fld_skip 0 (by decide) (fld_here m.isLt)))))))
  have e4 : fld N 23 2 = r.toNat := hN ▸ (fld_skip 15 (by decide) (fld_skip 10 d.isLt (fld_skip 5 a.isLt (fld_skip 0 b.isLt (fld_here r.isLt)))))
  have e5 : fld N 18 5 = b.toNat := hN ▸ (fld_skip 10 (by decide) (fld_skip 5 d.isLt (fld_skip 0 a.isLt (fld_here b.isLt))))
  have e6 : fld N 13 5 = a.toNat := hN ▸ (fld_skip 5 (by decide) (fld_skip 0 d.isLt (fld_here a.isLt)))
  have e7 : fld N 8 5 = d.toNat := hN ▸ (fld_skip 0 (by decide) (fld_here d.isLt))
  exact of_word (word_eq hN (by show 0x18000071 + m.toNat * 67108864 + r.toNat * 8388608 + b.toNat * 262144 + a.toNat * 8192 + d.toNat * 256 = _; omega) : encodeNat (.vmin m r b a d) = (N, 4)) (hN ▸ (show 0x71 + 2 ^ 8 * (d.toNat + 2 ^ 5 * (a.toNat + 2 ^ 5 * (b.toNat + 2 ^ 5 * (r.toNat + 2 ^ 2 * (0x0 + 2 ^ 1 * (m.toNat + 2 ^ 1 * 0x3)))))) < 2 ^ 32 from (under (m := 24) (by decide) (under (m := 19) d.isLt (under (m := 14) a.isLt (under (m := 9) b.isLt (under (m := 7) r.isLt (under (m := 6) (by decide) (under (m := 5) m.isLt (by decide)))))))))) (hN ▸ odd_low _ _) (read71 e0 (by simp [raw71, bv, e1, e2, e3, e4, e5, e6, e7]))

theorem vmax (m : BitVec 1) (r : BitVec 2) (b : BitVec 5) (a : BitVec 5) (d : BitVec 5) : Statement (.vmax m r b a d) := by
  obtain ⟨N, hN⟩ : ∃ N, N = 0x71 + 2 ^ 8 * (d.toNat + 2 ^ 5 * (a.toNat + 2 ^ 5 * (b.toNat + 2 ^ 5 * (r.toNat + 2 ^ 2 * (0x0 + 2 ^ 1 * (m.toNat + 2 ^ 1 * 0x4)))))) := ⟨_, rfl⟩
  have e0 : fld N 0 8 = 113 := hN ▸ (fld_here (by decide))
  have e1 : fld N 25 1 = 0 := hN ▸ (fld_skip 17 (by decide) (fld_skip 12 d.isLt (fld_skip 7 a.isLt (fld_skip 2 b.isLt (fld_skip 0 r.isLt (fld_here (by decide)))))))
  have e2 : fld N 27 5 = 4 := hN ▸ (fld_skip 19 (by decide) (fld_skip 14 d.isLt (fld_skip 9 a.isLt (fld_skip 4 b.isLt (fld_skip 2 r.isLt (fld_skip 1 (by decide) (fld_skip 0 m.isLt (fld_all (by decide)))))))))
  have e3 : fld N 26 1 = m.toNat := hN ▸ (fld_skip 18 (by decide) (fld_skip 13 d.isLt (fld_skip 8 a.isLt (fld_skip 3 b.isLt (fld_skip 1 r.isLt (fld_skip 0 (by decide) (fld_here m.isLt)))))))
  have e4 : fld N 23 2 = r.toNat := hN ▸ (fld_skip 15 (by decide) (fld_skip 10 d.isLt (fld_skip 5 a.isLt (fld_skip 0 b.isLt (fld_here r.isLt)))))
  have e5 : fld N 18 5 = b.toNat := hN ▸ (fld_skip 10 (by decide) (fld_skip 5 d.isLt (fld_skip 0 a.isLt (fld_here b.isLt))))
  have e6 : fld N 13 5 = a.toNat := hN ▸ (fld_skip 5 (by decide) (fld_skip 0 d.isLt (fld_here a.isLt)))
  have e7 : fld N 8 5 = d.toNat := hN ▸ (fld_skip 0 (by decide) (fld_here d.isLt))
  exact of_word (word_eq hN (by show 0x20000071 + m.toNat * 67108864 + r.toNat * 8388608 + b.toNat * 262144 + a.toNat * 8192 + d.toNat * 256 = _; omega) : encodeNat (.vmax m r b a d) = (N, 4)) (hN ▸ (show 0x71 + 2 ^ 8 * (d.toNat + 2 ^ 5 * (a.toNat + 2 ^ 5 * (b.toNat + 2 ^ 5 * (r.toNat + 2 ^ 2 * (0x0 + 2 ^ 1 * (m.toNat + 2 ^ 1 * 0x4)))))) < 2 ^ 32 from (under (m := 24) (by decide) (under (m := 19) d.isLt (under (m := 14) a.isLt (under (m := 9) b.isLt (under (m := 7) r.isLt (under (m := 6) (by decide) (under (m := 5) m.isLt (by decide)))))))))) (hN ▸ odd_low _ _) (read71 e0 (by simp [raw71, bv, e1, e2, e3, e4, e5, e6, e7]))

theorem vand (m : BitVec 1) (r : BitVec 2) (b : BitVec 5) (a : BitVec 5) (d : BitVec 5) : Statement (.vand m r b a d) := by
  obtain ⟨N, hN⟩ : ∃ N, N = 0x71 + 2 ^ 8 * (d.toNat + 2 ^ 5 * (a.toNat + 2 ^ 5 * (b.toNat + 2 ^ 5 * (r.toNat + 2 ^ 2 * (0x0 + 2 ^ 1 * (m.toNat + 2 ^ 1 * 0x5)))))) := ⟨_, rfl⟩
  have e0 : fld N 0 8 = 113 := hN ▸ (fld_here (by decide))
  have e1 : fld N 25 1 = 0 := hN ▸ (fld_skip 17 (by decide) (fld_skip 12 d.isLt (fld_skip 7 a.isLt (fld_skip 2 b.isLt (fld_skip 0 r.isLt (fld_here (by decide)))))))
  have e2 : fld N 27 5 = 5 := hN ▸ (fld_skip 19 (by decide) (fld_skip 14 d.isLt (fld_skip 9 a.isLt (fld_skip 4 b.isLt (fld_skip 2 r.isLt (fld_skip 1 (by decide) (fld_skip 0 m.isLt (fld_all (by decide)))))))))
  have e3 : fld N 26 1 = m.toNat := hN ▸ (fld_skip 18 (by decide) (fld_skip 13 d.isLt (fld_skip 8 a.isLt (fld_skip 3 b.isLt (fld_skip 1 r.isLt (fld_skip 0 (by decide) (fld_here m.isLt)))))))
  have e4 : fld N 23 2 = r.toNat := hN ▸ (fld_skip 15 (by decide) (fld_skip 10 d.isLt (fld_skip 5 a.isLt (fld_skip 0 b.isLt (fld_here r.isLt)))))
  have e5 : fld N 18 5 = b.toNat := hN ▸ (fld_skip 10 (by decide) (fld_skip 5 d.isLt (fld_skip 0 a.isLt (fld_here b.isLt))))
  have e6 : fld N 13 5 = a.toNat := hN ▸ (fld_skip 5 (by decide) (fld_skip 0 d.isLt (fld_here a.isLt)))
  have e7 : fld N 8 5 = d.toNat := hN ▸ (fld_skip 0 (by decide) (fld_here d.isLt))
  exact of_word (word_eq hN (by show 0x28000071 + m.toNat * 67108864 + r.toNat * 8388608 + b.toNat * 262144 + a.toNat * 8192 + d.toNat * 256 = _; omega) : encodeNat (.vand m r b a d) = (N, 4)) (hN ▸ (show 0x71 + 2 ^ 8 * (d.toNat + 2 ^ 5 * (a.toNat + 2 ^ 5 * (b.toNat + 2 ^ 5 * (r.toNat + 2 ^ 2 * (0x0 + 2 ^ 1 * (m.toNat + 2 ^ 1 * 0x5)))))) < 2 ^ 32 from (under (m := 24) (by decide) (under (m := 19) d.isLt (under (m := 14) a.isLt (under (m := 9) b.isLt (under (m := 7) r.isLt (under (m := 6) (by decide) (under (m := 5) m.isLt (by decide)))))))))) (hN ▸ odd_low _ _) (read71 e0 (by simp [raw71, bv, e1, e2, e3, e4, e5, e6, e7]))

theorem vor (m : BitVec 1) (r : BitVec 2) (b : BitVec 5) (a : BitVec 5) (d : BitVec 5) : Statement (.vor m r b a d) := by
  obtain ⟨N, hN⟩ : ∃ N, N = 0x71 + 2 ^ 8 * (d.toNat + 2 ^ 5 * (a.toNat + 2 ^ 5 * (b.toNat + 2 ^ 5 * (r.toNat + 2 ^ 2 * (0x0 + 2 ^ 1 * (m.toNat + 2 ^ 1 * 0x6)))))) := ⟨_, rfl⟩
  have e0 : fld N 0 8 = 113 := hN ▸ (fld_here (by decide))
  have e1 : fld N 25 1 = 0 := hN ▸ (fld_skip 17 (by decide) (fld_skip 12 d.isLt (fld_skip 7 a.isLt (fld_skip 2 b.isLt (fld_skip 0 r.isLt (fld_here (by decide)))))))
  have e2 : fld N 27 5 = 6 := hN ▸ (fld_skip 19 (by decide) (fld_skip 14 d.isLt (fld_skip 9 a.isLt (fld_skip 4 b.isLt (fld_skip 2 r.isLt (fld_skip 1 (by decide) (fld_skip 0 m.isLt (fld_all (by decide)))))))))
  have e3 : fld N 26 1 = m.toNat := hN ▸ (fld_skip 18 (by decide) (fld_skip 13 d.isLt (fld_skip 8 a.isLt (fld_skip 3 b.isLt (fld_skip 1 r.isLt (fld_skip 0 (by decide) (fld_here m.isLt)))))))
  have e4 : fld N 23 2 = r.toNat := hN ▸ (fld_skip 15 (by decide) (fld_skip 10 d.isLt (fld_skip 5 a.isLt (fld_skip 0 b.isLt (fld_here r.isLt)))))
  have e5 : fld N 18 5 = b.toNat := hN ▸ (fld_skip 10 (by decide) (fld_skip 5 d.isLt (fld_skip 0 a.isLt (fld_here b.isLt))))
  have e6 : fld N 13 5 = a.toNat := hN ▸ (fld_skip 5 (by decide) (fld_skip 0 d.isLt (fld_here a.isLt)))
  have e7 : fld N 8 5 = d.toNat := hN ▸ (fld_skip 0 (by decide) (fld_here d.isLt))
  exact of_word (word_eq hN (by show 0x30000071 + m.toNat * 67108864 + r.toNat * 8388608 + b.toNat * 262144 + a.toNat * 8192 + d.toNat * 256 = _; omega) : encodeNat (.vor m r b a d) = (N, 4)) (hN ▸ (show 0x71 + 2 ^ 8 * (d.toNat + 2 ^ 5 * (a.toNat + 2 ^ 5 * (b.toNat + 2 ^ 5 * (r.toNat + 2 ^ 2 * (0x0 + 2 ^ 1 * (m.toNat + 2 ^ 1 * 0x6)))))) < 2 ^ 32 from (under (m := 24) (by decide) (under (m := 19) d.isLt (under (m := 14) a.isLt (under (m := 9) b.isLt (under (m := 7) r.isLt (under (m := 6) (by decide) (under (m := 5) m.isLt (by decide)))))))))) (hN ▸ odd_low _ _) (read71 e0 (by simp [raw71, bv, e1, e2, e3, e4, e5, e6, e7]))

theorem vxor (m : BitVec 1) (r : BitVec 2) (b : BitVec 5) (a : BitVec 5) (d : BitVec 5) : Statement (.vxor m r b a d) := by
  obtain ⟨N, hN⟩ : ∃ N, N = 0x71 + 2 ^ 8 * (d.toNat + 2 ^ 5 * (a.toNat + 2 ^ 5 * (b.toNat + 2 ^ 5 * (r.toNat + 2 ^ 2 * (0x0 + 2 ^ 1 * (m.toNat + 2 ^ 1 * 0x7)))))) := ⟨_, rfl⟩
  have e0 : fld N 0 8 = 113 := hN ▸ (fld_here (by decide))
  have e1 : fld N 25 1 = 0 := hN ▸ (fld_skip 17 (by decide) (fld_skip 12 d.isLt (fld_skip 7 a.isLt (fld_skip 2 b.isLt (fld_skip 0 r.isLt (fld_here (by decide)))))))
  have e2 : fld N 27 5 = 7 := hN ▸ (fld_skip 19 (by decide) (fld_skip 14 d.isLt (fld_skip 9 a.isLt (fld_skip 4 b.isLt (fld_skip 2 r.isLt (fld_skip 1 (by decide) (fld_skip 0 m.isLt (fld_all (by decide)))))))))
  have e3 : fld N 26 1 = m.toNat := hN ▸ (fld_skip 18 (by decide) (fld_skip 13 d.isLt (fld_skip 8 a.isLt (fld_skip 3 b.isLt (fld_skip 1 r.isLt (fld_skip 0 (by decide) (fld_here m.isLt)))))))
  have e4 : fld N 23 2 = r.toNat := hN ▸ (fld_skip 15 (by decide) (fld_skip 10 d.isLt (fld_skip 5 a.isLt (fld_skip 0 b.isLt (fld_here r.isLt)))))
  have e5 : fld N 18 5 = b.toNat := hN ▸ (fld_skip 10 (by decide) (fld_skip 5 d.isLt (fld_skip 0 a.isLt (fld_here b.isLt))))
  have e6 : fld N 13 5 = a.toNat := hN ▸ (fld_skip 5 (by decide) (fld_skip 0 d.isLt (fld_here a.isLt)))
  have e7 : fld N 8 5 = d.toNat := hN ▸ (fld_skip 0 (by decide) (fld_here d.isLt))
  exact of_word (word_eq hN (by show 0x38000071 + m.toNat * 67108864 + r.toNat * 8388608 + b.toNat * 262144 + a.toNat * 8192 + d.toNat * 256 = _; omega) : encodeNat (.vxor m r b a d) = (N, 4)) (hN ▸ (show 0x71 + 2 ^ 8 * (d.toNat + 2 ^ 5 * (a.toNat + 2 ^ 5 * (b.toNat + 2 ^ 5 * (r.toNat + 2 ^ 2 * (0x0 + 2 ^ 1 * (m.toNat + 2 ^ 1 * 0x7)))))) < 2 ^ 32 from (under (m := 24) (by decide) (under (m := 19) d.isLt (under (m := 14) a.isLt (under (m := 9) b.isLt (under (m := 7) r.isLt (under (m := 6) (by decide) (under (m := 5) m.isLt (by decide)))))))))) (hN ▸ odd_low _ _) (read71 e0 (by simp [raw71, bv, e1, e2, e3, e4, e5, e6, e7]))

theorem vshl (m : BitVec 1) (r : BitVec 2) (b : BitVec 5) (a : BitVec 5) (d : BitVec 5) : Statement (.vshl m r b a d) := by
  obtain ⟨N, hN⟩ : ∃ N, N = 0x71 + 2 ^ 8 * (d.toNat + 2 ^ 5 * (a.toNat + 2 ^ 5 * (b.toNat + 2 ^ 5 * (r.toNat + 2 ^ 2 * (0x0 + 2 ^ 1 * (m.toNat + 2 ^ 1 * 0x8)))))) := ⟨_, rfl⟩
  have e0 : fld N 0 8 = 113 := hN ▸ (fld_here (by decide))
  have e1 : fld N 25 1 = 0 := hN ▸ (fld_skip 17 (by decide) (fld_skip 12 d.isLt (fld_skip 7 a.isLt (fld_skip 2 b.isLt (fld_skip 0 r.isLt (fld_here (by decide)))))))
  have e2 : fld N 27 5 = 8 := hN ▸ (fld_skip 19 (by decide) (fld_skip 14 d.isLt (fld_skip 9 a.isLt (fld_skip 4 b.isLt (fld_skip 2 r.isLt (fld_skip 1 (by decide) (fld_skip 0 m.isLt (fld_all (by decide)))))))))
  have e3 : fld N 26 1 = m.toNat := hN ▸ (fld_skip 18 (by decide) (fld_skip 13 d.isLt (fld_skip 8 a.isLt (fld_skip 3 b.isLt (fld_skip 1 r.isLt (fld_skip 0 (by decide) (fld_here m.isLt)))))))
  have e4 : fld N 23 2 = r.toNat := hN ▸ (fld_skip 15 (by decide) (fld_skip 10 d.isLt (fld_skip 5 a.isLt (fld_skip 0 b.isLt (fld_here r.isLt)))))
  have e5 : fld N 18 5 = b.toNat := hN ▸ (fld_skip 10 (by decide) (fld_skip 5 d.isLt (fld_skip 0 a.isLt (fld_here b.isLt))))
  have e6 : fld N 13 5 = a.toNat := hN ▸ (fld_skip 5 (by decide) (fld_skip 0 d.isLt (fld_here a.isLt)))
  have e7 : fld N 8 5 = d.toNat := hN ▸ (fld_skip 0 (by decide) (fld_here d.isLt))
  exact of_word (word_eq hN (by show 0x40000071 + m.toNat * 67108864 + r.toNat * 8388608 + b.toNat * 262144 + a.toNat * 8192 + d.toNat * 256 = _; omega) : encodeNat (.vshl m r b a d) = (N, 4)) (hN ▸ (show 0x71 + 2 ^ 8 * (d.toNat + 2 ^ 5 * (a.toNat + 2 ^ 5 * (b.toNat + 2 ^ 5 * (r.toNat + 2 ^ 2 * (0x0 + 2 ^ 1 * (m.toNat + 2 ^ 1 * 0x8)))))) < 2 ^ 32 from (under (m := 24) (by decide) (under (m := 19) d.isLt (under (m := 14) a.isLt (under (m := 9) b.isLt (under (m := 7) r.isLt (under (m := 6) (by decide) (under (m := 5) m.isLt (by decide)))))))))) (hN ▸ odd_low _ _) (read71 e0 (by simp [raw71, bv, e1, e2, e3, e4, e5, e6, e7]))

theorem vshr (m : BitVec 1) (r : BitVec 2) (b : BitVec 5) (a : BitVec 5) (d : BitVec 5) : Statement (.vshr m r b a d) := by
  obtain ⟨N, hN⟩ : ∃ N, N = 0x71 + 2 ^ 8 * (d.toNat + 2 ^ 5 * (a.toNat + 2 ^ 5 * (b.toNat + 2 ^ 5 * (r.toNat + 2 ^ 2 * (0x0 + 2 ^ 1 * (m.toNat + 2 ^ 1 * 0x9)))))) := ⟨_, rfl⟩
  have e0 : fld N 0 8 = 113 := hN ▸ (fld_here (by decide))
  have e1 : fld N 25 1 = 0 := hN ▸ (fld_skip 17 (by decide) (fld_skip 12 d.isLt (fld_skip 7 a.isLt (fld_skip 2 b.isLt (fld_skip 0 r.isLt (fld_here (by decide)))))))
  have e2 : fld N 27 5 = 9 := hN ▸ (fld_skip 19 (by decide) (fld_skip 14 d.isLt (fld_skip 9 a.isLt (fld_skip 4 b.isLt (fld_skip 2 r.isLt (fld_skip 1 (by decide) (fld_skip 0 m.isLt (fld_all (by decide)))))))))
  have e3 : fld N 26 1 = m.toNat := hN ▸ (fld_skip 18 (by decide) (fld_skip 13 d.isLt (fld_skip 8 a.isLt (fld_skip 3 b.isLt (fld_skip 1 r.isLt (fld_skip 0 (by decide) (fld_here m.isLt)))))))
  have e4 : fld N 23 2 = r.toNat := hN ▸ (fld_skip 15 (by decide) (fld_skip 10 d.isLt (fld_skip 5 a.isLt (fld_skip 0 b.isLt (fld_here r.isLt)))))
  have e5 : fld N 18 5 = b.toNat := hN ▸ (fld_skip 10 (by decide) (fld_skip 5 d.isLt (fld_skip 0 a.isLt (fld_here b.isLt))))
  have e6 : fld N 13 5 = a.toNat := hN ▸ (fld_skip 5 (by decide) (fld_skip 0 d.isLt (fld_here a.isLt)))
  have e7 : fld N 8 5 = d.toNat := hN ▸ (fld_skip 0 (by decide) (fld_here d.isLt))
  exact of_word (word_eq hN (by show 0x48000071 + m.toNat * 67108864 + r.toNat * 8388608 + b.toNat * 262144 + a.toNat * 8192 + d.toNat * 256 = _; omega) : encodeNat (.vshr m r b a d) = (N, 4)) (hN ▸ (show 0x71 + 2 ^ 8 * (d.toNat + 2 ^ 5 * (a.toNat + 2 ^ 5 * (b.toNat + 2 ^ 5 * (r.toNat + 2 ^ 2 * (0x0 + 2 ^ 1 * (m.toNat + 2 ^ 1 * 0x9)))))) < 2 ^ 32 from (under (m := 24) (by decide) (under (m := 19) d.isLt (under (m := 14) a.isLt (under (m := 9) b.isLt (under (m := 7) r.isLt (under (m := 6) (by decide) (under (m := 5) m.isLt (by decide)))))))))) (hN ▸ odd_low _ _) (read71 e0 (by simp [raw71, bv, e1, e2, e3, e4, e5, e6, e7]))

theorem vsar (m : BitVec 1) (r : BitVec 2) (b : BitVec 5) (a : BitVec 5) (d : BitVec 5) : Statement (.vsar m r b a d) := by
  obtain ⟨N, hN⟩ : ∃ N, N = 0x71 + 2 ^ 8 * (d.toNat + 2 ^ 5 * (a.toNat + 2 ^ 5 * (b.toNat + 2 ^ 5 * (r.toNat + 2 ^ 2 * (0x0 + 2 ^ 1 * (m.toNat + 2 ^ 1 * 0xa)))))) := ⟨_, rfl⟩
  have e0 : fld N 0 8 = 113 := hN ▸ (fld_here (by decide))
  have e1 : fld N 25 1 = 0 := hN ▸ (fld_skip 17 (by decide) (fld_skip 12 d.isLt (fld_skip 7 a.isLt (fld_skip 2 b.isLt (fld_skip 0 r.isLt (fld_here (by decide)))))))
  have e2 : fld N 27 5 = 10 := hN ▸ (fld_skip 19 (by decide) (fld_skip 14 d.isLt (fld_skip 9 a.isLt (fld_skip 4 b.isLt (fld_skip 2 r.isLt (fld_skip 1 (by decide) (fld_skip 0 m.isLt (fld_all (by decide)))))))))
  have e3 : fld N 26 1 = m.toNat := hN ▸ (fld_skip 18 (by decide) (fld_skip 13 d.isLt (fld_skip 8 a.isLt (fld_skip 3 b.isLt (fld_skip 1 r.isLt (fld_skip 0 (by decide) (fld_here m.isLt)))))))
  have e4 : fld N 23 2 = r.toNat := hN ▸ (fld_skip 15 (by decide) (fld_skip 10 d.isLt (fld_skip 5 a.isLt (fld_skip 0 b.isLt (fld_here r.isLt)))))
  have e5 : fld N 18 5 = b.toNat := hN ▸ (fld_skip 10 (by decide) (fld_skip 5 d.isLt (fld_skip 0 a.isLt (fld_here b.isLt))))
  have e6 : fld N 13 5 = a.toNat := hN ▸ (fld_skip 5 (by decide) (fld_skip 0 d.isLt (fld_here a.isLt)))
  have e7 : fld N 8 5 = d.toNat := hN ▸ (fld_skip 0 (by decide) (fld_here d.isLt))
  exact of_word (word_eq hN (by show 0x50000071 + m.toNat * 67108864 + r.toNat * 8388608 + b.toNat * 262144 + a.toNat * 8192 + d.toNat * 256 = _; omega) : encodeNat (.vsar m r b a d) = (N, 4)) (hN ▸ (show 0x71 + 2 ^ 8 * (d.toNat + 2 ^ 5 * (a.toNat + 2 ^ 5 * (b.toNat + 2 ^ 5 * (r.toNat + 2 ^ 2 * (0x0 + 2 ^ 1 * (m.toNat + 2 ^ 1 * 0xa)))))) < 2 ^ 32 from (under (m := 24) (by decide) (under (m := 19) d.isLt (under (m := 14) a.isLt (under (m := 9) b.isLt (under (m := 7) r.isLt (under (m := 6) (by decide) (under (m := 5) m.isLt (by decide)))))))))) (hN ▸ odd_low _ _) (read71 e0 (by simp [raw71, bv, e1, e2, e3, e4, e5, e6, e7]))

theorem vmov (m : BitVec 1) (r : BitVec 2) (b : BitVec 5) (a : BitVec 5) (d : BitVec 5) : Statement (.vmov m r b a d) := by
  obtain ⟨N, hN⟩ : ∃ N, N = 0x71 + 2 ^ 8 * (d.toNat + 2 ^ 5 * (a.toNat + 2 ^ 5 * (b.toNat + 2 ^ 5 * (r.toNat + 2 ^ 2 * (0x0 + 2 ^ 1 * (m.toNat + 2 ^ 1 * 0xb)))))) := ⟨_, rfl⟩
  have e0 : fld N 0 8 = 113 := hN ▸ (fld_here (by decide))
  have e1 : fld N 25 1 = 0 := hN ▸ (fld_skip 17 (by decide) (fld_skip 12 d.isLt (fld_skip 7 a.isLt (fld_skip 2 b.isLt (fld_skip 0 r.isLt (fld_here (by decide)))))))
  have e2 : fld N 27 5 = 11 := hN ▸ (fld_skip 19 (by decide) (fld_skip 14 d.isLt (fld_skip 9 a.isLt (fld_skip 4 b.isLt (fld_skip 2 r.isLt (fld_skip 1 (by decide) (fld_skip 0 m.isLt (fld_all (by decide)))))))))
  have e3 : fld N 26 1 = m.toNat := hN ▸ (fld_skip 18 (by decide) (fld_skip 13 d.isLt (fld_skip 8 a.isLt (fld_skip 3 b.isLt (fld_skip 1 r.isLt (fld_skip 0 (by decide) (fld_here m.isLt)))))))
  have e4 : fld N 23 2 = r.toNat := hN ▸ (fld_skip 15 (by decide) (fld_skip 10 d.isLt (fld_skip 5 a.isLt (fld_skip 0 b.isLt (fld_here r.isLt)))))
  have e5 : fld N 18 5 = b.toNat := hN ▸ (fld_skip 10 (by decide) (fld_skip 5 d.isLt (fld_skip 0 a.isLt (fld_here b.isLt))))
  have e6 : fld N 13 5 = a.toNat := hN ▸ (fld_skip 5 (by decide) (fld_skip 0 d.isLt (fld_here a.isLt)))
  have e7 : fld N 8 5 = d.toNat := hN ▸ (fld_skip 0 (by decide) (fld_here d.isLt))
  exact of_word (word_eq hN (by show 0x58000071 + m.toNat * 67108864 + r.toNat * 8388608 + b.toNat * 262144 + a.toNat * 8192 + d.toNat * 256 = _; omega) : encodeNat (.vmov m r b a d) = (N, 4)) (hN ▸ (show 0x71 + 2 ^ 8 * (d.toNat + 2 ^ 5 * (a.toNat + 2 ^ 5 * (b.toNat + 2 ^ 5 * (r.toNat + 2 ^ 2 * (0x0 + 2 ^ 1 * (m.toNat + 2 ^ 1 * 0xb)))))) < 2 ^ 32 from (under (m := 24) (by decide) (under (m := 19) d.isLt (under (m := 14) a.isLt (under (m := 9) b.isLt (under (m := 7) r.isLt (under (m := 6) (by decide) (under (m := 5) m.isLt (by decide)))))))))) (hN ▸ odd_low _ _) (read71 e0 (by simp [raw71, bv, e1, e2, e3, e4, e5, e6, e7]))

theorem vneg (m : BitVec 1) (r : BitVec 2) (b : BitVec 5) (a : BitVec 5) (d : BitVec 5) : Statement (.vneg m r b a d) := by
  obtain ⟨N, hN⟩ : ∃ N, N = 0x71 + 2 ^ 8 * (d.toNat + 2 ^ 5 * (a.toNat + 2 ^ 5 * (b.toNat + 2 ^ 5 * (r.toNat + 2 ^ 2 * (0x0 + 2 ^ 1 * (m.toNat + 2 ^ 1 * 0xc)))))) := ⟨_, rfl⟩
  have e0 : fld N 0 8 = 113 := hN ▸ (fld_here (by decide))
  have e1 : fld N 25 1 = 0 := hN ▸ (fld_skip 17 (by decide) (fld_skip 12 d.isLt (fld_skip 7 a.isLt (fld_skip 2 b.isLt (fld_skip 0 r.isLt (fld_here (by decide)))))))
  have e2 : fld N 27 5 = 12 := hN ▸ (fld_skip 19 (by decide) (fld_skip 14 d.isLt (fld_skip 9 a.isLt (fld_skip 4 b.isLt (fld_skip 2 r.isLt (fld_skip 1 (by decide) (fld_skip 0 m.isLt (fld_all (by decide)))))))))
  have e3 : fld N 26 1 = m.toNat := hN ▸ (fld_skip 18 (by decide) (fld_skip 13 d.isLt (fld_skip 8 a.isLt (fld_skip 3 b.isLt (fld_skip 1 r.isLt (fld_skip 0 (by decide) (fld_here m.isLt)))))))
  have e4 : fld N 23 2 = r.toNat := hN ▸ (fld_skip 15 (by decide) (fld_skip 10 d.isLt (fld_skip 5 a.isLt (fld_skip 0 b.isLt (fld_here r.isLt)))))
  have e5 : fld N 18 5 = b.toNat := hN ▸ (fld_skip 10 (by decide) (fld_skip 5 d.isLt (fld_skip 0 a.isLt (fld_here b.isLt))))
  have e6 : fld N 13 5 = a.toNat := hN ▸ (fld_skip 5 (by decide) (fld_skip 0 d.isLt (fld_here a.isLt)))
  have e7 : fld N 8 5 = d.toNat := hN ▸ (fld_skip 0 (by decide) (fld_here d.isLt))
  exact of_word (word_eq hN (by show 0x60000071 + m.toNat * 67108864 + r.toNat * 8388608 + b.toNat * 262144 + a.toNat * 8192 + d.toNat * 256 = _; omega) : encodeNat (.vneg m r b a d) = (N, 4)) (hN ▸ (show 0x71 + 2 ^ 8 * (d.toNat + 2 ^ 5 * (a.toNat + 2 ^ 5 * (b.toNat + 2 ^ 5 * (r.toNat + 2 ^ 2 * (0x0 + 2 ^ 1 * (m.toNat + 2 ^ 1 * 0xc)))))) < 2 ^ 32 from (under (m := 24) (by decide) (under (m := 19) d.isLt (under (m := 14) a.isLt (under (m := 9) b.isLt (under (m := 7) r.isLt (under (m := 6) (by decide) (under (m := 5) m.isLt (by decide)))))))))) (hN ▸ odd_low _ _) (read71 e0 (by simp [raw71, bv, e1, e2, e3, e4, e5, e6, e7]))

theorem vabs (m : BitVec 1) (r : BitVec 2) (b : BitVec 5) (a : BitVec 5) (d : BitVec 5) : Statement (.vabs m r b a d) := by
  obtain ⟨N, hN⟩ : ∃ N, N = 0x71 + 2 ^ 8 * (d.toNat + 2 ^ 5 * (a.toNat + 2 ^ 5 * (b.toNat + 2 ^ 5 * (r.toNat + 2 ^ 2 * (0x0 + 2 ^ 1 * (m.toNat + 2 ^ 1 * 0xd)))))) := ⟨_, rfl⟩
  have e0 : fld N 0 8 = 113 := hN ▸ (fld_here (by decide))
  have e1 : fld N 25 1 = 0 := hN ▸ (fld_skip 17 (by decide) (fld_skip 12 d.isLt (fld_skip 7 a.isLt (fld_skip 2 b.isLt (fld_skip 0 r.isLt (fld_here (by decide)))))))
  have e2 : fld N 27 5 = 13 := hN ▸ (fld_skip 19 (by decide) (fld_skip 14 d.isLt (fld_skip 9 a.isLt (fld_skip 4 b.isLt (fld_skip 2 r.isLt (fld_skip 1 (by decide) (fld_skip 0 m.isLt (fld_all (by decide)))))))))
  have e3 : fld N 26 1 = m.toNat := hN ▸ (fld_skip 18 (by decide) (fld_skip 13 d.isLt (fld_skip 8 a.isLt (fld_skip 3 b.isLt (fld_skip 1 r.isLt (fld_skip 0 (by decide) (fld_here m.isLt)))))))
  have e4 : fld N 23 2 = r.toNat := hN ▸ (fld_skip 15 (by decide) (fld_skip 10 d.isLt (fld_skip 5 a.isLt (fld_skip 0 b.isLt (fld_here r.isLt)))))
  have e5 : fld N 18 5 = b.toNat := hN ▸ (fld_skip 10 (by decide) (fld_skip 5 d.isLt (fld_skip 0 a.isLt (fld_here b.isLt))))
  have e6 : fld N 13 5 = a.toNat := hN ▸ (fld_skip 5 (by decide) (fld_skip 0 d.isLt (fld_here a.isLt)))
  have e7 : fld N 8 5 = d.toNat := hN ▸ (fld_skip 0 (by decide) (fld_here d.isLt))
  exact of_word (word_eq hN (by show 0x68000071 + m.toNat * 67108864 + r.toNat * 8388608 + b.toNat * 262144 + a.toNat * 8192 + d.toNat * 256 = _; omega) : encodeNat (.vabs m r b a d) = (N, 4)) (hN ▸ (show 0x71 + 2 ^ 8 * (d.toNat + 2 ^ 5 * (a.toNat + 2 ^ 5 * (b.toNat + 2 ^ 5 * (r.toNat + 2 ^ 2 * (0x0 + 2 ^ 1 * (m.toNat + 2 ^ 1 * 0xd)))))) < 2 ^ 32 from (under (m := 24) (by decide) (under (m := 19) d.isLt (under (m := 14) a.isLt (under (m := 9) b.isLt (under (m := 7) r.isLt (under (m := 6) (by decide) (under (m := 5) m.isLt (by decide)))))))))) (hN ▸ odd_low _ _) (read71 e0 (by simp [raw71, bv, e1, e2, e3, e4, e5, e6, e7]))

theorem vrsub (m : BitVec 1) (r : BitVec 2) (b : BitVec 5) (a : BitVec 5) (d : BitVec 5) : Statement (.vrsub m r b a d) := by
  obtain ⟨N, hN⟩ : ∃ N, N = 0x71 + 2 ^ 8 * (d.toNat + 2 ^ 5 * (a.toNat + 2 ^ 5 * (b.toNat + 2 ^ 5 * (r.toNat + 2 ^ 2 * (0x0 + 2 ^ 1 * (m.toNat + 2 ^ 1 * 0xe)))))) := ⟨_, rfl⟩
  have e0 : fld N 0 8 = 113 := hN ▸ (fld_here (by decide))
  have e1 : fld N 25 1 = 0 := hN ▸ (fld_skip 17 (by decide) (fld_skip 12 d.isLt (fld_skip 7 a.isLt (fld_skip 2 b.isLt (fld_skip 0 r.isLt (fld_here (by decide)))))))
  have e2 : fld N 27 5 = 14 := hN ▸ (fld_skip 19 (by decide) (fld_skip 14 d.isLt (fld_skip 9 a.isLt (fld_skip 4 b.isLt (fld_skip 2 r.isLt (fld_skip 1 (by decide) (fld_skip 0 m.isLt (fld_all (by decide)))))))))
  have e3 : fld N 26 1 = m.toNat := hN ▸ (fld_skip 18 (by decide) (fld_skip 13 d.isLt (fld_skip 8 a.isLt (fld_skip 3 b.isLt (fld_skip 1 r.isLt (fld_skip 0 (by decide) (fld_here m.isLt)))))))
  have e4 : fld N 23 2 = r.toNat := hN ▸ (fld_skip 15 (by decide) (fld_skip 10 d.isLt (fld_skip 5 a.isLt (fld_skip 0 b.isLt (fld_here r.isLt)))))
  have e5 : fld N 18 5 = b.toNat := hN ▸ (fld_skip 10 (by decide) (fld_skip 5 d.isLt (fld_skip 0 a.isLt (fld_here b.isLt))))
  have e6 : fld N 13 5 = a.toNat := hN ▸ (fld_skip 5 (by decide) (fld_skip 0 d.isLt (fld_here a.isLt)))
  have e7 : fld N 8 5 = d.toNat := hN ▸ (fld_skip 0 (by decide) (fld_here d.isLt))
  exact of_word (word_eq hN (by show 0x70000071 + m.toNat * 67108864 + r.toNat * 8388608 + b.toNat * 262144 + a.toNat * 8192 + d.toNat * 256 = _; omega) : encodeNat (.vrsub m r b a d) = (N, 4)) (hN ▸ (show 0x71 + 2 ^ 8 * (d.toNat + 2 ^ 5 * (a.toNat + 2 ^ 5 * (b.toNat + 2 ^ 5 * (r.toNat + 2 ^ 2 * (0x0 + 2 ^ 1 * (m.toNat + 2 ^ 1 * 0xe)))))) < 2 ^ 32 from (under (m := 24) (by decide) (under (m := 19) d.isLt (under (m := 14) a.isLt (under (m := 9) b.isLt (under (m := 7) r.isLt (under (m := 6) (by decide) (under (m := 5) m.isLt (by decide)))))))))) (hN ▸ odd_low _ _) (read71 e0 (by simp [raw71, bv, e1, e2, e3, e4, e5, e6, e7]))

theorem vxchg (m : BitVec 1) (r : BitVec 2) (b : BitVec 5) (a : BitVec 5) (d : BitVec 5) : Statement (.vxchg m r b a d) := by
  obtain ⟨N, hN⟩ : ∃ N, N = 0x71 + 2 ^ 8 * (d.toNat + 2 ^ 5 * (a.toNat + 2 ^ 5 * (b.toNat + 2 ^ 5 * (r.toNat + 2 ^ 2 * (0x0 + 2 ^ 1 * (m.toNat + 2 ^ 1 * 0xf)))))) := ⟨_, rfl⟩
  have e0 : fld N 0 8 = 113 := hN ▸ (fld_here (by decide))
  have e1 : fld N 25 1 = 0 := hN ▸ (fld_skip 17 (by decide) (fld_skip 12 d.isLt (fld_skip 7 a.isLt (fld_skip 2 b.isLt (fld_skip 0 r.isLt (fld_here (by decide)))))))
  have e2 : fld N 27 5 = 15 := hN ▸ (fld_skip 19 (by decide) (fld_skip 14 d.isLt (fld_skip 9 a.isLt (fld_skip 4 b.isLt (fld_skip 2 r.isLt (fld_skip 1 (by decide) (fld_skip 0 m.isLt (fld_all (by decide)))))))))
  have e3 : fld N 26 1 = m.toNat := hN ▸ (fld_skip 18 (by decide) (fld_skip 13 d.isLt (fld_skip 8 a.isLt (fld_skip 3 b.isLt (fld_skip 1 r.isLt (fld_skip 0 (by decide) (fld_here m.isLt)))))))
  have e4 : fld N 23 2 = r.toNat := hN ▸ (fld_skip 15 (by decide) (fld_skip 10 d.isLt (fld_skip 5 a.isLt (fld_skip 0 b.isLt (fld_here r.isLt)))))
  have e5 : fld N 18 5 = b.toNat := hN ▸ (fld_skip 10 (by decide) (fld_skip 5 d.isLt (fld_skip 0 a.isLt (fld_here b.isLt))))
  have e6 : fld N 13 5 = a.toNat := hN ▸ (fld_skip 5 (by decide) (fld_skip 0 d.isLt (fld_here a.isLt)))
  have e7 : fld N 8 5 = d.toNat := hN ▸ (fld_skip 0 (by decide) (fld_here d.isLt))
  exact of_word (word_eq hN (by show 0x78000071 + m.toNat * 67108864 + r.toNat * 8388608 + b.toNat * 262144 + a.toNat * 8192 + d.toNat * 256 = _; omega) : encodeNat (.vxchg m r b a d) = (N, 4)) (hN ▸ (show 0x71 + 2 ^ 8 * (d.toNat + 2 ^ 5 * (a.toNat + 2 ^ 5 * (b.toNat + 2 ^ 5 * (r.toNat + 2 ^ 2 * (0x0 + 2 ^ 1 * (m.toNat + 2 ^ 1 * 0xf)))))) < 2 ^ 32 from (under (m := 24) (by decide) (under (m := 19) d.isLt (under (m := 14) a.isLt (under (m := 9) b.isLt (under (m := 7) r.isLt (under (m := 6) (by decide) (under (m := 5) m.isLt (by decide)))))))))) (hN ▸ odd_low _ _) (read71 e0 (by simp [raw71, bv, e1, e2, e3, e4, e5, e6, e7]))

theorem vdiv (m : BitVec 1) (r : BitVec 2) (b : BitVec 5) (a : BitVec 5) (d : BitVec 5) : Statement (.vdiv m r b a d) := by
  obtain ⟨N, hN⟩ : ∃ N, N = 0x71 + 2 ^ 8 * (d.toNat + 2 ^ 5 * (a.toNat + 2 ^ 5 * (b.toNat + 2 ^ 5 * (r.toNat + 2 ^ 2 * (0x0 + 2 ^ 1 * (m.toNat + 2 ^ 1 * 0x10)))))) := ⟨_, rfl⟩
  have e0 : fld N 0 8 = 113 := hN ▸ (fld_here (by decide))
  have e1 : fld N 25 1 = 0 := hN ▸ (fld_skip 17 (by decide) (fld_skip 12 d.isLt (fld_skip 7 a.isLt (fld_skip 2 b.isLt (fld_skip 0 r.isLt (fld_here (by decide)))))))
  have e2 : fld N 27 5 = 16 := hN ▸ (fld_skip 19 (by decide) (fld_skip 14 d.isLt (fld_skip 9 a.isLt (fld_skip 4 b.isLt (fld_skip 2 r.isLt (fld_skip 1 (by decide) (fld_skip 0 m.isLt (fld_all (by decide)))))))))
  have e3 : fld N 26 1 = m.toNat := hN ▸ (fld_skip 18 (by decide) (fld_skip 13 d.isLt (fld_skip 8 a.isLt (fld_skip 3 b.isLt (fld_skip 1 r.isLt (fld_skip 0 (by decide) (fld_here m.isLt)))))))
  have e4 : fld N 23 2 = r.toNat := hN ▸ (fld_skip 15 (by decide) (fld_skip 10 d.isLt (fld_skip 5 a.isLt (fld_skip 0 b.isLt (fld_here r.isLt)))))
  have e5 : fld N 18 5 = b.toNat := hN ▸ (fld_skip 10 (by decide) (fld_skip 5 d.isLt (fld_skip 0 a.isLt (fld_here b.isLt))))
  have e6 : fld N 13 5 = a.toNat := hN ▸ (fld_skip 5 (by decide) (fld_skip 0 d.isLt (fld_here a.isLt)))
  have e7 : fld N 8 5 = d.toNat := hN ▸ (fld_skip 0 (by decide) (fld_here d.isLt))
  exact of_word (word_eq hN (by show 0x80000071 + m.toNat * 67108864 + r.toNat * 8388608 + b.toNat * 262144 + a.toNat * 8192 + d.toNat * 256 = _; omega) : encodeNat (.vdiv m r b a d) = (N, 4)) (hN ▸ (show 0x71 + 2 ^ 8 * (d.toNat + 2 ^ 5 * (a.toNat + 2 ^ 5 * (b.toNat + 2 ^ 5 * (r.toNat + 2 ^ 2 * (0x0 + 2 ^ 1 * (m.toNat + 2 ^ 1 * 0x10)))))) < 2 ^ 32 from (under (m := 24) (by decide) (under (m := 19) d.isLt (under (m := 14) a.isLt (under (m := 9) b.isLt (under (m := 7) r.isLt (under (m := 6) (by decide) (under (m := 5) m.isLt (by decide)))))))))) (hN ▸ odd_low _ _) (read71 e0 (by simp [raw71, bv, e1, e2, e3, e4, e5, e6, e7]))

theorem vsqrt (m : BitVec 1) (r : BitVec 2) (b : BitVec 5) (a : BitVec 5) (d : BitVec 5) : Statement (.vsqrt m r b a d) := by
  obtain ⟨N, hN⟩ : ∃ N, N = 0x71 + 2 ^ 8 * (d.toNat + 2 ^ 5 * (a.toNat + 2 ^ 5 * (b.toNat + 2 ^ 5 * (r.toNat + 2 ^ 2 * (0x0 + 2 ^ 1 * (m.toNat + 2 ^ 1 * 0x11)))))) := ⟨_, rfl⟩
  have e0 : fld N 0 8 = 113 := hN ▸ (fld_here (by decide))
  have e1 : fld N 25 1 = 0 := hN ▸ (fld_skip 17 (by decide) (fld_skip 12 d.isLt (fld_skip 7 a.isLt (fld_skip 2 b.isLt (fld_skip 0 r.isLt (fld_here (by decide)))))))
  have e2 : fld N 27 5 = 17 := hN ▸ (fld_skip 19 (by decide) (fld_skip 14 d.isLt (fld_skip 9 a.isLt (fld_skip 4 b.isLt (fld_skip 2 r.isLt (fld_skip 1 (by decide) (fld_skip 0 m.isLt (fld_all (by decide)))))))))
  have e3 : fld N 26 1 = m.toNat := hN ▸ (fld_skip 18 (by decide) (fld_skip 13 d.isLt (fld_skip 8 a.isLt (fld_skip 3 b.isLt (fld_skip 1 r.isLt (fld_skip 0 (by decide) (fld_here m.isLt)))))))
  have e4 : fld N 23 2 = r.toNat := hN ▸ (fld_skip 15 (by decide) (fld_skip 10 d.isLt (fld_skip 5 a.isLt (fld_skip 0 b.isLt (fld_here r.isLt)))))
  have e5 : fld N 18 5 = b.toNat := hN ▸ (fld_skip 10 (by decide) (fld_skip 5 d.isLt (fld_skip 0 a.isLt (fld_here b.isLt))))
  have e6 : fld N 13 5 = a.toNat := hN ▸ (fld_skip 5 (by decide) (fld_skip 0 d.isLt (fld_here a.isLt)))
  have e7 : fld N 8 5 = d.toNat := hN ▸ (fld_skip 0 (by decide) (fld_here d.isLt))
  exact of_word (word_eq hN (by show 0x88000071 + m.toNat * 67108864 + r.toNat * 8388608 + b.toNat * 262144 + a.toNat * 8192 + d.toNat * 256 = _; omega) : encodeNat (.vsqrt m r b a d) = (N, 4)) (hN ▸ (show 0x71 + 2 ^ 8 * (d.toNat + 2 ^ 5 * (a.toNat + 2 ^ 5 * (b.toNat + 2 ^ 5 * (r.toNat + 2 ^ 2 * (0x0 + 2 ^ 1 * (m.toNat + 2 ^ 1 * 0x11)))))) < 2 ^ 32 from (under (m := 24) (by decide) (under (m := 19) d.isLt (under (m := 14) a.isLt (under (m := 9) b.isLt (under (m := 7) r.isLt (under (m := 6) (by decide) (under (m := 5) m.isLt (by decide)))))))))) (hN ▸ odd_low _ _) (read71 e0 (by simp [raw71, bv, e1, e2, e3, e4, e5, e6, e7]))

theorem vmulh (m : BitVec 1) (r : BitVec 2) (b : BitVec 5) (a : BitVec 5) (d : BitVec 5) : Statement (.vmulh m r b a d) := by
  obtain ⟨N, hN⟩ : ∃ N, N = 0x71 + 2 ^ 8 * (d.toNat + 2 ^ 5 * (a.toNat + 2 ^ 5 * (b.toNat + 2 ^ 5 * (r.toNat + 2 ^ 2 * (0x0 + 2 ^ 1 * (m.toNat + 2 ^ 1 * 0x12)))))) := ⟨_, rfl⟩
  have e0 : fld N 0 8 = 113 := hN ▸ (fld_here (by decide))
  have e1 : fld N 25 1 = 0 := hN ▸ (fld_skip 17 (by decide) (fld_skip 12 d.isLt (fld_skip 7 a.isLt (fld_skip 2 b.isLt (fld_skip 0 r.isLt (fld_here (by decide)))))))
  have e2 : fld N 27 5 = 18 := hN ▸ (fld_skip 19 (by decide) (fld_skip 14 d.isLt (fld_skip 9 a.isLt (fld_skip 4 b.isLt (fld_skip 2 r.isLt (fld_skip 1 (by decide) (fld_skip 0 m.isLt (fld_all (by decide)))))))))
  have e3 : fld N 26 1 = m.toNat := hN ▸ (fld_skip 18 (by decide) (fld_skip 13 d.isLt (fld_skip 8 a.isLt (fld_skip 3 b.isLt (fld_skip 1 r.isLt (fld_skip 0 (by decide) (fld_here m.isLt)))))))
  have e4 : fld N 23 2 = r.toNat := hN ▸ (fld_skip 15 (by decide) (fld_skip 10 d.isLt (fld_skip 5 a.isLt (fld_skip 0 b.isLt (fld_here r.isLt)))))
  have e5 : fld N 18 5 = b.toNat := hN ▸ (fld_skip 10 (by decide) (fld_skip 5 d.isLt (fld_skip 0 a.isLt (fld_here b.isLt))))
  have e6 : fld N 13 5 = a.toNat := hN ▸ (fld_skip 5 (by decide) (fld_skip 0 d.isLt (fld_here a.isLt)))
  have e7 : fld N 8 5 = d.toNat := hN ▸ (fld_skip 0 (by decide) (fld_here d.isLt))
  exact of_word (word_eq hN (by show 0x90000071 + m.toNat * 67108864 + r.toNat * 8388608 + b.toNat * 262144 + a.toNat * 8192 + d.toNat * 256 = _; omega) : encodeNat (.vmulh m r b a d) = (N, 4)) (hN ▸ (show 0x71 + 2 ^ 8 * (d.toNat + 2 ^ 5 * (a.toNat + 2 ^ 5 * (b.toNat + 2 ^ 5 * (r.toNat + 2 ^ 2 * (0x0 + 2 ^ 1 * (m.toNat + 2 ^ 1 * 0x12)))))) < 2 ^ 32 from (under (m := 24) (by decide) (under (m := 19) d.isLt (under (m := 14) a.isLt (under (m := 9) b.isLt (under (m := 7) r.isLt (under (m := 6) (by decide) (under (m := 5) m.isLt (by decide)))))))))) (hN ▸ odd_low _ _) (read71 e0 (by simp [raw71, bv, e1, e2, e3, e4, e5, e6, e7]))

theorem vadds (m : BitVec 1) (r : BitVec 2) (b : BitVec 5) (a : BitVec 5) (d : BitVec 5) : Statement (.vadds m r b a d) := by
  obtain ⟨N, hN⟩ : ∃ N, N = 0x71 + 2 ^ 8 * (d.toNat + 2 ^ 5 * (a.toNat + 2 ^ 5 * (b.toNat + 2 ^ 5 * (r.toNat + 2 ^ 2 * (0x0 + 2 ^ 1 * (m.toNat + 2 ^ 1 * 0x13)))))) := ⟨_, rfl⟩
  have e0 : fld N 0 8 = 113 := hN ▸ (fld_here (by decide))
  have e1 : fld N 25 1 = 0 := hN ▸ (fld_skip 17 (by decide) (fld_skip 12 d.isLt (fld_skip 7 a.isLt (fld_skip 2 b.isLt (fld_skip 0 r.isLt (fld_here (by decide)))))))
  have e2 : fld N 27 5 = 19 := hN ▸ (fld_skip 19 (by decide) (fld_skip 14 d.isLt (fld_skip 9 a.isLt (fld_skip 4 b.isLt (fld_skip 2 r.isLt (fld_skip 1 (by decide) (fld_skip 0 m.isLt (fld_all (by decide)))))))))
  have e3 : fld N 26 1 = m.toNat := hN ▸ (fld_skip 18 (by decide) (fld_skip 13 d.isLt (fld_skip 8 a.isLt (fld_skip 3 b.isLt (fld_skip 1 r.isLt (fld_skip 0 (by decide) (fld_here m.isLt)))))))
  have e4 : fld N 23 2 = r.toNat := hN ▸ (fld_skip 15 (by decide) (fld_skip 10 d.isLt (fld_skip 5 a.isLt (fld_skip 0 b.isLt (fld_here r.isLt)))))
  have e5 : fld N 18 5 = b.toNat := hN ▸ (fld_skip 10 (by decide) (fld_skip 5 d.isLt (fld_skip 0 a.isLt (fld_here b.isLt))))
  have e6 : fld N 13 5 = a.toNat := hN ▸ (fld_skip 5 (by decide) (fld_skip 0 d.isLt (fld_here a.isLt)))
  have e7 : fld N 8 5 = d.toNat := hN ▸ (fld_skip 0 (by decide) (fld_here d.isLt))
  exact of_word (word_eq hN (by show 0x98000071 + m.toNat * 67108864 + r.toNat * 8388608 + b.toNat * 262144 + a.toNat * 8192 + d.toNat * 256 = _; omega) : encodeNat (.vadds m r b a d) = (N, 4)) (hN ▸ (show 0x71 + 2 ^ 8 * (d.toNat + 2 ^ 5 * (a.toNat + 2 ^ 5 * (b.toNat + 2 ^ 5 * (r.toNat + 2 ^ 2 * (0x0 + 2 ^ 1 * (m.toNat + 2 ^ 1 * 0x13)))))) < 2 ^ 32 from (under (m := 24) (by decide) (under (m := 19) d.isLt (under (m := 14) a.isLt (under (m := 9) b.isLt (under (m := 7) r.isLt (under (m := 6) (by decide) (under (m := 5) m.isLt (by decide)))))))))) (hN ▸ odd_low _ _) (read71 e0 (by simp [raw71, bv, e1, e2, e3, e4, e5, e6, e7]))

theorem vsubs (m : BitVec 1) (r : BitVec 2) (b : BitVec 5) (a : BitVec 5) (d : BitVec 5) : Statement (.vsubs m r b a d) := by
  obtain ⟨N, hN⟩ : ∃ N, N = 0x71 + 2 ^ 8 * (d.toNat + 2 ^ 5 * (a.toNat + 2 ^ 5 * (b.toNat + 2 ^ 5 * (r.toNat + 2 ^ 2 * (0x0 + 2 ^ 1 * (m.toNat + 2 ^ 1 * 0x14)))))) := ⟨_, rfl⟩
  have e0 : fld N 0 8 = 113 := hN ▸ (fld_here (by decide))
  have e1 : fld N 25 1 = 0 := hN ▸ (fld_skip 17 (by decide) (fld_skip 12 d.isLt (fld_skip 7 a.isLt (fld_skip 2 b.isLt (fld_skip 0 r.isLt (fld_here (by decide)))))))
  have e2 : fld N 27 5 = 20 := hN ▸ (fld_skip 19 (by decide) (fld_skip 14 d.isLt (fld_skip 9 a.isLt (fld_skip 4 b.isLt (fld_skip 2 r.isLt (fld_skip 1 (by decide) (fld_skip 0 m.isLt (fld_all (by decide)))))))))
  have e3 : fld N 26 1 = m.toNat := hN ▸ (fld_skip 18 (by decide) (fld_skip 13 d.isLt (fld_skip 8 a.isLt (fld_skip 3 b.isLt (fld_skip 1 r.isLt (fld_skip 0 (by decide) (fld_here m.isLt)))))))
  have e4 : fld N 23 2 = r.toNat := hN ▸ (fld_skip 15 (by decide) (fld_skip 10 d.isLt (fld_skip 5 a.isLt (fld_skip 0 b.isLt (fld_here r.isLt)))))
  have e5 : fld N 18 5 = b.toNat := hN ▸ (fld_skip 10 (by decide) (fld_skip 5 d.isLt (fld_skip 0 a.isLt (fld_here b.isLt))))
  have e6 : fld N 13 5 = a.toNat := hN ▸ (fld_skip 5 (by decide) (fld_skip 0 d.isLt (fld_here a.isLt)))
  have e7 : fld N 8 5 = d.toNat := hN ▸ (fld_skip 0 (by decide) (fld_here d.isLt))
  exact of_word (word_eq hN (by show 0xa0000071 + m.toNat * 67108864 + r.toNat * 8388608 + b.toNat * 262144 + a.toNat * 8192 + d.toNat * 256 = _; omega) : encodeNat (.vsubs m r b a d) = (N, 4)) (hN ▸ (show 0x71 + 2 ^ 8 * (d.toNat + 2 ^ 5 * (a.toNat + 2 ^ 5 * (b.toNat + 2 ^ 5 * (r.toNat + 2 ^ 2 * (0x0 + 2 ^ 1 * (m.toNat + 2 ^ 1 * 0x14)))))) < 2 ^ 32 from (under (m := 24) (by decide) (under (m := 19) d.isLt (under (m := 14) a.isLt (under (m := 9) b.isLt (under (m := 7) r.isLt (under (m := 6) (by decide) (under (m := 5) m.isLt (by decide)))))))))) (hN ▸ odd_low _ _) (read71 e0 (by simp [raw71, bv, e1, e2, e3, e4, e5, e6, e7]))

theorem vabd (m : BitVec 1) (r : BitVec 2) (b : BitVec 5) (a : BitVec 5) (d : BitVec 5) : Statement (.vabd m r b a d) := by
  obtain ⟨N, hN⟩ : ∃ N, N = 0x71 + 2 ^ 8 * (d.toNat + 2 ^ 5 * (a.toNat + 2 ^ 5 * (b.toNat + 2 ^ 5 * (r.toNat + 2 ^ 2 * (0x0 + 2 ^ 1 * (m.toNat + 2 ^ 1 * 0x15)))))) := ⟨_, rfl⟩
  have e0 : fld N 0 8 = 113 := hN ▸ (fld_here (by decide))
  have e1 : fld N 25 1 = 0 := hN ▸ (fld_skip 17 (by decide) (fld_skip 12 d.isLt (fld_skip 7 a.isLt (fld_skip 2 b.isLt (fld_skip 0 r.isLt (fld_here (by decide)))))))
  have e2 : fld N 27 5 = 21 := hN ▸ (fld_skip 19 (by decide) (fld_skip 14 d.isLt (fld_skip 9 a.isLt (fld_skip 4 b.isLt (fld_skip 2 r.isLt (fld_skip 1 (by decide) (fld_skip 0 m.isLt (fld_all (by decide)))))))))
  have e3 : fld N 26 1 = m.toNat := hN ▸ (fld_skip 18 (by decide) (fld_skip 13 d.isLt (fld_skip 8 a.isLt (fld_skip 3 b.isLt (fld_skip 1 r.isLt (fld_skip 0 (by decide) (fld_here m.isLt)))))))
  have e4 : fld N 23 2 = r.toNat := hN ▸ (fld_skip 15 (by decide) (fld_skip 10 d.isLt (fld_skip 5 a.isLt (fld_skip 0 b.isLt (fld_here r.isLt)))))
  have e5 : fld N 18 5 = b.toNat := hN ▸ (fld_skip 10 (by decide) (fld_skip 5 d.isLt (fld_skip 0 a.isLt (fld_here b.isLt))))
  have e6 : fld N 13 5 = a.toNat := hN ▸ (fld_skip 5 (by decide) (fld_skip 0 d.isLt (fld_here a.isLt)))
  have e7 : fld N 8 5 = d.toNat := hN ▸ (fld_skip 0 (by decide) (fld_here d.isLt))
  exact of_word (word_eq hN (by show 0xa8000071 + m.toNat * 67108864 + r.toNat * 8388608 + b.toNat * 262144 + a.toNat * 8192 + d.toNat * 256 = _; omega) : encodeNat (.vabd m r b a d) = (N, 4)) (hN ▸ (show 0x71 + 2 ^ 8 * (d.toNat + 2 ^ 5 * (a.toNat + 2 ^ 5 * (b.toNat + 2 ^ 5 * (r.toNat + 2 ^ 2 * (0x0 + 2 ^ 1 * (m.toNat + 2 ^ 1 * 0x15)))))) < 2 ^ 32 from (under (m := 24) (by decide) (under (m := 19) d.isLt (under (m := 14) a.isLt (under (m := 9) b.isLt (under (m := 7) r.isLt (under (m := 6) (by decide) (under (m := 5) m.isLt (by decide)))))))))) (hN ▸ odd_low _ _) (read71 e0 (by simp [raw71, bv, e1, e2, e3, e4, e5, e6, e7]))

theorem vnot (m : BitVec 1) (r : BitVec 2) (b : BitVec 5) (a : BitVec 5) (d : BitVec 5) : Statement (.vnot m r b a d) := by
  obtain ⟨N, hN⟩ : ∃ N, N = 0x71 + 2 ^ 8 * (d.toNat + 2 ^ 5 * (a.toNat + 2 ^ 5 * (b.toNat + 2 ^ 5 * (r.toNat + 2 ^ 2 * (0x0 + 2 ^ 1 * (m.toNat + 2 ^ 1 * 0x16)))))) := ⟨_, rfl⟩
  have e0 : fld N 0 8 = 113 := hN ▸ (fld_here (by decide))
  have e1 : fld N 25 1 = 0 := hN ▸ (fld_skip 17 (by decide) (fld_skip 12 d.isLt (fld_skip 7 a.isLt (fld_skip 2 b.isLt (fld_skip 0 r.isLt (fld_here (by decide)))))))
  have e2 : fld N 27 5 = 22 := hN ▸ (fld_skip 19 (by decide) (fld_skip 14 d.isLt (fld_skip 9 a.isLt (fld_skip 4 b.isLt (fld_skip 2 r.isLt (fld_skip 1 (by decide) (fld_skip 0 m.isLt (fld_all (by decide)))))))))
  have e3 : fld N 26 1 = m.toNat := hN ▸ (fld_skip 18 (by decide) (fld_skip 13 d.isLt (fld_skip 8 a.isLt (fld_skip 3 b.isLt (fld_skip 1 r.isLt (fld_skip 0 (by decide) (fld_here m.isLt)))))))
  have e4 : fld N 23 2 = r.toNat := hN ▸ (fld_skip 15 (by decide) (fld_skip 10 d.isLt (fld_skip 5 a.isLt (fld_skip 0 b.isLt (fld_here r.isLt)))))
  have e5 : fld N 18 5 = b.toNat := hN ▸ (fld_skip 10 (by decide) (fld_skip 5 d.isLt (fld_skip 0 a.isLt (fld_here b.isLt))))
  have e6 : fld N 13 5 = a.toNat := hN ▸ (fld_skip 5 (by decide) (fld_skip 0 d.isLt (fld_here a.isLt)))
  have e7 : fld N 8 5 = d.toNat := hN ▸ (fld_skip 0 (by decide) (fld_here d.isLt))
  exact of_word (word_eq hN (by show 0xb0000071 + m.toNat * 67108864 + r.toNat * 8388608 + b.toNat * 262144 + a.toNat * 8192 + d.toNat * 256 = _; omega) : encodeNat (.vnot m r b a d) = (N, 4)) (hN ▸ (show 0x71 + 2 ^ 8 * (d.toNat + 2 ^ 5 * (a.toNat + 2 ^ 5 * (b.toNat + 2 ^ 5 * (r.toNat + 2 ^ 2 * (0x0 + 2 ^ 1 * (m.toNat + 2 ^ 1 * 0x16)))))) < 2 ^ 32 from (under (m := 24) (by decide) (under (m := 19) d.isLt (under (m := 14) a.isLt (under (m := 9) b.isLt (under (m := 7) r.isLt (under (m := 6) (by decide) (under (m := 5) m.isLt (by decide)))))))))) (hN ▸ odd_low _ _) (read71 e0 (by simp [raw71, bv, e1, e2, e3, e4, e5, e6, e7]))

theorem vaddLForm (m : BitVec 1) (s : BitVec 5) (d : BitVec 5) : Statement (.vaddLForm m s d) := by
  obtain ⟨N, hN⟩ : ∃ N, N = 0x0 + 2 ^ 5 * (d.toNat + 2 ^ 5 * (s.toNat + 2 ^ 5 * m.toNat)) := ⟨_, rfl⟩
  have e0 : fld N 0 5 = 0 := hN ▸ (fld_here (by decide))
  have e1 : fld N 15 1 = m.toNat := hN ▸ (fld_skip 10 (by decide) (fld_skip 5 d.isLt (fld_skip 0 s.isLt (fld_all m.isLt))))
  have e2 : fld N 10 5 = s.toNat := hN ▸ (fld_skip 5 (by decide) (fld_skip 0 d.isLt (fld_here s.isLt)))
  have e3 : fld N 5 5 = d.toNat := hN ▸ (fld_skip 0 (by decide) (fld_here d.isLt))
  exact of_word (word_eq hN (by show 0x0 + m.toNat * 32768 + s.toNat * 1024 + d.toNat * 32 = _; omega) : encodeNat (.vaddLForm m s d) = (N, 2)) (hN ▸ (show 0x0 + 2 ^ 5 * (d.toNat + 2 ^ 5 * (s.toNat + 2 ^ 5 * m.toNat)) < 2 ^ 16 from (under (m := 11) (by decide) (under (m := 6) d.isLt (under (m := 1) s.isLt m.isLt))))) (hN ▸ even_low _ _) (by simp [readsAs, raw16, bv, e0, e1, e2, e3])

theorem vsubLForm (m : BitVec 1) (s : BitVec 5) (d : BitVec 5) : Statement (.vsubLForm m s d) := by
  obtain ⟨N, hN⟩ : ∃ N, N = 0x2 + 2 ^ 5 * (d.toNat + 2 ^ 5 * (s.toNat + 2 ^ 5 * m.toNat)) := ⟨_, rfl⟩
  have e0 : fld N 0 5 = 2 := hN ▸ (fld_here (by decide))
  have e1 : fld N 15 1 = m.toNat := hN ▸ (fld_skip 10 (by decide) (fld_skip 5 d.isLt (fld_skip 0 s.isLt (fld_all m.isLt))))
  have e2 : fld N 10 5 = s.toNat := hN ▸ (fld_skip 5 (by decide) (fld_skip 0 d.isLt (fld_here s.isLt)))
  have e3 : fld N 5 5 = d.toNat := hN ▸ (fld_skip 0 (by decide) (fld_here d.isLt))
  exact of_word (word_eq hN (by show 0x2 + m.toNat * 32768 + s.toNat * 1024 + d.toNat * 32 = _; omega) : encodeNat (.vsubLForm m s d) = (N, 2)) (hN ▸ (show 0x2 + 2 ^ 5 * (d.toNat + 2 ^ 5 * (s.toNat + 2 ^ 5 * m.toNat)) < 2 ^ 16 from (under (m := 11) (by decide) (under (m := 6) d.isLt (under (m := 1) s.isLt m.isLt))))) (hN ▸ even_low _ _) (by simp [readsAs, raw16, bv, e0, e1, e2, e3])

theorem vmulLForm (m : BitVec 1) (s : BitVec 5) (d : BitVec 5) : Statement (.vmulLForm m s d) := by
  obtain ⟨N, hN⟩ : ∃ N, N = 0x4 + 2 ^ 5 * (d.toNat + 2 ^ 5 * (s.toNat + 2 ^ 5 * m.toNat)) := ⟨_, rfl⟩
  have e0 : fld N 0 5 = 4 := hN ▸ (fld_here (by decide))
  have e1 : fld N 15 1 = m.toNat := hN ▸ (fld_skip 10 (by decide) (fld_skip 5 d.isLt (fld_skip 0 s.isLt (fld_all m.isLt))))
  have e2 : fld N 10 5 = s.toNat := hN ▸ (fld_skip 5 (by decide) (fld_skip 0 d.isLt (fld_here s.isLt)))
  have e3 : fld N 5 5 = d.toNat := hN ▸ (fld_skip 0 (by decide) (fld_here d.isLt))
  exact of_word (word_eq hN (by show 0x4 + m.toNat * 32768 + s.toNat * 1024 + d.toNat * 32 = _; omega) : encodeNat (.vmulLForm m s d) = (N, 2)) (hN ▸ (show 0x4 + 2 ^ 5 * (d.toNat + 2 ^ 5 * (s.toNat + 2 ^ 5 * m.toNat)) < 2 ^ 16 from (under (m := 11) (by decide) (under (m := 6) d.isLt (under (m := 1) s.isLt m.isLt))))) (hN ▸ even_low _ _) (by simp [readsAs, raw16, bv, e0, e1, e2, e3])

theorem vminLForm (m : BitVec 1) (s : BitVec 5) (d : BitVec 5) : Statement (.vminLForm m s d) := by
  obtain ⟨N, hN⟩ : ∃ N, N = 0x6 + 2 ^ 5 * (d.toNat + 2 ^ 5 * (s.toNat + 2 ^ 5 * m.toNat)) := ⟨_, rfl⟩
  have e0 : fld N 0 5 = 6 := hN ▸ (fld_here (by decide))
  have e1 : fld N 15 1 = m.toNat := hN ▸ (fld_skip 10 (by decide) (fld_skip 5 d.isLt (fld_skip 0 s.isLt (fld_all m.isLt))))
  have e2 : fld N 10 5 = s.toNat := hN ▸ (fld_skip 5 (by decide) (fld_skip 0 d.isLt (fld_here s.isLt)))
  have e3 : fld N 5 5 = d.toNat := hN ▸ (fld_skip 0 (by decide) (fld_here d.isLt))
  exact of_word (word_eq hN (by show 0x6 + m.toNat * 32768 + s.toNat * 1024 + d.toNat * 32 = _; omega) : encodeNat (.vminLForm m s d) = (N, 2)) (hN ▸ (show 0x6 + 2 ^ 5 * (d.toNat + 2 ^ 5 * (s.toNat + 2 ^ 5 * m.toNat)) < 2 ^ 16 from (under (m := 11) (by decide) (under (m := 6) d.isLt (under (m := 1) s.isLt m.isLt))))) (hN ▸ even_low _ _) (by simp [readsAs, raw16, bv, e0, e1, e2, e3])

theorem vmaxLForm (m : BitVec 1) (s : BitVec 5) (d : BitVec 5) : Statement (.vmaxLForm m s d) := by
  obtain ⟨N, hN⟩ : ∃ N, N = 0x8 + 2 ^ 5 * (d.toNat + 2 ^ 5 * (s.toNat + 2 ^ 5 * m.toNat)) := ⟨_, rfl⟩
  have e0 : fld N 0 5 = 8 := hN ▸ (fld_here (by decide))
  have e1 : fld N 15 1 = m.toNat := hN ▸ (fld_skip 10 (by decide) (fld_skip 5 d.isLt (fld_skip 0 s.isLt (fld_all m.isLt))))
  have e2 : fld N 10 5 = s.toNat := hN ▸ (fld_skip 5 (by decide) (fld_skip 0 d.isLt (fld_here s.isLt)))
  have e3 : fld N 5 5 = d.toNat := hN ▸ (fld_skip 0 (by decide) (fld_here d.isLt))
  exact of_word (word_eq hN (by show 0x8 + m.toNat * 32768 + s.toNat * 1024 + d.toNat * 32 = _; omega) : encodeNat (.vmaxLForm m s d) = (N, 2)) (hN ▸ (show 0x8 + 2 ^ 5 * (d.toNat + 2 ^ 5 * (s.toNat + 2 ^ 5 * m.toNat)) < 2 ^ 16 from (under (m := 11) (by decide) (under (m := 6) d.isLt (under (m := 1) s.isLt m.isLt))))) (hN ▸ even_low _ _) (by simp [readsAs, raw16, bv, e0, e1, e2, e3])

theorem vandLForm (m : BitVec 1) (s : BitVec 5) (d : BitVec 5) : Statement (.vandLForm m s d) := by
  obtain ⟨N, hN⟩ : ∃ N, N = 0xa + 2 ^ 5 * (d.toNat + 2 ^ 5 * (s.toNat + 2 ^ 5 * m.toNat)) := ⟨_, rfl⟩
  have e0 : fld N 0 5 = 10 := hN ▸ (fld_here (by decide))
  have e1 : fld N 15 1 = m.toNat := hN ▸ (fld_skip 10 (by decide) (fld_skip 5 d.isLt (fld_skip 0 s.isLt (fld_all m.isLt))))
  have e2 : fld N 10 5 = s.toNat := hN ▸ (fld_skip 5 (by decide) (fld_skip 0 d.isLt (fld_here s.isLt)))
  have e3 : fld N 5 5 = d.toNat := hN ▸ (fld_skip 0 (by decide) (fld_here d.isLt))
  exact of_word (word_eq hN (by show 0xa + m.toNat * 32768 + s.toNat * 1024 + d.toNat * 32 = _; omega) : encodeNat (.vandLForm m s d) = (N, 2)) (hN ▸ (show 0xa + 2 ^ 5 * (d.toNat + 2 ^ 5 * (s.toNat + 2 ^ 5 * m.toNat)) < 2 ^ 16 from (under (m := 11) (by decide) (under (m := 6) d.isLt (under (m := 1) s.isLt m.isLt))))) (hN ▸ even_low _ _) (by simp [readsAs, raw16, bv, e0, e1, e2, e3])

theorem vorLForm (m : BitVec 1) (s : BitVec 5) (d : BitVec 5) : Statement (.vorLForm m s d) := by
  obtain ⟨N, hN⟩ : ∃ N, N = 0xc + 2 ^ 5 * (d.toNat + 2 ^ 5 * (s.toNat + 2 ^ 5 * m.toNat)) := ⟨_, rfl⟩
  have e0 : fld N 0 5 = 12 := hN ▸ (fld_here (by decide))
  have e1 : fld N 15 1 = m.toNat := hN ▸ (fld_skip 10 (by decide) (fld_skip 5 d.isLt (fld_skip 0 s.isLt (fld_all m.isLt))))
  have e2 : fld N 10 5 = s.toNat := hN ▸ (fld_skip 5 (by decide) (fld_skip 0 d.isLt (fld_here s.isLt)))
  have e3 : fld N 5 5 = d.toNat := hN ▸ (fld_skip 0 (by decide) (fld_here d.isLt))
  exact of_word (word_eq hN (by show 0xc + m.toNat * 32768 + s.toNat * 1024 + d.toNat * 32 = _; omega) : encodeNat (.vorLForm m s d) = (N, 2)) (hN ▸ (show 0xc + 2 ^ 5 * (d.toNat + 2 ^ 5 * (s.toNat + 2 ^ 5 * m.toNat)) < 2 ^ 16 from (under (m := 11) (by decide) (under (m := 6) d.isLt (under (m := 1) s.isLt m.isLt))))) (hN ▸ even_low _ _) (by simp [readsAs, raw16, bv, e0, e1, e2, e3])

theorem vxorLForm (m : BitVec 1) (s : BitVec 5) (d : BitVec 5) : Statement (.vxorLForm m s d) := by
  obtain ⟨N, hN⟩ : ∃ N, N = 0xe + 2 ^ 5 * (d.toNat + 2 ^ 5 * (s.toNat + 2 ^ 5 * m.toNat)) := ⟨_, rfl⟩
  have e0 : fld N 0 5 = 14 := hN ▸ (fld_here (by decide))
  have e1 : fld N 15 1 = m.toNat := hN ▸ (fld_skip 10 (by decide) (fld_skip 5 d.isLt (fld_skip 0 s.isLt (fld_all m.isLt))))
  have e2 : fld N 10 5 = s.toNat := hN ▸ (fld_skip 5 (by decide) (fld_skip 0 d.isLt (fld_here s.isLt)))
  have e3 : fld N 5 5 = d.toNat := hN ▸ (fld_skip 0 (by decide) (fld_here d.isLt))
  exact of_word (word_eq hN (by show 0xe + m.toNat * 32768 + s.toNat * 1024 + d.toNat * 32 = _; omega) : encodeNat (.vxorLForm m s d) = (N, 2)) (hN ▸ (show 0xe + 2 ^ 5 * (d.toNat + 2 ^ 5 * (s.toNat + 2 ^ 5 * m.toNat)) < 2 ^ 16 from (under (m := 11) (by decide) (under (m := 6) d.isLt (under (m := 1) s.isLt m.isLt))))) (hN ▸ even_low _ _) (by simp [readsAs, raw16, bv, e0, e1, e2, e3])

theorem vshlLForm (m : BitVec 1) (s : BitVec 5) (d : BitVec 5) : Statement (.vshlLForm m s d) := by
  obtain ⟨N, hN⟩ : ∃ N, N = 0x10 + 2 ^ 5 * (d.toNat + 2 ^ 5 * (s.toNat + 2 ^ 5 * m.toNat)) := ⟨_, rfl⟩
  have e0 : fld N 0 5 = 16 := hN ▸ (fld_here (by decide))
  have e1 : fld N 15 1 = m.toNat := hN ▸ (fld_skip 10 (by decide) (fld_skip 5 d.isLt (fld_skip 0 s.isLt (fld_all m.isLt))))
  have e2 : fld N 10 5 = s.toNat := hN ▸ (fld_skip 5 (by decide) (fld_skip 0 d.isLt (fld_here s.isLt)))
  have e3 : fld N 5 5 = d.toNat := hN ▸ (fld_skip 0 (by decide) (fld_here d.isLt))
  exact of_word (word_eq hN (by show 0x10 + m.toNat * 32768 + s.toNat * 1024 + d.toNat * 32 = _; omega) : encodeNat (.vshlLForm m s d) = (N, 2)) (hN ▸ (show 0x10 + 2 ^ 5 * (d.toNat + 2 ^ 5 * (s.toNat + 2 ^ 5 * m.toNat)) < 2 ^ 16 from (under (m := 11) (by decide) (under (m := 6) d.isLt (under (m := 1) s.isLt m.isLt))))) (hN ▸ even_low _ _) (by simp [readsAs, raw16, bv, e0, e1, e2, e3])

theorem vshrLForm (m : BitVec 1) (s : BitVec 5) (d : BitVec 5) : Statement (.vshrLForm m s d) := by
  obtain ⟨N, hN⟩ : ∃ N, N = 0x12 + 2 ^ 5 * (d.toNat + 2 ^ 5 * (s.toNat + 2 ^ 5 * m.toNat)) := ⟨_, rfl⟩
  have e0 : fld N 0 5 = 18 := hN ▸ (fld_here (by decide))
  have e1 : fld N 15 1 = m.toNat := hN ▸ (fld_skip 10 (by decide) (fld_skip 5 d.isLt (fld_skip 0 s.isLt (fld_all m.isLt))))
  have e2 : fld N 10 5 = s.toNat := hN ▸ (fld_skip 5 (by decide) (fld_skip 0 d.isLt (fld_here s.isLt)))
  have e3 : fld N 5 5 = d.toNat := hN ▸ (fld_skip 0 (by decide) (fld_here d.isLt))
  exact of_word (word_eq hN (by show 0x12 + m.toNat * 32768 + s.toNat * 1024 + d.toNat * 32 = _; omega) : encodeNat (.vshrLForm m s d) = (N, 2)) (hN ▸ (show 0x12 + 2 ^ 5 * (d.toNat + 2 ^ 5 * (s.toNat + 2 ^ 5 * m.toNat)) < 2 ^ 16 from (under (m := 11) (by decide) (under (m := 6) d.isLt (under (m := 1) s.isLt m.isLt))))) (hN ▸ even_low _ _) (by simp [readsAs, raw16, bv, e0, e1, e2, e3])

theorem vsarLForm (m : BitVec 1) (s : BitVec 5) (d : BitVec 5) : Statement (.vsarLForm m s d) := by
  obtain ⟨N, hN⟩ : ∃ N, N = 0x14 + 2 ^ 5 * (d.toNat + 2 ^ 5 * (s.toNat + 2 ^ 5 * m.toNat)) := ⟨_, rfl⟩
  have e0 : fld N 0 5 = 20 := hN ▸ (fld_here (by decide))
  have e1 : fld N 15 1 = m.toNat := hN ▸ (fld_skip 10 (by decide) (fld_skip 5 d.isLt (fld_skip 0 s.isLt (fld_all m.isLt))))
  have e2 : fld N 10 5 = s.toNat := hN ▸ (fld_skip 5 (by decide) (fld_skip 0 d.isLt (fld_here s.isLt)))
  have e3 : fld N 5 5 = d.toNat := hN ▸ (fld_skip 0 (by decide) (fld_here d.isLt))
  exact of_word (word_eq hN (by show 0x14 + m.toNat * 32768 + s.toNat * 1024 + d.toNat * 32 = _; omega) : encodeNat (.vsarLForm m s d) = (N, 2)) (hN ▸ (show 0x14 + 2 ^ 5 * (d.toNat + 2 ^ 5 * (s.toNat + 2 ^ 5 * m.toNat)) < 2 ^ 16 from (under (m := 11) (by decide) (under (m := 6) d.isLt (under (m := 1) s.isLt m.isLt))))) (hN ▸ even_low _ _) (by simp [readsAs, raw16, bv, e0, e1, e2, e3])

theorem vmovLForm (m : BitVec 1) (s : BitVec 5) (d : BitVec 5) : Statement (.vmovLForm m s d) := by
  obtain ⟨N, hN⟩ : ∃ N, N = 0x16 + 2 ^ 5 * (d.toNat + 2 ^ 5 * (s.toNat + 2 ^ 5 * m.toNat)) := ⟨_, rfl⟩
  have e0 : fld N 0 5 = 22 := hN ▸ (fld_here (by decide))
  have e1 : fld N 15 1 = m.toNat := hN ▸ (fld_skip 10 (by decide) (fld_skip 5 d.isLt (fld_skip 0 s.isLt (fld_all m.isLt))))
  have e2 : fld N 10 5 = s.toNat := hN ▸ (fld_skip 5 (by decide) (fld_skip 0 d.isLt (fld_here s.isLt)))
  have e3 : fld N 5 5 = d.toNat := hN ▸ (fld_skip 0 (by decide) (fld_here d.isLt))
  exact of_word (word_eq hN (by show 0x16 + m.toNat * 32768 + s.toNat * 1024 + d.toNat * 32 = _; omega) : encodeNat (.vmovLForm m s d) = (N, 2)) (hN ▸ (show 0x16 + 2 ^ 5 * (d.toNat + 2 ^ 5 * (s.toNat + 2 ^ 5 * m.toNat)) < 2 ^ 16 from (under (m := 11) (by decide) (under (m := 6) d.isLt (under (m := 1) s.isLt m.isLt))))) (hN ▸ even_low _ _) (by simp [readsAs, raw16, bv, e0, e1, e2, e3])

theorem vnegLForm (m : BitVec 1) (s : BitVec 5) (d : BitVec 5) : Statement (.vnegLForm m s d) := by
  obtain ⟨N, hN⟩ : ∃ N, N = 0x18 + 2 ^ 5 * (d.toNat + 2 ^ 5 * (s.toNat + 2 ^ 5 * m.toNat)) := ⟨_, rfl⟩
  have e0 : fld N 0 5 = 24 := hN ▸ (fld_here (by decide))
  have e1 : fld N 15 1 = m.toNat := hN ▸ (fld_skip 10 (by decide) (fld_skip 5 d.isLt (fld_skip 0 s.isLt (fld_all m.isLt))))
  have e2 : fld N 10 5 = s.toNat := hN ▸ (fld_skip 5 (by decide) (fld_skip 0 d.isLt (fld_here s.isLt)))
  have e3 : fld N 5 5 = d.toNat := hN ▸ (fld_skip 0 (by decide) (fld_here d.isLt))
  exact of_word (word_eq hN (by show 0x18 + m.toNat * 32768 + s.toNat * 1024 + d.toNat * 32 = _; omega) : encodeNat (.vnegLForm m s d) = (N, 2)) (hN ▸ (show 0x18 + 2 ^ 5 * (d.toNat + 2 ^ 5 * (s.toNat + 2 ^ 5 * m.toNat)) < 2 ^ 16 from (under (m := 11) (by decide) (under (m := 6) d.isLt (under (m := 1) s.isLt m.isLt))))) (hN ▸ even_low _ _) (by simp [readsAs, raw16, bv, e0, e1, e2, e3])

theorem vabsLForm (m : BitVec 1) (s : BitVec 5) (d : BitVec 5) : Statement (.vabsLForm m s d) := by
  obtain ⟨N, hN⟩ : ∃ N, N = 0x1a + 2 ^ 5 * (d.toNat + 2 ^ 5 * (s.toNat + 2 ^ 5 * m.toNat)) := ⟨_, rfl⟩
  have e0 : fld N 0 5 = 26 := hN ▸ (fld_here (by decide))
  have e1 : fld N 15 1 = m.toNat := hN ▸ (fld_skip 10 (by decide) (fld_skip 5 d.isLt (fld_skip 0 s.isLt (fld_all m.isLt))))
  have e2 : fld N 10 5 = s.toNat := hN ▸ (fld_skip 5 (by decide) (fld_skip 0 d.isLt (fld_here s.isLt)))
  have e3 : fld N 5 5 = d.toNat := hN ▸ (fld_skip 0 (by decide) (fld_here d.isLt))
  exact of_word (word_eq hN (by show 0x1a + m.toNat * 32768 + s.toNat * 1024 + d.toNat * 32 = _; omega) : encodeNat (.vabsLForm m s d) = (N, 2)) (hN ▸ (show 0x1a + 2 ^ 5 * (d.toNat + 2 ^ 5 * (s.toNat + 2 ^ 5 * m.toNat)) < 2 ^ 16 from (under (m := 11) (by decide) (under (m := 6) d.isLt (under (m := 1) s.isLt m.isLt))))) (hN ▸ even_low _ _) (by simp [readsAs, raw16, bv, e0, e1, e2, e3])

theorem vrsubLForm (m : BitVec 1) (s : BitVec 5) (d : BitVec 5) : Statement (.vrsubLForm m s d) := by
  obtain ⟨N, hN⟩ : ∃ N, N = 0x1c + 2 ^ 5 * (d.toNat + 2 ^ 5 * (s.toNat + 2 ^ 5 * m.toNat)) := ⟨_, rfl⟩
  have e0 : fld N 0 5 = 28 := hN ▸ (fld_here (by decide))
  have e1 : fld N 15 1 = m.toNat := hN ▸ (fld_skip 10 (by decide) (fld_skip 5 d.isLt (fld_skip 0 s.isLt (fld_all m.isLt))))
  have e2 : fld N 10 5 = s.toNat := hN ▸ (fld_skip 5 (by decide) (fld_skip 0 d.isLt (fld_here s.isLt)))
  have e3 : fld N 5 5 = d.toNat := hN ▸ (fld_skip 0 (by decide) (fld_here d.isLt))
  exact of_word (word_eq hN (by show 0x1c + m.toNat * 32768 + s.toNat * 1024 + d.toNat * 32 = _; omega) : encodeNat (.vrsubLForm m s d) = (N, 2)) (hN ▸ (show 0x1c + 2 ^ 5 * (d.toNat + 2 ^ 5 * (s.toNat + 2 ^ 5 * m.toNat)) < 2 ^ 16 from (under (m := 11) (by decide) (under (m := 6) d.isLt (under (m := 1) s.isLt m.isLt))))) (hN ▸ even_low _ _) (by simp [readsAs, raw16, bv, e0, e1, e2, e3])

theorem vxchgLForm (m : BitVec 1) (s : BitVec 5) (d : BitVec 5) : Statement (.vxchgLForm m s d) := by
  obtain ⟨N, hN⟩ : ∃ N, N = 0x1e + 2 ^ 5 * (d.toNat + 2 ^ 5 * (s.toNat + 2 ^ 5 * m.toNat)) := ⟨_, rfl⟩
  have e0 : fld N 0 5 = 30 := hN ▸ (fld_here (by decide))
  have e1 : fld N 15 1 = m.toNat := hN ▸ (fld_skip 10 (by decide) (fld_skip 5 d.isLt (fld_skip 0 s.isLt (fld_all m.isLt))))
  have e2 : fld N 10 5 = s.toNat := hN ▸ (fld_skip 5 (by decide) (fld_skip 0 d.isLt (fld_here s.isLt)))
  have e3 : fld N 5 5 = d.toNat := hN ▸ (fld_skip 0 (by decide) (fld_here d.isLt))
  exact of_word (word_eq hN (by show 0x1e + m.toNat * 32768 + s.toNat * 1024 + d.toNat * 32 = _; omega) : encodeNat (.vxchgLForm m s d) = (N, 2)) (hN ▸ (show 0x1e + 2 ^ 5 * (d.toNat + 2 ^ 5 * (s.toNat + 2 ^ 5 * m.toNat)) < 2 ^ 16 from (under (m := 11) (by decide) (under (m := 6) d.isLt (under (m := 1) s.isLt m.isLt))))) (hN ▸ even_low _ _) (by simp [readsAs, raw16, bv, e0, e1, e2, e3])

theorem vfma (m : BitVec 1) (r : BitVec 2) (b : BitVec 5) (a : BitVec 5) (d : BitVec 5) : Statement (.vfma m r b a d) := by
  obtain ⟨N, hN⟩ : ∃ N, N = 0x73 + 2 ^ 8 * (d.toNat + 2 ^ 5 * (a.toNat + 2 ^ 5 * (b.toNat + 2 ^ 5 * (r.toNat + 2 ^ 2 * (0x0 + 2 ^ 1 * (m.toNat + 2 ^ 1 * 0x0)))))) := ⟨_, rfl⟩
  have e0 : fld N 0 8 = 115 := hN ▸ (fld_here (by decide))
  have e1 : fld N 25 1 = 0 := hN ▸ (fld_skip 17 (by decide) (fld_skip 12 d.isLt (fld_skip 7 a.isLt (fld_skip 2 b.isLt (fld_skip 0 r.isLt (fld_here (by decide)))))))
  have e2 : fld N 27 5 = 0 := hN ▸ (fld_skip 19 (by decide) (fld_skip 14 d.isLt (fld_skip 9 a.isLt (fld_skip 4 b.isLt (fld_skip 2 r.isLt (fld_skip 1 (by decide) (fld_skip 0 m.isLt (fld_all (by decide)))))))))
  have e3 : fld N 26 1 = m.toNat := hN ▸ (fld_skip 18 (by decide) (fld_skip 13 d.isLt (fld_skip 8 a.isLt (fld_skip 3 b.isLt (fld_skip 1 r.isLt (fld_skip 0 (by decide) (fld_here m.isLt)))))))
  have e4 : fld N 23 2 = r.toNat := hN ▸ (fld_skip 15 (by decide) (fld_skip 10 d.isLt (fld_skip 5 a.isLt (fld_skip 0 b.isLt (fld_here r.isLt)))))
  have e5 : fld N 18 5 = b.toNat := hN ▸ (fld_skip 10 (by decide) (fld_skip 5 d.isLt (fld_skip 0 a.isLt (fld_here b.isLt))))
  have e6 : fld N 13 5 = a.toNat := hN ▸ (fld_skip 5 (by decide) (fld_skip 0 d.isLt (fld_here a.isLt)))
  have e7 : fld N 8 5 = d.toNat := hN ▸ (fld_skip 0 (by decide) (fld_here d.isLt))
  exact of_word (word_eq hN (by show 0x73 + m.toNat * 67108864 + r.toNat * 8388608 + b.toNat * 262144 + a.toNat * 8192 + d.toNat * 256 = _; omega) : encodeNat (.vfma m r b a d) = (N, 4)) (hN ▸ (show 0x73 + 2 ^ 8 * (d.toNat + 2 ^ 5 * (a.toNat + 2 ^ 5 * (b.toNat + 2 ^ 5 * (r.toNat + 2 ^ 2 * (0x0 + 2 ^ 1 * (m.toNat + 2 ^ 1 * 0x0)))))) < 2 ^ 32 from (under (m := 24) (by decide) (under (m := 19) d.isLt (under (m := 14) a.isLt (under (m := 9) b.isLt (under (m := 7) r.isLt (under (m := 6) (by decide) (under (m := 5) m.isLt (by decide)))))))))) (hN ▸ odd_low _ _) (read73 e0 (by simp [raw73, bv, e1, e2, e3, e4, e5, e6, e7]))

theorem vfms (m : BitVec 1) (r : BitVec 2) (b : BitVec 5) (a : BitVec 5) (d : BitVec 5) : Statement (.vfms m r b a d) := by
  obtain ⟨N, hN⟩ : ∃ N, N = 0x73 + 2 ^ 8 * (d.toNat + 2 ^ 5 * (a.toNat + 2 ^ 5 * (b.toNat + 2 ^ 5 * (r.toNat + 2 ^ 2 * (0x0 + 2 ^ 1 * (m.toNat + 2 ^ 1 * 0x1)))))) := ⟨_, rfl⟩
  have e0 : fld N 0 8 = 115 := hN ▸ (fld_here (by decide))
  have e1 : fld N 25 1 = 0 := hN ▸ (fld_skip 17 (by decide) (fld_skip 12 d.isLt (fld_skip 7 a.isLt (fld_skip 2 b.isLt (fld_skip 0 r.isLt (fld_here (by decide)))))))
  have e2 : fld N 27 5 = 1 := hN ▸ (fld_skip 19 (by decide) (fld_skip 14 d.isLt (fld_skip 9 a.isLt (fld_skip 4 b.isLt (fld_skip 2 r.isLt (fld_skip 1 (by decide) (fld_skip 0 m.isLt (fld_all (by decide)))))))))
  have e3 : fld N 26 1 = m.toNat := hN ▸ (fld_skip 18 (by decide) (fld_skip 13 d.isLt (fld_skip 8 a.isLt (fld_skip 3 b.isLt (fld_skip 1 r.isLt (fld_skip 0 (by decide) (fld_here m.isLt)))))))
  have e4 : fld N 23 2 = r.toNat := hN ▸ (fld_skip 15 (by decide) (fld_skip 10 d.isLt (fld_skip 5 a.isLt (fld_skip 0 b.isLt (fld_here r.isLt)))))
  have e5 : fld N 18 5 = b.toNat := hN ▸ (fld_skip 10 (by decide) (fld_skip 5 d.isLt (fld_skip 0 a.isLt (fld_here b.isLt))))
  have e6 : fld N 13 5 = a.toNat := hN ▸ (fld_skip 5 (by decide) (fld_skip 0 d.isLt (fld_here a.isLt)))
  have e7 : fld N 8 5 = d.toNat := hN ▸ (fld_skip 0 (by decide) (fld_here d.isLt))
  exact of_word (word_eq hN (by show 0x8000073 + m.toNat * 67108864 + r.toNat * 8388608 + b.toNat * 262144 + a.toNat * 8192 + d.toNat * 256 = _; omega) : encodeNat (.vfms m r b a d) = (N, 4)) (hN ▸ (show 0x73 + 2 ^ 8 * (d.toNat + 2 ^ 5 * (a.toNat + 2 ^ 5 * (b.toNat + 2 ^ 5 * (r.toNat + 2 ^ 2 * (0x0 + 2 ^ 1 * (m.toNat + 2 ^ 1 * 0x1)))))) < 2 ^ 32 from (under (m := 24) (by decide) (under (m := 19) d.isLt (under (m := 14) a.isLt (under (m := 9) b.isLt (under (m := 7) r.isLt (under (m := 6) (by decide) (under (m := 5) m.isLt (by decide)))))))))) (hN ▸ odd_low _ _) (read73 e0 (by simp [raw73, bv, e1, e2, e3, e4, e5, e6, e7]))

theorem vfnma (m : BitVec 1) (r : BitVec 2) (b : BitVec 5) (a : BitVec 5) (d : BitVec 5) : Statement (.vfnma m r b a d) := by
  obtain ⟨N, hN⟩ : ∃ N, N = 0x73 + 2 ^ 8 * (d.toNat + 2 ^ 5 * (a.toNat + 2 ^ 5 * (b.toNat + 2 ^ 5 * (r.toNat + 2 ^ 2 * (0x0 + 2 ^ 1 * (m.toNat + 2 ^ 1 * 0x2)))))) := ⟨_, rfl⟩
  have e0 : fld N 0 8 = 115 := hN ▸ (fld_here (by decide))
  have e1 : fld N 25 1 = 0 := hN ▸ (fld_skip 17 (by decide) (fld_skip 12 d.isLt (fld_skip 7 a.isLt (fld_skip 2 b.isLt (fld_skip 0 r.isLt (fld_here (by decide)))))))
  have e2 : fld N 27 5 = 2 := hN ▸ (fld_skip 19 (by decide) (fld_skip 14 d.isLt (fld_skip 9 a.isLt (fld_skip 4 b.isLt (fld_skip 2 r.isLt (fld_skip 1 (by decide) (fld_skip 0 m.isLt (fld_all (by decide)))))))))
  have e3 : fld N 26 1 = m.toNat := hN ▸ (fld_skip 18 (by decide) (fld_skip 13 d.isLt (fld_skip 8 a.isLt (fld_skip 3 b.isLt (fld_skip 1 r.isLt (fld_skip 0 (by decide) (fld_here m.isLt)))))))
  have e4 : fld N 23 2 = r.toNat := hN ▸ (fld_skip 15 (by decide) (fld_skip 10 d.isLt (fld_skip 5 a.isLt (fld_skip 0 b.isLt (fld_here r.isLt)))))
  have e5 : fld N 18 5 = b.toNat := hN ▸ (fld_skip 10 (by decide) (fld_skip 5 d.isLt (fld_skip 0 a.isLt (fld_here b.isLt))))
  have e6 : fld N 13 5 = a.toNat := hN ▸ (fld_skip 5 (by decide) (fld_skip 0 d.isLt (fld_here a.isLt)))
  have e7 : fld N 8 5 = d.toNat := hN ▸ (fld_skip 0 (by decide) (fld_here d.isLt))
  exact of_word (word_eq hN (by show 0x10000073 + m.toNat * 67108864 + r.toNat * 8388608 + b.toNat * 262144 + a.toNat * 8192 + d.toNat * 256 = _; omega) : encodeNat (.vfnma m r b a d) = (N, 4)) (hN ▸ (show 0x73 + 2 ^ 8 * (d.toNat + 2 ^ 5 * (a.toNat + 2 ^ 5 * (b.toNat + 2 ^ 5 * (r.toNat + 2 ^ 2 * (0x0 + 2 ^ 1 * (m.toNat + 2 ^ 1 * 0x2)))))) < 2 ^ 32 from (under (m := 24) (by decide) (under (m := 19) d.isLt (under (m := 14) a.isLt (under (m := 9) b.isLt (under (m := 7) r.isLt (under (m := 6) (by decide) (under (m := 5) m.isLt (by decide)))))))))) (hN ▸ odd_low _ _) (read73 e0 (by simp [raw73, bv, e1, e2, e3, e4, e5, e6, e7]))

theorem vfnms (m : BitVec 1) (r : BitVec 2) (b : BitVec 5) (a : BitVec 5) (d : BitVec 5) : Statement (.vfnms m r b a d) := by
  obtain ⟨N, hN⟩ : ∃ N, N = 0x73 + 2 ^ 8 * (d.toNat + 2 ^ 5 * (a.toNat + 2 ^ 5 * (b.toNat + 2 ^ 5 * (r.toNat + 2 ^ 2 * (0x0 + 2 ^ 1 * (m.toNat + 2 ^ 1 * 0x3)))))) := ⟨_, rfl⟩
  have e0 : fld N 0 8 = 115 := hN ▸ (fld_here (by decide))
  have e1 : fld N 25 1 = 0 := hN ▸ (fld_skip 17 (by decide) (fld_skip 12 d.isLt (fld_skip 7 a.isLt (fld_skip 2 b.isLt (fld_skip 0 r.isLt (fld_here (by decide)))))))
  have e2 : fld N 27 5 = 3 := hN ▸ (fld_skip 19 (by decide) (fld_skip 14 d.isLt (fld_skip 9 a.isLt (fld_skip 4 b.isLt (fld_skip 2 r.isLt (fld_skip 1 (by decide) (fld_skip 0 m.isLt (fld_all (by decide)))))))))
  have e3 : fld N 26 1 = m.toNat := hN ▸ (fld_skip 18 (by decide) (fld_skip 13 d.isLt (fld_skip 8 a.isLt (fld_skip 3 b.isLt (fld_skip 1 r.isLt (fld_skip 0 (by decide) (fld_here m.isLt)))))))
  have e4 : fld N 23 2 = r.toNat := hN ▸ (fld_skip 15 (by decide) (fld_skip 10 d.isLt (fld_skip 5 a.isLt (fld_skip 0 b.isLt (fld_here r.isLt)))))
  have e5 : fld N 18 5 = b.toNat := hN ▸ (fld_skip 10 (by decide) (fld_skip 5 d.isLt (fld_skip 0 a.isLt (fld_here b.isLt))))
  have e6 : fld N 13 5 = a.toNat := hN ▸ (fld_skip 5 (by decide) (fld_skip 0 d.isLt (fld_here a.isLt)))
  have e7 : fld N 8 5 = d.toNat := hN ▸ (fld_skip 0 (by decide) (fld_here d.isLt))
  exact of_word (word_eq hN (by show 0x18000073 + m.toNat * 67108864 + r.toNat * 8388608 + b.toNat * 262144 + a.toNat * 8192 + d.toNat * 256 = _; omega) : encodeNat (.vfnms m r b a d) = (N, 4)) (hN ▸ (show 0x73 + 2 ^ 8 * (d.toNat + 2 ^ 5 * (a.toNat + 2 ^ 5 * (b.toNat + 2 ^ 5 * (r.toNat + 2 ^ 2 * (0x0 + 2 ^ 1 * (m.toNat + 2 ^ 1 * 0x3)))))) < 2 ^ 32 from (under (m := 24) (by decide) (under (m := 19) d.isLt (under (m := 14) a.isLt (under (m := 9) b.isLt (under (m := 7) r.isLt (under (m := 6) (by decide) (under (m := 5) m.isLt (by decide)))))))))) (hN ▸ odd_low _ _) (read73 e0 (by simp [raw73, bv, e1, e2, e3, e4, e5, e6, e7]))

theorem vwadd (m : BitVec 1) (r : BitVec 2) (b : BitVec 5) (a : BitVec 5) (d : BitVec 5) : Statement (.vwadd m r b a d) := by
  obtain ⟨N, hN⟩ : ∃ N, N = 0x75 + 2 ^ 8 * (d.toNat + 2 ^ 5 * (a.toNat + 2 ^ 5 * (b.toNat + 2 ^ 5 * (r.toNat + 2 ^ 2 * (0x0 + 2 ^ 1 * (m.toNat + 2 ^ 1 * 0x0)))))) := ⟨_, rfl⟩
  have e0 : fld N 0 8 = 117 := hN ▸ (fld_here (by decide))
  have e1 : fld N 25 1 = 0 := hN ▸ (fld_skip 17 (by decide) (fld_skip 12 d.isLt (fld_skip 7 a.isLt (fld_skip 2 b.isLt (fld_skip 0 r.isLt (fld_here (by decide)))))))
  have e2 : fld N 27 5 = 0 := hN ▸ (fld_skip 19 (by decide) (fld_skip 14 d.isLt (fld_skip 9 a.isLt (fld_skip 4 b.isLt (fld_skip 2 r.isLt (fld_skip 1 (by decide) (fld_skip 0 m.isLt (fld_all (by decide)))))))))
  have e3 : fld N 26 1 = m.toNat := hN ▸ (fld_skip 18 (by decide) (fld_skip 13 d.isLt (fld_skip 8 a.isLt (fld_skip 3 b.isLt (fld_skip 1 r.isLt (fld_skip 0 (by decide) (fld_here m.isLt)))))))
  have e4 : fld N 23 2 = r.toNat := hN ▸ (fld_skip 15 (by decide) (fld_skip 10 d.isLt (fld_skip 5 a.isLt (fld_skip 0 b.isLt (fld_here r.isLt)))))
  have e5 : fld N 18 5 = b.toNat := hN ▸ (fld_skip 10 (by decide) (fld_skip 5 d.isLt (fld_skip 0 a.isLt (fld_here b.isLt))))
  have e6 : fld N 13 5 = a.toNat := hN ▸ (fld_skip 5 (by decide) (fld_skip 0 d.isLt (fld_here a.isLt)))
  have e7 : fld N 8 5 = d.toNat := hN ▸ (fld_skip 0 (by decide) (fld_here d.isLt))
  exact of_word (word_eq hN (by show 0x75 + m.toNat * 67108864 + r.toNat * 8388608 + b.toNat * 262144 + a.toNat * 8192 + d.toNat * 256 = _; omega) : encodeNat (.vwadd m r b a d) = (N, 4)) (hN ▸ (show 0x75 + 2 ^ 8 * (d.toNat + 2 ^ 5 * (a.toNat + 2 ^ 5 * (b.toNat + 2 ^ 5 * (r.toNat + 2 ^ 2 * (0x0 + 2 ^ 1 * (m.toNat + 2 ^ 1 * 0x0)))))) < 2 ^ 32 from (under (m := 24) (by decide) (under (m := 19) d.isLt (under (m := 14) a.isLt (under (m := 9) b.isLt (under (m := 7) r.isLt (under (m := 6) (by decide) (under (m := 5) m.isLt (by decide)))))))))) (hN ▸ odd_low _ _) (read75 e0 (by simp [raw75, bv, e1, e2, e3, e4, e5, e6, e7]))

theorem vwsub (m : BitVec 1) (r : BitVec 2) (b : BitVec 5) (a : BitVec 5) (d : BitVec 5) : Statement (.vwsub m r b a d) := by
  obtain ⟨N, hN⟩ : ∃ N, N = 0x75 + 2 ^ 8 * (d.toNat + 2 ^ 5 * (a.toNat + 2 ^ 5 * (b.toNat + 2 ^ 5 * (r.toNat + 2 ^ 2 * (0x0 + 2 ^ 1 * (m.toNat + 2 ^ 1 * 0x1)))))) := ⟨_, rfl⟩
  have e0 : fld N 0 8 = 117 := hN ▸ (fld_here (by decide))
  have e1 : fld N 25 1 = 0 := hN ▸ (fld_skip 17 (by decide) (fld_skip 12 d.isLt (fld_skip 7 a.isLt (fld_skip 2 b.isLt (fld_skip 0 r.isLt (fld_here (by decide)))))))
  have e2 : fld N 27 5 = 1 := hN ▸ (fld_skip 19 (by decide) (fld_skip 14 d.isLt (fld_skip 9 a.isLt (fld_skip 4 b.isLt (fld_skip 2 r.isLt (fld_skip 1 (by decide) (fld_skip 0 m.isLt (fld_all (by decide)))))))))
  have e3 : fld N 26 1 = m.toNat := hN ▸ (fld_skip 18 (by decide) (fld_skip 13 d.isLt (fld_skip 8 a.isLt (fld_skip 3 b.isLt (fld_skip 1 r.isLt (fld_skip 0 (by decide) (fld_here m.isLt)))))))
  have e4 : fld N 23 2 = r.toNat := hN ▸ (fld_skip 15 (by decide) (fld_skip 10 d.isLt (fld_skip 5 a.isLt (fld_skip 0 b.isLt (fld_here r.isLt)))))
  have e5 : fld N 18 5 = b.toNat := hN ▸ (fld_skip 10 (by decide) (fld_skip 5 d.isLt (fld_skip 0 a.isLt (fld_here b.isLt))))
  have e6 : fld N 13 5 = a.toNat := hN ▸ (fld_skip 5 (by decide) (fld_skip 0 d.isLt (fld_here a.isLt)))
  have e7 : fld N 8 5 = d.toNat := hN ▸ (fld_skip 0 (by decide) (fld_here d.isLt))
  exact of_word (word_eq hN (by show 0x8000075 + m.toNat * 67108864 + r.toNat * 8388608 + b.toNat * 262144 + a.toNat * 8192 + d.toNat * 256 = _; omega) : encodeNat (.vwsub m r b a d) = (N, 4)) (hN ▸ (show 0x75 + 2 ^ 8 * (d.toNat + 2 ^ 5 * (a.toNat + 2 ^ 5 * (b.toNat + 2 ^ 5 * (r.toNat + 2 ^ 2 * (0x0 + 2 ^ 1 * (m.toNat + 2 ^ 1 * 0x1)))))) < 2 ^ 32 from (under (m := 24) (by decide) (under (m := 19) d.isLt (under (m := 14) a.isLt (under (m := 9) b.isLt (under (m := 7) r.isLt (under (m := 6) (by decide) (under (m := 5) m.isLt (by decide)))))))))) (hN ▸ odd_low _ _) (read75 e0 (by simp [raw75, bv, e1, e2, e3, e4, e5, e6, e7]))

theorem vwmul (m : BitVec 1) (r : BitVec 2) (b : BitVec 5) (a : BitVec 5) (d : BitVec 5) : Statement (.vwmul m r b a d) := by
  obtain ⟨N, hN⟩ : ∃ N, N = 0x75 + 2 ^ 8 * (d.toNat + 2 ^ 5 * (a.toNat + 2 ^ 5 * (b.toNat + 2 ^ 5 * (r.toNat + 2 ^ 2 * (0x0 + 2 ^ 1 * (m.toNat + 2 ^ 1 * 0x2)))))) := ⟨_, rfl⟩
  have e0 : fld N 0 8 = 117 := hN ▸ (fld_here (by decide))
  have e1 : fld N 25 1 = 0 := hN ▸ (fld_skip 17 (by decide) (fld_skip 12 d.isLt (fld_skip 7 a.isLt (fld_skip 2 b.isLt (fld_skip 0 r.isLt (fld_here (by decide)))))))
  have e2 : fld N 27 5 = 2 := hN ▸ (fld_skip 19 (by decide) (fld_skip 14 d.isLt (fld_skip 9 a.isLt (fld_skip 4 b.isLt (fld_skip 2 r.isLt (fld_skip 1 (by decide) (fld_skip 0 m.isLt (fld_all (by decide)))))))))
  have e3 : fld N 26 1 = m.toNat := hN ▸ (fld_skip 18 (by decide) (fld_skip 13 d.isLt (fld_skip 8 a.isLt (fld_skip 3 b.isLt (fld_skip 1 r.isLt (fld_skip 0 (by decide) (fld_here m.isLt)))))))
  have e4 : fld N 23 2 = r.toNat := hN ▸ (fld_skip 15 (by decide) (fld_skip 10 d.isLt (fld_skip 5 a.isLt (fld_skip 0 b.isLt (fld_here r.isLt)))))
  have e5 : fld N 18 5 = b.toNat := hN ▸ (fld_skip 10 (by decide) (fld_skip 5 d.isLt (fld_skip 0 a.isLt (fld_here b.isLt))))
  have e6 : fld N 13 5 = a.toNat := hN ▸ (fld_skip 5 (by decide) (fld_skip 0 d.isLt (fld_here a.isLt)))
  have e7 : fld N 8 5 = d.toNat := hN ▸ (fld_skip 0 (by decide) (fld_here d.isLt))
  exact of_word (word_eq hN (by show 0x10000075 + m.toNat * 67108864 + r.toNat * 8388608 + b.toNat * 262144 + a.toNat * 8192 + d.toNat * 256 = _; omega) : encodeNat (.vwmul m r b a d) = (N, 4)) (hN ▸ (show 0x75 + 2 ^ 8 * (d.toNat + 2 ^ 5 * (a.toNat + 2 ^ 5 * (b.toNat + 2 ^ 5 * (r.toNat + 2 ^ 2 * (0x0 + 2 ^ 1 * (m.toNat + 2 ^ 1 * 0x2)))))) < 2 ^ 32 from (under (m := 24) (by decide) (under (m := 19) d.isLt (under (m := 14) a.isLt (under (m := 9) b.isLt (under (m := 7) r.isLt (under (m := 6) (by decide) (under (m := 5) m.isLt (by decide)))))))))) (hN ▸ odd_low _ _) (read75 e0 (by simp [raw75, bv, e1, e2, e3, e4, e5, e6, e7]))

theorem vwmac (m : BitVec 1) (r : BitVec 2) (b : BitVec 5) (a : BitVec 5) (d : BitVec 5) : Statement (.vwmac m r b a d) := by
  obtain ⟨N, hN⟩ : ∃ N, N = 0x75 + 2 ^ 8 * (d.toNat + 2 ^ 5 * (a.toNat + 2 ^ 5 * (b.toNat + 2 ^ 5 * (r.toNat + 2 ^ 2 * (0x0 + 2 ^ 1 * (m.toNat + 2 ^ 1 * 0x3)))))) := ⟨_, rfl⟩
  have e0 : fld N 0 8 = 117 := hN ▸ (fld_here (by decide))
  have e1 : fld N 25 1 = 0 := hN ▸ (fld_skip 17 (by decide) (fld_skip 12 d.isLt (fld_skip 7 a.isLt (fld_skip 2 b.isLt (fld_skip 0 r.isLt (fld_here (by decide)))))))
  have e2 : fld N 27 5 = 3 := hN ▸ (fld_skip 19 (by decide) (fld_skip 14 d.isLt (fld_skip 9 a.isLt (fld_skip 4 b.isLt (fld_skip 2 r.isLt (fld_skip 1 (by decide) (fld_skip 0 m.isLt (fld_all (by decide)))))))))
  have e3 : fld N 26 1 = m.toNat := hN ▸ (fld_skip 18 (by decide) (fld_skip 13 d.isLt (fld_skip 8 a.isLt (fld_skip 3 b.isLt (fld_skip 1 r.isLt (fld_skip 0 (by decide) (fld_here m.isLt)))))))
  have e4 : fld N 23 2 = r.toNat := hN ▸ (fld_skip 15 (by decide) (fld_skip 10 d.isLt (fld_skip 5 a.isLt (fld_skip 0 b.isLt (fld_here r.isLt)))))
  have e5 : fld N 18 5 = b.toNat := hN ▸ (fld_skip 10 (by decide) (fld_skip 5 d.isLt (fld_skip 0 a.isLt (fld_here b.isLt))))
  have e6 : fld N 13 5 = a.toNat := hN ▸ (fld_skip 5 (by decide) (fld_skip 0 d.isLt (fld_here a.isLt)))
  have e7 : fld N 8 5 = d.toNat := hN ▸ (fld_skip 0 (by decide) (fld_here d.isLt))
  exact of_word (word_eq hN (by show 0x18000075 + m.toNat * 67108864 + r.toNat * 8388608 + b.toNat * 262144 + a.toNat * 8192 + d.toNat * 256 = _; omega) : encodeNat (.vwmac m r b a d) = (N, 4)) (hN ▸ (show 0x75 + 2 ^ 8 * (d.toNat + 2 ^ 5 * (a.toNat + 2 ^ 5 * (b.toNat + 2 ^ 5 * (r.toNat + 2 ^ 2 * (0x0 + 2 ^ 1 * (m.toNat + 2 ^ 1 * 0x3)))))) < 2 ^ 32 from (under (m := 24) (by decide) (under (m := 19) d.isLt (under (m := 14) a.isLt (under (m := 9) b.isLt (under (m := 7) r.isLt (under (m := 6) (by decide) (under (m := 5) m.isLt (by decide)))))))))) (hN ▸ odd_low _ _) (read75 e0 (by simp [raw75, bv, e1, e2, e3, e4, e5, e6, e7]))

theorem vqmac (m : BitVec 1) (r : BitVec 2) (b : BitVec 5) (a : BitVec 5) (d : BitVec 5) : Statement (.vqmac m r b a d) := by
  obtain ⟨N, hN⟩ : ∃ N, N = 0x75 + 2 ^ 8 * (d.toNat + 2 ^ 5 * (a.toNat + 2 ^ 5 * (b.toNat + 2 ^ 5 * (r.toNat + 2 ^ 2 * (0x0 + 2 ^ 1 * (m.toNat + 2 ^ 1 * 0x4)))))) := ⟨_, rfl⟩
  have e0 : fld N 0 8 = 117 := hN ▸ (fld_here (by decide))
  have e1 : fld N 25 1 = 0 := hN ▸ (fld_skip 17 (by decide) (fld_skip 12 d.isLt (fld_skip 7 a.isLt (fld_skip 2 b.isLt (fld_skip 0 r.isLt (fld_here (by decide)))))))
  have e2 : fld N 27 5 = 4 := hN ▸ (fld_skip 19 (by decide) (fld_skip 14 d.isLt (fld_skip 9 a.isLt (fld_skip 4 b.isLt (fld_skip 2 r.isLt (fld_skip 1 (by decide) (fld_skip 0 m.isLt (fld_all (by decide)))))))))
  have e3 : fld N 26 1 = m.toNat := hN ▸ (fld_skip 18 (by decide) (fld_skip 13 d.isLt (fld_skip 8 a.isLt (fld_skip 3 b.isLt (fld_skip 1 r.isLt (fld_skip 0 (by decide) (fld_here m.isLt)))))))
  have e4 : fld N 23 2 = r.toNat := hN ▸ (fld_skip 15 (by decide) (fld_skip 10 d.isLt (fld_skip 5 a.isLt (fld_skip 0 b.isLt (fld_here r.isLt)))))
  have e5 : fld N 18 5 = b.toNat := hN ▸ (fld_skip 10 (by decide) (fld_skip 5 d.isLt (fld_skip 0 a.isLt (fld_here b.isLt))))
  have e6 : fld N 13 5 = a.toNat := hN ▸ (fld_skip 5 (by decide) (fld_skip 0 d.isLt (fld_here a.isLt)))
  have e7 : fld N 8 5 = d.toNat := hN ▸ (fld_skip 0 (by decide) (fld_here d.isLt))
  exact of_word (word_eq hN (by show 0x20000075 + m.toNat * 67108864 + r.toNat * 8388608 + b.toNat * 262144 + a.toNat * 8192 + d.toNat * 256 = _; omega) : encodeNat (.vqmac m r b a d) = (N, 4)) (hN ▸ (show 0x75 + 2 ^ 8 * (d.toNat + 2 ^ 5 * (a.toNat + 2 ^ 5 * (b.toNat + 2 ^ 5 * (r.toNat + 2 ^ 2 * (0x0 + 2 ^ 1 * (m.toNat + 2 ^ 1 * 0x4)))))) < 2 ^ 32 from (under (m := 24) (by decide) (under (m := 19) d.isLt (under (m := 14) a.isLt (under (m := 9) b.isLt (under (m := 7) r.isLt (under (m := 6) (by decide) (under (m := 5) m.isLt (by decide)))))))))) (hN ▸ odd_low _ _) (read75 e0 (by simp [raw75, bv, e1, e2, e3, e4, e5, e6, e7]))

theorem vnshr (m : BitVec 1) (r : BitVec 2) (b : BitVec 5) (a : BitVec 5) (d : BitVec 5) : Statement (.vnshr m r b a d) := by
  obtain ⟨N, hN⟩ : ∃ N, N = 0x75 + 2 ^ 8 * (d.toNat + 2 ^ 5 * (a.toNat + 2 ^ 5 * (b.toNat + 2 ^ 5 * (r.toNat + 2 ^ 2 * (0x0 + 2 ^ 1 * (m.toNat + 2 ^ 1 * 0x5)))))) := ⟨_, rfl⟩
  have e0 : fld N 0 8 = 117 := hN ▸ (fld_here (by decide))
  have e1 : fld N 25 1 = 0 := hN ▸ (fld_skip 17 (by decide) (fld_skip 12 d.isLt (fld_skip 7 a.isLt (fld_skip 2 b.isLt (fld_skip 0 r.isLt (fld_here (by decide)))))))
  have e2 : fld N 27 5 = 5 := hN ▸ (fld_skip 19 (by decide) (fld_skip 14 d.isLt (fld_skip 9 a.isLt (fld_skip 4 b.isLt (fld_skip 2 r.isLt (fld_skip 1 (by decide) (fld_skip 0 m.isLt (fld_all (by decide)))))))))
  have e3 : fld N 26 1 = m.toNat := hN ▸ (fld_skip 18 (by decide) (fld_skip 13 d.isLt (fld_skip 8 a.isLt (fld_skip 3 b.isLt (fld_skip 1 r.isLt (fld_skip 0 (by decide) (fld_here m.isLt)))))))
  have e4 : fld N 23 2 = r.toNat := hN ▸ (fld_skip 15 (by decide) (fld_skip 10 d.isLt (fld_skip 5 a.isLt (fld_skip 0 b.isLt (fld_here r.isLt)))))
  have e5 : fld N 18 5 = b.toNat := hN ▸ (fld_skip 10 (by decide) (fld_skip 5 d.isLt (fld_skip 0 a.isLt (fld_here b.isLt))))
  have e6 : fld N 13 5 = a.toNat := hN ▸ (fld_skip 5 (by decide) (fld_skip 0 d.isLt (fld_here a.isLt)))
  have e7 : fld N 8 5 = d.toNat := hN ▸ (fld_skip 0 (by decide) (fld_here d.isLt))
  exact of_word (word_eq hN (by show 0x28000075 + m.toNat * 67108864 + r.toNat * 8388608 + b.toNat * 262144 + a.toNat * 8192 + d.toNat * 256 = _; omega) : encodeNat (.vnshr m r b a d) = (N, 4)) (hN ▸ (show 0x75 + 2 ^ 8 * (d.toNat + 2 ^ 5 * (a.toNat + 2 ^ 5 * (b.toNat + 2 ^ 5 * (r.toNat + 2 ^ 2 * (0x0 + 2 ^ 1 * (m.toNat + 2 ^ 1 * 0x5)))))) < 2 ^ 32 from (under (m := 24) (by decide) (under (m := 19) d.isLt (under (m := 14) a.isLt (under (m := 9) b.isLt (under (m := 7) r.isLt (under (m := 6) (by decide) (under (m := 5) m.isLt (by decide)))))))))) (hN ▸ odd_low _ _) (read75 e0 (by simp [raw75, bv, e1, e2, e3, e4, e5, e6, e7]))

theorem vcvt (m : BitVec 1) (x : BitVec 1) (r : BitVec 2) (t : BitVec 5) (a : BitVec 5) (d : BitVec 5) : Statement (.vcvt m x r t a d) := by
  obtain ⟨N, hN⟩ : ∃ N, N = 0x77 + 2 ^ 8 * (d.toNat + 2 ^ 5 * (a.toNat + 2 ^ 5 * (t.toNat + 2 ^ 5 * (r.toNat + 2 ^ 2 * (x.toNat + 2 ^ 1 * (m.toNat + 2 ^ 1 * 0x0)))))) := ⟨_, rfl⟩
  have e0 : fld N 0 8 = 119 := hN ▸ (fld_here (by decide))
  have e1 : fld N 27 5 = 0 := hN ▸ (fld_skip 19 (by decide) (fld_skip 14 d.isLt (fld_skip 9 a.isLt (fld_skip 4 t.isLt (fld_skip 2 r.isLt (fld_skip 1 x.isLt (fld_skip 0 m.isLt (fld_all (by decide)))))))))
  have e2 : fld N 26 1 = m.toNat := hN ▸ (fld_skip 18 (by decide) (fld_skip 13 d.isLt (fld_skip 8 a.isLt (fld_skip 3 t.isLt (fld_skip 1 r.isLt (fld_skip 0 x.isLt (fld_here m.isLt)))))))
  have e3 : fld N 25 1 = x.toNat := hN ▸ (fld_skip 17 (by decide) (fld_skip 12 d.isLt (fld_skip 7 a.isLt (fld_skip 2 t.isLt (fld_skip 0 r.isLt (fld_here x.isLt))))))
  have e4 : fld N 23 2 = r.toNat := hN ▸ (fld_skip 15 (by decide) (fld_skip 10 d.isLt (fld_skip 5 a.isLt (fld_skip 0 t.isLt (fld_here r.isLt)))))
  have e5 : fld N 18 5 = t.toNat := hN ▸ (fld_skip 10 (by decide) (fld_skip 5 d.isLt (fld_skip 0 a.isLt (fld_here t.isLt))))
  have e6 : fld N 13 5 = a.toNat := hN ▸ (fld_skip 5 (by decide) (fld_skip 0 d.isLt (fld_here a.isLt)))
  have e7 : fld N 8 5 = d.toNat := hN ▸ (fld_skip 0 (by decide) (fld_here d.isLt))
  exact of_word (word_eq hN (by show 0x77 + m.toNat * 67108864 + x.toNat * 33554432 + r.toNat * 8388608 + t.toNat * 262144 + a.toNat * 8192 + d.toNat * 256 = _; omega) : encodeNat (.vcvt m x r t a d) = (N, 4)) (hN ▸ (show 0x77 + 2 ^ 8 * (d.toNat + 2 ^ 5 * (a.toNat + 2 ^ 5 * (t.toNat + 2 ^ 5 * (r.toNat + 2 ^ 2 * (x.toNat + 2 ^ 1 * (m.toNat + 2 ^ 1 * 0x0)))))) < 2 ^ 32 from (under (m := 24) (by decide) (under (m := 19) d.isLt (under (m := 14) a.isLt (under (m := 9) t.isLt (under (m := 7) r.isLt (under (m := 6) x.isLt (under (m := 5) m.isLt (by decide)))))))))) (hN ▸ odd_low _ _) (read77 e0 (by simp [raw77, bv, e1, e2, e3, e4, e5, e6, e7]))

theorem vcvtw (m : BitVec 1) (x : BitVec 1) (r : BitVec 2) (t : BitVec 5) (a : BitVec 5) (d : BitVec 5) : Statement (.vcvtw m x r t a d) := by
  obtain ⟨N, hN⟩ : ∃ N, N = 0x77 + 2 ^ 8 * (d.toNat + 2 ^ 5 * (a.toNat + 2 ^ 5 * (t.toNat + 2 ^ 5 * (r.toNat + 2 ^ 2 * (x.toNat + 2 ^ 1 * (m.toNat + 2 ^ 1 * 0x1)))))) := ⟨_, rfl⟩
  have e0 : fld N 0 8 = 119 := hN ▸ (fld_here (by decide))
  have e1 : fld N 27 5 = 1 := hN ▸ (fld_skip 19 (by decide) (fld_skip 14 d.isLt (fld_skip 9 a.isLt (fld_skip 4 t.isLt (fld_skip 2 r.isLt (fld_skip 1 x.isLt (fld_skip 0 m.isLt (fld_all (by decide)))))))))
  have e2 : fld N 26 1 = m.toNat := hN ▸ (fld_skip 18 (by decide) (fld_skip 13 d.isLt (fld_skip 8 a.isLt (fld_skip 3 t.isLt (fld_skip 1 r.isLt (fld_skip 0 x.isLt (fld_here m.isLt)))))))
  have e3 : fld N 25 1 = x.toNat := hN ▸ (fld_skip 17 (by decide) (fld_skip 12 d.isLt (fld_skip 7 a.isLt (fld_skip 2 t.isLt (fld_skip 0 r.isLt (fld_here x.isLt))))))
  have e4 : fld N 23 2 = r.toNat := hN ▸ (fld_skip 15 (by decide) (fld_skip 10 d.isLt (fld_skip 5 a.isLt (fld_skip 0 t.isLt (fld_here r.isLt)))))
  have e5 : fld N 18 5 = t.toNat := hN ▸ (fld_skip 10 (by decide) (fld_skip 5 d.isLt (fld_skip 0 a.isLt (fld_here t.isLt))))
  have e6 : fld N 13 5 = a.toNat := hN ▸ (fld_skip 5 (by decide) (fld_skip 0 d.isLt (fld_here a.isLt)))
  have e7 : fld N 8 5 = d.toNat := hN ▸ (fld_skip 0 (by decide) (fld_here d.isLt))
  exact of_word (word_eq hN (by show 0x8000077 + m.toNat * 67108864 + x.toNat * 33554432 + r.toNat * 8388608 + t.toNat * 262144 + a.toNat * 8192 + d.toNat * 256 = _; omega) : encodeNat (.vcvtw m x r t a d) = (N, 4)) (hN ▸ (show 0x77 + 2 ^ 8 * (d.toNat + 2 ^ 5 * (a.toNat + 2 ^ 5 * (t.toNat + 2 ^ 5 * (r.toNat + 2 ^ 2 * (x.toNat + 2 ^ 1 * (m.toNat + 2 ^ 1 * 0x1)))))) < 2 ^ 32 from (under (m := 24) (by decide) (under (m := 19) d.isLt (under (m := 14) a.isLt (under (m := 9) t.isLt (under (m := 7) r.isLt (under (m := 6) x.isLt (under (m := 5) m.isLt (by decide)))))))))) (hN ▸ odd_low _ _) (read77 e0 (by simp [raw77, bv, e1, e2, e3, e4, e5, e6, e7]))

theorem vcvtn (m : BitVec 1) (x : BitVec 1) (r : BitVec 2) (t : BitVec 5) (a : BitVec 5) (d : BitVec 5) : Statement (.vcvtn m x r t a d) := by
  obtain ⟨N, hN⟩ : ∃ N, N = 0x77 + 2 ^ 8 * (d.toNat + 2 ^ 5 * (a.toNat + 2 ^ 5 * (t.toNat + 2 ^ 5 * (r.toNat + 2 ^ 2 * (x.toNat + 2 ^ 1 * (m.toNat + 2 ^ 1 * 0x2)))))) := ⟨_, rfl⟩
  have e0 : fld N 0 8 = 119 := hN ▸ (fld_here (by decide))
  have e1 : fld N 27 5 = 2 := hN ▸ (fld_skip 19 (by decide) (fld_skip 14 d.isLt (fld_skip 9 a.isLt (fld_skip 4 t.isLt (fld_skip 2 r.isLt (fld_skip 1 x.isLt (fld_skip 0 m.isLt (fld_all (by decide)))))))))
  have e2 : fld N 26 1 = m.toNat := hN ▸ (fld_skip 18 (by decide) (fld_skip 13 d.isLt (fld_skip 8 a.isLt (fld_skip 3 t.isLt (fld_skip 1 r.isLt (fld_skip 0 x.isLt (fld_here m.isLt)))))))
  have e3 : fld N 25 1 = x.toNat := hN ▸ (fld_skip 17 (by decide) (fld_skip 12 d.isLt (fld_skip 7 a.isLt (fld_skip 2 t.isLt (fld_skip 0 r.isLt (fld_here x.isLt))))))
  have e4 : fld N 23 2 = r.toNat := hN ▸ (fld_skip 15 (by decide) (fld_skip 10 d.isLt (fld_skip 5 a.isLt (fld_skip 0 t.isLt (fld_here r.isLt)))))
  have e5 : fld N 18 5 = t.toNat := hN ▸ (fld_skip 10 (by decide) (fld_skip 5 d.isLt (fld_skip 0 a.isLt (fld_here t.isLt))))
  have e6 : fld N 13 5 = a.toNat := hN ▸ (fld_skip 5 (by decide) (fld_skip 0 d.isLt (fld_here a.isLt)))
  have e7 : fld N 8 5 = d.toNat := hN ▸ (fld_skip 0 (by decide) (fld_here d.isLt))
  exact of_word (word_eq hN (by show 0x10000077 + m.toNat * 67108864 + x.toNat * 33554432 + r.toNat * 8388608 + t.toNat * 262144 + a.toNat * 8192 + d.toNat * 256 = _; omega) : encodeNat (.vcvtn m x r t a d) = (N, 4)) (hN ▸ (show 0x77 + 2 ^ 8 * (d.toNat + 2 ^ 5 * (a.toNat + 2 ^ 5 * (t.toNat + 2 ^ 5 * (r.toNat + 2 ^ 2 * (x.toNat + 2 ^ 1 * (m.toNat + 2 ^ 1 * 0x2)))))) < 2 ^ 32 from (under (m := 24) (by decide) (under (m := 19) d.isLt (under (m := 14) a.isLt (under (m := 9) t.isLt (under (m := 7) r.isLt (under (m := 6) x.isLt (under (m := 5) m.isLt (by decide)))))))))) (hN ▸ odd_low _ _) (read77 e0 (by simp [raw77, bv, e1, e2, e3, e4, e5, e6, e7]))

theorem vcmpEq (m : BitVec 1) (b : BitVec 5) (a : BitVec 5) (d : BitVec 5) : Statement (.vcmpEq m b a d) := by
  obtain ⟨N, hN⟩ : ∃ N, N = 0x79 + 2 ^ 8 * (d.toNat + 2 ^ 5 * (a.toNat + 2 ^ 5 * (b.toNat + 2 ^ 5 * (0x0 + 2 ^ 3 * (m.toNat + 2 ^ 1 * 0x0))))) := ⟨_, rfl⟩
  have e0 : fld N 0 8 = 121 := hN ▸ (fld_here (by decide))
  have e1 : fld N 23 3 = 0 := hN ▸ (fld_skip 15 (by decide) (fld_skip 10 d.isLt (fld_skip 5 a.isLt (fld_skip 0 b.isLt (fld_here (by decide))))))
  have e2 : fld N 27 5 = 0 := hN ▸ (fld_skip 19 (by decide) (fld_skip 14 d.isLt (fld_skip 9 a.isLt (fld_skip 4 b.isLt (fld_skip 1 (by decide) (fld_skip 0 m.isLt (fld_all (by decide))))))))
  have e3 : fld N 26 1 = m.toNat := hN ▸ (fld_skip 18 (by decide) (fld_skip 13 d.isLt (fld_skip 8 a.isLt (fld_skip 3 b.isLt (fld_skip 0 (by decide) (fld_here m.isLt))))))
  have e4 : fld N 18 5 = b.toNat := hN ▸ (fld_skip 10 (by decide) (fld_skip 5 d.isLt (fld_skip 0 a.isLt (fld_here b.isLt))))
  have e5 : fld N 13 5 = a.toNat := hN ▸ (fld_skip 5 (by decide) (fld_skip 0 d.isLt (fld_here a.isLt)))
  have e6 : fld N 8 5 = d.toNat := hN ▸ (fld_skip 0 (by decide) (fld_here d.isLt))
  exact of_word (word_eq hN (by show 0x79 + m.toNat * 67108864 + b.toNat * 262144 + a.toNat * 8192 + d.toNat * 256 = _; omega) : encodeNat (.vcmpEq m b a d) = (N, 4)) (hN ▸ (show 0x79 + 2 ^ 8 * (d.toNat + 2 ^ 5 * (a.toNat + 2 ^ 5 * (b.toNat + 2 ^ 5 * (0x0 + 2 ^ 3 * (m.toNat + 2 ^ 1 * 0x0))))) < 2 ^ 32 from (under (m := 24) (by decide) (under (m := 19) d.isLt (under (m := 14) a.isLt (under (m := 9) b.isLt (under (m := 6) (by decide) (under (m := 5) m.isLt (by decide))))))))) (hN ▸ odd_low _ _) (read79 e0 (by simp [raw79, bv, e1, e2, e3, e4, e5, e6]))

theorem vcmpNe (m : BitVec 1) (b : BitVec 5) (a : BitVec 5) (d : BitVec 5) : Statement (.vcmpNe m b a d) := by
  obtain ⟨N, hN⟩ : ∃ N, N = 0x79 + 2 ^ 8 * (d.toNat + 2 ^ 5 * (a.toNat + 2 ^ 5 * (b.toNat + 2 ^ 5 * (0x0 + 2 ^ 3 * (m.toNat + 2 ^ 1 * 0x1))))) := ⟨_, rfl⟩
  have e0 : fld N 0 8 = 121 := hN ▸ (fld_here (by decide))
  have e1 : fld N 23 3 = 0 := hN ▸ (fld_skip 15 (by decide) (fld_skip 10 d.isLt (fld_skip 5 a.isLt (fld_skip 0 b.isLt (fld_here (by decide))))))
  have e2 : fld N 27 5 = 1 := hN ▸ (fld_skip 19 (by decide) (fld_skip 14 d.isLt (fld_skip 9 a.isLt (fld_skip 4 b.isLt (fld_skip 1 (by decide) (fld_skip 0 m.isLt (fld_all (by decide))))))))
  have e3 : fld N 26 1 = m.toNat := hN ▸ (fld_skip 18 (by decide) (fld_skip 13 d.isLt (fld_skip 8 a.isLt (fld_skip 3 b.isLt (fld_skip 0 (by decide) (fld_here m.isLt))))))
  have e4 : fld N 18 5 = b.toNat := hN ▸ (fld_skip 10 (by decide) (fld_skip 5 d.isLt (fld_skip 0 a.isLt (fld_here b.isLt))))
  have e5 : fld N 13 5 = a.toNat := hN ▸ (fld_skip 5 (by decide) (fld_skip 0 d.isLt (fld_here a.isLt)))
  have e6 : fld N 8 5 = d.toNat := hN ▸ (fld_skip 0 (by decide) (fld_here d.isLt))
  exact of_word (word_eq hN (by show 0x8000079 + m.toNat * 67108864 + b.toNat * 262144 + a.toNat * 8192 + d.toNat * 256 = _; omega) : encodeNat (.vcmpNe m b a d) = (N, 4)) (hN ▸ (show 0x79 + 2 ^ 8 * (d.toNat + 2 ^ 5 * (a.toNat + 2 ^ 5 * (b.toNat + 2 ^ 5 * (0x0 + 2 ^ 3 * (m.toNat + 2 ^ 1 * 0x1))))) < 2 ^ 32 from (under (m := 24) (by decide) (under (m := 19) d.isLt (under (m := 14) a.isLt (under (m := 9) b.isLt (under (m := 6) (by decide) (under (m := 5) m.isLt (by decide))))))))) (hN ▸ odd_low _ _) (read79 e0 (by simp [raw79, bv, e1, e2, e3, e4, e5, e6]))

theorem vcmpLt (m : BitVec 1) (b : BitVec 5) (a : BitVec 5) (d : BitVec 5) : Statement (.vcmpLt m b a d) := by
  obtain ⟨N, hN⟩ : ∃ N, N = 0x79 + 2 ^ 8 * (d.toNat + 2 ^ 5 * (a.toNat + 2 ^ 5 * (b.toNat + 2 ^ 5 * (0x0 + 2 ^ 3 * (m.toNat + 2 ^ 1 * 0x2))))) := ⟨_, rfl⟩
  have e0 : fld N 0 8 = 121 := hN ▸ (fld_here (by decide))
  have e1 : fld N 23 3 = 0 := hN ▸ (fld_skip 15 (by decide) (fld_skip 10 d.isLt (fld_skip 5 a.isLt (fld_skip 0 b.isLt (fld_here (by decide))))))
  have e2 : fld N 27 5 = 2 := hN ▸ (fld_skip 19 (by decide) (fld_skip 14 d.isLt (fld_skip 9 a.isLt (fld_skip 4 b.isLt (fld_skip 1 (by decide) (fld_skip 0 m.isLt (fld_all (by decide))))))))
  have e3 : fld N 26 1 = m.toNat := hN ▸ (fld_skip 18 (by decide) (fld_skip 13 d.isLt (fld_skip 8 a.isLt (fld_skip 3 b.isLt (fld_skip 0 (by decide) (fld_here m.isLt))))))
  have e4 : fld N 18 5 = b.toNat := hN ▸ (fld_skip 10 (by decide) (fld_skip 5 d.isLt (fld_skip 0 a.isLt (fld_here b.isLt))))
  have e5 : fld N 13 5 = a.toNat := hN ▸ (fld_skip 5 (by decide) (fld_skip 0 d.isLt (fld_here a.isLt)))
  have e6 : fld N 8 5 = d.toNat := hN ▸ (fld_skip 0 (by decide) (fld_here d.isLt))
  exact of_word (word_eq hN (by show 0x10000079 + m.toNat * 67108864 + b.toNat * 262144 + a.toNat * 8192 + d.toNat * 256 = _; omega) : encodeNat (.vcmpLt m b a d) = (N, 4)) (hN ▸ (show 0x79 + 2 ^ 8 * (d.toNat + 2 ^ 5 * (a.toNat + 2 ^ 5 * (b.toNat + 2 ^ 5 * (0x0 + 2 ^ 3 * (m.toNat + 2 ^ 1 * 0x2))))) < 2 ^ 32 from (under (m := 24) (by decide) (under (m := 19) d.isLt (under (m := 14) a.isLt (under (m := 9) b.isLt (under (m := 6) (by decide) (under (m := 5) m.isLt (by decide))))))))) (hN ▸ odd_low _ _) (read79 e0 (by simp [raw79, bv, e1, e2, e3, e4, e5, e6]))

theorem vcmpLe (m : BitVec 1) (b : BitVec 5) (a : BitVec 5) (d : BitVec 5) : Statement (.vcmpLe m b a d) := by
  obtain ⟨N, hN⟩ : ∃ N, N = 0x79 + 2 ^ 8 * (d.toNat + 2 ^ 5 * (a.toNat + 2 ^ 5 * (b.toNat + 2 ^ 5 * (0x0 + 2 ^ 3 * (m.toNat + 2 ^ 1 * 0x3))))) := ⟨_, rfl⟩
  have e0 : fld N 0 8 = 121 := hN ▸ (fld_here (by decide))
  have e1 : fld N 23 3 = 0 := hN ▸ (fld_skip 15 (by decide) (fld_skip 10 d.isLt (fld_skip 5 a.isLt (fld_skip 0 b.isLt (fld_here (by decide))))))
  have e2 : fld N 27 5 = 3 := hN ▸ (fld_skip 19 (by decide) (fld_skip 14 d.isLt (fld_skip 9 a.isLt (fld_skip 4 b.isLt (fld_skip 1 (by decide) (fld_skip 0 m.isLt (fld_all (by decide))))))))
  have e3 : fld N 26 1 = m.toNat := hN ▸ (fld_skip 18 (by decide) (fld_skip 13 d.isLt (fld_skip 8 a.isLt (fld_skip 3 b.isLt (fld_skip 0 (by decide) (fld_here m.isLt))))))
  have e4 : fld N 18 5 = b.toNat := hN ▸ (fld_skip 10 (by decide) (fld_skip 5 d.isLt (fld_skip 0 a.isLt (fld_here b.isLt))))
  have e5 : fld N 13 5 = a.toNat := hN ▸ (fld_skip 5 (by decide) (fld_skip 0 d.isLt (fld_here a.isLt)))
  have e6 : fld N 8 5 = d.toNat := hN ▸ (fld_skip 0 (by decide) (fld_here d.isLt))
  exact of_word (word_eq hN (by show 0x18000079 + m.toNat * 67108864 + b.toNat * 262144 + a.toNat * 8192 + d.toNat * 256 = _; omega) : encodeNat (.vcmpLe m b a d) = (N, 4)) (hN ▸ (show 0x79 + 2 ^ 8 * (d.toNat + 2 ^ 5 * (a.toNat + 2 ^ 5 * (b.toNat + 2 ^ 5 * (0x0 + 2 ^ 3 * (m.toNat + 2 ^ 1 * 0x3))))) < 2 ^ 32 from (under (m := 24) (by decide) (under (m := 19) d.isLt (under (m := 14) a.isLt (under (m := 9) b.isLt (under (m := 6) (by decide) (under (m := 5) m.isLt (by decide))))))))) (hN ▸ odd_low _ _) (read79 e0 (by simp [raw79, bv, e1, e2, e3, e4, e5, e6]))

theorem vcmpGt (m : BitVec 1) (b : BitVec 5) (a : BitVec 5) (d : BitVec 5) : Statement (.vcmpGt m b a d) := by
  obtain ⟨N, hN⟩ : ∃ N, N = 0x79 + 2 ^ 8 * (d.toNat + 2 ^ 5 * (a.toNat + 2 ^ 5 * (b.toNat + 2 ^ 5 * (0x0 + 2 ^ 3 * (m.toNat + 2 ^ 1 * 0x4))))) := ⟨_, rfl⟩
  have e0 : fld N 0 8 = 121 := hN ▸ (fld_here (by decide))
  have e1 : fld N 23 3 = 0 := hN ▸ (fld_skip 15 (by decide) (fld_skip 10 d.isLt (fld_skip 5 a.isLt (fld_skip 0 b.isLt (fld_here (by decide))))))
  have e2 : fld N 27 5 = 4 := hN ▸ (fld_skip 19 (by decide) (fld_skip 14 d.isLt (fld_skip 9 a.isLt (fld_skip 4 b.isLt (fld_skip 1 (by decide) (fld_skip 0 m.isLt (fld_all (by decide))))))))
  have e3 : fld N 26 1 = m.toNat := hN ▸ (fld_skip 18 (by decide) (fld_skip 13 d.isLt (fld_skip 8 a.isLt (fld_skip 3 b.isLt (fld_skip 0 (by decide) (fld_here m.isLt))))))
  have e4 : fld N 18 5 = b.toNat := hN ▸ (fld_skip 10 (by decide) (fld_skip 5 d.isLt (fld_skip 0 a.isLt (fld_here b.isLt))))
  have e5 : fld N 13 5 = a.toNat := hN ▸ (fld_skip 5 (by decide) (fld_skip 0 d.isLt (fld_here a.isLt)))
  have e6 : fld N 8 5 = d.toNat := hN ▸ (fld_skip 0 (by decide) (fld_here d.isLt))
  exact of_word (word_eq hN (by show 0x20000079 + m.toNat * 67108864 + b.toNat * 262144 + a.toNat * 8192 + d.toNat * 256 = _; omega) : encodeNat (.vcmpGt m b a d) = (N, 4)) (hN ▸ (show 0x79 + 2 ^ 8 * (d.toNat + 2 ^ 5 * (a.toNat + 2 ^ 5 * (b.toNat + 2 ^ 5 * (0x0 + 2 ^ 3 * (m.toNat + 2 ^ 1 * 0x4))))) < 2 ^ 32 from (under (m := 24) (by decide) (under (m := 19) d.isLt (under (m := 14) a.isLt (under (m := 9) b.isLt (under (m := 6) (by decide) (under (m := 5) m.isLt (by decide))))))))) (hN ▸ odd_low _ _) (read79 e0 (by simp [raw79, bv, e1, e2, e3, e4, e5, e6]))

theorem vcmpGe (m : BitVec 1) (b : BitVec 5) (a : BitVec 5) (d : BitVec 5) : Statement (.vcmpGe m b a d) := by
  obtain ⟨N, hN⟩ : ∃ N, N = 0x79 + 2 ^ 8 * (d.toNat + 2 ^ 5 * (a.toNat + 2 ^ 5 * (b.toNat + 2 ^ 5 * (0x0 + 2 ^ 3 * (m.toNat + 2 ^ 1 * 0x5))))) := ⟨_, rfl⟩
  have e0 : fld N 0 8 = 121 := hN ▸ (fld_here (by decide))
  have e1 : fld N 23 3 = 0 := hN ▸ (fld_skip 15 (by decide) (fld_skip 10 d.isLt (fld_skip 5 a.isLt (fld_skip 0 b.isLt (fld_here (by decide))))))
  have e2 : fld N 27 5 = 5 := hN ▸ (fld_skip 19 (by decide) (fld_skip 14 d.isLt (fld_skip 9 a.isLt (fld_skip 4 b.isLt (fld_skip 1 (by decide) (fld_skip 0 m.isLt (fld_all (by decide))))))))
  have e3 : fld N 26 1 = m.toNat := hN ▸ (fld_skip 18 (by decide) (fld_skip 13 d.isLt (fld_skip 8 a.isLt (fld_skip 3 b.isLt (fld_skip 0 (by decide) (fld_here m.isLt))))))
  have e4 : fld N 18 5 = b.toNat := hN ▸ (fld_skip 10 (by decide) (fld_skip 5 d.isLt (fld_skip 0 a.isLt (fld_here b.isLt))))
  have e5 : fld N 13 5 = a.toNat := hN ▸ (fld_skip 5 (by decide) (fld_skip 0 d.isLt (fld_here a.isLt)))
  have e6 : fld N 8 5 = d.toNat := hN ▸ (fld_skip 0 (by decide) (fld_here d.isLt))
  exact of_word (word_eq hN (by show 0x28000079 + m.toNat * 67108864 + b.toNat * 262144 + a.toNat * 8192 + d.toNat * 256 = _; omega) : encodeNat (.vcmpGe m b a d) = (N, 4)) (hN ▸ (show 0x79 + 2 ^ 8 * (d.toNat + 2 ^ 5 * (a.toNat + 2 ^ 5 * (b.toNat + 2 ^ 5 * (0x0 + 2 ^ 3 * (m.toNat + 2 ^ 1 * 0x5))))) < 2 ^ 32 from (under (m := 24) (by decide) (under (m := 19) d.isLt (under (m := 14) a.isLt (under (m := 9) b.isLt (under (m := 6) (by decide) (under (m := 5) m.isLt (by decide))))))))) (hN ▸ odd_low _ _) (read79 e0 (by simp [raw79, bv, e1, e2, e3, e4, e5, e6]))

theorem vcmpLtn (m : BitVec 1) (b : BitVec 5) (a : BitVec 5) (d : BitVec 5) : Statement (.vcmpLtn m b a d) := by
  obtain ⟨N, hN⟩ : ∃ N, N = 0x79 + 2 ^ 8 * (d.toNat + 2 ^ 5 * (a.toNat + 2 ^ 5 * (b.toNat + 2 ^ 5 * (0x0 + 2 ^ 3 * (m.toNat + 2 ^ 1 * 0x6))))) := ⟨_, rfl⟩
  have e0 : fld N 0 8 = 121 := hN ▸ (fld_here (by decide))
  have e1 : fld N 23 3 = 0 := hN ▸ (fld_skip 15 (by decide) (fld_skip 10 d.isLt (fld_skip 5 a.isLt (fld_skip 0 b.isLt (fld_here (by decide))))))
  have e2 : fld N 27 5 = 6 := hN ▸ (fld_skip 19 (by decide) (fld_skip 14 d.isLt (fld_skip 9 a.isLt (fld_skip 4 b.isLt (fld_skip 1 (by decide) (fld_skip 0 m.isLt (fld_all (by decide))))))))
  have e3 : fld N 26 1 = m.toNat := hN ▸ (fld_skip 18 (by decide) (fld_skip 13 d.isLt (fld_skip 8 a.isLt (fld_skip 3 b.isLt (fld_skip 0 (by decide) (fld_here m.isLt))))))
  have e4 : fld N 18 5 = b.toNat := hN ▸ (fld_skip 10 (by decide) (fld_skip 5 d.isLt (fld_skip 0 a.isLt (fld_here b.isLt))))
  have e5 : fld N 13 5 = a.toNat := hN ▸ (fld_skip 5 (by decide) (fld_skip 0 d.isLt (fld_here a.isLt)))
  have e6 : fld N 8 5 = d.toNat := hN ▸ (fld_skip 0 (by decide) (fld_here d.isLt))
  exact of_word (word_eq hN (by show 0x30000079 + m.toNat * 67108864 + b.toNat * 262144 + a.toNat * 8192 + d.toNat * 256 = _; omega) : encodeNat (.vcmpLtn m b a d) = (N, 4)) (hN ▸ (show 0x79 + 2 ^ 8 * (d.toNat + 2 ^ 5 * (a.toNat + 2 ^ 5 * (b.toNat + 2 ^ 5 * (0x0 + 2 ^ 3 * (m.toNat + 2 ^ 1 * 0x6))))) < 2 ^ 32 from (under (m := 24) (by decide) (under (m := 19) d.isLt (under (m := 14) a.isLt (under (m := 9) b.isLt (under (m := 6) (by decide) (under (m := 5) m.isLt (by decide))))))))) (hN ▸ odd_low _ _) (read79 e0 (by simp [raw79, bv, e1, e2, e3, e4, e5, e6]))

theorem vcmpGen (m : BitVec 1) (b : BitVec 5) (a : BitVec 5) (d : BitVec 5) : Statement (.vcmpGen m b a d) := by
  obtain ⟨N, hN⟩ : ∃ N, N = 0x79 + 2 ^ 8 * (d.toNat + 2 ^ 5 * (a.toNat + 2 ^ 5 * (b.toNat + 2 ^ 5 * (0x0 + 2 ^ 3 * (m.toNat + 2 ^ 1 * 0x7))))) := ⟨_, rfl⟩
  have e0 : fld N 0 8 = 121 := hN ▸ (fld_here (by decide))
  have e1 : fld N 23 3 = 0 := hN ▸ (fld_skip 15 (by decide) (fld_skip 10 d.isLt (fld_skip 5 a.isLt (fld_skip 0 b.isLt (fld_here (by decide))))))
  have e2 : fld N 27 5 = 7 := hN ▸ (fld_skip 19 (by decide) (fld_skip 14 d.isLt (fld_skip 9 a.isLt (fld_skip 4 b.isLt (fld_skip 1 (by decide) (fld_skip 0 m.isLt (fld_all (by decide))))))))
  have e3 : fld N 26 1 = m.toNat := hN ▸ (fld_skip 18 (by decide) (fld_skip 13 d.isLt (fld_skip 8 a.isLt (fld_skip 3 b.isLt (fld_skip 0 (by decide) (fld_here m.isLt))))))
  have e4 : fld N 18 5 = b.toNat := hN ▸ (fld_skip 10 (by decide) (fld_skip 5 d.isLt (fld_skip 0 a.isLt (fld_here b.isLt))))
  have e5 : fld N 13 5 = a.toNat := hN ▸ (fld_skip 5 (by decide) (fld_skip 0 d.isLt (fld_here a.isLt)))
  have e6 : fld N 8 5 = d.toNat := hN ▸ (fld_skip 0 (by decide) (fld_here d.isLt))
  exact of_word (word_eq hN (by show 0x38000079 + m.toNat * 67108864 + b.toNat * 262144 + a.toNat * 8192 + d.toNat * 256 = _; omega) : encodeNat (.vcmpGen m b a d) = (N, 4)) (hN ▸ (show 0x79 + 2 ^ 8 * (d.toNat + 2 ^ 5 * (a.toNat + 2 ^ 5 * (b.toNat + 2 ^ 5 * (0x0 + 2 ^ 3 * (m.toNat + 2 ^ 1 * 0x7))))) < 2 ^ 32 from (under (m := 24) (by decide) (under (m := 19) d.isLt (under (m := 14) a.isLt (under (m := 9) b.isLt (under (m := 6) (by decide) (under (m := 5) m.isLt (by decide))))))))) (hN ▸ odd_low _ _) (read79 e0 (by simp [raw79, bv, e1, e2, e3, e4, e5, e6]))

theorem mand (b : BitVec 5) (a : BitVec 5) (d : BitVec 5) : Statement (.mand b a d) := by
  obtain ⟨N, hN⟩ : ∃ N, N = 0x7b + 2 ^ 8 * (d.toNat + 2 ^ 5 * (a.toNat + 2 ^ 5 * (b.toNat + 2 ^ 5 * 0x0))) := ⟨_, rfl⟩
  have e0 : fld N 0 8 = 123 := hN ▸ (fld_here (by decide))
  have e1 : fld N 23 9 = 0 := hN ▸ (fld_skip 15 (by decide) (fld_skip 10 d.isLt (fld_skip 5 a.isLt (fld_skip 0 b.isLt (fld_all (by decide))))))
  have e2 : fld N 18 5 = b.toNat := hN ▸ (fld_skip 10 (by decide) (fld_skip 5 d.isLt (fld_skip 0 a.isLt (fld_here b.isLt))))
  have e3 : fld N 13 5 = a.toNat := hN ▸ (fld_skip 5 (by decide) (fld_skip 0 d.isLt (fld_here a.isLt)))
  have e4 : fld N 8 5 = d.toNat := hN ▸ (fld_skip 0 (by decide) (fld_here d.isLt))
  exact of_word (word_eq hN (by show 0x7b + b.toNat * 262144 + a.toNat * 8192 + d.toNat * 256 = _; omega) : encodeNat (.mand b a d) = (N, 4)) (hN ▸ (show 0x7b + 2 ^ 8 * (d.toNat + 2 ^ 5 * (a.toNat + 2 ^ 5 * (b.toNat + 2 ^ 5 * 0x0))) < 2 ^ 32 from (under (m := 24) (by decide) (under (m := 19) d.isLt (under (m := 14) a.isLt (under (m := 9) b.isLt (by decide))))))) (hN ▸ odd_low _ _) (read7B e0 (by simp [raw7B, bv, e1, e2, e3, e4]))

theorem mor (b : BitVec 5) (a : BitVec 5) (d : BitVec 5) : Statement (.mor b a d) := by
  obtain ⟨N, hN⟩ : ∃ N, N = 0x7b + 2 ^ 8 * (d.toNat + 2 ^ 5 * (a.toNat + 2 ^ 5 * (b.toNat + 2 ^ 5 * 0x10))) := ⟨_, rfl⟩
  have e0 : fld N 0 8 = 123 := hN ▸ (fld_here (by decide))
  have e1 : fld N 23 9 = 16 := hN ▸ (fld_skip 15 (by decide) (fld_skip 10 d.isLt (fld_skip 5 a.isLt (fld_skip 0 b.isLt (fld_all (by decide))))))
  have e2 : fld N 18 5 = b.toNat := hN ▸ (fld_skip 10 (by decide) (fld_skip 5 d.isLt (fld_skip 0 a.isLt (fld_here b.isLt))))
  have e3 : fld N 13 5 = a.toNat := hN ▸ (fld_skip 5 (by decide) (fld_skip 0 d.isLt (fld_here a.isLt)))
  have e4 : fld N 8 5 = d.toNat := hN ▸ (fld_skip 0 (by decide) (fld_here d.isLt))
  exact of_word (word_eq hN (by show 0x800007b + b.toNat * 262144 + a.toNat * 8192 + d.toNat * 256 = _; omega) : encodeNat (.mor b a d) = (N, 4)) (hN ▸ (show 0x7b + 2 ^ 8 * (d.toNat + 2 ^ 5 * (a.toNat + 2 ^ 5 * (b.toNat + 2 ^ 5 * 0x10))) < 2 ^ 32 from (under (m := 24) (by decide) (under (m := 19) d.isLt (under (m := 14) a.isLt (under (m := 9) b.isLt (by decide))))))) (hN ▸ odd_low _ _) (read7B e0 (by simp [raw7B, bv, e1, e2, e3, e4]))

theorem mxor (b : BitVec 5) (a : BitVec 5) (d : BitVec 5) : Statement (.mxor b a d) := by
  obtain ⟨N, hN⟩ : ∃ N, N = 0x7b + 2 ^ 8 * (d.toNat + 2 ^ 5 * (a.toNat + 2 ^ 5 * (b.toNat + 2 ^ 5 * 0x20))) := ⟨_, rfl⟩
  have e0 : fld N 0 8 = 123 := hN ▸ (fld_here (by decide))
  have e1 : fld N 23 9 = 32 := hN ▸ (fld_skip 15 (by decide) (fld_skip 10 d.isLt (fld_skip 5 a.isLt (fld_skip 0 b.isLt (fld_all (by decide))))))
  have e2 : fld N 18 5 = b.toNat := hN ▸ (fld_skip 10 (by decide) (fld_skip 5 d.isLt (fld_skip 0 a.isLt (fld_here b.isLt))))
  have e3 : fld N 13 5 = a.toNat := hN ▸ (fld_skip 5 (by decide) (fld_skip 0 d.isLt (fld_here a.isLt)))
  have e4 : fld N 8 5 = d.toNat := hN ▸ (fld_skip 0 (by decide) (fld_here d.isLt))
  exact of_word (word_eq hN (by show 0x1000007b + b.toNat * 262144 + a.toNat * 8192 + d.toNat * 256 = _; omega) : encodeNat (.mxor b a d) = (N, 4)) (hN ▸ (show 0x7b + 2 ^ 8 * (d.toNat + 2 ^ 5 * (a.toNat + 2 ^ 5 * (b.toNat + 2 ^ 5 * 0x20))) < 2 ^ 32 from (under (m := 24) (by decide) (under (m := 19) d.isLt (under (m := 14) a.isLt (under (m := 9) b.isLt (by decide))))))) (hN ▸ odd_low _ _) (read7B e0 (by simp [raw7B, bv, e1, e2, e3, e4]))

theorem mnot (a : BitVec 5) (d : BitVec 5) : Statement (.mnot a d) := by
  obtain ⟨N, hN⟩ : ∃ N, N = 0x7b + 2 ^ 8 * (d.toNat + 2 ^ 5 * (a.toNat + 2 ^ 5 * 0x600)) := ⟨_, rfl⟩
  have e0 : fld N 0 8 = 123 := hN ▸ (fld_here (by decide))
  have e1 : fld N 23 9 = 48 := hN ▸ (fld_skip 15 (by decide) (fld_skip 10 d.isLt (fld_skip 5 a.isLt (by decide))))
  have e2 : fld N 18 14 = 1536 := hN ▸ (fld_skip 10 (by decide) (fld_skip 5 d.isLt (fld_skip 0 a.isLt (fld_all (by decide)))))
  have e3 : fld N 13 5 = a.toNat := hN ▸ (fld_skip 5 (by decide) (fld_skip 0 d.isLt (fld_here a.isLt)))
  have e4 : fld N 8 5 = d.toNat := hN ▸ (fld_skip 0 (by decide) (fld_here d.isLt))
  exact of_word (word_eq hN (by show 0x1800007b + a.toNat * 8192 + d.toNat * 256 = _; omega) : encodeNat (.mnot a d) = (N, 4)) (hN ▸ (show 0x7b + 2 ^ 8 * (d.toNat + 2 ^ 5 * (a.toNat + 2 ^ 5 * 0x600)) < 2 ^ 32 from (under (m := 24) (by decide) (under (m := 19) d.isLt (under (m := 14) a.isLt (by decide)))))) (hN ▸ odd_low _ _) (read7B e0 (by simp [raw7B, bv, e1, e2, e3, e4]))

theorem mpop (a : BitVec 5) (d : BitVec 5) : Statement (.mpop a d) := by
  obtain ⟨N, hN⟩ : ∃ N, N = 0x7b + 2 ^ 8 * (d.toNat + 2 ^ 5 * (a.toNat + 2 ^ 5 * 0x800)) := ⟨_, rfl⟩
  have e0 : fld N 0 8 = 123 := hN ▸ (fld_here (by decide))
  have e1 : fld N 23 9 = 64 := hN ▸ (fld_skip 15 (by decide) (fld_skip 10 d.isLt (fld_skip 5 a.isLt (by decide))))
  have e2 : fld N 18 14 = 2048 := hN ▸ (fld_skip 10 (by decide) (fld_skip 5 d.isLt (fld_skip 0 a.isLt (fld_all (by decide)))))
  have e3 : fld N 13 5 = a.toNat := hN ▸ (fld_skip 5 (by decide) (fld_skip 0 d.isLt (fld_here a.isLt)))
  have e4 : fld N 8 5 = d.toNat := hN ▸ (fld_skip 0 (by decide) (fld_here d.isLt))
  exact of_word (word_eq hN (by show 0x2000007b + a.toNat * 8192 + d.toNat * 256 = _; omega) : encodeNat (.mpop a d) = (N, 4)) (hN ▸ (show 0x7b + 2 ^ 8 * (d.toNat + 2 ^ 5 * (a.toNat + 2 ^ 5 * 0x800)) < 2 ^ 32 from (under (m := 24) (by decide) (under (m := 19) d.isLt (under (m := 14) a.isLt (by decide)))))) (hN ▸ odd_low _ _) (read7B e0 (by simp [raw7B, bv, e1, e2, e3, e4]))

theorem mfirst (a : BitVec 5) (d : BitVec 5) : Statement (.mfirst a d) := by
  obtain ⟨N, hN⟩ : ∃ N, N = 0x7b + 2 ^ 8 * (d.toNat + 2 ^ 5 * (a.toNat + 2 ^ 5 * 0xa00)) := ⟨_, rfl⟩
  have e0 : fld N 0 8 = 123 := hN ▸ (fld_here (by decide))
  have e1 : fld N 23 9 = 80 := hN ▸ (fld_skip 15 (by decide) (fld_skip 10 d.isLt (fld_skip 5 a.isLt (by decide))))
  have e2 : fld N 18 14 = 2560 := hN ▸ (fld_skip 10 (by decide) (fld_skip 5 d.isLt (fld_skip 0 a.isLt (fld_all (by decide)))))
  have e3 : fld N 13 5 = a.toNat := hN ▸ (fld_skip 5 (by decide) (fld_skip 0 d.isLt (fld_here a.isLt)))
  have e4 : fld N 8 5 = d.toNat := hN ▸ (fld_skip 0 (by decide) (fld_here d.isLt))
  exact of_word (word_eq hN (by show 0x2800007b + a.toNat * 8192 + d.toNat * 256 = _; omega) : encodeNat (.mfirst a d) = (N, 4)) (hN ▸ (show 0x7b + 2 ^ 8 * (d.toNat + 2 ^ 5 * (a.toNat + 2 ^ 5 * 0xa00)) < 2 ^ 32 from (under (m := 24) (by decide) (under (m := 19) d.isLt (under (m := 14) a.isLt (by decide)))))) (hN ▸ odd_low _ _) (read7B e0 (by simp [raw7B, bv, e1, e2, e3, e4]))

theorem mfill (a : BitVec 5) (d : BitVec 5) : Statement (.mfill a d) := by
  obtain ⟨N, hN⟩ : ∃ N, N = 0x7b + 2 ^ 8 * (d.toNat + 2 ^ 5 * (a.toNat + 2 ^ 5 * 0xc00)) := ⟨_, rfl⟩
  have e0 : fld N 0 8 = 123 := hN ▸ (fld_here (by decide))
  have e1 : fld N 23 9 = 96 := hN ▸ (fld_skip 15 (by decide) (fld_skip 10 d.isLt (fld_skip 5 a.isLt (by decide))))
  have e2 : fld N 18 14 = 3072 := hN ▸ (fld_skip 10 (by decide) (fld_skip 5 d.isLt (fld_skip 0 a.isLt (fld_all (by decide)))))
  have e3 : fld N 13 5 = a.toNat := hN ▸ (fld_skip 5 (by decide) (fld_skip 0 d.isLt (fld_here a.isLt)))
  have e4 : fld N 8 5 = d.toNat := hN ▸ (fld_skip 0 (by decide) (fld_here d.isLt))
  exact of_word (word_eq hN (by show 0x3000007b + a.toNat * 8192 + d.toNat * 256 = _; omega) : encodeNat (.mfill a d) = (N, 4)) (hN ▸ (show 0x7b + 2 ^ 8 * (d.toNat + 2 ^ 5 * (a.toNat + 2 ^ 5 * 0xc00)) < 2 ^ 32 from (under (m := 24) (by decide) (under (m := 19) d.isLt (under (m := 14) a.isLt (by decide)))))) (hN ▸ odd_low _ _) (read7B e0 (by simp [raw7B, bv, e1, e2, e3, e4]))

theorem vsel (b : BitVec 5) (a : BitVec 5) (d : BitVec 5) : Statement (.vsel b a d) := by
  obtain ⟨N, hN⟩ : ∃ N, N = 0x7b + 2 ^ 8 * (d.toNat + 2 ^ 5 * (a.toNat + 2 ^ 5 * (b.toNat + 2 ^ 5 * 0x70))) := ⟨_, rfl⟩
  have hb := b.isLt; have ha := a.isLt; have hd := d.isLt
  have e0 : fld N 0 8 = 123 := hN ▸ (fld_here (by decide))
  have e1 : fld N 23 9 = 112 := hN ▸ (fld_skip 15 (by decide) (fld_skip 10 d.isLt (fld_skip 5 a.isLt (fld_skip 0 b.isLt (fld_all (by decide))))))
  have e2 : fld N 18 14 ≠ 1536 := by subst hN; unfold fld; omega
  have e3 : fld N 18 14 ≠ 2048 := by subst hN; unfold fld; omega
  have e4 : fld N 18 14 ≠ 2560 := by subst hN; unfold fld; omega
  have e5 : fld N 18 14 ≠ 3072 := by subst hN; unfold fld; omega
  have e6 : fld N 18 5 = b.toNat := hN ▸ (fld_skip 10 (by decide) (fld_skip 5 d.isLt (fld_skip 0 a.isLt (fld_here b.isLt))))
  have e7 : fld N 13 5 = a.toNat := hN ▸ (fld_skip 5 (by decide) (fld_skip 0 d.isLt (fld_here a.isLt)))
  have e8 : fld N 8 5 = d.toNat := hN ▸ (fld_skip 0 (by decide) (fld_here d.isLt))
  exact of_word (word_eq hN (by show 0x3800007b + b.toNat * 262144 + a.toNat * 8192 + d.toNat * 256 = _; omega) : encodeNat (.vsel b a d) = (N, 4)) (hN ▸ (show 0x7b + 2 ^ 8 * (d.toNat + 2 ^ 5 * (a.toNat + 2 ^ 5 * (b.toNat + 2 ^ 5 * 0x70))) < 2 ^ 32 from (under (m := 24) (by decide) (under (m := 19) d.isLt (under (m := 14) a.isLt (under (m := 9) b.isLt (by decide))))))) (hN ▸ odd_low _ _) (read7B e0 (by simp [raw7B, bv, e1, e2, e3, e4, e5, e6, e7, e8]))

theorem vrsum (m : BitVec 1) (r : BitVec 2) (a : BitVec 5) (d : BitVec 5) : Statement (.vrsum m r a d) := by
  obtain ⟨N, hN⟩ : ∃ N, N = 0x7d + 2 ^ 8 * (d.toNat + 2 ^ 5 * (a.toNat + 2 ^ 5 * (0x0 + 2 ^ 5 * (r.toNat + 2 ^ 2 * (0x0 + 2 ^ 1 * (m.toNat + 2 ^ 1 * 0x0)))))) := ⟨_, rfl⟩
  have e0 : fld N 0 8 = 125 := hN ▸ (fld_here (by decide))
  have e1 : fld N 18 5 = 0 := hN ▸ (fld_skip 10 (by decide) (fld_skip 5 d.isLt (fld_skip 0 a.isLt (fld_here (by decide)))))
  have e2 : fld N 25 1 = 0 := hN ▸ (fld_skip 17 (by decide) (fld_skip 12 d.isLt (fld_skip 7 a.isLt (fld_skip 2 (by decide) (fld_skip 0 r.isLt (fld_here (by decide)))))))
  have e3 : fld N 27 5 = 0 := hN ▸ (fld_skip 19 (by decide) (fld_skip 14 d.isLt (fld_skip 9 a.isLt (fld_skip 4 (by decide) (fld_skip 2 r.isLt (fld_skip 1 (by decide) (fld_skip 0 m.isLt (fld_all (by decide)))))))))
  have e4 : fld N 26 1 = m.toNat := hN ▸ (fld_skip 18 (by decide) (fld_skip 13 d.isLt (fld_skip 8 a.isLt (fld_skip 3 (by decide) (fld_skip 1 r.isLt (fld_skip 0 (by decide) (fld_here m.isLt)))))))
  have e5 : fld N 23 2 = r.toNat := hN ▸ (fld_skip 15 (by decide) (fld_skip 10 d.isLt (fld_skip 5 a.isLt (fld_skip 0 (by decide) (fld_here r.isLt)))))
  have e6 : fld N 13 5 = a.toNat := hN ▸ (fld_skip 5 (by decide) (fld_skip 0 d.isLt (fld_here a.isLt)))
  have e7 : fld N 8 5 = d.toNat := hN ▸ (fld_skip 0 (by decide) (fld_here d.isLt))
  exact of_word (word_eq hN (by show 0x7d + m.toNat * 67108864 + r.toNat * 8388608 + a.toNat * 8192 + d.toNat * 256 = _; omega) : encodeNat (.vrsum m r a d) = (N, 4)) (hN ▸ (show 0x7d + 2 ^ 8 * (d.toNat + 2 ^ 5 * (a.toNat + 2 ^ 5 * (0x0 + 2 ^ 5 * (r.toNat + 2 ^ 2 * (0x0 + 2 ^ 1 * (m.toNat + 2 ^ 1 * 0x0)))))) < 2 ^ 32 from (under (m := 24) (by decide) (under (m := 19) d.isLt (under (m := 14) a.isLt (under (m := 9) (by decide) (under (m := 7) r.isLt (under (m := 6) (by decide) (under (m := 5) m.isLt (by decide)))))))))) (hN ▸ odd_low _ _) (read7D e0 (by simp [raw7D, bv, e1, e2, e3, e4, e5, e6, e7]))

theorem vrmax (m : BitVec 1) (r : BitVec 2) (a : BitVec 5) (d : BitVec 5) : Statement (.vrmax m r a d) := by
  obtain ⟨N, hN⟩ : ∃ N, N = 0x7d + 2 ^ 8 * (d.toNat + 2 ^ 5 * (a.toNat + 2 ^ 5 * (0x0 + 2 ^ 5 * (r.toNat + 2 ^ 2 * (0x0 + 2 ^ 1 * (m.toNat + 2 ^ 1 * 0x1)))))) := ⟨_, rfl⟩
  have e0 : fld N 0 8 = 125 := hN ▸ (fld_here (by decide))
  have e1 : fld N 18 5 = 0 := hN ▸ (fld_skip 10 (by decide) (fld_skip 5 d.isLt (fld_skip 0 a.isLt (fld_here (by decide)))))
  have e2 : fld N 25 1 = 0 := hN ▸ (fld_skip 17 (by decide) (fld_skip 12 d.isLt (fld_skip 7 a.isLt (fld_skip 2 (by decide) (fld_skip 0 r.isLt (fld_here (by decide)))))))
  have e3 : fld N 27 5 = 1 := hN ▸ (fld_skip 19 (by decide) (fld_skip 14 d.isLt (fld_skip 9 a.isLt (fld_skip 4 (by decide) (fld_skip 2 r.isLt (fld_skip 1 (by decide) (fld_skip 0 m.isLt (fld_all (by decide)))))))))
  have e4 : fld N 26 1 = m.toNat := hN ▸ (fld_skip 18 (by decide) (fld_skip 13 d.isLt (fld_skip 8 a.isLt (fld_skip 3 (by decide) (fld_skip 1 r.isLt (fld_skip 0 (by decide) (fld_here m.isLt)))))))
  have e5 : fld N 23 2 = r.toNat := hN ▸ (fld_skip 15 (by decide) (fld_skip 10 d.isLt (fld_skip 5 a.isLt (fld_skip 0 (by decide) (fld_here r.isLt)))))
  have e6 : fld N 13 5 = a.toNat := hN ▸ (fld_skip 5 (by decide) (fld_skip 0 d.isLt (fld_here a.isLt)))
  have e7 : fld N 8 5 = d.toNat := hN ▸ (fld_skip 0 (by decide) (fld_here d.isLt))
  exact of_word (word_eq hN (by show 0x800007d + m.toNat * 67108864 + r.toNat * 8388608 + a.toNat * 8192 + d.toNat * 256 = _; omega) : encodeNat (.vrmax m r a d) = (N, 4)) (hN ▸ (show 0x7d + 2 ^ 8 * (d.toNat + 2 ^ 5 * (a.toNat + 2 ^ 5 * (0x0 + 2 ^ 5 * (r.toNat + 2 ^ 2 * (0x0 + 2 ^ 1 * (m.toNat + 2 ^ 1 * 0x1)))))) < 2 ^ 32 from (under (m := 24) (by decide) (under (m := 19) d.isLt (under (m := 14) a.isLt (under (m := 9) (by decide) (under (m := 7) r.isLt (under (m := 6) (by decide) (under (m := 5) m.isLt (by decide)))))))))) (hN ▸ odd_low _ _) (read7D e0 (by simp [raw7D, bv, e1, e2, e3, e4, e5, e6, e7]))

theorem vrmin (m : BitVec 1) (r : BitVec 2) (a : BitVec 5) (d : BitVec 5) : Statement (.vrmin m r a d) := by
  obtain ⟨N, hN⟩ : ∃ N, N = 0x7d + 2 ^ 8 * (d.toNat + 2 ^ 5 * (a.toNat + 2 ^ 5 * (0x0 + 2 ^ 5 * (r.toNat + 2 ^ 2 * (0x0 + 2 ^ 1 * (m.toNat + 2 ^ 1 * 0x2)))))) := ⟨_, rfl⟩
  have e0 : fld N 0 8 = 125 := hN ▸ (fld_here (by decide))
  have e1 : fld N 18 5 = 0 := hN ▸ (fld_skip 10 (by decide) (fld_skip 5 d.isLt (fld_skip 0 a.isLt (fld_here (by decide)))))
  have e2 : fld N 25 1 = 0 := hN ▸ (fld_skip 17 (by decide) (fld_skip 12 d.isLt (fld_skip 7 a.isLt (fld_skip 2 (by decide) (fld_skip 0 r.isLt (fld_here (by decide)))))))
  have e3 : fld N 27 5 = 2 := hN ▸ (fld_skip 19 (by decide) (fld_skip 14 d.isLt (fld_skip 9 a.isLt (fld_skip 4 (by decide) (fld_skip 2 r.isLt (fld_skip 1 (by decide) (fld_skip 0 m.isLt (fld_all (by decide)))))))))
  have e4 : fld N 26 1 = m.toNat := hN ▸ (fld_skip 18 (by decide) (fld_skip 13 d.isLt (fld_skip 8 a.isLt (fld_skip 3 (by decide) (fld_skip 1 r.isLt (fld_skip 0 (by decide) (fld_here m.isLt)))))))
  have e5 : fld N 23 2 = r.toNat := hN ▸ (fld_skip 15 (by decide) (fld_skip 10 d.isLt (fld_skip 5 a.isLt (fld_skip 0 (by decide) (fld_here r.isLt)))))
  have e6 : fld N 13 5 = a.toNat := hN ▸ (fld_skip 5 (by decide) (fld_skip 0 d.isLt (fld_here a.isLt)))
  have e7 : fld N 8 5 = d.toNat := hN ▸ (fld_skip 0 (by decide) (fld_here d.isLt))
  exact of_word (word_eq hN (by show 0x1000007d + m.toNat * 67108864 + r.toNat * 8388608 + a.toNat * 8192 + d.toNat * 256 = _; omega) : encodeNat (.vrmin m r a d) = (N, 4)) (hN ▸ (show 0x7d + 2 ^ 8 * (d.toNat + 2 ^ 5 * (a.toNat + 2 ^ 5 * (0x0 + 2 ^ 5 * (r.toNat + 2 ^ 2 * (0x0 + 2 ^ 1 * (m.toNat + 2 ^ 1 * 0x2)))))) < 2 ^ 32 from (under (m := 24) (by decide) (under (m := 19) d.isLt (under (m := 14) a.isLt (under (m := 9) (by decide) (under (m := 7) r.isLt (under (m := 6) (by decide) (under (m := 5) m.isLt (by decide)))))))))) (hN ▸ odd_low _ _) (read7D e0 (by simp [raw7D, bv, e1, e2, e3, e4, e5, e6, e7]))

theorem vrand (m : BitVec 1) (r : BitVec 2) (a : BitVec 5) (d : BitVec 5) : Statement (.vrand m r a d) := by
  obtain ⟨N, hN⟩ : ∃ N, N = 0x7d + 2 ^ 8 * (d.toNat + 2 ^ 5 * (a.toNat + 2 ^ 5 * (0x0 + 2 ^ 5 * (r.toNat + 2 ^ 2 * (0x0 + 2 ^ 1 * (m.toNat + 2 ^ 1 * 0x3)))))) := ⟨_, rfl⟩
  have e0 : fld N 0 8 = 125 := hN ▸ (fld_here (by decide))
  have e1 : fld N 18 5 = 0 := hN ▸ (fld_skip 10 (by decide) (fld_skip 5 d.isLt (fld_skip 0 a.isLt (fld_here (by decide)))))
  have e2 : fld N 25 1 = 0 := hN ▸ (fld_skip 17 (by decide) (fld_skip 12 d.isLt (fld_skip 7 a.isLt (fld_skip 2 (by decide) (fld_skip 0 r.isLt (fld_here (by decide)))))))
  have e3 : fld N 27 5 = 3 := hN ▸ (fld_skip 19 (by decide) (fld_skip 14 d.isLt (fld_skip 9 a.isLt (fld_skip 4 (by decide) (fld_skip 2 r.isLt (fld_skip 1 (by decide) (fld_skip 0 m.isLt (fld_all (by decide)))))))))
  have e4 : fld N 26 1 = m.toNat := hN ▸ (fld_skip 18 (by decide) (fld_skip 13 d.isLt (fld_skip 8 a.isLt (fld_skip 3 (by decide) (fld_skip 1 r.isLt (fld_skip 0 (by decide) (fld_here m.isLt)))))))
  have e5 : fld N 23 2 = r.toNat := hN ▸ (fld_skip 15 (by decide) (fld_skip 10 d.isLt (fld_skip 5 a.isLt (fld_skip 0 (by decide) (fld_here r.isLt)))))
  have e6 : fld N 13 5 = a.toNat := hN ▸ (fld_skip 5 (by decide) (fld_skip 0 d.isLt (fld_here a.isLt)))
  have e7 : fld N 8 5 = d.toNat := hN ▸ (fld_skip 0 (by decide) (fld_here d.isLt))
  exact of_word (word_eq hN (by show 0x1800007d + m.toNat * 67108864 + r.toNat * 8388608 + a.toNat * 8192 + d.toNat * 256 = _; omega) : encodeNat (.vrand m r a d) = (N, 4)) (hN ▸ (show 0x7d + 2 ^ 8 * (d.toNat + 2 ^ 5 * (a.toNat + 2 ^ 5 * (0x0 + 2 ^ 5 * (r.toNat + 2 ^ 2 * (0x0 + 2 ^ 1 * (m.toNat + 2 ^ 1 * 0x3)))))) < 2 ^ 32 from (under (m := 24) (by decide) (under (m := 19) d.isLt (under (m := 14) a.isLt (under (m := 9) (by decide) (under (m := 7) r.isLt (under (m := 6) (by decide) (under (m := 5) m.isLt (by decide)))))))))) (hN ▸ odd_low _ _) (read7D e0 (by simp [raw7D, bv, e1, e2, e3, e4, e5, e6, e7]))

theorem vror (m : BitVec 1) (r : BitVec 2) (a : BitVec 5) (d : BitVec 5) : Statement (.vror m r a d) := by
  obtain ⟨N, hN⟩ : ∃ N, N = 0x7d + 2 ^ 8 * (d.toNat + 2 ^ 5 * (a.toNat + 2 ^ 5 * (0x0 + 2 ^ 5 * (r.toNat + 2 ^ 2 * (0x0 + 2 ^ 1 * (m.toNat + 2 ^ 1 * 0x4)))))) := ⟨_, rfl⟩
  have e0 : fld N 0 8 = 125 := hN ▸ (fld_here (by decide))
  have e1 : fld N 18 5 = 0 := hN ▸ (fld_skip 10 (by decide) (fld_skip 5 d.isLt (fld_skip 0 a.isLt (fld_here (by decide)))))
  have e2 : fld N 25 1 = 0 := hN ▸ (fld_skip 17 (by decide) (fld_skip 12 d.isLt (fld_skip 7 a.isLt (fld_skip 2 (by decide) (fld_skip 0 r.isLt (fld_here (by decide)))))))
  have e3 : fld N 27 5 = 4 := hN ▸ (fld_skip 19 (by decide) (fld_skip 14 d.isLt (fld_skip 9 a.isLt (fld_skip 4 (by decide) (fld_skip 2 r.isLt (fld_skip 1 (by decide) (fld_skip 0 m.isLt (fld_all (by decide)))))))))
  have e4 : fld N 26 1 = m.toNat := hN ▸ (fld_skip 18 (by decide) (fld_skip 13 d.isLt (fld_skip 8 a.isLt (fld_skip 3 (by decide) (fld_skip 1 r.isLt (fld_skip 0 (by decide) (fld_here m.isLt)))))))
  have e5 : fld N 23 2 = r.toNat := hN ▸ (fld_skip 15 (by decide) (fld_skip 10 d.isLt (fld_skip 5 a.isLt (fld_skip 0 (by decide) (fld_here r.isLt)))))
  have e6 : fld N 13 5 = a.toNat := hN ▸ (fld_skip 5 (by decide) (fld_skip 0 d.isLt (fld_here a.isLt)))
  have e7 : fld N 8 5 = d.toNat := hN ▸ (fld_skip 0 (by decide) (fld_here d.isLt))
  exact of_word (word_eq hN (by show 0x2000007d + m.toNat * 67108864 + r.toNat * 8388608 + a.toNat * 8192 + d.toNat * 256 = _; omega) : encodeNat (.vror m r a d) = (N, 4)) (hN ▸ (show 0x7d + 2 ^ 8 * (d.toNat + 2 ^ 5 * (a.toNat + 2 ^ 5 * (0x0 + 2 ^ 5 * (r.toNat + 2 ^ 2 * (0x0 + 2 ^ 1 * (m.toNat + 2 ^ 1 * 0x4)))))) < 2 ^ 32 from (under (m := 24) (by decide) (under (m := 19) d.isLt (under (m := 14) a.isLt (under (m := 9) (by decide) (under (m := 7) r.isLt (under (m := 6) (by decide) (under (m := 5) m.isLt (by decide)))))))))) (hN ▸ odd_low _ _) (read7D e0 (by simp [raw7D, bv, e1, e2, e3, e4, e5, e6, e7]))

theorem vrxor (m : BitVec 1) (r : BitVec 2) (a : BitVec 5) (d : BitVec 5) : Statement (.vrxor m r a d) := by
  obtain ⟨N, hN⟩ : ∃ N, N = 0x7d + 2 ^ 8 * (d.toNat + 2 ^ 5 * (a.toNat + 2 ^ 5 * (0x0 + 2 ^ 5 * (r.toNat + 2 ^ 2 * (0x0 + 2 ^ 1 * (m.toNat + 2 ^ 1 * 0x5)))))) := ⟨_, rfl⟩
  have e0 : fld N 0 8 = 125 := hN ▸ (fld_here (by decide))
  have e1 : fld N 18 5 = 0 := hN ▸ (fld_skip 10 (by decide) (fld_skip 5 d.isLt (fld_skip 0 a.isLt (fld_here (by decide)))))
  have e2 : fld N 25 1 = 0 := hN ▸ (fld_skip 17 (by decide) (fld_skip 12 d.isLt (fld_skip 7 a.isLt (fld_skip 2 (by decide) (fld_skip 0 r.isLt (fld_here (by decide)))))))
  have e3 : fld N 27 5 = 5 := hN ▸ (fld_skip 19 (by decide) (fld_skip 14 d.isLt (fld_skip 9 a.isLt (fld_skip 4 (by decide) (fld_skip 2 r.isLt (fld_skip 1 (by decide) (fld_skip 0 m.isLt (fld_all (by decide)))))))))
  have e4 : fld N 26 1 = m.toNat := hN ▸ (fld_skip 18 (by decide) (fld_skip 13 d.isLt (fld_skip 8 a.isLt (fld_skip 3 (by decide) (fld_skip 1 r.isLt (fld_skip 0 (by decide) (fld_here m.isLt)))))))
  have e5 : fld N 23 2 = r.toNat := hN ▸ (fld_skip 15 (by decide) (fld_skip 10 d.isLt (fld_skip 5 a.isLt (fld_skip 0 (by decide) (fld_here r.isLt)))))
  have e6 : fld N 13 5 = a.toNat := hN ▸ (fld_skip 5 (by decide) (fld_skip 0 d.isLt (fld_here a.isLt)))
  have e7 : fld N 8 5 = d.toNat := hN ▸ (fld_skip 0 (by decide) (fld_here d.isLt))
  exact of_word (word_eq hN (by show 0x2800007d + m.toNat * 67108864 + r.toNat * 8388608 + a.toNat * 8192 + d.toNat * 256 = _; omega) : encodeNat (.vrxor m r a d) = (N, 4)) (hN ▸ (show 0x7d + 2 ^ 8 * (d.toNat + 2 ^ 5 * (a.toNat + 2 ^ 5 * (0x0 + 2 ^ 5 * (r.toNat + 2 ^ 2 * (0x0 + 2 ^ 1 * (m.toNat + 2 ^ 1 * 0x5)))))) < 2 ^ 32 from (under (m := 24) (by decide) (under (m := 19) d.isLt (under (m := 14) a.isLt (under (m := 9) (by decide) (under (m := 7) r.isLt (under (m := 6) (by decide) (under (m := 5) m.isLt (by decide)))))))))) (hN ▸ odd_low _ _) (read7D e0 (by simp [raw7D, bv, e1, e2, e3, e4, e5, e6, e7]))

theorem vperm (m : BitVec 1) (b : BitVec 5) (a : BitVec 5) (d : BitVec 5) : Statement (.vperm m b a d) := by
  obtain ⟨N, hN⟩ : ∃ N, N = 0x7f + 2 ^ 8 * (d.toNat + 2 ^ 5 * (a.toNat + 2 ^ 5 * (b.toNat + 2 ^ 5 * (0x0 + 2 ^ 3 * (m.toNat + 2 ^ 1 * 0x0))))) := ⟨_, rfl⟩
  have e0 : fld N 0 8 = 127 := hN ▸ (fld_here (by decide))
  have e1 : fld N 23 3 = 0 := hN ▸ (fld_skip 15 (by decide) (fld_skip 10 d.isLt (fld_skip 5 a.isLt (fld_skip 0 b.isLt (fld_here (by decide))))))
  have e2 : fld N 27 5 = 0 := hN ▸ (fld_skip 19 (by decide) (fld_skip 14 d.isLt (fld_skip 9 a.isLt (fld_skip 4 b.isLt (fld_skip 1 (by decide) (fld_skip 0 m.isLt (fld_all (by decide))))))))
  have e3 : fld N 26 1 = m.toNat := hN ▸ (fld_skip 18 (by decide) (fld_skip 13 d.isLt (fld_skip 8 a.isLt (fld_skip 3 b.isLt (fld_skip 0 (by decide) (fld_here m.isLt))))))
  have e4 : fld N 18 5 = b.toNat := hN ▸ (fld_skip 10 (by decide) (fld_skip 5 d.isLt (fld_skip 0 a.isLt (fld_here b.isLt))))
  have e5 : fld N 13 5 = a.toNat := hN ▸ (fld_skip 5 (by decide) (fld_skip 0 d.isLt (fld_here a.isLt)))
  have e6 : fld N 8 5 = d.toNat := hN ▸ (fld_skip 0 (by decide) (fld_here d.isLt))
  exact of_word (word_eq hN (by show 0x7f + m.toNat * 67108864 + b.toNat * 262144 + a.toNat * 8192 + d.toNat * 256 = _; omega) : encodeNat (.vperm m b a d) = (N, 4)) (hN ▸ (show 0x7f + 2 ^ 8 * (d.toNat + 2 ^ 5 * (a.toNat + 2 ^ 5 * (b.toNat + 2 ^ 5 * (0x0 + 2 ^ 3 * (m.toNat + 2 ^ 1 * 0x0))))) < 2 ^ 32 from (under (m := 24) (by decide) (under (m := 19) d.isLt (under (m := 14) a.isLt (under (m := 9) b.isLt (under (m := 6) (by decide) (under (m := 5) m.isLt (by decide))))))))) (hN ▸ odd_low _ _) (read7F e0 (by simp [raw7F, bv, e1, e2, e3, e4, e5, e6]))

theorem vslup (m : BitVec 1) (b : BitVec 5) (a : BitVec 5) (d : BitVec 5) : Statement (.vslup m b a d) := by
  obtain ⟨N, hN⟩ : ∃ N, N = 0x7f + 2 ^ 8 * (d.toNat + 2 ^ 5 * (a.toNat + 2 ^ 5 * (b.toNat + 2 ^ 5 * (0x0 + 2 ^ 3 * (m.toNat + 2 ^ 1 * 0x1))))) := ⟨_, rfl⟩
  have e0 : fld N 0 8 = 127 := hN ▸ (fld_here (by decide))
  have e1 : fld N 23 3 = 0 := hN ▸ (fld_skip 15 (by decide) (fld_skip 10 d.isLt (fld_skip 5 a.isLt (fld_skip 0 b.isLt (fld_here (by decide))))))
  have e2 : fld N 27 5 = 1 := hN ▸ (fld_skip 19 (by decide) (fld_skip 14 d.isLt (fld_skip 9 a.isLt (fld_skip 4 b.isLt (fld_skip 1 (by decide) (fld_skip 0 m.isLt (fld_all (by decide))))))))
  have e3 : fld N 26 1 = m.toNat := hN ▸ (fld_skip 18 (by decide) (fld_skip 13 d.isLt (fld_skip 8 a.isLt (fld_skip 3 b.isLt (fld_skip 0 (by decide) (fld_here m.isLt))))))
  have e4 : fld N 18 5 = b.toNat := hN ▸ (fld_skip 10 (by decide) (fld_skip 5 d.isLt (fld_skip 0 a.isLt (fld_here b.isLt))))
  have e5 : fld N 13 5 = a.toNat := hN ▸ (fld_skip 5 (by decide) (fld_skip 0 d.isLt (fld_here a.isLt)))
  have e6 : fld N 8 5 = d.toNat := hN ▸ (fld_skip 0 (by decide) (fld_here d.isLt))
  exact of_word (word_eq hN (by show 0x800007f + m.toNat * 67108864 + b.toNat * 262144 + a.toNat * 8192 + d.toNat * 256 = _; omega) : encodeNat (.vslup m b a d) = (N, 4)) (hN ▸ (show 0x7f + 2 ^ 8 * (d.toNat + 2 ^ 5 * (a.toNat + 2 ^ 5 * (b.toNat + 2 ^ 5 * (0x0 + 2 ^ 3 * (m.toNat + 2 ^ 1 * 0x1))))) < 2 ^ 32 from (under (m := 24) (by decide) (under (m := 19) d.isLt (under (m := 14) a.isLt (under (m := 9) b.isLt (under (m := 6) (by decide) (under (m := 5) m.isLt (by decide))))))))) (hN ▸ odd_low _ _) (read7F e0 (by simp [raw7F, bv, e1, e2, e3, e4, e5, e6]))

theorem vsldn (m : BitVec 1) (b : BitVec 5) (a : BitVec 5) (d : BitVec 5) : Statement (.vsldn m b a d) := by
  obtain ⟨N, hN⟩ : ∃ N, N = 0x7f + 2 ^ 8 * (d.toNat + 2 ^ 5 * (a.toNat + 2 ^ 5 * (b.toNat + 2 ^ 5 * (0x0 + 2 ^ 3 * (m.toNat + 2 ^ 1 * 0x2))))) := ⟨_, rfl⟩
  have e0 : fld N 0 8 = 127 := hN ▸ (fld_here (by decide))
  have e1 : fld N 23 3 = 0 := hN ▸ (fld_skip 15 (by decide) (fld_skip 10 d.isLt (fld_skip 5 a.isLt (fld_skip 0 b.isLt (fld_here (by decide))))))
  have e2 : fld N 27 5 = 2 := hN ▸ (fld_skip 19 (by decide) (fld_skip 14 d.isLt (fld_skip 9 a.isLt (fld_skip 4 b.isLt (fld_skip 1 (by decide) (fld_skip 0 m.isLt (fld_all (by decide))))))))
  have e3 : fld N 26 1 = m.toNat := hN ▸ (fld_skip 18 (by decide) (fld_skip 13 d.isLt (fld_skip 8 a.isLt (fld_skip 3 b.isLt (fld_skip 0 (by decide) (fld_here m.isLt))))))
  have e4 : fld N 18 5 = b.toNat := hN ▸ (fld_skip 10 (by decide) (fld_skip 5 d.isLt (fld_skip 0 a.isLt (fld_here b.isLt))))
  have e5 : fld N 13 5 = a.toNat := hN ▸ (fld_skip 5 (by decide) (fld_skip 0 d.isLt (fld_here a.isLt)))
  have e6 : fld N 8 5 = d.toNat := hN ▸ (fld_skip 0 (by decide) (fld_here d.isLt))
  exact of_word (word_eq hN (by show 0x1000007f + m.toNat * 67108864 + b.toNat * 262144 + a.toNat * 8192 + d.toNat * 256 = _; omega) : encodeNat (.vsldn m b a d) = (N, 4)) (hN ▸ (show 0x7f + 2 ^ 8 * (d.toNat + 2 ^ 5 * (a.toNat + 2 ^ 5 * (b.toNat + 2 ^ 5 * (0x0 + 2 ^ 3 * (m.toNat + 2 ^ 1 * 0x2))))) < 2 ^ 32 from (under (m := 24) (by decide) (under (m := 19) d.isLt (under (m := 14) a.isLt (under (m := 9) b.isLt (under (m := 6) (by decide) (under (m := 5) m.isLt (by decide))))))))) (hN ▸ odd_low _ _) (read7F e0 (by simp [raw7F, bv, e1, e2, e3, e4, e5, e6]))

theorem vbcast (m : BitVec 1) (a : BitVec 5) (d : BitVec 5) : Statement (.vbcast m a d) := by
  obtain ⟨N, hN⟩ : ∃ N, N = 0x7f + 2 ^ 8 * (d.toNat + 2 ^ 5 * (a.toNat + 2 ^ 5 * (0x0 + 2 ^ 8 * (m.toNat + 2 ^ 1 * 0x3)))) := ⟨_, rfl⟩
  have hm := m.isLt; have ha := a.isLt; have hd := d.isLt
  have e0 : fld N 0 8 = 127 := hN ▸ (fld_here (by decide))
  have e1 : fld N 23 3 = 0 := by subst hN; unfold fld; omega
  have e2 : fld N 27 5 = 3 := hN ▸ (fld_skip 19 (by decide) (fld_skip 14 d.isLt (fld_skip 9 a.isLt (fld_skip 1 (by decide) (fld_skip 0 m.isLt (fld_all (by decide)))))))
  have e3 : fld N 18 8 = 0 := hN ▸ (fld_skip 10 (by decide) (fld_skip 5 d.isLt (fld_skip 0 a.isLt (fld_here (by decide)))))
  have e4 : fld N 26 1 = m.toNat := hN ▸ (fld_skip 18 (by decide) (fld_skip 13 d.isLt (fld_skip 8 a.isLt (fld_skip 0 (by decide) (fld_here m.isLt)))))
  have e5 : fld N 13 5 = a.toNat := hN ▸ (fld_skip 5 (by decide) (fld_skip 0 d.isLt (fld_here a.isLt)))
  have e6 : fld N 8 5 = d.toNat := hN ▸ (fld_skip 0 (by decide) (fld_here d.isLt))
  exact of_word (word_eq hN (by show 0x1800007f + m.toNat * 67108864 + a.toNat * 8192 + d.toNat * 256 = _; omega) : encodeNat (.vbcast m a d) = (N, 4)) (hN ▸ (show 0x7f + 2 ^ 8 * (d.toNat + 2 ^ 5 * (a.toNat + 2 ^ 5 * (0x0 + 2 ^ 8 * (m.toNat + 2 ^ 1 * 0x3)))) < 2 ^ 32 from (under (m := 24) (by decide) (under (m := 19) d.isLt (under (m := 14) a.isLt (under (m := 6) (by decide) (under (m := 5) m.isLt (by decide)))))))) (hN ▸ odd_low _ _) (read7F e0 (by simp [raw7F, bv, e1, e2, e3, e4, e5, e6]))

theorem vext (m : BitVec 1) (b : BitVec 5) (a : BitVec 5) (d : BitVec 5) : Statement (.vext m b a d) := by
  obtain ⟨N, hN⟩ : ∃ N, N = 0x7f + 2 ^ 8 * (d.toNat + 2 ^ 5 * (a.toNat + 2 ^ 5 * (b.toNat + 2 ^ 5 * (0x0 + 2 ^ 3 * (m.toNat + 2 ^ 1 * 0x4))))) := ⟨_, rfl⟩
  have e0 : fld N 0 8 = 127 := hN ▸ (fld_here (by decide))
  have e1 : fld N 23 3 = 0 := hN ▸ (fld_skip 15 (by decide) (fld_skip 10 d.isLt (fld_skip 5 a.isLt (fld_skip 0 b.isLt (fld_here (by decide))))))
  have e2 : fld N 27 5 = 4 := hN ▸ (fld_skip 19 (by decide) (fld_skip 14 d.isLt (fld_skip 9 a.isLt (fld_skip 4 b.isLt (fld_skip 1 (by decide) (fld_skip 0 m.isLt (fld_all (by decide))))))))
  have e3 : fld N 26 1 = m.toNat := hN ▸ (fld_skip 18 (by decide) (fld_skip 13 d.isLt (fld_skip 8 a.isLt (fld_skip 3 b.isLt (fld_skip 0 (by decide) (fld_here m.isLt))))))
  have e4 : fld N 18 5 = b.toNat := hN ▸ (fld_skip 10 (by decide) (fld_skip 5 d.isLt (fld_skip 0 a.isLt (fld_here b.isLt))))
  have e5 : fld N 13 5 = a.toNat := hN ▸ (fld_skip 5 (by decide) (fld_skip 0 d.isLt (fld_here a.isLt)))
  have e6 : fld N 8 5 = d.toNat := hN ▸ (fld_skip 0 (by decide) (fld_here d.isLt))
  exact of_word (word_eq hN (by show 0x2000007f + m.toNat * 67108864 + b.toNat * 262144 + a.toNat * 8192 + d.toNat * 256 = _; omega) : encodeNat (.vext m b a d) = (N, 4)) (hN ▸ (show 0x7f + 2 ^ 8 * (d.toNat + 2 ^ 5 * (a.toNat + 2 ^ 5 * (b.toNat + 2 ^ 5 * (0x0 + 2 ^ 3 * (m.toNat + 2 ^ 1 * 0x4))))) < 2 ^ 32 from (under (m := 24) (by decide) (under (m := 19) d.isLt (under (m := 14) a.isLt (under (m := 9) b.isLt (under (m := 6) (by decide) (under (m := 5) m.isLt (by decide))))))))) (hN ▸ odd_low _ _) (read7F e0 (by simp [raw7F, bv, e1, e2, e3, e4, e5, e6]))

theorem vins (m : BitVec 1) (b : BitVec 5) (a : BitVec 5) (d : BitVec 5) : Statement (.vins m b a d) := by
  obtain ⟨N, hN⟩ : ∃ N, N = 0x7f + 2 ^ 8 * (d.toNat + 2 ^ 5 * (a.toNat + 2 ^ 5 * (b.toNat + 2 ^ 5 * (0x0 + 2 ^ 3 * (m.toNat + 2 ^ 1 * 0x5))))) := ⟨_, rfl⟩
  have e0 : fld N 0 8 = 127 := hN ▸ (fld_here (by decide))
  have e1 : fld N 23 3 = 0 := hN ▸ (fld_skip 15 (by decide) (fld_skip 10 d.isLt (fld_skip 5 a.isLt (fld_skip 0 b.isLt (fld_here (by decide))))))
  have e2 : fld N 27 5 = 5 := hN ▸ (fld_skip 19 (by decide) (fld_skip 14 d.isLt (fld_skip 9 a.isLt (fld_skip 4 b.isLt (fld_skip 1 (by decide) (fld_skip 0 m.isLt (fld_all (by decide))))))))
  have e3 : fld N 26 1 = m.toNat := hN ▸ (fld_skip 18 (by decide) (fld_skip 13 d.isLt (fld_skip 8 a.isLt (fld_skip 3 b.isLt (fld_skip 0 (by decide) (fld_here m.isLt))))))
  have e4 : fld N 18 5 = b.toNat := hN ▸ (fld_skip 10 (by decide) (fld_skip 5 d.isLt (fld_skip 0 a.isLt (fld_here b.isLt))))
  have e5 : fld N 13 5 = a.toNat := hN ▸ (fld_skip 5 (by decide) (fld_skip 0 d.isLt (fld_here a.isLt)))
  have e6 : fld N 8 5 = d.toNat := hN ▸ (fld_skip 0 (by decide) (fld_here d.isLt))
  exact of_word (word_eq hN (by show 0x2800007f + m.toNat * 67108864 + b.toNat * 262144 + a.toNat * 8192 + d.toNat * 256 = _; omega) : encodeNat (.vins m b a d) = (N, 4)) (hN ▸ (show 0x7f + 2 ^ 8 * (d.toNat + 2 ^ 5 * (a.toNat + 2 ^ 5 * (b.toNat + 2 ^ 5 * (0x0 + 2 ^ 3 * (m.toNat + 2 ^ 1 * 0x5))))) < 2 ^ 32 from (under (m := 24) (by decide) (under (m := 19) d.isLt (under (m := 14) a.isLt (under (m := 9) b.isLt (under (m := 6) (by decide) (under (m := 5) m.isLt (by decide))))))))) (hN ▸ odd_low _ _) (read7F e0 (by simp [raw7F, bv, e1, e2, e3, e4, e5, e6]))

theorem vzip (m : BitVec 1) (b : BitVec 5) (a : BitVec 5) (d : BitVec 5) : Statement (.vzip m b a d) := by
  obtain ⟨N, hN⟩ : ∃ N, N = 0x7f + 2 ^ 8 * (d.toNat + 2 ^ 5 * (a.toNat + 2 ^ 5 * (b.toNat + 2 ^ 5 * (0x0 + 2 ^ 3 * (m.toNat + 2 ^ 1 * 0x6))))) := ⟨_, rfl⟩
  have e0 : fld N 0 8 = 127 := hN ▸ (fld_here (by decide))
  have e1 : fld N 23 3 = 0 := hN ▸ (fld_skip 15 (by decide) (fld_skip 10 d.isLt (fld_skip 5 a.isLt (fld_skip 0 b.isLt (fld_here (by decide))))))
  have e2 : fld N 27 5 = 6 := hN ▸ (fld_skip 19 (by decide) (fld_skip 14 d.isLt (fld_skip 9 a.isLt (fld_skip 4 b.isLt (fld_skip 1 (by decide) (fld_skip 0 m.isLt (fld_all (by decide))))))))
  have e3 : fld N 26 1 = m.toNat := hN ▸ (fld_skip 18 (by decide) (fld_skip 13 d.isLt (fld_skip 8 a.isLt (fld_skip 3 b.isLt (fld_skip 0 (by decide) (fld_here m.isLt))))))
  have e4 : fld N 18 5 = b.toNat := hN ▸ (fld_skip 10 (by decide) (fld_skip 5 d.isLt (fld_skip 0 a.isLt (fld_here b.isLt))))
  have e5 : fld N 13 5 = a.toNat := hN ▸ (fld_skip 5 (by decide) (fld_skip 0 d.isLt (fld_here a.isLt)))
  have e6 : fld N 8 5 = d.toNat := hN ▸ (fld_skip 0 (by decide) (fld_here d.isLt))
  exact of_word (word_eq hN (by show 0x3000007f + m.toNat * 67108864 + b.toNat * 262144 + a.toNat * 8192 + d.toNat * 256 = _; omega) : encodeNat (.vzip m b a d) = (N, 4)) (hN ▸ (show 0x7f + 2 ^ 8 * (d.toNat + 2 ^ 5 * (a.toNat + 2 ^ 5 * (b.toNat + 2 ^ 5 * (0x0 + 2 ^ 3 * (m.toNat + 2 ^ 1 * 0x6))))) < 2 ^ 32 from (under (m := 24) (by decide) (under (m := 19) d.isLt (under (m := 14) a.isLt (under (m := 9) b.isLt (under (m := 6) (by decide) (under (m := 5) m.isLt (by decide))))))))) (hN ▸ odd_low _ _) (read7F e0 (by simp [raw7F, bv, e1, e2, e3, e4, e5, e6]))

theorem vunzip (m : BitVec 1) (b : BitVec 5) (a : BitVec 5) (d : BitVec 5) : Statement (.vunzip m b a d) := by
  obtain ⟨N, hN⟩ : ∃ N, N = 0x7f + 2 ^ 8 * (d.toNat + 2 ^ 5 * (a.toNat + 2 ^ 5 * (b.toNat + 2 ^ 5 * (0x0 + 2 ^ 3 * (m.toNat + 2 ^ 1 * 0x7))))) := ⟨_, rfl⟩
  have e0 : fld N 0 8 = 127 := hN ▸ (fld_here (by decide))
  have e1 : fld N 23 3 = 0 := hN ▸ (fld_skip 15 (by decide) (fld_skip 10 d.isLt (fld_skip 5 a.isLt (fld_skip 0 b.isLt (fld_here (by decide))))))
  have e2 : fld N 27 5 = 7 := hN ▸ (fld_skip 19 (by decide) (fld_skip 14 d.isLt (fld_skip 9 a.isLt (fld_skip 4 b.isLt (fld_skip 1 (by decide) (fld_skip 0 m.isLt (fld_all (by decide))))))))
  have e3 : fld N 26 1 = m.toNat := hN ▸ (fld_skip 18 (by decide) (fld_skip 13 d.isLt (fld_skip 8 a.isLt (fld_skip 3 b.isLt (fld_skip 0 (by decide) (fld_here m.isLt))))))
  have e4 : fld N 18 5 = b.toNat := hN ▸ (fld_skip 10 (by decide) (fld_skip 5 d.isLt (fld_skip 0 a.isLt (fld_here b.isLt))))
  have e5 : fld N 13 5 = a.toNat := hN ▸ (fld_skip 5 (by decide) (fld_skip 0 d.isLt (fld_here a.isLt)))
  have e6 : fld N 8 5 = d.toNat := hN ▸ (fld_skip 0 (by decide) (fld_here d.isLt))
  exact of_word (word_eq hN (by show 0x3800007f + m.toNat * 67108864 + b.toNat * 262144 + a.toNat * 8192 + d.toNat * 256 = _; omega) : encodeNat (.vunzip m b a d) = (N, 4)) (hN ▸ (show 0x7f + 2 ^ 8 * (d.toNat + 2 ^ 5 * (a.toNat + 2 ^ 5 * (b.toNat + 2 ^ 5 * (0x0 + 2 ^ 3 * (m.toNat + 2 ^ 1 * 0x7))))) < 2 ^ 32 from (under (m := 24) (by decide) (under (m := 19) d.isLt (under (m := 14) a.isLt (under (m := 9) b.isLt (under (m := 6) (by decide) (under (m := 5) m.isLt (by decide))))))))) (hN ▸ odd_low _ _) (read7F e0 (by simp [raw7F, bv, e1, e2, e3, e4, e5, e6]))

theorem vcomp (m : BitVec 1) (a : BitVec 5) (d : BitVec 5) : Statement (.vcomp m a d) := by
  obtain ⟨N, hN⟩ : ∃ N, N = 0x7f + 2 ^ 8 * (d.toNat + 2 ^ 5 * (a.toNat + 2 ^ 5 * (0x0 + 2 ^ 8 * (m.toNat + 2 ^ 1 * 0x8)))) := ⟨_, rfl⟩
  have hm := m.isLt; have ha := a.isLt; have hd := d.isLt
  have e0 : fld N 0 8 = 127 := hN ▸ (fld_here (by decide))
  have e1 : fld N 23 3 = 0 := by subst hN; unfold fld; omega
  have e2 : fld N 27 5 = 8 := hN ▸ (fld_skip 19 (by decide) (fld_skip 14 d.isLt (fld_skip 9 a.isLt (fld_skip 1 (by decide) (fld_skip 0 m.isLt (fld_all (by decide)))))))
  have e3 : fld N 18 8 = 0 := hN ▸ (fld_skip 10 (by decide) (fld_skip 5 d.isLt (fld_skip 0 a.isLt (fld_here (by decide)))))
  have e4 : fld N 26 1 = m.toNat := hN ▸ (fld_skip 18 (by decide) (fld_skip 13 d.isLt (fld_skip 8 a.isLt (fld_skip 0 (by decide) (fld_here m.isLt)))))
  have e5 : fld N 13 5 = a.toNat := hN ▸ (fld_skip 5 (by decide) (fld_skip 0 d.isLt (fld_here a.isLt)))
  have e6 : fld N 8 5 = d.toNat := hN ▸ (fld_skip 0 (by decide) (fld_here d.isLt))
  exact of_word (word_eq hN (by show 0x4000007f + m.toNat * 67108864 + a.toNat * 8192 + d.toNat * 256 = _; omega) : encodeNat (.vcomp m a d) = (N, 4)) (hN ▸ (show 0x7f + 2 ^ 8 * (d.toNat + 2 ^ 5 * (a.toNat + 2 ^ 5 * (0x0 + 2 ^ 8 * (m.toNat + 2 ^ 1 * 0x8)))) < 2 ^ 32 from (under (m := 24) (by decide) (under (m := 19) d.isLt (under (m := 14) a.isLt (under (m := 6) (by decide) (under (m := 5) m.isLt (by decide)))))))) (hN ▸ odd_low _ _) (read7F e0 (by simp [raw7F, bv, e1, e2, e3, e4, e5, e6]))

theorem qnt (r : BitVec 2) (la : BitVec 4) (t : BitVec 5) (a : BitVec 5) (d : BitVec 5) : Statement (.qnt r la t a d) := by
  obtain ⟨N, hN⟩ : ∃ N, N = 0x81 + 2 ^ 8 * (d.toNat + 2 ^ 5 * (a.toNat + 2 ^ 5 * (t.toNat + 2 ^ 5 * (la.toNat + 2 ^ 4 * (r.toNat + 2 ^ 2 * 0x0))))) := ⟨_, rfl⟩
  have e0 : fld N 0 8 = 129 := hN ▸ (fld_here (by decide))
  have e1 : fld N 29 3 = 0 := hN ▸ (fld_skip 21 (by decide) (fld_skip 16 d.isLt (fld_skip 11 a.isLt (fld_skip 6 t.isLt (fld_skip 2 la.isLt (fld_skip 0 r.isLt (fld_all (by decide))))))))
  have e2 : fld N 27 2 = r.toNat := hN ▸ (fld_skip 19 (by decide) (fld_skip 14 d.isLt (fld_skip 9 a.isLt (fld_skip 4 t.isLt (fld_skip 0 la.isLt (fld_here r.isLt))))))
  have e3 : fld N 23 4 = la.toNat := hN ▸ (fld_skip 15 (by decide) (fld_skip 10 d.isLt (fld_skip 5 a.isLt (fld_skip 0 t.isLt (fld_here la.isLt)))))
  have e4 : fld N 18 5 = t.toNat := hN ▸ (fld_skip 10 (by decide) (fld_skip 5 d.isLt (fld_skip 0 a.isLt (fld_here t.isLt))))
  have e5 : fld N 13 5 = a.toNat := hN ▸ (fld_skip 5 (by decide) (fld_skip 0 d.isLt (fld_here a.isLt)))
  have e6 : fld N 8 5 = d.toNat := hN ▸ (fld_skip 0 (by decide) (fld_here d.isLt))
  exact of_word (word_eq hN (by show 0x81 + r.toNat * 134217728 + la.toNat * 8388608 + t.toNat * 262144 + a.toNat * 8192 + d.toNat * 256 = _; omega) : encodeNat (.qnt r la t a d) = (N, 4)) (hN ▸ (show 0x81 + 2 ^ 8 * (d.toNat + 2 ^ 5 * (a.toNat + 2 ^ 5 * (t.toNat + 2 ^ 5 * (la.toNat + 2 ^ 4 * (r.toNat + 2 ^ 2 * 0x0))))) < 2 ^ 32 from (under (m := 24) (by decide) (under (m := 19) d.isLt (under (m := 14) a.isLt (under (m := 9) t.isLt (under (m := 5) la.isLt (under (m := 3) r.isLt (by decide))))))))) (hN ▸ odd_low _ _) (read81 e0 (by simp [raw81, bv, e1, e2, e3, e4, e5, e6]))

theorem dqnt (r : BitVec 2) (la : BitVec 4) (t : BitVec 5) (a : BitVec 5) (d : BitVec 5) : Statement (.dqnt r la t a d) := by
  obtain ⟨N, hN⟩ : ∃ N, N = 0x81 + 2 ^ 8 * (d.toNat + 2 ^ 5 * (a.toNat + 2 ^ 5 * (t.toNat + 2 ^ 5 * (la.toNat + 2 ^ 4 * (r.toNat + 2 ^ 2 * 0x1))))) := ⟨_, rfl⟩
  have e0 : fld N 0 8 = 129 := hN ▸ (fld_here (by decide))
  have e1 : fld N 29 3 = 1 := hN ▸ (fld_skip 21 (by decide) (fld_skip 16 d.isLt (fld_skip 11 a.isLt (fld_skip 6 t.isLt (fld_skip 2 la.isLt (fld_skip 0 r.isLt (fld_all (by decide))))))))
  have e2 : fld N 27 2 = r.toNat := hN ▸ (fld_skip 19 (by decide) (fld_skip 14 d.isLt (fld_skip 9 a.isLt (fld_skip 4 t.isLt (fld_skip 0 la.isLt (fld_here r.isLt))))))
  have e3 : fld N 23 4 = la.toNat := hN ▸ (fld_skip 15 (by decide) (fld_skip 10 d.isLt (fld_skip 5 a.isLt (fld_skip 0 t.isLt (fld_here la.isLt)))))
  have e4 : fld N 18 5 = t.toNat := hN ▸ (fld_skip 10 (by decide) (fld_skip 5 d.isLt (fld_skip 0 a.isLt (fld_here t.isLt))))
  have e5 : fld N 13 5 = a.toNat := hN ▸ (fld_skip 5 (by decide) (fld_skip 0 d.isLt (fld_here a.isLt)))
  have e6 : fld N 8 5 = d.toNat := hN ▸ (fld_skip 0 (by decide) (fld_here d.isLt))
  exact of_word (word_eq hN (by show 0x20000081 + r.toNat * 134217728 + la.toNat * 8388608 + t.toNat * 262144 + a.toNat * 8192 + d.toNat * 256 = _; omega) : encodeNat (.dqnt r la t a d) = (N, 4)) (hN ▸ (show 0x81 + 2 ^ 8 * (d.toNat + 2 ^ 5 * (a.toNat + 2 ^ 5 * (t.toNat + 2 ^ 5 * (la.toNat + 2 ^ 4 * (r.toNat + 2 ^ 2 * 0x1))))) < 2 ^ 32 from (under (m := 24) (by decide) (under (m := 19) d.isLt (under (m := 14) a.isLt (under (m := 9) t.isLt (under (m := 5) la.isLt (under (m := 3) r.isLt (by decide))))))))) (hN ▸ odd_low _ _) (read81 e0 (by simp [raw81, bv, e1, e2, e3, e4, e5, e6]))

theorem vld (m : BitVec 1) (la : BitVec 4) (b : BitVec 5) (a : BitVec 5) (d : BitVec 5) : Statement (.vld m la b a d) := by
  obtain ⟨N, hN⟩ : ∃ N, N = 0x83 + 2 ^ 8 * (d.toNat + 2 ^ 5 * (a.toNat + 2 ^ 5 * (b.toNat + 2 ^ 5 * (la.toNat + 2 ^ 4 * (0x0 + 2 ^ 4 * m.toNat))))) := ⟨_, rfl⟩
  have e0 : fld N 0 8 = 131 := hN ▸ (fld_here (by decide))
  have e1 : fld N 27 4 = 0 := hN ▸ (fld_skip 19 (by decide) (fld_skip 14 d.isLt (fld_skip 9 a.isLt (fld_skip 4 b.isLt (fld_skip 0 la.isLt (fld_here (by decide)))))))
  have e2 : fld N 31 1 = m.toNat := hN ▸ (fld_skip 23 (by decide) (fld_skip 18 d.isLt (fld_skip 13 a.isLt (fld_skip 8 b.isLt (fld_skip 4 la.isLt (fld_skip 0 (by decide) (fld_all m.isLt)))))))
  have e3 : fld N 23 4 = la.toNat := hN ▸ (fld_skip 15 (by decide) (fld_skip 10 d.isLt (fld_skip 5 a.isLt (fld_skip 0 b.isLt (fld_here la.isLt)))))
  have e4 : fld N 18 5 = b.toNat := hN ▸ (fld_skip 10 (by decide) (fld_skip 5 d.isLt (fld_skip 0 a.isLt (fld_here b.isLt))))
  have e5 : fld N 13 5 = a.toNat := hN ▸ (fld_skip 5 (by decide) (fld_skip 0 d.isLt (fld_here a.isLt)))
  have e6 : fld N 8 5 = d.toNat := hN ▸ (fld_skip 0 (by decide) (fld_here d.isLt))
  exact of_word (word_eq hN (by show 0x83 + m.toNat * 2147483648 + la.toNat * 8388608 + b.toNat * 262144 + a.toNat * 8192 + d.toNat * 256 = _; omega) : encodeNat (.vld m la b a d) = (N, 4)) (hN ▸ (show 0x83 + 2 ^ 8 * (d.toNat + 2 ^ 5 * (a.toNat + 2 ^ 5 * (b.toNat + 2 ^ 5 * (la.toNat + 2 ^ 4 * (0x0 + 2 ^ 4 * m.toNat))))) < 2 ^ 32 from (under (m := 24) (by decide) (under (m := 19) d.isLt (under (m := 14) a.isLt (under (m := 9) b.isLt (under (m := 5) la.isLt (under (m := 1) (by decide) m.isLt)))))))) (hN ▸ odd_low _ _) (read83 e0 (by simp [raw83, bv, e1, e2, e3, e4, e5, e6]))

theorem vst (m : BitVec 1) (la : BitVec 4) (b : BitVec 5) (a : BitVec 5) (d : BitVec 5) : Statement (.vst m la b a d) := by
  obtain ⟨N, hN⟩ : ∃ N, N = 0x83 + 2 ^ 8 * (d.toNat + 2 ^ 5 * (a.toNat + 2 ^ 5 * (b.toNat + 2 ^ 5 * (la.toNat + 2 ^ 4 * (0x1 + 2 ^ 4 * m.toNat))))) := ⟨_, rfl⟩
  have e0 : fld N 0 8 = 131 := hN ▸ (fld_here (by decide))
  have e1 : fld N 27 4 = 1 := hN ▸ (fld_skip 19 (by decide) (fld_skip 14 d.isLt (fld_skip 9 a.isLt (fld_skip 4 b.isLt (fld_skip 0 la.isLt (fld_here (by decide)))))))
  have e2 : fld N 31 1 = m.toNat := hN ▸ (fld_skip 23 (by decide) (fld_skip 18 d.isLt (fld_skip 13 a.isLt (fld_skip 8 b.isLt (fld_skip 4 la.isLt (fld_skip 0 (by decide) (fld_all m.isLt)))))))
  have e3 : fld N 23 4 = la.toNat := hN ▸ (fld_skip 15 (by decide) (fld_skip 10 d.isLt (fld_skip 5 a.isLt (fld_skip 0 b.isLt (fld_here la.isLt)))))
  have e4 : fld N 18 5 = b.toNat := hN ▸ (fld_skip 10 (by decide) (fld_skip 5 d.isLt (fld_skip 0 a.isLt (fld_here b.isLt))))
  have e5 : fld N 13 5 = a.toNat := hN ▸ (fld_skip 5 (by decide) (fld_skip 0 d.isLt (fld_here a.isLt)))
  have e6 : fld N 8 5 = d.toNat := hN ▸ (fld_skip 0 (by decide) (fld_here d.isLt))
  exact of_word (word_eq hN (by show 0x8000083 + m.toNat * 2147483648 + la.toNat * 8388608 + b.toNat * 262144 + a.toNat * 8192 + d.toNat * 256 = _; omega) : encodeNat (.vst m la b a d) = (N, 4)) (hN ▸ (show 0x83 + 2 ^ 8 * (d.toNat + 2 ^ 5 * (a.toNat + 2 ^ 5 * (b.toNat + 2 ^ 5 * (la.toNat + 2 ^ 4 * (0x1 + 2 ^ 4 * m.toNat))))) < 2 ^ 32 from (under (m := 24) (by decide) (under (m := 19) d.isLt (under (m := 14) a.isLt (under (m := 9) b.isLt (under (m := 5) la.isLt (under (m := 1) (by decide) m.isLt)))))))) (hN ▸ odd_low _ _) (read83 e0 (by simp [raw83, bv, e1, e2, e3, e4, e5, e6]))

theorem vlds (m : BitVec 1) (la : BitVec 4) (b : BitVec 5) (a : BitVec 5) (d : BitVec 5) : Statement (.vlds m la b a d) := by
  obtain ⟨N, hN⟩ : ∃ N, N = 0x83 + 2 ^ 8 * (d.toNat + 2 ^ 5 * (a.toNat + 2 ^ 5 * (b.toNat + 2 ^ 5 * (la.toNat + 2 ^ 4 * (0x2 + 2 ^ 4 * m.toNat))))) := ⟨_, rfl⟩
  have e0 : fld N 0 8 = 131 := hN ▸ (fld_here (by decide))
  have e1 : fld N 27 4 = 2 := hN ▸ (fld_skip 19 (by decide) (fld_skip 14 d.isLt (fld_skip 9 a.isLt (fld_skip 4 b.isLt (fld_skip 0 la.isLt (fld_here (by decide)))))))
  have e2 : fld N 31 1 = m.toNat := hN ▸ (fld_skip 23 (by decide) (fld_skip 18 d.isLt (fld_skip 13 a.isLt (fld_skip 8 b.isLt (fld_skip 4 la.isLt (fld_skip 0 (by decide) (fld_all m.isLt)))))))
  have e3 : fld N 23 4 = la.toNat := hN ▸ (fld_skip 15 (by decide) (fld_skip 10 d.isLt (fld_skip 5 a.isLt (fld_skip 0 b.isLt (fld_here la.isLt)))))
  have e4 : fld N 18 5 = b.toNat := hN ▸ (fld_skip 10 (by decide) (fld_skip 5 d.isLt (fld_skip 0 a.isLt (fld_here b.isLt))))
  have e5 : fld N 13 5 = a.toNat := hN ▸ (fld_skip 5 (by decide) (fld_skip 0 d.isLt (fld_here a.isLt)))
  have e6 : fld N 8 5 = d.toNat := hN ▸ (fld_skip 0 (by decide) (fld_here d.isLt))
  exact of_word (word_eq hN (by show 0x10000083 + m.toNat * 2147483648 + la.toNat * 8388608 + b.toNat * 262144 + a.toNat * 8192 + d.toNat * 256 = _; omega) : encodeNat (.vlds m la b a d) = (N, 4)) (hN ▸ (show 0x83 + 2 ^ 8 * (d.toNat + 2 ^ 5 * (a.toNat + 2 ^ 5 * (b.toNat + 2 ^ 5 * (la.toNat + 2 ^ 4 * (0x2 + 2 ^ 4 * m.toNat))))) < 2 ^ 32 from (under (m := 24) (by decide) (under (m := 19) d.isLt (under (m := 14) a.isLt (under (m := 9) b.isLt (under (m := 5) la.isLt (under (m := 1) (by decide) m.isLt)))))))) (hN ▸ odd_low _ _) (read83 e0 (by simp [raw83, bv, e1, e2, e3, e4, e5, e6]))

theorem vsts (m : BitVec 1) (la : BitVec 4) (b : BitVec 5) (a : BitVec 5) (d : BitVec 5) : Statement (.vsts m la b a d) := by
  obtain ⟨N, hN⟩ : ∃ N, N = 0x83 + 2 ^ 8 * (d.toNat + 2 ^ 5 * (a.toNat + 2 ^ 5 * (b.toNat + 2 ^ 5 * (la.toNat + 2 ^ 4 * (0x3 + 2 ^ 4 * m.toNat))))) := ⟨_, rfl⟩
  have e0 : fld N 0 8 = 131 := hN ▸ (fld_here (by decide))
  have e1 : fld N 27 4 = 3 := hN ▸ (fld_skip 19 (by decide) (fld_skip 14 d.isLt (fld_skip 9 a.isLt (fld_skip 4 b.isLt (fld_skip 0 la.isLt (fld_here (by decide)))))))
  have e2 : fld N 31 1 = m.toNat := hN ▸ (fld_skip 23 (by decide) (fld_skip 18 d.isLt (fld_skip 13 a.isLt (fld_skip 8 b.isLt (fld_skip 4 la.isLt (fld_skip 0 (by decide) (fld_all m.isLt)))))))
  have e3 : fld N 23 4 = la.toNat := hN ▸ (fld_skip 15 (by decide) (fld_skip 10 d.isLt (fld_skip 5 a.isLt (fld_skip 0 b.isLt (fld_here la.isLt)))))
  have e4 : fld N 18 5 = b.toNat := hN ▸ (fld_skip 10 (by decide) (fld_skip 5 d.isLt (fld_skip 0 a.isLt (fld_here b.isLt))))
  have e5 : fld N 13 5 = a.toNat := hN ▸ (fld_skip 5 (by decide) (fld_skip 0 d.isLt (fld_here a.isLt)))
  have e6 : fld N 8 5 = d.toNat := hN ▸ (fld_skip 0 (by decide) (fld_here d.isLt))
  exact of_word (word_eq hN (by show 0x18000083 + m.toNat * 2147483648 + la.toNat * 8388608 + b.toNat * 262144 + a.toNat * 8192 + d.toNat * 256 = _; omega) : encodeNat (.vsts m la b a d) = (N, 4)) (hN ▸ (show 0x83 + 2 ^ 8 * (d.toNat + 2 ^ 5 * (a.toNat + 2 ^ 5 * (b.toNat + 2 ^ 5 * (la.toNat + 2 ^ 4 * (0x3 + 2 ^ 4 * m.toNat))))) < 2 ^ 32 from (under (m := 24) (by decide) (under (m := 19) d.isLt (under (m := 14) a.isLt (under (m := 9) b.isLt (under (m := 5) la.isLt (under (m := 1) (by decide) m.isLt)))))))) (hN ▸ odd_low _ _) (read83 e0 (by simp [raw83, bv, e1, e2, e3, e4, e5, e6]))

theorem vldx (m : BitVec 1) (la : BitVec 4) (b : BitVec 5) (a : BitVec 5) (d : BitVec 5) : Statement (.vldx m la b a d) := by
  obtain ⟨N, hN⟩ : ∃ N, N = 0x83 + 2 ^ 8 * (d.toNat + 2 ^ 5 * (a.toNat + 2 ^ 5 * (b.toNat + 2 ^ 5 * (la.toNat + 2 ^ 4 * (0x4 + 2 ^ 4 * m.toNat))))) := ⟨_, rfl⟩
  have e0 : fld N 0 8 = 131 := hN ▸ (fld_here (by decide))
  have e1 : fld N 27 4 = 4 := hN ▸ (fld_skip 19 (by decide) (fld_skip 14 d.isLt (fld_skip 9 a.isLt (fld_skip 4 b.isLt (fld_skip 0 la.isLt (fld_here (by decide)))))))
  have e2 : fld N 31 1 = m.toNat := hN ▸ (fld_skip 23 (by decide) (fld_skip 18 d.isLt (fld_skip 13 a.isLt (fld_skip 8 b.isLt (fld_skip 4 la.isLt (fld_skip 0 (by decide) (fld_all m.isLt)))))))
  have e3 : fld N 23 4 = la.toNat := hN ▸ (fld_skip 15 (by decide) (fld_skip 10 d.isLt (fld_skip 5 a.isLt (fld_skip 0 b.isLt (fld_here la.isLt)))))
  have e4 : fld N 18 5 = b.toNat := hN ▸ (fld_skip 10 (by decide) (fld_skip 5 d.isLt (fld_skip 0 a.isLt (fld_here b.isLt))))
  have e5 : fld N 13 5 = a.toNat := hN ▸ (fld_skip 5 (by decide) (fld_skip 0 d.isLt (fld_here a.isLt)))
  have e6 : fld N 8 5 = d.toNat := hN ▸ (fld_skip 0 (by decide) (fld_here d.isLt))
  exact of_word (word_eq hN (by show 0x20000083 + m.toNat * 2147483648 + la.toNat * 8388608 + b.toNat * 262144 + a.toNat * 8192 + d.toNat * 256 = _; omega) : encodeNat (.vldx m la b a d) = (N, 4)) (hN ▸ (show 0x83 + 2 ^ 8 * (d.toNat + 2 ^ 5 * (a.toNat + 2 ^ 5 * (b.toNat + 2 ^ 5 * (la.toNat + 2 ^ 4 * (0x4 + 2 ^ 4 * m.toNat))))) < 2 ^ 32 from (under (m := 24) (by decide) (under (m := 19) d.isLt (under (m := 14) a.isLt (under (m := 9) b.isLt (under (m := 5) la.isLt (under (m := 1) (by decide) m.isLt)))))))) (hN ▸ odd_low _ _) (read83 e0 (by simp [raw83, bv, e1, e2, e3, e4, e5, e6]))

theorem vstx (m : BitVec 1) (la : BitVec 4) (b : BitVec 5) (a : BitVec 5) (d : BitVec 5) : Statement (.vstx m la b a d) := by
  obtain ⟨N, hN⟩ : ∃ N, N = 0x83 + 2 ^ 8 * (d.toNat + 2 ^ 5 * (a.toNat + 2 ^ 5 * (b.toNat + 2 ^ 5 * (la.toNat + 2 ^ 4 * (0x5 + 2 ^ 4 * m.toNat))))) := ⟨_, rfl⟩
  have e0 : fld N 0 8 = 131 := hN ▸ (fld_here (by decide))
  have e1 : fld N 27 4 = 5 := hN ▸ (fld_skip 19 (by decide) (fld_skip 14 d.isLt (fld_skip 9 a.isLt (fld_skip 4 b.isLt (fld_skip 0 la.isLt (fld_here (by decide)))))))
  have e2 : fld N 31 1 = m.toNat := hN ▸ (fld_skip 23 (by decide) (fld_skip 18 d.isLt (fld_skip 13 a.isLt (fld_skip 8 b.isLt (fld_skip 4 la.isLt (fld_skip 0 (by decide) (fld_all m.isLt)))))))
  have e3 : fld N 23 4 = la.toNat := hN ▸ (fld_skip 15 (by decide) (fld_skip 10 d.isLt (fld_skip 5 a.isLt (fld_skip 0 b.isLt (fld_here la.isLt)))))
  have e4 : fld N 18 5 = b.toNat := hN ▸ (fld_skip 10 (by decide) (fld_skip 5 d.isLt (fld_skip 0 a.isLt (fld_here b.isLt))))
  have e5 : fld N 13 5 = a.toNat := hN ▸ (fld_skip 5 (by decide) (fld_skip 0 d.isLt (fld_here a.isLt)))
  have e6 : fld N 8 5 = d.toNat := hN ▸ (fld_skip 0 (by decide) (fld_here d.isLt))
  exact of_word (word_eq hN (by show 0x28000083 + m.toNat * 2147483648 + la.toNat * 8388608 + b.toNat * 262144 + a.toNat * 8192 + d.toNat * 256 = _; omega) : encodeNat (.vstx m la b a d) = (N, 4)) (hN ▸ (show 0x83 + 2 ^ 8 * (d.toNat + 2 ^ 5 * (a.toNat + 2 ^ 5 * (b.toNat + 2 ^ 5 * (la.toNat + 2 ^ 4 * (0x5 + 2 ^ 4 * m.toNat))))) < 2 ^ 32 from (under (m := 24) (by decide) (under (m := 19) d.isLt (under (m := 14) a.isLt (under (m := 9) b.isLt (under (m := 5) la.isLt (under (m := 1) (by decide) m.isLt)))))))) (hN ▸ odd_low _ _) (read83 e0 (by simp [raw83, bv, e1, e2, e3, e4, e5, e6]))

theorem vldf (m : BitVec 1) (la : BitVec 4) (b : BitVec 5) (a : BitVec 5) (d : BitVec 5) : Statement (.vldf m la b a d) := by
  obtain ⟨N, hN⟩ : ∃ N, N = 0x83 + 2 ^ 8 * (d.toNat + 2 ^ 5 * (a.toNat + 2 ^ 5 * (b.toNat + 2 ^ 5 * (la.toNat + 2 ^ 4 * (0x6 + 2 ^ 4 * m.toNat))))) := ⟨_, rfl⟩
  have e0 : fld N 0 8 = 131 := hN ▸ (fld_here (by decide))
  have e1 : fld N 27 4 = 6 := hN ▸ (fld_skip 19 (by decide) (fld_skip 14 d.isLt (fld_skip 9 a.isLt (fld_skip 4 b.isLt (fld_skip 0 la.isLt (fld_here (by decide)))))))
  have e2 : fld N 31 1 = m.toNat := hN ▸ (fld_skip 23 (by decide) (fld_skip 18 d.isLt (fld_skip 13 a.isLt (fld_skip 8 b.isLt (fld_skip 4 la.isLt (fld_skip 0 (by decide) (fld_all m.isLt)))))))
  have e3 : fld N 23 4 = la.toNat := hN ▸ (fld_skip 15 (by decide) (fld_skip 10 d.isLt (fld_skip 5 a.isLt (fld_skip 0 b.isLt (fld_here la.isLt)))))
  have e4 : fld N 18 5 = b.toNat := hN ▸ (fld_skip 10 (by decide) (fld_skip 5 d.isLt (fld_skip 0 a.isLt (fld_here b.isLt))))
  have e5 : fld N 13 5 = a.toNat := hN ▸ (fld_skip 5 (by decide) (fld_skip 0 d.isLt (fld_here a.isLt)))
  have e6 : fld N 8 5 = d.toNat := hN ▸ (fld_skip 0 (by decide) (fld_here d.isLt))
  exact of_word (word_eq hN (by show 0x30000083 + m.toNat * 2147483648 + la.toNat * 8388608 + b.toNat * 262144 + a.toNat * 8192 + d.toNat * 256 = _; omega) : encodeNat (.vldf m la b a d) = (N, 4)) (hN ▸ (show 0x83 + 2 ^ 8 * (d.toNat + 2 ^ 5 * (a.toNat + 2 ^ 5 * (b.toNat + 2 ^ 5 * (la.toNat + 2 ^ 4 * (0x6 + 2 ^ 4 * m.toNat))))) < 2 ^ 32 from (under (m := 24) (by decide) (under (m := 19) d.isLt (under (m := 14) a.isLt (under (m := 9) b.isLt (under (m := 5) la.isLt (under (m := 1) (by decide) m.isLt)))))))) (hN ▸ odd_low _ _) (read83 e0 (by simp [raw83, bv, e1, e2, e3, e4, e5, e6]))

theorem vstf (m : BitVec 1) (la : BitVec 4) (b : BitVec 5) (a : BitVec 5) (d : BitVec 5) : Statement (.vstf m la b a d) := by
  obtain ⟨N, hN⟩ : ∃ N, N = 0x83 + 2 ^ 8 * (d.toNat + 2 ^ 5 * (a.toNat + 2 ^ 5 * (b.toNat + 2 ^ 5 * (la.toNat + 2 ^ 4 * (0x7 + 2 ^ 4 * m.toNat))))) := ⟨_, rfl⟩
  have e0 : fld N 0 8 = 131 := hN ▸ (fld_here (by decide))
  have e1 : fld N 27 4 = 7 := hN ▸ (fld_skip 19 (by decide) (fld_skip 14 d.isLt (fld_skip 9 a.isLt (fld_skip 4 b.isLt (fld_skip 0 la.isLt (fld_here (by decide)))))))
  have e2 : fld N 31 1 = m.toNat := hN ▸ (fld_skip 23 (by decide) (fld_skip 18 d.isLt (fld_skip 13 a.isLt (fld_skip 8 b.isLt (fld_skip 4 la.isLt (fld_skip 0 (by decide) (fld_all m.isLt)))))))
  have e3 : fld N 23 4 = la.toNat := hN ▸ (fld_skip 15 (by decide) (fld_skip 10 d.isLt (fld_skip 5 a.isLt (fld_skip 0 b.isLt (fld_here la.isLt)))))
  have e4 : fld N 18 5 = b.toNat := hN ▸ (fld_skip 10 (by decide) (fld_skip 5 d.isLt (fld_skip 0 a.isLt (fld_here b.isLt))))
  have e5 : fld N 13 5 = a.toNat := hN ▸ (fld_skip 5 (by decide) (fld_skip 0 d.isLt (fld_here a.isLt)))
  have e6 : fld N 8 5 = d.toNat := hN ▸ (fld_skip 0 (by decide) (fld_here d.isLt))
  exact of_word (word_eq hN (by show 0x38000083 + m.toNat * 2147483648 + la.toNat * 8388608 + b.toNat * 262144 + a.toNat * 8192 + d.toNat * 256 = _; omega) : encodeNat (.vstf m la b a d) = (N, 4)) (hN ▸ (show 0x83 + 2 ^ 8 * (d.toNat + 2 ^ 5 * (a.toNat + 2 ^ 5 * (b.toNat + 2 ^ 5 * (la.toNat + 2 ^ 4 * (0x7 + 2 ^ 4 * m.toNat))))) < 2 ^ 32 from (under (m := 24) (by decide) (under (m := 19) d.isLt (under (m := 14) a.isLt (under (m := 9) b.isLt (under (m := 5) la.isLt (under (m := 1) (by decide) m.isLt)))))))) (hN ▸ odd_low _ _) (read83 e0 (by simp [raw83, bv, e1, e2, e3, e4, e5, e6]))

theorem vldPost (m : BitVec 1) (la : BitVec 4) (a : BitVec 5) (d : BitVec 5) : Statement (.vldPost m la a d) := by
  obtain ⟨N, hN⟩ : ∃ N, N = 0x83 + 2 ^ 8 * (d.toNat + 2 ^ 5 * (a.toNat + 2 ^ 5 * (0x1c + 2 ^ 5 * (la.toNat + 2 ^ 4 * (0x8 + 2 ^ 4 * m.toNat))))) := ⟨_, rfl⟩
  have e0 : fld N 0 8 = 131 := hN ▸ (fld_here (by decide))
  have e1 : fld N 27 4 = 8 := hN ▸ (fld_skip 19 (by decide) (fld_skip 14 d.isLt (fld_skip 9 a.isLt (fld_skip 4 (by decide) (fld_skip 0 la.isLt (fld_here (by decide)))))))
  have e2 : fld N 18 5 = 28 := hN ▸ (fld_skip 10 (by decide) (fld_skip 5 d.isLt (fld_skip 0 a.isLt (fld_here (by decide)))))
  have e3 : fld N 31 1 = m.toNat := hN ▸ (fld_skip 23 (by decide) (fld_skip 18 d.isLt (fld_skip 13 a.isLt (fld_skip 8 (by decide) (fld_skip 4 la.isLt (fld_skip 0 (by decide) (fld_all m.isLt)))))))
  have e4 : fld N 23 4 = la.toNat := hN ▸ (fld_skip 15 (by decide) (fld_skip 10 d.isLt (fld_skip 5 a.isLt (fld_skip 0 (by decide) (fld_here la.isLt)))))
  have e5 : fld N 13 5 = a.toNat := hN ▸ (fld_skip 5 (by decide) (fld_skip 0 d.isLt (fld_here a.isLt)))
  have e6 : fld N 8 5 = d.toNat := hN ▸ (fld_skip 0 (by decide) (fld_here d.isLt))
  exact of_word (word_eq hN (by show 0x40700083 + m.toNat * 2147483648 + la.toNat * 8388608 + a.toNat * 8192 + d.toNat * 256 = _; omega) : encodeNat (.vldPost m la a d) = (N, 4)) (hN ▸ (show 0x83 + 2 ^ 8 * (d.toNat + 2 ^ 5 * (a.toNat + 2 ^ 5 * (0x1c + 2 ^ 5 * (la.toNat + 2 ^ 4 * (0x8 + 2 ^ 4 * m.toNat))))) < 2 ^ 32 from (under (m := 24) (by decide) (under (m := 19) d.isLt (under (m := 14) a.isLt (under (m := 9) (by decide) (under (m := 5) la.isLt (under (m := 1) (by decide) m.isLt)))))))) (hN ▸ odd_low _ _) (read83 e0 (by simp [raw83, bv, e1, e2, e3, e4, e5, e6]))

theorem vstPost (m : BitVec 1) (la : BitVec 4) (a : BitVec 5) (d : BitVec 5) : Statement (.vstPost m la a d) := by
  obtain ⟨N, hN⟩ : ∃ N, N = 0x83 + 2 ^ 8 * (d.toNat + 2 ^ 5 * (a.toNat + 2 ^ 5 * (0x1c + 2 ^ 5 * (la.toNat + 2 ^ 4 * (0x9 + 2 ^ 4 * m.toNat))))) := ⟨_, rfl⟩
  have e0 : fld N 0 8 = 131 := hN ▸ (fld_here (by decide))
  have e1 : fld N 27 4 = 9 := hN ▸ (fld_skip 19 (by decide) (fld_skip 14 d.isLt (fld_skip 9 a.isLt (fld_skip 4 (by decide) (fld_skip 0 la.isLt (fld_here (by decide)))))))
  have e2 : fld N 18 5 = 28 := hN ▸ (fld_skip 10 (by decide) (fld_skip 5 d.isLt (fld_skip 0 a.isLt (fld_here (by decide)))))
  have e3 : fld N 31 1 = m.toNat := hN ▸ (fld_skip 23 (by decide) (fld_skip 18 d.isLt (fld_skip 13 a.isLt (fld_skip 8 (by decide) (fld_skip 4 la.isLt (fld_skip 0 (by decide) (fld_all m.isLt)))))))
  have e4 : fld N 23 4 = la.toNat := hN ▸ (fld_skip 15 (by decide) (fld_skip 10 d.isLt (fld_skip 5 a.isLt (fld_skip 0 (by decide) (fld_here la.isLt)))))
  have e5 : fld N 13 5 = a.toNat := hN ▸ (fld_skip 5 (by decide) (fld_skip 0 d.isLt (fld_here a.isLt)))
  have e6 : fld N 8 5 = d.toNat := hN ▸ (fld_skip 0 (by decide) (fld_here d.isLt))
  exact of_word (word_eq hN (by show 0x48700083 + m.toNat * 2147483648 + la.toNat * 8388608 + a.toNat * 8192 + d.toNat * 256 = _; omega) : encodeNat (.vstPost m la a d) = (N, 4)) (hN ▸ (show 0x83 + 2 ^ 8 * (d.toNat + 2 ^ 5 * (a.toNat + 2 ^ 5 * (0x1c + 2 ^ 5 * (la.toNat + 2 ^ 4 * (0x9 + 2 ^ 4 * m.toNat))))) < 2 ^ 32 from (under (m := 24) (by decide) (under (m := 19) d.isLt (under (m := 14) a.isLt (under (m := 9) (by decide) (under (m := 5) la.isLt (under (m := 1) (by decide) m.isLt)))))))) (hN ▸ odd_low _ _) (read83 e0 (by simp [raw83, bv, e1, e2, e3, e4, e5, e6]))

theorem vldfPost (m : BitVec 1) (la : BitVec 4) (b : BitVec 5) (a : BitVec 5) (d : BitVec 5) : Statement (.vldfPost m la b a d) := by
  obtain ⟨N, hN⟩ : ∃ N, N = 0x83 + 2 ^ 8 * (d.toNat + 2 ^ 5 * (a.toNat + 2 ^ 5 * (b.toNat + 2 ^ 5 * (la.toNat + 2 ^ 4 * (0xe + 2 ^ 4 * m.toNat))))) := ⟨_, rfl⟩
  have e0 : fld N 0 8 = 131 := hN ▸ (fld_here (by decide))
  have e1 : fld N 27 4 = 14 := hN ▸ (fld_skip 19 (by decide) (fld_skip 14 d.isLt (fld_skip 9 a.isLt (fld_skip 4 b.isLt (fld_skip 0 la.isLt (fld_here (by decide)))))))
  have e2 : fld N 31 1 = m.toNat := hN ▸ (fld_skip 23 (by decide) (fld_skip 18 d.isLt (fld_skip 13 a.isLt (fld_skip 8 b.isLt (fld_skip 4 la.isLt (fld_skip 0 (by decide) (fld_all m.isLt)))))))
  have e3 : fld N 23 4 = la.toNat := hN ▸ (fld_skip 15 (by decide) (fld_skip 10 d.isLt (fld_skip 5 a.isLt (fld_skip 0 b.isLt (fld_here la.isLt)))))
  have e4 : fld N 18 5 = b.toNat := hN ▸ (fld_skip 10 (by decide) (fld_skip 5 d.isLt (fld_skip 0 a.isLt (fld_here b.isLt))))
  have e5 : fld N 13 5 = a.toNat := hN ▸ (fld_skip 5 (by decide) (fld_skip 0 d.isLt (fld_here a.isLt)))
  have e6 : fld N 8 5 = d.toNat := hN ▸ (fld_skip 0 (by decide) (fld_here d.isLt))
  exact of_word (word_eq hN (by show 0x70000083 + m.toNat * 2147483648 + la.toNat * 8388608 + b.toNat * 262144 + a.toNat * 8192 + d.toNat * 256 = _; omega) : encodeNat (.vldfPost m la b a d) = (N, 4)) (hN ▸ (show 0x83 + 2 ^ 8 * (d.toNat + 2 ^ 5 * (a.toNat + 2 ^ 5 * (b.toNat + 2 ^ 5 * (la.toNat + 2 ^ 4 * (0xe + 2 ^ 4 * m.toNat))))) < 2 ^ 32 from (under (m := 24) (by decide) (under (m := 19) d.isLt (under (m := 14) a.isLt (under (m := 9) b.isLt (under (m := 5) la.isLt (under (m := 1) (by decide) m.isLt)))))))) (hN ▸ odd_low _ _) (read83 e0 (by simp [raw83, bv, e1, e2, e3, e4, e5, e6]))

theorem vstfPost (m : BitVec 1) (la : BitVec 4) (b : BitVec 5) (a : BitVec 5) (d : BitVec 5) : Statement (.vstfPost m la b a d) := by
  obtain ⟨N, hN⟩ : ∃ N, N = 0x83 + 2 ^ 8 * (d.toNat + 2 ^ 5 * (a.toNat + 2 ^ 5 * (b.toNat + 2 ^ 5 * (la.toNat + 2 ^ 4 * (0xf + 2 ^ 4 * m.toNat))))) := ⟨_, rfl⟩
  have e0 : fld N 0 8 = 131 := hN ▸ (fld_here (by decide))
  have e1 : fld N 27 4 = 15 := hN ▸ (fld_skip 19 (by decide) (fld_skip 14 d.isLt (fld_skip 9 a.isLt (fld_skip 4 b.isLt (fld_skip 0 la.isLt (fld_here (by decide)))))))
  have e2 : fld N 31 1 = m.toNat := hN ▸ (fld_skip 23 (by decide) (fld_skip 18 d.isLt (fld_skip 13 a.isLt (fld_skip 8 b.isLt (fld_skip 4 la.isLt (fld_skip 0 (by decide) (fld_all m.isLt)))))))
  have e3 : fld N 23 4 = la.toNat := hN ▸ (fld_skip 15 (by decide) (fld_skip 10 d.isLt (fld_skip 5 a.isLt (fld_skip 0 b.isLt (fld_here la.isLt)))))
  have e4 : fld N 18 5 = b.toNat := hN ▸ (fld_skip 10 (by decide) (fld_skip 5 d.isLt (fld_skip 0 a.isLt (fld_here b.isLt))))
  have e5 : fld N 13 5 = a.toNat := hN ▸ (fld_skip 5 (by decide) (fld_skip 0 d.isLt (fld_here a.isLt)))
  have e6 : fld N 8 5 = d.toNat := hN ▸ (fld_skip 0 (by decide) (fld_here d.isLt))
  exact of_word (word_eq hN (by show 0x78000083 + m.toNat * 2147483648 + la.toNat * 8388608 + b.toNat * 262144 + a.toNat * 8192 + d.toNat * 256 = _; omega) : encodeNat (.vstfPost m la b a d) = (N, 4)) (hN ▸ (show 0x83 + 2 ^ 8 * (d.toNat + 2 ^ 5 * (a.toNat + 2 ^ 5 * (b.toNat + 2 ^ 5 * (la.toNat + 2 ^ 4 * (0xf + 2 ^ 4 * m.toNat))))) < 2 ^ 32 from (under (m := 24) (by decide) (under (m := 19) d.isLt (under (m := 14) a.isLt (under (m := 9) b.isLt (under (m := 5) la.isLt (under (m := 1) (by decide) m.isLt)))))))) (hN ▸ odd_low _ _) (read83 e0 (by simp [raw83, bv, e1, e2, e3, e4, e5, e6]))

theorem sbind (a : BitVec 5) (d : BitVec 5) : Statement (.sbind a d) := by
  obtain ⟨N, hN⟩ : ∃ N, N = 0x85 + 2 ^ 8 * (d.toNat + 2 ^ 5 * (a.toNat + 2 ^ 5 * 0x0)) := ⟨_, rfl⟩
  have e0 : fld N 0 8 = 133 := hN ▸ (fld_here (by decide))
  have e1 : fld N 18 14 = 0 := hN ▸ (fld_skip 10 (by decide) (fld_skip 5 d.isLt (fld_skip 0 a.isLt (fld_all (by decide)))))
  have e2 : fld N 13 5 = a.toNat := hN ▸ (fld_skip 5 (by decide) (fld_skip 0 d.isLt (fld_here a.isLt)))
  have e3 : fld N 8 5 = d.toNat := hN ▸ (fld_skip 0 (by decide) (fld_here d.isLt))
  exact of_word (word_eq hN (by show 0x85 + a.toNat * 8192 + d.toNat * 256 = _; omega) : encodeNat (.sbind a d) = (N, 4)) (hN ▸ (show 0x85 + 2 ^ 8 * (d.toNat + 2 ^ 5 * (a.toNat + 2 ^ 5 * 0x0)) < 2 ^ 32 from (under (m := 24) (by decide) (under (m := 19) d.isLt (under (m := 14) a.isLt (by decide)))))) (hN ▸ odd_low _ _) (read85 e0 (by simp [raw85, bv, e1, e2, e3]))

theorem qbind (b : BitVec 5) (d : BitVec 5) : Statement (.qbind b d) := by
  obtain ⟨N, hN⟩ : ∃ N, N = 0x85 + 2 ^ 8 * (d.toNat + 2 ^ 5 * (0x0 + 2 ^ 5 * (b.toNat + 2 ^ 5 * 0x10))) := ⟨_, rfl⟩
  have hb := b.isLt; have hd := d.isLt
  have e0 : fld N 0 8 = 133 := hN ▸ (fld_here (by decide))
  have e1 : fld N 13 5 = 0 := hN ▸ (fld_skip 5 (by decide) (fld_skip 0 d.isLt (fld_here (by decide))))
  have e2 : fld N 23 9 = 16 := hN ▸ (fld_skip 15 (by decide) (fld_skip 10 d.isLt (fld_skip 5 (by decide) (fld_skip 0 b.isLt (fld_all (by decide))))))
  have e3 : fld N 18 14 ≠ 0 := by subst hN; unfold fld; omega
  have e4 : fld N 18 5 = b.toNat := hN ▸ (fld_skip 10 (by decide) (fld_skip 5 d.isLt (fld_skip 0 (by decide) (fld_here b.isLt))))
  have e5 : fld N 8 5 = d.toNat := hN ▸ (fld_skip 0 (by decide) (fld_here d.isLt))
  exact of_word (word_eq hN (by show 0x8000085 + b.toNat * 262144 + d.toNat * 256 = _; omega) : encodeNat (.qbind b d) = (N, 4)) (hN ▸ (show 0x85 + 2 ^ 8 * (d.toNat + 2 ^ 5 * (0x0 + 2 ^ 5 * (b.toNat + 2 ^ 5 * 0x10))) < 2 ^ 32 from (under (m := 24) (by decide) (under (m := 19) d.isLt (under (m := 14) (by decide) (under (m := 9) b.isLt (by decide))))))) (hN ▸ odd_low _ _) (read85 e0 (by simp [raw85, bv, e1, e2, e3, e4, e5]))

theorem unbind (d : BitVec 5) : Statement (.unbind d) := by
  obtain ⟨N, hN⟩ : ∃ N, N = 0x85 + 2 ^ 8 * (d.toNat + 2 ^ 5 * 0x8000) := ⟨_, rfl⟩
  have e0 : fld N 0 8 = 133 := hN ▸ (fld_here (by decide))
  have e1 : fld N 18 14 = 1024 := hN ▸ (fld_skip 10 (by decide) (fld_skip 5 d.isLt (by decide)))
  have e2 : fld N 13 5 = 0 := hN ▸ (fld_skip 5 (by decide) (fld_skip 0 d.isLt (by decide)))
  have e3 : fld N 23 9 = 32 := hN ▸ (fld_skip 15 (by decide) (fld_skip 10 d.isLt (by decide)))
  have e4 : fld N 13 19 = 32768 := hN ▸ (fld_skip 5 (by decide) (fld_skip 0 d.isLt (fld_all (by decide))))
  have e5 : fld N 8 5 = d.toNat := hN ▸ (fld_skip 0 (by decide) (fld_here d.isLt))
  exact of_word (word_eq hN (by show 0x10000085 + d.toNat * 256 = _; omega) : encodeNat (.unbind d) = (N, 4)) (hN ▸ (show 0x85 + 2 ^ 8 * (d.toNat + 2 ^ 5 * 0x8000) < 2 ^ 32 from (under (m := 24) (by decide) (under (m := 19) d.isLt (by decide))))) (hN ▸ odd_low _ _) (read85 e0 (by simp [raw85, bv, e1, e2, e3, e4, e5]))

theorem qctl (a : BitVec 5) (d : BitVec 5) : Statement (.qctl a d) := by
  obtain ⟨N, hN⟩ : ∃ N, N = 0x85 + 2 ^ 8 * (d.toNat + 2 ^ 5 * (a.toNat + 2 ^ 5 * 0x600)) := ⟨_, rfl⟩
  have ha := a.isLt; have hd := d.isLt
  have e0 : fld N 0 8 = 133 := hN ▸ (fld_here (by decide))
  have e1 : fld N 18 14 = 1536 := hN ▸ (fld_skip 10 (by decide) (fld_skip 5 d.isLt (fld_skip 0 a.isLt (fld_all (by decide)))))
  have e2 : fld N 23 9 = 48 := hN ▸ (fld_skip 15 (by decide) (fld_skip 10 d.isLt (fld_skip 5 a.isLt (by decide))))
  have e3 : fld N 13 19 ≠ 32768 := by subst hN; unfold fld; omega
  have e4 : fld N 13 5 = a.toNat := hN ▸ (fld_skip 5 (by decide) (fld_skip 0 d.isLt (fld_here a.isLt)))
  have e5 : fld N 8 5 = d.toNat := hN ▸ (fld_skip 0 (by decide) (fld_here d.isLt))
  exact of_word (word_eq hN (by show 0x18000085 + a.toNat * 8192 + d.toNat * 256 = _; omega) : encodeNat (.qctl a d) = (N, 4)) (hN ▸ (show 0x85 + 2 ^ 8 * (d.toNat + 2 ^ 5 * (a.toNat + 2 ^ 5 * 0x600)) < 2 ^ 32 from (under (m := 24) (by decide) (under (m := 19) d.isLt (under (m := 14) a.isLt (by decide)))))) (hN ▸ odd_low _ _) (read85 e0 (by simp [raw85, bv, e1, e2, e3, e4, e5]))

theorem hset (a : BitVec 5) (d : BitVec 5) : Statement (.hset a d) := by
  obtain ⟨N, hN⟩ : ∃ N, N = 0x85 + 2 ^ 8 * (d.toNat + 2 ^ 5 * (a.toNat + 2 ^ 5 * 0x800)) := ⟨_, rfl⟩
  have ha := a.isLt; have hd := d.isLt
  have e0 : fld N 0 8 = 133 := hN ▸ (fld_here (by decide))
  have e1 : fld N 18 14 = 2048 := hN ▸ (fld_skip 10 (by decide) (fld_skip 5 d.isLt (fld_skip 0 a.isLt (fld_all (by decide)))))
  have e2 : fld N 23 9 = 64 := hN ▸ (fld_skip 15 (by decide) (fld_skip 10 d.isLt (fld_skip 5 a.isLt (by decide))))
  have e3 : fld N 13 19 ≠ 32768 := by subst hN; unfold fld; omega
  have e4 : fld N 13 5 = a.toNat := hN ▸ (fld_skip 5 (by decide) (fld_skip 0 d.isLt (fld_here a.isLt)))
  have e5 : fld N 8 5 = d.toNat := hN ▸ (fld_skip 0 (by decide) (fld_here d.isLt))
  exact of_word (word_eq hN (by show 0x20000085 + a.toNat * 8192 + d.toNat * 256 = _; omega) : encodeNat (.hset a d) = (N, 4)) (hN ▸ (show 0x85 + 2 ^ 8 * (d.toNat + 2 ^ 5 * (a.toNat + 2 ^ 5 * 0x800)) < 2 ^ 32 from (under (m := 24) (by decide) (under (m := 19) d.isLt (under (m := 14) a.isLt (by decide)))))) (hN ▸ odd_low _ _) (read85 e0 (by simp [raw85, bv, e1, e2, e3, e4, e5]))

theorem cpy (h : BitVec 2) (t : BitVec 4) (b : BitVec 5) (a : BitVec 5) (d : BitVec 5) : Statement (.cpy h t b a d) := by
  obtain ⟨N, hN⟩ : ∃ N, N = 0x91 + 2 ^ 8 * (d.toNat + 2 ^ 5 * (a.toNat + 2 ^ 5 * (b.toNat + 2 ^ 5 * (t.toNat + 2 ^ 4 * (h.toNat + 2 ^ 2 * 0x0))))) := ⟨_, rfl⟩
  have e0 : fld N 0 8 = 145 := hN ▸ (fld_here (by decide))
  have e1 : fld N 29 3 = 0 := hN ▸ (fld_skip 21 (by decide) (fld_skip 16 d.isLt (fld_skip 11 a.isLt (fld_skip 6 b.isLt (fld_skip 2 t.isLt (fld_skip 0 h.isLt (fld_all (by decide))))))))
  have e2 : fld N 27 2 = h.toNat := hN ▸ (fld_skip 19 (by decide) (fld_skip 14 d.isLt (fld_skip 9 a.isLt (fld_skip 4 b.isLt (fld_skip 0 t.isLt (fld_here h.isLt))))))
  have e3 : fld N 23 4 = t.toNat := hN ▸ (fld_skip 15 (by decide) (fld_skip 10 d.isLt (fld_skip 5 a.isLt (fld_skip 0 b.isLt (fld_here t.isLt)))))
  have e4 : fld N 18 5 = b.toNat := hN ▸ (fld_skip 10 (by decide) (fld_skip 5 d.isLt (fld_skip 0 a.isLt (fld_here b.isLt))))
  have e5 : fld N 13 5 = a.toNat := hN ▸ (fld_skip 5 (by decide) (fld_skip 0 d.isLt (fld_here a.isLt)))
  have e6 : fld N 8 5 = d.toNat := hN ▸ (fld_skip 0 (by decide) (fld_here d.isLt))
  exact of_word (word_eq hN (by show 0x91 + h.toNat * 134217728 + t.toNat * 8388608 + b.toNat * 262144 + a.toNat * 8192 + d.toNat * 256 = _; omega) : encodeNat (.cpy h t b a d) = (N, 4)) (hN ▸ (show 0x91 + 2 ^ 8 * (d.toNat + 2 ^ 5 * (a.toNat + 2 ^ 5 * (b.toNat + 2 ^ 5 * (t.toNat + 2 ^ 4 * (h.toNat + 2 ^ 2 * 0x0))))) < 2 ^ 32 from (under (m := 24) (by decide) (under (m := 19) d.isLt (under (m := 14) a.isLt (under (m := 9) b.isLt (under (m := 5) t.isLt (under (m := 3) h.isLt (by decide))))))))) (hN ▸ odd_low _ _) (read91 e0 (by simp [raw91, bv, e1, e2, e3, e4, e5, e6]))

theorem cpyG (h : BitVec 2) (t : BitVec 4) (b : BitVec 5) : Statement (.cpyG h t b) := by
  obtain ⟨N, hN⟩ : ∃ N, N = 0x91 + 2 ^ 8 * (0x0 + 2 ^ 10 * (b.toNat + 2 ^ 5 * (t.toNat + 2 ^ 4 * (h.toNat + 2 ^ 2 * 0x1)))) := ⟨_, rfl⟩
  have e0 : fld N 0 8 = 145 := hN ▸ (fld_here (by decide))
  have e1 : fld N 29 3 = 1 := hN ▸ (fld_skip 21 (by decide) (fld_skip 11 (by decide) (fld_skip 6 b.isLt (fld_skip 2 t.isLt (fld_skip 0 h.isLt (fld_all (by decide)))))))
  have e2 : fld N 8 10 = 0 := hN ▸ (fld_skip 0 (by decide) (fld_here (by decide)))
  have e3 : fld N 27 2 = h.toNat := hN ▸ (fld_skip 19 (by decide) (fld_skip 9 (by decide) (fld_skip 4 b.isLt (fld_skip 0 t.isLt (fld_here h.isLt)))))
  have e4 : fld N 23 4 = t.toNat := hN ▸ (fld_skip 15 (by decide) (fld_skip 5 (by decide) (fld_skip 0 b.isLt (fld_here t.isLt))))
  have e5 : fld N 18 5 = b.toNat := hN ▸ (fld_skip 10 (by decide) (fld_skip 0 (by decide) (fld_here b.isLt)))
  exact of_word (word_eq hN (by show 0x20000091 + h.toNat * 134217728 + t.toNat * 8388608 + b.toNat * 262144 = _; omega) : encodeNat (.cpyG h t b) = (N, 4)) (hN ▸ (show 0x91 + 2 ^ 8 * (0x0 + 2 ^ 10 * (b.toNat + 2 ^ 5 * (t.toNat + 2 ^ 4 * (h.toNat + 2 ^ 2 * 0x1)))) < 2 ^ 32 from (under (m := 24) (by decide) (under (m := 14) (by decide) (under (m := 9) b.isLt (under (m := 5) t.isLt (under (m := 3) h.isLt (by decide)))))))) (hN ▸ odd_low _ _) (read91 e0 (by simp [raw91, bv, e1, e2, e3, e4, e5]))

theorem cpyS (h : BitVec 2) (t : BitVec 4) (b : BitVec 5) : Statement (.cpyS h t b) := by
  obtain ⟨N, hN⟩ : ∃ N, N = 0x91 + 2 ^ 8 * (0x0 + 2 ^ 10 * (b.toNat + 2 ^ 5 * (t.toNat + 2 ^ 4 * (h.toNat + 2 ^ 2 * 0x2)))) := ⟨_, rfl⟩
  have e0 : fld N 0 8 = 145 := hN ▸ (fld_here (by decide))
  have e1 : fld N 29 3 = 2 := hN ▸ (fld_skip 21 (by decide) (fld_skip 11 (by decide) (fld_skip 6 b.isLt (fld_skip 2 t.isLt (fld_skip 0 h.isLt (fld_all (by decide)))))))
  have e2 : fld N 8 10 = 0 := hN ▸ (fld_skip 0 (by decide) (fld_here (by decide)))
  have e3 : fld N 27 2 = h.toNat := hN ▸ (fld_skip 19 (by decide) (fld_skip 9 (by decide) (fld_skip 4 b.isLt (fld_skip 0 t.isLt (fld_here h.isLt)))))
  have e4 : fld N 23 4 = t.toNat := hN ▸ (fld_skip 15 (by decide) (fld_skip 5 (by decide) (fld_skip 0 b.isLt (fld_here t.isLt))))
  have e5 : fld N 18 5 = b.toNat := hN ▸ (fld_skip 10 (by decide) (fld_skip 0 (by decide) (fld_here b.isLt)))
  exact of_word (word_eq hN (by show 0x40000091 + h.toNat * 134217728 + t.toNat * 8388608 + b.toNat * 262144 = _; omega) : encodeNat (.cpyS h t b) = (N, 4)) (hN ▸ (show 0x91 + 2 ^ 8 * (0x0 + 2 ^ 10 * (b.toNat + 2 ^ 5 * (t.toNat + 2 ^ 4 * (h.toNat + 2 ^ 2 * 0x2)))) < 2 ^ 32 from (under (m := 24) (by decide) (under (m := 14) (by decide) (under (m := 9) b.isLt (under (m := 5) t.isLt (under (m := 3) h.isLt (by decide)))))))) (hN ▸ odd_low _ _) (read91 e0 (by simp [raw91, bv, e1, e2, e3, e4, e5]))

theorem cwaitAny (a : BitVec 5) (d : BitVec 5) : Statement (.cwaitAny a d) := by
  obtain ⟨N, hN⟩ : ∃ N, N = 0x93 + 2 ^ 8 * (d.toNat + 2 ^ 5 * (a.toNat + 2 ^ 5 * 0x0)) := ⟨_, rfl⟩
  have e0 : fld N 0 8 = 147 := hN ▸ (fld_here (by decide))
  have e1 : fld N 18 14 = 0 := hN ▸ (fld_skip 10 (by decide) (fld_skip 5 d.isLt (fld_skip 0 a.isLt (fld_all (by decide)))))
  have e2 : fld N 13 5 = a.toNat := hN ▸ (fld_skip 5 (by decide) (fld_skip 0 d.isLt (fld_here a.isLt)))
  have e3 : fld N 8 5 = d.toNat := hN ▸ (fld_skip 0 (by decide) (fld_here d.isLt))
  exact of_word (word_eq hN (by show 0x93 + a.toNat * 8192 + d.toNat * 256 = _; omega) : encodeNat (.cwaitAny a d) = (N, 4)) (hN ▸ (show 0x93 + 2 ^ 8 * (d.toNat + 2 ^ 5 * (a.toNat + 2 ^ 5 * 0x0)) < 2 ^ 32 from (under (m := 24) (by decide) (under (m := 19) d.isLt (under (m := 14) a.isLt (by decide)))))) (hN ▸ odd_low _ _) (read93 e0 (by simp [raw93, bv, e1, e2, e3]))

theorem cwaitAll (a : BitVec 5) : Statement (.cwaitAll a) := by
  obtain ⟨N, hN⟩ : ∃ N, N = 0x93 + 2 ^ 8 * (0x0 + 2 ^ 5 * (a.toNat + 2 ^ 5 * 0x200)) := ⟨_, rfl⟩
  have e0 : fld N 0 8 = 147 := hN ▸ (fld_here (by decide))
  have e1 : fld N 18 14 = 512 := hN ▸ (fld_skip 10 (by decide) (fld_skip 5 (by decide) (fld_skip 0 a.isLt (fld_all (by decide)))))
  have e2 : fld N 8 5 = 0 := hN ▸ (fld_skip 0 (by decide) (fld_here (by decide)))
  have e3 : fld N 13 5 = a.toNat := hN ▸ (fld_skip 5 (by decide) (fld_skip 0 (by decide) (fld_here a.isLt)))
  exact of_word (word_eq hN (by show 0x8000093 + a.toNat * 8192 = _; omega) : encodeNat (.cwaitAll a) = (N, 4)) (hN ▸ (show 0x93 + 2 ^ 8 * (0x0 + 2 ^ 5 * (a.toNat + 2 ^ 5 * 0x200)) < 2 ^ 32 from (under (m := 24) (by decide) (under (m := 19) (by decide) (under (m := 14) a.isLt (by decide)))))) (hN ▸ odd_low _ _) (read93 e0 (by simp [raw93, bv, e1, e2, e3]))

theorem cfind (a : BitVec 5) (d : BitVec 5) : Statement (.cfind a d) := by
  obtain ⟨N, hN⟩ : ∃ N, N = 0x93 + 2 ^ 8 * (d.toNat + 2 ^ 5 * (a.toNat + 2 ^ 5 * 0x400)) := ⟨_, rfl⟩
  have e0 : fld N 0 8 = 147 := hN ▸ (fld_here (by decide))
  have e1 : fld N 18 14 = 1024 := hN ▸ (fld_skip 10 (by decide) (fld_skip 5 d.isLt (fld_skip 0 a.isLt (fld_all (by decide)))))
  have e2 : fld N 13 5 = a.toNat := hN ▸ (fld_skip 5 (by decide) (fld_skip 0 d.isLt (fld_here a.isLt)))
  have e3 : fld N 8 5 = d.toNat := hN ▸ (fld_skip 0 (by decide) (fld_here d.isLt))
  exact of_word (word_eq hN (by show 0x10000093 + a.toNat * 8192 + d.toNat * 256 = _; omega) : encodeNat (.cfind a d) = (N, 4)) (hN ▸ (show 0x93 + 2 ^ 8 * (d.toNat + 2 ^ 5 * (a.toNat + 2 ^ 5 * 0x400)) < 2 ^ 32 from (under (m := 24) (by decide) (under (m := 19) d.isLt (under (m := 14) a.isLt (by decide)))))) (hN ▸ odd_low _ _) (read93 e0 (by simp [raw93, bv, e1, e2, e3]))

theorem evk (b : BitVec 5) (a : BitVec 5) : Statement (.evk b a) := by
  obtain ⟨N, hN⟩ : ∃ N, N = 0x93 + 2 ^ 8 * (0x0 + 2 ^ 5 * (a.toNat + 2 ^ 5 * (b.toNat + 2 ^ 5 * 0x30))) := ⟨_, rfl⟩
  have hb := b.isLt; have ha := a.isLt
  have e0 : fld N 0 8 = 147 := hN ▸ (fld_here (by decide))
  have e1 : fld N 8 5 = 0 := hN ▸ (fld_skip 0 (by decide) (fld_here (by decide)))
  have e2 : fld N 23 9 = 48 := hN ▸ (fld_skip 15 (by decide) (fld_skip 10 (by decide) (fld_skip 5 a.isLt (fld_skip 0 b.isLt (fld_all (by decide))))))
  have e3 : fld N 18 14 ≠ 0 := by subst hN; unfold fld; omega
  have e4 : fld N 18 14 ≠ 512 := by subst hN; unfold fld; omega
  have e5 : fld N 18 14 ≠ 1024 := by subst hN; unfold fld; omega
  have e6 : fld N 18 5 = b.toNat := hN ▸ (fld_skip 10 (by decide) (fld_skip 5 (by decide) (fld_skip 0 a.isLt (fld_here b.isLt))))
  have e7 : fld N 13 5 = a.toNat := hN ▸ (fld_skip 5 (by decide) (fld_skip 0 (by decide) (fld_here a.isLt)))
  exact of_word (word_eq hN (by show 0x18000093 + b.toNat * 262144 + a.toNat * 8192 = _; omega) : encodeNat (.evk b a) = (N, 4)) (hN ▸ (show 0x93 + 2 ^ 8 * (0x0 + 2 ^ 5 * (a.toNat + 2 ^ 5 * (b.toNat + 2 ^ 5 * 0x30))) < 2 ^ 32 from (under (m := 24) (by decide) (under (m := 19) (by decide) (under (m := 14) a.isLt (under (m := 9) b.isLt (by decide))))))) (hN ▸ odd_low _ _) (read93 e0 (by simp [raw93, bv, e1, e2, e3, e4, e5, e6, e7]))

theorem kick (b : BitVec 5) (a : BitVec 5) (d : BitVec 5) : Statement (.kick b a d) := by
  obtain ⟨N, hN⟩ : ∃ N, N = 0x93 + 2 ^ 8 * (d.toNat + 2 ^ 5 * (a.toNat + 2 ^ 5 * (b.toNat + 2 ^ 5 * 0x40))) := ⟨_, rfl⟩
  have hb := b.isLt; have ha := a.isLt; have hd := d.isLt
  have e0 : fld N 0 8 = 147 := hN ▸ (fld_here (by decide))
  have e1 : fld N 23 9 = 64 := hN ▸ (fld_skip 15 (by decide) (fld_skip 10 d.isLt (fld_skip 5 a.isLt (fld_skip 0 b.isLt (fld_all (by decide))))))
  have e2 : fld N 18 14 ≠ 0 := by subst hN; unfold fld; omega
  have e3 : fld N 18 14 ≠ 512 := by subst hN; unfold fld; omega
  have e4 : fld N 18 14 ≠ 1024 := by subst hN; unfold fld; omega
  have e5 : fld N 18 5 = b.toNat := hN ▸ (fld_skip 10 (by decide) (fld_skip 5 d.isLt (fld_skip 0 a.isLt (fld_here b.isLt))))
  have e6 : fld N 13 5 = a.toNat := hN ▸ (fld_skip 5 (by decide) (fld_skip 0 d.isLt (fld_here a.isLt)))
  have e7 : fld N 8 5 = d.toNat := hN ▸ (fld_skip 0 (by decide) (fld_here d.isLt))
  exact of_word (word_eq hN (by show 0x20000093 + b.toNat * 262144 + a.toNat * 8192 + d.toNat * 256 = _; omega) : encodeNat (.kick b a d) = (N, 4)) (hN ▸ (show 0x93 + 2 ^ 8 * (d.toNat + 2 ^ 5 * (a.toNat + 2 ^ 5 * (b.toNat + 2 ^ 5 * 0x40))) < 2 ^ 32 from (under (m := 24) (by decide) (under (m := 19) d.isLt (under (m := 14) a.isLt (under (m := 9) b.isLt (by decide))))))) (hN ▸ odd_low _ _) (read93 e0 (by simp [raw93, bv, e1, e2, e3, e4, e5, e6, e7]))

theorem mwld (o : BitVec 6) : Statement (.mwld o) := by
  obtain ⟨N, hN⟩ : ∃ N, N = 0x95 + 2 ^ 8 * (0x0 + 2 ^ 10 * (o.toNat + 2 ^ 6 * 0x0)) := ⟨_, rfl⟩
  have e0 : fld N 0 8 = 149 := hN ▸ (fld_here (by decide))
  have e1 : fld N 8 10 = 0 := hN ▸ (fld_skip 0 (by decide) (fld_here (by decide)))
  have e2 : fld N 24 8 = 0 := hN ▸ (fld_skip 16 (by decide) (fld_skip 6 (by decide) (fld_skip 0 o.isLt (fld_all (by decide)))))
  have e3 : fld N 18 6 = o.toNat := hN ▸ (fld_skip 10 (by decide) (fld_skip 0 (by decide) (fld_here o.isLt)))
  exact of_word (word_eq hN (by show 0x95 + o.toNat * 262144 = _; omega) : encodeNat (.mwld o) = (N, 4)) (hN ▸ (show 0x95 + 2 ^ 8 * (0x0 + 2 ^ 10 * (o.toNat + 2 ^ 6 * 0x0)) < 2 ^ 32 from (under (m := 24) (by decide) (under (m := 14) (by decide) (under (m := 8) o.isLt (by decide)))))) (hN ▸ odd_low _ _) (read95 e0 (by simp [raw95, bv, e1, e2, e3]))

theorem mtile (o : BitVec 6) (d : BitVec 5) : Statement (.mtile o d) := by
  obtain ⟨N, hN⟩ : ∃ N, N = 0x95 + 2 ^ 8 * (d.toNat + 2 ^ 5 * (0x0 + 2 ^ 5 * (o.toNat + 2 ^ 6 * 0x4))) := ⟨_, rfl⟩
  have e0 : fld N 0 8 = 149 := hN ▸ (fld_here (by decide))
  have e1 : fld N 24 8 = 4 := hN ▸ (fld_skip 16 (by decide) (fld_skip 11 d.isLt (fld_skip 6 (by decide) (fld_skip 0 o.isLt (fld_all (by decide))))))
  have e2 : fld N 13 5 = 0 := hN ▸ (fld_skip 5 (by decide) (fld_skip 0 d.isLt (fld_here (by decide))))
  have e3 : fld N 18 6 = o.toNat := hN ▸ (fld_skip 10 (by decide) (fld_skip 5 d.isLt (fld_skip 0 (by decide) (fld_here o.isLt))))
  have e4 : fld N 8 5 = d.toNat := hN ▸ (fld_skip 0 (by decide) (fld_here d.isLt))
  exact of_word (word_eq hN (by show 0x4000095 + o.toNat * 262144 + d.toNat * 256 = _; omega) : encodeNat (.mtile o d) = (N, 4)) (hN ▸ (show 0x95 + 2 ^ 8 * (d.toNat + 2 ^ 5 * (0x0 + 2 ^ 5 * (o.toNat + 2 ^ 6 * 0x4))) < 2 ^ 32 from (under (m := 24) (by decide) (under (m := 19) d.isLt (under (m := 14) (by decide) (under (m := 8) o.isLt (by decide))))))) (hN ▸ odd_low _ _) (read95 e0 (by simp [raw95, bv, e1, e2, e3, e4]))

theorem mdrain (o : BitVec 6) (d : BitVec 5) : Statement (.mdrain o d) := by
  obtain ⟨N, hN⟩ : ∃ N, N = 0x95 + 2 ^ 8 * (d.toNat + 2 ^ 5 * (0x0 + 2 ^ 5 * (o.toNat + 2 ^ 6 * 0x8))) := ⟨_, rfl⟩
  have e0 : fld N 0 8 = 149 := hN ▸ (fld_here (by decide))
  have e1 : fld N 24 8 = 8 := hN ▸ (fld_skip 16 (by decide) (fld_skip 11 d.isLt (fld_skip 6 (by decide) (fld_skip 0 o.isLt (fld_all (by decide))))))
  have e2 : fld N 13 5 = 0 := hN ▸ (fld_skip 5 (by decide) (fld_skip 0 d.isLt (fld_here (by decide))))
  have e3 : fld N 18 6 = o.toNat := hN ▸ (fld_skip 10 (by decide) (fld_skip 5 d.isLt (fld_skip 0 (by decide) (fld_here o.isLt))))
  have e4 : fld N 8 5 = d.toNat := hN ▸ (fld_skip 0 (by decide) (fld_here d.isLt))
  exact of_word (word_eq hN (by show 0x8000095 + o.toNat * 262144 + d.toNat * 256 = _; omega) : encodeNat (.mdrain o d) = (N, 4)) (hN ▸ (show 0x95 + 2 ^ 8 * (d.toNat + 2 ^ 5 * (0x0 + 2 ^ 5 * (o.toNat + 2 ^ 6 * 0x8))) < 2 ^ 32 from (under (m := 24) (by decide) (under (m := 19) d.isLt (under (m := 14) (by decide) (under (m := 8) o.isLt (by decide))))))) (hN ▸ odd_low _ _) (read95 e0 (by simp [raw95, bv, e1, e2, e3, e4]))

theorem mset (o : BitVec 6) (a : BitVec 5) : Statement (.mset o a) := by
  obtain ⟨N, hN⟩ : ∃ N, N = 0x95 + 2 ^ 8 * (0x0 + 2 ^ 5 * (a.toNat + 2 ^ 5 * (o.toNat + 2 ^ 6 * 0xc))) := ⟨_, rfl⟩
  have e0 : fld N 0 8 = 149 := hN ▸ (fld_here (by decide))
  have e1 : fld N 24 8 = 12 := hN ▸ (fld_skip 16 (by decide) (fld_skip 11 (by decide) (fld_skip 6 a.isLt (fld_skip 0 o.isLt (fld_all (by decide))))))
  have e2 : fld N 8 5 = 0 := hN ▸ (fld_skip 0 (by decide) (fld_here (by decide)))
  have e3 : fld N 18 6 = o.toNat := hN ▸ (fld_skip 10 (by decide) (fld_skip 5 (by decide) (fld_skip 0 a.isLt (fld_here o.isLt))))
  have e4 : fld N 13 5 = a.toNat := hN ▸ (fld_skip 5 (by decide) (fld_skip 0 (by decide) (fld_here a.isLt)))
  exact of_word (word_eq hN (by show 0xc000095 + o.toNat * 262144 + a.toNat * 8192 = _; omega) : encodeNat (.mset o a) = (N, 4)) (hN ▸ (show 0x95 + 2 ^ 8 * (0x0 + 2 ^ 5 * (a.toNat + 2 ^ 5 * (o.toNat + 2 ^ 6 * 0xc))) < 2 ^ 32 from (under (m := 24) (by decide) (under (m := 19) (by decide) (under (m := 14) a.isLt (under (m := 8) o.isLt (by decide))))))) (hN ▸ odd_low _ _) (read95 e0 (by simp [raw95, bv, e1, e2, e3, e4]))

theorem mwait : Statement .mwait := .inr (by decide)

theorem mred (a : BitVec 5) : Statement (.mred a) := by
  obtain ⟨N, hN⟩ : ∃ N, N = 0x95 + 2 ^ 8 * (0x0 + 2 ^ 5 * (a.toNat + 2 ^ 5 * 0x500)) := ⟨_, rfl⟩
  have ha := a.isLt
  have e0 : fld N 0 8 = 149 := hN ▸ (fld_here (by decide))
  have e1 : fld N 24 8 = 20 := hN ▸ (fld_skip 16 (by decide) (fld_skip 11 (by decide) (fld_skip 6 a.isLt (by decide))))
  have e2 : fld N 8 5 = 0 := hN ▸ (fld_skip 0 (by decide) (fld_here (by decide)))
  have e3 : fld N 18 14 = 1280 := hN ▸ (fld_skip 10 (by decide) (fld_skip 5 (by decide) (fld_skip 0 a.isLt (fld_all (by decide)))))
  have e4 : fld N 8 24 ≠ 1048576 := by subst hN; unfold fld; omega
  have e5 : fld N 13 5 = a.toNat := hN ▸ (fld_skip 5 (by decide) (fld_skip 0 (by decide) (fld_here a.isLt)))
  exact of_word (word_eq hN (by show 0x14000095 + a.toNat * 8192 = _; omega) : encodeNat (.mred a) = (N, 4)) (hN ▸ (show 0x95 + 2 ^ 8 * (0x0 + 2 ^ 5 * (a.toNat + 2 ^ 5 * 0x500)) < 2 ^ 32 from (under (m := 24) (by decide) (under (m := 19) (by decide) (under (m := 14) a.isLt (by decide)))))) (hN ▸ odd_low _ _) (read95 e0 (by simp [raw95, bv, e1, e2, e3, e4, e5]))

theorem mresume : Statement .mresume := .inr (by decide)

theorem mlay (o : BitVec 6) (a : BitVec 5) : Statement (.mlay o a) := by
  obtain ⟨N, hN⟩ : ∃ N, N = 0x95 + 2 ^ 8 * (0x0 + 2 ^ 5 * (a.toNat + 2 ^ 5 * (o.toNat + 2 ^ 6 * 0x1c))) := ⟨_, rfl⟩
  have ho := o.isLt; have ha := a.isLt
  have e0 : fld N 0 8 = 149 := hN ▸ (fld_here (by decide))
  have e1 : fld N 24 8 = 28 := hN ▸ (fld_skip 16 (by decide) (fld_skip 11 (by decide) (fld_skip 6 a.isLt (fld_skip 0 o.isLt (fld_all (by decide))))))
  have e2 : fld N 8 5 = 0 := hN ▸ (fld_skip 0 (by decide) (fld_here (by decide)))
  have e3 : fld N 8 24 ≠ 1048576 := by subst hN; unfold fld; omega
  have e4 : fld N 18 14 ≠ 1280 := by subst hN; unfold fld; omega
  have e5 : fld N 8 24 ≠ 1572864 := by subst hN; unfold fld; omega
  have e6 : fld N 18 6 = o.toNat := hN ▸ (fld_skip 10 (by decide) (fld_skip 5 (by decide) (fld_skip 0 a.isLt (fld_here o.isLt))))
  have e7 : fld N 13 5 = a.toNat := hN ▸ (fld_skip 5 (by decide) (fld_skip 0 (by decide) (fld_here a.isLt)))
  exact of_word (word_eq hN (by show 0x1c000095 + o.toNat * 262144 + a.toNat * 8192 = _; omega) : encodeNat (.mlay o a) = (N, 4)) (hN ▸ (show 0x95 + 2 ^ 8 * (0x0 + 2 ^ 5 * (a.toNat + 2 ^ 5 * (o.toNat + 2 ^ 6 * 0x1c))) < 2 ^ 32 from (under (m := 24) (by decide) (under (m := 19) (by decide) (under (m := 14) a.isLt (under (m := 8) o.isLt (by decide))))))) (hN ▸ odd_low _ _) (read95 e0 (by simp [raw95, bv, e1, e2, e3, e4, e5, e6, e7]))

theorem mclr (d : BitVec 5) : Statement (.mclr d) := by
  obtain ⟨N, hN⟩ : ∃ N, N = 0x95 + 2 ^ 8 * (d.toNat + 2 ^ 5 * 0x10000) := ⟨_, rfl⟩
  have hd := d.isLt
  have e0 : fld N 0 8 = 149 := hN ▸ (fld_here (by decide))
  have e1 : fld N 24 8 = 32 := hN ▸ (fld_skip 16 (by decide) (fld_skip 11 d.isLt (by decide)))
  have e2 : fld N 13 5 = 0 := hN ▸ (fld_skip 5 (by decide) (fld_skip 0 d.isLt (by decide)))
  have e3 : fld N 18 14 = 2048 := hN ▸ (fld_skip 10 (by decide) (fld_skip 5 d.isLt (by decide)))
  have e4 : fld N 13 19 = 65536 := hN ▸ (fld_skip 5 (by decide) (fld_skip 0 d.isLt (fld_all (by decide))))
  have e5 : fld N 8 24 ≠ 1048576 := by subst hN; unfold fld; omega
  have e6 : fld N 8 24 ≠ 1572864 := by subst hN; unfold fld; omega
  have e7 : fld N 8 5 = d.toNat := hN ▸ (fld_skip 0 (by decide) (fld_here d.isLt))
  exact of_word (word_eq hN (by show 0x20000095 + d.toNat * 256 = _; omega) : encodeNat (.mclr d) = (N, 4)) (hN ▸ (show 0x95 + 2 ^ 8 * (d.toNat + 2 ^ 5 * 0x10000) < 2 ^ 32 from (under (m := 24) (by decide) (under (m := 19) d.isLt (by decide))))) (hN ▸ odd_low _ _) (read95 e0 (by simp [raw95, bv, e1, e2, e3, e4, e5, e6, e7]))

theorem mstat (d : BitVec 5) : Statement (.mstat d) := by
  obtain ⟨N, hN⟩ : ∃ N, N = 0x95 + 2 ^ 8 * (d.toNat + 2 ^ 5 * 0x12000) := ⟨_, rfl⟩
  have hd := d.isLt
  have e0 : fld N 0 8 = 149 := hN ▸ (fld_here (by decide))
  have e1 : fld N 24 8 = 36 := hN ▸ (fld_skip 16 (by decide) (fld_skip 11 d.isLt (by decide)))
  have e2 : fld N 13 5 = 0 := hN ▸ (fld_skip 5 (by decide) (fld_skip 0 d.isLt (by decide)))
  have e3 : fld N 18 14 = 2304 := hN ▸ (fld_skip 10 (by decide) (fld_skip 5 d.isLt (by decide)))
  have e4 : fld N 13 19 = 73728 := hN ▸ (fld_skip 5 (by decide) (fld_skip 0 d.isLt (fld_all (by decide))))
  have e5 : fld N 8 24 ≠ 1048576 := by subst hN; unfold fld; omega
  have e6 : fld N 8 24 ≠ 1572864 := by subst hN; unfold fld; omega
  have e7 : fld N 8 5 = d.toNat := hN ▸ (fld_skip 0 (by decide) (fld_here d.isLt))
  exact of_word (word_eq hN (by show 0x24000095 + d.toNat * 256 = _; omega) : encodeNat (.mstat d) = (N, 4)) (hN ▸ (show 0x95 + 2 ^ 8 * (d.toNat + 2 ^ 5 * 0x12000) < 2 ^ 32 from (under (m := 24) (by decide) (under (m := 19) d.isLt (by decide))))) (hN ▸ odd_low _ _) (read95 e0 (by simp [raw95, bv, e1, e2, e3, e4, e5, e6, e7]))

theorem pload (b : BitVec 5) (a : BitVec 5) : Statement (.pload b a) := by
  obtain ⟨N, hN⟩ : ∃ N, N = 0x97 + 2 ^ 8 * (0x0 + 2 ^ 5 * (a.toNat + 2 ^ 5 * (b.toNat + 2 ^ 5 * 0x0))) := ⟨_, rfl⟩
  have e0 : fld N 0 8 = 151 := hN ▸ (fld_here (by decide))
  have e1 : fld N 8 5 = 0 := hN ▸ (fld_skip 0 (by decide) (fld_here (by decide)))
  have e2 : fld N 23 9 = 0 := hN ▸ (fld_skip 15 (by decide) (fld_skip 10 (by decide) (fld_skip 5 a.isLt (fld_skip 0 b.isLt (fld_all (by decide))))))
  have e3 : fld N 18 5 = b.toNat := hN ▸ (fld_skip 10 (by decide) (fld_skip 5 (by decide) (fld_skip 0 a.isLt (fld_here b.isLt))))
  have e4 : fld N 13 5 = a.toNat := hN ▸ (fld_skip 5 (by decide) (fld_skip 0 (by decide) (fld_here a.isLt)))
  exact of_word (word_eq hN (by show 0x97 + b.toNat * 262144 + a.toNat * 8192 = _; omega) : encodeNat (.pload b a) = (N, 4)) (hN ▸ (show 0x97 + 2 ^ 8 * (0x0 + 2 ^ 5 * (a.toNat + 2 ^ 5 * (b.toNat + 2 ^ 5 * 0x0))) < 2 ^ 32 from (under (m := 24) (by decide) (under (m := 19) (by decide) (under (m := 14) a.isLt (under (m := 9) b.isLt (by decide))))))) (hN ▸ odd_low _ _) (read97 e0 (by simp [raw97, bv, e1, e2, e3, e4]))

theorem pbind (b : BitVec 5) (a : BitVec 5) : Statement (.pbind b a) := by
  obtain ⟨N, hN⟩ : ∃ N, N = 0x97 + 2 ^ 8 * (0x0 + 2 ^ 5 * (a.toNat + 2 ^ 5 * (b.toNat + 2 ^ 5 * 0x10))) := ⟨_, rfl⟩
  have e0 : fld N 0 8 = 151 := hN ▸ (fld_here (by decide))
  have e1 : fld N 8 5 = 0 := hN ▸ (fld_skip 0 (by decide) (fld_here (by decide)))
  have e2 : fld N 23 9 = 16 := hN ▸ (fld_skip 15 (by decide) (fld_skip 10 (by decide) (fld_skip 5 a.isLt (fld_skip 0 b.isLt (fld_all (by decide))))))
  have e3 : fld N 18 5 = b.toNat := hN ▸ (fld_skip 10 (by decide) (fld_skip 5 (by decide) (fld_skip 0 a.isLt (fld_here b.isLt))))
  have e4 : fld N 13 5 = a.toNat := hN ▸ (fld_skip 5 (by decide) (fld_skip 0 (by decide) (fld_here a.isLt)))
  exact of_word (word_eq hN (by show 0x8000097 + b.toNat * 262144 + a.toNat * 8192 = _; omega) : encodeNat (.pbind b a) = (N, 4)) (hN ▸ (show 0x97 + 2 ^ 8 * (0x0 + 2 ^ 5 * (a.toNat + 2 ^ 5 * (b.toNat + 2 ^ 5 * 0x10))) < 2 ^ 32 from (under (m := 24) (by decide) (under (m := 19) (by decide) (under (m := 14) a.isLt (under (m := 9) b.isLt (by decide))))))) (hN ▸ odd_low _ _) (read97 e0 (by simp [raw97, bv, e1, e2, e3, e4]))

theorem pbindT (b : BitVec 5) (a : BitVec 5) : Statement (.pbindT b a) := by
  obtain ⟨N, hN⟩ : ∃ N, N = 0x97 + 2 ^ 8 * (0x0 + 2 ^ 5 * (a.toNat + 2 ^ 5 * (b.toNat + 2 ^ 5 * 0x11))) := ⟨_, rfl⟩
  have e0 : fld N 0 8 = 151 := hN ▸ (fld_here (by decide))
  have e1 : fld N 8 5 = 0 := hN ▸ (fld_skip 0 (by decide) (fld_here (by decide)))
  have e2 : fld N 23 9 = 17 := hN ▸ (fld_skip 15 (by decide) (fld_skip 10 (by decide) (fld_skip 5 a.isLt (fld_skip 0 b.isLt (fld_all (by decide))))))
  have e3 : fld N 18 5 = b.toNat := hN ▸ (fld_skip 10 (by decide) (fld_skip 5 (by decide) (fld_skip 0 a.isLt (fld_here b.isLt))))
  have e4 : fld N 13 5 = a.toNat := hN ▸ (fld_skip 5 (by decide) (fld_skip 0 (by decide) (fld_here a.isLt)))
  exact of_word (word_eq hN (by show 0x8800097 + b.toNat * 262144 + a.toNat * 8192 = _; omega) : encodeNat (.pbindT b a) = (N, 4)) (hN ▸ (show 0x97 + 2 ^ 8 * (0x0 + 2 ^ 5 * (a.toNat + 2 ^ 5 * (b.toNat + 2 ^ 5 * 0x11))) < 2 ^ 32 from (under (m := 24) (by decide) (under (m := 19) (by decide) (under (m := 14) a.isLt (under (m := 9) b.isLt (by decide))))))) (hN ▸ odd_low _ _) (read97 e0 (by simp [raw97, bv, e1, e2, e3, e4]))

theorem pstat (b : BitVec 5) (d : BitVec 5) : Statement (.pstat b d) := by
  obtain ⟨N, hN⟩ : ∃ N, N = 0x97 + 2 ^ 8 * (d.toNat + 2 ^ 5 * (0x0 + 2 ^ 5 * (b.toNat + 2 ^ 5 * 0x20))) := ⟨_, rfl⟩
  have e0 : fld N 0 8 = 151 := hN ▸ (fld_here (by decide))
  have e1 : fld N 23 9 = 32 := hN ▸ (fld_skip 15 (by decide) (fld_skip 10 d.isLt (fld_skip 5 (by decide) (fld_skip 0 b.isLt (fld_all (by decide))))))
  have e2 : fld N 13 5 = 0 := hN ▸ (fld_skip 5 (by decide) (fld_skip 0 d.isLt (fld_here (by decide))))
  have e3 : fld N 18 5 = b.toNat := hN ▸ (fld_skip 10 (by decide) (fld_skip 5 d.isLt (fld_skip 0 (by decide) (fld_here b.isLt))))
  have e4 : fld N 8 5 = d.toNat := hN ▸ (fld_skip 0 (by decide) (fld_here d.isLt))
  exact of_word (word_eq hN (by show 0x10000097 + b.toNat * 262144 + d.toNat * 256 = _; omega) : encodeNat (.pstat b d) = (N, 4)) (hN ▸ (show 0x97 + 2 ^ 8 * (d.toNat + 2 ^ 5 * (0x0 + 2 ^ 5 * (b.toNat + 2 ^ 5 * 0x20))) < 2 ^ 32 from (under (m := 24) (by decide) (under (m := 19) d.isLt (under (m := 14) (by decide) (under (m := 9) b.isLt (by decide))))))) (hN ▸ odd_low _ _) (read97 e0 (by simp [raw97, bv, e1, e2, e3, e4]))

theorem vreg (a : BitVec 5) (d : BitVec 5) : Statement (.vreg a d) := by
  obtain ⟨N, hN⟩ : ∃ N, N = 0x99 + 2 ^ 8 * (d.toNat + 2 ^ 5 * (a.toNat + 2 ^ 5 * 0x0)) := ⟨_, rfl⟩
  have e0 : fld N 0 8 = 153 := hN ▸ (fld_here (by decide))
  have e1 : fld N 18 14 = 0 := hN ▸ (fld_skip 10 (by decide) (fld_skip 5 d.isLt (fld_skip 0 a.isLt (fld_all (by decide)))))
  have e2 : fld N 13 5 = a.toNat := hN ▸ (fld_skip 5 (by decide) (fld_skip 0 d.isLt (fld_here a.isLt)))
  have e3 : fld N 8 5 = d.toNat := hN ▸ (fld_skip 0 (by decide) (fld_here d.isLt))
  exact of_word (word_eq hN (by show 0x99 + a.toNat * 8192 + d.toNat * 256 = _; omega) : encodeNat (.vreg a d) = (N, 4)) (hN ▸ (show 0x99 + 2 ^ 8 * (d.toNat + 2 ^ 5 * (a.toNat + 2 ^ 5 * 0x0)) < 2 ^ 32 from (under (m := 24) (by decide) (under (m := 19) d.isLt (under (m := 14) a.isLt (by decide)))))) (hN ▸ odd_low _ _) (read99 e0 (by simp [raw99, bv, e1, e2, e3]))

theorem vdrop (a : BitVec 5) : Statement (.vdrop a) := by
  obtain ⟨N, hN⟩ : ∃ N, N = 0x99 + 2 ^ 8 * (0x0 + 2 ^ 5 * (a.toNat + 2 ^ 5 * 0x200)) := ⟨_, rfl⟩
  have e0 : fld N 0 8 = 153 := hN ▸ (fld_here (by decide))
  have e1 : fld N 18 14 = 512 := hN ▸ (fld_skip 10 (by decide) (fld_skip 5 (by decide) (fld_skip 0 a.isLt (fld_all (by decide)))))
  have e2 : fld N 8 5 = 0 := hN ▸ (fld_skip 0 (by decide) (fld_here (by decide)))
  have e3 : fld N 13 5 = a.toNat := hN ▸ (fld_skip 5 (by decide) (fld_skip 0 (by decide) (fld_here a.isLt)))
  exact of_word (word_eq hN (by show 0x8000099 + a.toNat * 8192 = _; omega) : encodeNat (.vdrop a) = (N, 4)) (hN ▸ (show 0x99 + 2 ^ 8 * (0x0 + 2 ^ 5 * (a.toNat + 2 ^ 5 * 0x200)) < 2 ^ 32 from (under (m := 24) (by decide) (under (m := 19) (by decide) (under (m := 14) a.isLt (by decide)))))) (hN ▸ odd_low _ _) (read99 e0 (by simp [raw99, bv, e1, e2, e3]))

theorem vsync (a : BitVec 5) : Statement (.vsync a) := by
  obtain ⟨N, hN⟩ : ∃ N, N = 0x99 + 2 ^ 8 * (0x0 + 2 ^ 5 * (a.toNat + 2 ^ 5 * 0x400)) := ⟨_, rfl⟩
  have e0 : fld N 0 8 = 153 := hN ▸ (fld_here (by decide))
  have e1 : fld N 18 14 = 1024 := hN ▸ (fld_skip 10 (by decide) (fld_skip 5 (by decide) (fld_skip 0 a.isLt (fld_all (by decide)))))
  have e2 : fld N 8 5 = 0 := hN ▸ (fld_skip 0 (by decide) (fld_here (by decide)))
  have e3 : fld N 13 5 = a.toNat := hN ▸ (fld_skip 5 (by decide) (fld_skip 0 (by decide) (fld_here a.isLt)))
  exact of_word (word_eq hN (by show 0x10000099 + a.toNat * 8192 = _; omega) : encodeNat (.vsync a) = (N, 4)) (hN ▸ (show 0x99 + 2 ^ 8 * (0x0 + 2 ^ 5 * (a.toNat + 2 ^ 5 * 0x400)) < 2 ^ 32 from (under (m := 24) (by decide) (under (m := 19) (by decide) (under (m := 14) a.isLt (by decide)))))) (hN ▸ odd_low _ _) (read99 e0 (by simp [raw99, bv, e1, e2, e3]))

theorem vstat (b : BitVec 5) (a : BitVec 5) (d : BitVec 5) : Statement (.vstat b a d) := by
  obtain ⟨N, hN⟩ : ∃ N, N = 0x99 + 2 ^ 8 * (d.toNat + 2 ^ 5 * (a.toNat + 2 ^ 5 * (b.toNat + 2 ^ 5 * 0x30))) := ⟨_, rfl⟩
  have hb := b.isLt; have ha := a.isLt; have hd := d.isLt
  have e0 : fld N 0 8 = 153 := hN ▸ (fld_here (by decide))
  have e1 : fld N 23 9 = 48 := hN ▸ (fld_skip 15 (by decide) (fld_skip 10 d.isLt (fld_skip 5 a.isLt (fld_skip 0 b.isLt (fld_all (by decide))))))
  have e2 : fld N 18 14 ≠ 0 := by subst hN; unfold fld; omega
  have e3 : fld N 18 14 ≠ 512 := by subst hN; unfold fld; omega
  have e4 : fld N 18 14 ≠ 1024 := by subst hN; unfold fld; omega
  have e5 : fld N 18 5 = b.toNat := hN ▸ (fld_skip 10 (by decide) (fld_skip 5 d.isLt (fld_skip 0 a.isLt (fld_here b.isLt))))
  have e6 : fld N 13 5 = a.toNat := hN ▸ (fld_skip 5 (by decide) (fld_skip 0 d.isLt (fld_here a.isLt)))
  have e7 : fld N 8 5 = d.toNat := hN ▸ (fld_skip 0 (by decide) (fld_here d.isLt))
  exact of_word (word_eq hN (by show 0x18000099 + b.toNat * 262144 + a.toNat * 8192 + d.toNat * 256 = _; omega) : encodeNat (.vstat b a d) = (N, 4)) (hN ▸ (show 0x99 + 2 ^ 8 * (d.toNat + 2 ^ 5 * (a.toNat + 2 ^ 5 * (b.toNat + 2 ^ 5 * 0x30))) < 2 ^ 32 from (under (m := 24) (by decide) (under (m := 19) d.isLt (under (m := 14) a.isLt (under (m := 9) b.isLt (by decide))))))) (hN ▸ odd_low _ _) (read99 e0 (by simp [raw99, bv, e1, e2, e3, e4, e5, e6, e7]))

theorem vpol (b : BitVec 5) (a : BitVec 5) (d : BitVec 5) : Statement (.vpol b a d) := by
  obtain ⟨N, hN⟩ : ∃ N, N = 0x99 + 2 ^ 8 * (d.toNat + 2 ^ 5 * (a.toNat + 2 ^ 5 * (b.toNat + 2 ^ 5 * 0x40))) := ⟨_, rfl⟩
  have hb := b.isLt; have ha := a.isLt; have hd := d.isLt
  have e0 : fld N 0 8 = 153 := hN ▸ (fld_here (by decide))
  have e1 : fld N 23 9 = 64 := hN ▸ (fld_skip 15 (by decide) (fld_skip 10 d.isLt (fld_skip 5 a.isLt (fld_skip 0 b.isLt (fld_all (by decide))))))
  have e2 : fld N 18 14 ≠ 0 := by subst hN; unfold fld; omega
  have e3 : fld N 18 14 ≠ 512 := by subst hN; unfold fld; omega
  have e4 : fld N 18 14 ≠ 1024 := by subst hN; unfold fld; omega
  have e5 : fld N 18 5 = b.toNat := hN ▸ (fld_skip 10 (by decide) (fld_skip 5 d.isLt (fld_skip 0 a.isLt (fld_here b.isLt))))
  have e6 : fld N 13 5 = a.toNat := hN ▸ (fld_skip 5 (by decide) (fld_skip 0 d.isLt (fld_here a.isLt)))
  have e7 : fld N 8 5 = d.toNat := hN ▸ (fld_skip 0 (by decide) (fld_here d.isLt))
  exact of_word (word_eq hN (by show 0x20000099 + b.toNat * 262144 + a.toNat * 8192 + d.toNat * 256 = _; omega) : encodeNat (.vpol b a d) = (N, 4)) (hN ▸ (show 0x99 + 2 ^ 8 * (d.toNat + 2 ^ 5 * (a.toNat + 2 ^ 5 * (b.toNat + 2 ^ 5 * 0x40))) < 2 ^ 32 from (under (m := 24) (by decide) (under (m := 19) d.isLt (under (m := 14) a.isLt (under (m := 9) b.isLt (by decide))))))) (hN ▸ odd_low _ _) (read99 e0 (by simp [raw99, bv, e1, e2, e3, e4, e5, e6, e7]))

theorem stRep (b : BitVec 5) (a : BitVec 5) (d : BitVec 5) : Statement (.stRep b a d) := by
  obtain ⟨N, hN⟩ : ∃ N, N = 0x9b + 2 ^ 8 * (d.toNat + 2 ^ 5 * (a.toNat + 2 ^ 5 * (b.toNat + 2 ^ 5 * 0x0))) := ⟨_, rfl⟩
  have e0 : fld N 0 8 = 155 := hN ▸ (fld_here (by decide))
  have e1 : fld N 23 9 = 0 := hN ▸ (fld_skip 15 (by decide) (fld_skip 10 d.isLt (fld_skip 5 a.isLt (fld_skip 0 b.isLt (fld_all (by decide))))))
  have e2 : fld N 18 5 = b.toNat := hN ▸ (fld_skip 10 (by decide) (fld_skip 5 d.isLt (fld_skip 0 a.isLt (fld_here b.isLt))))
  have e3 : fld N 13 5 = a.toNat := hN ▸ (fld_skip 5 (by decide) (fld_skip 0 d.isLt (fld_here a.isLt)))
  have e4 : fld N 8 5 = d.toNat := hN ▸ (fld_skip 0 (by decide) (fld_here d.isLt))
  exact of_word (word_eq hN (by show 0x9b + b.toNat * 262144 + a.toNat * 8192 + d.toNat * 256 = _; omega) : encodeNat (.stRep b a d) = (N, 4)) (hN ▸ (show 0x9b + 2 ^ 8 * (d.toNat + 2 ^ 5 * (a.toNat + 2 ^ 5 * (b.toNat + 2 ^ 5 * 0x0))) < 2 ^ 32 from (under (m := 24) (by decide) (under (m := 19) d.isLt (under (m := 14) a.isLt (under (m := 9) b.isLt (by decide))))))) (hN ▸ odd_low _ _) (read9B e0 (by simp [raw9B, bv, e1, e2, e3, e4]))

theorem reconf (a : BitVec 5) (d : BitVec 5) : Statement (.reconf a d) := by
  obtain ⟨N, hN⟩ : ∃ N, N = 0x9b + 2 ^ 8 * (d.toNat + 2 ^ 5 * (a.toNat + 2 ^ 5 * 0x200)) := ⟨_, rfl⟩
  have e0 : fld N 0 8 = 155 := hN ▸ (fld_here (by decide))
  have e1 : fld N 23 9 = 16 := hN ▸ (fld_skip 15 (by decide) (fld_skip 10 d.isLt (fld_skip 5 a.isLt (by decide))))
  have e2 : fld N 18 14 = 512 := hN ▸ (fld_skip 10 (by decide) (fld_skip 5 d.isLt (fld_skip 0 a.isLt (fld_all (by decide)))))
  have e3 : fld N 13 5 = a.toNat := hN ▸ (fld_skip 5 (by decide) (fld_skip 0 d.isLt (fld_here a.isLt)))
  have e4 : fld N 8 5 = d.toNat := hN ▸ (fld_skip 0 (by decide) (fld_here d.isLt))
  exact of_word (word_eq hN (by show 0x800009b + a.toNat * 8192 + d.toNat * 256 = _; omega) : encodeNat (.reconf a d) = (N, 4)) (hN ▸ (show 0x9b + 2 ^ 8 * (d.toNat + 2 ^ 5 * (a.toNat + 2 ^ 5 * 0x200)) < 2 ^ 32 from (under (m := 24) (by decide) (under (m := 19) d.isLt (under (m := 14) a.isLt (by decide)))))) (hN ▸ odd_low _ _) (read9B e0 (by simp [raw9B, bv, e1, e2, e3, e4]))

theorem cgjoin (a : BitVec 5) (d : BitVec 5) : Statement (.cgjoin a d) := by
  obtain ⟨N, hN⟩ : ∃ N, N = 0x9b + 2 ^ 8 * (d.toNat + 2 ^ 5 * (a.toNat + 2 ^ 5 * 0x400)) := ⟨_, rfl⟩
  have e0 : fld N 0 8 = 155 := hN ▸ (fld_here (by decide))
  have e1 : fld N 23 9 = 32 := hN ▸ (fld_skip 15 (by decide) (fld_skip 10 d.isLt (fld_skip 5 a.isLt (by decide))))
  have e2 : fld N 18 14 = 1024 := hN ▸ (fld_skip 10 (by decide) (fld_skip 5 d.isLt (fld_skip 0 a.isLt (fld_all (by decide)))))
  have e3 : fld N 13 5 = a.toNat := hN ▸ (fld_skip 5 (by decide) (fld_skip 0 d.isLt (fld_here a.isLt)))
  have e4 : fld N 8 5 = d.toNat := hN ▸ (fld_skip 0 (by decide) (fld_here d.isLt))
  exact of_word (word_eq hN (by show 0x1000009b + a.toNat * 8192 + d.toNat * 256 = _; omega) : encodeNat (.cgjoin a d) = (N, 4)) (hN ▸ (show 0x9b + 2 ^ 8 * (d.toNat + 2 ^ 5 * (a.toNat + 2 ^ 5 * 0x400)) < 2 ^ 32 from (under (m := 24) (by decide) (under (m := 19) d.isLt (under (m := 14) a.isLt (by decide)))))) (hN ▸ odd_low _ _) (read9B e0 (by simp [raw9B, bv, e1, e2, e3, e4]))

theorem cgleave (a : BitVec 5) : Statement (.cgleave a) := by
  obtain ⟨N, hN⟩ : ∃ N, N = 0x9b + 2 ^ 8 * (0x0 + 2 ^ 5 * (a.toNat + 2 ^ 5 * 0x600)) := ⟨_, rfl⟩
  have e0 : fld N 0 8 = 155 := hN ▸ (fld_here (by decide))
  have e1 : fld N 23 9 = 48 := hN ▸ (fld_skip 15 (by decide) (fld_skip 10 (by decide) (fld_skip 5 a.isLt (by decide))))
  have e2 : fld N 18 14 = 1536 := hN ▸ (fld_skip 10 (by decide) (fld_skip 5 (by decide) (fld_skip 0 a.isLt (fld_all (by decide)))))
  have e3 : fld N 8 5 = 0 := hN ▸ (fld_skip 0 (by decide) (fld_here (by decide)))
  have e4 : fld N 13 5 = a.toNat := hN ▸ (fld_skip 5 (by decide) (fld_skip 0 (by decide) (fld_here a.isLt)))
  exact of_word (word_eq hN (by show 0x1800009b + a.toNat * 8192 = _; omega) : encodeNat (.cgleave a) = (N, 4)) (hN ▸ (show 0x9b + 2 ^ 8 * (0x0 + 2 ^ 5 * (a.toNat + 2 ^ 5 * 0x600)) < 2 ^ 32 from (under (m := 24) (by decide) (under (m := 19) (by decide) (under (m := 14) a.isLt (by decide)))))) (hN ▸ odd_low _ _) (read9B e0 (by simp [raw9B, bv, e1, e2, e3, e4]))

theorem coll (b : BitVec 5) (a : BitVec 5) (d : BitVec 5) : Statement (.coll b a d) := by
  obtain ⟨N, hN⟩ : ∃ N, N = 0x9b + 2 ^ 8 * (d.toNat + 2 ^ 5 * (a.toNat + 2 ^ 5 * (b.toNat + 2 ^ 5 * 0x40))) := ⟨_, rfl⟩
  have hb := b.isLt; have ha := a.isLt; have hd := d.isLt
  have e0 : fld N 0 8 = 155 := hN ▸ (fld_here (by decide))
  have e1 : fld N 23 9 = 64 := hN ▸ (fld_skip 15 (by decide) (fld_skip 10 d.isLt (fld_skip 5 a.isLt (fld_skip 0 b.isLt (fld_all (by decide))))))
  have e2 : fld N 18 14 ≠ 512 := by subst hN; unfold fld; omega
  have e3 : fld N 18 14 ≠ 1024 := by subst hN; unfold fld; omega
  have e4 : fld N 18 14 ≠ 1536 := by subst hN; unfold fld; omega
  have e5 : fld N 18 5 = b.toNat := hN ▸ (fld_skip 10 (by decide) (fld_skip 5 d.isLt (fld_skip 0 a.isLt (fld_here b.isLt))))
  have e6 : fld N 13 5 = a.toNat := hN ▸ (fld_skip 5 (by decide) (fld_skip 0 d.isLt (fld_here a.isLt)))
  have e7 : fld N 8 5 = d.toNat := hN ▸ (fld_skip 0 (by decide) (fld_here d.isLt))
  exact of_word (word_eq hN (by show 0x2000009b + b.toNat * 262144 + a.toNat * 8192 + d.toNat * 256 = _; omega) : encodeNat (.coll b a d) = (N, 4)) (hN ▸ (show 0x9b + 2 ^ 8 * (d.toNat + 2 ^ 5 * (a.toNat + 2 ^ 5 * (b.toNat + 2 ^ 5 * 0x40))) < 2 ^ 32 from (under (m := 24) (by decide) (under (m := 19) d.isLt (under (m := 14) a.isLt (under (m := 9) b.isLt (by decide))))))) (hN ▸ odd_low _ _) (read9B e0 (by simp [raw9B, bv, e1, e2, e3, e4, e5, e6, e7]))

theorem clogr (b : BitVec 5) (a : BitVec 5) (d : BitVec 5) : Statement (.clogr b a d) := by
  obtain ⟨N, hN⟩ : ∃ N, N = 0x9b + 2 ^ 8 * (d.toNat + 2 ^ 5 * (a.toNat + 2 ^ 5 * (b.toNat + 2 ^ 5 * 0x50))) := ⟨_, rfl⟩
  have hb := b.isLt; have ha := a.isLt; have hd := d.isLt
  have e0 : fld N 0 8 = 155 := hN ▸ (fld_here (by decide))
  have e1 : fld N 23 9 = 80 := hN ▸ (fld_skip 15 (by decide) (fld_skip 10 d.isLt (fld_skip 5 a.isLt (fld_skip 0 b.isLt (fld_all (by decide))))))
  have e2 : fld N 18 14 ≠ 512 := by subst hN; unfold fld; omega
  have e3 : fld N 18 14 ≠ 1024 := by subst hN; unfold fld; omega
  have e4 : fld N 18 14 ≠ 1536 := by subst hN; unfold fld; omega
  have e5 : fld N 18 5 = b.toNat := hN ▸ (fld_skip 10 (by decide) (fld_skip 5 d.isLt (fld_skip 0 a.isLt (fld_here b.isLt))))
  have e6 : fld N 13 5 = a.toNat := hN ▸ (fld_skip 5 (by decide) (fld_skip 0 d.isLt (fld_here a.isLt)))
  have e7 : fld N 8 5 = d.toNat := hN ▸ (fld_skip 0 (by decide) (fld_here d.isLt))
  exact of_word (word_eq hN (by show 0x2800009b + b.toNat * 262144 + a.toNat * 8192 + d.toNat * 256 = _; omega) : encodeNat (.clogr b a d) = (N, 4)) (hN ▸ (show 0x9b + 2 ^ 8 * (d.toNat + 2 ^ 5 * (a.toNat + 2 ^ 5 * (b.toNat + 2 ^ 5 * 0x50))) < 2 ^ 32 from (under (m := 24) (by decide) (under (m := 19) d.isLt (under (m := 14) a.isLt (under (m := 9) b.isLt (by decide))))))) (hN ▸ odd_low _ _) (read9B e0 (by simp [raw9B, bv, e1, e2, e3, e4, e5, e6, e7]))

theorem ctake : Statement .ctake := .inr (by decide)

theorem cstart (a : BitVec 5) : Statement (.cstart a) := by
  obtain ⟨N, hN⟩ : ∃ N, N = 0xeb + 2 ^ 8 * (0x0 + 2 ^ 5 * (a.toNat + 2 ^ 5 * 0x0)) := ⟨_, rfl⟩
  have e0 : fld N 0 8 = 235 := hN ▸ (fld_here (by decide))
  have e1 : fld N 8 5 = 0 := hN ▸ (fld_skip 0 (by decide) (fld_here (by decide)))
  have e2 : fld N 18 14 = 0 := hN ▸ (fld_skip 10 (by decide) (fld_skip 5 (by decide) (fld_skip 0 a.isLt (fld_all (by decide)))))
  have e3 : fld N 13 5 = a.toNat := hN ▸ (fld_skip 5 (by decide) (fld_skip 0 (by decide) (fld_here a.isLt)))
  exact of_word (word_eq hN (by show 0xeb + a.toNat * 8192 = _; omega) : encodeNat (.cstart a) = (N, 4)) (hN ▸ (show 0xeb + 2 ^ 8 * (0x0 + 2 ^ 5 * (a.toNat + 2 ^ 5 * 0x0)) < 2 ^ 32 from (under (m := 24) (by decide) (under (m := 19) (by decide) (under (m := 14) a.isLt (by decide)))))) (hN ▸ odd_low _ _) (readEB e0 (by simp [rawEB, bv, e1, e2, e3]))

theorem kldi (i : BitVec 8) (d : BitVec 4) : Statement (.kldi i d) := by
  obtain ⟨N, hN⟩ : ∃ N, N = 0xe1 + 2 ^ 8 * (d.toNat + 2 ^ 4 * (0x0 + 2 ^ 6 * (i.toNat + 2 ^ 8 * 0x0))) := ⟨_, rfl⟩
  have e0 : fld N 0 8 = 225 := hN ▸ (fld_here (by decide))
  have e1 : fld N 12 6 = 0 := hN ▸ (fld_skip 4 (by decide) (fld_skip 0 d.isLt (fld_here (by decide))))
  have e2 : fld N 26 6 = 0 := hN ▸ (fld_skip 18 (by decide) (fld_skip 14 d.isLt (fld_skip 8 (by decide) (fld_skip 0 i.isLt (fld_all (by decide))))))
  have e3 : fld N 18 8 = i.toNat := hN ▸ (fld_skip 10 (by decide) (fld_skip 6 d.isLt (fld_skip 0 (by decide) (fld_here i.isLt))))
  have e4 : fld N 8 4 = d.toNat := hN ▸ (fld_skip 0 (by decide) (fld_here d.isLt))
  exact of_word (word_eq hN (by show 0xe1 + i.toNat * 262144 + d.toNat * 256 = _; omega) : encodeNat (.kldi i d) = (N, 4)) (hN ▸ (show 0xe1 + 2 ^ 8 * (d.toNat + 2 ^ 4 * (0x0 + 2 ^ 6 * (i.toNat + 2 ^ 8 * 0x0))) < 2 ^ 32 from (under (m := 24) (by decide) (under (m := 20) d.isLt (under (m := 14) (by decide) (under (m := 6) i.isLt (by decide))))))) (hN ▸ odd_low _ _) (readE1 e0 (by simp [rawE1, bv, e1, e2, e3, e4]))

theorem kaddi (i : BitVec 8) (a : BitVec 4) (d : BitVec 4) : Statement (.kaddi i a d) := by
  obtain ⟨N, hN⟩ : ∃ N, N = 0xe1 + 2 ^ 8 * (d.toNat + 2 ^ 4 * (0x0 + 2 ^ 2 * (a.toNat + 2 ^ 4 * (i.toNat + 2 ^ 8 * 0x10)))) := ⟨_, rfl⟩
  have e0 : fld N 0 8 = 225 := hN ▸ (fld_here (by decide))
  have e1 : fld N 26 6 = 16 := hN ▸ (fld_skip 18 (by decide) (fld_skip 14 d.isLt (fld_skip 12 (by decide) (fld_skip 8 a.isLt (fld_skip 0 i.isLt (fld_all (by decide)))))))
  have e2 : fld N 12 2 = 0 := hN ▸ (fld_skip 4 (by decide) (fld_skip 0 d.isLt (fld_here (by decide))))
  have e3 : fld N 18 8 = i.toNat := hN ▸ (fld_skip 10 (by decide) (fld_skip 6 d.isLt (fld_skip 4 (by decide) (fld_skip 0 a.isLt (fld_here i.isLt)))))
  have e4 : fld N 14 4 = a.toNat := hN ▸ (fld_skip 6 (by decide) (fld_skip 2 d.isLt (fld_skip 0 (by decide) (fld_here a.isLt))))
  have e5 : fld N 8 4 = d.toNat := hN ▸ (fld_skip 0 (by decide) (fld_here d.isLt))
  exact of_word (word_eq hN (by show 0x400000e1 + i.toNat * 262144 + a.toNat * 16384 + d.toNat * 256 = _; omega) : encodeNat (.kaddi i a d) = (N, 4)) (hN ▸ (show 0xe1 + 2 ^ 8 * (d.toNat + 2 ^ 4 * (0x0 + 2 ^ 2 * (a.toNat + 2 ^ 4 * (i.toNat + 2 ^ 8 * 0x10)))) < 2 ^ 32 from (under (m := 24) (by decide) (under (m := 20) d.isLt (under (m := 18) (by decide) (under (m := 14) a.isLt (under (m := 6) i.isLt (by decide)))))))) (hN ▸ odd_low _ _) (readE1 e0 (by simp [rawE1, bv, e1, e2, e3, e4, e5]))

theorem kadd (b : BitVec 4) (a : BitVec 4) (d : BitVec 4) : Statement (.kadd b a d) := by
  obtain ⟨N, hN⟩ : ∃ N, N = 0xe1 + 2 ^ 8 * (d.toNat + 2 ^ 4 * (0x0 + 2 ^ 2 * (a.toNat + 2 ^ 4 * (0x0 + 2 ^ 8 * (b.toNat + 2 ^ 4 * 0x2))))) := ⟨_, rfl⟩
  have hb := b.isLt; have ha := a.isLt; have hd := d.isLt
  have e0 : fld N 0 8 = 225 := hN ▸ (fld_here (by decide))
  have e1 : fld N 12 2 = 0 := hN ▸ (fld_skip 4 (by decide) (fld_skip 0 d.isLt (fld_here (by decide))))
  have e2 : fld N 18 8 = 0 := hN ▸ (fld_skip 10 (by decide) (fld_skip 6 d.isLt (fld_skip 4 (by decide) (fld_skip 0 a.isLt (fld_here (by decide))))))
  have e3 : fld N 30 2 = 2 := hN ▸ (fld_skip 22 (by decide) (fld_skip 18 d.isLt (fld_skip 16 (by decide) (fld_skip 12 a.isLt (fld_skip 4 (by decide) (fld_skip 0 b.isLt (fld_all (by decide))))))))
  have e4 : fld N 26 6 ≠ 0 := by subst hN; unfold fld; omega
  have e5 : fld N 26 6 ≠ 16 := by subst hN; unfold fld; omega
  have e6 : fld N 26 4 = b.toNat := hN ▸ (fld_skip 18 (by decide) (fld_skip 14 d.isLt (fld_skip 12 (by decide) (fld_skip 8 a.isLt (fld_skip 0 (by decide) (fld_here b.isLt))))))
  have e7 : fld N 14 4 = a.toNat := hN ▸ (fld_skip 6 (by decide) (fld_skip 2 d.isLt (fld_skip 0 (by decide) (fld_here a.isLt))))
  have e8 : fld N 8 4 = d.toNat := hN ▸ (fld_skip 0 (by decide) (fld_here d.isLt))
  exact of_word (word_eq hN (by show 0x800000e1 + b.toNat * 67108864 + a.toNat * 16384 + d.toNat * 256 = _; omega) : encodeNat (.kadd b a d) = (N, 4)) (hN ▸ (show 0xe1 + 2 ^ 8 * (d.toNat + 2 ^ 4 * (0x0 + 2 ^ 2 * (a.toNat + 2 ^ 4 * (0x0 + 2 ^ 8 * (b.toNat + 2 ^ 4 * 0x2))))) < 2 ^ 32 from (under (m := 24) (by decide) (under (m := 20) d.isLt (under (m := 18) (by decide) (under (m := 14) a.isLt (under (m := 6) (by decide) (under (m := 2) b.isLt (by decide))))))))) (hN ▸ odd_low _ _) (readE1 e0 (by simp [rawE1, bv, e1, e2, e3, e4, e5, e6, e7, e8]))

theorem ksub (b : BitVec 4) (a : BitVec 4) (d : BitVec 4) : Statement (.ksub b a d) := by
  obtain ⟨N, hN⟩ : ∃ N, N = 0xe1 + 2 ^ 8 * (d.toNat + 2 ^ 4 * (0x0 + 2 ^ 2 * (a.toNat + 2 ^ 4 * (0x0 + 2 ^ 8 * (b.toNat + 2 ^ 4 * 0x3))))) := ⟨_, rfl⟩
  have hb := b.isLt; have ha := a.isLt; have hd := d.isLt
  have e0 : fld N 0 8 = 225 := hN ▸ (fld_here (by decide))
  have e1 : fld N 12 2 = 0 := hN ▸ (fld_skip 4 (by decide) (fld_skip 0 d.isLt (fld_here (by decide))))
  have e2 : fld N 18 8 = 0 := hN ▸ (fld_skip 10 (by decide) (fld_skip 6 d.isLt (fld_skip 4 (by decide) (fld_skip 0 a.isLt (fld_here (by decide))))))
  have e3 : fld N 30 2 = 3 := hN ▸ (fld_skip 22 (by decide) (fld_skip 18 d.isLt (fld_skip 16 (by decide) (fld_skip 12 a.isLt (fld_skip 4 (by decide) (fld_skip 0 b.isLt (fld_all (by decide))))))))
  have e4 : fld N 26 6 ≠ 0 := by subst hN; unfold fld; omega
  have e5 : fld N 26 6 ≠ 16 := by subst hN; unfold fld; omega
  have e6 : fld N 26 4 = b.toNat := hN ▸ (fld_skip 18 (by decide) (fld_skip 14 d.isLt (fld_skip 12 (by decide) (fld_skip 8 a.isLt (fld_skip 0 (by decide) (fld_here b.isLt))))))
  have e7 : fld N 14 4 = a.toNat := hN ▸ (fld_skip 6 (by decide) (fld_skip 2 d.isLt (fld_skip 0 (by decide) (fld_here a.isLt))))
  have e8 : fld N 8 4 = d.toNat := hN ▸ (fld_skip 0 (by decide) (fld_here d.isLt))
  exact of_word (word_eq hN (by show 0xc00000e1 + b.toNat * 67108864 + a.toNat * 16384 + d.toNat * 256 = _; omega) : encodeNat (.ksub b a d) = (N, 4)) (hN ▸ (show 0xe1 + 2 ^ 8 * (d.toNat + 2 ^ 4 * (0x0 + 2 ^ 2 * (a.toNat + 2 ^ 4 * (0x0 + 2 ^ 8 * (b.toNat + 2 ^ 4 * 0x3))))) < 2 ^ 32 from (under (m := 24) (by decide) (under (m := 20) d.isLt (under (m := 18) (by decide) (under (m := 14) a.isLt (under (m := 6) (by decide) (under (m := 2) b.isLt (by decide))))))))) (hN ▸ odd_low _ _) (readE1 e0 (by simp [rawE1, bv, e1, e2, e3, e4, e5, e6, e7, e8]))

theorem kmul (b : BitVec 4) (a : BitVec 4) (d : BitVec 4) : Statement (.kmul b a d) := by
  obtain ⟨N, hN⟩ : ∃ N, N = 0xe3 + 2 ^ 8 * (d.toNat + 2 ^ 4 * (0x0 + 2 ^ 2 * (a.toNat + 2 ^ 4 * (0x0 + 2 ^ 8 * (b.toNat + 2 ^ 4 * 0x0))))) := ⟨_, rfl⟩
  have e0 : fld N 0 8 = 227 := hN ▸ (fld_here (by decide))
  have e1 : fld N 12 2 = 0 := hN ▸ (fld_skip 4 (by decide) (fld_skip 0 d.isLt (fld_here (by decide))))
  have e2 : fld N 18 8 = 0 := hN ▸ (fld_skip 10 (by decide) (fld_skip 6 d.isLt (fld_skip 4 (by decide) (fld_skip 0 a.isLt (fld_here (by decide))))))
  have e3 : fld N 30 2 = 0 := hN ▸ (fld_skip 22 (by decide) (fld_skip 18 d.isLt (fld_skip 16 (by decide) (fld_skip 12 a.isLt (fld_skip 4 (by decide) (fld_skip 0 b.isLt (fld_all (by decide))))))))
  have e4 : fld N 26 4 = b.toNat := hN ▸ (fld_skip 18 (by decide) (fld_skip 14 d.isLt (fld_skip 12 (by decide) (fld_skip 8 a.isLt (fld_skip 0 (by decide) (fld_here b.isLt))))))
  have e5 : fld N 14 4 = a.toNat := hN ▸ (fld_skip 6 (by decide) (fld_skip 2 d.isLt (fld_skip 0 (by decide) (fld_here a.isLt))))
  have e6 : fld N 8 4 = d.toNat := hN ▸ (fld_skip 0 (by decide) (fld_here d.isLt))
  exact of_word (word_eq hN (by show 0xe3 + b.toNat * 67108864 + a.toNat * 16384 + d.toNat * 256 = _; omega) : encodeNat (.kmul b a d) = (N, 4)) (hN ▸ (show 0xe3 + 2 ^ 8 * (d.toNat + 2 ^ 4 * (0x0 + 2 ^ 2 * (a.toNat + 2 ^ 4 * (0x0 + 2 ^ 8 * (b.toNat + 2 ^ 4 * 0x0))))) < 2 ^ 32 from (under (m := 24) (by decide) (under (m := 20) d.isLt (under (m := 18) (by decide) (under (m := 14) a.isLt (under (m := 6) (by decide) (under (m := 2) b.isLt (by decide))))))))) (hN ▸ odd_low _ _) (readE3 e0 (by simp [rawE3, bv, e1, e2, e3, e4, e5, e6]))

theorem kdiv (b : BitVec 4) (a : BitVec 4) (d : BitVec 4) : Statement (.kdiv b a d) := by
  obtain ⟨N, hN⟩ : ∃ N, N = 0xe3 + 2 ^ 8 * (d.toNat + 2 ^ 4 * (0x0 + 2 ^ 2 * (a.toNat + 2 ^ 4 * (0x0 + 2 ^ 8 * (b.toNat + 2 ^ 4 * 0x1))))) := ⟨_, rfl⟩
  have e0 : fld N 0 8 = 227 := hN ▸ (fld_here (by decide))
  have e1 : fld N 12 2 = 0 := hN ▸ (fld_skip 4 (by decide) (fld_skip 0 d.isLt (fld_here (by decide))))
  have e2 : fld N 18 8 = 0 := hN ▸ (fld_skip 10 (by decide) (fld_skip 6 d.isLt (fld_skip 4 (by decide) (fld_skip 0 a.isLt (fld_here (by decide))))))
  have e3 : fld N 30 2 = 1 := hN ▸ (fld_skip 22 (by decide) (fld_skip 18 d.isLt (fld_skip 16 (by decide) (fld_skip 12 a.isLt (fld_skip 4 (by decide) (fld_skip 0 b.isLt (fld_all (by decide))))))))
  have e4 : fld N 26 4 = b.toNat := hN ▸ (fld_skip 18 (by decide) (fld_skip 14 d.isLt (fld_skip 12 (by decide) (fld_skip 8 a.isLt (fld_skip 0 (by decide) (fld_here b.isLt))))))
  have e5 : fld N 14 4 = a.toNat := hN ▸ (fld_skip 6 (by decide) (fld_skip 2 d.isLt (fld_skip 0 (by decide) (fld_here a.isLt))))
  have e6 : fld N 8 4 = d.toNat := hN ▸ (fld_skip 0 (by decide) (fld_here d.isLt))
  exact of_word (word_eq hN (by show 0x400000e3 + b.toNat * 67108864 + a.toNat * 16384 + d.toNat * 256 = _; omega) : encodeNat (.kdiv b a d) = (N, 4)) (hN ▸ (show 0xe3 + 2 ^ 8 * (d.toNat + 2 ^ 4 * (0x0 + 2 ^ 2 * (a.toNat + 2 ^ 4 * (0x0 + 2 ^ 8 * (b.toNat + 2 ^ 4 * 0x1))))) < 2 ^ 32 from (under (m := 24) (by decide) (under (m := 20) d.isLt (under (m := 18) (by decide) (under (m := 14) a.isLt (under (m := 6) (by decide) (under (m := 2) b.isLt (by decide))))))))) (hN ▸ odd_low _ _) (readE3 e0 (by simp [rawE3, bv, e1, e2, e3, e4, e5, e6]))

theorem kmod (b : BitVec 4) (a : BitVec 4) (d : BitVec 4) : Statement (.kmod b a d) := by
  obtain ⟨N, hN⟩ : ∃ N, N = 0xe3 + 2 ^ 8 * (d.toNat + 2 ^ 4 * (0x0 + 2 ^ 2 * (a.toNat + 2 ^ 4 * (0x0 + 2 ^ 8 * (b.toNat + 2 ^ 4 * 0x2))))) := ⟨_, rfl⟩
  have e0 : fld N 0 8 = 227 := hN ▸ (fld_here (by decide))
  have e1 : fld N 12 2 = 0 := hN ▸ (fld_skip 4 (by decide) (fld_skip 0 d.isLt (fld_here (by decide))))
  have e2 : fld N 18 8 = 0 := hN ▸ (fld_skip 10 (by decide) (fld_skip 6 d.isLt (fld_skip 4 (by decide) (fld_skip 0 a.isLt (fld_here (by decide))))))
  have e3 : fld N 30 2 = 2 := hN ▸ (fld_skip 22 (by decide) (fld_skip 18 d.isLt (fld_skip 16 (by decide) (fld_skip 12 a.isLt (fld_skip 4 (by decide) (fld_skip 0 b.isLt (fld_all (by decide))))))))
  have e4 : fld N 26 4 = b.toNat := hN ▸ (fld_skip 18 (by decide) (fld_skip 14 d.isLt (fld_skip 12 (by decide) (fld_skip 8 a.isLt (fld_skip 0 (by decide) (fld_here b.isLt))))))
  have e5 : fld N 14 4 = a.toNat := hN ▸ (fld_skip 6 (by decide) (fld_skip 2 d.isLt (fld_skip 0 (by decide) (fld_here a.isLt))))
  have e6 : fld N 8 4 = d.toNat := hN ▸ (fld_skip 0 (by decide) (fld_here d.isLt))
  exact of_word (word_eq hN (by show 0x800000e3 + b.toNat * 67108864 + a.toNat * 16384 + d.toNat * 256 = _; omega) : encodeNat (.kmod b a d) = (N, 4)) (hN ▸ (show 0xe3 + 2 ^ 8 * (d.toNat + 2 ^ 4 * (0x0 + 2 ^ 2 * (a.toNat + 2 ^ 4 * (0x0 + 2 ^ 8 * (b.toNat + 2 ^ 4 * 0x2))))) < 2 ^ 32 from (under (m := 24) (by decide) (under (m := 20) d.isLt (under (m := 18) (by decide) (under (m := 14) a.isLt (under (m := 6) (by decide) (under (m := 2) b.isLt (by decide))))))))) (hN ▸ odd_low _ _) (readE3 e0 (by simp [rawE3, bv, e1, e2, e3, e4, e5, e6]))

theorem kmin (b : BitVec 4) (a : BitVec 4) (d : BitVec 4) : Statement (.kmin b a d) := by
  obtain ⟨N, hN⟩ : ∃ N, N = 0xe3 + 2 ^ 8 * (d.toNat + 2 ^ 4 * (0x0 + 2 ^ 2 * (a.toNat + 2 ^ 4 * (0x0 + 2 ^ 8 * (b.toNat + 2 ^ 4 * 0x3))))) := ⟨_, rfl⟩
  have e0 : fld N 0 8 = 227 := hN ▸ (fld_here (by decide))
  have e1 : fld N 12 2 = 0 := hN ▸ (fld_skip 4 (by decide) (fld_skip 0 d.isLt (fld_here (by decide))))
  have e2 : fld N 18 8 = 0 := hN ▸ (fld_skip 10 (by decide) (fld_skip 6 d.isLt (fld_skip 4 (by decide) (fld_skip 0 a.isLt (fld_here (by decide))))))
  have e3 : fld N 30 2 = 3 := hN ▸ (fld_skip 22 (by decide) (fld_skip 18 d.isLt (fld_skip 16 (by decide) (fld_skip 12 a.isLt (fld_skip 4 (by decide) (fld_skip 0 b.isLt (fld_all (by decide))))))))
  have e4 : fld N 26 4 = b.toNat := hN ▸ (fld_skip 18 (by decide) (fld_skip 14 d.isLt (fld_skip 12 (by decide) (fld_skip 8 a.isLt (fld_skip 0 (by decide) (fld_here b.isLt))))))
  have e5 : fld N 14 4 = a.toNat := hN ▸ (fld_skip 6 (by decide) (fld_skip 2 d.isLt (fld_skip 0 (by decide) (fld_here a.isLt))))
  have e6 : fld N 8 4 = d.toNat := hN ▸ (fld_skip 0 (by decide) (fld_here d.isLt))
  exact of_word (word_eq hN (by show 0xc00000e3 + b.toNat * 67108864 + a.toNat * 16384 + d.toNat * 256 = _; omega) : encodeNat (.kmin b a d) = (N, 4)) (hN ▸ (show 0xe3 + 2 ^ 8 * (d.toNat + 2 ^ 4 * (0x0 + 2 ^ 2 * (a.toNat + 2 ^ 4 * (0x0 + 2 ^ 8 * (b.toNat + 2 ^ 4 * 0x3))))) < 2 ^ 32 from (under (m := 24) (by decide) (under (m := 20) d.isLt (under (m := 18) (by decide) (under (m := 14) a.isLt (under (m := 6) (by decide) (under (m := 2) b.isLt (by decide))))))))) (hN ▸ odd_low _ _) (readE3 e0 (by simp [rawE3, bv, e1, e2, e3, e4, e5, e6]))

theorem kmax (b : BitVec 4) (a : BitVec 4) (d : BitVec 4) : Statement (.kmax b a d) := by
  obtain ⟨N, hN⟩ : ∃ N, N = 0xe5 + 2 ^ 8 * (d.toNat + 2 ^ 4 * (0x0 + 2 ^ 2 * (a.toNat + 2 ^ 4 * (0x0 + 2 ^ 8 * (b.toNat + 2 ^ 4 * 0x0))))) := ⟨_, rfl⟩
  have e0 : fld N 0 8 = 229 := hN ▸ (fld_here (by decide))
  have e1 : fld N 12 2 = 0 := hN ▸ (fld_skip 4 (by decide) (fld_skip 0 d.isLt (fld_here (by decide))))
  have e2 : fld N 18 8 = 0 := hN ▸ (fld_skip 10 (by decide) (fld_skip 6 d.isLt (fld_skip 4 (by decide) (fld_skip 0 a.isLt (fld_here (by decide))))))
  have e3 : fld N 30 2 = 0 := hN ▸ (fld_skip 22 (by decide) (fld_skip 18 d.isLt (fld_skip 16 (by decide) (fld_skip 12 a.isLt (fld_skip 4 (by decide) (fld_skip 0 b.isLt (fld_all (by decide))))))))
  have e4 : fld N 26 4 = b.toNat := hN ▸ (fld_skip 18 (by decide) (fld_skip 14 d.isLt (fld_skip 12 (by decide) (fld_skip 8 a.isLt (fld_skip 0 (by decide) (fld_here b.isLt))))))
  have e5 : fld N 14 4 = a.toNat := hN ▸ (fld_skip 6 (by decide) (fld_skip 2 d.isLt (fld_skip 0 (by decide) (fld_here a.isLt))))
  have e6 : fld N 8 4 = d.toNat := hN ▸ (fld_skip 0 (by decide) (fld_here d.isLt))
  exact of_word (word_eq hN (by show 0xe5 + b.toNat * 67108864 + a.toNat * 16384 + d.toNat * 256 = _; omega) : encodeNat (.kmax b a d) = (N, 4)) (hN ▸ (show 0xe5 + 2 ^ 8 * (d.toNat + 2 ^ 4 * (0x0 + 2 ^ 2 * (a.toNat + 2 ^ 4 * (0x0 + 2 ^ 8 * (b.toNat + 2 ^ 4 * 0x0))))) < 2 ^ 32 from (under (m := 24) (by decide) (under (m := 20) d.isLt (under (m := 18) (by decide) (under (m := 14) a.isLt (under (m := 6) (by decide) (under (m := 2) b.isLt (by decide))))))))) (hN ▸ odd_low _ _) (readE5 e0 (by simp [rawE5, bv, e1, e2, e3, e4, e5, e6]))

theorem kshr (i : BitVec 5) (a : BitVec 4) (d : BitVec 4) : Statement (.kshr i a d) := by
  obtain ⟨N, hN⟩ : ∃ N, N = 0xe5 + 2 ^ 8 * (d.toNat + 2 ^ 4 * (0x0 + 2 ^ 2 * (a.toNat + 2 ^ 4 * (i.toNat + 2 ^ 5 * 0x80)))) := ⟨_, rfl⟩
  have e0 : fld N 0 8 = 229 := hN ▸ (fld_here (by decide))
  have e1 : fld N 12 2 = 0 := hN ▸ (fld_skip 4 (by decide) (fld_skip 0 d.isLt (fld_here (by decide))))
  have e2 : fld N 30 2 = 1 := hN ▸ (fld_skip 22 (by decide) (fld_skip 18 d.isLt (fld_skip 16 (by decide) (fld_skip 12 a.isLt (fld_skip 7 i.isLt (by decide))))))
  have e3 : fld N 23 9 = 128 := hN ▸ (fld_skip 15 (by decide) (fld_skip 11 d.isLt (fld_skip 9 (by decide) (fld_skip 5 a.isLt (fld_skip 0 i.isLt (fld_all (by decide)))))))
  have e4 : fld N 18 5 = i.toNat := hN ▸ (fld_skip 10 (by decide) (fld_skip 6 d.isLt (fld_skip 4 (by decide) (fld_skip 0 a.isLt (fld_here i.isLt)))))
  have e5 : fld N 14 4 = a.toNat := hN ▸ (fld_skip 6 (by decide) (fld_skip 2 d.isLt (fld_skip 0 (by decide) (fld_here a.isLt))))
  have e6 : fld N 8 4 = d.toNat := hN ▸ (fld_skip 0 (by decide) (fld_here d.isLt))
  exact of_word (word_eq hN (by show 0x400000e5 + i.toNat * 262144 + a.toNat * 16384 + d.toNat * 256 = _; omega) : encodeNat (.kshr i a d) = (N, 4)) (hN ▸ (show 0xe5 + 2 ^ 8 * (d.toNat + 2 ^ 4 * (0x0 + 2 ^ 2 * (a.toNat + 2 ^ 4 * (i.toNat + 2 ^ 5 * 0x80)))) < 2 ^ 32 from (under (m := 24) (by decide) (under (m := 20) d.isLt (under (m := 18) (by decide) (under (m := 14) a.isLt (under (m := 9) i.isLt (by decide)))))))) (hN ▸ odd_low _ _) (readE5 e0 (by simp [rawE5, bv, e1, e2, e3, e4, e5, e6]))

theorem khash (b : BitVec 4) (a : BitVec 4) (d : BitVec 4) : Statement (.khash b a d) := by
  obtain ⟨N, hN⟩ : ∃ N, N = 0xe5 + 2 ^ 8 * (d.toNat + 2 ^ 4 * (0x0 + 2 ^ 2 * (a.toNat + 2 ^ 4 * (0x0 + 2 ^ 8 * (b.toNat + 2 ^ 4 * 0x2))))) := ⟨_, rfl⟩
  have hb := b.isLt; have ha := a.isLt; have hd := d.isLt
  have e0 : fld N 0 8 = 229 := hN ▸ (fld_here (by decide))
  have e1 : fld N 12 2 = 0 := hN ▸ (fld_skip 4 (by decide) (fld_skip 0 d.isLt (fld_here (by decide))))
  have e2 : fld N 18 8 = 0 := hN ▸ (fld_skip 10 (by decide) (fld_skip 6 d.isLt (fld_skip 4 (by decide) (fld_skip 0 a.isLt (fld_here (by decide))))))
  have e3 : fld N 30 2 = 2 := hN ▸ (fld_skip 22 (by decide) (fld_skip 18 d.isLt (fld_skip 16 (by decide) (fld_skip 12 a.isLt (fld_skip 4 (by decide) (fld_skip 0 b.isLt (fld_all (by decide))))))))
  have e4 : fld N 23 9 ≠ 128 := by subst hN; unfold fld; omega
  have e5 : fld N 26 4 = b.toNat := hN ▸ (fld_skip 18 (by decide) (fld_skip 14 d.isLt (fld_skip 12 (by decide) (fld_skip 8 a.isLt (fld_skip 0 (by decide) (fld_here b.isLt))))))
  have e6 : fld N 14 4 = a.toNat := hN ▸ (fld_skip 6 (by decide) (fld_skip 2 d.isLt (fld_skip 0 (by decide) (fld_here a.isLt))))
  have e7 : fld N 8 4 = d.toNat := hN ▸ (fld_skip 0 (by decide) (fld_here d.isLt))
  exact of_word (word_eq hN (by show 0x800000e5 + b.toNat * 67108864 + a.toNat * 16384 + d.toNat * 256 = _; omega) : encodeNat (.khash b a d) = (N, 4)) (hN ▸ (show 0xe5 + 2 ^ 8 * (d.toNat + 2 ^ 4 * (0x0 + 2 ^ 2 * (a.toNat + 2 ^ 4 * (0x0 + 2 ^ 8 * (b.toNat + 2 ^ 4 * 0x2))))) < 2 ^ 32 from (under (m := 24) (by decide) (under (m := 20) d.isLt (under (m := 18) (by decide) (under (m := 14) a.isLt (under (m := 6) (by decide) (under (m := 2) b.isLt (by decide))))))))) (hN ▸ odd_low _ _) (readE5 e0 (by simp [rawE5, bv, e1, e2, e3, e4, e5, e6, e7]))

theorem kldp (i : BitVec 3) (d : BitVec 4) : Statement (.kldp i d) := by
  obtain ⟨N, hN⟩ : ∃ N, N = 0xe5 + 2 ^ 8 * (d.toNat + 2 ^ 4 * (0x0 + 2 ^ 6 * (i.toNat + 2 ^ 3 * 0x600))) := ⟨_, rfl⟩
  have hi := i.isLt; have hd := d.isLt
  have e0 : fld N 0 8 = 229 := hN ▸ (fld_here (by decide))
  have e1 : fld N 12 2 = 0 := by subst hN; unfold fld; omega
  have e2 : fld N 30 2 = 3 := hN ▸ (fld_skip 22 (by decide) (fld_skip 18 d.isLt (fld_skip 12 (by decide) (fld_skip 9 i.isLt (by decide)))))
  have e3 : fld N 23 9 = 384 := hN ▸ (fld_skip 15 (by decide) (fld_skip 11 d.isLt (fld_skip 5 (by decide) (fld_skip 2 i.isLt (by decide)))))
  have e4 : fld N 12 6 = 0 := hN ▸ (fld_skip 4 (by decide) (fld_skip 0 d.isLt (fld_here (by decide))))
  have e5 : fld N 21 11 = 1536 := hN ▸ (fld_skip 13 (by decide) (fld_skip 9 d.isLt (fld_skip 3 (by decide) (fld_skip 0 i.isLt (fld_all (by decide))))))
  have e6 : fld N 18 3 = i.toNat := hN ▸ (fld_skip 10 (by decide) (fld_skip 6 d.isLt (fld_skip 0 (by decide) (fld_here i.isLt))))
  have e7 : fld N 8 4 = d.toNat := hN ▸ (fld_skip 0 (by decide) (fld_here d.isLt))
  exact of_word (word_eq hN (by show 0xc00000e5 + i.toNat * 262144 + d.toNat * 256 = _; omega) : encodeNat (.kldp i d) = (N, 4)) (hN ▸ (show 0xe5 + 2 ^ 8 * (d.toNat + 2 ^ 4 * (0x0 + 2 ^ 6 * (i.toNat + 2 ^ 3 * 0x600))) < 2 ^ 32 from (under (m := 24) (by decide) (under (m := 20) d.isLt (under (m := 14) (by decide) (under (m := 11) i.isLt (by decide))))))) (hN ▸ odd_low _ _) (readE5 e0 (by simp [rawE5, bv, e1, e2, e3, e4, e5, e6, e7]))

theorem kemit (b : BitVec 4) (a : BitVec 4) : Statement (.kemit b a) := by
  obtain ⟨N, hN⟩ : ∃ N, N = 0xe7 + 2 ^ 8 * (0x0 + 2 ^ 6 * (a.toNat + 2 ^ 4 * (0x0 + 2 ^ 8 * (b.toNat + 2 ^ 4 * 0x0)))) := ⟨_, rfl⟩
  have e0 : fld N 0 8 = 231 := hN ▸ (fld_here (by decide))
  have e1 : fld N 8 6 = 0 := hN ▸ (fld_skip 0 (by decide) (fld_here (by decide)))
  have e2 : fld N 18 8 = 0 := hN ▸ (fld_skip 10 (by decide) (fld_skip 4 (by decide) (fld_skip 0 a.isLt (fld_here (by decide)))))
  have e3 : fld N 30 2 = 0 := hN ▸ (fld_skip 22 (by decide) (fld_skip 16 (by decide) (fld_skip 12 a.isLt (fld_skip 4 (by decide) (fld_skip 0 b.isLt (fld_all (by decide)))))))
  have e4 : fld N 26 4 = b.toNat := hN ▸ (fld_skip 18 (by decide) (fld_skip 12 (by decide) (fld_skip 8 a.isLt (fld_skip 0 (by decide) (fld_here b.isLt)))))
  have e5 : fld N 14 4 = a.toNat := hN ▸ (fld_skip 6 (by decide) (fld_skip 0 (by decide) (fld_here a.isLt)))
  exact of_word (word_eq hN (by show 0xe7 + b.toNat * 67108864 + a.toNat * 16384 = _; omega) : encodeNat (.kemit b a) = (N, 4)) (hN ▸ (show 0xe7 + 2 ^ 8 * (0x0 + 2 ^ 6 * (a.toNat + 2 ^ 4 * (0x0 + 2 ^ 8 * (b.toNat + 2 ^ 4 * 0x0)))) < 2 ^ 32 from (under (m := 24) (by decide) (under (m := 18) (by decide) (under (m := 14) a.isLt (under (m := 6) (by decide) (under (m := 2) b.isLt (by decide)))))))) (hN ▸ odd_low _ _) (readE7 e0 (by simp [rawE7, bv, e1, e2, e3, e4, e5]))

theorem kblt (b : BitVec 4) (i : BitVec 8) (a : BitVec 4) : Statement (.kblt b i a) := by
  obtain ⟨N, hN⟩ : ∃ N, N = 0xe7 + 2 ^ 8 * (0x0 + 2 ^ 6 * (a.toNat + 2 ^ 4 * (i.toNat + 2 ^ 8 * (b.toNat + 2 ^ 4 * 0x1)))) := ⟨_, rfl⟩
  have e0 : fld N 0 8 = 231 := hN ▸ (fld_here (by decide))
  have e1 : fld N 8 6 = 0 := hN ▸ (fld_skip 0 (by decide) (fld_here (by decide)))
  have e2 : fld N 30 2 = 1 := hN ▸ (fld_skip 22 (by decide) (fld_skip 16 (by decide) (fld_skip 12 a.isLt (fld_skip 4 i.isLt (fld_skip 0 b.isLt (fld_all (by decide)))))))
  have e3 : fld N 26 4 = b.toNat := hN ▸ (fld_skip 18 (by decide) (fld_skip 12 (by decide) (fld_skip 8 a.isLt (fld_skip 0 i.isLt (fld_here b.isLt)))))
  have e4 : fld N 18 8 = i.toNat := hN ▸ (fld_skip 10 (by decide) (fld_skip 4 (by decide) (fld_skip 0 a.isLt (fld_here i.isLt))))
  have e5 : fld N 14 4 = a.toNat := hN ▸ (fld_skip 6 (by decide) (fld_skip 0 (by decide) (fld_here a.isLt)))
  exact of_word (word_eq hN (by show 0x400000e7 + b.toNat * 67108864 + i.toNat * 262144 + a.toNat * 16384 = _; omega) : encodeNat (.kblt b i a) = (N, 4)) (hN ▸ (show 0xe7 + 2 ^ 8 * (0x0 + 2 ^ 6 * (a.toNat + 2 ^ 4 * (i.toNat + 2 ^ 8 * (b.toNat + 2 ^ 4 * 0x1)))) < 2 ^ 32 from (under (m := 24) (by decide) (under (m := 18) (by decide) (under (m := 14) a.isLt (under (m := 6) i.isLt (under (m := 2) b.isLt (by decide)))))))) (hN ▸ odd_low _ _) (readE7 e0 (by simp [rawE7, bv, e1, e2, e3, e4, e5]))

theorem kloop (i : BitVec 8) (a : BitVec 4) : Statement (.kloop i a) := by
  obtain ⟨N, hN⟩ : ∃ N, N = 0xe7 + 2 ^ 8 * (0x0 + 2 ^ 6 * (a.toNat + 2 ^ 4 * (i.toNat + 2 ^ 8 * 0x20))) := ⟨_, rfl⟩
  have e0 : fld N 0 8 = 231 := hN ▸ (fld_here (by decide))
  have e1 : fld N 8 6 = 0 := hN ▸ (fld_skip 0 (by decide) (fld_here (by decide)))
  have e2 : fld N 30 2 = 2 := hN ▸ (fld_skip 22 (by decide) (fld_skip 16 (by decide) (fld_skip 12 a.isLt (fld_skip 4 i.isLt (by decide)))))
  have e3 : fld N 26 6 = 32 := hN ▸ (fld_skip 18 (by decide) (fld_skip 12 (by decide) (fld_skip 8 a.isLt (fld_skip 0 i.isLt (fld_all (by decide))))))
  have e4 : fld N 18 8 = i.toNat := hN ▸ (fld_skip 10 (by decide) (fld_skip 4 (by decide) (fld_skip 0 a.isLt (fld_here i.isLt))))
  have e5 : fld N 14 4 = a.toNat := hN ▸ (fld_skip 6 (by decide) (fld_skip 0 (by decide) (fld_here a.isLt)))
  exact of_word (word_eq hN (by show 0x800000e7 + i.toNat * 262144 + a.toNat * 16384 = _; omega) : encodeNat (.kloop i a) = (N, 4)) (hN ▸ (show 0xe7 + 2 ^ 8 * (0x0 + 2 ^ 6 * (a.toNat + 2 ^ 4 * (i.toNat + 2 ^ 8 * 0x20))) < 2 ^ 32 from (under (m := 24) (by decide) (under (m := 18) (by decide) (under (m := 14) a.isLt (under (m := 6) i.isLt (by decide))))))) (hN ▸ odd_low _ _) (readE7 e0 (by simp [rawE7, bv, e1, e2, e3, e4, e5]))

theorem kend : Statement .kend := .inr (by decide)

theorem pairComparison : Statement .pairComparison := .inl rfl

theorem migrationMessageArrival : Statement .migrationMessageArrival := .inl rfl

theorem migrationResend : Statement .migrationResend := .inl rfl

theorem arrivalContextGrant : Statement .arrivalContextGrant := .inl rfl

theorem activeMessageArrival : Statement .activeMessageArrival := .inl rfl

theorem amsgReply : Statement .amsgReply := .inl rfl

theorem decArrival : Statement .decArrival := .inl rfl

theorem taskSlotStart : Statement .taskSlotStart := .inl rfl

theorem meshPortWordArrival : Statement .meshPortWordArrival := .inl rfl

theorem queueElementArrival : Statement .queueElementArrival := .inl rfl

theorem streamElementFetch : Statement .streamElementFetch := .inl rfl

theorem streamElementWrite : Statement .streamElementWrite := .inl rfl

theorem copyCompletion : Statement .copyCompletion := .inl rfl

theorem copyStop : Statement .copyStop := .inl rfl

theorem hartRestart : Statement .hartRestart := .inl rfl

theorem matrixCommandTake : Statement .matrixCommandTake := .inl rfl

theorem matrixCommandComplete : Statement .matrixCommandComplete := .inl rfl

theorem matrixResumableStop : Statement .matrixResumableStop := .inl rfl

theorem preemption : Statement .preemption := .inl rfl

theorem preemptionSaveComplete : Statement .preemptionSaveComplete := .inl rfl

theorem restore : Statement .restore := .inl rfl

theorem retryResend : Statement .retryResend := .inl rfl

theorem heldStrandRelease : Statement .heldStrandRelease := .inl rfl

theorem heldStrandEnd : Statement .heldStrandEnd := .inl rfl

theorem l1Fill : Statement .l1Fill := .inl rfl

theorem ownershipGrant : Statement .ownershipGrant := .inl rfl

theorem forwardedRead : Statement .forwardedRead := .inl rfl

theorem forwardedOwnership : Statement .forwardedOwnership := .inl rfl

theorem recallRange : Statement .recallRange := .inl rfl

theorem recordDeletion : Statement .recordDeletion := .inl rfl

theorem l1UncorrectableError : Statement .l1UncorrectableError := .inl rfl

theorem directoryError : Statement .directoryError := .inl rfl

theorem recallTimeout : Statement .recallTimeout := .inl rfl

theorem translationWalk : Statement .translationWalk := .inl rfl

theorem leaseExpiry : Statement .leaseExpiry := .inl rfl

theorem patrolScrub : Statement .patrolScrub := .inl rfl

theorem announcementWindowClose : Statement .announcementWindowClose := .inl rfl

theorem announcementDelivery : Statement .announcementDelivery := .inl rfl

theorem phaseStep : Statement .phaseStep := .inl rfl

theorem impressionPass : Statement .impressionPass := .inl rfl

theorem blockRecomputation : Statement .blockRecomputation := .inl rfl

theorem bar2Write : Statement .bar2Write := .inl rfl

theorem bar2Read : Statement .bar2Read := .inl rfl

theorem hostWindowRequest : Statement .hostWindowRequest := .inl rfl

theorem backInvalidation : Statement .backInvalidation := .inl rfl

theorem launchRingEntry : Statement .launchRingEntry := .inl rfl

theorem eventRingWrite : Statement .eventRingWrite := .inl rfl

theorem winbaseWrite : Statement .winbaseWrite := .inl rfl

theorem eqbaseWrite : Statement .eqbaseWrite := .inl rfl

theorem eqsizeWrite : Statement .eqsizeWrite := .inl rfl

theorem eqheadWrite : Statement .eqheadWrite := .inl rfl

theorem lqbaseWrite : Statement .lqbaseWrite := .inl rfl

theorem lqsizeWrite : Statement .lqsizeWrite := .inl rfl

theorem lqtailWrite : Statement .lqtailWrite := .inl rfl

theorem lqtenWrite : Statement .lqtenWrite := .inl rfl

theorem attnWrite : Statement .attnWrite := .inl rfl

theorem managementRegisterWrite : Statement .managementRegisterWrite := .inl rfl

theorem bindRecordCommit : Statement .bindRecordCommit := .inl rfl

theorem bindRecordEmpty : Statement .bindRecordEmpty := .inl rfl

theorem boundsRecordWrite : Statement .boundsRecordWrite := .inl rfl

theorem startUp : Statement .startUp := .inl rfl

theorem flitReceive : Statement .flitReceive := .inl rfl

theorem frameReceive : Statement .frameReceive := .inl rfl

theorem acknowledgement : Statement .acknowledgement := .inl rfl

theorem acknowledgementDue : Statement .acknowledgementDue := .inl rfl

theorem replayRequest : Statement .replayRequest := .inl rfl

theorem replayTimeout : Statement .replayTimeout := .inl rfl

theorem restripe : Statement .restripe := .inl rfl

theorem hello : Statement .hello := .inl rfl

theorem quiesce : Statement .quiesce := .inl rfl

theorem wavelengthThreshold : Statement .wavelengthThreshold := .inl rfl

theorem wavelengthTrained : Statement .wavelengthTrained := .inl rfl

theorem lossOfLight : Statement .lossOfLight := .inl rfl

theorem lightReturn : Statement .lightReturn := .inl rfl

theorem keyLoad : Statement .keyLoad := .inl rfl

theorem downListWrite : Statement .downListWrite := .inl rfl

theorem remoteRequest : Statement .remoteRequest := .inl rfl

theorem remoteResponse : Statement .remoteResponse := .inl rfl

theorem copyWritePacket : Statement .copyWritePacket := .inl rfl

theorem copyWriteResponse : Statement .copyWriteResponse := .inl rfl

theorem reconfDrainComplete : Statement .reconfDrainComplete := .inl rfl

theorem switchStatus : Statement .switchStatus := .inl rfl

theorem switchStatusTimeout : Statement .switchStatusTimeout := .inl rfl

theorem reconfTrainingComplete : Statement .reconfTrainingComplete := .inl rfl

theorem reconfTimeout : Statement .reconfTimeout := .inl rfl

theorem groupActive : Statement .groupActive := .inl rfl

theorem joinTimeout : Statement .joinTimeout := .inl rfl

theorem collectiveContribution : Statement .collectiveContribution := .inl rfl

theorem memberTimeout : Statement .memberTimeout := .inl rfl

theorem collectiveCompletion : Statement .collectiveCompletion := .inl rfl

theorem uncorrectableCoreError : Statement .uncorrectableCoreError := .inl rfl

theorem hbmUncorrectableError : Statement .hbmUncorrectableError := .inl rfl

theorem cxlCacheResponse : Statement .cxlCacheResponse := .inl rfl

theorem fibrePinWrite : Statement .fibrePinWrite := .inl rfl

theorem wavelengthThresholdWrite : Statement .wavelengthThresholdWrite := .inl rfl

end Sys2Proof.Laws.RoundTrip
end

