-- ==== Sys2Proof/Laws/Vector.lean ====
section
/-! SUPPORT. What reading and writing vector fields does where they are registers, once each, and what the lane operations do there. -/

namespace Sys2Proof.Machine

open Sys2Proof.Safety

/-! ### Fields that are registers -/

theorem registers_spec {c : Ctx} {fs : List (BitVec 5 × Nat)} (h : registers c fs = true) :
    c.va ≠ 0 ∧ ∀ f ∈ fs, f.1.toNat + f.2 ≤ c.va ∧ ∀ i < f.2, c.port (f.1.toNat + i) = .plain := by
  simp only [registers, allocatedTo, unbound, Bool.and_eq_true, bne_iff_ne, ne_eq, List.all_eq_true, decide_eq_true_eq,
    Bool.not_eq_true', List.any_eq_false, List.mem_range] at h
  exact ⟨h.1.1, fun f hf => ⟨h.1.2 f hf, fun i hi => by simpa using h.2 f hf i hi⟩⟩

theorem registers_port {c : Ctx} {fs : List (BitVec 5 × Nat)} (h : registers c fs = true) {f : BitVec 5} {n : Nat} (hf : (f, n) ∈ fs)
    (hn : 0 < n) : c.port f.toNat = .plain := ((registers_spec h).2 _ hf).2 0 hn

theorem registers_cons {c : Ctx} {f : BitVec 5 × Nat} {fs : List (BitVec 5 × Nat)} (h : registers c (f :: fs) = true) :
    allocatedTo c (f :: fs) = true := by
  simp only [registers, Bool.and_eq_true] at h; exact h.1

theorem allocated_ok {s : State} {fs : List (BitVec 5 × Nat)} (h : allocatedTo s.my fs = true) : allocated fs s = .ok ((), s) := by
  unfold allocated
  exact require_apply h _ _ _ _ _

theorem usable_plain {c : Ctx} {reads writes : List (BitVec 5)} (hr : ∀ f ∈ reads, c.port f.toNat = .plain)
    (hw : ∀ f ∈ writes, c.port f.toNat = .plain) : usable c reads writes = true := by
  unfold usable
  rw [List.any_eq_false.2 fun f hf => by rw [hr f hf]; simp, List.any_eq_false.2 fun f hf => by rw [hw f hf]; simp]
  rfl

theorem portUse_ok {s : State} {reads writes : List (BitVec 5)} (h : usable s.my reads writes = true) : portUse reads writes s = .ok ((), s) := by
  unfold portUse
  exact require_apply h _ _ _ _ _

theorem laneType_ok {s : State} {ok : ETy → Bool} {t : ETy} (h : laneTypeOf ok s.my = some t) : laneType ok s = .ok (t, s) := by
  unfold laneTypeOf at h
  unfold laneType
  simp only [M.get_bind]
  split at h
  · rename_i u hu
    split at h
    · rename_i hk; cases h; rw [hu]; dsimp only; rw [if_pos hk]; rfl
    · cases h
  · cases h

theorem vpeek_plain {s : State} {f : BitVec 5} {before : List (BitVec 5)} (h : s.my.port f.toNat = .plain) :
    vpeek f before s = .ok (held s f, s) := by
  unfold vpeek
  simp only [M.get_bind, h]
  rfl

theorem vtake_plain {s : State} {fs : List (BitVec 5)} (h : ∀ f ∈ fs, s.my.port f.toNat = .plain) : vtake fs s = .ok ((), s) := by
  unfold vtake
  dsimp only
  split
  · rfl
  · rw [M.change_apply]
    refine congrArg (fun x => Except.ok ((), x)) (foldl_same fun r hr => ?_)
    have hr' : r ∈ fs.map BitVec.toNat := List.mem_eraseDups.1 (List.mem_filter.1 hr).1
    obtain ⟨f, hf, rfl⟩ := List.mem_map.1 hr'
    rw [if_pos (by rw [h f hf]; rfl)]

theorem vsrc_plain {s : State} {a : BitVec 5} (ha : s.my.port a.toNat = .plain) : vsrc a s = .ok (held s a, s) := by
  unfold vsrc
  rw [M.bind_of (vpeek_plain ha), M.bind_of (vtake_plain (by simpa using ha))]
  rfl

theorem vsrc2_plain {s : State} {a b : BitVec 5} (ha : s.my.port a.toNat = .plain) (hb : s.my.port b.toNat = .plain) :
    vsrc2 a b s = .ok ((held s a, held s b), s) := by
  unfold vsrc2
  rw [M.bind_of (vpeek_plain ha), M.bind_of (vpeek_plain hb), M.bind_of (vtake_plain (by simpa using ⟨ha, hb⟩))]
  rfl

theorem vsrc3_plain {s : State} {a b d : BitVec 5} (ha : s.my.port a.toNat = .plain) (hb : s.my.port b.toNat = .plain)
    (hd : s.my.port d.toNat = .plain) : vsrc3 a b d s = .ok ((held s a, held s b, held s d), s) := by
  unfold vsrc3
  rw [M.bind_of (vpeek_plain ha), M.bind_of (vpeek_plain hb), M.bind_of (vpeek_plain hd), M.bind_of (vtake_plain (by simpa using ⟨ha, hb, hd⟩))]
  rfl

theorem oldVec_plain {s : State} {d : BitVec 5} (h : s.my.port d.toNat = .plain) : oldVec d s = .ok (held s d, s) := by
  show Except.ok (if s.my.port d.toNat = .plain then vget 0 s.my.vregs d.toNat else 0, s) = _
  rw [if_pos h]
  rfl

/-- A register written under lookahead. -/
theorem vdstLa_plain {s : State} {la : BitVec 4} {d : BitVec 5} {v : Vec} (hk : s.me.2 ≤ 8) (hr : s.my.pair = none)
    (h : s.my.port d.toNat = .plain) : vdstLa la d v s = .ok ((), putVec la d v s) := by
  have ha : appendOk d s = .ok ((), s) := by unfold appendOk; simp only [M.get_bind, h]; rfl
  have hl : s.vlanding d v = .vreg d.toNat v := by unfold State.vlanding; rw [if_pos h]
  unfold vdstLa putVec
  rw [M.bind_of ha, M.ask_bind, hl]
  split
  · rename_i h0
    have e : (s.updMy fun c => c.cancel (.vreg d.toNat v)).land s.me.1 s.me.2 (.vreg d.toNat v)
        = some (s.updMy fun c => { c.cancel (.vreg d.toNat v) with vregs := vset (c.cancel (.vreg d.toNat v)).vregs d.toNat v }) := by
      unfold State.land
      dsimp only
      rw [State.updMy_updCtx _ hk]
    simp only [State.me_updMy, e]
    rw [State.foldPair_none (by rw [State.my_updMy _ hk]; exact (Ctx.cancel_pair _ _).trans hr)]

  · rename_i h0
    rw [M.change_apply, State.foldPair_none (by rw [State.my_updMy _ hk]; exact (Ctx.cancel_pair _ _).trans hr)]

theorem vdst_plain {s : State} {d : BitVec 5} {v : Vec} (hk : s.me.2 ≤ 8) (hr : s.my.pair = none) (h : s.my.port d.toNat = .plain) :
    vdst d v s = .ok ((), putVec 0 d v s) := vdstLa_plain hk hr h

theorem putVec_me (la : BitVec 4) (d : BitVec 5) (v : Vec) (s : State) : (putVec la d v s).me = s.me := rfl

theorem putVec_my {s : State} (hk : s.me.2 ≤ 8) (la : BitVec 4) (d : BitVec 5) (v : Vec) :
    (putVec la d v s).my.pair = s.my.pair ∧ (putVec la d v s).my.ports = s.my.ports := by
  unfold putVec
  rw [State.my_updMy _ hk]
  dsimp only
  split
  · exact ⟨Ctx.cancel_pair _ _, Ctx.cancel_ports _ _⟩
  · exact ⟨Ctx.cancel_pair _ _, Ctx.cancel_ports _ _⟩

/-- The registers of a group written in order under lookahead. -/
theorem vdstGroup_plain {la : BitVec 4} {d : BitVec 5} : ∀ (vs : List Vec) (q : Nat) {s : State}, s.me.2 ≤ 8 → s.my.pair = none →
    d.toNat + q + vs.length ≤ 32 → (∀ i < vs.length, s.my.port (d.toNat + q + i) = .plain) →
    vdstGroup la d q vs s = .ok ((), (vs.zipIdx q).foldl (fun s p => putVec la (d + BitVec.ofNat 5 p.2) p.1 s) s)
  | [], _, _, _, _, _, _ => rfl
  | v :: t, q, s, hk, hr, hl, hp => by
    have e : (d + BitVec.ofNat 5 q).toNat = d.toNat + q := by
      simp only [List.length_cons] at hl
      rw [BitVec.toNat_add, BitVec.toNat_ofNat]
      omega
    obtain ⟨h1, h2⟩ := putVec_my hk la (d + BitVec.ofNat 5 q) v
    unfold vdstGroup
    rw [M.bind_of (vdstLa_plain hk hr (by rw [e]; exact hp 0 (by simp)))]
    rw [vdstGroup_plain t (q + 1) (s := putVec la (d + BitVec.ofNat 5 q) v s) hk (h1.trans hr) (by simp only [List.length_cons] at hl; omega) fun i hi => by
      unfold Ctx.port
      rw [h2]
      have := hp (i + 1) (by simp only [List.length_cons]; omega)
      unfold Ctx.port at this
      rwa [show d.toNat + q + (i + 1) = d.toNat + (q + 1) + i by omega] at this]
    rfl

theorem putGroup_ok {s : State} {la : BitVec 4} {d : BitVec 5} {vs : List Vec} (hk : s.me.2 ≤ 8) (hr : s.my.pair = none)
    (hl : d.toNat + vs.length ≤ 32) (hp : unbound s.my d vs.length = true) : vdstGroup la d 0 vs s = .ok ((), putGroup la d vs s) := by
  refine vdstGroup_plain vs 0 hk hr (by omega) fun i hi => ?_
  simp only [unbound, Bool.not_eq_true', List.any_eq_false, List.mem_range] at hp
  simpa using hp i hi

theorem tally_ok (s : State) (k : Counts) : tally k s = .ok ((), counted s k) := by
  unfold tally counted
  split <;> rfl

/-! ### Lane operations (R155, R160, R163) -/

theorem vecTwo_plain {s : State} {ok : ETy → Bool} {m : BitVec 1} {b a d : BitVec 5} {f : ETy → Nat → Nat → Nat × Counts} {t : ETy}
    (hs : steady s = true) (ht : laneTypeOf ok s.my = some t) (h : registers s.my [(a, 1), (b, 1), (d, 1)] = true) :
    let r := lanes s.my m t.width (held s d) fun k => f t (elemOf (held s a) t.width k) (elemOf (held s b) t.width k)
    vecTwo ok m b a d f s = .ok (.seq, counted (putVec 0 d r.1 s) r.2) := by
  have ha := registers_port h (f := a) (n := 1) (by simp) (by decide)
  have hb := registers_port h (f := b) (n := 1) (by simp) (by decide)
  have hd := registers_port h (f := d) (n := 1) (by simp) (by decide)
  unfold vecTwo
  rw [M.bind_of (laneType_ok ht), M.bind_of (allocated_ok (registers_cons h)),
    M.bind_of (portUse_ok (usable_plain (by simpa using ⟨ha, hb⟩) (by simpa using hd))), M.bind_of (vsrc2_plain ha hb)]
  dsimp only
  rw [M.bind_of (oldVec_plain hd), M.get_bind]
  rw [M.bind_of (vdst_plain (steady_le hs) (steady_pair hs) hd), M.bind_of (tally_ok _ _)]
  rfl

theorem vecOne_plain {s : State} {ok : ETy → Bool} {m : BitVec 1} {b d : BitVec 5} {f : ETy → Nat → Nat × Counts} {t : ETy}
    (hs : steady s = true) (ht : laneTypeOf ok s.my = some t) (h : registers s.my [(b, 1), (d, 1)] = true) :
    let r := lanes s.my m t.width (held s d) fun k => f t (elemOf (held s b) t.width k)
    vecOne ok m b d f s = .ok (.seq, counted (putVec 0 d r.1 s) r.2) := by
  have hb := registers_port h (f := b) (n := 1) (by simp) (by decide)
  have hd := registers_port h (f := d) (n := 1) (by simp) (by decide)
  unfold vecOne
  rw [M.bind_of (laneType_ok ht), M.bind_of (allocated_ok (registers_cons h)),
    M.bind_of (portUse_ok (usable_plain (by simpa using hb) (by simpa using hd))), M.bind_of (vsrc_plain hb), M.bind_of (oldVec_plain hd), M.get_bind]
  dsimp only
  rw [M.bind_of (vdst_plain (steady_le hs) (steady_pair hs) hd), M.bind_of (tally_ok _ _)]
  rfl

end Sys2Proof.Machine
end

