-- ==== Sys2Proof/Tests/Slice0.lean ====
section
/-! SUPPORT. Checks of this package's own work: ill-formed instructions, words written out from the spec's encodings, and for
each statement a state and operands that meet its hypotheses. -/

namespace Sys2Proof.Tests

open Sys2Proof.Machine Sys2Proof.Safety

set_option Elab.async false

/-! ### Ill-formed instructions: one or more for each check of WellFormed -/

/-- R46, R56, R60: a register outside its class, a reserved function code, condition, scope or type code, operands that must
differ or agree, and an event, which has no word. -/
def illFormed : List (List Instr) :=
  [[.addR 0 30 1 2, .addR 0 1 30 2, .subR 0 1 2 29, .andR 1 2 31, .cmp 6 1 2 3, .cmp 15 1 2 3, .sel 1 2 24, .clz 30 1],
   [.addImm 0 1 29, .shlImm 0 0 30 1, .movi 0 24, .movh 0 29, .div 0 1 2 29, .amesh 30 1 2, .apost 1 30 2, .awalk 0 19 16],
   [.awalk 64 2 16, .awalk 64 20 16, .awalk 64 19 15, .beq 0 30 1, .bgen 0 1 30, .rep 0 24, .jmp 0 29, .jr 30 0],
   [.callr 31, .ldD 0 15 3, .ldB 0 24 3, .ldW 0 16 29, .stD 0 15 3, .stB 0 16 30, .ldstrLoad 0 7 0 1 16 2, .ldstrLoad 1 3 0 1 16 2],
   [.ldstrStore 1 3 0 1 16 2, .ldstrStore 0 3 0 1 15 2, .ldAcqW 6 1 16 2, .ldAcqD 0 30 16 2, .stRelW 6 1 16 2, .stRelD 7 1 16 2, .ldSc 1 15 2, .stSc 1 16 30],
   [.ldroD 1 16 29, .ldf 1 24 2, .pre 30 16, .bmov 1 1 2, .bmov 1 2 1, .bmov 1 2 2, .bmov 16 1 2, .amoAdd 0 7 1 16 2],
   [.amoCas 1 0 1 16 24, .amoFadd 1 0 1 15 2, .fence 6, .rflush 1 15, .rinv 30 16, .waitf 1 24, .srd 12 1, .srd 15 1],
   [.swr 12 1, .swr 7 1, .swr 11 1, .swr 0 30, .swrImm 0 15, .rfork 1 16 24, .join 15, .mig 30],
   [.amsg 1 16 25, .hmsg 30 1, .task 15 1, .dec 1 30, .pair 30 1, .pair 1 24, .unpair 27, .gstat 24],
   [.vmin 0 1 1 2 3, .vmov 0 0 1 2 3, .vmov 0 1 1 2 2, .vneg 0 0 1 2 3, .vabs 0 0 1 2 3, .vxchg 0 0 1 2 3, .vsqrt 0 0 1 2 3, .vnot 0 0 1 2 3],
   [.vmulh 0 1 1 2 3, .vaddLForm 0 0 0, .vcmpEq 0 1 2 8, .vcmpGen 0 1 2 31, .mand 8 1 2, .mor 1 8 2, .mxor 1 2 8, .mnot 8 1],
   [.mpop 1 29, .mfirst 8 1, .mfill 1 8, .vrsum 0 0 1 29, .vrmax 0 1 1 2, .vslup 0 30 1 2, .vbcast 0 30 1, .vext 0 1 2 29],
   [.vins 0 1 30 2, .vcvt 0 0 0 5 1 2, .vcvt 0 0 0 20 1 2, .vcvtw 0 0 0 22 1 2, .vcvtn 0 0 0 24 1 2, .qnt 0 0 23 1 2, .qnt 0 0 31 1 2, .dqnt 0 0 18 1 2],
   [.vld 0 0 30 16 1, .vst 0 0 1 15 1, .vldx 0 0 1 24 1, .vldfPost 0 0 30 16 1, .sbind 15 24, .qbind 30 24, .qctl 30 24, .hset 1 29],
   [.cpy 0 0 1 16 15, .cpyG 0 0 15, .cpyS 0 0 24, .cwaitAny 1 24, .cwaitAll 30, .cfind 1 29, .evk 1 15, .kick 1 2 24],
   [.mtile 0 4, .mdrain 0 4, .mset 8 1, .mred 30, .mlay 0 30, .mclr 4, .mstat 24, .pload 1 15],
   [.pbind 30 16, .pbindT 1 24, .pstat 1 24, .vreg 16 24, .vdrop 30, .vsync 30, .vstat 1 2 25, .vpol 1 30 2],
   [.stRep 1 16 15, .reconf 15 1, .cgjoin 16 24, .cgleave 30, .coll 1 15 2, .clogr 1 2 24, .cstart 30, .l1Fill]]

theorem test_ill_formed : illFormed.flatten.all (fun i => !WellFormed i) = true := by decide +kernel

/-- R59, R60, R61: words that no instruction has: a reserved opcode, f5 and f4 not listed, an unused field that is not 0,
a bad register; and a type code, which is told apart. -/
theorem test_bad_words :
    decode (natToBytes 4 0xFFFFFFFF) = .error .illegal ∧ decode (natToBytes 2 0) = .error .illegal ∧
    decode (natToBytes 4 (20 * 2 ^ 27 + 0x01 * 2 + 1)) = .error .illegal ∧ decode (natToBytes 4 (4 * 2 ^ 23 + 0x01 * 2 + 1)) = .error .illegal ∧
    decode (natToBytes 4 (2 ^ 8 + 2 * 2 ^ 27 + 0x1A * 2 + 1)) = .error .illegal ∧ decode (natToBytes 4 (30 * 2 ^ 13 + 0x01 * 2 + 1)) = .error .illegal ∧
    decode (natToBytes 4 (5 * 2 ^ 18 + 0x3B * 2 + 1)) = .error .typeCode ∧ decode (natToBytes 4 (0x76 * 2 + 1)) = .error .illegal := by
  refine ⟨rfl, rfl, rfl, rfl, rfl, rfl, rfl, rfl⟩

/-! ### Decoding: each word written out field by field from R43, R55 to R57, R214 and R272 -/

/-- Formats R, I, B, J, L and the pattern format (R43, R272). -/
def wordR (f5 f4 b a d op : Nat) : Nat := f5 * 2 ^ 27 + f4 * 2 ^ 23 + b * 2 ^ 18 + a * 2 ^ 13 + d * 2 ^ 8 + op * 2 + 1
def wordI (imm a d op : Nat) : Nat := imm * 2 ^ 18 + a * 2 ^ 13 + d * 2 ^ 8 + op * 2 + 1
def wordB (disp b a op : Nat) : Nat := disp * 2 ^ 18 + b * 2 ^ 13 + a * 2 ^ 8 + op * 2 + 1
def wordJ (imm d op : Nat) : Nat := imm * 2 ^ 13 + d * 2 ^ 8 + op * 2 + 1
def wordL (m vs vd op4 : Nat) : Nat := m * 2 ^ 15 + vs * 2 ^ 10 + vd * 2 ^ 5 + op4 * 2
def wordP (sel b imm a d op : Nat) : Nat := sel * 2 ^ 30 + b * 2 ^ 26 + imm * 2 ^ 18 + a * 2 ^ 14 + d * 2 ^ 8 + op * 2 + 1

/-- The n bytes of word w decode to i, with nothing left over. -/
def reads (n w : Nat) (i : Instr) : Prop := decode (natToBytes n w) = .ok (i, [])

/-- R55, R56: ALU, 0x01. -/
theorem test_words_alu :
    reads 4 (wordR 0 0 3 1 2 0x01) (.addR 0 3 1 2) ∧
    reads 4 (wordR 1 1 3 1 2 0x01) (.subR 1 3 1 2) ∧
    reads 4 (wordR 2 0 3 1 2 0x01) (.andR 3 1 2) ∧
    reads 4 (wordR 3 0 3 1 2 0x01) (.orR 3 1 2) ∧
    reads 4 (wordR 4 0 3 1 2 0x01) (.xorR 3 1 2) ∧
    reads 4 (wordR 5 1 3 1 2 0x01) (.shl 1 3 1 2) ∧
    reads 4 (wordR 6 2 3 1 2 0x01) (.shr 2 3 1 2) ∧
    reads 4 (wordR 7 3 3 1 2 0x01) (.sar 3 3 1 2) ∧
    reads 4 (wordR 8 0 3 1 2 0x01) (.min 0 3 1 2) ∧
    reads 4 (wordR 9 1 3 1 2 0x01) (.max 1 3 1 2) ∧
    reads 4 (wordR 10 2 3 1 2 0x01) (.minn 2 3 1 2) ∧
    reads 4 (wordR 11 3 3 1 2 0x01) (.maxn 3 3 1 2) ∧
    reads 4 (wordR 12 5 3 1 2 0x01) (.cmp 5 3 1 2) ∧
    reads 4 (wordR 13 0 3 1 2 0x01) (.sel 3 1 2) ∧
    reads 4 (wordR 14 0 0 1 2 0x01) (.clz 1 2) ∧
    reads 4 (wordR 15 0 0 1 2 0x01) (.ctz 1 2) ∧
    reads 4 (wordR 16 0 0 1 2 0x01) (.popc 1 2) ∧
    reads 4 (wordR 17 0 3 1 2 0x01) (.mul 3 1 2) ∧
    reads 4 (wordR 18 0 3 1 2 0x01) (.mulh 3 1 2) ∧
    reads 4 (wordR 19 0 3 1 2 0x01) (.mulhn 3 1 2) := by
  refine ⟨rfl, rfl, rfl, rfl, rfl, rfl, rfl, rfl, rfl, rfl, rfl, rfl, rfl, rfl, rfl, rfl, rfl, rfl, rfl, rfl⟩

/-- R55, R56, R92 to R94: the immediates, DIVOP, ADDR and AWALK. -/
theorem test_words_immediate :
    reads 4 (wordI 0x3FFF 9 28 0x02) (.addImm 0x3FFF 9 28) ∧
    reads 4 (wordI 0x2000 9 15 0x03) (.andImm 0x2000 9 15) ∧
    reads 4 (wordI 0x1FFF 9 15 0x04) (.orImm 0x1FFF 9 15) ∧
    reads 4 (wordI 1 9 15 0x05) (.xorImm 1 9 15) ∧
    reads 4 (wordI (0 * 4096 + 1 * 1024 + 37) 9 15 0x06) (.shlImm 1 37 9 15) ∧
    reads 4 (wordI (1 * 4096 + 2 * 1024 + 255) 9 15 0x06) (.shrImm 2 255 9 15) ∧
    reads 4 (wordI (2 * 4096 + 3 * 1024 + 7) 9 15 0x06) (.sarImm 3 7 9 15) ∧
    reads 4 (wordJ 0x40001 20 0x08) (.movi 0x40001 20) ∧
    reads 4 (wordJ 0x7FFFF 5 0x09) (.movh 0x7FFFF 5) ∧
    reads 4 (wordR 0 1 3 1 2 0x0A) (.div 1 3 1 2) ∧
    reads 4 (wordR 1 2 3 1 2 0x0A) (.divn 2 3 1 2) ∧
    reads 4 (wordR 2 3 3 1 2 0x0A) (.rem 3 3 1 2) ∧
    reads 4 (wordR 3 4 3 1 2 0x0A) (.remn 4 3 1 2) ∧
    reads 4 (wordR 0 0 3 1 16 0x0B) (.amesh 3 1 16) ∧
    reads 4 (wordR 1 0 3 16 17 0x0B) (.apost 3 16 17) ∧
    reads 4 (wordI (64 * 128 + 19) 16 0 0x0C) (.awalk 64 19 16) := by
  refine ⟨rfl, rfl, rfl, rfl, rfl, rfl, rfl, rfl, rfl, rfl, rfl, rfl, rfl, rfl, rfl, rfl⟩

/-- R43, R55, R56, R101: control flow. -/
theorem test_words_control :
    reads 4 (wordB 0x3FFE 5 4 0x10) (.beq 0x3FFE 5 4) ∧
    reads 4 (wordB 0x3FFE 5 4 0x11) (.bne 0x3FFE 5 4) ∧
    reads 4 (wordB 0x3FFE 5 4 0x12) (.blt 0x3FFE 5 4) ∧
    reads 4 (wordB 0x3FFE 5 4 0x13) (.bge 0x3FFE 5 4) ∧
    reads 4 (wordB 0x3FFE 5 4 0x14) (.bltn 0x3FFE 5 4) ∧
    reads 4 (wordB 0x3FFE 5 4 0x15) (.bgen 0x3FFE 5 4) ∧
    reads 4 (wordB 0x2000 0 15 0x16) (.rep 0x2000 15) ∧
    reads 4 (wordJ 0x7FFFF 28 0x18) (.jmp 0x7FFFF 28) ∧
    reads 4 (wordJ 0x40000 0 0x19) (.call 0x40000) ∧
    reads 4 (wordR 0 0 0 5 28 0x1A) (.jr 5 28) ∧
    reads 4 (wordR 1 0 0 5 0 0x1A) (.callr 5) ∧
    reads 4 (wordR 2 0 0 0 0 0x1A) (.ret) ∧
    reads 4 (wordR 3 0 0 0 0 0x1A) (.eret) ∧
    reads 4 (wordR 4 0 0 0 0 0x1A) (.yield) ∧
    reads 4 (wordR 5 0 0 0 0 0x1A) (.exit) ∧
    reads 4 (wordI 0xFFF 0 0 0x1B) (.trap 0xFFF) := by
  refine ⟨rfl, rfl, rfl, rfl, rfl, rfl, rfl, rfl, rfl, rfl, rfl, rfl, rfl, rfl, rfl, rfl⟩

/-- R55, R56, R102 to R111: loads, stores and MEMX. -/
theorem test_words_memory :
    reads 4 (wordI 0x3FF8 17 6 0x20) (.ldB 0x3FF8 17 6) ∧
    reads 4 (wordI 0x3FF8 17 6 0x21) (.ldH 0x3FF8 17 6) ∧
    reads 4 (wordI 0x3FF8 17 6 0x22) (.ldW 0x3FF8 17 6) ∧
    reads 4 (wordI 0x3FF8 17 6 0x23) (.ldD 0x3FF8 17 6) ∧
    reads 4 (wordI 0x3FF8 17 6 0x24) (.ldnB 0x3FF8 17 6) ∧
    reads 4 (wordI 0x3FF8 17 6 0x25) (.ldnH 0x3FF8 17 6) ∧
    reads 4 (wordI 0x3FF8 17 6 0x26) (.ldnW 0x3FF8 17 6) ∧
    reads 4 (wordI 8 23 29 0x28) (.stB 8 23 29) ∧
    reads 4 (wordI 8 23 29 0x29) (.stH 8 23 29) ∧
    reads 4 (wordI 8 23 29 0x2A) (.stW 8 23 29) ∧
    reads 4 (wordI 8 23 29 0x2B) (.stD 8 23 29) ∧
    reads 4 (wordR (0 * 16 + 0 * 8 + 6) 2 4 17 3 0x2C) (.ldstrLoad 0 6 2 4 17 3) ∧
    reads 4 (wordR (0 * 16 + 1 * 8 + 3) 0 28 17 3 0x2C) (.ldstrLoad 1 3 0 28 17 3) ∧
    reads 4 (wordR (1 * 16 + 0 * 8 + 2) 0 4 17 3 0x2C) (.ldstrStore 0 2 0 4 17 3) ∧
    reads 4 (wordR (1 * 16 + 1 * 8 + 3) 15 28 17 3 0x2C) (.ldstrStore 1 3 15 28 17 3) ∧
    reads 4 (wordR 0 2 4 17 3 0x2D) (.ldAcqW 2 4 17 3) ∧
    reads 4 (wordR 1 3 4 17 3 0x2D) (.ldAcqD 3 4 17 3) ∧
    reads 4 (wordR 2 4 4 17 3 0x2D) (.stRelW 4 4 17 3) ∧
    reads 4 (wordR 3 5 4 17 3 0x2D) (.stRelD 5 4 17 3) ∧
    reads 4 (wordR 4 0 4 17 3 0x2D) (.ldSc 4 17 3) ∧
    reads 4 (wordR 5 0 4 17 3 0x2D) (.stSc 4 17 3) ∧
    reads 4 (wordR 6 0 4 17 3 0x2D) (.ldroW 4 17 3) ∧
    reads 4 (wordR 7 0 4 17 3 0x2D) (.ldroD 4 17 3) ∧
    reads 4 (wordR 8 0 4 17 3 0x2D) (.ldf 4 17 3) ∧
    reads 4 (wordR 9 0 4 17 0 0x2D) (.pre 4 17) ∧
    reads 4 (wordR 10 0 4 5 6 0x2D) (.bmov 4 5 6) := by
  refine ⟨rfl, rfl, rfl, rfl, rfl, rfl, rfl, rfl, rfl, rfl, rfl, rfl, rfl, rfl, rfl, rfl, rfl, rfl, rfl, rfl, rfl, rfl, rfl, rfl, rfl, rfl⟩

/-- R56: AMO and SYNC. -/
theorem test_words_atomic :
    reads 4 (wordR 0 (0 * 8 + 0) 4 17 3 0x2E) (.amoAdd 0 0 4 17 3) ∧
    reads 4 (wordR 1 (1 * 8 + 1) 4 17 3 0x2E) (.amoMin 1 1 4 17 3) ∧
    reads 4 (wordR 2 (0 * 8 + 2) 4 17 3 0x2E) (.amoMax 0 2 4 17 3) ∧
    reads 4 (wordR 3 (1 * 8 + 3) 4 17 3 0x2E) (.amoMinn 1 3 4 17 3) ∧
    reads 4 (wordR 4 (0 * 8 + 4) 4 17 3 0x2E) (.amoMaxn 0 4 4 17 3) ∧
    reads 4 (wordR 5 (1 * 8 + 5) 4 17 3 0x2E) (.amoAnd 1 5 4 17 3) ∧
    reads 4 (wordR 6 (0 * 8 + 6) 4 17 3 0x2E) (.amoOr 0 6 4 17 3) ∧
    reads 4 (wordR 7 (1 * 8 + 0) 4 17 3 0x2E) (.amoXor 1 0 4 17 3) ∧
    reads 4 (wordR 8 (0 * 8 + 1) 4 17 3 0x2E) (.amoSwp 0 1 4 17 3) ∧
    reads 4 (wordR 9 (1 * 8 + 2) 4 17 3 0x2E) (.amoCas 1 2 4 17 3) ∧
    reads 4 (wordR 10 (0 * 8 + 3) 4 17 3 0x2E) (.amoFadd 0 3 4 17 3) ∧
    reads 4 (wordR 0 5 0 0 0 0x2F) (.fence 5) ∧
    reads 4 (wordR 1 0 0 0 0 0x2F) (.barT) ∧
    reads 4 (wordR 2 0 0 0 0 0x2F) (.barG) ∧
    reads 4 (wordR 3 0 4 17 0 0x2F) (.rflush 4 17) ∧
    reads 4 (wordR 4 0 4 17 0 0x2F) (.rinv 4 17) ∧
    reads 4 (wordR 5 0 4 17 0 0x2F) (.waitf 4 17) := by
  refine ⟨rfl, rfl, rfl, rfl, rfl, rfl, rfl, rfl, rfl, rfl, rfl, rfl, rfl, rfl, rfl, rfl, rfl⟩

/-- R56: STATE, SWR imm, EXEC and SYS. -/
theorem test_words_system :
    reads 4 (wordR 0 0 31 0 3 0x30) (.srd 31 3) ∧
    reads 4 (wordR 1 0 10 3 0 0x30) (.swr 10 3) ∧
    reads 4 (wordI 0x3FFF 0 2 0x31) (.swrImm 0x3FFF 2) ∧
    reads 4 (wordR 0 0 4 17 3 0x32) (.rfork 4 17 3) ∧
    reads 4 (wordR 1 0 0 17 0 0x32) (.join 17) ∧
    reads 4 (wordR 2 0 0 4 0 0x32) (.mig 4) ∧
    reads 4 (wordR 3 0 4 17 3 0x32) (.amsg 4 17 3) ∧
    reads 4 (wordR 4 0 4 5 0 0x32) (.hmsg 4 5) ∧
    reads 4 (wordR 5 0 0 17 3 0x32) (.task 17 3) ∧
    reads 4 (wordR 6 0 4 5 0 0x32) (.dec 4 5) ∧
    reads 4 (wordR 0 0 0 4 3 0x33) (.pair 4 3) ∧
    reads 4 (wordR 1 0 0 0 3 0x33) (.unpair 3) ∧
    reads 4 (wordR 2 0 0 17 0 0x33) (.gstat 17) ∧
    reads 4 (wordR 3 0 0 0 0 0x33) (.halt) := by
  refine ⟨rfl, rfl, rfl, rfl, rfl, rfl, rfl, rfl, rfl, rfl, rfl, rfl, rfl, rfl⟩

/-- R56: VARITH. -/
theorem test_words_lanes :
    reads 4 (wordR 0 (8 + 1) 31 9 30 0x38) (.vadd 1 1 31 9 30) ∧
    reads 4 (wordR 1 (8 + 2) 31 9 30 0x38) (.vsub 1 2 31 9 30) ∧
    reads 4 (wordR 2 (8 + 3) 31 9 30 0x38) (.vmul 1 3 31 9 30) ∧
    reads 4 (wordR 3 (8 + 0) 31 9 30 0x38) (.vmin 1 0 31 9 30) ∧
    reads 4 (wordR 4 (8 + 0) 31 9 30 0x38) (.vmax 1 0 31 9 30) ∧
    reads 4 (wordR 5 (8 + 0) 31 9 30 0x38) (.vand 1 0 31 9 30) ∧
    reads 4 (wordR 6 (8 + 0) 31 9 30 0x38) (.vor 1 0 31 9 30) ∧
    reads 4 (wordR 7 (8 + 0) 31 9 30 0x38) (.vxor 1 0 31 9 30) ∧
    reads 4 (wordR 8 (8 + 0) 31 9 30 0x38) (.vshl 1 0 31 9 30) ∧
    reads 4 (wordR 9 (8 + 0) 31 9 30 0x38) (.vshr 1 0 31 9 30) ∧
    reads 4 (wordR 10 (8 + 0) 31 9 30 0x38) (.vsar 1 0 31 9 30) ∧
    reads 4 (wordR 11 (8 + 0) 31 30 30 0x38) (.vmov 1 0 31 30 30) ∧
    reads 4 (wordR 12 (8 + 0) 31 30 30 0x38) (.vneg 1 0 31 30 30) ∧
    reads 4 (wordR 13 (8 + 0) 31 30 30 0x38) (.vabs 1 0 31 30 30) ∧
    reads 4 (wordR 14 (8 + 3) 31 9 30 0x38) (.vrsub 1 3 31 9 30) ∧
    reads 4 (wordR 15 (8 + 0) 31 30 30 0x38) (.vxchg 1 0 31 30 30) ∧
    reads 4 (wordR 16 (8 + 2) 31 9 30 0x38) (.vdiv 1 2 31 9 30) ∧
    reads 4 (wordR 17 (8 + 3) 31 30 30 0x38) (.vsqrt 1 3 31 30 30) ∧
    reads 4 (wordR 18 (8 + 0) 31 9 30 0x38) (.vmulh 1 0 31 9 30) ∧
    reads 4 (wordR 19 (8 + 0) 31 9 30 0x38) (.vadds 1 0 31 9 30) ∧
    reads 4 (wordR 20 (8 + 0) 31 9 30 0x38) (.vsubs 1 0 31 9 30) ∧
    reads 4 (wordR 21 (8 + 1) 31 9 30 0x38) (.vabd 1 1 31 9 30) ∧
    reads 4 (wordR 22 (8 + 0) 31 30 30 0x38) (.vnot 1 0 31 30 30) := by
  refine ⟨rfl, rfl, rfl, rfl, rfl, rfl, rfl, rfl, rfl, rfl, rfl, rfl, rfl, rfl, rfl, rfl, rfl, rfl, rfl, rfl, rfl, rfl, rfl⟩

/-- R57: the L forms. -/
theorem test_words_short :
    reads 2 (wordL 1 31 1 0) (.vaddLForm 1 31 1) ∧
    reads 2 (wordL 1 31 2 1) (.vsubLForm 1 31 2) ∧
    reads 2 (wordL 1 31 3 2) (.vmulLForm 1 31 3) ∧
    reads 2 (wordL 1 31 4 3) (.vminLForm 1 31 4) ∧
    reads 2 (wordL 1 31 5 4) (.vmaxLForm 1 31 5) ∧
    reads 2 (wordL 1 31 6 5) (.vandLForm 1 31 6) ∧
    reads 2 (wordL 1 31 7 6) (.vorLForm 1 31 7) ∧
    reads 2 (wordL 1 31 8 7) (.vxorLForm 1 31 8) ∧
    reads 2 (wordL 1 31 9 8) (.vshlLForm 1 31 9) ∧
    reads 2 (wordL 1 31 10 9) (.vshrLForm 1 31 10) ∧
    reads 2 (wordL 1 31 11 10) (.vsarLForm 1 31 11) ∧
    reads 2 (wordL 1 31 12 11) (.vmovLForm 1 31 12) ∧
    reads 2 (wordL 1 31 13 12) (.vnegLForm 1 31 13) ∧
    reads 2 (wordL 1 31 14 13) (.vabsLForm 1 31 14) ∧
    reads 2 (wordL 1 31 15 14) (.vrsubLForm 1 31 15) ∧
    reads 2 (wordL 1 31 16 15) (.vxchgLForm 1 31 16) := by
  refine ⟨rfl, rfl, rfl, rfl, rfl, rfl, rfl, rfl, rfl, rfl, rfl, rfl, rfl, rfl, rfl, rfl⟩

/-- R56: VFMA, VWIDE, VCVT and VCMP. -/
theorem test_words_wide :
    reads 4 (wordR 0 (8 + 3) 31 9 30 0x39) (.vfma 1 3 31 9 30) ∧
    reads 4 (wordR 1 (8 + 3) 31 9 30 0x39) (.vfms 1 3 31 9 30) ∧
    reads 4 (wordR 2 (8 + 3) 31 9 30 0x39) (.vfnma 1 3 31 9 30) ∧
    reads 4 (wordR 3 (8 + 3) 31 9 30 0x39) (.vfnms 1 3 31 9 30) ∧
    reads 4 (wordR 0 2 31 10 28 0x3A) (.vwadd 0 2 31 10 28) ∧
    reads 4 (wordR 1 2 31 10 28 0x3A) (.vwsub 0 2 31 10 28) ∧
    reads 4 (wordR 2 2 31 10 28 0x3A) (.vwmul 0 2 31 10 28) ∧
    reads 4 (wordR 3 2 31 10 28 0x3A) (.vwmac 0 2 31 10 28) ∧
    reads 4 (wordR 4 2 31 10 28 0x3A) (.vqmac 0 2 31 10 28) ∧
    reads 4 (wordR 5 2 31 10 28 0x3A) (.vnshr 0 2 31 10 28) ∧
    reads 4 (wordR 0 (8 + 4 + 1) 0x12 9 30 0x3B) (.vcvt 1 1 1 0x12 9 30) ∧
    reads 4 (wordR 1 4 0x12 9 30 0x3B) (.vcvtw 0 1 0 0x12 9 30) ∧
    reads 4 (wordR 2 8 0x12 10 30 0x3B) (.vcvtn 1 0 0 0x12 10 30) ∧
    reads 4 (wordR 0 8 31 9 7 0x3C) (.vcmpEq 1 31 9 7) ∧
    reads 4 (wordR 1 8 31 9 7 0x3C) (.vcmpNe 1 31 9 7) ∧
    reads 4 (wordR 2 8 31 9 7 0x3C) (.vcmpLt 1 31 9 7) ∧
    reads 4 (wordR 3 8 31 9 7 0x3C) (.vcmpLe 1 31 9 7) ∧
    reads 4 (wordR 4 8 31 9 7 0x3C) (.vcmpGt 1 31 9 7) ∧
    reads 4 (wordR 5 8 31 9 7 0x3C) (.vcmpGe 1 31 9 7) ∧
    reads 4 (wordR 6 8 31 9 7 0x3C) (.vcmpLtn 1 31 9 7) ∧
    reads 4 (wordR 7 8 31 9 7 0x3C) (.vcmpGen 1 31 9 7) := by
  refine ⟨rfl, rfl, rfl, rfl, rfl, rfl, rfl, rfl, rfl, rfl, rfl, rfl, rfl, rfl, rfl, rfl, rfl, rfl, rfl, rfl, rfl⟩

/-- R56: VMASK, VRED and VPERM. -/
theorem test_words_masks :
    reads 4 (wordR 0 0 5 6 7 0x3D) (.mand 5 6 7) ∧
    reads 4 (wordR 1 0 5 6 7 0x3D) (.mor 5 6 7) ∧
    reads 4 (wordR 2 0 5 6 7 0x3D) (.mxor 5 6 7) ∧
    reads 4 (wordR 3 0 0 6 7 0x3D) (.mnot 6 7) ∧
    reads 4 (wordR 4 0 0 6 15 0x3D) (.mpop 6 15) ∧
    reads 4 (wordR 5 0 0 6 15 0x3D) (.mfirst 6 15) ∧
    reads 4 (wordR 6 0 0 15 7 0x3D) (.mfill 15 7) ∧
    reads 4 (wordR 7 0 31 9 30 0x3D) (.vsel 31 9 30) ∧
    reads 4 (wordR 0 10 0 31 4 0x3E) (.vrsum 1 2 31 4) ∧
    reads 4 (wordR 1 8 0 31 4 0x3E) (.vrmax 1 0 31 4) ∧
    reads 4 (wordR 2 8 0 31 4 0x3E) (.vrmin 1 0 31 4) ∧
    reads 4 (wordR 3 8 0 31 4 0x3E) (.vrand 1 0 31 4) ∧
    reads 4 (wordR 4 8 0 31 4 0x3E) (.vror 1 0 31 4) ∧
    reads 4 (wordR 5 8 0 31 4 0x3E) (.vrxor 1 0 31 4) ∧
    reads 4 (wordR 0 8 31 9 30 0x3F) (.vperm 1 31 9 30) ∧
    reads 4 (wordR 1 8 5 31 30 0x3F) (.vslup 1 5 31 30) ∧
    reads 4 (wordR 2 0 5 31 30 0x3F) (.vsldn 0 5 31 30) ∧
    reads 4 (wordR 3 8 0 5 30 0x3F) (.vbcast 1 5 30) ∧
    reads 4 (wordR 4 0 5 31 6 0x3F) (.vext 0 5 31 6) ∧
    reads 4 (wordR 5 8 5 6 30 0x3F) (.vins 1 5 6 30) ∧
    reads 4 (wordR 6 0 31 9 30 0x3F) (.vzip 0 31 9 30) ∧
    reads 4 (wordR 7 8 31 9 30 0x3F) (.vunzip 1 31 9 30) ∧
    reads 4 (wordR 8 0 0 31 30 0x3F) (.vcomp 0 31 30) := by
  refine ⟨rfl, rfl, rfl, rfl, rfl, rfl, rfl, rfl, rfl, rfl, rfl, rfl, rfl, rfl, rfl, rfl, rfl, rfl, rfl, rfl, rfl, rfl, rfl⟩

/-- R56: VQ, VMEM and VCTL. -/
theorem test_words_vectorMemory :
    reads 4 (wordR (0 * 4 + 3) 5 0x15 8 10 0x40) (.qnt 3 5 0x15 8 10) ∧
    reads 4 (wordR (1 * 4 + 0) 0 0x18 8 16 0x40) (.dqnt 0 0 0x18 8 16) ∧
    reads 4 (wordR (0 * 16 + 0) 1 5 17 30 0x41) (.vld 0 1 5 17 30) ∧
    reads 4 (wordR (1 * 16 + 1) 2 5 17 30 0x41) (.vst 1 2 5 17 30) ∧
    reads 4 (wordR (0 * 16 + 2) 3 5 17 30 0x41) (.vlds 0 3 5 17 30) ∧
    reads 4 (wordR (1 * 16 + 3) 4 5 17 30 0x41) (.vsts 1 4 5 17 30) ∧
    reads 4 (wordR (0 * 16 + 4) 5 5 17 30 0x41) (.vldx 0 5 5 17 30) ∧
    reads 4 (wordR (1 * 16 + 5) 6 5 17 30 0x41) (.vstx 1 6 5 17 30) ∧
    reads 4 (wordR (0 * 16 + 6) 7 5 17 30 0x41) (.vldf 0 7 5 17 30) ∧
    reads 4 (wordR (1 * 16 + 7) 8 5 17 30 0x41) (.vstf 1 8 5 17 30) ∧
    reads 4 (wordR (16 + 8) 15 28 17 30 0x41) (.vldPost 1 15 17 30) ∧
    reads 4 (wordR 9 1 28 17 30 0x41) (.vstPost 0 1 17 30) ∧
    reads 4 (wordR 14 1 5 17 30 0x41) (.vldfPost 0 1 5 17 30) ∧
    reads 4 (wordR (16 + 15) 0 5 17 30 0x41) (.vstfPost 1 0 5 17 30) ∧
    reads 4 (wordR 0 0 0 17 24 0x42) (.sbind 17 24) ∧
    reads 4 (wordR 1 0 5 0 31 0x42) (.qbind 5 31) ∧
    reads 4 (wordR 2 0 0 0 24 0x42) (.unbind 24) ∧
    reads 4 (wordR 3 0 0 5 31 0x42) (.qctl 5 31) ∧
    reads 4 (wordR 4 0 0 5 6 0x42) (.hset 5 6) := by
  refine ⟨rfl, rfl, rfl, rfl, rfl, rfl, rfl, rfl, rfl, rfl, rfl, rfl, rfl, rfl, rfl, rfl, rfl, rfl, rfl⟩

/-- R56: CPYOP and COMP; R214: the two words it gives. -/
theorem test_words_compositor :
    reads 4 (wordR (0 * 4 + 3) 15 5 17 18 0x48) (.cpy 3 15 5 17 18) ∧
    reads 4 (wordR (1 * 4 + 2) 1 17 0 0 0x48) (.cpyG 2 1 17) ∧
    reads 4 (wordR (2 * 4 + 1) 0 17 0 0 0x48) (.cpyS 1 0 17) ∧
    reads 4 (wordR 0 0 0 5 6 0x49) (.cwaitAny 5 6) ∧
    reads 4 (wordR 1 0 0 5 0 0x49) (.cwaitAll 5) ∧
    reads 4 (wordR 2 0 0 5 6 0x49) (.cfind 5 6) ∧
    reads 4 (wordR 3 0 5 17 0 0x49) (.evk 5 17) ∧
    reads 4 (wordR 4 0 4 5 6 0x49) (.kick 4 5 6) ∧
    reads 4 (0x000000E9) (.ctake) ∧
    reads 4 (0x000080EB) (.cstart 4) := by
  refine ⟨rfl, rfl, rfl, rfl, rfl, rfl, rfl, rfl, rfl, rfl⟩

/-- R56: MAT, PAT, IMPR and FAB. -/
theorem test_words_engines :
    reads 4 (wordI (0 * 256 + 63) 0 0 0x4A) (.mwld 63) ∧
    reads 4 (wordI (1 * 256 + 63) 0 3 0x4A) (.mtile 63 3) ∧
    reads 4 (wordI (2 * 256 + 63) 0 3 0x4A) (.mdrain 63 3) ∧
    reads 4 (wordI (3 * 256 + 7) 5 0 0x4A) (.mset 7 5) ∧
    reads 4 (wordI (4 * 256 + 0) 0 0 0x4A) (.mwait) ∧
    reads 4 (wordI (5 * 256 + 0) 5 0 0x4A) (.mred 5) ∧
    reads 4 (wordI (6 * 256 + 0) 0 0 0x4A) (.mresume) ∧
    reads 4 (wordI (7 * 256 + 63) 5 0 0x4A) (.mlay 63 5) ∧
    reads 4 (wordI (8 * 256 + 0) 0 3 0x4A) (.mclr 3) ∧
    reads 4 (wordI (9 * 256 + 0) 0 5 0x4A) (.mstat 5) ∧
    reads 4 (wordR 0 0 5 17 0 0x4B) (.pload 5 17) ∧
    reads 4 (wordR 1 0 5 17 0 0x4B) (.pbind 5 17) ∧
    reads 4 (wordR 1 1 5 17 0 0x4B) (.pbindT 5 17) ∧
    reads 4 (wordR 2 0 5 0 6 0x4B) (.pstat 5 6) ∧
    reads 4 (wordR 0 0 0 17 6 0x4C) (.vreg 17 6) ∧
    reads 4 (wordR 1 0 0 5 0 0x4C) (.vdrop 5) ∧
    reads 4 (wordR 2 0 0 5 0 0x4C) (.vsync 5) ∧
    reads 4 (wordR 3 0 4 5 6 0x4C) (.vstat 4 5 6) ∧
    reads 4 (wordR 4 0 4 5 6 0x4C) (.vpol 4 5 6) ∧
    reads 4 (wordR 0 0 5 17 18 0x4D) (.stRep 5 17 18) ∧
    reads 4 (wordR 1 0 0 17 6 0x4D) (.reconf 17 6) ∧
    reads 4 (wordR 2 0 0 17 6 0x4D) (.cgjoin 17 6) ∧
    reads 4 (wordR 3 0 0 5 0 0x4D) (.cgleave 5) ∧
    reads 4 (wordR 4 0 5 17 6 0x4D) (.coll 5 17 6) ∧
    reads 4 (wordR 5 0 4 5 6 0x4D) (.clogr 4 5 6) := by
  refine ⟨rfl, rfl, rfl, rfl, rfl, rfl, rfl, rfl, rfl, rfl, rfl, rfl, rfl, rfl, rfl, rfl, rfl, rfl, rfl, rfl, rfl, rfl, rfl, rfl, rfl⟩

/-- R272, R273: the pattern words, as a generator reads them. -/
theorem test_words_pattern :
    decodeTableWord 32 (wordP 0 0 0xFF 0 15 0x70) = some (.kldi 0xFF 15) ∧
    decodeTableWord 32 (wordP 1 0 0x80 14 15 0x70) = some (.kaddi 0x80 14 15) ∧
    decodeTableWord 32 (wordP 2 13 0 14 15 0x70) = some (.kadd 13 14 15) ∧
    decodeTableWord 32 (wordP 3 13 0 14 15 0x70) = some (.ksub 13 14 15) ∧
    decodeTableWord 32 (wordP 0 13 0 14 15 0x71) = some (.kmul 13 14 15) ∧
    decodeTableWord 32 (wordP 1 13 0 14 15 0x71) = some (.kdiv 13 14 15) ∧
    decodeTableWord 32 (wordP 2 13 0 14 15 0x71) = some (.kmod 13 14 15) ∧
    decodeTableWord 32 (wordP 3 13 0 14 15 0x71) = some (.kmin 13 14 15) ∧
    decodeTableWord 32 (wordP 0 13 0 14 15 0x72) = some (.kmax 13 14 15) ∧
    decodeTableWord 32 (wordP 2 13 0 14 15 0x72) = some (.khash 13 14 15) ∧
    decodeTableWord 32 (wordP 1 0 31 14 15 0x72) = some (.kshr 31 14 15) ∧
    decodeTableWord 32 (wordP 3 0 7 0 15 0x72) = some (.kldp 7 15) ∧
    decodeTableWord 32 (wordP 0 13 0 14 0 0x73) = some (.kemit 13 14) ∧
    decodeTableWord 32 (wordP 1 13 0xFE 14 0 0x73) = some (.kblt 13 0xFE 14) ∧
    decodeTableWord 32 (wordP 2 0 0xFE 14 0 0x73) = some (.kloop 0xFE 14) ∧
    decodeTableWord 32 (wordP 3 0 0 0 0 0x73) = some (.kend) := by
  refine ⟨rfl, rfl, rfl, rfl, rfl, rfl, rfl, rfl, rfl, rfl, rfl, rfl, rfl, rfl, rfl, rfl⟩

/-! ### Witnesses: a small state, and for each statement a state and operands that meet its hypotheses -/

/-- m answers at s, and k holds of its answer and of the state it leaves. -/
def runs {α : Type} (m : M α) (s : State) (k : α → State → Bool) : Bool := match m s with | .ok (a, u) => k a u | .error _ => false

/-- There is a value, and k holds of it. -/
def has {α : Type} (o : Option α) (k : α → Bool := fun _ => true) : Bool := match o with | some x => k x | none => false

theorem runs_does {α : Type} {m : M α} {s : State} {k : α → State → Bool} (h : runs m s k = true) : ∃ a u, Does m s a u ∧ k a u = true := by
  unfold runs at h
  split at h
  · exact ⟨_, _, ‹_›, h⟩
  · cases h

theorem has_some {α : Type} {o : Option α} {k : α → Bool} (h : has o k = true) : ∃ x, o = some x ∧ k x = true := by
  unfold has at h
  split at h
  · exact ⟨_, rfl, h⟩
  · cases h

/-- A strand of tenant 1 in context 0 of core 0, with 32 vector registers: a0 points to its own store, a1 to a page of
package memory, a2 to the store of core 1. Tenant 1 has cores 0 and 1. Its context is changed by f, its core by g. -/
def strand (f : Ctx → Ctx) (g : Core → Core) : State :=
  let s := { State.reset.placeStrand [] with
    cur := .strand 0 0
    binds := [(0, { Bind.empty with record := BitVec.ofNat 512 (1 + 2 * 2 ^ 32 + 2 ^ 40 + 32 * 2 ^ 48 + 2 ^ 56 + 65535 * 2 ^ 80), live := true })] }
  (s.updMy fun c => f { c with areg := vset (vset (vset c.areg 0 (2 ^ 62)) 1 0x20000) 2 (2 ^ 62 + 2 ^ 56) }).updMyCore g

/-- The same strand, its context changed by f. -/
def ctx (f : Ctx → Ctx) : State := strand f id

/-- The same strand with bytes in memory at an address. -/
def holding (k : Nat) (bs : List Byte) : State := { strand id id with mem := memWrite [] k bs }

/-- The hart of core 0. -/
def hartOf : State := { State.reset.placeHart [] with cur := .hart 0 }

/-- The state as it stands. -/
def plain : State := strand id id

theorem test_agents : (steady plain && steady hartOf && hasAgent plain && hasAgent hartOf && hartOf.isHart) = true := by decide +kernel

/-- What ScalarOperations asks of an instruction and a state. -/
def scalarReady (i : Instr) (s : State) : Bool :=
  has (scalarOp i) fun op => ready i s && s.my.operands.isEmpty && (op.srcs ++ [op.dest]).all (portOk s) &&
    has (op.srcs.mapM (value s)) fun xs => has (written (taken s op.srcs) op.dest (op.result s xs))

/-- Registers; the east port as both sources and destination; zr; CTAG by a strand and by a hart; SRD. -/
theorem witness_ScalarOperations :
    (scalarReady (.addR 3 28 1 15) plain && scalarReady (.subR 0 25 25 25) (strand id fun c => { c with fifo := vset c.fifo 1 [7] }) &&
     scalarReady (.movi 0x40000 23) plain && scalarReady (.orR 29 28 28) hartOf && scalarReady (.srd 31 0) plain &&
     scalarReady (.divn 0 0 28 9) plain) = true := by decide +kernel

/-- An empty port; a full one; a port off the mesh, and one of another tenant after a port that passes. -/
theorem witness_ScalarPorts :
    (ready (.addR 0 2 25 3) plain && [25, 2, 3].all (portOk plain) && !(plain.core 1).dead && ([25, 2].mapM (value plain)).isNone &&
     (written (({ plain with cores := put plain.cores 1 { Core.reset with fifo := vset Core.reset.fifo 3 (List.replicate 8 0) } } : State)) 25 5).isNone &&
     !portOk plain 24 && portOk plain 25 && !portOk plain 26 && ready (.addR 0 26 25 3) plain && has (scalarOp (.addR 0 26 25 3)) fun op =>
       op.srcs ++ [op.dest] == [25] ++ 26 :: [3]) = true := by decide +kernel

/-- The last lane of each width, and the last of 1,024 elements, none of them active. -/
theorem witness_Lanes : 7 < 64 / laneWidth 3 ∧ 0 < 64 / laneWidth 0 ∧ 4 ∈ [4, 8, 16, 32, 64] ∧ 1023 < 4096 / 4 ∧ 63 < 4096 / 64 ∧
    ∀ i, Ctx.reset.active 1 i = false := by
  refine ⟨by decide, by decide, by decide, by decide, by decide, fun i => ?_⟩
  show (false || (0#1024).getLsbD i) = false
  simp

/-- A division with la 15, to a register and to zr; a pending write with one boundary left and with none; one that a later write
of the same register cancels, one of another register, and a word for a port. -/
theorem witness_Lookahead :
    (has (lookOp (.div 15 2 1 4)) (fun _ => ready (.div 15 2 1 4) plain && plain.my.operands.isEmpty && has (value plain 1)) &&
     has (landingOf 4 3) && (landingOf 28 3).isNone && ((ctx fun c => { c with pend := [⟨0 + 1, .gpr 4 3⟩] }).ctx 0 0).pair.isNone &&
     has (landed (.gpr 4 3) (boundary 0 4 .seq plain.my)) && has (written (ctx fun c => { c with pend := [⟨3, .gpr 4 3⟩] }) 4 9) &&
     has (landingOf 4 9) (fun l => (Landing.gpr 4 3).same l) && has (landingOf 5 9) (fun l => !(Landing.gpr 4 3).same l) &&
     has (landingOf 25 9) (fun l => !(Landing.send 1 3).same l)) = true := by decide +kernel

theorem witness_Boundary : ((plain.ctx 0 0).pend.isEmpty && (plain.ctx 0 0).pair.isNone && (plain.ctx 0 0).hot.isNone && (plain.ctx 0 0).touched.isEmpty && (plain.ctx 0 8).pend.isEmpty
    && (plain.ctx 0 8).pair.isNone && (plain.ctx 0 8).hot.isNone && (plain.ctx 0 8).touched.isEmpty) = true := by decide +kernel

/-- A branch taken and one not; REP with one pass left, and with two. -/
theorem witness_Branches :
    (has (branchOp (.bge 0x2000 2 1)) (fun _ => ready (.bge 0x2000 2 1) plain && has (value plain 1) && has (value plain 2)) &&
     ready (.rep 0x3FFF 7) (ctx fun c => c.setG 7 1) && has (written (ctx fun c => c.setG 7 1) 7 0) &&
     has (written (ctx fun c => c.setG 7 2) 7 1)) = true := by decide +kernel

/-- J; the return of a light handler; JR to an instruction address, with and without a link; and to an odd address. -/
theorem witness_Jumps :
    (ready (.jmp 0x40000 28) plain && has (written plain 28 (plain.my.pc + 4)) && ready (.jr 28 28) (ctx fun c => { c with lh := true }) &&
     ready (.jr 1 28) plain && has (value plain 1) codeAddress && codeAddress (plain.my.pc + 4) && has (written (taken plain [1]) 0 (plain.my.pc + 4)) &&
     has (value (ctx fun c => c.setG 1 3) 1) (fun x => !codeAddress x)) = true := by decide +kernel

/-- Calls at the depth limit, with every slot resident and with one free; returns at depth 0, with only the window resident and
with a frame more, whose link is and is not an instruction address; CALLR to an odd address; the frame of a callee. -/
theorem witness_Calls :
    (ready (.call 0) plain && leaf plain.my && ready (.callr 1) plain && has (value plain 1) codeAddress && codeAddress (plain.my.pc + 4) &&
     (ctx fun c => { c with depth := 0xFFFF }).my.depth == 0xFFFF && (ctx fun c => { c with res := 8 }).my.res == plain.my.cap &&
     decide (plain.my.res < plain.my.cap) && ready .ret plain && plain.my.depth == 0 && plain.my.res == 2 &&
     (ctx fun c => { c with depth := 1, res := 3 }).my.toRegs.link 2 == 0 && codeAddress 0 &&
     has (value (ctx fun c => c.setG 1 3) 1) (fun x => !codeAddress x) &&
     !plain.my.trap && decide (0 < plain.my.cap) && decide (plain.my.cap ≤ 8)) = true := by decide +kernel

theorem witness_LeafCode :
    ([Instr.call 0, .callr 1, .ret, .yield, .mig 1].all fun i => ready i (ctx fun c => { c with trap := true }) &&
      ready i (ctx fun c => { c with lh := true })) = true := by decide +kernel

/-- A strand outside a handler and within one, and a hart. -/
theorem witness_TrapInstruction :
    (ready (.trap 0xFFF) plain && ready (.trap 0) hartOf && !plain.isHart && hartOf.isHart && ready (.trap 0) (ctx fun c => { c with trap := true }) &&
     bitsAt (plain.my.pc + 4) 56 8 == 0) = true := by decide +kernel

theorem witness_TrapTaking : ((plain.ctx 0 0).pend.isEmpty && (plain.ctx 0 0).pair.isNone && (plain.ctx 0 0).operands.isEmpty && !(plain.ctx 0 0).trap &&
    ((ctx fun c => { c with trap := true }).ctx 0 0).trap) = true := by decide +kernel

/-- ERET outside a handler, of an ordinary trap, of SPILL with 3 frames resident, and of FILL with the window alone at depth 1. -/
theorem witness_TrapReturn :
    (ready .eret plain && ready .eret (ctx fun c => { c with trap := true, ecause := 0x15 }) &&
     ready .eret (ctx fun c => { c with trap := true, ecause := 7, res := 3 }) &&
     ready .eret (ctx fun c => { c with trap := true, ecause := 8, depth := 1 })) = true := by decide +kernel

/-- A hart's and a strand's words outside their sets, a bad field, a bad type code. -/
theorem witness_WordErrors :
    (has (wordError true (.vadd 0 0 0 0 0)) && has (wordError false .ctake) && has (wordError false (.addR 0 30 0 0)) &&
     has (wordError false (.vcvt 0 0 0 5 1 2)) (fun t => t.detail == 0x20) && bytesOfInstr .ctake == 4) = true := by decide +kernel

/-- SWR of each of the registers that it writes, with the largest value it takes or one near, and of values that it refuses. -/
theorem witness_StateRegisterWrites :
    (ready (.swr 0 1) plain && has (value plain 1) && ready (.swrImm 0x12 1) plain &&
     [(0, 0x300000100), (1, 0x12), (2, 0x1000013), (3, 0xFFFFFFFFFFFFFE), (4, 0x1FFFF), (5, -1), (6, 0xFFFFFFFFFFFFFF),
      (8, 0x7F800000), (9, 0), (10, -1), (16, -1), (31, 0)].all (fun p => has (registerWritten p.1 p.2 plain)) &&
     [(0, 1), (1, 0x20), (2, 0), (3, 1), (4, 0x20000), (6, 0x100000000000000), (7, 0), (8, 0x7F800001), (9, 1), (11, 0)].all
       (fun p => (registerWritten p.1 p.2 plain).isNone)) = true := by decide +kernel

theorem witness_StateRegisterReadback :
    (decide (plain.me.2 ≤ 8) && has (registerWritten 0 0x300000000 plain) && has (registerWritten 6 4 plain) && !plain.my.lh && has (registerWritten 31 5 plain)
      && has (registerWritten 5 5 plain)) = true := by decide +kernel

/-- A walk that ends at column 63, one past it, a flat base; blocks that the access fits exactly. -/
theorem witness_AddressWalks :
    ready (.awalk 64 19 16) plain = true ∧ bitsAt (baseOf plain 16) 62 2 = 1 ∧ bitsAt (baseOf plain 16) 19 32 = 0 ∧
    bitsAt (baseOf plain 16) 56 6 + 64 ≤ 64 ∧ 64 < bitsAt (baseOf plain 18) 56 6 + 64 ∧ bitsAt (baseOf plain 17) 62 2 ≠ 1 ∧
    awcOk 0x1000013 = true ∧ inBlock 0x1000013 (2 ^ 62) 524288 ∧ inBlock 0x1000013 0x20000 8 := by
  unfold inBlock
  decide +kernel

/-- HSET with the largest address and with one beyond; to a register and to zr. -/
theorem witness_HandlerExchange :
    (ready (.hset 1 2) plain && has (value plain 1) (fun v => bitsAt v 56 8 == 0) && has (value (ctx fun c => c.setG 1 0x100000000000000) 1) (fun v => bitsAt v 56 8 != 0) &&
     has (written ((taken plain [1]).setHset 0) 2 (plain.hset 0 0)) && has (written ((taken plain [1]).setHset 0) 28 (plain.hset 0 0))) = true := by decide +kernel

/-- The last 8 bytes that can be read, the last below the record area, the store of the core to the east; a load and a store
at the largest negative and positive offsets. -/
theorem witness_LocalStoreAccess :
    (plain.my.pair.isNone && settled plain && has (storeKeyAt plain (2 ^ 62) 0x7FFF8 8 false) (fun k => cleanWords plain k 8) &&
     has (storeKeyAt plain (2 ^ 62) 0x7EFF8 8 true) && (storeKeyAt plain (2 ^ 62) 0x7EFF9 8 true).isNone && has (storeKeyAt plain (2 ^ 62 + 2 ^ 56) 0 1 true) &&
     ready (.ldD 0x1FF8 16 3) plain && has (loadOp (.ldD 0x1FF8 16 3)) && has (storeKeyAt plain (baseOf plain 16) (0x1FF8#14).toInt 8 false) &&
     has (written plain 3 0) && ready (.stB 0x1FFF 16 3) plain && has (storeOp (.stB 0x1FFF 16 3)) && has (value plain 3) &&
     has (storeKeyAt plain (baseOf plain 16) (0x1FFF#14).toInt 1 true)) = true := by decide +kernel

/-- Checks, loads and stores that are done: in a local store, and in a page of package memory. -/
theorem witness_MemoryFrame :
    (runs (check { read := true } [(2 ^ 62, 0, 8)]) plain (fun _ _ => true) && runs (load 0x20000 0 8) plain (fun bs _ => bs.length == 8) &&
     runs (store 0x20000 0 [1, 2]) plain (fun _ _ => true) &&
     runs (check { write := true, plain := true } [(0x20000, 0, 2)]) plain (fun es _ => es.flatten.length == 1) &&
     isStore (2 ^ 72) && !(plain.core 0).dead && !isStore 0x20000 &&
     (({ plain with cores := put plain.cores 1 { Core.reset with dead := true } } : State).core 1).dead) = true := by decide +kernel

/-- Loads of each form: I form, register form, post-increment; outright and under lookahead; within a block and across its end. -/
theorem witness_Loads :
    (has (loadOp (.ldnH 0x3FFE 17 29)) (fun _ => true) && ready (.ldnH 0x3FFE 17 28) plain &&
       runs (load (baseOf plain 17) (-2) 2) plain (fun bs u => steady u && has (written u 28 (extend false bs))) &&
     ready (.ldstrLoad 0 6 15 1 17 3) plain && has (value plain 1) (fun x => runs (load (baseOf plain 17) x.toInt 4) (taken plain [1]) fun bs u =>
       steady u && has (landingOf 3 (extend false bs)) && has (written u 3 (extend false bs))) &&
     ready (.ldstrLoad 1 3 0 28 16 16) plain && ready (.ldstrLoad 1 3 2 28 16 3) plain &&
       runs (load (baseOf plain 16) 0 8) plain fun bs u => steady u && has (landingOf 3 (extend true bs)) &&
         has (written (u.updMy fun c => { c with areg := vset c.areg 0 0 }) 16 (extend true bs))) = true ∧
    inBlock plain.my.awc (baseOf plain 16) 8 ∧ ¬inBlock 0x1000003 (2 ^ 62 + 4) 8 := by
  unfold inBlock
  decide +kernel

theorem witness_Stores :
    (has (storeOp (.stW 4 17 29)) && ready (.stW 4 17 29) plain && has (value plain 29) (fun v =>
       runs (store (baseOf plain 17) 4 (leBytes 4 v.toNat)) (taken plain [29]) fun _ u => steady u) &&
     ready (.ldstrStore 0 3 0 1 17 2) plain && has (value plain 1) (fun x => runs (store (baseOf plain 17) x.toInt (leBytes 8 0)) (taken plain [1, 2])
       fun _ u => steady u) && ready (.ldstrStore 1 3 15 28 16 2) plain &&
     runs (store (baseOf plain 16) 0 (leBytes 8 0)) (taken plain [2]) fun _ u => steady u) = true ∧
    inBlock plain.my.awc (baseOf plain 16) 8 ∧ ¬inBlock 0x1000003 (2 ^ 62 + 4) 8 := by
  unfold inBlock
  decide +kernel

/-- Acquire loads and release stores, aligned and not; LD.SC announced, waiting, and with its answer, with ST.SC. -/
theorem witness_OrderedAccesses :
    (has (acquireOp (.ldAcqD 4 28 17 3)) && ready (.ldAcqD 4 28 17 3) plain && has (value plain 28) (fun x =>
       runs (check { read := true, sync := true, phase := true, scope := some 4 } [(baseOf plain 17, x.toInt, 8)]) (taken plain [28]) fun es u1 =>
         runs (readExts false es) u1 fun bs u2 => runs (acquire 4) u2 fun _ u3 => steady u3 && has (written u3 3 (sext (leNat bs.flatten) 64))) &&
     has (releaseOp (.stRelW 0 28 16 3)) && ready (.stRelW 0 28 16 3) plain &&
       runs (check { write := true, sync := true, scope := some 0 } [(baseOf plain 16, 0, 4)]) (taken plain [28, 3]) (fun _ u1 => runs (release 0) u1 fun _ _ => true) &&
     ready (.ldSc 28 17 3) plain && plain.my.wait == .none && !plain.myCore.announced && 
       runs (check { read := true, sync := true, scope := some 6 } [(baseOf plain 17, 0, 8)]) (taken plain [28]) (fun es u => es.flatten.length == 1 && es.flatten.all (fun e => (u.badData e).isNone) && !u.myCore.announced) &&
     ready (.ldSc 28 17 3) (ctx fun c => { c with wait := .sc none }) && ready (.stSc 28 17 3) (ctx fun c => { c with wait := .sc (some 0) }) &&
     has (written (ended ((ctx fun c => { c with wait := .sc (some 0) }).updMy fun c => { c with wait := .none })) 3 0)) = true ∧
    multiple (baseOf plain 17) 0 8 ∧ multiple (baseOf plain 16) 0 4 ∧ ¬multiple (baseOf plain 17) 4 8 ∧ ¬multiple (baseOf plain 17) 2 4 := by
  unfold multiple
  decide +kernel

theorem witness_Fences :
    (decide (plain.me.2 ≤ 8) && settled plain && plain.my.lost.isNone && settled (plain.cleanRemote 0) && !(plain.cleanRemote 0).outstanding plain.who &&
     ready (.fence 0) plain && ready (.fence 4) plain && ready (.fence 5) plain &&
     runs (release 5) plain (fun _ u => runs (acquire 5) u fun _ _ => true)) = true := by decide +kernel

/-- A barrier of the only strand of its team and gang, of one that has arrived, and of one that another of its team keeps waiting. -/
theorem witness_Barriers :
    (ready .barT plain && ready .barG plain && plain.my.wait != .passed && plain.my.arrived != .team && plain.my.arrived != .gang &&
     (let u := (ended plain).updMy fun c => { c with arrived := .team, barCnt := c.cnt }
      (u.teamBarrier u.my.team).my.wait == .passed) &&
     (let u := (ended plain).updMy fun c => { c with arrived := .gang, barCnt := c.cnt }
      (u.gangBarrier u.my.gang).my.wait == .passed) &&
     (let u := (ended (strand id fun c => { c with ctxs := vset c.ctxs 1 (vget .reset c.ctxs 0) })).updMy fun c => { c with arrived := .team, barCnt := c.cnt }
      (u.teamBarrier u.my.team).my.wait != .passed) &&
     ready .barT (ctx fun c => { c with wait := .passed }) && ready .barG (ctx fun c => { c with arrived := .gang })) = true := by decide +kernel

/-- An atomic on package memory and one on a local store; a misaligned one. -/
theorem witness_Atomics :
    (has (amoOp (.amoFadd 1 4 2 17 3)) && ready (.amoFadd 1 4 2 17 3) plain && has (value plain 2) && has (value plain 3) &&
     runs (check { read := true, write := true, sync := true, atomic := true, fadd := true, scope := some 4 } [(baseOf plain 17, 0, 8)]) (taken plain [2, 3])
       (fun es u1 => has es.flatten.head? fun e => es.flatten.length == 1 && runs (consume [e]) u1 (fun _ u => u == u1) && !e.cell && e.mode != 1 && e.mode != 2 &&
         runs (release 4) u1 fun _ u2 =>
           let r := u2.amoAt 4 10 64 e 0 0
           let t := r.2.2.returnLine e.key
           runs (acquire 4) (if r.2.1 = .zero then t else t.updMy fun c => c.addCounts r.2.1) fun _ u3 => steady u3 && has (written u3 3 (word r.1))) &&
     ready (.amoCas 0 0 2 16 3) plain && has (storeKeyAt plain (baseOf plain 16) 0 4 true) (fun k => cleanWords plain k 4) &&
     has (written (ended ((ended (taken plain [2, 3])).putBytes (2 ^ 72) [0, 0, 0, 0])) 3 0)) = true ∧
    multiple (baseOf plain 16) 0 4 ∧ multiple (baseOf plain 17) 0 8 ∧ ¬multiple 0x20004 0 8 := by
  unfold multiple
  decide +kernel

theorem witness_FlushInvalidate :
    (ready (.rflush 1 17) plain && ready (.rinv 1 17) plain && has (value plain 1) (fun n => n == 0) &&
     (let s := ctx fun c => c.setG 1 65
      has (value s 1) (fun n => n == 65) && runs (checkOnly { anyPerm := true } [(baseOf s 17, 0, 65)]) (taken s [1]) fun es u => u.my.lost.isNone && settled u &&
        (let fs := es.flatten.filter fun e => !isStore e.key && (u.windowLine e.key).isNone
         !fs.isEmpty && !(fs.foldl (fun t e => t.invalidateRange (u.who.overExts fs) e.key e.len) (fs.foldl (fun t e => t.flushRange (u.who.overExts fs) e.key e.len) u)).flying fs))) = true := by
  decide +kernel

/-- LDRO; a full word of the own store and one that is not; PRE; BMOV of nothing, and of 17 bytes. -/
theorem witness_ReadOnlyAndFullBits :
    (ready (.ldroD 28 17 3) plain && runs (check { read := true } [(baseOf plain 17, 0, 8)]) (taken plain [28]) (fun es u =>
       runs (consume es.flatten) u (fun _ u' => u' == u) && runs (remoteReads es.flatten) u fun got w => steady w &&
         has (written w 3 (extend true (w.overlay got es.flatten (w.seenBytes es.flatten))))) &&
     has (storeKeyAt plain (baseOf plain 16) 0 8 false) (fun k => cleanWords plain k 8 && !plain.full.contains ((k - 2 ^ 72) / 8)) &&
     ({ plain with full := [0] } : State).full.contains 0 && ready (.waitf 28 16) plain && ready (.ldf 28 16 3) plain &&
     has (written { taken plain [28] with full := [] } 3 0) && ready (.pre 1 17) plain && ready (.bmov 1 2 3) plain && plain.my.reg 1 == 0 &&
     runs (bmovBytes 1 2 3 16 false) plain (fun b _ => b) &&
     (let s := ctx fun c => ((c.setG 1 17).setG 2 0x20000).setG 3 0x30000
      ready (.bmov 1 2 3) s && runs (bmovBytes 1 2 3 16 false) s (fun b _ => !b))) = true ∧
    multiple (baseOf plain 16) 0 8 := by
  unfold multiple
  decide +kernel

theorem witness_TurnEnds :
    (ready .yield plain && leaf plain.my && ready .exit plain && ready .halt plain && quiet plain && !plain.my.lh &&
     !quiet { plain with scOps := [⟨0, 0, 0, 0, 0, 0, true, 0, 0⟩] } && ready .exit (ctx fun c => { c with lh := true })) = true := by decide +kernel

/-- 64 strands wanted and 65; the counter of a fork; JOIN of the last strand, of one of two, and a counter of 0. -/
theorem witness_ForkJoin :
    (let s := ctx fun c => c.setG 1 64
     ready (.rfork 1 17 3) s && has (value s 1) (fun w => w == 64) && leaf s.my &&
       runs (check { write := true, sync := true, localOnly := true } [(baseOf s 17, 0, 8)]) (taken s [1]) (fun es u => settled u &&
         (let list := (taken s [1]).forkList s.my.gang s.me.1 s.my.va 63
          let t := 1 + list.length
          let w := writtenOver false (ended u) es.flatten (leBytes 8 t)
          let r := w.startRecruits w.my w.me.1 w.my.team (w.my.pc + 4) 3 t 1 list []
          steady r && has (written r 3 (word (t * 2 ^ 32))))) &&
     has (value (ctx fun c => c.setG 1 65) 1) (fun w => decide (64 < w.toNat)) &&
     (let old := fun (n : Nat) (k : Nat → Bool) => let s := holding 0x20000 (leBytes 8 n)
       ready (.join 17) s && runs (check { read := true, write := true, sync := true, atomic := true, localOnly := true } [(baseOf s 17, 0, 8)]) s
         fun es u => es.flatten.length == 1 && has es.flatten.head? fun e => (u.badData e).isNone && quiet u && k (leNat (memRead ((u.recallAll e.key 8).homeRead e.key 8).mem e.key 8)) &&
           settled ((((ended u).recallAll e.key 8).homeRead e.key 8).homeWrite e.key (leBytes 8 (n - 1)))
      old 1 (fun n => n == 1) && old 2 (fun n => n == 2) && old 0 (fun n => n == 0))) = true ∧ multiple (baseOf plain 17) 0 8 := by
  unfold multiple
  decide +kernel

/-- To the own core, to core 1, and to a core of no tenant; with vectors, and with 3 frames resident. -/
theorem witness_Migration :
    (ready (.mig 1) plain && leaf plain.my && portOk plain 1 && plain.my.va != 0 &&
     [(2 ^ 62, true), (2 ^ 62 + 2 ^ 56, true), (2 ^ 62 + 2 ^ 57, false)].all (fun p =>
       let s := ctx fun c => ({ c with va := 0 } : Ctx).setG 1 (word p.1)
       s.my.va == 0 && !s.my.pairBit && s.matrixFree 0 0 && decide (s.my.res ≤ 2) && has (value s 1) fun v =>
         match migTarget v (taken s [1]) with
         | .ok (_, u) => p.2 && quiet u && u.me == s.me
         | .error _ => !p.2) &&
     runs (migTarget 0x2000) (ctx fun c => { c with va := 0 }) (fun r u => !u.bound r.1 1) &&
     decide (2 < (ctx fun c => { c with va := 0, res := 3 }).my.res)) = true := by decide +kernel

/-- A message to the own core; a reply that has come; one still out; a host message with room in the buffer and with none. -/
theorem witness_Messages :
    (let s := holding 0x20000 (leBytes 8 (2 ^ 62) ++ leBytes 8 0x10000)
     ready (.amsg 28 17 3) s && has (value s 28) && runs (load (baseOf s 17) 0 32) (taken s [28]) (fun m u => messageOk (wordsOf m 4) &&
       bitsAt ((wordsOf m 4).getD 0 0) 36 7 == 0 && settled u && u.bound (coreAt (bitsAt ((wordsOf m 4).getD 0 0) 56 6) (bitsAt ((wordsOf m 4).getD 0 0) 51 5)) u.my.tenant
       && !(u.core 0).dead) &&
     (ctx fun c => { c with wait := .amsg (some 3) }).my.wait == .amsg (some 3) && has (written ((ctx fun c => { c with wait := .amsg (some 3) }).updMy fun c => { c with wait := .none }) 3 3) &&
     (ctx fun c => { c with wait := .amsg none }).my.wait == .amsg none &&
     ready (.hmsg 1 2) plain && runs (release 5) (taken plain [2, 1]) (fun _ u => decide ((vget [] u.hostMsgs (dieOf u.me.1)).length < 32)) &&
     decide (32 ≤ (vget [] ({ plain with hostMsgs := vset plain.hostMsgs 0 (List.replicate 32 []) } : State).hostMsgs 0).length)) = true ∧
    multiple (baseOf plain 17) 0 32 := by
  unfold multiple
  decide +kernel

/-- A descriptor for slot 31, free and taken; DEC of 1 and of 65,535 at the own core, of no slot pointer, of a count beyond, and at
a core of no tenant. -/
theorem witness_Tasks :
    (let s := holding 0x20000 (leBytes 8 0x10000 ++ leBytes 16 0 ++ leBytes 2 1 ++ [31, 3])
     ready (.task 17 3) s && runs (load (baseOf s 17) 0 32) s (fun r u => steady u && codeAddress (word (recField r 0 8)) && decide (recField r 26 1 < 32) &&
       decide (recField r 27 1 < 4) && recField r 28 4 == 0 && (vget none u.myCore.tasks 31).isNone && settled u &&
       has (written ((ended u).updMyCore fun c => { c with tasks := vset c.tasks 31 (some ⟨1, 3, 0x10000, 0, 0, 1, none⟩) }) 3 0)) &&
     has (vget none (strand id fun c => { c with tasks := vset c.tasks 31 (some ⟨1, 3, 0x10000, 0, 0, 1, none⟩) }).myCore.tasks 31) && has (written plain 3 1) &&
     ready (.dec 1 2) plain && has (value plain 2) (fun x => bitsAt x 62 2 != 1) &&
     [(2 ^ 62 + 31, 1, true), (2 ^ 62, 65535, true), (2 ^ 62 + 2 ^ 57, 1, false)].all (fun p =>
       let s := ctx fun c => (c.setG 2 (word p.1)).setG 1 (word p.2.1)
       has (value s 2) fun x => has (value s 1) fun n => bitsAt x 62 2 == 1 && bitsAt x 5 46 == 0 && n != 0 && decide (n.toNat ≤ 65535) && settled s &&
         s.bound (coreAt (bitsAt x 56 6) (bitsAt x 51 5)) s.my.tenant == p.2.2) && bitsAt (word (2 ^ 62 + 32)) 5 46 != 0) = true ∧
    multiple (baseOf plain 17) 0 32 := by
  unfold multiple
  decide +kernel

/-- PAIR to the north, off the mesh; to the south, of no tenant; to the east, with room and without; of a strand that is paired; a
direction above 3. UNPAIR of a strand that is not paired, and of a pair; GSTAT. -/
theorem witness_Pairs :
    (let s := fun (n : Nat) => ctx fun c => c.setG 1 (word n)
     let full := fun (c : Core) => { c with ctxs := Vector.replicate 8 plain.my }
     ready (.pair 1 3) plain && leaf plain.my && has (value (s 4) 1) (fun x => decide (3 < x.toNat)) && (neighbour 0 0).isNone && has (value (s 0) 1) &&
     has (neighbour 0 2) (fun n => !plain.bound n 1) && has (written (taken (s 2) [1]) 3 1) &&
     has (neighbour 0 1) (fun n => plain.bound n 1 && (let c := (taken (s 1) [1]).core n
       !c.evicted && !c.dead && decide (c.vaUsed + plain.my.va ≤ 64) && !c.claimable.isEmpty && (full c).claimable.isEmpty) && has (written (taken (s 1) [1]) 3 0)) &&
     (ctx fun c => { c with pairBit := true }).my.pairBit && ready (.unpair 3) plain &&
     (let p : PairRole := { primary := true, core := 1, ctx := 0, dir := 1, checkpoint := .reset, log := [], stores := 0, fingerprint := 5, retired := 0, failed := 0, ports := Vector.replicate 8 .plain, since := 0 }
      let s := ctx fun c => { c with pair := some p }
      wordError s.isHart (.unpair 3) == none && s.my.pend.isEmpty && (s.comparePair 0 0).2 && (let t := (s.comparePair 0 0).1
        t.me == s.me && t.my.pend.isEmpty && has t.my.pair (fun p => p.core != t.me.1) &&
          has (written ((t.updCtx 1 0 Ctx.freed).updMy fun c => { c with pair := none, pairBit := false }) 3 0))) &&
     ready (.gstat 17) plain && runs (check { write := true, plain := true } [(baseOf plain 17, 0, 128)]) plain (fun _ _ => true)) = true ∧
    multiple (baseOf plain 17) 0 8 := by
  unfold multiple
  decide +kernel

/-- A stream that can be bound and one that cannot; a queue to the east and one off the mesh; a port that is bound to a queue, to a
read stream, to a write stream drained and to one not; QCTL with room, without, and with bit 63 set. -/
theorem witness_PortBinding :
    (let desc := leBytes 8 0x30000 ++ leBytes 8 64 ++ leBytes 8 0 ++ leBytes 4 1 ++ leBytes 2 1
     let bound := fun (p : Port) => ctx fun c => c.setPort 24 p
     let w : Stream := { write := true, mark := false, base := 0, step0 := 0, step1 := 0, len0 := 1, len1 := 1 }
     plain.my.va != 0 && decide ((24#5).toNat + 1 ≤ plain.my.va) && decide ((31#5).toNat + 1 ≤ plain.my.va) && ready (.sbind 17 24) plain && plain.my.port 24 == .plain &&
     runs (load (baseOf plain 17) 0 32) (holding 0x20000 desc) (fun r _ => streamOk r) && runs (load (baseOf plain 17) 0 32) plain (fun r _ => !streamOk r) &&
     ready (.qbind 1 31) plain && has (value (ctx fun c => c.setG 1 13) 1) (fun x => bitsAt x 4 60 == 0 && has (neighbour 0 (bitsAt x 0 2)) fun n => plain.bound n 1) &&
     has (value plain 1) (fun x => bitsAt x 4 60 == 0 && (neighbour 0 (bitsAt x 0 2)).isNone) && bitsAt (word 16) 4 60 != 0 &&
     ready (.unbind 24) (bound (.queue 1 3)) && (bound (.queue 1 3)).my.port 24 == .queue 1 3 && (bound (.stream w)).my.port 24 == .stream w &&
     (bound (.stream { w with buf := [0] })).my.port 24 == .stream { w with buf := [0] } && plain.fabric.packets.isEmpty &&
     ready (.qctl 1 24) (bound (.queue 1 3)) && has (value (bound (.queue 1 3)) 1) (fun x => bitsAt x 63 1 == 0 &&
       has ((taken (bound (.queue 1 3)) [1]).sendElement 0 1 3 (x.zeroExtend 4096, true))) && bitsAt (word (2 ^ 63)) 63 1 != 0 &&
     (({ plain with cores := put plain.cores 1 { Core.reset with chan := Vector.replicate 16 (List.replicate 4 (0, false)) } } : State).sendElement 0 1 3 (0, true)).isNone) = true ∧
    multiple (baseOf plain 17) 0 32 := by
  unfold multiple
  decide +kernel

/-- A request under tag 63; CPY of nothing, of 2^48 bytes, of ranges that meet and that do not; the two descriptor forms, good and
bad; waits for a tag that has completed and for one that has not; CFIND of tag 63, of a stopped copy, and of a bad word. -/
theorem witness_Copies :
    (let p : Copy := { form := 0, desc := [], done := 0, tenant := 1, team := 1, ctx := 0, gen := 0, issued := 0, counted := false, started := false,
                       fault := some { code := 4 }, raised := true, interval := 0, far := false, packets := 0, flying := [], lost := none, abandoned := false }
     let out := strand id fun c => { c with ctag := 0, copies := vset c.copies 63 (some { p with fault := none, raised := false }) }
     let shaped := leBytes 8 0x20000 ++ leBytes 8 0x30000 ++ leBytes 32 0 ++ leBytes 4 8 ++ leBytes 2 1 ++ leBytes 2 1
     let gather := leBytes 24 0 ++ leBytes 4 8 ++ leBytes 4 1
     decide (plain.me.2 ≤ 8) && decide (plain.fabric.cgen ≤ plain.my.tgen.toNat) && (vget none plain.myCore.copies 63).isNone && plain.myCore.ctag.getLsbD 63 &&
     has plain.myCore.freeSlot && settled plain && ready (.cpy 3 15 1 17 18) plain && has (value plain 1) (fun x => x == 0) &&
     decide (2 ^ 48 ≤ (word (2 ^ 48)).toNat) && (resolve (baseOf plain 17) 0 8 false).isOk && (resolve (baseOf plain 18) 0 8 true).isOk &&
     shareByte (baseOf plain 17) (baseOf plain 17) 8 && !shareByte (baseOf plain 17) (baseOf plain 18) 8 &&
     runs (issueCopy 0 63 [baseOf plain 17, baseOf plain 18, 8]) (taken plain [1]) (fun _ _ => true) &&
     ready (.cpyS 3 15 17) plain && ready (.cpyG 0 0 17) plain &&
     runs (load (baseOf plain 17) 0 64) plain (fun bs _ => !shapedOk bs && !gatherOk bs) &&
     runs (load (baseOf plain 17) 0 64) (holding 0x20000 shaped) (fun bs u => shapedOk bs && runs (issueCopy 2 63 (wordsOf bs 8)) u fun _ _ => true) &&
     runs (load (baseOf plain 17) 0 64) (holding 0x20000 gather) (fun bs u => gatherOk bs && runs (issueCopy 1 0 (wordsOf bs 8)) u fun _ _ => true) &&
     ready (.cwaitAny 1 3) plain && has (written (ended (taken plain [1])) 3 64) && (plain.myCore.faulted (word (2 ^ 63)) true).isEmpty &&
     (plain.myCore.faulted (word (2 ^ 63)) false).isEmpty && ((tagsOf (word (2 ^ 63))).find? fun t => plain.myCore.ctag.getLsbD t) == some 63 &&
     ((tagsOf (word (2 ^ 63))).find? fun t => out.myCore.ctag.getLsbD t) == none && (out.myCore.faulted (word (2 ^ 63)) true).isEmpty &&
     (out.myCore.faulted (word (2 ^ 63)) false).isEmpty && ready (.cwaitAll 1) plain && plain.myCore.ctag &&& word (2 ^ 63) == word (2 ^ 63) &&
     out.myCore.ctag &&& word (2 ^ 63) != word (2 ^ 63) && ready (.cfind 1 3) plain && has (value (ctx fun c => c.setG 1 63) 1) (fun q => bitsAt q 6 2 == 0 && bitsAt q 9 55 == 0) &&
     bitsAt (word 64) 6 2 != 0 && has (written (taken plain [1]) 3 (plain.myCore.tagStatus 63)) &&
     has (vget none (strand id fun c => { c with copies := vset c.copies 0 (some p) }).myCore.copies 0)) = true ∧
    multiple (baseOf plain 17) 0 64 := by
  unfold multiple
  decide +kernel

/-- EVK of kernel 3, of 4, and of good, bad and no words; CTAKE of an empty queue and of an item; CSTART of handle 0 with a unit
free and with none, and of another handle; KICK of selectors 0 to 3 and of 4; a queue without a free slot. -/
theorem witness_Compositor :
    (let good := leBytes 8 0x40000 ++ leBytes 4 4 ++ [0, 2] ++ leBytes 2 1
     let p : Copy := { form := 0, desc := [], done := 0, tenant := 1, team := 1, ctx := 0, gen := 0, issued := 0, counted := false, started := true,
                       fault := none, raised := false, interval := 0, far := false, packets := 0, flying := [], lost := none, abandoned := false }
     ready (.evk 1 17) plain && has (value (ctx fun c => c.setG 1 3) 1) (fun x => decide (x.toNat < 4)) && decide (4 ≤ (word 4).toNat) &&
     runs (load (baseOf plain 17) 0 32) (taken plain [1]) (fun bs _ => recField bs 8 4 == 0) &&
     runs (load (baseOf plain 17) 0 32) (holding 0x20000 good) (fun bs _ => recField bs 8 4 != 0 && kernelOk bs) &&
     runs (load (baseOf plain 17) 0 32) (holding 0x20000 (leBytes 12 (2 ^ 64 + 1))) (fun bs _ => recField bs 8 4 != 0 && !kernelOk bs) &&
     ready .ctake hartOf && !hartOf.myCore.queue.isEmpty && (hartOf.updMyCore fun c => { c with queue := [] }).myCore.queue.isEmpty &&
     ready (.cstart 1) hartOf && has (value hartOf 1) (fun h => has (hartOf.myCore.taken.find? fun q => h == word q.1)) && decide (hartOf.myCore.unitsBusy < 4) &&
     decide (4 ≤ (hartOf.updMyCore fun c => { c with copies := Vector.replicate 64 (some p) }).myCore.unitsBusy) &&
     (hartOf.myCore.taken.find? fun q => word 1 == word q.1).isNone &&
     ready (.kick 1 2 3) plain && [0, 1, 2, 3].all (fun x => runs (release (x + 1)) (taken plain [1, 2]) fun _ u => steady (u.kick x 0).2 &&
       has (written (u.kick x 0).2 3 (word (u.kick x 0).1))) &&
     has plain.myCore.freeSlot && (strand id fun c => { c with queue := (List.range 16).map fun n => .kick n 0 }).myCore.freeSlot.isNone) = true ∧
    multiple (baseOf plain 17) 0 32 := by
  unfold multiple
  decide +kernel

/-- A register; a queue that is empty and one that is not, with room on the way and without; a stream that is read, one that is
written, and one that is full. -/
theorem witness_VectorOperands :
    (let r : Stream := { write := false, mark := false, base := 0, step0 := 0, step1 := 0, len0 := 2, len1 := 1, buf := [5] }
     let w : Stream := { write := true, mark := false, base := 0, step0 := 0, step1 := 0, len0 := 1, len1 := 1 }
     let bound := fun (p : Port) => ctx fun c => c.setPort 24 p
     decide (plain.me.2 ≤ 8) && plain.my.pend.isEmpty && plain.my.pair.isNone && plain.my.port 23 == .plain && (bound (.queue 1 3)).my.port 24 == .queue 1 3 &&
     (vget [] (bound (.queue 1 3)).myCore.chan 7).isEmpty && has ((bound (.queue 1 3)).sendElement 0 1 3 (0, false)) &&
     vget [] (strand (fun c => c.setPort 24 (.queue 1 3)) fun c => { c with chan := vset c.chan 7 [(9, false)] }).myCore.chan 7 == [(9, false)] &&
     (bound (.stream r)).my.port 24 == .stream r && (bound (.stream w)).my.port 24 == .stream w && w.fault.isNone && decide (w.next < w.total) &&
     (bound (.stream { w with next := 1 })).my.port 24 == .stream { w with next := 1 } && decide (w.total ≤ 1)) = true := by decide +kernel

/-- A control element at a queue, with HSET.EN 0 and 1, and in a light handler. -/
theorem witness_LightHandlers :
    (let s := fun (f : Ctx → Ctx) => strand (fun c => f (c.setPort 24 (.queue 1 0))) fun c => { c with chan := vset c.chan 4 [(5, true)] }
     ready (.vmov 0 0 24 0 0) (s id) && (s id).my.operands.isEmpty && has (laneTypeOf anyType (s id).my) && allocatedTo (s id).my [(24, 1), (0, 1)] && usable (s id).my [24] [0] &&
     (s id).portHead 0 ((s id).my.port 24) == .elem (5, true) && bitsAt ((s id).hset 0 0) 0 1 == 0 && bitsAt (((s id).setHset 0x20001).hset 0 0) 0 1 == 1 &&
     ready (.vmov 0 0 24 0 0) ((s id).setHset 0x20001) && ready (.vmov 0 0 24 0 0) (s fun c => { c with lh := true }) && (s fun c => { c with lh := true }).my.lh) = true := by
  decide +kernel

/-- A state whose lane type has code t, and the answer of an operation that writes v to d there. -/
def typed (t : Nat) : State := ctx fun c => { c with vtype := word t }

/-- The state with 1 in v1 and all ones in m0. -/
def masked (t : Nat) : State := (typed t).updMy fun c => { c with vregs := vset c.vregs 1 1, masks := vset c.masks 0 (BitVec.allOnes 1024) }

/-- Two sources, one source, three sources and an exchange, in both word lengths; a type that is not admitted; a field beyond the
allocation. -/
theorem witness_LaneOperations :
    ([(Instr.vsubs 1 0 1 2 31, 0x0A), (.vdiv 0 3 1 1 1, 0x12), (.vrsubLForm 1 31 0, 0x08)].all (fun p => has (laneTwo p.1) fun op => ready p.1 (masked p.2) &&
       has (laneTypeOf op.admits (masked p.2).my) fun t => allocatedTo (masked p.2).my [(op.a, 1), (op.b, 1), (op.d, 1)] && usable (masked p.2).my [op.a, op.b] [op.d] &&
         runs (vsrc2 op.a op.b) (masked p.2) fun xy u => runs (vdst op.d (lanes u.my op.mask t.width (before u.my op.d) fun k =>
           op.f t (elemOf xy.1 t.width k) (elemOf xy.2 t.width k)).1) u fun _ _ => true) &&
     [(Instr.vsqrt 1 0 1 31 31, 0x11), (.vabsLForm 0 31 0, 0x0B)].all (fun p => has (laneOne p.1) fun op => ready p.1 (masked p.2) &&
       has (laneTypeOf op.admits (masked p.2).my) fun t => allocatedTo (masked p.2).my [(op.b, 1), (op.d, 1)] && usable (masked p.2).my [op.b] [op.d] &&
         runs (vsrc op.b) (masked p.2) fun y u => runs (vdst op.d (lanes u.my op.mask t.width (before u.my op.d) fun k =>
           op.f t (elemOf y t.width k) (elemOf y t.width k)).1) u fun _ _ => true) &&
     has (fusedOf (.vfnms 1 2 1 2 3)) (fun _ => ready (.vfnms 1 2 1 2 3) (masked 0x13) && has (laneTypeOf anyType (masked 0x13).my) fun t =>
       allocatedTo (masked 0x13).my [(2, 1), (1, 1), (3, 1)] && usable (masked 0x13).my [2, 1, 3] [3] && runs (vsrc3 2 1 3) (masked 0x13) fun q u =>
         runs (vdst 3 (lanes u.my 1 t.width (before u.my 3) fun k => fusedElem true false (rmOf 2) t (elemOf q.1 t.width k) (elemOf q.2.1 t.width k)
           (elemOf q.2.2 t.width k)).1) u fun _ _ => true) &&
     ready (.vxchgLForm 1 1 2) (masked 0x12) && ready (.vxchg 0 0 1 1 1) (masked 0x12) && allocatedTo (masked 0x12).my [(1, 1), (2, 1)] && (masked 0x12).my.port 1 == .plain &&
     (laneTypeOf ETy.isFloat (masked 0x08).my).isNone && has (laneTypeOf anyType (masked 0x08).my) &&
     !allocatedTo (ctx fun c => { c with va := 8 }).my [(7, 1), (8, 1)]) = true := by decide +kernel

/-- Widening to a pair and to a quad, in natural, integer and floating-point types; a group that does not start right; VNSHR. -/
theorem witness_Widening :
    ([(Instr.vwmac 1 0 1 2 30, 0x11), (.vqmac 0 0 1 2 28, 0x09), (.vwsub 0 0 1 2 0, 0x02)].all (fun p => has (wideOp p.1) fun op => ready p.1 (masked p.2) &&
       has (laneTypeOf (fun t => (op.wide t).isSome) (masked p.2).my) fun t => has (op.wide t) fun w => op.d.toNat % op.ratio == 0 &&
         allocatedTo (masked p.2).my [(op.a, 1), (op.b, 1), (op.d, op.ratio)] && usable (masked p.2).my [op.a, op.b] [] && unbound (masked p.2).my op.d op.ratio &&
         runs (vsrc2 op.a op.b) (masked p.2) fun xy u => runs (vdstGroup 0 op.d 0 (spread u.my op.mask op.d op.ratio w.width fun k =>
           op.f t w (elemOf xy.1 t.width k) (elemOf xy.2 t.width k) (elemOf (vget 0 u.my.vregs (op.d.toNat + k % op.ratio)) w.width (k / op.ratio))).1) u fun _ _ => true) &&
     has (wideOp (.vwadd 0 0 1 2 31)) (fun op => op.d.toNat % op.ratio != 0) && ready (.vqmac 0 1 1 2 28) (masked 0x09) &&
     ready (.vnshr 0 1 1 30 3) (masked 0x0A) && has (laneTypeOf (fun t => !t.isFloat && decide (t.width ≤ 32)) (masked 0x0A).my) (fun t => has (wideOf t) fun w =>
       (30#5).toNat % 2 == 0 && allocatedTo (masked 0x0A).my [(30, 2), (1, 1), (3, 1)] && usable (masked 0x0A).my [1] [3] && unbound (masked 0x0A).my 30 2 &&
       runs (vsrc 1) (masked 0x0A) fun y u => runs (vdst 3 (lanes u.my 0 t.width (before u.my 3) fun k =>
         toIntTy t (roundToInt (rmOf 1) false (w.value (elemOf (vget 0 u.my.vregs (30 + k % 2)) w.width (k / 2))).natAbs
           (-((elemOf y t.width k % 256 : Nat) : Int)))).1) u fun _ _ => true)) = true := by decide +kernel

/-- Conversions of each ratio, with statistics; a group that does not start right; QNT and DQNT of planes and of a small format, with
all of the planes and with a count that is refused. -/
theorem witness_Conversions :
    (ready (.vcvt 1 1 0 0x0B 1 2) (masked 0x12) && has (laneTypeOf anyType (masked 0x12).my) (fun t => has (eTyOf 0x0B) fun w => w.width == t.width &&
       runs (vsrc 1) (masked 0x12) fun e u => runs (vdst 2 (lanes u.my 1 w.width (before u.my 2) fun k => convertElem .rne t w (elemOf e t.width k)).1)
         (statistics u 1 [((List.range 128).filter fun k => u.my.active 1 k).map fun k => exactOf t (elemOf e t.width k)]) fun _ _ => true) &&
     ready (.vcvtw 0 0 0 0x14 1 28) (masked 0x12) && has (laneTypeOf anyType (masked 0x12).my) (fun w => has (eTyOf 0x14) fun t => w.width == 4 * t.width) &&
     allocatedTo (masked 0x12).my [(1, 1), (28, 4)] && unbound (masked 0x12).my 28 4 &&
     ready (.vcvtn 0 0 0 0x11 30 1) (masked 0x12) && has (laneTypeOf anyType (masked 0x12).my) (fun t => has (eTyOf 0x11) fun w => t.width == 2 * w.width) &&
     allocatedTo (masked 0x12).my [(30, 2), (1, 1)] && (30#5).toNat % 2 == 0 && (31#5).toNat % 2 != 0 &&
     runs (vdst 1 (lanes (masked 0x12).my 0 16 0 fun j => convertElem .rne (.flt .f32) (.flt .f16) (elemOf (vget 0 (masked 0x12).my.vregs (30 + j % 2)) 32 (j / 2))).1)
       (masked 0x12) (fun _ _ => true) &&
     ready (.qnt 0 15 0x15 4 30) (typed 0x10) && ready (.dqnt 0 0 0x1E 30 4) (typed 0x10) && has (laneTypeOf ETy.isFloat (typed 0x10).my) (fun t => t == .flt .f16) &&
     has (qFmtOf 0x15) && has (qFmtOf 0x1E) && allocatedTo (typed 0x10).my [(4, 2), (30, 2)] && unbound (typed 0x10).my 4 2 && unbound (typed 0x10).my 30 2 &&
     runs (vdstGroup 15 30 0 [0, 0]) (typed 0x10) (fun _ _ => true) && runs (vdstGroup 0 4 0 [0, 0]) (typed 0x10) (fun _ _ => true) &&
     has (qFmtOf 0x1E) (fun q => q.planeCount == 8)) = true := by decide +kernel

/-- A compare, a mask operation with vectors and without, MPOP, MFIRST, MFILL and VSEL. -/
theorem witness_Masks :
    (has (compareOp (.vcmpGen 1 1 2 7)) (fun _ => ready (.vcmpGen 1 1 2 7) (masked 0x03) && has (laneTypeOf anyType (masked 0x03).my)) &&
     allocatedTo (masked 0x03).my [(2, 1), (1, 1)] && usable (masked 0x03).my [2, 1] [] && runs (vsrc2 2 1) (masked 0x03) (fun _ u => steady u) &&
     has (maskOp (.mnot 0 7)) && ready (.mnot 0 7) (masked 0x12) && (masked 0x12).my.va != 0 && (ctx fun c => { c with va := 0 }).my.va == 0 &&
     ready (.mnot 0 7) (ctx fun c => { c with va := 0 }) && ready (.mpop 0 15) (masked 0x00) && has (laneTypeOf anyType (masked 0x00).my) &&
     has (written (masked 0x00) 15 1024) && ready (.mfirst 0 28) (masked 0x00) && has (written (masked 0x00) 28 0) && ready (.mfill 1 7) (masked 0x00) &&
     has (value (masked 0x00) 1) && ready (.vsel 1 2 3) (masked 0x12) && runs (vsrc2 2 1) (masked 0x12) (fun _ u => runs (vdst 3 0) u fun _ _ => true)) = true := by
  decide +kernel

/-- Sums of a floating-point and an integer type, and a maximum. -/
theorem witness_Reductions :
    ([(Instr.vrsum 1 3 1 2, 0x12), (.vrsum 0 0 1 2, 0x08), (.vrmax 1 0 31 28, 0x03)].all fun p => has (reduceOp p.1) fun op => ready p.1 (masked p.2) &&
       has (laneTypeOf anyType (masked p.2).my) fun t => (op.rounding == 0#2 || op.sum && t.isFloat) && allocatedTo (masked p.2).my [(op.a, 1)] &&
         usable (masked p.2).my [op.a] [] && portOk (masked p.2) op.d && runs (vsrc op.a) (masked p.2) fun x u => steady u &&
           has (written u op.d (word (tree (op.f t) (Nat.log2 (4096 / t.width)) ((List.range (4096 / t.width)).map fun k =>
             if u.my.active op.mask k then elemOf x t.width k else op.identity t)).1))) = true := by decide +kernel

/-- Permutes of two vectors, slides, VBCAST, VINS; VEXT and VCOMP, masked and not. -/
theorem witness_Permutes :
    ([Instr.vperm 1 1 2 3, .vunzip 0 1 2 31].all (fun i => has (mixOp i) fun q => ready i (masked 0x12) && allocatedTo (masked 0x12).my [(2, 1), (1, 1), (q.2.2.2.1, 1)] &&
       runs (vsrc2 2 1) (masked 0x12) fun xy u => runs (vdst q.2.2.2.1 (permuted u.my q.1 32 q.2.2.2.1 fun k => some (q.2.2.2.2 128 32 xy.1 xy.2 k))) u fun _ _ => true) &&
     [Instr.vslup 1 1 2 3, .vsldn 0 28 2 31].all (fun i => has (slideOp i) fun q => ready i (masked 0x12) && allocatedTo (masked 0x12).my [(2, 1), (q.2.2.2.1, 1)] &&
       portOk (masked 0x12) q.2.1 && runs (vsrc 2) (masked 0x12) fun x u => runs (src q.2.1) u fun k w =>
         runs (vdst q.2.2.2.1 (permuted w.my q.1 32 q.2.2.2.1 (q.2.2.2.2 128 32 x k.toNat))) w fun _ _ => true) &&
     ready (.vbcast 1 1 2) (masked 0x12) && has (value (masked 0x12) 1) && runs (vdst 2 0) (taken (masked 0x12) [1]) (fun _ _ => true) &&
     ready (.vins 0 1 2 3) (masked 0x12) && has (value (masked 0x12) 2) && runs (vdst 3 0) (taken (masked 0x12) [2, 1]) (fun _ _ => true) &&
     ready (.vext 1 1 2 3) (masked 0x12) && ready (.vcomp 1 2 3) (masked 0x12) && ready (.vext 0 1 2 3) (masked 0x12) && ready (.vcomp 0 2 3) (masked 0x12) &&
     runs (vsrc 2) (masked 0x12) fun _ u => runs (src 1) u (fun _ w => steady w && has (written w 3 0)) && runs (vdst 3 0) u fun _ _ => true) = true := by decide +kernel

/-- A format word of P8 with all its planes, 64 bytes apart, and one of two of them. -/
def planes (k : Nat) : Word := word (30 * 2 ^ 59 + k * 2 ^ 55 + 64)

/-- The vector loads of every form, from package memory and from the own store. -/
theorem witness_VectorLoads :
    (let s := (masked 0x10).updMy fun c => (c.setG 1 (planes 0)).setG 2 (planes 2)
     ready (.vld 1 15 28 17 3) s && has (laneTypeOf anyType s.my) && allocatedTo s.my [(3, 1)] && usable s.my [] [3] && has (value s 28) &&
     (resolve (baseOf s 17) 0 512 false).isOk &&
     runs (readElems ((s.my.activeRuns 1 16).map fun r => (baseOf s 17, 0 + (r.1 : Int), r.2))) s (fun bs u => u.my.pair.isNone &&
       runs (vdstLa 15 3 (lanes s.my 1 16 (before s.my 3) fun k => (elemOf (placed (s.my.activeRuns 1 16) bs) 16 k, .zero)).1) u fun _ _ => true) &&
     ready (.vldPost 0 0 16 3) s && runs (readElems [(baseOf s 16, 0, 512)]) s (fun _ u => runs (dstLa 0 16 (advance u.my.awc (baseOf s 16) 512)) u fun _ w =>
       runs (vdstLa 0 3 0) w fun _ _ => true) &&
     ready (.vlds 0 0 28 17 3) (masked 0x13) && ready (.vldx 0 0 1 17 3) (masked 0x13) && has (laneTypeOf wholeBytes (masked 0x13).my) && has (value (masked 0x13) 28) &&
     runs (vsrc 1) (masked 0x13) (fun x w => runs (readElems ((List.range 64).map fun k => (baseOf w 17, ((elemOf x 64 k * 8 : Nat) : Int), 8))) w fun _ u => u.my.pair.isNone) &&
     ready (.vldf 0 0 1 17 3) s && ready (.vldfPost 0 0 2 16 3) s && formatOk false (planes 0) && formatOk false (planes 2) && !formatOk false (planes 1) && has (value s 1) (fun f => f == planes 0) &&
     runs (readElems (planeExtents (baseOf s 17) (fmtStride (planes 0)) 8)) s (fun bs u => u.my.pair.isNone && runs (vdstLa 0 3 (fromPlanes bs)) u fun _ _ => true) &&
     ready (.vldf 1 0 1 17 3) s && ready (.vldfPost 1 0 1 17 3) s) = true ∧
    inBlock plain.my.awc (baseOf plain 16) 512 ∧ inBlock plain.my.awc (baseOf plain 16) 64 ∧ ¬inBlock 0x1000008 (2 ^ 62) 512 := by
  unfold inBlock
  decide +kernel

/-- The vector stores of every form; a masked store of a 4-bit type. -/
theorem witness_VectorStores :
    (let s := (masked 0x10).updMy fun c => c.setG 1 (planes 0)
     ready (.vst 1 0 28 17 3) (masked 0x08) && has (laneTypeOf anyType (masked 0x08).my) (fun t => t.width == 4) && ready (.vst 1 0 28 17 1) s &&
     has (laneTypeOf anyType s.my) (fun t => t.width != 4) && allocatedTo s.my [(1, 1)] && usable s.my [1] [] && (resolve (baseOf s 17) 0 512 true).isOk &&
     runs (vsrc 1) s (fun z w => runs (src 28) w fun _ q =>
       runs (storeElems ((q.my.activeRuns 1 16).map fun r => (baseOf s 17, 0 + (r.1 : Int), ((vecBytes z).drop r.1).take r.2))) q fun _ u => u.my.pair.isNone) &&
     ready (.vstPost 0 0 16 1) s && runs (vsrc 1) s (fun z w => runs (storeElems [(baseOf s 16, 0, vecBytes z)]) w fun _ u => u.my.pair.isNone &&
       runs (dstLa 0 16 (advance u.my.awc (baseOf s 16) 512)) u fun _ _ => true)) = true ∧
    inBlock plain.my.awc (baseOf plain 16) 512 ∧ inBlock plain.my.awc (baseOf plain 16) 64 := by
  unfold inBlock
  decide +kernel

/-- The vector stores by lane, three lanes of them active for the scatter, and of planes. -/
theorem witness_VectorStores_forms :
    (let s := (masked 0x10).updMy fun c => c.setG 1 (planes 0)
     let few := (masked 0x13).updMy fun c => { c with masks := vset c.masks 0 7 }
     ready (.vsts 0 0 28 17 1) (masked 0x13) && ready (.vstx 1 0 1 17 1) few && runs (vsrc2 1 1) few (fun xz w => runs (storeElems (((List.range 64).filter (w.my.active 1)).map fun k =>
       (baseOf few 17, ((elemOf xz.1 64 k * 8 : Nat) : Int), leBytes 8 (elemOf xz.2 64 k)))) w fun _ u => u.my.pair.isNone) &&
     ready (.vstf 0 0 1 17 1) s && ready (.vstfPost 0 0 1 16 1) s && formatOk true (planes 0) && !formatOk true (planes 2) &&
     runs (src 1) s (fun f w => runs (vsrc 1) w fun z q => f == planes 0 && runs (storeElems ((List.range 8).map fun k =>
       (baseOf s 17, ((k * 64 : Nat) : Int), toPlane z (7 - k)))) q fun _ u => u.my.pair.isNone && runs (dstLa 0 17 0) u fun _ _ => true) &&
     ready (.vstf 1 0 1 17 1) s && ready (.vstfPost 1 0 1 17 1) s) = true := by
  decide +kernel

/-- MCLR with room, with a full queue and with a fault pending; MWLD of a good record and of no record. -/
theorem witness_MatrixIssue :
    (let good := leBytes 8 0x20000 ++ leBytes 8 32 ++ leBytes 8 0 ++ leBytes 4 32 ++ leBytes 4 32 ++ [0x14]
     let s := holding (2 ^ 72 + 0x7F000 + 64 * 63) good
     has (issueOp (.mclr 3)) && ready (.mclr 3) plain && (plain.commandCheck 0 8 3 0).isOk && plain.my.mfaults.isEmpty && decide (plain.myCore.mq.length < 16) &&
     settled plain && decide (16 ≤ (strand id fun c => { c with mq := List.replicate 16 placeCommand }).myCore.mq.length) &&
     (ctx fun c => { c with mfaults := [⟨{ code := 0x13, detail := 5, val := 0 }, some 9⟩] }).my.mfaults == [⟨{ code := 0x13, detail := 5, val := 0 }, some 9⟩] &&
     !plain.isHart && has (issueOp (.mwld 63)) && ready (.mwld 63) s && (s.commandCheck 0 0 0 63).isOk && ready (.mwld 0) plain && !(plain.commandCheck 0 0 0 0).isOk) = true := by
  decide +kernel

/-- Values that MSET, MRED and MLAY take and refuse; MSTAT; MWAIT with nothing queued, with a command queued, with one held; MRESUME of a
held command, to go on and to drop it, and of none. -/
theorem witness_MatrixControl :
    (let queued := fun (h : Bool) (r : Nat) => strand (fun c => { c with rprog := word r }) fun c => { c with mq := [{ placeCommand with ctx := 0, held := h }] }
     [1, 2, 7].all (fun o => paramOk o 0) && paramOk 1 128 && !paramOk 1 129 && !paramOk 2 31 && ready (.mset 7 1) plain && has (value plain 1) && ready (.mred 1) plain &&
     ready (.mlay 63 1) plain && (bitsAt (word 0x83) 3 4 == 0 && (word 0x83).getLsbD 7 && decide (bitsAt (word 0x83) 0 3 < 4) && decide (4 ≤ bitsAt (word 0x84) 0 3)) &&
     bitsAt (word 0x100) 8 56 != 0 && ready (.mstat 15) plain && has (written plain 15 (plain.matrixStatus 0 0)) && ready .mwait plain && plain.my.mfaults.isEmpty &&
     (plain.myCore.mq.filter fun q => q.ctx == 0).isEmpty && (((queued true 0).myCore.mq.filter fun q => q.ctx == 0).any MCmd.held) &&
     !(((queued false 0).myCore.mq.filter fun q => q.ctx == 0).any MCmd.held) && ready .mresume (queued true 0) &&
     [2 ^ 63, 2 ^ 63 + 2 ^ 62].all (fun r => has ((queued true r).myCore.mq.find? fun q => q.held && q.ctx == 0 && describes (queued true r).my.rprog q)) &&
     ((queued true 0).myCore.mq.find? fun q => q.held && q.ctx == 0 && describes (queued true 0).my.rprog q).isNone) = true := by decide +kernel

/-- PLOAD of 128 words and of 129, beside a sparse command and without; PBIND of slots 31 and 32, of an empty, a good and a bad descriptor,
and of one that cannot be transposed; PSTAT. -/
theorem witness_PatternInstructions :
    (let good := leBytes 2 0 ++ leBytes 2 0xFFFF ++ leBytes 4 1 ++ leBytes 4 1 ++ leBytes 2 1 ++ leBytes 2 32
     let bad := leBytes 2 128 ++ leBytes 2 0 ++ leBytes 4 1
     let s := ctx fun c => c.setG 1 128
     ready (.pload 1 17) s && has (value s 1) (fun c => bitsAt c 24 40 == 0 && bitsAt c 8 8 == 0 && bitsAt c 0 8 != 0 && decide (bitsAt c 16 8 + bitsAt c 0 8 ≤ 128)) &&
     decide (128 < bitsAt (word 0x10080) 16 8 + bitsAt (word 0x10080) 0 8) &&
     runs (check { read := true, plain := true } [(baseOf s 17, 0, 512)]) (taken s [1]) (fun es u => !u.myCore.mq.any MCmd.sparse && runs (readExts true es) u fun _ _ => true) &&
     (strand id fun c => { c with mq := [placeCommand] }).myCore.mq.any MCmd.sparse &&
     has (value (ctx fun c => c.setG 1 31) 1) (fun n => decide (n.toNat ≤ 31)) && decide (31 < (word 32).toNat) && ready (.pbind 1 17) plain && ready (.pbindT 1 17) plain &&
     runs (load (baseOf plain 17) 0 64) (taken plain [1]) (fun bs _ => recField bs 4 4 == 0) &&
     runs (load (baseOf plain 17) 0 64) (holding 0x20000 good) (fun bs _ => recField bs 4 4 != 0 && bindingOk bs && recField bs 48 8 == 0 && recField bs 2 2 == 0xFFFF) &&
     runs (load (baseOf plain 17) 0 64) (holding 0x20000 bad) (fun bs _ => recField bs 4 4 != 0 && !bindingOk bs) &&
     ready (.pstat 1 3) plain && has (written (taken plain [1]) 3 (bindingStatus (vget none plain.myCore.pbind 0)))) = true ∧
    multiple (baseOf plain 17) 0 64 ∧ multiple (baseOf plain 17) 0 4 := by
  unfold multiple
  decide +kernel

/-- The binding of a placed command, changed by b. -/
def bindOf (b : Binding → Binding) : Option Binding := placeCommand.binding.map b

/-- Generator 0 of galley 0 with registers x, its command bound by b. -/
def genOf (x : Gen) (b : Binding → Binding) : State :=
  { State.reset with
    cur := .generator 0 0
    cores := [(0, { Core.reset with mq := [{ placeCommand with binding := bindOf b }] })]
    galleys := [(0, { Galley.reset with running := some { core := 0, yields := [], columns := [], faults := [] }, gens := vset Galley.reset.gens 0 x })] }

/-- Registers of a generator that runs: k1 = 1, k2 = −1, k3 = 2. -/
def genRegs : Gen := { Gen.reset with running := true, k := vset (vset (vset Gen.reset.k 1 1) 2 (-1)) 3 2 }

theorem generating_of {x : Gen} {b : Binding → Binding} {q : Binding} (h : bindOf b = some q) (hr : x.running = true) (hs : x.steps < 4096) :
    generating (genOf x b) 0 0 { core := 0, yields := [], columns := [], faults := [] } { placeCommand with binding := bindOf b } q x :=
  ⟨rfl, by decide, by decide, rfl, h, rfl, hr, hs⟩

/-- The 4,096th word and the one after it; division by 1 and by 0; yields outside, rising, not rising, and out of range. -/
theorem witness_GeneratorWords :
    (∃ q, generating (genOf { genRegs with steps := 4095 } id) 0 0 { core := 0, yields := [], columns := [], faults := [] } { placeCommand with binding := bindOf id } q
       { genRegs with steps := 4095 }) ∧
    (has (genResult (.kdiv 1 3 4)) (fun p => has (bindOf id) fun b => has (p.2 genRegs b)) && has (genResult (.kmod 0 3 4)) (fun p => has (bindOf id) fun b => (p.2 genRegs b).isNone) &&
     has (bindOf id) (fun b =>
       let e := fun (k : Nat) => (vget 0 genRegs.k k).toInt
       decide (e 2 < 0) && decide ((b.ks : Int) ≤ e 1) && decide (0 ≤ e 0) && decide (e 0 < b.ks) && decide (genRegs.last < e 0) && decide (0 < (b.vstr : Int))) &&
     decide ((0 : Int) ≤ ({ genRegs with last := 0 } : Gen).last) && decide ((1 : Int) ≤ ({ genRegs with count := 1 } : Gen).count) && isPattern .kend &&
     (genOf { genRegs with steps := 4096 } id).cur == .generator 0 0 && hasAgent plain) = true :=
  ⟨⟨_, generating_of rfl rfl (by decide)⟩, by decide +kernel⟩

/-- An impression of one block: tenant 1, one row of 32. -/
def impression (st : BlockSt) : Impression :=
  { impressionOf (leBytes 8 0x40000 ++ leBytes 8 128 ++ leBytes 4 1 ++ leBytes 4 32 ++ [0x12, 0x14, 0, 1] ++ leBytes 4 0 ++ leBytes 8 0x50000 ++ leBytes 8 0 ++ leBytes 8 0x60000 ++ leBytes 8 0) 1 0 with
    blocks := [(0, (st, 0))] }

/-- VREG with a free handle, with none, and with a full watch table; VDROP and VSYNC of a handle of no impression, of a fresh, a pending and a
publishing one and of a faulted one; VSTAT of the first block and of one beyond, and of AMAX; VPOL of policies 2 and 3. -/
theorem witness_Impressions :
    (let bs := leBytes 8 0x40000 ++ leBytes 8 128 ++ leBytes 4 1 ++ leBytes 4 32 ++ [0x12, 0x14, 0, 1] ++ leBytes 4 0 ++ leBytes 8 0x50000 ++ leBytes 8 0 ++ leBytes 8 0x60000
     let far : Impression := { impression .fresh with master := List.replicate 256 ⟨0, 0x40080, 1, 0, false⟩ }
     let reg := fun (l : List (Nat × Impression)) (free full : Bool) =>
       let s := { holding 0x20000 bs with impressions := l }
       ready (.vreg 17 3) s && runs (load (baseOf s 17) 0 64) s fun bs u1 => impressionOk bs &&
         (let m := impressionOf bs 1 0
          runs (check { read := true, localOnly := true, engine := true } m.masterSpans) u1 fun ms u2 =>
            runs (check { write := true, localOnly := true, engine := true } m.codeSpans) u2 fun cs u3 =>
              runs (check { write := true, localOnly := true, engine := true } m.scaleSpans) u3 fun ss u4 =>
                let m := { m with master := ms.flatten, codes := cs.flatten, scales := ss.flatten }
                !anyOverlap (m.codes ++ m.scales) && ((m.codes ++ m.scales).all fun x => (m.master ++ u4.impressions.flatMap (fun e => e.2.extents)).all fun y => !x.overlaps y) &&
                  settled u4 && steady u4 && ((List.range 64).find? fun k => !listed (ended u4).impressions k).isSome == free &&
                  (ended u4).watchFull m == full && has (written (ended u4) 3 0))
     let hold := fun (m : Impression) => { plain with impressions := [(0, m)] }
     reg [] true false && reg ((List.range 64).map fun k => (k, impression .fresh)) false false && reg [(1, far)] true true &&
     ready (.vdrop 1) plain && ready (.vsync 1) plain && has (value plain 1) (fun h => (find plain.impressions h.toNat).isNone && has (find (hold (impression .fresh)).impressions h.toNat) fun m => m.tenant == plain.my.tenant) &&
     !(impression .fresh).publishing && (impression .publishing).publishing && (impression .fresh).pendingBlocks == 0 && (impression .pending).pendingBlocks == 1 && (impression .fresh).nb == 1 &&
     plain.my.wait != .passed && (ctx fun c => { c with wait := .passed }).my.wait == .passed && settled plain &&
     ready (.vstat 1 2 3) (hold (impression .fresh)) && has (value plain 2) && has (written (ended (taken plain [1, 2])) 3 0) && bitsAt (word (2 ^ 61)) 61 2 == 1 && decide (1 ≤ bitsAt (word 1) 0 32) &&
     ready (.vpol 1 2 3) (hold (impression .fresh)) && decide (2 < (word 3).toNat)) = true ∧
    multiple (baseOf plain 17) 0 64 := by
  unfold multiple
  decide +kernel

/-- A group of two members, of which this package is rank 0. -/
def group : Group :=
  { gid := 1, tenant := 1, members := 2, rank := 0, roster := [0, 1], area := 0x30000, mbox := [], tmo := 1, spare := false, active := true, mask := [0, 1], head := 1, since := 1
    ggen := 0, leaving := false, queue := [], parts := [], given := none, removed := [], interval := 0, decision := none, leavers := [], spares := [] }

/-- The strand on a package with a fabric of two packages, with group 0, bytes at a1, a page of mode 01 at a3. -/
def joined (bs : List Byte) (l : List (Nat × Group)) (f : Ctx → Ctx) : State :=
  let s := (holding 0x20000 bs).updMy fun c => f { c with areg := vset c.areg 3 0x40000000 }
  let t := { placeTlb State.reset with va := 2 ^ 30, pte := word (2 ^ 46 + 2 ^ 44 + 0x9D) }
  { s with fabric := { s.fabric with present := true, sizes := vset s.fabric.sizes 0 2, groups := l } }.updMyCore fun c => { c with tlb := t :: c.tlb }

/-- RECONF accepted, refused for its descriptor, and while one runs. -/
theorem witness_Fabric_reconf :
    (let re := leBytes 4 1 ++ [2, 0] ++ leBytes 2 0 ++ leBytes 8 0x30000
     let r : Reconf := { gen := 1, dim := 2, ring := 0, mbox := [], swcmd := 0, phase := .drain }
     let s := joined [] [(0, group)] id
     ready (.reconf 17 3) s && runs (fabricDescriptor (baseOf s 17)) s (fun bs u => !reconfOk u.fabric bs && !joinOk bs) &&
     runs (fabricDescriptor (baseOf s 17)) (joined re [] id) (fun bs u => reconfOk u.fabric bs && runs (check { write := true } [(word (recField bs 8 8), 0, 8)]) u fun _ w =>
       w.fabric.present && decide (w.fabric.cgen ≤ w.my.tgen.toNat) && steady w && w.fabric.reconf.isNone && has (written w 3 1) && runs (release 5) w fun _ x => steady x &&
         steady (x.sendControl (x.fabric.fibresOf 2) 12 0) && has (written (x.sendControl (x.fabric.fibresOf 2) 12 0) 3 0)) &&
     has ({ s with fabric := { s.fabric with reconf := some r } } : State).fabric.reconf) = true := by decide +kernel

set_option maxRecDepth 100000 in
/-- CGJOIN with a free slot and with none. -/
theorem witness_Fabric_join :
    (let jn := leBytes 8 1 ++ leBytes 2 2 ++ leBytes 2 0 ++ leBytes 4 0 ++ leBytes 8 0x28000 ++ leBytes 8 0x30000 ++ leBytes 8 1 ++ leBytes 8 0x40000
     [[], (List.range 64).map fun k => (k, group)].all (fun l => let s := joined jn l id
       ready (.cgjoin 17 3) s && runs (fabricDescriptor (baseOf s 17)) s fun bs u1 => joinOk bs && runs (load (word (recField bs 16 8)) 0 8) u1 fun rs u2 => ((List.range 2).all fun i => decide (recField rs (4 * i) 4 < 2 ^ 18)) &&
         runs (check { read := true, write := true, localOnly := true } [(word (recField bs 24 8), 0, 4096)]) u2 fun _ u3 => runs (check { write := true } [(word (recField bs 40 8), 0, 8)]) u3 fun _ u4 =>
           u4.fabric.present && runs (release 5) u4 fun _ u5 => steady u5 && ((List.range 64).find? fun k => !listed u5.fabric.groups k).isSome == l.isEmpty && has (written u5 3 0))) = true := by decide +kernel

/-- CGLEAVE of a group with nothing queued; no group; COLL with room and without. -/
theorem witness_Fabric_coll :
    (let co := [0, 0, 0x12, 0] ++ leBytes 4 0 ++ leBytes 8 0x30000 ++ leBytes 8 0x31000 ++ leBytes 8 1 ++ leBytes 8 0x32000
     let c : Coll := { desc := [], seq := 1, core := 0, tenant := 1 }
     let s := joined [] [(0, group)] id
     ready (.cgleave 1) s && has (value s 1) (fun h => has (find s.fabric.groups h.toNat) fun g => g.tenant == s.my.tenant && g.queue.isEmpty) && runs (release 5) (taken s [1]) (fun _ u => has (find u.fabric.groups 0)) &&
     (find plain.fabric.groups 0).isNone && [[], List.replicate 16 c].all (fun q => let s := joined co [(0, { group with queue := q })] id
       ready (.coll 1 17 3) s && runs (collCheck (baseOf s 17) 0) (taken s [1]) fun gc u => decide (gc.1.queue.length < 16) == q.isEmpty && !(gc.1.others.map gc.1.peer).any u.fabric.stopped && runs (release 5) u fun _ w =>
         steady (w.queueColl 0 gc.1 gc.2) && has (written (w.queueColl 0 gc.1 gc.2) 3 (word gc.2.seq)))) = true := by decide +kernel

/-- CLOGR of a collective to come, and of one that cannot be copied. -/
theorem witness_Fabric_log :
    (let s := joined [] [(0, group)] id
     ready (.clogr 1 2 3) s && has (written (taken s [1, 2]) 3 1) && decide (group.since ≤ 1) && decide (group.head ≤ 0 + 16) && decide (0 < group.since) &&
     (let en := memRead (holding 0x3000C [2]).mem (group.area + 128 * (0 % 16)) 128
      decide (2 ≤ recField en 12 1))) = true := by decide +kernel

theorem witness_Fabric_aligned : multiple (baseOf plain 17) 0 64 ∧ multiple 0x30000 0 8 := by
  unfold multiple
  decide +kernel

/-- An event at the head of the queue; an instruction that is an event. -/
theorem witness_Events : ({ plain with queue := [.hartRestart 0] } : State).queue = Event.hartRestart 0 :: [] ∧ bytesOfInstr .hartRestart = 0 := by
  decide +kernel

/-- Nothing to do; one move; a word fetched, one that is none, one with a bad type code; a fetch that is refused; a hart. -/
theorem witness_StepRunsDecoded :
    (let at_ := fun (w : Nat) => { State.reset.placeStrand (leBytes 4 w) with cur := .strand 0 0 }
     State.reset.moves.isEmpty && !(at_ 0x00046405).moves.isEmpty && !(State.reset.placeHart []).moves.isEmpty && !((State.reset.placeHart []).begin (.hart 0)).builtin &&
     (match (at_ 0x00046405).fetch with | .ok (bs, u) => (match decode bs with | .ok (i, rest) => !u.consumesBad i && rest.isEmpty && bytesOfInstr i == 4 | .error _ => false) | .error _ => false) &&
     (match (at_ 0xFFFFFFFF).fetch with | .ok (bs, _) => (match decode bs with | .error .illegal => true | _ => false) | .error _ => false) &&
     (match (at_ (5 * 2 ^ 18 + 0x3B * 2 + 1)).fetch with | .ok (bs, _) => (match decode bs with | .error .typeCode => true | _ => false) | .error _ => false) &&
     (match (ctx fun c => { c with pc := 0x80000000 }).fetch with | .error _ => true | _ => false) && (plain.fetchHalf 0x1FFFE).isOk) = true := by decide +kernel

/-- The halfword 0 at PC; a word whose opcode is 0x7F. -/
theorem witness_NotInstructions :
    (let s := { State.reset.placeStrand (leBytes 4 0xFFFFFFFF) with cur := .strand 0 0 }
     (match plain.fetchHalf plain.my.pc with | .ok (h, _) => h == 0 | _ => false) && WellFormed (.vadd 0 0 0 0 0) &&
     (match s.fetchHalf s.my.pc with | .ok (h, u) => h == 0xFFFF && h % 2 == 1 && reservedOpcode (h / 2 % 128) && (u.fetchHalf (s.my.pc + 2)).isOk | _ => false)) = true := by decide +kernel

/-- Well-formed instructions of each length, and a pattern word. -/
theorem witness_EncodeDecode :
    (WellFormed (.vaddLForm 1 31 31) && bytesOfInstr (.vaddLForm 1 31 31) == 2 && !isPattern (.vaddLForm 1 31 31) && WellFormed (.cstart 29) && bytesOfInstr (.cstart 29) == 4 &&
     !isPattern (.cstart 29) && WellFormed (.kshr 31 15 15) && isPattern (.kshr 31 15 15)) = true := by decide +kernel

theorem witness_MemoryInvariant : (Memory.wf State.reset.mem && (match step State.reset with | .next _ => true | _ => false)) = true := by decide +kernel

theorem witness_EveryInstructionRuns : (hasAgent plain && hasAgent hartOf && bytesOfInstr .startUp == 0) = true := by decide +kernel

/-! ### Witnesses of the clauses that a local store or a page decides -/

/-- The strand with bytes at the start of its own store, its context changed by f. -/
def stored (bs : List Byte) (f : Ctx → Ctx) : State := { ctx f with mem := memWrite [] (2 ^ 72) bs }

/-- LDSTR of the own store, load and store, with post-increment and under lookahead. -/
theorem witness_LocalStore_registerForms :
    (ready (.ldstrLoad 0 3 0 28 16 3) plain && has (value plain 28) (fun x => has (storeBytes plain (baseOf plain 16) x.toInt 8) fun bs =>
       has (writtenLa 0 (taken plain [28]) 3 (extend true bs))) &&
     ready (.ldstrLoad 1 6 15 28 16 3) plain && has (storeBytes plain (baseOf plain 16) 0 4) (fun bs =>
       has (writtenLa 15 (taken plain [28]) 16 (advance plain.my.awc (baseOf plain 16) 4)) fun u => has (writtenLa 15 u 3 (extend false bs))) &&
     ready (.ldstrStore 0 3 0 28 16 2) plain && has (value plain 2) && has (storeKeyAt plain (baseOf plain 16) 0 8 true) &&
     ready (.ldstrStore 1 0 15 28 16 2) plain && has (storeKeyAt plain (baseOf plain 16) 0 1 true) (fun k =>
       has (writtenLa 15 ((taken plain [28, 2]).putBytes k [0]) 16 (advance plain.my.awc (baseOf plain 16) 1)))) = true ∧
    inBlock plain.my.awc (baseOf plain 16) 4 ∧ inBlock plain.my.awc (baseOf plain 16) 1 := by
  unfold inBlock
  decide +kernel

/-- Ordered accesses and atomics of the own store; SC operations on a page, free and announced; a release that waits. -/
theorem witness_Ordered_outright :
    (has (acquireOp (.ldAcqW 0 28 16 3)) && ready (.ldAcqW 0 28 16 3) plain && has (value plain 28) (fun x => has (storeBytes plain (baseOf plain 16) x.toInt 4) fun m =>
       has (written (ended (taken plain [28])) 3 (sext (leNat m) 32))) &&
     has (releaseOp (.stRelD 4 28 16 3)) && ready (.stRelD 4 28 16 3) plain && has (storeKeyAt plain (baseOf plain 16) 0 8 true) &&
     has (pageBytes plain (baseOf plain 17) 0 8) (fun e => plain.spanDie || homeGalley e.key / 64 == dieOf plain.me.1) && plain.my.wait == .none &&
     !plain.myCore.announced && ready (.stSc 28 17 3) plain && ready (.stSc 28 17 3) (ctx fun c => { c with wait := .sc none }) &&
     !settled { plain with scOps := [⟨0, 0, 0, 0, 0, 0, true, 0, 0⟩] } && drained plain &&
     has (amoOp (.amoFadd 1 4 2 16 3)) && ready (.amoFadd 1 4 2 16 3) plain && has (storeKeyAt plain (baseOf plain 16) 0 8 true) (fun k => cleanWords plain k 8 &&
       (let r := amoNew 10 64 0 0 0
        has (written (ended (counted (match r.1 with | some x => (ended (taken plain [2, 3])).putBytes k (leBytes 8 x) | none => ended (taken plain [2, 3])) r.2)) 3 0)))) = true ∧
    multiple (baseOf plain 16) 0 4 ∧ multiple (baseOf plain 16) 0 8 := by
  unfold multiple
  decide +kernel

/-- RFLUSH and RINV of the last 64 bytes of a page; LDRO of the own store; PRE of a port that may not be read; BMOV of one byte. -/
theorem witness_Ranges_outright :
    (let s := (ctx fun c => c.setG 1 64).updMy fun c => { c with areg := vset c.areg 1 0x20FC0 }
     let m := ctx fun c => ((c.setG 1 1).setG 2 (2 ^ 62)).setG 3 (2 ^ 62 + 2 ^ 56)
     ready (.rflush 1 17) s && ready (.rinv 1 17) s && has (value s 1) (fun n => n == 64) && s.my.lost.isNone && settled s && has (pageBytes s (baseOf s 17) 0 64) (fun e =>
       let w := (taken s [1]).who.overExts [e]
       let t := (taken s [1]).flushRange w e.key e.len
       !t.flying [e] && !(t.invalidateRange w e.key e.len).flying [e]) && (pageBytes s (baseOf s 17) 0 65).isNone &&
     ready (.ldroW 28 16 3) plain && has (storeBytes plain (baseOf plain 16) 0 4) (fun b => has (written (taken plain [28]) 3 (extend true b))) &&
     ready (.pre 24 17) plain && !portOk plain 24 &&
     ready (.bmov 1 2 3) m && m.my.reg 1 == 1 && has (storeBytes m (m.my.reg 2) 0 1) (fun b => has (storeKeyAt m (m.my.reg 3) 0 1 true) fun k =>
       has (written (m.putBytes k b) 2 (m.my.reg 2 + 1)) fun x => has (written x 3 (m.my.reg 3 + 1)) fun y => has (written y 1 0) fun z => z.my.reg 1 == 0)) = true := by
  decide +kernel

/-- RFORK and JOIN in a page; MIG to a store of the own core and of the next; AMSG, TASK, EVK and GSTAT in the own store. -/
theorem witness_Groups_outright :
    (let s := ctx fun c => c.setG 1 64
     let j := holding 0x20000 (leBytes 8 2)
     let g := fun (p : Word) => ctx fun c => ({ c with va := 0 } : Ctx).setG 1 p
     let a := stored (leBytes 8 (2 ^ 62) ++ leBytes 8 0x10000) id
     let t := stored (leBytes 8 0x10000 ++ leBytes 16 0 ++ leBytes 2 0 ++ [31, 3]) id
     let e := stored (leBytes 8 0x40000 ++ leBytes 4 4 ++ [0, 2] ++ leBytes 2 1) fun c => c.setG 1 3
     ready (.rfork 1 17 3) s && leaf s.my && has (value s 1) (fun w => w == 64) && has (pageBytes s (baseOf s 17) 0 8) (fun e =>
       let list := (taken s [1]).forkList s.my.gang s.me.1 s.my.va 63
       let w := writtenOver false (ended (taken s [1])) [e] (leBytes 8 (1 + list.length))
       let r := w.startRecruits w.my w.me.1 w.my.team (w.my.pc + 4) 3 (1 + list.length) 1 list []
       steady r && has (written r 3 (word ((1 + list.length) * 2 ^ 32)))) &&
     ready (.join 17) j && has (pageBytes j (baseOf j 17) 0 8) (fun e => quiet j && leNat (memRead ((j.recallAll e.key 8).homeRead e.key 8).mem e.key 8) == 2 &&
       settled ((((ended j).recallAll e.key 8).homeRead e.key 8).homeWrite e.key (leBytes 8 1))) &&
     [(word (2 ^ 62), 0), (word (2 ^ 62 + 2 ^ 56), 1)].all (fun p => ready (.mig 1) (g p.1) && quiet (g p.1) && has (value (g p.1) 1) fun v =>
       has (storeKeyAt (g p.1) v 0 1 false) && coreAt (bitsAt v 56 6) (bitsAt v 51 5) == p.2 && (g p.1).bound p.2 1) &&
     ready (.amsg 28 16 3) a && has (storeBytes a (baseOf a 16) 0 32) (fun m => messageOk (wordsOf m 4) && bitsAt ((wordsOf m 4).getD 0 0) 36 7 == 0 &&
       a.bound (coreAt (bitsAt ((wordsOf m 4).getD 0 0) 56 6) (bitsAt ((wordsOf m 4).getD 0 0) 51 5)) a.my.tenant) &&
     ready (.task 16 3) t && has (storeBytes t (baseOf t 16) 0 32) (fun r => codeAddress (word (recField r 0 8)) && recField r 26 1 == 31 && recField r 27 1 == 3 && recField r 28 4 == 0) &&
     ready (.evk 1 16) e && has (storeBytes e (baseOf e 16) 0 32) (fun bs => recField bs 8 4 != 0 && kernelOk bs) &&
     ready (.gstat 16) plain && has (storeKeyAt plain (baseOf plain 16) 0 128 true) && ready (.hmsg 1 2) plain && drained plain) = true ∧
    multiple (baseOf plain 17) 0 8 ∧ multiple (baseOf plain 16) 0 32 := by
  unfold multiple
  decide +kernel

/-- SBIND, CPY.S, CPY.G, PLOAD of 128 words and PBIND from the own store; CPY outright; a request that resumes; COLL readiness of KICK. -/
theorem witness_Descriptors_outright :
    (let b := stored (leBytes 8 0x30000 ++ leBytes 8 64 ++ leBytes 8 0 ++ leBytes 4 1 ++ leBytes 2 1) id
     let p : Copy := { form := 0, desc := [], done := 0, tenant := 1, team := 1, ctx := 0, gen := 0, issued := 0, counted := false, started := false,
                       fault := some { code := 4 }, raised := true, interval := 0, far := false, packets := 0, flying := [], lost := none, abandoned := false }
     let r := strand id fun c => { c with copies := vset c.copies 63 (some p) }
     let shaped := stored (leBytes 8 0x20000 ++ leBytes 8 0x30000 ++ leBytes 32 0 ++ leBytes 4 8 ++ leBytes 2 1 ++ leBytes 2 1) id
     let gather := stored (leBytes 24 0 ++ leBytes 4 8 ++ leBytes 4 1) id
     let c := ctx fun c => c.setG 1 8
     let l := ctx fun c => c.setG 1 128
     let k := stored (leBytes 2 0 ++ leBytes 2 0xFFFF ++ leBytes 4 1 ++ leBytes 4 1 ++ leBytes 2 1 ++ leBytes 2 32) id
     b.my.port 31 == .plain && ready (.sbind 16 31) b && has (storeBytes b (baseOf b 16) 0 32) streamOk &&
     ready (.cpy 3 15 1 17 18) r && ready (.cpyS 3 15 17) r && ready (.cpyG 3 15 17) r && raisedCopy r 63 && !raisedCopy plain 63 &&
     mayCopy plain 63 (plain.myCore.freeSlot.getD 0) && ready (.cpy 3 15 1 17 18) c && (resolve (baseOf c 17) 0 8 false).isOk && (resolve (baseOf c 18) 0 8 true).isOk &&
     !shareByte (baseOf c 17) (baseOf c 18) 8 && mayCopy c 63 (c.myCore.freeSlot.getD 0) && (resolve (baseOf plain 17) 0 0 false).isOk && (resolve (baseOf plain 18) 0 0 true).isOk &&
     (match resolve 1 (-2) 8 false with | .error _ => true | _ => false) &&
     ready (.cpyS 0 0 16) shaped && has (storeBytes shaped (baseOf shaped 16) 0 64) shapedOk && mayCopy shaped 0 (shaped.myCore.freeSlot.getD 0) &&
     ready (.cpyG 0 0 16) gather && has (storeBytes gather (baseOf gather 16) 0 64) gatherOk && mayCopy gather 0 (gather.myCore.freeSlot.getD 0) &&
     ready (.pload 1 16) l && has (value l 1) (fun n => n == 128) && has (storeBytes l (baseOf l 16) 0 512) && !l.myCore.mq.any MCmd.sparse &&
     ready (.pbind 1 16) k && ready (.pbindT 1 16) k && has (storeBytes k (baseOf k 16) 0 64) bindingOk &&
     runs (collReady 0) (taken plain [1, 2]) (fun _ q => runs (release 4) q fun _ u => steady (u.kick 3 0).2 && has (written (u.kick 3 0).2 3 (word (u.kick 3 0).1)))) = true ∧
    multiple (baseOf plain 16) 0 64 ∧ multiple (baseOf plain 16) 0 4 := by
  unfold multiple
  decide +kernel

/-- The vector fields of each shape are registers, the last of an allocation among them. -/
theorem witness_Vectors_outright :
    (registers (masked 0x12).my [(2, 1), (1, 1), (31, 1)] && registers (masked 0x12).my [(1, 1), (28, 4)] && registers (masked 0x0A).my [(30, 2), (1, 1), (3, 1)] &&
     !registers (ctx fun c => c.setPort 24 (.queue 1 0)).my [(24, 1)] && !registers (ctx fun c => { c with va := 8 }).my [(8, 1)] &&
     [(Instr.vsubs 1 0 1 2 31, 0x0A), (.vsqrt 1 0 1 31 31, 0x11), (.vfnms 1 2 1 2 3, 0x13), (.vwmac 1 0 1 2 30, 0x11), (.vnshr 0 1 1 30 3, 0x0A), (.vcvt 1 1 0 0x0B 1 2, 0x12),
      (.vcvtw 0 0 0 0x14 1 28, 0x12), (.vcvtn 0 0 0 0x11 30 1, 0x12), (.vcmpGen 1 1 2 7, 0x03), (.vsel 1 2 3, 0x12), (.vrsum 1 3 1 2, 0x12), (.vperm 1 1 2 3, 0x12),
      (.vslup 1 1 2 3, 0x12), (.vbcast 1 1 2, 0x12), (.vins 0 1 2 3, 0x12), (.vext 0 1 2 3, 0x12), (.vcomp 0 2 3, 0x12)].all (fun p => ready p.1 (masked p.2)) &&
     has (written (taken (masked 0x12) [1]) 3 0)) = true := by decide +kernel

/-- Vector loads and stores of every form in the own store. -/
theorem witness_VectorMemory_outright :
    (let s := (masked 0x10).updMy fun c => (c.setG 1 (planes 0)).setG 2 (planes 2)
     let t := masked 0x13
     let keys := fun (wr : Bool) (n w : Nat) (f : Nat → Int) => (List.range n).all fun k => has (storeKeyAt t (baseOf t 16) (f k) w wr) fun q => wr || cleanWords t q w
     ready (.vld 1 15 28 16 3) s && registers s.my [(3, 1)] && settled s && has (storeKeyAt s (baseOf s 16) 0 512 false) (fun k => cleanWords s k 512) &&
     ready (.vldPost 0 0 16 3) s && has (writtenLa 0 s 16 (advance s.my.awc (baseOf s 16) 512)) && ready (.vlds 0 0 28 16 3) t && has (laneTypeOf wholeBytes t.my) &&
     ready (.vldx 0 0 1 16 3) t && registers t.my [(1, 1), (3, 1)] && keys false 64 8 (fun _ => 0) && keys false 64 8 (fun k => ((elemOf (held t 1) 64 k * 8 : Nat) : Int)) &&
     ready (.vldf 0 15 1 16 3) s && ready (.vldfPost 0 0 2 16 3) s && keys false 8 64 (fun q => ((q * 64 : Nat) : Int)) &&
     has (writtenLa 0 (taken s [2]) 16 (advance s.my.awc (baseOf s 16) 64)) &&
     ready (.vst 1 0 28 16 1) s && has (storeKeyAt s (baseOf s 16) 0 512 true) && ready (.vstPost 1 15 16 1) s && ready (.vsts 0 0 28 16 1) t && ready (.vstx 0 0 1 16 1) t &&
     keys true 64 8 (fun _ => 0) && keys true 64 8 (fun k => ((elemOf (held t 1) 64 k * 8 : Nat) : Int)) && ready (.vstf 0 0 1 16 1) s && ready (.vstfPost 0 0 1 16 1) s &&
     keys true 8 64 (fun q => ((q * 64 : Nat) : Int)) && has (writtenLa 15 s 16 (advance s.my.awc (baseOf s 16) 512))) = true ∧
    inBlock plain.my.awc (baseOf plain 16) 512 ∧ inBlock plain.my.awc (baseOf plain 16) 64 := by
  unfold inBlock
  decide +kernel

/-- A pending pattern fault; MWAIT that waits and that has waited, with a command queued, with none and with a fault. -/
theorem witness_Matrix_waits :
    (let q := fun (w : Wait) (f : List MFault) => strand (fun c => { c with wait := w, mfaults := f }) fun c => { c with mq := [{ placeCommand with ctx := 0 }] }
     let f : List MFault := [⟨{ code := 0x13, detail := 5, val := 0 }, none⟩]
     (ctx fun c => { c with mfaults := [⟨{ code := 0x14, detail := 5, val := 0 }, none⟩] }).my.mfaults.length == 1 &&
     ready .mwait (q .matrix f) && ready .mwait (q .none []) && (q .none []).my.wait != .matrix && (q .matrix []).my.wait == .matrix &&
     ((q .matrix []).myCore.mq.filter fun c => c.ctx == 0).all (fun c => !c.held) && !((q .none []).myCore.mq.filter fun c => c.ctx == 0).isEmpty &&
     (q .none f).my.mfaults == f && !(q .none f).isHart) = true := by decide +kernel

/-- VREG with its descriptor in the own store and its spans in pages. -/
theorem witness_VREG_outright :
    (let bs := leBytes 8 0x20000 ++ leBytes 8 128 ++ leBytes 4 1 ++ leBytes 4 32 ++ [0x12, 0x14, 0, 1] ++ leBytes 4 0 ++ leBytes 8 0x22000 ++ leBytes 8 0 ++ leBytes 8 0x23000
     let s := stored bs id
     ready (.vreg 16 3) s && has (storeBytes s (baseOf s 16) 0 64) fun bs => impressionOk bs &&
       (let m := impressionOf bs s.my.tenant s.my.gang
        has (m.masterSpans.mapM fun x => pageBytes s x.1 x.2.1 x.2.2) fun ms => has (m.codeSpans.mapM fun x => pageBytes s x.1 x.2.1 x.2.2) fun cs =>
          has (m.scaleSpans.mapM fun x => pageBytes s x.1 x.2.1 x.2.2) fun ss =>
            let m := { m with master := ms, codes := cs, scales := ss }
            !anyOverlap (cs ++ ss) && (cs ++ ss).all (fun x => ms.all fun y => !x.overlaps y) && !(ended s).watchFull m &&
              has ((List.range 64).find? fun k => !listed s.impressions (dieOf s.me.1 * 64 + k)) fun k =>
                has (written { ended s with impressions := put s.impressions (dieOf s.me.1 * 64 + k) m } 3 (word k)))) = true := by decide +kernel

/-- The joined strand of witness_Fabric with bytes at the start of its own store as well. -/
def joinedOwn (bs : List Byte) (l : List (Nat × Group)) (f : Ctx → Ctx) : State :=
  let s := joined [] l f
  { s with mem := memWrite s.mem (2 ^ 72) bs }

/-- RECONF, CGLEAVE and COLL with descriptors in the own store, and ST.REP between pages. -/
theorem witness_Fabric_outright :
    (let re := joinedOwn (leBytes 4 1 ++ [2, 0] ++ leBytes 2 0 ++ leBytes 8 0x23000) [(0, group)] id
     let g := { group with queue := List.replicate 15 ({ desc := [], seq := 1, core := 0, tenant := 1 } : Coll) }
     let co := joinedOwn ([0, 0, 0x12, 0] ++ leBytes 4 0 ++ leBytes 8 0x20000 ++ leBytes 8 0x21000 ++ leBytes 8 1 ++ leBytes 8 0x22000) [(0, g)] id
     let st := joined [] [(0, group)] fun c => c.setG 1 256
     ready (.reconf 16 3) re && has (storeBytes re (baseOf re 16) 0 64) (fun bs => reconfOk re.fabric bs && has (pageBytes re (word (recField bs 8 8)) 0 8) fun e => re.fabric.present &&
       decide (re.fabric.cgen ≤ re.my.tgen.toNat) && re.fabric.reconf.isNone && drained re && has (written re 3 1) &&
       (let x := released re
        let y := ({ x with fabric := { x.fabric with
          reconf := some { gen := recField bs 0 4, dim := recField bs 4 1, ring := recField bs 5 1, mbox := [e], swcmd := BitVec.ofNat 256 (recField bs 16 32), phase := .drain } } } : State)
        has (written (y.sendControl (y.fabric.fibresOf (recField bs 4 1)) 12 0) 3 0))) &&
     ready (.cgleave 2) re && has (value re 2) (fun h => has (find re.fabric.groups h.toNat)) && drained (taken re [2]) &&
     ready (.coll 2 16 3) co && has (value co 2) (fun h => has (find co.fabric.groups h.toNat) fun g => has (storeBytes co (baseOf co 16) 0 64) fun bs => collOk bs g.members &&
       (let c : Coll := { desc := wordsOf bs 8, seq := g.head, core := 0, tenant := 1 }
        has (pageBytes co c.srcVa 0 (c.srcLen g.members g.rank)) && (c.dstLen g.members == 0 || has (pageBytes co c.dstVa 0 (c.dstLen g.members))) && has (pageBytes co c.crecVa 0 16) &&
        decide (g.queue.length < 16) && !(g.others.map g.peer).any co.fabric.stopped && drained (taken co [2]) && (let w := (released (taken co [2])).queueColl h.toNat g c
          steady w && has (written w 3 (word c.seq))))) &&
     ready (.stRep 1 17 19) st && has (value st 1) (fun x => bitsAt x 0 13 == 256 && settled st && has (pageBytes st (baseOf st 17) 0 256) fun _ =>
       has (pageAt st 1 (baseOf st 19) 0 256) fun f => isPeer f.key && !st.scPending st.who f.key f.len && decide (st.fabric.cgen ≤ st.gen.toNat))) = true := by decide +kernel

/-- CGJOIN with its descriptor and its roster in the own store, and its group area a page. -/
theorem witness_CGJOIN_outright :
    (let s := joinedOwn (leBytes 8 1 ++ leBytes 2 2 ++ leBytes 2 0 ++ leBytes 4 0 ++ leBytes 8 (2 ^ 62 + 64) ++ leBytes 8 0x20000 ++ leBytes 8 1 ++ leBytes 8 0x22000) [] id
     ready (.cgjoin 16 3) s && has (storeBytes s (baseOf s 16) 0 64) fun bs => joinOk bs && has (storeBytes s (word (recField bs 16 8)) 0 8) (fun rs =>
       (List.range 2).all fun i => decide (recField rs (4 * i) 4 < 2 ^ 18)) && has (pageBytes s (word (recField bs 24 8)) 0 4096) (fun _ => has (pageBytes s (word (recField bs 40 8)) 0 8)) &&
       s.fabric.present && decide (s.fabric.cgen ≤ s.my.tgen.toNat) && drained s && has ((List.range 64).find? fun k => !listed s.fabric.groups k) fun k =>
         has (written (released s) 3 (word k))) = true := by decide +kernel

/-! ### Witnesses of further clauses -/

/-- The strand, with pages of modes 01 and 10 of package 1 at 2^30 and 2^30 + 2^16 and a page of a phase window at 2^30 + 2^17; a1 is p. -/
def elsewhere (p : Nat) (f : Ctx → Ctx) : State :=
  let s := ctx fun c => f { c with areg := vset c.areg 1 (word p) }
  let t := fun (va pte : Nat) => { placeTlb State.reset with va, size := 2 ^ 16, pte := word pte }
  { s with fabric := { s.fabric with present := true, sizes := vset s.fabric.sizes 0 2 } }.updMyCore fun c =>
    { c with tlb := t (2 ^ 30) (2 ^ 46 + 2 ^ 44 + 0x9D) :: t (2 ^ 30 + 2 ^ 16) (2 ^ 46 + 2 * 2 ^ 44 + 0x9D) :: t (2 ^ 30 + 2 ^ 17) (0x1FFFF0 * 256 + 0x9D) :: c.tlb }

/-- What Atomics asks of AMO.ADD.I64 with register operands of 0, at the page that a1 points to. -/
def amoAsks (p sc : Nat) (k : Extent → State → Bool) : Bool :=
  let s := elsewhere p id
  has (amoOp (.amoAdd 1 (BitVec.ofNat 3 sc) 2 17 3)) fun q => q.1 == 0 && ready (.amoAdd 1 (BitVec.ofNat 3 sc) 2 17 3) s && s.my.wait == .none && has (value s 2) fun y => has (value s 3) fun _ =>
    runs (check { read := true, write := true, sync := true, atomic := true, fadd := q.1 == 10, scope := some sc, phase := q.1 == 0 || q.1 == 8
                  phaseBad := q.1 == 0 && !(decide (-(2 ^ 31) ≤ y.toInt) && decide (y.toInt ≤ 2 ^ 31 - 1)) } [(baseOf s 17, 0, 8)]) (taken s [2, 3]) fun es u =>
      es.flatten.length == 1 && has es.flatten.head? fun e => (u.badData e).isNone && k e u

/-- An atomic at scope 6 on a page; at a phase cell; at another package's memory of modes 01 and 10; and one that waits and has its answer. -/
theorem witness_Atomics_elsewhere :
    (amoAsks 0x20000 6 (fun _ u => settled u && !u.myCore.announced) && amoAsks (2 ^ 30 + 2 ^ 17) 5 (fun e u => e.cell && runs (release 5) u fun _ _ => true) &&
     [2 ^ 30, 2 ^ 30 + 2 ^ 16].all (fun p => amoAsks p 5 fun e u => !e.cell && (e.mode == 1 || e.mode == 2) && runs (release 5) u fun _ t => !(t.recallAll e.key 8).flying [e]) &&
     has (pageBytes plain (baseOf plain 17) 0 8) (fun e => plain.spanDie || homeGalley e.key / 64 == dieOf plain.me.1) && settled plain && !plain.myCore.announced &&
     ready (.amoAdd 1 6 2 17 3) (ctx fun c => { c with wait := .sc none }) && ready (.amoAdd 1 5 2 17 3) (ctx fun c => { c with wait := .phase none }) &&
     (let s := ctx fun c => { c with wait := .sc (some 7) }
      ready (.amoAdd 1 6 2 17 3) s && has (written (ended (s.updMy fun c => { c with wait := .none })) 3 7)) &&
     (let s := ctx fun c => { c with wait := .phase (some 7) }
      ready (.amoAdd 1 5 2 17 3) s && runs (acquire 5) s fun _ u => steady u && has (written u 3 7)) &&
     (let s := ctx fun c => { c with wait := .remote [0] [] }
      let p : Packet := ⟨0, 0, 0, 2 ^ 53, 0, [], 8, .load, false⟩
      ready (.amoAdd 1 5 2 17 3) s && ({ s with fabric := { s.fabric with packets := [p] } } : State).fabric.packets.any (fun q => [0].contains q.id) &&
      !s.fabric.packets.any (fun q => [0].contains q.id) && has (value s 2) fun _ => has (value s 3) fun _ =>
        runs (acquire 5) (counted (taken s [2, 3]) (amoNew 0 64 0 0 0).2) fun _ u => steady u && has (written u 3 0))) = true ∧
    multiple (word 0x20000) 0 8 ∧ multiple (word (2 ^ 30)) 0 8 ∧ multiple (word (2 ^ 30 + 2 ^ 16)) 0 8 ∧ multiple (word (2 ^ 30 + 2 ^ 17)) 0 8 := by
  unfold multiple
  decide +kernel

/-- QBIND on a bound port, and towards a core of no tenant; UNBIND of a write stream with a fault; QCTL at a plain port and at a stream; CPY of
no bytes under a tag with a raised fault. -/
theorem witness_PortBinding_refused :
    (let bound := fun (p : Port) => ctx fun c => (c.setPort 24 p).setG 1 2
     let w : Stream := { write := true, mark := false, base := 0, step0 := 0, step1 := 0, len0 := 1, len1 := 1, fault := some { code := 0x04, val := 8 } }
     ready (.qbind 1 24) (bound (.queue 1 3)) && portOk (bound (.queue 1 3)) 1 && (bound (.queue 1 3)).my.port 24 != .plain &&
     ready (.qbind 1 24) (bound .plain) && has (value (bound .plain) 1) (fun x => bitsAt x 4 60 == 0 && has (neighbour 0 (bitsAt x 0 2)) fun n => !plain.bound n 1) &&
     ready (.unbind 24) (bound (.stream w)) && (bound (.stream w)).my.port 24 == .stream w && w.fault == some { code := 0x04, val := 8 } && !([0x01, 0x02, 0x15].contains 0x04) &&
     ready (.qctl 1 24) (bound .plain) && (bound .plain).my.port 24 == .plain && ready (.qctl 1 24) (bound (.stream w)) && has (value (bound (.stream w)) 1) &&
     (let p : Copy := { form := 0, desc := [], done := 0, tenant := 1, team := 1, ctx := 0, gen := 0, issued := 0, counted := false, started := false,
                        fault := some { code := 4 }, raised := true, interval := 0, far := false, packets := 0, flying := [], lost := none, abandoned := false }
      let s := strand (fun c => c.setG 2 8) fun c => { c with copies := vset c.copies 63 (some p) }
      raisedCopy s 63 && ready (.cpy 3 15 1 17 18) s && has (value s 1) (fun x => x == 0) && ready (.cpy 3 15 2 17 18) s && has (value s 2) fun x => x != 0)) = true := by
  decide +kernel

/-- Streams with a fault, with an element on its way, at their end with and without a mark, in a light handler and with HSET.EN 0 and 1; write
streams with a fault and with 4 elements. -/
theorem witness_VectorOperands_stops :
    (let r : Stream := { write := false, mark := true, base := 0, step0 := 0, step1 := 0, len0 := 2, len1 := 1 }
     let w : Stream := { r with write := true }
     let bound := fun (t : Stream) => ctx fun c => c.setPort 24 (.stream t)
     let f : Trap := { code := 0x04 }
     [{ r with fault := some f }, { r with next := 1 }, { r with next := 2, mark := false }, { r with next := 2 }, { w with fault := some f }, { w with buf := [0, 0, 0, 0] }].all
       (fun t => (bound t).my.port 24 == .stream t && decide ((bound t).me.2 ≤ 8)) && r.total == 2 && w.total == 2 &&
     !(bound { r with next := 2 }).my.lh && bitsAt ((bound r).hset 0 0) 0 1 == 0 && bitsAt (((bound r).setHset 0x20001).hset 0 0) 0 1 == 1 &&
     ((bound { r with next := 2 }).updMy fun c => { c with lh := true }).my.lh) = true := by decide +kernel

/-- The traps of vector loads from a page that is not mapped. -/
theorem witness_VectorLoads_trap :
    (let s := ((masked 0x10).updMy fun c => (c.setG 1 (planes 0)).setG 2 (planes 2)).updMy fun c => { c with areg := vset c.areg 1 0x1FFF80000000 }
     let t := (masked 0x13).updMy fun c => { c with areg := vset c.areg 1 0x1FFF80000000 }
     let stops := fun (l : List (Word × Int × Nat)) (u : State) => match readElems l u with | .error (.trap f _) => !([0x01, 0x02, 0x15].contains f.code) | _ => false
     ready (.vld 1 15 28 17 3) s && ready (.vldPost 0 0 17 3) s && (resolve (baseOf s 17) 0 512 false).isOk &&
     stops ((s.my.activeRuns 1 16).map fun r => (baseOf s 17, 0 + (r.1 : Int), r.2)) s && stops ((s.my.activeRuns 0 16).map fun r => (baseOf s 17, 0 + (r.1 : Int), r.2)) s &&
     ready (.vlds 0 0 28 17 3) t && ready (.vldx 0 0 1 17 3) t && stops ((List.range 64).map fun _ => (baseOf t 17, 0, 8)) t &&
     ready (.vldf 0 0 1 17 3) s && ready (.vldfPost 0 0 1 17 3) s && stops (planeExtents (baseOf s 17) (fmtStride (planes 0)) 8) (taken s [1])) = true ∧
    inBlock plain.my.awc 0x1FFF80000000 512 ∧ inBlock plain.my.awc 0x1FFF80000000 64 := by
  unfold inBlock
  decide +kernel

/-- A pending memory fault of a resumable stop, for MWAIT and for MRESUME. -/
theorem witness_Matrix_pending :
    (let f : MFault := ⟨{ code := 0x05, detail := 0, val := 8 }, some 9⟩
     let s := ctx fun c => { c with mfaults := [f] }
     ready .mresume s && ready .mwait s && s.my.mfaults == [f] && !([0x01, 0x02, 0x15].contains f.trap.code) && !s.isHart && s.my.wait != .matrix) = true := by decide +kernel

/-- VSYNC of a FAULTED impression, after its release and before. -/
theorem witness_VSYNC_faulted :
    (let s := fun (w : Wait) => { ctx (fun c => { c with wait := w }) with impressions := [(0, { impression .fresh with faulted := some (0x04, 8) })] }
     [Wait.passed, .none].all fun w => ready (.vsync 1) (s w) && has (value (s w) 1) (fun h => has (find (s w).impressions h.toNat) fun m =>
       m.tenant == (s w).my.tenant && m.faulted == some (0x04, 8)) && settled (s w)) = true := by decide +kernel

/-- The state of ST.REP's witnesses: 256 bytes to a page of mode 01, to another member, and with SELF to this package too. -/
def repState (self : Bool) : State := joined [] [(0, group)] fun c => c.setG 1 (if self then word (256 + 2 ^ 57) else 256)

/-- ST.REP of 256 bytes, and the bounds of its length. -/
theorem witness_Fabric_rep :
    ([true, false].all (fun self => let st := repState self
       ready (.stRep 1 17 19) st && has (value st 1) (fun x => bitsAt x 13 44 == 0 && bitsAt x 0 13 == 256 && x.getLsbD 57 == self && has (find st.fabric.groups (bitsAt x 58 6)) fun g =>
         g.tenant == st.my.tenant && (g.others.map g.peer).all st.fabric.reachable && !(g.others.map g.peer).any st.fabric.stopped) &&
       runs (check { read := true, plain := true, localOnly := true, unread := true } [(baseOf st 17, 0, 256)]) (taken st [1]) (fun _ u0 =>
         runs (check { write := true, plain := true, rep := true, posted := true } [(baseOf st 19, 0, 256)]) u0 fun ds u1 =>
           runs (onePage ds.flatten 256) u1 (fun _ u => u == u1) && has (find u1.fabric.groups 0) (fun g => g.tenant == u1.my.tenant) &&
             (let own := ds.flatten.map fun e => { e with key := keyPa e.key, mode := 0 }
              !own.any (fun e => inPhaseWindow e.key) && !own.any fun e => (List.range e.len).any fun i => st.isDerived (e.key + i)) &&
             runs (check { read := true, plain := true, localOnly := true } [(baseOf st 17, 0, 256)]) u1 fun es u2 => runs (readExts true es) u2 fun _ _ => true)) &&
     decide (bitsAt (word 4096) 0 13 ≤ 4096) && decide (4096 < bitsAt (word 4097) 0 13)) = true := by decide +kernel

/-- The same outright. -/
theorem witness_Fabric_rep_outright :
    ([true, false].all fun self => let st := repState self
       ready (.stRep 1 17 19) st && st.fabric.present && settled st && has (value st 1) (fun x => bitsAt x 0 13 == 256 && x.getLsbD 57 == self) &&
         has (find st.fabric.groups 0) (fun g => g.tenant == st.my.tenant) && has (pageBytes st (baseOf st 17) 0 256) fun _ => has (pageAt st 1 (baseOf st 19) 0 256) fun f =>
           isPeer f.key && !inPhaseWindow (keyPa f.key) && !st.scPending st.who f.key f.len && !st.behindStream f && decide (st.fabric.cgen ≤ st.gen.toNat)) = true := by
  decide +kernel

/-- A group whose log admits collective 0, and which has no other member. -/
def loggedGroup (mask : List Nat) : Group := { group with head := 1, since := 1, mask }

/-- A state with bytes at the log's entry 0. -/
def logged (mask : List Nat) (bs : List Byte) : State :=
  let s := joined [] [(0, loggedGroup mask)] id
  { s with mem := memWrite s.mem 0x30000 bs }

/-- What CLOGR finds in a log entry: its status, its operation and the bytes of its DST extent. -/
def logFinds (bs : List Byte) (k : Nat → Coll → Bool) : Bool :=
  let en := memRead (logged [0, 1] bs).mem (0x30000 + 128 * (0 % 16)) 128
  k (recField en 12 1) { desc := wordsOf ((en.drop 16).take 64) 8, seq := 0, core := 0, tenant := 1 }

/-- CLOGR of a collective of no bytes: copied, with bytes that are not the log's, and with no other member; of a BCAST and a barrier. -/
theorem witness_CLOGR :
    (let s := logged [0, 1] []
     ready (.clogr 1 2 3) s && s.fabric.present && has (value s 1) (fun q => q == 0) && has (value s 2) (fun h => has (find s.fabric.groups h.toNat) fun g => g.tenant == s.my.tenant &&
       decide (g.head ≤ 0 + 16) && decide (0 < g.since) && !g.others.isEmpty) && (loggedGroup [0]).others.isEmpty && settled s &&
     logFinds [] (fun st c => decide (st < 2) && c.op != 2 && c.op != 4 && c.dstLen 2 == 0 && crc64 0 (donorBytes 0 0) == 0 &&
       recField (memRead s.mem 0x30000 128) 80 8 == 0 && runs (check { write := true, plain := true, localOnly := true } [(c.dstVa, 0, 0)]) (taken s [1, 2]) fun es u =>
         runs (acquire 5) (writtenOver true u es.flatten []) fun _ w => steady w && has (written w 3 0)) &&
     recField (memRead (logged [0, 1] (List.replicate 80 0 ++ [1])).mem 0x30000 128) 80 8 == 1 &&
     logFinds (List.replicate 16 0 ++ [2]) (fun st c => decide (st < 2) && c.op == 2) && logFinds (List.replicate 16 0 ++ [4]) (fun st c => decide (st < 2) && c.op == 4)) = true := by
  decide +kernel

/-- A copy that is not ready and one that is; a copy that meets a fault and one that does not. -/
theorem witness_Events_copies :
    (let p : Copy := { form := 0, desc := [0x20000, 0x30000, 0], done := 0, tenant := 1, team := 1, ctx := 0, gen := 0, issued := 0, counted := false, started := true,
                       fault := none, raised := false, interval := 0, far := false, packets := 0, flying := [], lost := none, abandoned := false }
     let s := fun (p : Copy) => strand id fun c => { c with copies := vset c.copies 5 (some p) }
     (s p).copyReady 0 5 && !(s { p with started := false }).copyReady 0 5 && has (vget none ((s p).core 0).copies 5) (fun c => !c.far) && ((s p).copyFault 0 5).isNone &&
     has ((s { p with desc := [0x1FFF80000000, 0x30000, 8] }).copyFault 0 5) (fun q => has (vget none (q.1.core 0).copies 5)) && (s { p with form := 2, desc := List.replicate 7 0 ++ [word (2 ^ 32)] }).copyReady 0 5 &&
     has (({ p with form := 2, desc := List.replicate 7 0 ++ [word (2 ^ 32)] } : Copy).dec) (fun n => n == 0) && p.dec.isNone) = true := by decide +kernel

/-- A pass that is empty and one that is not; a block that is recomputed, one skipped, and one whose check fails; groups that are active, that
become so and that are refused; the down list. -/
theorem witness_Events_engines :
    (let s := fun (st : BlockSt) => { plain with impressions := [(0, impression st)], passes := vset plain.passes 0 [(0, 0)] }
     vget [] plain.passes 3 == [] && vget [] (s .pending).passes 0 == [(0, 0)] && has (find (s .pending).impressions 0) (fun m => m.faulted.isNone && (m.block 0).1 == .pending &&
       ({ s .pending with passes := vset (s .pending).passes 0 [] } : State).eligibleBlock m 0) && has (find (s .fresh).impressions 0) (fun m => (m.block 0).1 != .pending) &&
     (match plain.engineCheck (impression .pending) false [spanAt (impression .pending).mbase ((impression .pending).masterVa 0 0 0) (32 * (impression .pending).eb)] with
      | (.error _, _) => true | _ => false) &&
     has (find (joined [] [(0, group)] id).fabric.groups 0) (fun g => g.active) && has (find (joined [] [(0, { group with active := false })] id).fabric.groups 0) (fun g => !g.active && !g.spare) &&
     decide (64 ≤ (List.replicate 64 0).length) && has ((List.range 1).head?) (fun i => decide (i < 1))) = true := by decide +kernel

/-- A flit that cannot be corrected; a fibre with a flit held and no replay, and with one. -/
theorem witness_Events_links :
    (let x : Flit := { seq := 0, ack := 0, type := 1, kp := false, reserved := 0, body := 0, crc := 1, wrongBits := [] }
     let h : SentFlit := { seq := 0x114, ack := 0, type := 1, kp := false, body := 0, packet := 0 }
     let f : Fibre := { Fibre.reset with held := [h] }
     !x.whole && (x.seq.toNat + 4096 - Fibre.reset.expected) % 4096 == 0 && (({ x with seq := 1 } : Flit).seq.toNat + 4096 - Fibre.reset.expected) % 4096 != 0 &&
     f.replaying.isNone && f.held == [h] && ({ f with replaying := some (0x114, 0x11C) } : Fibre).replaying == some (0x114, 0x11C) && decide ((0x116 % 4096 + 4096 - 0x114) % 4096 < 2048)) = true := by
  decide +kernel

/-- A fetch that waits, one that finds the core dead, and a step after which no core is to die. -/
theorem witness_Step_waits :
    ((match ({ ctx (fun c => { c with pc := 0x50000 }) with impressions := [(0, { impression .pending with codes := [⟨0x50000, 0x50000, 32, 0, false⟩] })] } : State).fetch with
      | .error (.wait _) => true | _ => false) &&
     (match (strand id fun c => { c with bad := [.dirty 0x10001] }).fetch with | .error (.dead _) => true | _ => false) &&
     (plain.coreList.all fun n => !(plain.core n).doomed && (plain.core n).skip.toList.all fun k => k == 0)) = true := by decide +kernel


/-- A log entry of an ALLREDUCE of one element to 0x20000, with a CRC of x. -/
def logEntry (x : Nat) : List Byte :=
  List.replicate 16 0 ++ ([0, 0, 0x12, 0] ++ leBytes 4 0 ++ leBytes 8 0 ++ leBytes 8 0x20000 ++ leBytes 8 1 ++ leBytes 32 0) ++ leBytes 8 x

theorem memRead_append (m : Memory) (k a b : Nat) : memRead m k (a + b) = memRead m k a ++ memRead m (k + a) b := by
  induction a generalizing k with
  | zero => simp [memRead]
  | succ a ih => rw [Nat.succ_add]; simp [memRead, ih, Nat.add_assoc, Nat.add_comm 1 a]

theorem crc64_lt (bs : List Byte) : ∀ c < 2 ^ 64, crc64 c bs < 2 ^ 64 := by
  induction bs with
  | nil => intro c h; exact h
  | cons b t ih =>
    intro c h
    refine ih _ ?_
    have step : ∀ (l : List Nat) (x : Nat), x < 2 ^ 64 →
        l.foldl (fun c _ => if c / 2 ^ 63 = 1 then (c * 2 % 2 ^ 64) ^^^ 0x42F0E1EBA9EA3693 else c * 2 % 2 ^ 64) x < 2 ^ 64 := by
      intro l
      induction l with
      | nil => intro x hx; exact hx
      | cons _ l ih =>
        intro x hx
        refine ih _ ?_
        dsimp only
        split
        · exact Nat.xor_lt_two_pow (by omega) (by decide)
        · omega
    exact step _ _ (Nat.xor_lt_two_pow h (by have := b.isLt; omega))

/-- A page is found whatever memory holds, where no stream is bound. -/
theorem pageBytes_mem (s : State) (m : Memory) (p : Word) (o : Int) (n : Nat) (h : ∀ (m : Memory) e, ({ s with mem := m } : State).behindStream e = false) :
    pageBytes { s with mem := m } p o n = pageBytes s p o n := by
  have hu : ∀ e, untouched { s with mem := m } e = untouched s e := by
    intro e
    unfold untouched
    rw [h m e, show s.behindStream e = false from h s.mem e]
    rfl
  unfold pageBytes
  simp only [hu]
  unfold pageAt
  rfl

/-- No stream is bound in the states of these witnesses. -/
theorem joined_behind (m : Memory) (e : Extent) : ({ joined [] [(0, loggedGroup [0, 1])] id with mem := m } : State).behindStream e = false := by
  unfold State.behindStream
  rw [Bool.and_eq_false_iff]
  right
  rw [List.any_eq_false]
  intro k hk
  have hk : k < 8 := List.mem_range.mp hk
  have hn : State.streamAt { joined [] [(0, loggedGroup [0, 1])] id with mem := m } 0 0 k = none := by
    show State.streamAt (joined [] [(0, loggedGroup [0, 1])] id) 0 0 k = none
    revert k; decide +kernel
  show ¬ (List.any (State.unwritten _ 0 0 k _) _ = true)
  unfold State.unwritten
  rw [hn]
  simp

theorem logEntry_len (a b : Nat) :
    Coll.dstLen { desc := wordsOf ([0, 0, 0x12, 0] ++ leBytes 4 0 ++ leBytes 8 0 ++ leBytes 8 0x20000 ++ leBytes 8 1 ++ leBytes 32 0) 8, seq := 0, core := a, tenant := b } 2 = 4 := by
  unfold Coll.dstLen Coll.op Coll.bytes Coll.count Coll.ty
  dsimp only
  decide +kernel

/-- CLOGR of a collective whose bytes are those of the log, at a page. -/
theorem witness_CLOGR_page : ∃ (s v : State) (f : Extent) (en : List Byte) (c : Coll), ready (.clogr 1 2 3) s = true ∧ settled s = true ∧
    find s.fabric.groups 0 = some (loggedGroup [0, 1]) ∧ en = memRead s.mem (0x30000 + 128 * (0 % 16)) 128 ∧
    c = { desc := wordsOf ((en.drop 16).take 64) 8, seq := 0, core := s.me.1, tenant := s.my.tenant } ∧ recField en 12 1 < 2 ∧ c.op ≠ 2 ∧ c.op ≠ 4 ∧
    crc64 0 (donorBytes s.tick (c.dstLen 2)) = recField en 80 8 ∧ pageBytes s c.dstVa 0 (c.dstLen 2) = some f ∧
    written (acquired (writtenOver true (taken s [1, 2]) [f] (donorBytes s.tick (c.dstLen 2)))) 3 0 = some v := by
  obtain ⟨x, hx⟩ : ∃ x, crc64 0 (donorBytes 0 4) = x := ⟨_, rfl⟩
  have hl : x < 2 ^ 64 := hx ▸ crc64_lt _ 0 (by decide)
  have this_mem : memRead (logged [0, 1] (logEntry x)).mem 0x30000 88 = memRead (memWrite (joined [] [(0, loggedGroup [0, 1])] id).mem 0x30000 (logEntry x)) 0x30000 88 := rfl
  obtain ⟨R, hR⟩ : ∃ R, memRead (logged [0, 1] (logEntry x)).mem 0x30000 128 = logEntry x ++ R := by
    refine ⟨memRead (logged [0, 1] (logEntry x)).mem (0x30000 + 88) 40, ?_⟩
    rw [show (128 : Nat) = 88 + 40 from rfl, memRead_append]
    have hlen : (logEntry x).length = 88 := by simp [logEntry]
    have := memRead_memWrite (logEntry x) (joined [] [(0, loggedGroup [0, 1])] id).mem 0x30000
    rw [hlen] at this
    rw [this_mem, this]
  have h8 : leNat (leBytes 8 x) = x := by rw [leNat_leBytes]; omega
  have hf : recField (logEntry x ++ R) 80 8 = x := by
    show leNat (((logEntry x ++ R).drop 80).take 8) = x
    rw [show ((logEntry x ++ R).drop 80).take 8 = leBytes 8 x from rfl, h8]
  have hD : ((logEntry x ++ R).drop 16).take 64 = [0, 0, 0x12, 0] ++ leBytes 4 0 ++ leBytes 8 0 ++ leBytes 8 0x20000 ++ leBytes 8 1 ++ leBytes 32 0 := rfl
  refine ⟨logged [0, 1] (logEntry x), _, ⟨0x20000, 0x20000, 4, 0, false⟩, _, _, ?_, ?_, rfl, rfl, rfl, ?_, ?_, ?_, ?_, ?_, rfl⟩
  · rfl
  · rfl
  · show recField (memRead _ 0x30000 128) 12 1 < 2
    rw [hR]; exact (by decide : leNat [0] < 2)
  all_goals
    show _
    simp only [Nat.zero_mod, Nat.mul_zero, Nat.add_zero, hR, hD]
  · show descField (wordsOf _ 8) 0 1 % 16 ≠ 2
    decide
  · show descField (wordsOf _ 8) 0 1 % 16 ≠ 4
    decide
  · rw [hf, logEntry_len]
    exact hx
  · have hv : ∀ a b, Coll.dstVa { desc := wordsOf ([0, 0, 0x12, 0] ++ leBytes 4 0 ++ leBytes 8 0 ++ leBytes 8 0x20000 ++ leBytes 8 1 ++ leBytes 32 0) 8, seq := 0, core := a, tenant := b } = word 0x20000 := by
      intro a b
      unfold Coll.dstVa
      dsimp only
      decide +kernel
    rw [logEntry_len, hv]
    have hc : pageBytes (joined [] [(0, loggedGroup [0, 1])] id) (word 0x20000) 0 4 = some ⟨0x20000, 0x20000, 4, 0, false⟩ := by decide +kernel
    exact (pageBytes_mem (joined [] [(0, loggedGroup [0, 1])] id) _ (word 0x20000) 0 4 joined_behind).trans hc

/-- An L1 entry of another package's memory. -/
def peerLine (st : LineSt) : L1Entry :=
  { key := 2 ^ 52, len := 16, st, psn := false, recs := [], busy := false }

/-- The plain strand with such an entry in its core's L1, and one whose store there has not been performed. -/
def withPeerLine (st : LineSt) : State := strand id fun c => { c with l1 := [peerLine st] }

def posting : State :=
  { plain with fabric := { plain.fabric with packets := [{ id := 0, core := 0, agent := 0, key := 2 ^ 52, va := 0, bytes := [0], len := 1, kind := .store, performed := false }] } }

/-- Releases and acquires where clean bytes of another package are held, where an announced operation or a posted store is not
performed, and where a posted byte was lost; a barrier and an EXIT with clean bytes held. -/
theorem witness_Fences_beyond :
    (let c := withPeerLine .e
     let o := { plain with scOps := [⟨0, 0, 0, 0, 0, 0, true, 0, 0⟩] }
     writesDone c && !settled c && writesDone (c.cleanRemote c.me.1) && ready (.fence 1) c && ready (.fence 2) c && ready (.fence 4) c && ready .barG c &&
     ready .exit c && allDone (c.cleanRemote c.me.1) && !quiet c && !(acquired c == ended c) && !writesDone ((withPeerLine .m).cleanRemote 0) &&
     !writesDone o && !allDone o && !posting.outstanding { posting.who with agent := 1 } && posting.outstanding posting.who && posting.my.lost.isNone &&
     has (ctx fun c => { c with lost := some 8 }).my.lost (fun v => v == 8)) = true := by decide +kernel

/-- AWALK from a mesh pointer with a bit of [50:19] set; PAIR in a light handler and in a trap handler; a port field beyond the allocation
and one below v24. -/
theorem witness_widened_forms :
    (let s := ctx fun c => { c with areg := vset c.areg 0 (2 ^ 62 + 2 ^ 19) }
     ready (.awalk 1 3 16) s && bitsAt (baseOf s 16) 62 2 == 1 && bitsAt (baseOf s 16) 19 32 != 0 &&
     (let l := ctx fun c => { c with lh := true }
      ready (.pair 1 3) l && has (value l 1) (fun x => decide (x.toNat ≤ 3)) && l.my.lh) &&
     (let t := ctx fun c => { c with trap := true }
      ready (.pair 1 3) t && has (value t 1) (fun x => decide (x.toNat ≤ 3)) && !t.my.lh && t.my.trap) &&
     (let v := ctx fun c => { c with va := 8 }
      ready (.sbind 17 31) v && ready (.qbind 1 24) v && ready (.unbind 9) v && decide (v.my.va < 24 + 1)) &&
     ready (.sbind 17 23) plain && ready (.qctl 1 0) plain && ready (.unbind 23) plain && decide (23 + 1 ≤ plain.my.va)) = true := by decide +kernel

/-- A shape record with an uncorrectable error and one without, for an MTILE and for a kick of one. -/
theorem witness_shape_records :
    (let w : Word := word 0x100
     let s := strand (fun c => (c.setG 1 w).setG 2 1) fun c => { c with bad := [.localStore (0x7F000 / 8)] }
     let t := ctx fun c => (c.setG 1 w).setG 2 1
     issueOp (.mtile 0 0) == some (1, 0, 0) && ready (.mtile 0 0) s && !intact s (recordExts s.me.1 1 0) && intact t (recordExts t.me.1 1 0) &&
     ready (.kick 1 2 3) s && has (value s 1) (fun x => x == w) && has (value s 2) (fun x => x == 1) && kickedForm w && !intact s (kickedExts s.me.1 w) &&
     intact t (kickedExts t.me.1 w) && settled t) = true := by decide +kernel

/-- An AMO answered by its home at scope 6. -/
theorem witness_Atomics_answered :
    (let s := ctx fun c => { c with wait := .sc (some 5) }
     ready (.amoAdd 1 6 2 17 3) s && has (value s 2) fun y => has (value s 3) fun c =>
       has (written (acquired (counted (taken (s.updMy fun c => { c with wait := .none }) [2, 3]) (amoNew 0 64 5 y.toNat c.toNat).2)) 3 5)) = true := by decide +kernel

/-- CGJOIN with a roster that names no peer. -/
theorem witness_CGJOIN_roster :
    (let s := joinedOwn (leBytes 8 1 ++ leBytes 2 2 ++ leBytes 2 0 ++ leBytes 4 0 ++ leBytes 8 (2 ^ 62 + 64) ++ leBytes 8 0x20000 ++ leBytes 8 1 ++ leBytes 8 0x22000
       ++ leBytes 16 0 ++ leBytes 4 (2 ^ 18)) [] id
     ready (.cgjoin 16 3) s && runs (fabricDescriptor (baseOf s 16)) s fun bs u => joinOk bs && runs (load (word (recField bs 16 8)) 0 8) u fun rs _ =>
       decide (2 ^ 18 ≤ recField rs 0 4)) = true := by decide +kernel

/-- States in which the end of a step has nothing to do. -/
theorem witness_restful : restful plain ∧ (∀ n ∈ plain.coreList, ((plain.core n).skip.toList.all fun k => k == 0) = true) ∧
    ∀ e ∈ plain.galleys, plain.cycles e.1 = true → e.2.arbIdle = true := by
  unfold restful
  refine ⟨⟨fun n hn => ?_, by decide +kernel⟩, by decide +kernel, by decide +kernel⟩
  have h : plain.coreList.all (fun n => !(plain.core n).doomed && (List.range 8).all fun i => (plain.ctx n i).pair.isNone) = true := by decide +kernel
  have h' := List.all_eq_true.1 h n hn
  simp only [Bool.and_eq_true, Bool.not_eq_true', List.all_eq_true, List.mem_range, Option.isNone_iff_eq_none] at h'
  exact ⟨h'.1, fun i hi p hp => by rw [h'.2 i hi] at hp; cases hp⟩
/-! ### The spec's own examples -/

/-- exec answers a next state of which k holds. -/
def next (i : Instr) (s : State) (k : State → Bool) : Bool := match exec i s with | .next t => k t | _ => false

/-- Words that the spec works out: R111's BMOV, the words of 07's worked example, and the EVK, AWALK and SHL words of their rules. -/
theorem test_spec_words :
    reads 4 0x5010625B (.bmov 4 3 2) ∧ reads 4 0xFFFF4611 (.movi 0x7FFFA 6) ∧ reads 4 0x00ECC60D (.shlImm 0 59 6 6) ∧
    reads 4 0x0100C609 (.orImm 64 6 6) ∧ reads 4 0x00008711 (.movi 4 7) ∧ reads 4 0x04120019 (.awalk 2 4 16) := ⟨rfl, rfl, rfl, rfl, rfl, rfl⟩

/-- 00_scope: core (13, 9) of die 3 is core 1,837, at (45, 25), in galley (3, 4), number 35. -/
theorem test_coordinates : coreAt 45 25 = 1837 ∧ coreX 1837 = 45 ∧ coreY 1837 = 25 ∧ dieOf 1837 = 3 ∧ galleyOf 1837 % 64 = 35 := by decide

/-- R18: SAR of the 8-bit value 0x90 by 4 and by 200. -/
theorem test_shift_amounts : shiftSigned 8 0x90 (amount 4) = 0xF9 ∧ shiftSigned 8 0x90 (amount 200) = 0xFF ∧ amount 0x104 = 4 := by decide

/-- R89: ADD.L8 of 0x7F80_FF01 and 0x0180_0101. -/
theorem test_add_lanes : next (.addR 3 4 3 2) (ctx fun c => (c.setG 3 0x7F80FF01).setG 4 0x01800101) (fun t => t.my.reg 2 == 0x80000002 && t.my.pc == 0x10004) = true := by
  decide +kernel

/-- R91: the mesh pointer 0x4410_0000_0000_0100, by the last MOVH of the four, and by AMESH of column 4, row 2. -/
theorem test_mesh_pointer : (next (.movh 0x100 2) (ctx fun c => c.setG 2 (0x22 * 2 ^ 38 + 0x4000 * 2 ^ 19)) (fun t => t.my.reg 2 == 0x4410000000000100) &&
    next (.amesh 4 3 2) (ctx fun c => (c.setG 3 (4 + 2 * 64)).setG 4 0x100) fun t => t.my.reg 2 == 0x4410000000000100) = true := by decide +kernel

/-- R92: division by 0, and of −2^63 by −1, go on. -/
theorem test_divide : (next (.div 0 4 3 2) (ctx fun c => (c.setG 3 (2 ^ 63)).setG 4 (-1)) (fun t => t.my.reg 2 == 2 ^ 63) &&
    next (.rem 0 4 3 2) (ctx fun c => c.setG 3 7) fun t => t.my.reg 2 == 7) = true := by decide +kernel

/-- R29: the block 3.0, −10.5, 0.4, 2.25 and zeros, quantised to P4: scale 0x7C, codes 2, −7, 0, 2, AMAX 10.5. -/
theorem test_quantise_block :
    (let q := qntBlock (([0x40400000, 0xC1280000, 0x3ECCCCCD, 0x40100000] ++ List.replicate 28 0).map fun x => decodeF .f32 x) (.planes 4) .rne
     q.scale == 0x7C && q.codes.take 5 == [0x02, 0xF9, 0x00, 0x02, 0] && q.mag == 0x41280000) = true := by decide +kernel

/-- R38: 2^24, 1, 1 and −2^24 summed in the tree give 1. -/
theorem test_tree_sum : (tree (addElem .rne (.flt .f32)) 2 [0x4B800000, 0x3F800000, 0x3F800000, 0xCB800000]).1 = 0x3F800000 := by decide +kernel

/-- R166: 384 shifted by 3 is 48; −259 shifted by 1 rounds to −130 and saturates, once counted. -/
theorem test_narrowing_shift : toIntTy (.int 8) (roundToInt .rne false 384 (-3)) = (48, .zero) ∧ (toIntTy (.int 8) (roundToInt .rne true 259 (-1))).1 = 0x80 ∧
    (toIntTy (.int 8) (roundToInt .rne true 259 (-1))).2 ≠ .zero := by decide +kernel

/-- R101, R73: TRAP goes to TBASE + 64 × 0x15 and saves the address after it; ERET comes back to it. -/
theorem test_trap_and_return : (next (.trap 9) (ctx fun c => { c with tbase := 0x8000 }) (fun t => t.my.pc == 0x8540 && t.my.epc == 0x10004 && t.my.eval == 9 && t.my.trap &&
    next .eret t fun u => u.my.pc == 0x10004 && !u.my.trap)) = true := by decide +kernel


/-- SM3 of the three bytes of "abc", as GB/T 32905 gives it. -/
theorem test_sm3_abc : leNat (sm3 [0x61, 0x62, 0x63]).reverse =
    0x66C7F0F462EEEDD9D1F2D46BDC10E4E24167C4875CF2F7A2297DA02B8F4BA8E0 := by decide +kernel
end Sys2Proof.Tests
end

section
/-! The machine right after reset, read through the accessors of its tables: memory, cores and contexts. -/

namespace Sys2Proof.Machine

/-- A vector that holds only the default reads as the default, at places inside and outside it. -/
@[simp] theorem vget_replicate {α : Type} (d : α) (n i : Nat) : vget d (Vector.replicate n d) i = d := by
  by_cases h : i < n <;> simp [vget, h]

/-- An unlisted byte reads 0 (log entry 1). -/
@[simp] theorem memByte_nil (k : Nat) : memByte [] k = 0 := rfl

/-- A core that is not listed is a core at reset. -/
@[simp] theorem core_reset (n : Nat) : State.reset.core n = .reset := rfl

/-- The eight strand contexts of a core at reset are free; context 8 is the hart, which has a depth cap of its own. -/
theorem Core.ctx_reset {k : Nat} (h : k < 8) : Core.reset.ctx k = .reset := by
  have notHart : k ≠ 8 := by omega
  rw [Core.ctx, if_neg notHart]
  exact vget_replicate Ctx.reset 8 k

theorem ctx_reset (n : Nat) {k : Nat} (h : k < 8) : State.reset.ctx n k = .reset := by
  rw [State.ctx, core_reset, Core.ctx_reset h]

end Sys2Proof.Machine
end

section
open Sys2Proof.Machine

/-- Settles O60: the tables of the reset state are empty, so memory reads as 0 and every core is a core at reset, whose
strand contexts are free. -/
theorem Sys2Proof.Proofs.resetState : Obligations.ResetState := by
  have contextsFree : ∀ n k, k < 8 → (State.reset.ctx n k).st = .free := by
    intro n k h
    rw [ctx_reset n h]
    rfl
  exact ⟨wf_nil, memByte_nil, rfl, rfl, contextsFree, rfl, rfl, rfl⟩
end

section
/-! Operations by lanes: a word made of its lanes, a vector register made of its elements. -/

namespace Sys2Proof.Machine

/-- Lane k of a word made of its lanes. -/
theorem bitsAt_word_packed {w : Nat} {es : List Nat} {k : Nat} (hl : w * es.length ≤ 64) (hk : k < es.length) :
    bitsAt (word (packed w es)) (w * k) w = es.getD k 0 % 2 ^ w := by
  have fits : packed w es < 2 ^ 64 := Nat.lt_of_lt_of_le (packed_lt w es) (Nat.pow_le_pow_right (by omega) hl)
  rw [bitsAt, word, BitVec.toNat_ofNat, Nat.mod_eq_of_lt fits, packed_get w es k hk]

theorem byLanes_eq_packed (w : Nat) (f : Nat → Nat → Nat) (x y : Word) :
    byLanes w f x y = word (packed w ((List.range (64 / w)).map fun i => f (bitsAt x (w * i) w) (bitsAt y (w * i) w))) := by
  rw [byLanes, packed, List.foldr_map]

theorem getD_map_range {n k : Nat} (f : Nat → Nat) (hk : k < n) : ((List.range n).map f).getD k 0 = f k := by
  simp [hk]

/-- Each lane of the result is f of the two lanes in its place (R88, R89). -/
theorem bitsAt_byLanes {w : Nat} (f : Nat → Nat → Nat) (x y : Word) {k : Nat} (hk : k < 64 / w) :
    bitsAt (byLanes w f x y) (w * k) w = f (bitsAt x (w * k) w) (bitsAt y (w * k) w) % 2 ^ w := by
  rw [byLanes_eq_packed, bitsAt_word_packed (by simpa using Nat.mul_div_le 64 w) (by simpa using hk), getD_map_range _ hk]

theorem elemOf_mod (v : Vec) (w k : Nat) : elemOf v w k % 2 ^ w = elemOf v w k := Nat.mod_mod _ _

/-- Each active element is its own new value, each inactive one what it was (R34, R155). -/
theorem elemOf_lanes (c : Ctx) (m : BitVec 1) {w : Nat} (old : Vec) (f : Nat → Nat × Counts) {k : Nat} (hk : k < 4096 / w) :
    elemOf (lanes c m w old f).1 w k = if c.active m k then (f k).1 % 2 ^ w else elemOf old w k := by
  rw [lanes, List.map_map, elemOf_vecOf (by simpa using Nat.mul_div_le 4096 w) (by simpa using hk), getD_map_range _ hk]
  by_cases h : c.active m k = true
  · simp [h]
  · simp [h, elemOf_mod]

theorem sumCounts_zero {ks : List Counts} (h : ∀ k ∈ ks, k = .zero) : sumCounts ks = .zero := by
  induction ks with
  | nil => rfl
  | cons k ks ih =>
    obtain ⟨rfl, hks⟩ := List.forall_mem_cons.1 h
    exact ih hks

/-- Inactive elements count no event (R33, R155). -/
theorem lanes_counts_inactive {c : Ctx} {m : BitVec 1} (w : Nat) (old : Vec) (f : Nat → Nat × Counts)
    (h : ∀ i, c.active m i = false) : (lanes c m w old f).2 = .zero :=
  sumCounts_zero (by simp [h])

end Sys2Proof.Machine
end

section
open Sys2Proof.Machine

/-- Settles O3: a word and a vector register are both numbers packed side by side, of which each place reads back as the
number that was put there. -/
theorem Sys2Proof.Proofs.lanes : Obligations.Lanes :=
  ⟨fun _ f x y _ hk => bitsAt_byLanes f x y hk,
    fun c m w old f _ _ hk => ⟨elemOf_lanes c m old f hk, lanes_counts_inactive w old f⟩⟩
end

section
/-! Rules shared by the vector instructions: from an instruction's meaning to its statement, its checks of groups, types and
masks, and groups of fields that are registers. -/

namespace Sys2Proof.Machine

open Sys2Proof.Safety

/-! ### From a meaning to a statement -/

section
variable {i : Instr} {s u : State} {m : M Next} (hr : ready i s = true) (he : exec i s = runInstr i m s)
include hr he

theorem goes_of_meaning {n : Next} (hm : m s = .ok (n, u)) : Goes i s u n := he.trans (runInstr_ok hr hm)

theorem illegal_of_meaning {detail : Nat} (hm : m s = .error (.trap { code := cIllegal, detail } [])) : Illegal i s detail :=
  he.trans (runInstr_illegal hr hm)

/-- A field beyond the allocation reports the instruction's word (R60, R125). -/
theorem illegalReg_of_meaning (hm : m s = .error (.trap { code := cIllegalReg } [])) :
    Traps i s { code := 0x02, val := wordOfInstr i } := by
  have notSoft : cIllegalReg ≠ 0x15 := by decide
  rw [Traps, he, runInstr_stop hr hm, State.afterStop_trap i (steady_hart (ready_steady hr)) notSoft, if_pos (Or.inr rfl)]
  rfl

end

/-! ### Checks -/

theorem grouped_ok {f : BitVec 5} {n : Nat} (h : f.toNat % n = 0) (s : State) : grouped f n s = .ok ((), s) :=
  require_apply (by simpa using h) _ _ _ _ s

theorem grouped_misaligned {f : BitVec 5} {n : Nat} (h : f.toNat % n ≠ 0) (s : State) :
    grouped f n s = .error (.trap { code := cIllegal, detail := 0x21 } []) :=
  require_false (by simpa using h) _ _ _ _ s

theorem noPorts_ok {s : State} {f : BitVec 5} {n : Nat} (h : unbound s.my f n = true) : noPorts f n s = .ok ((), s) :=
  require_apply h _ _ _ _ s

theorem allocatedMask_ok {s : State} (h : s.my.va ≠ 0) : allocatedMask s = .ok ((), s) :=
  require_apply (by simpa using h) _ _ _ _ s

theorem allocatedMask_none {s : State} (h : s.my.va = 0) : allocatedMask s = .error (.trap { code := cIllegalReg } []) :=
  require_false (by simpa using h) _ _ _ _ s

theorem oldVec_ok (d : BitVec 5) (s : State) : oldVec d s = .ok (before s.my d, s) := rfl

/-- The state with mask register d written. -/
def putMask (d : BitVec 5) (v : Mask) (s : State) : State := s.updMy fun c => { c with masks := vset c.masks d.toNat v }

theorem mdst_ok {s : State} (h : steady s = true) (d : BitVec 5) (v : Mask) :
    mdst d v s = .ok ((), putMask d v s) := by
  have unpaired : (putMask d v s).my.pair = none := by
    rw [putMask, State.my_updMy _ (steady_le h)]
    exact steady_pair h
  exact congrArg (fun u => Except.ok ((), u)) (State.foldPair_none unpaired _)

/-- The end of an instruction that counts events: its destination is written, then its events are counted (R33). -/
theorem write_tally {write : M Unit} {s v : State} (h : Does write s () v) (k : Counts) :
    Does (do write; tally k; pure .seq) s Next.seq (counted v k) :=
  (M.bind_of h).trans (M.bind_of (tally_ok v k))

/-! ### Fields that are registers -/

theorem registers_unbound {c : Ctx} {fs : List (BitVec 5 × Nat)} (h : registers c fs = true) {f : BitVec 5} {n : Nat} (hf : (f, n) ∈ fs) :
    unbound c f n = true := by
  rw [registers, Bool.and_eq_true, List.all_eq_true] at h
  exact h.2 _ hf

theorem registers_plain {c : Ctx} {fs : List (BitVec 5 × Nat)} (h : registers c fs = true) {f : BitVec 5} (hf : (f, 1) ∈ fs) :
    c.port f.toNat = .plain :=
  registers_port h hf Nat.one_pos

theorem before_plain {s : State} {d : BitVec 5} (h : s.my.port d.toNat = .plain) : before s.my d = held s d := if_pos h

/-- A group that starts at a multiple of its size ends within the 32 registers, where its size divides 32 (R153). -/
theorem group_fits {d : BitVec 5} {n : Nat} (hn : n ∣ 32) (hd : d.toNat % n = 0) : d.toNat + n ≤ 32 := by
  obtain ⟨q, hq⟩ := hn
  obtain ⟨p, hp⟩ := Nat.dvd_of_mod_eq_zero hd
  have hlt : n * p < n * q := hp ▸ hq ▸ d.isLt
  have hle : n * (p + 1) ≤ n * q := Nat.mul_le_mul_left n (Nat.lt_of_mul_lt_mul_left hlt)
  rw [hp, hq, ← Nat.mul_succ]
  exact hle

/-- A whole group of registers written at its place. -/
theorem vdstGroup_registers {s : State} {la : BitVec 4} {d : BitVec 5} {n : Nat} {vs : List Vec} (hk : s.me.2 ≤ 8) (hr : s.my.pair = none)
    (hn : n ∣ 32) (hd : d.toNat % n = 0) (hl : vs.length = n) (hu : unbound s.my d n = true) :
    Does (vdstGroup la d 0 vs) s () (putGroup la d vs s) := by
  subst hl
  exact putGroup_ok hk hr (group_fits hn hd) hu

@[simp] theorem spread_length (c : Ctx) (m : BitVec 1) (d : BitVec 5) (ratio w : Nat) (f : Nat → Nat × Counts) :
    (spread c m d ratio w f).1.length = ratio := by
  simp [spread]

end Sys2Proof.Machine
end

section
/-! Widening and narrowing (R164 to R166). -/

namespace Sys2Proof.Machine

open Sys2Proof.Safety

/-! ### Widening -/

/-- The meaning that the model gives a widening operation. -/
def wideMeaning (op : WideOp) : M Next := widen op.wide op.ratio op.mask op.b op.a op.d op.f

/-- The group that a widening operation writes, and its events; c holds the accumulators. -/
def widened (op : WideOp) (c : Ctx) (t w : ETy) (x y : Vec) : List Vec × Counts :=
  spread c op.mask op.d op.ratio w.width fun k =>
    op.f t w (elemOf x t.width k) (elemOf y t.width k) (elemOf (vget 0 c.vregs (op.d.toNat + k % op.ratio)) w.width (k / op.ratio))

/-- A widening operation runs `widen`, and writes a pair or a quad. -/
theorem wideOp_spec {i : Instr} {op : WideOp} (h : wideOp i = some op) :
    (∀ s, exec i s = runInstr i (wideMeaning op) s) ∧ (op.ratio = 2 ∨ op.ratio = 4) := by
  unfold wideOp at h
  split at h
  case h_5 m r b a d =>
    split at h
    · rename_i hr
      cases h
      subst hr
      exact ⟨fun _ => rfl, .inr rfl⟩
    · cases h
  case h_6 => cases h
  all_goals
    cases h
    exact ⟨fun _ => rfl, .inl rfl⟩

theorem wideOp_exec {i : Instr} {op : WideOp} (h : wideOp i = some op) (s : State) : exec i s = runInstr i (wideMeaning op) s :=
  (wideOp_spec h).1 s

theorem wideOp_ratio_dvd {i : Instr} {op : WideOp} (h : wideOp i = some op) : op.ratio ∣ 32 := by
  rcases (wideOp_spec h).2 with hr | hr <;> rw [hr] <;> decide

section
variable {i : Instr} {op : WideOp} {s : State} {t w : ETy} (hi : wideOp i = some op) (hr : ready i s = true)
  (ht : laneTypeOf (fun t => (op.wide t).isSome) s.my = some t)
include hi hr ht

theorem widening_misaligned (hd : op.d.toNat % op.ratio ≠ 0) : Illegal i s 0x21 := by
  refine illegal_of_meaning hr (wideOp_exec hi s) ?_
  unfold wideMeaning widen
  rw [M.bind_of (laneType_ok ht)]
  exact M.bind_error (grouped_misaligned hd s)

variable (hw : op.wide t = some w) (hd : op.d.toNat % op.ratio = 0)
include hw hd

theorem widening_goes {u v : State} {x y : Vec} (hl : allocatedTo s.my [(op.a, 1), (op.b, 1), (op.d, op.ratio)] = true)
    (hu : usable s.my [op.a, op.b] [] = true) (hn : unbound s.my op.d op.ratio = true) (hx : Does (vsrc2 op.a op.b) s (x, y) u)
    (hv : Does (vdstGroup 0 op.d 0 (widened op u.my t w x y).1) u () v) : Goes i s (counted v (widened op u.my t w x y).2) .seq := by
  refine goes_of_meaning hr (wideOp_exec hi s) ?_
  unfold wideMeaning widen
  rw [M.bind_of (laneType_ok ht), M.bind_of (grouped_ok hd s), M.bind_of (allocated_ok hl), M.bind_of (portUse_ok hu),
    M.bind_of (noPorts_ok hn), M.bind_of hx]
  dsimp only
  rw [M.get_bind, hw]
  exact write_tally hv _

/-- Where the fields are registers, the sources read and the group is written outright. -/
theorem widening_goes_registers (h : registers s.my [(op.a, 1), (op.b, 1), (op.d, op.ratio)] = true) :
    let r := widened op s.my t w (held s op.a) (held s op.b)
    Goes i s (counted (putGroup 0 op.d r.1 s) r.2) .seq := by
  have hs := ready_steady hr
  have ha := registers_plain h (f := op.a) (by simp)
  have hb := registers_plain h (f := op.b) (by simp)
  have hn := registers_unbound h (f := op.d) (n := op.ratio) (by simp)
  exact widening_goes hi hr ht hw hd (registers_cons h) (usable_plain (by simpa using ⟨ha, hb⟩) (by simp)) hn (vsrc2_plain ha hb)
    (vdstGroup_registers (steady_le hs) (steady_pair hs) (wideOp_ratio_dvd hi) hd (spread_length ..) hn)

end

/-- VQMAC has no rounding (R165). -/
theorem vqmac_rounding_illegal {m : BitVec 1} {r : BitVec 2} {b a d : BitVec 5} {s : State} (hr : ready (.vqmac m r b a d) s = true)
    (h : r ≠ 0#2) : Illegal (.vqmac m r b a d) s 0x20 :=
  illegal_of_meaning hr (exec_vqmac m r b a d s) (M.bind_error (require_false (by simpa using h) _ _ _ _ s))

/-! ### Narrowing -/

/-- What VNSHR writes, and its events: the pair at a narrowed from w to t by the counts y; old is what the destination held (R166). -/
def narrowed (c : Ctx) (m : BitVec 1) (r : BitVec 2) (a : BitVec 5) (t w : ETy) (y old : Vec) : Vec × Counts :=
  lanes c m t.width old fun k =>
    let e := w.value (elemOf (vget 0 c.vregs (a.toNat + k % 2)) w.width (k / 2))
    toIntTy t (roundToInt (rmOf r) (decide (e < 0)) e.natAbs (-((elemOf y t.width k % 256 : Nat) : Int)))

section
variable {m : BitVec 1} {r : BitVec 2} {b a d : BitVec 5} {s : State} {t w : ETy} (hr : ready (.vnshr m r b a d) s = true)
  (ht : laneTypeOf (fun t => !t.isFloat && decide (t.width ≤ 32)) s.my = some t) (hw : wideOf t = some w) (ha : a.toNat % 2 = 0)
include hr ht hw ha

theorem vnshr_goes {u v : State} {y : Vec} (hl : allocatedTo s.my [(a, 2), (b, 1), (d, 1)] = true) (hu : usable s.my [b] [d] = true)
    (hn : unbound s.my a 2 = true) (hy : Does (vsrc b) s y u)
    (hv : Does (vdst d (narrowed u.my m r a t w y (before u.my d)).1) u () v) :
    Goes (.vnshr m r b a d) s (counted v (narrowed u.my m r a t w y (before u.my d)).2) .seq := by
  refine goes_of_meaning hr (exec_vnshr m r b a d s) ?_
  rw [M.bind_of (laneType_ok ht), M.bind_of (grouped_ok ha s), M.bind_of (allocated_ok hl), M.bind_of (portUse_ok hu),
    M.bind_of (noPorts_ok hn), M.bind_of hy, M.bind_of (oldVec_ok d u), M.get_bind, hw]
  exact write_tally hv _

theorem vnshr_goes_registers (h : registers s.my [(a, 2), (b, 1), (d, 1)] = true) :
    let q := narrowed s.my m r a t w (held s b) (held s d)
    Goes (.vnshr m r b a d) s (counted (putVec 0 d q.1 s) q.2) .seq := by
  have hs := ready_steady hr
  have hb := registers_plain h (f := b) (by simp)
  have hd := registers_plain h (f := d) (by simp)
  have hn := registers_unbound h (f := a) (n := 2) (by simp)
  rw [← before_plain hd]
  exact vnshr_goes hr ht hw ha (registers_cons h) (usable_plain (by simpa using hb) (by simpa using hd)) hn (vsrc_plain hb)
    (vdst_plain (steady_le hs) (steady_pair hs) hd)

end

end Sys2Proof.Machine
end

section
open Sys2Proof.Machine

/-- Settles O40: the clauses of registers are those of any fields, whose sources read and whose destination is written at once. -/
theorem Sys2Proof.Proofs.widening : Obligations.Widening := by
  refine ⟨?_, ?_, ?_, ?_, ?_⟩
  · exact fun i op s t w hi hr ht hw hd => widening_goes_registers hi hr ht hw hd
  · exact fun m r b a d s t w hr ht hw ha => vnshr_goes_registers hr ht hw ha
  · exact fun i op s u v t w x y hi hr ht hw => ⟨widening_misaligned hi hr ht, fun hd => widening_goes hi hr ht hw hd⟩
  · exact fun m r b a d s hr h => vqmac_rounding_illegal hr h
  · exact fun m r b a d s u v t w y hr ht hw ha => vnshr_goes hr ht hw ha
end

section
/-! Conversions (R171, R172), QNT and DQNT (R173 to R176). -/

namespace Sys2Proof.Machine

open Sys2Proof.Safety

/-! ### Statistics (R31, R172) -/

theorem statistics_none {x : BitVec 1} (hx : x ≠ 1#1) (s : State) (ess : List (List FVal)) : statistics s x ess = s := if_neg hx

/-- AMAX merged with the values of one source register. -/
def amaxMerged (s : State) (es : List FVal) : State :=
  s.updMy fun c => { c with amax := amaxMerge c.amax (upF32 (largestMag es)) (es.any FVal.isNan) }

theorem statistics_cons (s : State) (es : List FVal) (ess : List (List FVal)) :
    statistics s 1#1 (es :: ess) = statistics (amaxMerged s es) 1#1 ess := rfl

/-- Statistics change AMAX alone. -/
theorem statistics_frame {s : State} (hk : s.me.2 ≤ 8) (x : BitVec 1) (ess : List (List FVal)) :
    (statistics s x ess).me = s.me ∧ ∃ n, (statistics s x ess).my = { s.my with amax := n } := by
  by_cases hx : x = 1#1
  · subst hx
    induction ess generalizing s with
    | nil => exact ⟨rfl, s.my.amax, rfl⟩
    | cons es ess ih =>
      obtain ⟨hme, n, hmy⟩ := ih (s := amaxMerged s es) hk
      rw [statistics_cons]
      exact ⟨hme, n, by rw [hmy, amaxMerged, State.my_updMy _ hk]⟩
  · rw [statistics_none hx]
    exact ⟨rfl, s.my.amax, rfl⟩

theorem amaxOver_ok (t : ETy) (xs : List Nat) (s : State) : amaxOver t xs s = .ok ((), statistics s 1#1 [xs.map (exactOf t)]) := rfl

theorem amaxAll_ok (t : ETy) (xss : List (List Nat)) (s : State) :
    amaxAll t xss s = .ok ((), statistics s 1#1 (xss.map (List.map (exactOf t)))) := by
  induction xss generalizing s with
  | nil => rfl
  | cons xs xss ih => exact (M.bind_of (amaxOver_ok t xs s)).trans (ih _)

/-- The end of a conversion: statistics where x asks for them, then the destination, then the events. -/
theorem statistics_write_tally {gather write : M Unit} {s v : State} {x : BitVec 1} {ess : List (List FVal)} (k : Counts)
    (hg : gather s = .ok ((), statistics s 1#1 ess)) (hw : Does write (statistics s x ess) () v) :
    Does (if x = 1#1 then (do gather; write; tally k; pure .seq) else do write; tally k; pure .seq) s Next.seq (counted v k) := by
  split
  · rename_i hx
    subst hx
    exact (M.bind_of hg).trans (write_tally hw k)
  · rename_i hx
    rw [statistics_none hx] at hw
    exact write_tally hw k

section
variable {s : State} (hs : steady s = true) (x : BitVec 1) (ess : List (List FVal))
include hs

theorem vdst_statistics {d : BitVec 5} (hd : s.my.port d.toNat = .plain) (v : Vec) :
    Does (vdst d v) (statistics s x ess) () (putVec 0 d v (statistics s x ess)) := by
  obtain ⟨hme, n, hmy⟩ := statistics_frame (steady_le hs) x ess
  refine vdst_plain (hme ▸ steady_le hs) ?_ ?_ <;> rw [hmy]
  · exact steady_pair hs
  · exact hd

theorem vdstGroup_statistics {d : BitVec 5} {n : Nat} {vs : List Vec} (hn : n ∣ 32) (hd : d.toNat % n = 0) (hl : vs.length = n)
    (hu : unbound s.my d n = true) : Does (vdstGroup 0 d 0 vs) (statistics s x ess) () (putGroup 0 d vs (statistics s x ess)) := by
  obtain ⟨hme, n, hmy⟩ := statistics_frame (steady_le hs) x ess
  refine vdstGroup_registers (hme ▸ steady_le hs) ?_ hn hd hl ?_ <;> rw [hmy]
  · exact steady_pair hs
  · exact hu

end

/-! ### The types of a conversion -/

theorem eTyOf_width_pos {n : Nat} {t : ETy} (h : eTyOf n = some t) : 0 < t.width := by
  unfold eTyOf at h
  split at h <;> cases h <;> decide

theorem codeType_ok {f : BitVec 5} {t : ETy} (h : eTyOf f.toNat = some t) (s : State) : codeType f s = .ok (t, s) := by
  rw [codeType, h]
  rfl

/-- The ratio of a widening or narrowing conversion is that of the widths, and is admitted where it is 2 or 4. -/
theorem ratio_of_widths {k wide narrow : Nat} (hn : 0 < narrow) (h : wide = k * narrow) : wide / narrow = k := by
  rw [h, Nat.mul_div_cancel _ hn]

theorem ratio_ok {k wide narrow : Nat} (hk : k = 2 ∨ k = 4) (h : wide = k * narrow) :
    ((k == 2 || k == 4) && wide == k * narrow) = true := by
  simp [hk, h]

theorem ratio_dvd {k : Nat} (hk : k = 2 ∨ k = 4) : k ∣ 32 := by
  rcases hk with rfl | rfl <;> decide

/-! ### VCVT, VCVTW and VCVTN -/

/-- The values of the elements of a source register that are active; element j is element idx j of the instruction (R172). -/
def activeValues (c : Ctx) (m : BitVec 1) (t : ETy) (idx : Nat → Nat) (v : Vec) : List FVal :=
  ((List.range (4096 / t.width)).filter fun j => c.active m (idx j)).map fun j => exactOf t (elemOf v t.width j)

/-- The values of the active elements of each register of the group of k at a. -/
def groupValues (c : Ctx) (m : BitVec 1) (a : BitVec 5) (k : Nat) (t : ETy) : List (List FVal) :=
  (List.range k).map fun g => activeValues c m t (fun j => k * j + g) (vget 0 c.vregs (a.toNat + g))

theorem amaxOver_active (c : Ctx) (m : BitVec 1) (t : ETy) (v : Vec) (s : State) :
    amaxOver t (((List.range (4096 / t.width)).filter fun j => c.active m j).map fun j => elemOf v t.width j) s
      = .ok ((), statistics s 1#1 [activeValues c m t id v]) := by
  rw [amaxOver_ok, List.map_map]
  rfl

theorem amaxAll_group (c : Ctx) (m : BitVec 1) (a : BitVec 5) (k : Nat) (t : ETy) (s : State) :
    amaxAll t ((List.range k).map fun g =>
        ((List.range (4096 / t.width)).filter fun j => c.active m (k * j + g)).map fun j => elemOf (c.vgroup a g) t.width j) s
      = .ok ((), statistics s 1#1 (groupValues c m a k t)) := by
  rw [amaxAll_ok, List.map_map]
  simp only [Function.comp_def, List.map_map]
  rfl

section
variable {m x : BitVec 1} {r : BitVec 2} {tc a d : BitVec 5} {s : State} {t w : ETy}

/-- What VCVT writes, and its events: e converted from t to w; old is what the destination held. -/
def converted (c : Ctx) (m : BitVec 1) (r : BitVec 2) (t w : ETy) (e old : Vec) : Vec × Counts :=
  lanes c m w.width old fun k => convertElem (rmOf r) t w (elemOf e t.width k)

section
variable (hr : ready (.vcvt m x r tc a d) s = true) (ht : laneTypeOf anyType s.my = some t) (hw : eTyOf tc.toNat = some w)
  (hwt : w.width = t.width)
include hr ht hw hwt

theorem vcvt_goes {u v : State} {e : Vec} (hl : allocatedTo s.my [(a, 1), (d, 1)] = true) (hu : usable s.my [a] [d] = true)
    (he : Does (vsrc a) s e u)
    (hv : Does (vdst d (converted u.my m r t w e (before u.my d)).1) (statistics u x [activeValues u.my m t id e]) () v) :
    Goes (.vcvt m x r tc a d) s (counted v (converted u.my m r t w e (before u.my d)).2) .seq := by
  refine goes_of_meaning hr (exec_vcvt m x r tc a d s) ?_
  rw [M.bind_of (laneType_ok ht), M.bind_of (codeType_ok hw s), M.bind_of (require_apply (by simpa using hwt) _ _ _ _ s),
    M.bind_of (allocated_ok hl), M.bind_of (portUse_ok hu), M.bind_of he, M.bind_of (oldVec_ok d u), M.get_bind]
  exact statistics_write_tally _ (amaxOver_active u.my m t e u) hv

theorem vcvt_goes_registers (h : registers s.my [(a, 1), (d, 1)] = true) :
    let q := converted s.my m r t w (held s a) (held s d)
    Goes (.vcvt m x r tc a d) s (counted (putVec 0 d q.1 (statistics s x [activeValues s.my m t id (held s a)])) q.2) .seq := by
  have ha := registers_plain h (f := a) (by simp)
  have hd := registers_plain h (f := d) (by simp)
  rw [← before_plain hd]
  exact vcvt_goes hr ht hw hwt (registers_cons h) (usable_plain (by simpa using ha) (by simpa using hd)) (vsrc_plain ha)
    (vdst_statistics (ready_steady hr) x _ hd _)

end

/-- The group that VCVTW writes, and its events: e converted from t to w, which is k times as wide. -/
def convertedWide (c : Ctx) (m : BitVec 1) (r : BitVec 2) (d : BitVec 5) (k : Nat) (t w : ETy) (e : Vec) : List Vec × Counts :=
  spread c m d k w.width fun j => convertElem (rmOf r) t w (elemOf e t.width j)

section
variable {k : Nat} (hr : ready (.vcvtw m x r tc a d) s = true) (hw : laneTypeOf anyType s.my = some w) (ht : eTyOf tc.toNat = some t)
  (hk : k = 2 ∨ k = 4) (hwt : w.width = k * t.width)
include hr hw ht hk hwt

theorem vcvtw_misaligned (hd : d.toNat % k ≠ 0) : Illegal (.vcvtw m x r tc a d) s 0x21 := by
  refine illegal_of_meaning hr (exec_vcvtw m x r tc a d s) ?_
  rw [M.bind_of (laneType_ok hw), M.bind_of (codeType_ok ht s)]
  dsimp only
  rw [ratio_of_widths (eTyOf_width_pos ht) hwt, M.bind_of (require_apply (ratio_ok hk hwt) _ _ _ _ s)]
  exact M.bind_error (grouped_misaligned hd s)

theorem vcvtw_goes {u v : State} {e : Vec} (hd : d.toNat % k = 0) (hl : allocatedTo s.my [(a, 1), (d, k)] = true)
    (hu : usable s.my [a] [] = true) (hn : unbound s.my d k = true) (he : Does (vsrc a) s e u)
    (hv : Does (vdstGroup 0 d 0 (convertedWide u.my m r d k t w e).1) (statistics u x [activeValues u.my m t id e]) () v) :
    Goes (.vcvtw m x r tc a d) s (counted v (convertedWide u.my m r d k t w e).2) .seq := by
  refine goes_of_meaning hr (exec_vcvtw m x r tc a d s) ?_
  rw [M.bind_of (laneType_ok hw), M.bind_of (codeType_ok ht s)]
  dsimp only
  rw [ratio_of_widths (eTyOf_width_pos ht) hwt, M.bind_of (require_apply (ratio_ok hk hwt) _ _ _ _ s), M.bind_of (grouped_ok hd s),
    M.bind_of (allocated_ok hl), M.bind_of (portUse_ok hu), M.bind_of (noPorts_ok hn), M.bind_of he, M.get_bind]
  exact statistics_write_tally _ (amaxOver_active u.my m t e u) hv

theorem vcvtw_goes_registers (hd : d.toNat % k = 0) (h : registers s.my [(a, 1), (d, k)] = true) :
    let q := convertedWide s.my m r d k t w (held s a)
    Goes (.vcvtw m x r tc a d) s (counted (putGroup 0 d q.1 (statistics s x [activeValues s.my m t id (held s a)])) q.2) .seq := by
  have ha := registers_plain h (f := a) (by simp)
  have hn := registers_unbound h (f := d) (n := k) (by simp)
  exact vcvtw_goes hr hw ht hk hwt hd (registers_cons h) (usable_plain (by simpa using ha) (by simp)) hn (vsrc_plain ha)
    (vdstGroup_statistics (ready_steady hr) x _ (ratio_dvd hk) hd (spread_length ..) hn)

end

/-- What VCVTN writes, and its events: the group of k registers at a converted from t to w; old is what the destination held. -/
def convertedNarrow (c : Ctx) (m : BitVec 1) (r : BitVec 2) (a : BitVec 5) (k : Nat) (t w : ETy) (old : Vec) : Vec × Counts :=
  lanes c m w.width old fun j => convertElem (rmOf r) t w (elemOf (vget 0 c.vregs (a.toNat + j % k)) t.width (j / k))

section
variable {k : Nat} (hr : ready (.vcvtn m x r tc a d) s = true) (ht : laneTypeOf anyType s.my = some t) (hw : eTyOf tc.toNat = some w)
  (hk : k = 2 ∨ k = 4) (htw : t.width = k * w.width)
include hr ht hw hk htw

theorem vcvtn_misaligned (ha : a.toNat % k ≠ 0) : Illegal (.vcvtn m x r tc a d) s 0x21 := by
  refine illegal_of_meaning hr (exec_vcvtn m x r tc a d s) ?_
  rw [M.bind_of (laneType_ok ht), M.bind_of (codeType_ok hw s)]
  dsimp only
  rw [ratio_of_widths (eTyOf_width_pos hw) htw, M.bind_of (require_apply (ratio_ok hk htw) _ _ _ _ s)]
  exact M.bind_error (grouped_misaligned ha s)

variable (ha : a.toNat % k = 0) (hl : allocatedTo s.my [(a, k), (d, 1)] = true) (hu : usable s.my [] [d] = true)
  (hn : unbound s.my a k = true)
include ha hl hu hn

theorem vcvtn_goes {v : State}
    (hv : Does (vdst d (convertedNarrow s.my m r a k t w (before s.my d)).1) (statistics s x (groupValues s.my m a k t)) () v) :
    Goes (.vcvtn m x r tc a d) s (counted v (convertedNarrow s.my m r a k t w (before s.my d)).2) .seq := by
  refine goes_of_meaning hr (exec_vcvtn m x r tc a d s) ?_
  rw [M.bind_of (laneType_ok ht), M.bind_of (codeType_ok hw s)]
  dsimp only
  rw [ratio_of_widths (eTyOf_width_pos hw) htw, M.bind_of (require_apply (ratio_ok hk htw) _ _ _ _ s), M.bind_of (grouped_ok ha s),
    M.bind_of (allocated_ok hl), M.bind_of (portUse_ok hu), M.bind_of (noPorts_ok hn), M.bind_of (oldVec_ok d s), M.get_bind]
  exact statistics_write_tally _ (amaxAll_group s.my m a k t s) hv

theorem vcvtn_goes_registers (h : registers s.my [(d, 1)] = true) :
    let q := convertedNarrow s.my m r a k t w (before s.my d)
    Goes (.vcvtn m x r tc a d) s (counted (putVec 0 d q.1 (statistics s x (groupValues s.my m a k t))) q.2) .seq :=
  vcvtn_goes hr ht hw hk htw ha hl hu hn
    (vdst_statistics (ready_steady hr) x _ (registers_plain h (f := d) (by simp)) _)

end
end

/-! ### QNT and DQNT -/

theorem wideFloat_ok {s : State} {f : FTy} (h : laneTypeOf ETy.isFloat s.my = some (.flt f)) : wideFloat s = .ok (f, s) :=
  M.bind_of (laneType_ok h)

theorem formatOf_ok {f : BitVec 5} {q : QFmt} (h : qFmtOf f.toNat = some q) (s : State) : formatOf f s = .ok (q, s) := by
  rw [formatOf, h]
  rfl

/-- A group of 512 wide elements has 1, 2, 4 or 8 registers. -/
theorem groupSize_dvd (f : FTy) : f.width / 8 ∣ 32 := by
  cases f <;> decide

/-- The 16 blocks of the 512 wide elements at a, quantised (R29, R174). -/
def qntBlocks (c : Ctx) (r : BitVec 2) (a : BitVec 5) (f : FTy) (q : QFmt) : List QBlock :=
  let elem := fun k => decodeF f (elemOf (vget 0 c.vregs (a.toNat + k / (4096 / f.width))) f.width (k % (4096 / f.width)))
  (List.range 16).map fun j => qntBlock ((List.range 32).map fun k => elem (32 * j + k)) q (rmOf r)

/-- AMAX merged with a magnitude under lookahead: at once, or pending (R32, R52). -/
def putAmax (la : BitVec 4) (mag : Nat) (nan : Bool) (s : State) : State :=
  s.updMy fun c => if la = 0#4 then { c with amax := amaxMerge c.amax mag nan } else { c with pend := c.pend ++ [⟨la.toNat + 1, .amax mag nan⟩] }

theorem amaxLa_ok (la : BitVec 4) (mag : Nat) (nan : Bool) (s : State) : amaxLa la mag nan s = .ok ((), putAmax la mag nan s) := rfl

/-- The checks of QNT and DQNT: two groups that are aligned, allocated and no bound ports, before anything else is done. -/
theorem twoGroups_checked {s : State} {a d : BitVec 5} {n p : Nat} (ha : a.toNat % n = 0) (hd : d.toNat % p = 0)
    (hl : allocatedTo s.my [(a, n), (d, p)] = true) (hna : unbound s.my a n = true) (hnd : unbound s.my d p = true) (k : M Next) :
    (do grouped a n; grouped d p; allocated [(a, n), (d, p)]; noPorts a n; noPorts d p; k) s = k s := by
  rw [M.bind_of (grouped_ok ha s), M.bind_of (grouped_ok hd s), M.bind_of (allocated_ok hl), M.bind_of (noPorts_ok hna),
    M.bind_of (noPorts_ok hnd)]

section
variable {r : BitVec 2} {la : BitVec 4} {tc a d : BitVec 5} {s : State} {f : FTy} {q : QFmt}
  (ht : laneTypeOf ETy.isFloat s.my = some (.flt f)) (hq : qFmtOf tc.toNat = some q)
include ht hq

theorem qnt_goes (hr : ready (.qnt r la tc a d) s = true) (ha : a.toNat % (f.width / 8) = 0) (hd : d.toNat % 2 = 0)
    (hl : allocatedTo s.my [(a, f.width / 8), (d, 2)] = true) (hna : unbound s.my a (f.width / 8) = true) (hnd : unbound s.my d 2 = true) :
    let blocks := qntBlocks s.my r a f q
    Goes (.qnt r la tc a d) s (counted (putAmax la ((blocks.map QBlock.mag).foldl max 0) (blocks.any QBlock.nan)
      (putGroup la d [vecOf 8 (blocks.flatMap QBlock.codes), vecOf 8 (blocks.map QBlock.scale)] s)) (sumCounts (blocks.map QBlock.counts))) .seq := by
  have hs := ready_steady hr
  refine goes_of_meaning hr (exec_qnt r la tc a d s) ?_
  rw [M.bind_of (wideFloat_ok ht), M.bind_of (formatOf_ok hq s)]
  dsimp only
  rw [twoGroups_checked ha hd hl hna hnd, M.get_bind,
    M.bind_of (vdstGroup_registers (steady_le hs) (steady_pair hs) (by decide) hd rfl hnd)]
  exact write_tally (amaxLa_ok la _ _ _) _

/-- The k that register a + 1 gives: that many planes are read, all of them where it is 0 (R176). -/
def planesKept (c : Ctx) (a : BitVec 5) (q : QFmt) : Nat :=
  match q with
  | .planes _ => elemOf (vget 0 c.vregs (a.toNat + 1)) 8 16
  | .small _ => 0

/-- Wide element j of the codes at a and their scales, with its events (R30, R176). -/
def dequantised (c : Ctx) (r : BitVec 2) (a : BitVec 5) (f : FTy) (q : QFmt) (j : Nat) : Nat × Counts :=
  let n := q.planeCount
  let k := if planesKept c a q = 0 then n else planesKept c a q
  let x := elemOf (vget 0 c.vregs a.toNat) 8 j
  dqntElem (match q with | .planes _ => wrap n (toSigned k x * (2 ^ (n - k) : Int)) | .small _ => x)
    (elemOf (vget 0 c.vregs (a.toNat + 1)) 8 (j / 32)) q n k f (rmOf r)

section
variable (hr : ready (.dqnt r la tc a d) s = true) (ha : a.toNat % 2 = 0) (hd : d.toNat % (f.width / 8) = 0)
  (hl : allocatedTo s.my [(a, 2), (d, f.width / 8)] = true) (hna : unbound s.my a 2 = true) (hnd : unbound s.my d (f.width / 8) = true)
include hr ha hd hl hna hnd

theorem dqnt_planes_illegal (h0 : planesKept s.my a q ≠ 0) (hk : planesKept s.my a q < 2 ∨ q.planeCount < planesKept s.my a q) :
    Illegal (.dqnt r la tc a d) s 0x23 := by
  refine illegal_of_meaning hr (exec_dqnt r la tc a d s) ?_
  rw [M.bind_of (wideFloat_ok ht), M.bind_of (formatOf_ok hq s)]
  dsimp only
  rw [twoGroups_checked ha hd hl hna hnd, M.get_bind]
  have bad : (planesKept s.my a q == 0 || (decide (2 ≤ planesKept s.my a q) && decide (planesKept s.my a q ≤ q.planeCount))) = false := by
    simp only [Bool.or_eq_false_iff, beq_eq_false_iff_ne, Bool.and_eq_false_iff, decide_eq_false_iff_not, Nat.not_le]
    exact ⟨h0, hk⟩
  exact M.bind_error (require_false bad _ _ _ _ s)

theorem dqnt_goes (hk : planesKept s.my a q = 0 ∨ 2 ≤ planesKept s.my a q ∧ planesKept s.my a q ≤ q.planeCount) :
    let rs := (List.range 512).map (dequantised s.my r a f q)
    Goes (.dqnt r la tc a d) s (counted (putGroup la d ((List.range (f.width / 8)).map fun g =>
      vecOf f.width (((rs.drop (g * (4096 / f.width))).take (4096 / f.width)).map Prod.fst)) s) (sumCounts (rs.map Prod.snd))) .seq := by
  have hs := ready_steady hr
  refine goes_of_meaning hr (exec_dqnt r la tc a d s) ?_
  rw [M.bind_of (wideFloat_ok ht), M.bind_of (formatOf_ok hq s)]
  dsimp only
  rw [twoGroups_checked ha hd hl hna hnd, M.get_bind]
  have good : (planesKept s.my a q == 0 || (decide (2 ≤ planesKept s.my a q) && decide (planesKept s.my a q ≤ q.planeCount))) = true := by
    simpa using hk
  refine (M.bind_of (require_apply good _ _ _ _ s)).trans ?_
  exact write_tally (vdstGroup_registers (steady_le hs) (steady_pair hs) (groupSize_dvd f) hd (by simp) hnd) _

end
end

end Sys2Proof.Machine
end

section
open Sys2Proof.Machine

/-- Settles O41: each conversion reads its source, merges AMAX and writes; where its fields are registers all three are done outright. -/
theorem Sys2Proof.Proofs.conversions : Obligations.Conversions := by
  refine ⟨fun m x r tc a d s => ⟨?_, ?_, ?_, ?_⟩, ?_, ?_⟩
  · exact fun t w e u v hr ht hw hwt => vcvt_goes hr ht hw hwt
  · exact fun t w hr ht hw hwt => vcvt_goes_registers hr ht hw hwt
  · exact fun t w e u v k hr hw ht hk hwt =>
      ⟨vcvtw_misaligned hr hw ht hk hwt, vcvtw_goes hr hw ht hk hwt, vcvtw_goes_registers hr hw ht hk hwt⟩
  · exact fun t w v k hr ht hw hk htw => ⟨vcvtn_misaligned hr ht hw hk htw, fun ha hl hu hn =>
      ⟨vcvtn_goes hr ht hw hk htw ha hl hu hn, vcvtn_goes_registers hr ht hw hk htw ha hl hu hn⟩⟩
  · exact fun r la tc a d s f q hr ht hq => qnt_goes ht hq hr
  · intro r la tc a d s f q hr ht hq ha hd hl hna hnd
    -- the statement's own match on the format is decided before the two are compared
    cases q <;> exact ⟨dqnt_planes_illegal ht hq hr ha hd hl hna hnd, dqnt_goes ht hq hr ha hd hl hna hnd⟩
end

section
/-! Compares, mask operations and VSEL (R167, R168). -/

namespace Sys2Proof.Machine

open Sys2Proof.Safety

/-! ### Compares -/

/-- The bits of a compare of x and y: the predicate at active elements, the old bit at inactive ones, 0 beyond the elements (R167). -/
def compared (c : Ctx) (p : Nat) (m : BitVec 1) (d : BitVec 5) (t : ETy) (x y : Vec) : Mask :=
  maskOf ((List.range (4096 / t.width)).map fun k =>
    if c.active m k then predicate p t (elemOf x t.width k) (elemOf y t.width k) else (vget 0 c.masks d.toNat).getLsbD k)

theorem compareOp_exec {i : Instr} {p : Nat} {m : BitVec 1} {b a d : BitVec 5} (h : compareOp i = some (p, m, b, a, d)) (s : State) :
    exec i s = runInstr i (compare p m b a d) s := by
  unfold compareOp at h
  split at h
  case h_9 => cases h
  all_goals
    cases h
    rfl

section
variable {i : Instr} {p : Nat} {m : BitVec 1} {b a d : BitVec 5} {s : State} {t : ETy} (hi : compareOp i = some (p, m, b, a, d))
  (hr : ready i s = true) (ht : laneTypeOf anyType s.my = some t)
include hi hr ht

theorem compare_goes {u : State} {x y : Vec} (hl : allocatedTo s.my [(a, 1), (b, 1)] = true) (hu : usable s.my [a, b] [] = true)
    (hx : Does (vsrc2 a b) s (x, y) u) (hs : steady u = true) : Goes i s (putMask d (compared u.my p m d t x y) u) .seq := by
  refine goes_of_meaning hr (compareOp_exec hi s) ?_
  unfold compare
  rw [M.bind_of (laneType_ok ht), M.bind_of (allocated_ok hl), M.bind_of (portUse_ok hu), M.bind_of hx]
  dsimp only
  rw [M.get_bind]
  exact M.bind_of (mdst_ok hs d _)

theorem compare_goes_registers (h : registers s.my [(a, 1), (b, 1)] = true) :
    Goes i s (putMask d (compared s.my p m d t (held s a) (held s b)) s) .seq := by
  have ha := registers_plain h (f := a) (by simp)
  have hb := registers_plain h (f := b) (by simp)
  exact compare_goes hi hr ht (registers_cons h) (usable_plain (by simpa using ⟨ha, hb⟩) (by simp)) (vsrc2_plain ha hb) (ready_steady hr)

end

/-! ### Operations on masks -/

/-- An operation on whole masks: f of the context into mask register d, where the strand has vectors. -/
def maskMeaning (f : Ctx → Mask) (d : BitVec 5) : M Next := do
  allocatedMask
  let s ← get
  mdst d (f s.my)
  pure .seq

theorem maskOp_exec {i : Instr} {f : Ctx → Mask} {d : BitVec 5} (h : maskOp i = some (f, d)) (s : State) :
    exec i s = runInstr i (maskMeaning f d) s := by
  unfold maskOp at h
  split at h
  case h_5 => cases h
  all_goals
    cases h
    rfl

theorem mask_goes {i : Instr} {f : Ctx → Mask} {d : BitVec 5} {s : State} (hi : maskOp i = some (f, d)) (hr : ready i s = true)
    (hv : s.my.va ≠ 0) : Goes i s (putMask d (f s.my) s) .seq := by
  refine goes_of_meaning hr (maskOp_exec hi s) ?_
  unfold maskMeaning
  rw [M.bind_of (allocatedMask_ok hv), M.get_bind]
  exact M.bind_of (mdst_ok (ready_steady hr) d _)

theorem mask_illegal {i : Instr} {f : Ctx → Mask} {d : BitVec 5} {s : State} (hi : maskOp i = some (f, d)) (hr : ready i s = true)
    (hv : s.my.va = 0) : Traps i s { code := 0x02, val := wordOfInstr i } :=
  illegalReg_of_meaning hr (maskOp_exec hi s) (M.bind_error (allocatedMask_none hv))

/-! ### Element bits: MPOP, MFIRST and MFILL -/

theorem laneCount_ok {s : State} {t : ETy} (h : laneTypeOf anyType s.my = some t) : laneCount s = .ok (4096 / t.width, s) :=
  M.bind_of (laneType_ok h)

/-- A scalar written from the masks: f of the number of elements and the context. -/
def maskScalarMeaning (d : BitVec 5) (f : Nat → Ctx → Word) : M Next := do
  let n ← laneCount
  allocatedMask
  ports [d]
  let s ← get
  dst d (f n s.my)
  pure .seq

theorem maskScalar_goes {i : Instr} {d : BitVec 5} {f : Nat → Ctx → Word} {s v : State} {t : ETy} (hr : ready i s = true)
    (he : exec i s = runInstr i (maskScalarMeaning d f) s) (hv : s.my.va ≠ 0) (ht : laneTypeOf anyType s.my = some t)
    (hp : portOk s d = true) (hw : written s d (f (4096 / t.width) s.my) = some v) : Goes i s v .seq := by
  refine goes_of_meaning hr he ?_
  unfold maskScalarMeaning
  rw [M.bind_of (laneCount_ok ht), M.bind_of (allocatedMask_ok hv), M.bind_of (ports_ok (by simpa using hp)), M.get_bind]
  exact M.bind_of (dst_steady (ready_steady hr) hw)

/-- The element bits of mask a that are 1, counted (R168). -/
def popCount (a : BitVec 5) (n : Nat) (c : Ctx) : Word := word ((List.range n).filter fun k => (vget 0 c.masks a.toNat).getLsbD k).length

/-- The first element bit of mask a that is 1, or n where there is none (R168). -/
def firstBit (a : BitVec 5) (n : Nat) (c : Ctx) : Word := word (((List.range n).find? fun k => (vget 0 c.masks a.toNat).getLsbD k).getD n)

theorem mpop_exec (a d : BitVec 5) (s : State) : exec (.mpop a d) s = runInstr (.mpop a d) (maskScalarMeaning d (popCount a)) s := rfl

theorem mfirst_exec (a d : BitVec 5) (s : State) : exec (.mfirst a d) s = runInstr (.mfirst a d) (maskScalarMeaning d (firstBit a)) s := rfl

theorem State.takeWord_cur (s : State) (dir : Nat) : (s.takeWord dir).cur = s.cur := by
  unfold State.takeWord
  split <;> rfl

theorem taken_cur (s : State) (fs : List (BitVec 5)) : (taken s fs).cur = s.cur := by
  unfold taken
  induction (fs.filterMap portDir).eraseDups generalizing s with
  | nil => rfl
  | cons dir dirs ih => rw [List.foldl_cons, ih, State.takeWord_cur]

/-- Words taken from ports leave the agent steady. -/
theorem taken_steady {s : State} (h : steady s = true) (fs : List (BitVec 5)) : steady (taken s fs) = true := by
  obtain ⟨o, n, hmy⟩ := taken_my s (steady_le h) fs
  rw [steady, hmy, taken_cur]
  exact h

theorem mfill_goes {a d : BitVec 5} {s : State} {t : ETy} {x : Word} (hr : ready (.mfill a d) s = true) (hv : s.my.va ≠ 0)
    (ht : laneTypeOf anyType s.my = some t) (h0 : s.my.operands = []) (hp : portOk s a = true) (hx : value s a = some x) :
    Goes (.mfill a d) s (putMask d (BitVec.ofNat 1024 (2 ^ min x.toNat (4096 / t.width) - 1)) (taken s [a])) .seq := by
  refine goes_of_meaning hr (exec_mfill a d s) ?_
  rw [M.bind_of (laneCount_ok ht), M.bind_of (allocatedMask_ok hv), M.bind_of (ports_ok (by simpa using hp)),
    M.bind_of (src_ok h0 hx), Nat.min_eq_min]
  exact M.bind_of (mdst_ok (taken_steady (ready_steady hr) [a]) d _)

/-! ### VSEL -/

/-- The elements of x where m0 is 1, of y where it is 0 (R168). -/
def selected (c : Ctx) (t : ETy) (x y : Vec) : Vec :=
  vecOf t.width ((List.range (4096 / t.width)).map fun k => elemOf (if (vget 0 c.masks 0).getLsbD k then x else y) t.width k)

/-- VSEL has no inactive elements: m0 selects and masks nothing. -/
theorem lanes_select (c : Ctx) (t : ETy) (x y old : Vec) :
    (lanes c 0#1 t.width old fun k => (elemOf (if c.active 1#1 k then x else y) t.width k, .zero)).1 = selected c t x y :=
  congrArg (vecOf t.width) List.map_map

section
variable {b a d : BitVec 5} {s : State} {t : ETy} (hr : ready (.vsel b a d) s = true) (ht : laneTypeOf anyType s.my = some t)
include hr ht

theorem vsel_goes {u v : State} {x y : Vec} (hl : allocatedTo s.my [(a, 1), (b, 1), (d, 1)] = true) (hu : usable s.my [a, b] [d] = true)
    (hx : Does (vsrc2 a b) s (x, y) u) (hv : Does (vdst d (selected u.my t x y)) u () v) : Goes (.vsel b a d) s v .seq := by
  refine goes_of_meaning hr (exec_vsel b a d s) ?_
  rw [M.bind_of (laneType_ok ht), M.bind_of (allocated_ok hl), M.bind_of (portUse_ok hu), M.bind_of hx]
  dsimp only
  rw [M.get_bind, lanes_select]
  exact M.bind_of hv

theorem vsel_goes_registers (h : registers s.my [(a, 1), (b, 1), (d, 1)] = true) :
    Goes (.vsel b a d) s (putVec 0 d (selected s.my t (held s a) (held s b)) s) .seq := by
  have hs := ready_steady hr
  have ha := registers_plain h (f := a) (by simp)
  have hb := registers_plain h (f := b) (by simp)
  have hd := registers_plain h (f := d) (by simp)
  exact vsel_goes hr ht (registers_cons h) (usable_plain (by simpa using ⟨ha, hb⟩) (by simpa using hd)) (vsrc2_plain ha hb)
    (vdst_plain (steady_le hs) (steady_pair hs) hd)

end

end Sys2Proof.Machine
end

section
open Sys2Proof.Machine

/-- Settles O42: compares and mask operations write one mask register, whose value is that of their element bits. -/
theorem Sys2Proof.Proofs.masks : Obligations.Masks := by
  refine ⟨?_, ?_, ?_, ?_, ?_, ?_, ?_⟩
  · exact fun i p m b a d s u t x y hi hr ht => compare_goes hi hr ht
  · exact fun i p m b a d s t hi hr ht => compare_goes_registers hi hr ht
  · exact fun b a d s t hr ht => vsel_goes_registers hr ht
  · exact fun i f d s hi hr => ⟨mask_goes hi hr, mask_illegal hi hr⟩
  · exact fun a d s v t hv ht hp =>
      ⟨fun hr hw => maskScalar_goes hr (mpop_exec a d s) hv ht hp hw, fun hr hw => maskScalar_goes hr (mfirst_exec a d s) hv ht hp hw⟩
  · exact fun a d s t x => mfill_goes
  · exact fun b a d s u v t x y hr ht => vsel_goes hr ht
end

section
/-! Reductions (R38, R169). -/

namespace Sys2Proof.Machine

open Sys2Proof.Safety

/-- The meaning that the model gives a reduction. -/
def reduceMeaning (op : ReduceOp) : M Next := reduce op.sum op.identity op.mask op.rounding op.a op.d op.f

/-- The tree over the elements of x, the identity standing for inactive ones, with its events (R38). -/
def reduction (op : ReduceOp) (c : Ctx) (t : ETy) (x : Vec) : Nat × Counts :=
  tree (op.f t) (Nat.log2 (4096 / t.width)) ((List.range (4096 / t.width)).map fun k =>
    if c.active op.mask k then elemOf x t.width k else op.identity t)

theorem reduceOp_exec {i : Instr} {op : ReduceOp} (h : reduceOp i = some op) (s : State) : exec i s = runInstr i (reduceMeaning op) s := by
  unfold reduceOp at h
  split at h
  case h_7 => cases h
  all_goals
    cases h
    rfl

section
variable {i : Instr} {op : ReduceOp} {s v : State} {t : ETy} (hi : reduceOp i = some op) (hr : ready i s = true)
  (ht : laneTypeOf anyType s.my = some t) (hm : op.rounding = 0#2 ∨ op.sum = true ∧ t.isFloat = true)
include hi hr ht hm

theorem reduction_goes {u : State} {x : Vec} (hl : allocatedTo s.my [(op.a, 1)] = true) (hu : usable s.my [op.a] [] = true)
    (hp : portOk s op.d = true) (hx : Does (vsrc op.a) s x u) (hs : steady u = true)
    (hw : written u op.d (reduced t (reduction op u.my t x).1) = some v) : Goes i s (counted v (reduction op u.my t x).2) .seq := by
  refine goes_of_meaning hr (reduceOp_exec hi s) ?_
  unfold reduceMeaning reduce
  rw [M.bind_of (laneType_ok ht), M.bind_of (require_apply (by simpa using hm) _ _ _ _ s), M.bind_of (allocated_ok hl),
    M.bind_of (portUse_ok hu), M.bind_of (ports_ok (by simpa using hp)), M.bind_of hx, M.get_bind]
  exact write_tally (dst_steady hs hw) _

theorem reduction_goes_registers (h : registers s.my [(op.a, 1)] = true) (hp : portOk s op.d = true)
    (hw : written s op.d (reduced t (reduction op s.my t (held s op.a)).1) = some v) :
    Goes i s (counted v (reduction op s.my t (held s op.a)).2) .seq := by
  have ha := registers_plain h (f := op.a) (by simp)
  exact reduction_goes hi hr ht hm (registers_cons h) (usable_plain (by simpa using ha) (by simp)) hp (vsrc_plain ha) (ready_steady hr) hw

end

/-- Two levels of the tree: neighbours first, then the two results (R38). -/
theorem tree_two_levels (f : Nat → Nat → Nat × Counts) (x y z w : Nat) :
    (tree f 2 [x, y, z, w]).1 = (f (f x y).1 (f z w).1).1 := rfl

end Sys2Proof.Machine
end

section
open Sys2Proof.Machine

/-- Settles O43: every VR instruction runs the one meaning of reductions, with its own function and identity. -/
theorem Sys2Proof.Proofs.reductions : Obligations.Reductions :=
  ⟨fun _ _ _ _ _ _ _ hi hr ht hm => reduction_goes hi hr ht hm, fun _ _ _ _ _ hi hr ht hm => reduction_goes_registers hi hr ht hm,
    tree_two_levels⟩
end
